-- ==== Sys2Proof/Word.lean ====
section
/-! DEFINITION. The word types of the machine. -/

namespace Sys2Proof

/-- One byte of memory (R3). -/
abbrev Byte := BitVec 8

/-- A 64-bit word: a scalar register, an address, a special register (R29, R33). -/
abbrev Word := BitVec 64

/-- A 24-bit operand field of the instruction word (R29). -/
abbrev Field := BitVec 24

/-- The 96-bit instruction word (R23). -/
abbrev IWord := BitVec 96

end Sys2Proof
end

