-- ==== Sys2Proof/Config.lean ====
section
/-! DEFINITION. What is fixed for the machine, and the free values: constants without a body, of which nothing can be
proved, for what the spec leaves open (DESIGN CHOICE, log 9). -/

namespace Sys2Proof.Config

/-- A free value, applied to a counter of the state that the step advances (DESIGN CHOICE, log 9). -/
opaque freeWord : Nat → Word

/-- Bytes of an attestation signature: a function of the signed body (23 R423) and the byte's index; the key is fused
and cannot be read (23 R422). -/
opaque signByte : List Byte → Nat → Byte

/-- The 16 MiB flash attached to die 0, which holds the one firmware image of all dies (23 R419): of the number that names the image
and the offset. -/
opaque flashByte : Nat → Nat → Byte

/-- The version of a die's boot ROM, as it is measured (23 R420). -/
opaque romVersion : Nat → List Byte

/-- The vendor public key that a die's boot ROM finds embedded, and the hash fused into the die (23 R419, R420). -/
opaque embeddedKey : Nat → List Byte
opaque keyFuse : Nat → List Byte

/-- A signature is one of a message under a public key by SLH-DSA-SHA2-192s (23 R419), a standard that the spec names and does not
state: of key, message and signature. -/
opaque signatureOk : List Byte → List Byte → List Byte → Bool

/-- The fused values read at 0x0E2-0x0EA: public key words, serial words, minimum SVN (23 R422). -/
opaque fuseWord : Nat → Word

/-- What a window of this device stands for when a packet names it: the GVA of offset 0 and the task whose tables translate
it, by the packet's return route and WIN. The requester's table names both (09 R209), and no packet carries them. -/
opaque inboundWindow : List Nat → Nat → Nat × BitVec 16

/-- Logical cores (R8). -/
def nCores : Nat := 2048

/-- The base of the core-memory windows (R10, R142). -/
def winBase : Nat := 0x0080000000000000

/-- The base of the peer windows (R142, R210). -/
def peerBase : Nat := 0x0090000000000000

/-- The base of the host window (R142). -/
def hostBase : Nat := 0x00A0000000000000

/-- The base of the system registers (R142). -/
def sysBase : Nat := 0x00F0000000000000

/-- The end of physical memory, which is also the end of task 0's translation (R17, R353). -/
def physEnd : Nat := 0x18000000000

/-- Bytes of DRAM each die holds (R17). -/
def dieBytes : Nat := 0x6000000000

/-- The hearth cores (R12). -/
def hearthCores : List Nat := [0, 32, 1024, 1056]

/-- The spare positions' logical numbers (R12). -/
def spares : List Nat :=
  [926, 927, 990, 991, 958, 959, 1022, 1023, 1950, 1951, 2014, 2015, 1982, 1983, 2046, 2047]

end Sys2Proof.Config
end

