-- ==== Sys2Proof/Syntax.lean ====
section
/-! DEFINITION. The abstract syntax: type codes, operands, and one constructor of `Instr` for every row of
spec/opcode_table.json. The first 223 are the 96-bit words of R36; the others are the steps of the machine that
no word encodes, each whole and indivisible; the step function takes them from the state's agenda. -/

namespace Sys2Proof

/-- The type codes of R35 (the code 0xF names no type). -/
inductive Ty where
  | i8 | i16 | i32 | i64 | n8 | n16 | n32 | n64 | h16 | b16 | f32 | f64 | f8 | q4 | x64
  deriving DecidableEq, Repr

/-- Where `spawn` places its population (R94). -/
inductive Placement where
  | loc | core | addr | mask
  deriving DecidableEq, Repr

/-- The scopes of R172. -/
inductive Scope where
  | thr | core | clu | band | die | dev | host | peer | grp | fab | sys
  deriving DecidableEq, Repr

/-- The scopes of `tlbi` and `tlbw` (R362). -/
inductive TlbScope where
  | clu | band | die | dev
  deriving DecidableEq, Repr

/-- Width and order of a `cas` (R183). -/
structure CasFn where
  wide : Bool
  rel : Bool
  acq : Bool
  deriving DecidableEq, Repr

/-- An operand, by its KIND (R29). A long literal stands in B and takes the C field with it. -/
inductive Opnd where
  | reg (r : BitVec 4) (sync neg val : Bool)
  | pred (p : BitVec 3) (cond : BitVec 4)
  | spec (i : BitVec 8)
  | imm (v : BitVec 21)
  | chan (c : BitVec 3)
  | lit (v : BitVec 45)
  | absent
  deriving DecidableEq, Repr

/-- Guard, stall count, cache policy and yield of a word (R23, R25-R28). -/
structure Head where
  gn : Bool
  gp : BitVec 3
  stall : BitVec 4
  cp : BitVec 2
  yl : Bool
  deriving DecidableEq, Repr

/-- What every instruction word holds beside OP and FN. -/
structure Args where
  h : Head
  a : Opnd
  b : Opnd
  c : Opnd
  deriving DecidableEq, Repr

/-- How a read of storage that met an uncorrectable error ended (R399): an input of MISS_FILL. `va`: the GVA and the task of the access
that met it, if a program address was involved (R402). -/
inductive ReadOutcome where
  | clean
  | transient (syn : BitVec 16) (va : Option (Word × BitVec 16))
  | lasting (syn : BitVec 16) (va : Option (Word × BitVec 16))
  deriving DecidableEq, Repr

/-- One constructor per row of spec/opcode_table.json. -/
inductive Instr where
  /-- Does nothing except advance PC by 12, honouring STALL and YL (R61) -/
  | nop (x : Args)
  /-- Relative branch to PC plus imm21 times 4 when enabled (R62) -/
  | br (x : Args)
  /-- Jumps to the address held in X[A] (R63) -/
  | jmp (x : Args)
  /-- Writes the return address to x15 and branches relative (R64) -/
  | call (x : Args)
  /-- Writes the return address to x15 and jumps to the address in X[A] (R64) -/
  | callr (x : Args)
  /-- Decrements the counter register and branches while it is non-zero (R65) -/
  | loop (x : Args)
  /-- Compares two operands at a type and writes the condition result to a predicate (R66) -/
  | cmp (t : Ty) (x : Args)
  /-- Writes the AND of two predicates (R67) -/
  | plogAnd (x : Args)
  /-- Writes the OR of two predicates (R67) -/
  | plogOr (x : Args)
  /-- Writes the XOR of two predicates (R67) -/
  | plogXor (x : Args)
  /-- Writes b AND NOT c of two predicates (R67) -/
  | plogAndn (x : Args)
  /-- Writes b OR NOT c of two predicates (R67) -/
  | plogOrn (x : Args)
  /-- Writes the XNOR of two predicates (R67) -/
  | plogXnor (x : Args)
  /-- Copies one predicate to another (R67) -/
  | plogMov (x : Args)
  /-- Writes the negation of a predicate (R67) -/
  | plogNot (x : Args)
  /-- Raises user trap SWT with the immediate as detail, or escalates when TRIN is set (R68) -/
  | trap (x : Args)
  /-- Clears TRIN and resumes at the trapping instruction (R69) -/
  | tretRetry (x : Args)
  /-- Clears TRIN and resumes at the instruction after the trapping one (R69) -/
  | tretNext (x : Args)
  /-- Advances PC and raises system event DBG, dropping the thread to the hearth (R70) -/
  | brk (x : Args)
  /-- Reads a spawn descriptor, creates a population and materialises its first wave (R94) -/
  | spawn (sc : Placement) (x : Args)
  /-- Waits for PEND to clear, frees the thread, leaves its group and pulls the next index (R96) -/
  | exit (x : Args)
  /-- Consumes a pending wake or parks the thread until a wake arrives (R97) -/
  | park (x : Args)
  /-- Completes earlier stores and sends a wake to a thread attached to a named core (R97) -/
  | wake (x : Args)
  /-- Unbinds the thread and places it at the run-queue tail (R98) -/
  | yield (x : Args)
  /-- Migrates the thread's context to the home core of an address (R99) -/
  | hop (x : Args)
  /-- Arrives at the crew barrier with a core-scope release and parks until all members arrive (R100) -/
  | cbar (x : Args)
  /-- Arrives at the gang barrier with a cluster-scope release and parks until all members arrive (R100) -/
  | gbar (x : Args)
  /-- Dequeues the oldest message of an inbox channel into four registers, parking while empty (R101) -/
  | ibx (x : Args)
  /-- Sends a message to an inbox channel of a target core or peer (R102) -/
  | ibs (x : Args)
  /-- Registers or removes the notice thread of an inbox channel (R103) -/
  | ntc (x : Args)
  /-- Opens a join record counting the next n engine commands (R104) -/
  | fork (x : Args)
  /-- Parks until the join record's completions are counted and returns its status (R104) -/
  | rdv (x : Args)
  /-- Pins the thread's context line if fewer than 16 lines are pinned (R105) -/
  | cpinOn (x : Args)
  /-- Unpins the thread's context line (R105) -/
  | cpinOff (x : Args)
  /-- Reads the draught allowance of a destination into a register (R106) -/
  | drq (x : Args)
  /-- Compares a destination's allowance with a threshold, writes a predicate and branches on it (R106) -/
  | jdr (n : BitVec 4) (x : Args)
  /-- Integer addition at a type, wrapped to its width (R112) -/
  | add (t : Ty) (x : Args)
  /-- Integer subtraction at a type, wrapped to its width (R112) -/
  | sub (t : Ty) (x : Args)
  /-- Low half of the integer product (R112) -/
  | mul (t : Ty) (x : Args)
  /-- High half of the exact integer product (R112) -/
  | mulh (t : Ty) (x : Args)
  /-- Integer quotient truncated toward zero, trapping ARI on a zero divisor (R114) -/
  | div (t : Ty) (x : Args)
  /-- Integer remainder with the sign of the dividend, trapping ARI on a zero divisor (R114) -/
  | rem (t : Ty) (x : Args)
  /-- Bitwise AND (R112) -/
  | and (t : Ty) (x : Args)
  /-- Bitwise OR (R112) -/
  | or (t : Ty) (x : Args)
  /-- Bitwise XOR (R112) -/
  | xor (t : Ty) (x : Args)
  /-- Bitwise a AND NOT b (R112) -/
  | andn (t : Ty) (x : Args)
  /-- Lesser of two integers by the type's signedness (R112) -/
  | min (t : Ty) (x : Args)
  /-- Greater of two integers by the type's signedness (R112) -/
  | max (t : Ty) (x : Args)
  /-- Logical left shift (R115) -/
  | shl (t : Ty) (x : Args)
  /-- Logical right shift (R115) -/
  | shr (t : Ty) (x : Args)
  /-- Arithmetic right shift (R115) -/
  | sar (t : Ty) (x : Args)
  /-- Rotate right by the amount mod width (R115) -/
  | rot (t : Ty) (x : Args)
  /-- Counts leading zero bits (R116) -/
  | clz (t : Ty) (x : Args)
  /-- Counts trailing zero bits (R116) -/
  | ctz (t : Ty) (x : Args)
  /-- Counts one bits (R116) -/
  | popc (t : Ty) (x : Args)
  /-- Reverses the bytes of the value at its width (R116) -/
  | bswap (t : Ty) (x : Args)
  /-- Extracts a bitfield given by a control value (R117) -/
  | bext (t : Ty) (x : Args)
  /-- Inserts a bitfield into the destination register (R117) -/
  | bins (t : Ty) (x : Args)
  /-- Converts between integer types with saturation (R118) -/
  | cvi (t : Ty) (x : Args)
  /-- Writes a register or immediate value at a type (R119) -/
  | mov (t : Ty) (x : Args)
  /-- Writes a sign-extended immediate or 45-bit long literal (R119) -/
  | movl (x : Args)
  /-- Samples a special register into a scalar register (R121) -/
  | mvs (x : Args)
  /-- Writes a value into a special register after earlier results land (R122) -/
  | msv (x : Args)
  /-- Adds base and offset with 64-bit wrap (R123) -/
  | leaAdd (x : Args)
  /-- Adds within the offset, keeping the base's segment bits (R123) -/
  | leaOff (x : Args)
  /-- Translates an address through its segment to a GVA, checking the limit (R123) -/
  | leaGva (x : Args)
  /-- Forms an address in a named segment from the sum's offset bits (R123) -/
  | leaSeg (n : BitVec 3) (x : Args)
  /-- Integer multiply-add into the destination register (R113) -/
  | mad (t : Ty) (x : Args)
  /-- Floating-point addition with one rounding (R132) -/
  | fadd (t : Ty) (x : Args)
  /-- Floating-point subtraction with one rounding (R132) -/
  | fsub (t : Ty) (x : Args)
  /-- Floating-point multiplication with one rounding (R132) -/
  | fmul (t : Ty) (x : Args)
  /-- Fused multiply-add into the destination with one rounding (R132) -/
  | fma (t : Ty) (x : Args)
  /-- Floating-point division with one rounding (R132) -/
  | fdiv (t : Ty) (x : Args)
  /-- Floating-point square root with one rounding (R132) -/
  | fsqrt (t : Ty) (x : Args)
  /-- IEEE minimumNumber of two values (R133) -/
  | fmin (t : Ty) (x : Args)
  /-- IEEE maximumNumber of two values (R133) -/
  | fmax (t : Ty) (x : Args)
  /-- Converts between floating-point formats (R134) -/
  | fcvt (t : Ty) (x : Args)
  /-- Converts a floating-point value to an integer type with saturation (R135) -/
  | fcvti (t : Ty) (x : Args)
  /-- Converts an integer to f32 or f64 (R136) -/
  | icvtf (t : Ty) (x : Args)
  /-- Rounds a value to an integral value in a selected mode (R137) -/
  | frnd (t : Ty) (x : Args)
  /-- Writes a one-hot class word of a floating-point value (R138) -/
  | fcls (t : Ty) (x : Args)
  /-- Plain load performed at the address's home (R158) -/
  | ld (t : Ty) (x : Args)
  /-- Plain posted store that sets the word full (R158) -/
  | st (t : Ty) (x : Args)
  /-- Waits at the home for the word full, reads it and sets it empty (R159) -/
  | ldc (x : Args)
  /-- Posted store that waits at the home for the word empty, writes it and sets it full (R159) -/
  | stp (x : Args)
  /-- Reads a word's full/empty bit (R160) -/
  | lfe (x : Args)
  /-- Sets a word's full/empty bit to empty (R160) -/
  | sfeEmpty (x : Args)
  /-- Sets a word's full/empty bit to full (R160) -/
  | sfeFull (x : Args)
  /-- Loads n consecutive words into n registers (R161) -/
  | ldm (n : BitVec 4) (x : Args)
  /-- Stores n registers to consecutive words (R161) -/
  | stm (n : BitVec 4) (x : Args)
  /-- Asks the home to bring a line into its L2 slice (R162) -/
  | pfch (x : Args)
  /-- Reads a segment register pair of the task (R163) -/
  | sgp (x : Args)
  /-- Returns the page attributes an access at an address would meet (R164) -/
  | pgq (x : Args)
  /-- Discards a range of 64 KiB pages and starts a TLB generation (R165) -/
  | dsc (x : Args)
  /-- Atomic add at the home, returning the old value (R182) -/
  | amoAdd (x : Args)
  /-- Atomic bitwise AND, returning the old value (R182) -/
  | amoAnd (x : Args)
  /-- Atomic bitwise OR, returning the old value (R182) -/
  | amoOr (x : Args)
  /-- Atomic bitwise XOR, returning the old value (R182) -/
  | amoXor (x : Args)
  /-- Atomic signed minimum, returning the old value (R182) -/
  | amoMin (x : Args)
  /-- Atomic signed maximum, returning the old value (R182) -/
  | amoMax (x : Args)
  /-- Atomic unsigned minimum, returning the old value (R182) -/
  | amoNmin (x : Args)
  /-- Atomic unsigned maximum, returning the old value (R182) -/
  | amoNmax (x : Args)
  /-- Atomic swap, returning the old value (R182) -/
  | amoSwap (x : Args)
  /-- Atomic f32 add with RNE, returning the old value (R182) -/
  | amoFadd32 (x : Args)
  /-- Atomic f32 maximumNumber, returning the old value (R182) -/
  | amoFmax32 (x : Args)
  /-- Atomic f64 add with RNE, returning the old value (R182) -/
  | amoFadd64 (x : Args)
  /-- Compare and swap at the home with an optional release and acquire at home scope (R183) -/
  | cas (f : CasFn) (x : Args)
  /-- Acquire load at a named scope (R184) -/
  | lda (sc : Scope) (x : Args)
  /-- Release store at a named scope (R184) -/
  | stl (sc : Scope) (x : Args)
  /-- Parks until the classes in its mask are ordered at a scope (R185) -/
  | fence (sc : Scope) (x : Args)
  /-- Waits at the home until the word differs from a value, then acquires (R186) -/
  | wtwNe (x : Args)
  /-- Waits at the home until the word is at least a value, then acquires (R186) -/
  | wtwGe (x : Args)
  /-- Opens a header-compressed stream in the sender table and returns its tag (R214) -/
  | sopn (x : Args)
  /-- Closes a stream and posts a CLOSE to its last home (R214) -/
  | scls (x : Args)
  /-- Stores n registers through a stream's cursor (R215) -/
  | sput (n : BitVec 4) (x : Args)
  /-- Parks until every packet sent to a destination is acknowledged (R216) -/
  | drn (x : Args)
  /-- Reads word 0 of a peer's level-1 table entry (R217) -/
  | pprbTab (x : Args)
  /-- Sends PROBEs along a peer's route and returns round-trip time and status (R217) -/
  | pprbPing (x : Args)
  /-- Stream elementwise addition (R235) -/
  | vadd (t : Ty) (x : Args)
  /-- Stream elementwise subtraction (R235) -/
  | vsub (t : Ty) (x : Args)
  /-- Stream elementwise multiplication (R235) -/
  | vmul (t : Ty) (x : Args)
  /-- Stream elementwise fused multiply-add into the destination (R235) -/
  | vfma (t : Ty) (x : Args)
  /-- Stream elementwise minimum (R235) -/
  | vmin (t : Ty) (x : Args)
  /-- Stream elementwise maximum (R235) -/
  | vmax (t : Ty) (x : Args)
  /-- Stream elementwise exponential (R236) -/
  | vexp (t : Ty) (x : Args)
  /-- Stream elementwise natural logarithm (R236) -/
  | vlog (t : Ty) (x : Args)
  /-- Stream elementwise reciprocal (R236) -/
  | vrcp (t : Ty) (x : Args)
  /-- Stream elementwise reciprocal square root (R236) -/
  | vrsq (t : Ty) (x : Args)
  /-- Stream elementwise square root (R236) -/
  | vsqrt (t : Ty) (x : Args)
  /-- Stream elementwise type conversion (R237) -/
  | vcvt (t : Ty) (x : Args)
  /-- Stream sum reduction into a register (R238) -/
  | vsum (t : Ty) (x : Args)
  /-- Stream maximum reduction into a register (R238) -/
  | vrmax (t : Ty) (x : Args)
  /-- Stream dot product into a register (R238) -/
  | vdot (t : Ty) (x : Args)
  /-- Stream inclusive running sum (R239) -/
  | vscan (t : Ty) (x : Args)
  /-- Stream gather from a table by n32 indices (R240) -/
  | vgat (t : Ty) (x : Args)
  /-- Stream scatter into a table by n32 indices (R240) -/
  | vsct (t : Ty) (x : Args)
  /-- Stream elementwise select by a mask array (R241) -/
  | vsel (t : Ty) (x : Args)
  /-- Stream compare writing a mask array and an any-true predicate (R241) -/
  | vcmp (t : Ty) (x : Args)
  /-- Stream fill of an array with a scalar (R242) -/
  | vfill (t : Ty) (x : Args)
  /-- Stream elementwise bitwise AND (R235) -/
  | vand (t : Ty) (x : Args)
  /-- Stream elementwise bitwise OR (R235) -/
  | vor (t : Ty) (x : Args)
  /-- Stream elementwise bitwise XOR (R235) -/
  | vxor (t : Ty) (x : Args)
  /-- Stream elementwise left shift (R235) -/
  | vshl (t : Ty) (x : Args)
  /-- Stream elementwise right shift (R235) -/
  | vshr (t : Ty) (x : Args)
  /-- Stream softmax over an array (R243) -/
  | vsmx (t : Ty) (x : Args)
  /-- Stream layer normalisation over an array (R243) -/
  | vlnm (t : Ty) (x : Args)
  /-- Bulk packing of elements into grain blocks (R258) -/
  | gpk (t : Ty) (x : Args)
  /-- Bulk unpacking of grain blocks into elements (R259) -/
  | gupk (t : Ty) (x : Args)
  /-- Bulk requantising of grain blocks to a new block exponent (R260) -/
  | grq (x : Args)
  /-- Returns the largest absolute value over grain blocks (R261) -/
  | gamx (x : Args)
  /-- Reads and checks a grain block's header (R262) -/
  | ghdr (x : Args)
  /-- Sets a grain block's block exponent indivisibly at its home (R263) -/
  | gsetBe (x : Args)
  /-- Turns a grain block into a zero block (R263) -/
  | gsetZero (x : Args)
  /-- Turns a grain block into a NaN block (R263) -/
  | gsetNan (x : Args)
  /-- Counts bad and poisoned grain blocks (R264) -/
  | gchk (x : Args)
  /-- Bulk conversion between grain block formats (R265) -/
  | gcvt (t : Ty) (x : Args)
  /-- Requests the pan lease, parking until the core's term opens (R283) -/
  | lse (x : Args)
  /-- Closes the core's open lease term (R284) -/
  | lsr (x : Args)
  /-- Zeroes named accumulators and their shadows (R285) -/
  | mz (x : Args)
  /-- Pan multiply-accumulate of P by Q into an accumulator (R286) -/
  | mmac (t : Ty) (x : Args)
  /-- Loads an accumulator from core memory (R287) -/
  | mld (x : Args)
  /-- Stores an accumulator to core memory in row-major order (R288) -/
  | mst (t : Ty) (x : Args)
  /-- Captures a shape record and starts a copy in a slot, returning its handle (R305) -/
  | cpy (x : Args)
  /-- Starts a linear byte copy (R306) -/
  | cpl (x : Args)
  /-- Invalidates every entry of the core's record cache (R308) -/
  | rcfAll (x : Args)
  /-- Invalidates the record-cache entry of one record (R308) -/
  | rcfOne (x : Args)
  /-- Returns the state of the copy named by a handle (R309) -/
  | cpstH (x : Args)
  /-- Returns the counts of busy and held copy slots (R309) -/
  | cpstN (x : Args)
  /-- Cancels the copy named by a handle (R310) -/
  | cpxH (x : Args)
  /-- Cancels every copy of the task on the core (R310) -/
  | cpxAll (x : Args)
  /-- Fills words with a pattern and sets them full (R307) -/
  | cpfFull (x : Args)
  /-- Fills words with a pattern and sets them empty (R307) -/
  | cpfEmpty (x : Args)
  /-- Sets words empty leaving their data (R307) -/
  | cpfMke (x : Args)
  /-- Sets words full leaving their data (R307) -/
  | cpfMkf (x : Args)
  /-- Registers a brine region with its masses and runs the CREATE round (R333) -/
  | bregNew (x : Args)
  /-- Registers a zeroed region as the joiner of an add round (R333) -/
  | bregJoin (x : Args)
  /-- Deregisters a region once it is the only member (R334) -/
  | bdrg (x : Args)
  /-- Adds a mass-weighted update to a block (R335) -/
  | badd (x : Args)
  /-- Writes the estimates of blocks as value divided by mass (R336) -/
  | brd (t : Ty) (x : Args)
  /-- Reads a brine register of a region (R338) -/
  | bqryRd (x : Args)
  /-- Reads a region's flag word and clears it (R338) -/
  | bqryClr (x : Args)
  /-- Runs a membership round that adds a member (R339) -/
  | bgrpAdd (x : Args)
  /-- Runs a membership round in which a member leaves with its mass (R339) -/
  | bgrpRm (x : Args)
  /-- Runs a membership round that drops a failed member and reclaims custody (R340) -/
  | bgrpDrop (x : Args)
  /-- Stops automatic sends of a region, returning once custody is empty (R342) -/
  | bholdOn (x : Args)
  /-- Resumes automatic sweeps of a region (R342) -/
  | bholdOff (x : Args)
  /-- Forces one exchange of a block to a named member and returns its outcome (R343) -/
  | bstep (x : Args)
  /-- Leaves level H, loading ST and PC from registers (R364) -/
  | sret (x : Args)
  /-- Starts a new TLB generation over an instance, dropping matching entries (R365) -/
  | tlbi (sc : TlbScope) (x : Args)
  /-- Waits until accesses translated under older generations are performed (R366) -/
  | tlbw (sc : TlbScope) (x : Args)
  /-- Maps a dead logical core to a spare position (R367) -/
  | cmapMap (x : Args)
  /-- Marks a logical core dead across the device (R367) -/
  | cmapDead (x : Args)
  /-- Reads a core-map entry (R367) -/
  | cmapRd (x : Args)
  /-- Sends page-keyed WAKEs to the named cores of a band (R368) -/
  | wkxPage (x : Args)
  /-- Sends a thread-keyed WAKE to one core (R368) -/
  | wkxThr (x : Args)
  /-- Ends a dropped thread (R368) -/
  | wkxEnd (x : Args)
  /-- Clears context-fault marks for a page on named cores (R368) -/
  | cxf (x : Args)
  /-- Exchanges the live and saved sets of a halted partition (R369) -/
  | psw (x : Args)
  /-- Reads a system register (R370) -/
  | srd (x : Args)
  /-- Writes a system register without behaviour of its own (R370) -/
  | swr (x : Args)
  /-- Saves an unbound context to its record and frees its line (R371) -/
  | evict (x : Args)
  /-- Unbinds a slot's thread to the run-queue tail (R373) -/
  | prhUnb (x : Args)
  /-- Unbinds a slot's thread and writes its line to the ember cache (R373) -/
  | prhEvc (x : Args)
  /-- Unbinds a slot's thread, drops it with key HOLD and saves it to its record (R373) -/
  | prhHold (x : Args)
  /-- Delivers a walked leaf for a mailbox entry (R374) -/
  | pgdFill (x : Args)
  /-- Fails a mailbox entry, raising WLK for its waiters (R374) -/
  | pgdFail (x : Args)
  /-- Stops slots 0 to 6 of a core (R375) -/
  | haltCore (x : Args)
  /-- Restarts binding on a halted core (R375) -/
  | haltRun (x : Args)
  /-- Stops every core of a partition (R375) -/
  | haltPart (x : Args)
  /-- Restarts every core of a partition (R375) -/
  | haltPrun (x : Args)
  /-- Maps a queue descriptor into a free stoker slot (R392) -/
  | qmap (x : Args)
  /-- Unmaps a queue, saving its head, state and deadline (R392) -/
  | qunm (x : Args)
  /-- Unmaps one queue and maps another into the same slot (R392) -/
  | qsw (x : Args)
  /-- Launches a LAUNCH image from the hearth on its own die (R393) -/
  | qlch (x : Args)
  /-- Reads the cycles left on a slot's deadline (R394) -/
  | qdlRd (x : Args)
  /-- Adjusts a slot's deadline count (R394) -/
  | qdlAdd (x : Args)
  /-- Disarms a slot's deadline without a miss (R394) -/
  | qdlStop (x : Args)
  /-- Reads a slot's queue status word (R395) -/
  | qstSlot (x : Args)
  /-- Reads a queue's doorbell entry (R395) -/
  | qstBell (x : Args)
  /-- Clears MISS and ERR and retries an ERROR or BLOCK head command (R395) -/
  | qstClr (x : Args)
  /-- Clears MISS and ERR and skips an ERROR or BLOCK head command (R395) -/
  | qstSkip (x : Args)
  /-- Adds a value to a counter as a device-scope release (R396) -/
  | qsigCtr (x : Args)
  /-- Raises an MSI-X vector (R396) -/
  | qsigIrq (x : Args)
  /-- Stoker command that places a population's first wave on its die (R384) -/
  | launch (die : Nat) (slot : Nat)
  /-- Stoker command that atomically adds to a counter as a device-scope release (R383) -/
  | signal (die : Nat) (slot : Nat)
  /-- Stoker command that waits until a counter reaches a value, then acquires (R383) -/
  | wait (die : Nat) (slot : Nat)
  /-- Stoker command that arms the slot's deadline unit (R387) -/
  | deadline (die : Nat) (slot : Nat)
  /-- Stoker command that posts a value as a system-scope release (R383) -/
  | mark (die : Nat) (slot : Nat)
  /-- Stoker command that waits for earlier populations of the queue to complete (R383) -/
  | queueFence (die : Nat) (slot : Nat)
  /-- The stoker reads and starts the head command of the highest-priority running queue (R378) -/
  | queueDispatch (die : Nat)
  /-- A blocked queue's condition clears and its head command completes (R378) -/
  | queueUnblock (die : Nat) (slot : Nat)
  /-- An armed deadline count reaches zero: MISS is set, reported and MISSV raised (R387) -/
  | deadlineExpire (die : Nat) (slot : Nat)
  /-- Host 8-byte write of a queue's TAIL to BAR0 (R379) -/
  | doorbellWrite (off : Nat) (size : Nat) (val : Word)
  /-- Host write through BAR2 performed at the home of the GVA (R381), with or without Relaxed Ordering (R179) -/
  | bar2Write (off : Nat) (bytes : List (BitVec 8)) (relaxed : Bool)
  /-- Host read through BAR2 performed after earlier writes (R381) -/
  | bar2Read (off : Nat) (size : Nat) (tag : Nat)
  /-- Host write that enqueues the management mailbox into channel 6 of core 0 (R381) -/
  | mbell (val : Word)
  /-- Host write to a BAR4 register without a row of its own, such as W2BASE or the MSI-X table (R381) -/
  | hostRegisterWrite (off : Nat) (size : Nat) (val : Word)
  /-- An instruction word fetched after a transfer arrives and the thread becomes ready (R428) -/
  | fetchReady (core : Nat) (cxa : Word)
  /-- A tagged variable-latency result is applied to the thread's image wherever it is (R80) -/
  | resultLand (k : Nat)
  /-- A free slot binds a thread from the run queue, starting a fill on a miss (R82) -/
  | threadBind (core : Nat)
  /-- A context image arrives and the thread becomes bound (R74) -/
  | lineFillDone (core : Nat) (cxa : Word)
  /-- A bound thread reaches 256 own turns while another entry waits and loses its slot (R82) -/
  | quantumEnd (core : Nat) (slot : Nat)
  /-- A waiting crew or gang is admitted once lines and a barrier unit are reserved, and materialised whole (R85) -/
  | groupAdmit (cluster : Nat)
  /-- A held completion add retries its translation every 4,096 cycles (R430) -/
  | doneAddRetry (k : Nat)
  /-- A migrated image arrives at its home core and joins its run queue (R99) -/
  | hopArrive (k : Nat)
  /-- A wake reaches the target's core and readies or marks the thread (R97) -/
  | wakeReceive (k : Nat)
  /-- A message or completion is enqueued into an inbox channel, waking a notice thread (R89) -/
  | inboxEnqueue (k : Nat)
  /-- A data-plane flit reaches a core's ingress and is passed on, reordered or dropped (R192) -/
  | flitArrive (k : Nat)
  /-- The home starts the next request from its input queue (R195) -/
  | homeRequestStart (k : Nat)
  /-- A DRAM read for an L2 miss returns, with a single retry on an uncorrectable error (R399) -/
  | missFill (core : Nat) (addr : Nat) (outcome : ReadOutcome)
  /-- A request refused by a full waiter table is resent after 256 cycles (R152) -/
  | waiterResend (k : Nat)
  /-- An acknowledgment lowers OUT, sets CEIL from its pressure level and readies waiters (R195) -/
  | draughtAck (k : Nat)
  /-- An idle draught entry raises CEIL by 1 every 256 cycles (R194) -/
  | ceilRecover (core : Nat) (dn : Nat)
  /-- A NAK reply reaches the requester and traps or is recorded (R211) -/
  | nakReceive (k : Nat)
  /-- A NAK STREAM makes the sender resend its packets with full headers (R198) -/
  | streamNak (core : Nat) (tag : Nat)
  /-- A flue flit reaches its band collector and merges into a table entry (R200) -/
  | flueArrive (k : Nat)
  /-- A collector entry held 64 cycles is delivered to the hearth's channel 7 (R200) -/
  | collectorDeliver (band : Nat) (k : Nat)
  /-- Every working core sends HBT when its die's CYC bits 15:0 are zero (R405) -/
  | heartbeat (die : Nat)
  /-- A system WAKE reaches a core and readies every dropped thread with its key (R351) -/
  | wakeArrive (k : Nat)
  /-- A Kornar link flit is received, checked and taken in order or answered with RETRY (R202) -/
  | linkFlitReceive (port : Nat) (bytes : List Byte)
  /-- A RETRY makes the transmitter resend from LACK plus 1 (R202) -/
  | linkRetryReceive (port : Nat) (lack : Nat)
  /-- A failed lane makes the port take the largest good width (R203) -/
  | laneFail (port : Nat) (lane : Nat)
  /-- No valid flit for 65,536 cycles takes the port DOWN and raises LNK (R204) -/
  | linkSilenceDown (port : Nat)
  /-- An inter-device packet is checked, forwarded or performed at its destination (R207) -/
  | peerPacketReceive (port : Nat) (bytes : List Byte)
  /-- A request unanswered for 2^20 cycles is answered with NAK DEAD (R212) -/
  | portTimeout (k : Nat)
  /-- A remote waiter entry held 2^19 cycles is removed and answered NAK DEAD (R220) -/
  | remoteWaitTimeout (k : Nat)
  /-- The stream unit executes one strip of up to 64 elements of a command (R227) -/
  | streamStrip (cluster : Nat)
  /-- The stream unit processes one block of a bulk grain command (R252) -/
  | grainBlock (cluster : Nat)
  /-- A stream or grain command's writes are performed and its completion is sent (R231) -/
  | streamCompletion (cluster : Nat)
  /-- The pan grants the lease to the next requesting core (R269) -/
  | leaseGrant (cluster : Nat)
  /-- A lease term closes 65,536 cycles after its grant (R269) -/
  | leaseTermExpire (cluster : Nat)
  /-- A term closes after 1,024 idle cycles while another core requests (R269) -/
  | leaseIdleClose (cluster : Nat)
  /-- The pan starts a core's next admitted command (R273) -/
  | panStart (cluster : Nat)
  /-- A pan command finishes and copies its result into the shadow (R267) -/
  | panCommit (cluster : Nat)
  /-- After commit or abort and all writes, the pan sends the completion (R278) -/
  | panCompletion (cluster : Nat)
  /-- A missed shape record arrives and is captured and installed in the record cache (R294) -/
  | recordFill (core : Nat) (cxa : Word)
  /-- The copy engine starts a queued copy (R289) -/
  | copyStart (core : Nat)
  /-- The copy engine performs one element's read and write (R297) -/
  | copyElement (core : Nat) (slot : Nat)
  /-- A copy slot in HOLD retries its translation every 4,096 cycles (R299) -/
  | copyHoldRetry (core : Nat) (slot : Nat)
  /-- After every data write is performed, the arrival flag is written (R301) -/
  | copyFlag (core : Nat) (slot : Nat)
  /-- A closed copy's completion is enqueued or counted and its slot freed (R302) -/
  | copyCompletion (core : Nat) (slot : Nat)
  /-- A member starts a sweep step every SPER·1,024 cycles, sending halves along the rota (R319) -/
  | brineSweepStep (rid : Nat)
  /-- A reassembled half or copy is checked and applied to its block (R321) -/
  | brineHalfArrive (k : Nat)
  /-- An ACK or NAK for a half frees or reclaims its custody slot (R322) -/
  | brineAnswer (k : Nat)
  /-- A custody slot unanswered for TOUT resends its half or moves to RECALL (R322) -/
  | brineSlotTimeout (cluster : Nat) (slot : Nat)
  /-- A receiver answers a RECALL with APPLIED or VOID (R322) -/
  | brineRecallReceive (k : Nat)
  /-- APPLIED or VOID frees or reclaims a recalled slot (R322) -/
  | brineRecallAnswer (k : Nat)
  /-- A PROPOSE arrives and the round commits or mismatches when all are held (R339) -/
  | brineProposeReceive (k : Nat)
  /-- A STATE completes the member's round at once (R339) -/
  | brineStateReceive (k : Nat)
  /-- A PROPOSE is resent every TOUT·1,024 cycles until answered (R339) -/
  | brineProposeResend (rid : Nat)
  /-- A held brine command retries its translation every 4,096 cycles (R329) -/
  | brineHoldRetry (cluster : Nat)
  /-- A write to TSKB, HMTB, PWTB or PARTB drops cached copies of the table (R361) -/
  | tableBaseWrite (index : Nat) (die : Nat) (val : Word)
  /-- The walker's read of MBOX parks until a miss entry is posted (R355) -/
  | mboxRead (core : Nat)
  /-- A CMPART write repartitions a halted core's memory after write-backs (R146) -/
  | cmpartWrite (core : Nat) (val : Word)
  /-- An IBXSZ write resizes a halted core's inbox rings (R90) -/
  | ibxszWrite (core : Nat) (val : Word)
  /-- An RFPWR write changes register bank power states (R79) -/
  | rfpwrWrite (core : Nat) (val : Word)
  /-- A KLS write sets counters and the link's target width (R205) -/
  | klsWrite (port : Nat) (val : Word)
  /-- A write to MRX extends a measurement register with 64 bytes (R421) -/
  | mrxWrite (die : Nat) (val : Word)
  /-- A write to ATTS starts signing an attestation report (R423) -/
  | attsWrite (val : Word)
  /-- The signing unit finishes the report body and signature (R423) -/
  | attestDone
  /-- Device reset runs the boot ROMs and advances the boot generation (R207) -/
  | deviceReset (image : Nat)
  /-- A cluster finishes initialisation and its readiness bit sets (R416) -/
  | clusterReady (cluster : Nat)
  /-- A DRAM channel completes training and its readiness bit sets (R416) -/
  | dramTrainDone (chan : Nat)
  /-- A DRAM channel fails training and its failure bit sets (R417) -/
  | dramTrainFail (chan : Nat)
  /-- A junction temperature of 115 °C makes the die fatal (R418) -/
  | thermalFatal (die : Nat)
  /-- Every 10 µs each die raises or lowers its clock by 50 MHz (R424) -/
  | clockAdjust (die : Nat) (power : BitVec 16) (temp : BitVec 8)
  /-- An engine idle for 256 cycles gates its clock (R425) -/
  | unitGate (cluster : Nat) (unit : Nat)
  /-- Dynamic address assignment of the I3C target by ENTDAA (R426) -/
  | i3cEntdaa (addr : BitVec 7)
  /-- Dynamic address assignment from static address 0x52 by SETDASA (R426) -/
  | i3cSetdasa (addr : BitVec 7)
  /-- A private read of the I3C register space (R426) -/
  | i3cPrivateRead (off : Nat) (len : Nat)
  /-- A private write to the I3C target (R426) -/
  | i3cPrivateWrite (off : Nat) (bytes : List Byte)
  /-- A fixed-latency register or predicate result is written back, with its flags, at the cycle its latency ends (R48) -/
  | writeBack (core : Nat) (cxa : Word)
  /-- At an own turn of a thread whose skip count is above 0, the count falls by 1 and the turn is lent (R51) -/
  | skippedTurn (core : Nat) (slot : Nat)
  /-- A register bank in RET returns to ON at the end of its 40-cycle stall, and the waiting slot becomes usable (R79) -/
  | bankWake (core : Nat) (bank : Nat)
  /-- A task's segment set, fetched for a thread whose task's set was not cached, arrives and is installed (R140) -/
  | segmentSetFill (core : Nat) (task : Nat)
  /-- Each cycle a torus router ranks its transit flits, assigns ports with possible deflection, and may inject one flit (R190) -/
  | routerCycle (x : Nat) (y : Nat)
  /-- A Kornar port trains with its partner and goes from DOWN through TRAINING to UP, setting its readiness bit (R205) -/
  | linkTrain (port : Nat)
  /-- A completion for a device-issued Memory Read or AtomicOp arrives from the host at the PCIe port and is returned to the requester (R179) -/
  | pcieCompletion (tag : Nat) (status : Nat) (data : Word)
  deriving DecidableEq, Repr

end Sys2Proof
end

