-- ==== Sys2Proof/Machine/State.lean ====
section
/-! DEFINITION. The state of the machine as plain data: threads, cores, clusters, dies, the device, its ports, memory,
and what is in flight between them; the reasons a step can stop; the state after reset. -/

namespace Sys2Proof.Machine

/-- Why a step stops with a fault. No instruction and no step of the machine raises one: every condition of the spec
is a user trap, a system event, a status or a completion, and those are next states (safe: nothing stops early). -/
inductive Fault where
  /-- Raised by nobody: kept so that the type is inhabited. An access that reaches no storage raises SEG (R141) or is
  answered as the spec says. Safe. -/
  | outsideStorage (addr : Nat)
  deriving DecidableEq, Repr

/-- Why a step refuses. -/
inductive Refusal where
  /-- Raised by an arm of exec whose instruction has no meaning yet. Safe: the machine stops there. -/
  | notModelled (mnemonic : String)
  deriving DecidableEq, Repr

/-! ### Threads -/

/-- The context record of R71, its registers as fields. -/
structure Ctx where
  x : Vector Word 16 := Vector.replicate 16 0
  fe : BitVec 16 := 0xFFFF
  pred : BitVec 8 := 0x01
  wk : Bool := false
  pk : Bool := false
  pc : Word := 0
  st : Word := 0
  cxa : Word := 0
  tix : Word := 0
  pop : Word := 0
  slen : Word := 0
  sstr : Word := 0
  trc : Word := 0
  tra : Word := 0
  trd : Word := 0
  stc : BitVec 16 := 0
  rld : Bool := false
  owe : BitVec 16 := 0
  deriving DecidableEq, Repr

/-- A fixed-latency result whose write-back the thread has not yet reached, with what STL reports of it (R52). -/
structure FixedPend where
  isPred : Bool
  idx : BitVec 4
  min : BitVec 8
  got : BitVec 8
  left : Nat
  flags : BitVec 5                            -- they land with the result (R128)
  deriving DecidableEq, Repr

/-- What accesses memory through a cluster port but at its own address for the thread that issues (R355): a copy slot, a population's add, a brine command, a
region's engine, a queue's command, another device's request, a request that its home refused, a core's records. -/
inductive Asker where
  | copy (core slot : Nat)
  | pop (ix : Nat)
  | brine (id : Nat)
  | region (rid : Nat)
  | queue (die slot : Nat)
  | peer (port : Nat)
  | waiter (core : Nat) (cxa : Word)
  | record (core : Nat)
  | thread (core : Nat) (cxa : Word)        -- an instruction that reaches records (R77)
  | prefetch (g : Nat) (cp : BitVec 2)      -- a `pfch` whose line is still to come (R162)
  deriving DecidableEq, Repr

/-- What a thread waits on in line, first in, first out (R83, R84). -/
inductive Resource where
  | reg (r : BitVec 4) (full : Bool)   -- a register to be full or empty, with no write outstanding (R30, R52)
  | pred (p : BitVec 3)        -- a predicate an engine owes (R25, R52)
  | stores                     -- PEND.STC = 0 (R177, R363)
  | stcRoom (n : Nat)          -- room for n more posted stores in PEND.STC (R153)
  | order (home : Nat)         -- earlier packets of its core to that home (R167, R168)
  | fetched (home a n : Nat)   -- what a fetch of `n` bytes there stands behind (R24, R167)
  /-- The accesses a release or a fence waits for (R173, R185), with the peers of the group scope at its issue (R172). -/
  | release (sc : Scope) (dst : Option Nat) (far : Bool) (grp : List Nat)
  | pend                       -- PEND = 0 (R96, R99)
  | draught (dn : Nat)         -- an allowance (R87)
  | table                      -- a free or reusable draught-table entry (R87)
  | drain (dn : Nat)           -- OUT = 0 (R216)
  | inbox (chan : Nat)         -- a message of a channel (R101)
  | room (core chan : Nat)     -- a free entry of a channel (R102)
  | joinFree                   -- a free join record (R104)
  | joinDone                   -- the join record's completions (R104)
  | streamQ                    -- a free entry of the stream dispatch queue (R221)
  | lease                      -- an open term (R270, R283)
  | panQ                       -- a free entry of the pan queue (R273)
  | copySlot                   -- a FREE copy slot (R289)
  | attach (core : Nat)        -- room for one more attached thread (R99)
  | ready (cluster : Nat)      -- a cluster's readiness (R417)
  | engines                    -- completion of the thread's engine commands (R185)
  | tlbw (scope : TlbScope) (cluster : Nat) (gen : BitVec 32)   -- old-generation accesses (R366)
  | mbox                       -- a miss-mailbox entry (R355)
  | part (p : Nat)             -- no stream or pan command in progress on a partition's cores (R369)
  | channel (ch : Nat)         -- a DRAM channel's readiness (R417)
  | pages (a : Asker)          -- the walks of the record pages that its instruction reaches (R77, R355)
  deriving DecidableEq, Repr

/-- The key a dropped thread waits for (R346). -/
structure DropKey where
  cause : BitVec 8
  val : Word
  deriving DecidableEq, Repr

/-- Whether a thread can issue, and if not, why not (R48, R83, R346). -/
inductive Wait where
  | ready
  | on (r : Resource)          -- parked; it issues its instruction again when the wait ends
  | home                       -- a reply from a home, a peer, the host or the core map is owed
  | barrier                    -- it has arrived (R100)
  | park                       -- `park` (R97)
  | dropped (k : DropKey)      -- R346
  | fetch                      -- its next word has not arrived (R428)
  | segset                     -- its task's segment set is not cached (R140)
  | walk (idx : Nat)           -- a miss-mailbox entry of its core (R355)
  | fill                       -- its line is being filled (R74)
  | bank (b : Nat)             -- its bank leaves RET (R79)
  | sys                        -- a write of a system register that has not taken effect (R370)
  | mailbox (core : Nat) (r : BitVec 4)   -- an entry of a core's miss mailbox (R355)
  | ended                      -- it has exited, or is no thread at all
  deriving DecidableEq, Repr

/-- Where a thread's image is (R73, R76). -/
inductive Place where
  | line (n : Nat)
  | ember
  | record
  | walker
  deriving DecidableEq, Repr

/-- What an owed reply of a blocking access does when it lands. -/
inductive ReplyTo where
  | loadX (reg : BitVec 4) (size : Nat) (sext : Bool)
  | loadM (reg : BitVec 4) (n : Nat)          -- `ldm`: words arrive one after another
  | word (reg : BitVec 4)                     -- a 64-bit value to one register
  | lowWord (reg : BitVec 4) (size : Nat)
  | atomic (reg : BitVec 4) (size fn : Nat) (v : Word)   -- `amo`: the old value, and its flags with it (R182)
  | fetch                                     -- instruction bytes
  | record                                    -- the bytes of a shape record or a spawn descriptor (R294, R412)
  | nothing                                   -- an acknowledgment (R102)
  | gone                                      -- an image accepted by a peer: the thread has left (R99)
  deriving DecidableEq, Repr

/-- Where an access lands once it is checked and translated. -/
inductive Loc where
  /-- Storage at an address, with its home, its page's leaf (0 outside paged space) and whether it is paged. -/
  | mem (a home : Nat) (paged : Bool) (leaf : Word)
  /-- A read of a discarded page: zeros, full, with no home (R150). -/
  | zeros
  /-- A window of a peer. -/
  | peer (p w off : Nat)
  /-- The host window. -/
  | host (off : Nat)
  deriving DecidableEq, Repr

/-- A translation that a request keeps while it waits on draught (R357): the instruction's address, the GVA, the place, and
the port and generation that translated it. -/
structure Held where
  pc : Word
  gva : Nat
  loc : Loc
  port : Nat
  gen : BitVec 32
  deriving DecidableEq, Repr

/-- A reply that is owed: what it does, the access's address, and whether it acquires. -/
structure ReplyBuf where
  dest : ReplyTo
  ea : Word
  acquire : Bool := false
  emptied : BitVec 16 := 0                    -- SYNC sources to be set full again if it traps (R57)
  deriving DecidableEq, Repr

/-- What a thread that waits for a walk wants: KIND (R348), whether it writes or fetches, the GVA, whether it is `pgq`, and what
`pgq` reads once the walk has been answered (R164, R356). -/
structure WalkReq where
  kind : Nat
  write : Bool
  fetch : Bool
  gva : Nat
  query : Bool := false
  answer : Option Word := none
  deriving DecidableEq, Repr

/-- A record-cache miss in flight (R294, R311): the record's GVA and address, its first half, the places of the rest (none: a
discarded page), whether it is installed, and the port and generation that translated it, when the rest is paged (R366). -/
structure RecFill where
  gva : Nat
  ea : Word
  first : List Byte
  rest : List (Option (Nat × Nat) × Nat)
  install : Bool
  tran : Option (Nat × BitVec 32) := none
  deriving DecidableEq, Repr

/-- Where a pan command stands (R273, R267, R278). -/
inductive PanState where
  | queued | running | committed
  deriving DecidableEq, Repr

/-- A pan command (R273). -/
structure PanCmd where
  core : Nat
  cxa : Word
  ins : Instr
  ctl : Word
  b : Word
  c : Word
  task : BitVec 16
  lvlH : Bool
  join : Option (Nat × Nat)
  st : PanState := .queued
  code : Nat := 0
  d1 : Word := 0
  d2 : Word := 0
  flags : BitVec 5 := 0
  deriving DecidableEq, Repr

/-- The resume state of a context record, by its uses (R72): it is written and read only by the G4. -/
structure Resume where
  owedPred : BitVec 8 := 0                    -- predicates an engine owes, but for p0 (R230)
  owedZero : Nat := 0                         -- results for p0 that engines owe: several can be on their way (R226, R230)
  fault : Option (BitVec 8 × Word) := none    -- the first fault of a posted store: SUB and ea (R156)
  faultShut : Bool := false                   -- later such faults are discarded until `tret` (R156)
  join : Option Nat := none                   -- the open join record (R104)
  cmds : Nat := 0                             -- engine commands issued and not completed (R185)
  fixed : List FixedPend := []                -- R52
  setter : Word := 0                          -- the instruction that last set PC (R37)
  fenced : Nat := 0                           -- the number from which accesses are later than the thread's last `fence` of stores (R24)
  fetched : List Byte := []                   -- instruction bytes from a peer or the host (R24)
  reply : Option ReplyBuf := none             -- an owed reply (R168, R211)
  record : Option (List Byte) := none         -- the shape record or descriptor that an instruction has read (R294, R412)
  fill : Option RecFill := none               -- a shape record that is being read (R294)
  walk : Option WalkReq := none               -- a walk it waits for (R355)
  phase : Option (Nat × Word) := none         -- a generation that `dsc` has started, and its count (R165)
  launch : Option (Nat × Nat) := none         -- the population that `qlch` is materialising, and how far it is (R384, R393)
  newTerm : Option (BitVec 4) := none         -- this `lse` waits for its grant, which writes the register (R283)
  pan : Option PanCmd := none                 -- a captured pan command that is not admitted yet (R273)
  held : List Held := []                      -- translations of a request that waits on draught (R357)
  asOf : Option (Nat × BitVec 32) := none     -- the port and generation of a held translation now in use (R357)
  deriving DecidableEq, Repr

/-- An engine owes the thread a predicate, or the flags of a result for p0 (R230). -/
def Resume.owesPred (r : Resume) : Bool := r.owedPred != 0#8 || r.owedZero != 0

/-- A thread attached to a core. -/
structure Thread where
  ctx : Ctx := {}
  res : Resume := {}
  core : Nat := 0
  slot : Option Nat := none
  place : Place := .record
  fillTo : Option Nat := none                 -- the line its image is being read into (R74)
  pinC : Bool := false                        -- `cpin` (R105)
  pinG : Bool := false                        -- a crew's or gang's pin (R85)
  wait : Wait := .ended
  dropNext : Option DropKey := none           -- it is dropped when its present wait ends (R358)
  fetchAt : Word := 0                         -- when it began to wait for its next word (R82, R428)
  fetchAhead : Nat := 0                       -- the cycles after that which its results have been aged by already (R39)
  gap : Nat := 8                              -- the cycles from its last issue to its next own turn: 8, or 4 to 7 after a lent one (R49)
  waitOn : Option Resource := none            -- kept until the waiting instruction completes (R84)
  parked : Bool := false                      -- its present instruction has parked (R28)
  stamp : Nat := 0                            -- when it began to wait
  skip : Nat := 0                             -- skip count (R51)
  turns : Nat := 0                            -- own turns in this binding (R82)
  popIx : Nat := 0                            -- its population; 0: one of another device
  abroad : List Nat := []                     -- the route to the device that holds its record (R99)
  past : List Nat := []                       -- cores it has left with engine commands not completed (R185)
  raw : Bool := false                         -- not materialised yet (R410)
  wbHeld : Bool := false                      -- its write-back met a context fault (R78)
  backDue : Bool := false                     -- its line is to be written back once the ember cache has room (R76, R373)
  bound : Nat := 0                            -- when it was last bound (least recently bound victim, R75)
  deriving DecidableEq, Repr

/-- A run-queue entry (R81); RES is where the image is. -/
structure RqEntry where
  cxa : Word
  org : BitVec 2
  cf : Bool := false
  passed : Nat := 0
  deriving DecidableEq, Repr

/-! ### Cores -/

/-- An inbox message (R89). -/
structure Msg where
  tag : BitVec 32
  kstat : BitVec 16
  src : BitVec 16
  d0 : Word
  d1 : Word
  d2 : Word
  deriving DecidableEq, Repr

/-- A join record in use (R104). -/
structure JoinRec where
  idx : Nat
  n : Nat
  issued : Nat
  completed : Nat
  status : Word
  cxa : Word
  deriving DecidableEq, Repr

/-- A draught-table entry (R194). -/
structure DEntry where
  dn : Nat
  out : Nat
  ceil : Nat
  deriving DecidableEq, Repr

/-- A sender stream-table entry (R197); `last`: the GVA of the last packet. -/
structure SendStream where
  idx : Nat
  gen : Nat
  opened : Bool
  task : BitVec 16
  cursor : Word
  last : Word
  lastHome : Nat
  full : Bool
  deriving DecidableEq, Repr

/-- A receiver stream-table entry (R198), keyed by source core and tag; the last packet's storage address, and the bounds of its
page. -/
structure RecvStream where
  src : Nat
  tag : BitVec 16
  last : Nat
  lo : Nat
  hi : Nat
  deriving DecidableEq, Repr

/-- A task's segment set and trap vector (R139, R353), as a core caches them (R140). -/
structure TaskSet where
  task : BitVec 16
  segs : List (Word × Word)
  tvec : Word
  deriving DecidableEq, Repr

/-- A record-cache entry (R294). -/
structure RecEntry where
  task : BitVec 16
  gva : Nat
  image : List Byte
  deriving DecidableEq, Repr

/-- The states of a copy slot (R289); `wait`: RUN, with the source of an element on its way from a peer or the host. -/
inductive CopyState where
  | queued | run | wait | hold | flag | close
  deriving DecidableEq, Repr

/-- What a copy slot does (R305-R307). -/
inductive CopyKind where
  | shape | linear | fillFull | fillEmpty | mke | mkf
  deriving DecidableEq, Repr

/-- A copy slot that is not FREE (R289, R290). -/
structure CopySlot where
  slot : Nat
  gen : Nat
  st : CopyState
  task : BitVec 16
  lvlH : Bool
  kind : CopyKind
  src : Word
  dst : Word
  esz : Nat
  dims : List (Nat × Int × Int)
  count : Nat
  next : Nat
  code : Nat
  d1 : Word
  d2 : Word
  chan : BitVec 3
  tag : BitVec 32
  flag : Word
  flgv : Word
  flgop : Bool
  pattern : Word
  cp : BitVec 2
  join : Option (Nat × Nat)
  cxa : Word
  heldAt : Word                               -- when its last retry was (R299)
  raisedAt : Word                             -- when it last raised its event (R299)
  heldAs : Option (Bool × Word) := none       -- the page that event was about, and whether it was to be written
  pend : Nat := 0                             -- writes to peers not yet answered
  flagSent : Bool := false                    -- its flag write is not yet answered
  zeros : Bool := false                       -- it has read a discarded page (R150)
  deriving DecidableEq, Repr

/-- A stream or grain command in a dispatch queue (R222, R252): the instruction and what it captured. -/
structure StreamCmd where
  core : Nat
  cxa : Word
  ins : Instr
  a : Word
  b : Word
  c : Word
  slen : Word
  sstr : Word
  task : BitVec 16
  lvlH : Bool
  join : Option (Nat × Nat)
  next : Nat := 0
  pass : Nat := 0
  lanes : List (Option Word) := []
  acc : Word := 0
  acc2 : Word := 0
  any : Bool := false
  flags : BitVec 5 := 0
  poison : Option (Nat × Word) := none
  dead : Option Nat := none
  bnd : Option (Nat × Word) := none
  grn : Option (Nat × Word) := none
  fin : Bool := false
  deriving DecidableEq, Repr

/-- A miss-mailbox entry (R355); `taken`: the walker has read it. -/
structure MboxEntry where
  idx : Nat
  task : BitVec 16
  user : Bool
  kind : Nat
  page : Nat
  stale : Bool                                -- a later generation matches it (R359)
  staleL : Bool                               -- one would match it if its page were of 512 MiB (R359)
  taken : Bool
  deriving DecidableEq, Repr

/-- A page that such an access waits for at its port (R355): the core whose walker has mailbox entry `idx`, and the WHY with which
the walk or its leaf was refused, once it is (R356, R374). -/
structure PortWalk where
  core : Nat
  task : BitVec 16
  lvlH : Bool
  page : Nat
  kind : Nat
  idx : Nat
  why : Option Nat
  deriving DecidableEq, Repr

/-- A line of the near cache: its storage address and its 128 bytes (R148, R170); `insn`: fetched for execution. -/
structure NearLine where
  addr : Nat
  data : List Byte
  insn : Bool
  deriving DecidableEq, Repr

/-- What the DRAM of a dirty line holds, last written back (R407): its bytes, and those of its words that are empty and poisoned. -/
structure Backing where
  bytes : List Host.Cell := []
  empties : List Nat := []
  poison : List Nat := []
  deriving DecidableEq, Repr

/-- A line of an L2 slice, by its tag (R148, R149); the list is in order of age. -/
structure L2Line where
  addr : Nat
  kept : Bool
  dirty : Bool
  back : Backing := {}
  deriving DecidableEq, Repr

/-- A flit on a torus: where it is, where it goes, who sent it, its rank (R190), whether it is for the port there (R429), the port of
its router on which it has arrived (0 +x, 1 +y, 2 −x, 3 −y; 4 while it waits at its source), and whether it has left the torus at its
destination's ingress (R190, R192). -/
structure Trip where
  atX : Nat
  atY : Nat
  dx : Nat
  dy : Nat
  src : Nat
  seq : Nat := 0
  age : Nat := 0
  prt : Bool := false
  via : Nat := 4
  out : Bool := false
  deriving DecidableEq, Repr

/-- A data-plane flit (R188): its sideband header, and the packet it belongs to. -/
structure DFlit extends Trip where
  ch : Bool
  hd : Bool
  tl : Bool
  pkt : Nat
  deriving DecidableEq, Repr

/-- An accumulator and its shadow (R267): 4,096 words of 32 bits; the empty list is all zero. -/
structure AccPair where
  pos : Nat
  idx : Nat
  val : List (BitVec 32)
  shadow : List (BitVec 32)
  deriving DecidableEq, Repr

/-- The pan's lease (R269). -/
structure Lease where
  holder : Option Nat := none
  opened : Bool := false
  cmds : Nat := 0
  start : Word := 0
  active : Word := 0
  last : Nat := 0
  deriving DecidableEq, Repr

/-- The saved set of a core's partition switch (R360). -/
structure SavedSet where
  threads : List Thread := []
  runq : List RqEntry := []
  joins : List JoinRec := []
  streamQ : List StreamCmd := []
  panQ : List PanCmd := []
  accs : List AccPair := []
  lease : Option Lease := none                -- its times count from the save
  deriving DecidableEq, Repr

/-- The per-core state (R14), under the core's logical number. -/
structure CoreSt where
  halted : Bool := false                     -- by `halt` (R375)
  dead : Bool := false                       -- halted by a lasting fault (R404)
  runq : List RqEntry := []
  badLines : List Nat := []                  -- out of service (R408)
  rfpwr : Word := 0
  cmpart : Word := 0x11176                   -- R145
  ibxsz : Word := 0
  inbox : List (Nat × Nat) := List.replicate 8 (0, 0)   -- per channel: index of the oldest entry, entries held (R89)
  notice : List (Option Word) := List.replicate 8 none
  joins : List JoinRec := []
  draught : List DEntry := []
  send : List SendStream := []
  recv : List RecvStream := []
  sets : List TaskSet := []
  recs : List RecEntry := []
  copies : List CopySlot := []
  copyGens : List (Nat × Nat) := []
  streamQ : List StreamCmd := []
  panQ : List PanCmd := []
  near : List NearLine := []
  l2 : List L2Line := []
  mbox : List MboxEntry := []
  dscrd : Word := 0
  saved : SavedSet := {}
  expect : List ((Nat × Bool) × Nat) := []   -- next SEQ per (source, channel) (R192)
  sendSeq : List ((Nat × Bool) × Nat) := []  -- next SEQ to send per (destination, channel)
  reorder : List DFlit := []                 -- R192
  dropped : Nat := 0                         -- flits dropped (R192)
  nakSrc : List Nat := []                    -- sources NAKed STREAM until RESEND (R198)
  deriving DecidableEq, Repr

/-! ### Clusters -/

/-- A TLB entry (R143, R354). -/
structure TlbEntry where
  task : BitVec 16
  page : Nat                                  -- GVA of the page
  large : Bool
  leaf : Word
  deriving DecidableEq, Repr

/-- An admitted crew or gang and its barrier unit (R85, R100). -/
structure Group where
  id : BitVec 16
  crew : Bool
  live : Nat
  arrived : List (Nat × Word)
  phase : Bool
  popIx : Nat
  deriving DecidableEq, Repr

/-- A custody slot in use (R317, R322): slot `slot` of region `rid` at the engine of its cluster. -/
structure CustSlot where
  slot : Nat
  rid : Nat
  blk : Nat
  target : Nat
  seq : Nat
  sentW : Nat
  rcl : Bool                                  -- RECALL sent
  resends : Nat
  since : Word
  owner : Option Nat                          -- the `bstep` that waits for its outcome (R343)
  sweep : Bool                                -- sent by a sweep step (R319)
  vals : List Word                            -- what the engine wrote into the slot
  ser : Nat                                   -- names this use of the slot to the answers about it
  deriving DecidableEq, Repr

/-- The window of applied sequence numbers of one sending engine (R321), of the member that was added at version `epoch` (0: at the
start); bit i of `mask`: number high - i is applied. -/
structure SeqWindow where
  rid : Nat
  member : Nat
  cluster : Nat
  epoch : Nat
  high : Nat
  mask : BitVec 64
  deriving DecidableEq, Repr

/-- The per-cluster state (R16). -/
structure ClusterSt where
  tlb : List TlbEntry := []
  tgen : BitVec 32 := 1
  groups : List Group := []
  admits : List Nat := []                      -- populations waiting for admission, oldest first (R85)
  accs : List AccPair := []
  lease : Lease := {}
  rr : Nat := 0                               -- round robin of the stream unit (R221)
  custody : List CustSlot := []
  windows : List SeqWindow := []
  gated : List Nat := []                      -- engines gated: 0 pan, 1 stream, 2 brine (R425)
  deriving DecidableEq, Repr

/-! ### Dies, ports and the device -/

/-- The states of a queue slot (R378). -/
inductive QState where
  | idle | run | block | error
  deriving DecidableEq, Repr

/-- An armed deadline unit (R387): the count it was armed with and the die's CYC then; the word of storage it watches and that word's
home, if the counter is on this device; whether a page translated it, and whether its watch is still to be sent (R358, R388). -/
structure Deadline where
  addr : Word
  val : Word
  count : Nat
  base : Word
  place : Option (Nat × Nat)
  ser : Nat
  paged : Bool := false
  anew : Bool := false
  deriving DecidableEq, Repr

/-- A mapped queue slot (R377, R378). -/
structure QSlot where
  slot : Nat
  desc : Word
  rbase : Word
  word8 : Word
  head : Nat
  st : QState
  err : Nat
  miss : Bool
  dl : Option Deadline := none
  ser : Nat                                   -- names the head command to what answers it
  words : List Word := []                     -- the head command's words read so far
  asked : Bool := false                       -- an entry has been asked of the host (R380)
  started : Bool := false                     -- the head command is under way
  sent : Bool := false                        -- its request to a peer is not answered yet
  wave : Option (Nat × Nat) := none           -- a LAUNCH's population and how far its first wave is (R384)
  wt : Option (Nat × Nat × Word) := none      -- a WAIT's entry at the home of its word: the word, its home and VALUE (R186, R383)
  met : Bool := false                         -- that entry has been served
  deriving DecidableEq, Repr

/-- What a flue flit is bound for (R199, R351, R431): its band's collector, its die's hearth core, or a core that a WAKE names,
with its key, its `wkx` and whether that is a `wkx.end`. -/
inductive FlueGoal where
  | collector
  | hearth
  | wake (core : Nat) (key : DropKey) (wkx : Nat) (ends : Bool)
  deriving DecidableEq, Repr

/-- A flue-plane flit (R199). -/
structure FlueFlit extends Trip where
  goal : FlueGoal
  cause : BitVec 8
  band : Nat
  d0 : Word
  d1 : Word
  d2 : Word
  deriving DecidableEq, Repr

/-- The per-die state. -/
structure DieSt where
  cyc : Word := 0
  beatDue : Bool := false                     -- the heartbeat of a cycle that has come is not sent yet (R405)
  slots : List QSlot := []
  rr : Nat := 0
  frb : Word := 0
  frw : Word := 0
  frr : Word := 0
  ecnt : Word := 0
  seq : BitVec 16 := 0
  bst : BitVec 3 := 0
  tmp : BitVec 8 := 0
  pwr : BitVec 16 := 0
  clk : Nat := 1000
  throttled : Bool := false                   -- its last adjustment lowered its clock (R424, R426)
  mr : List (BitVec 256) := List.replicate 4 0
  collect : List (Nat × List (Word × FlueFlit)) := []  -- entries of the band collectors, with when they began (R200)
  deriving DecidableEq, Repr

/-- Who waits for the answer to a request sent on a port. -/
inductive PortOwner where
  | thread
  | probe (id hop : Nat)                      -- a packet of a `pprb.ping`, with its first HOP (R217)
  | copy (slot gen : Nat)
  | pop (ix : Nat)                            -- a population's completion add (R430)
  | half (rid cluster target seq ser : Nat)   -- a brine half (R322), and the use of the custody slot it is about
  | recall (rid cluster target seq ser : Nat) -- a RECALL (R322)
  | brine (id : Nat)                          -- a read or a write of a brine command (R333, R335, R336)
  | bcopy (id : Nat)                          -- the copy that a `bstep` sends in MAX mode (R326, R345)
  | queue (ser : Nat)                         -- the head command of a queue (R383)
  | watch (ser : Nat)                         -- a deadline unit (R387)
  | signal (core : Nat) (cxa : Word) (r : BitVec 4)   -- a `qsig.ctr` (R396)
  | quiet                                     -- nobody: a word of a mass table (R317)
  deriving DecidableEq, Repr

/-- A request a port waits on (R212), by its CTAG (R206). -/
structure PortReq where
  core : Nat
  cxa : Word
  posted : Bool
  reg : BitVec 4
  ea : Word
  peer : Nat
  win : Nat
  off : Nat
  since : Word
  owner : PortOwner
  ctag : Nat                                  -- 0 for a posted access of a thread (R218)
  stp : Bool := false                         -- it is an `stp`, which can wait at its home (R168)
  deriving DecidableEq, Repr

/-- A `pprb.ping` whose replies have not all arrived (R217); `stats`: the first HOP of a packet and its NAK's reason. -/
structure Ping where
  id : Nat
  core : Nat
  cxa : Word
  reg : BitVec 4
  issued : Word
  left : Nat
  hops : Nat
  rgen : BitVec 8                             -- the boot generation the peer reported (R217)
  stats : List (Nat × Nat)
  deriving DecidableEq, Repr

/-- The payload of a DATA flit to send (R201): the core whose draught entry its LACK acknowledges, on a packet's last flit
(R196), and there the packet's header as well, which R204 needs. -/
structure LinkFlit where
  bytes : List Byte
  ack : Option Nat
  header : Option (List Byte)
  deriving DecidableEq, Repr

/-- A link flit that a port has sent (R201): the width it went at, LTYPE, LSEQ, LACK, NWID and its payload. -/
structure LinkTx where
  width : BitVec 2
  ltype : Nat
  lseq : Nat
  lack : Nat
  nwid : BitVec 2
  payload : List Byte
  deriving DecidableEq, Repr

/-- A Kornar port (R201-R205, R212). -/
structure Port where
  malf : BitVec 16 := 0
  rply : BitVec 16 := 0
  sgen : BitVec 16 := 0
  twid : BitVec 2 := 0
  cwid : BitVec 2 := 0
  st : BitVec 3 := 0
  lseq : Nat := 0                             -- next LSEQ to send
  want : Nat := 0                             -- LSEQ expected
  replay : List (Nat × LinkFlit) := []        -- by LSEQ (R202)
  txq : List LinkFlit := []                   -- the transmit queue
  heard : Word := 0                           -- when the last valid flit arrived (R204)
  retries : Nat := 0
  retryFor : Nat := 0
  lanes : BitVec 8 := 0xFF                    -- good lanes
  partials : List (List Byte) := []           -- flits of a packet being rebuilt
  rwid : BitVec 2 := 0                        -- the width that NWID announced for the next flit to arrive (R203)
  sent : List LinkTx := []                    -- what has left on the link, oldest first
  reqs : List PortReq := []
  deriving DecidableEq, Repr

/-- The core map's STATE of an entry (R367). -/
inductive MapState where
  | live | dead | unmapped
  deriving DecidableEq, Repr

/-- A population (R86, R94, R384). -/
structure Pop where
  ix : Nat
  handle : Word
  task : BitVec 16
  pc : Word
  seeds : List Word
  count : Nat
  quota : Nat
  cores : List Nat
  cursor : Nat
  arena : Word
  done : Word
  tixb : Nat
  live : Nat
  shape : Nat                                 -- 0 none, 1 crew, 2 gang
  complete : Bool
  heldAt : Option (Word × Word)               -- a held completion add: last try, last event (R430)
  lastCore : Nat
  toCome : Nat := 0                           -- threads of its first wave that are not materialised yet (R86)
  queue : Option Nat := none                  -- the QID it was launched from (R383)
  deriving DecidableEq, Repr

/-- What a posted access does at its home (R158-R161, R184, R214). -/
inductive ReqOp where
  | store (bytes : List Byte)
  | sfe (full : Bool)
  | stp (v : Word)
  | close (tag : BitVec 16)
  | msix (vec : Nat)                          -- a vector's message, behind its hearth's earlier stores to the host (R381)
  deriving DecidableEq, Repr

/-- A posted access that its home has not performed yet (R153, R167, R168). -/
structure Req where
  id : Nat
  src : Nat
  cxa : Word
  home : Nat
  op : ReqOp
  addr : Nat
  ea : Word
  port : Nat                                  -- cluster port that translated it
  gen : BitVec 32
  paged : Bool
  pol : Nat                                   -- effective cache policy (R149)
  cp : BitVec 2                               -- the instruction's CP
  counted : Bool                              -- it holds one count of PEND.STC
  tag : BitVec 16                             -- stream tag, 0 for none
  short : Bool                                -- short header (R197)
  delta : BitVec 16                           -- its DELTA
  page : Nat                                  -- size of the page or window it lies in (R198)
  stage : Nat                 -- 0 at its core, 1 its flits are on the data plane, 2 at its home, 3 turned away with STREAM (R198)
  inj : Nat                                   -- flits it has injected (R190)
  resend : Bool                               -- RESEND in its header (R198)
  task : BitVec 16 := 0#16                    -- whose access it is (R358)
  lvlH : Bool := false
  deriving DecidableEq, Repr

/-- What a waiter-table entry waits for (R152, R186, R387). -/
inductive WaitKind where
  | ldc | stp | wtwNe | wtwGe
  | aside                                     -- no entry: another device's request whose page or channel is not at hand yet (R355, R417)
  deriving DecidableEq, Repr

/-- A waiter-table entry of a home (R152, R186). -/
structure Waiter where
  id : Nat
  home : Nat
  kind : WaitKind
  addr : Nat
  val : Word
  src : Nat
  cxa : Word
  posted : Bool
  reg : BitVec 4
  ea : Word
  port : Nat
  gen : BitVec 32
  paged : Bool
  since : Word
  remote : Option (Nat × List Byte)           -- a peer's request: its port and header (R220)
  cp : BitVec 2                               -- the instruction's CP (R149)
  refused : Bool                              -- it waits to be sent again (R152, R358)
  anew : Bool                                 -- refused because of a generation: it is translated again (R358)
  woken : Option DropKey                      -- its page turned it away: it waits for the wake of its thread (R358)
  task : BitVec 16 := 0#16                    -- whose access it is, for its translation anew (R358)
  lvlH : Bool := false
  hurt : Bool := false                        -- the data of this `stp` arrived uncorrectable (R401)
  deriving DecidableEq, Repr

/-- Where an owed result lands (R80, R230). -/
inductive Dest where
  | xreg (r : BitVec 4)
  | pred (p : BitVec 3)
  | reply (bytes : List Byte)                 -- what a home of this device answers to a blocking access (R168)
  deriving DecidableEq, Repr

/-- A result on its way to a thread's image (R80). -/
structure Owed where
  core : Nat
  cxa : Word
  dest : Dest
  val : Word
  flags : BitVec 5
  deriving DecidableEq, Repr

/-- An acknowledgment on its way to a core's draught table (R195). -/
structure Ack where
  core : Nat
  dn : Nat
  level : Nat
  deriving DecidableEq, Repr

/-- Where an access that is not performed yet has its home. -/
inductive Homed where
  | core (h : Nat)
  | host
  | peer (p : Nat)
  deriving DecidableEq, Repr

/-- A NAK on its way to a requester (R211, R156), with the home that gave it. -/
structure Nak where
  core : Nat
  cxa : Word
  posted : Bool
  reason : BitVec 8
  ea : Word
  counted : Bool
  home : Homed
  deriving DecidableEq, Repr

/-- A wake on its way (R97). -/
structure WakeReq where
  target : Nat
  cxa : Word
  src : Nat
  srcCxa : Word
  ser : Nat                                   -- its place in the order of its core's packets (R167)
  deriving DecidableEq, Repr

/-- A system WAKE that has reached its core (R351), which `wkx` sent it, and whether that is a `wkx.end` (R368). -/
structure SysWake where
  core : Nat
  key : DropKey
  wkx : Nat
  ends : Bool
  deriving DecidableEq, Repr

/-- A `wkx` that waits for its cores to act (R368). -/
structure WkxOp where
  id : Nat
  core : Nat
  cxa : Word
  reg : BitVec 4
  left : Nat
  count : Nat
  deriving DecidableEq, Repr

/-- A `swr` that has not taken effect (R370): the issuing core and thread, the index, the locus and the value. -/
structure SysWrite where
  core : Nat
  cxa : Word
  index : Nat
  locus : Nat
  val : Word
  deriving DecidableEq, Repr

/-- A message on its way to an inbox channel (R89, R302, R390). -/
structure InMsg where
  core : Nat
  chan : Nat
  msg : Msg
  join : Option (Nat × Nat)
  cxa : Word
  pkt : List Byte := []                       -- the packet of another device's `ibs`, to be answered (R206)
  deriving DecidableEq, Repr

/-- The image of a thread on its way to a core (R99): the core it left, or the packet it came in from another device. -/
structure Hop where
  src : Nat
  t : Thread
  ser : Nat := 0                              -- its place in the order of its core's packets (R167)
  pkt : List Byte := []
  deriving DecidableEq, Repr

/-- A BAR2 access or a doorbell write that waits at the host port (R179, R380): the address, home and offset of a BAR2 access,
and whether a write carries Relaxed Ordering. -/
inductive HostIn where
  | write (a home off : Nat) (bytes : List Byte) (ro : Bool)
  | read (a home off size tag : Nat)
  | bell (off size : Nat) (val : Word)
  deriving DecidableEq, Repr

/-- What goes out of the host port (R179, R381); a Memory Write leaves with Relaxed Ordering and ID-Based Ordering clear (R179). -/
inductive HostTx where
  | memWrite (addr : Nat) (bytes : List Byte)
  | memRead (tag : Nat) (addr : Nat) (size : Nat)
  | atomic (tag : Nat) (addr : Nat) (op : Nat) (size : Nat) (v w : Word)
  | msix (vec : Nat) (addr data : Word)
  | complete (tag : Nat) (data : List Byte)
  | unsupported (off : Nat)
  | i3c (bytes : List Byte)
  | inBand (byte : Byte)
  deriving DecidableEq, Repr

/-- Who waits for a completion from the host (R179). -/
inductive HostOwner where
  | thread (core : Nat) (cxa : Word)
  | queue (ser : Nat)
  | copy (core slot gen : Nat)
  | pop (ix : Nat)
  | brine (id : Nat)
  /-- A `gset` of a thread: which form, its value and its block (R263). -/
  | gset (core : Nat) (cxa : Word) (fn v addr : Nat)
  deriving DecidableEq, Repr

/-- A read or an AtomicOp the host has not completed (R179), and the bytes still to come. -/
structure HostRead where
  tag : Nat
  owner : HostOwner
  left : Nat
  got : List Byte := []
  deriving DecidableEq, Repr

/-- A block of a region (R317): the cluster whose engine serves it, its mass, and whether it is poisoned. -/
structure RBlock where
  cl : Nat
  w : Nat
  bad : Bool
  deriving DecidableEq, Repr

/-- A brine region as its engines hold it (R315-R318); `committed`: its registering round has committed (R333). -/
structure Region where
  rid : Nat
  id : Nat
  gen : Nat
  ver : Nat
  task : BitVec 16
  lvlH : Bool
  core : Nat
  nblk : Nat
  f32 : Bool
  maxMode : Bool
  sparse : Bool
  fpt : Nat
  upt : Nat
  self : Nat
  sper : Nat
  dens : Nat
  retry : Nat
  tout : Nat
  minw : Nat
  vbase : Nat                                  -- GVA
  mbase : Nat
  cbase : Nat
  custn : Nat
  rota : List Nat                              -- empty: the default rota (R319)
  table : List Word
  bnom : Nat
  k : Nat
  bdis : BitVec 32
  bdisc : BitVec 32
  ovf : Bool
  uw : Bool
  nan : Bool
  pblk : Bool
  stale : Nat
  hold : Bool                                  -- `bhold` (R342)
  roundHold : Bool                             -- a round holds its sends (R339)
  committed : Bool
  stepped : Word                               -- when the present step started (R319)
  blocks : List RBlock
  joined : List (Nat × Nat) := []              -- when a member was added: its index, and the version that the round gave (R322, R339)
  revs : List (Nat × Word) := []               -- discarded pages that engines' writes wait for, and when REV was last raised (R150)
  due : List Nat := []                         -- blocks whose mass word waits for such a page
  tried : Word := 0                            -- when these were last tried
  deriving DecidableEq, Repr

/-- The operation of a membership round (R339). -/
inductive RoundOp where
  | create | add | rm | drop
  deriving DecidableEq, Repr

/-- One PROPOSE, addressed to region `rid` (R339). -/
structure Proposal where
  id : Nat
  gen : Nat
  frm : Nat
  rid : Nat
  cseq : Nat
  op : RoundOp
  idx : Nat
  ver : Nat
  bheld : Nat
  mask : BitVec 64
  pkt : List Byte := []                        -- the packet that brought it from another device
  deriving DecidableEq, Repr

/-- A round a member runs (R339), and the command that waits for its status. -/
structure Round where
  rid : Nat
  cseq : Nat
  op : RoundOp
  idx : Nat
  entry : Word
  joiner : Bool
  ver : Nat                                    -- the version it started from
  next : Nat                                   -- blocks sent whole by a leaver
  held : List Proposal
  sent : Bool
  since : Word                                 -- when PROPOSE was last sent
  owner : Nat
  deriving DecidableEq, Repr

/-- A half or a copy on its way (R320, R326, R327); `remote`: the packet it came in from another device. -/
structure Half where
  id : Nat
  gen : Nat
  frm : Nat
  frmRid : Nat
  ver : Nat
  rid : Nat
  target : Nat
  blk : Nat
  seq : Nat
  cluster : Nat                                -- the sending engine
  w : Nat
  copy : Bool
  vals : List Word
  remote : Option (List Byte)
  owner : Option Nat                           -- the `bstep` that sent a copy (R345)
  ser : Nat := 0                               -- the use of a custody slot on this device
  deriving DecidableEq, Repr

/-- An answer to a half or to a RECALL (R321, R322). -/
inductive BrineAns where
  | ack | nak (reason : Nat) | applied | void | stale   -- stale: a RECALL of another group or generation (R341)
  deriving DecidableEq, Repr

/-- An answer on its way to a sending engine. -/
structure BAnswer where
  rid : Nat
  cluster : Nat
  target : Nat
  seq : Nat
  ans : BrineAns
  ser : Nat                                    -- the use of the custody slot it is about
  deriving DecidableEq, Repr

/-- A RECALL on its way (R322). -/
structure Recall where
  id : Nat
  gen : Nat
  ver : Nat
  frm : Nat
  frmRid : Nat
  rid : Nat
  target : Nat
  blk : Nat
  cluster : Nat
  seq : Nat
  remote : Option (List Byte)
  ser : Nat := 0                               -- the use of a custody slot on this device
  deriving DecidableEq, Repr

/-- A half, a RECALL or a membership message of another device that is being rebuilt from its parts (R327). -/
structure Reasm where
  port : Nat
  src : List Nat                               -- its return route: which device it comes from
  cluster : Nat
  seq : Nat
  opc : Nat
  sub : Nat
  next : Nat                                   -- the part expected
  bytes : List Byte
  deriving DecidableEq, Repr

/-- A brine command that its engine has not completed (R329). -/
structure BrineCmd where
  id : Nat
  core : Nat
  cxa : Word
  ins : Instr
  rid : Nat
  a : Word
  b : Word
  c : Word
  task : BitVec 16
  lvlH : Bool
  slen : Word
  join : Option (Nat × Nat)
  started : Bool := false
  next : Nat := 0                              -- blocks done
  flags : BitVec 7 := 0
  code : Nat := 0
  d1 : Word := 0
  d2 : Word := 0
  pend : Nat := 0                              -- writes to peers not yet answered
  got : List Byte := []                        -- what has been read of its deltas or its mass table (R333, R335)
  gotBad : Bool := false                       -- a word of it is poisoned
  asked : Bool := false                        -- a read on a peer or the host is not yet answered
  moved : Bool := false                        -- its engine has taken a block of it in this step (R329)
  elems : Nat := 0                             -- elements of a block, as its issue checked its operand for (R335, R336)
  zeros : Bool := false                        -- it has read a discarded page (R150)
  held : Option (Word × Word) := none          -- held at a block: last retry, last event (R329)
  heldAs : Option (Bool × Word) := none        -- the page of that event, and whether it was to be written
  cand : Option Region := none                 -- the region a `breg` registers
  deriving DecidableEq, Repr

/-- Words in transit that arrive uncorrectable in the step that runs (R401): those it reads, those an engine or another device
writes, and an answer from another device or the host. -/
structure Path where
  reads : List Nat := []
  writes : List Nat := []
  answer : Bool := false
  deriving DecidableEq, Repr

/-- A fault of storage or of a path that the hardware meets (R398): an input. -/
inductive Glitch where
  | corrected (die : Nat)                     -- an error that a code corrects
  | line (core n : Nat)                       -- a context line whose parity retry fails (R408)
  | ember (core : Nat) (cxa : Word)           -- an ember image that fails (R408)
  | walker (core : Nat)                       -- the walker line (R408)
  | near (core addr : Nat)                    -- a line of the near cache: it is dropped
  | store (k : Nat) (ws : List Nat)           -- payload words of a posted access, on the torus: which of its words (R401)
  | reply (k : Nat)                           -- the answer to a blocking access, on the torus (R401)
  | read (core word : Nat) (va : Option (Word × BitVec 16))   -- a word that this step reads, on its way to a core (R401)
  | write (core word : Nat) (va : Option (Word × BitVec 16))  -- a word that an engine or another device writes in this step (R401)
  | answer (core : Nat) (pa : Word) (va : Option (Word × BitVec 16))  -- the answer from another device or the host in this step (R401)
  | sideband (die : Nat)                      -- a torus header that cannot be corrected (R409)
  deriving DecidableEq, Repr

/-- A packet of an access that the model performs in one step, as it stands on the data plane (DESIGN CHOICE, log 38): its source and
destination (cores, or ports as homes), its channel, its flits, those it has injected, and its stage: 0 at its source, 1 on the plane, 2
in its home's queue. -/
structure Drift where
  id : Nat
  src : Nat
  dst : Nat
  ch : Bool
  n : Nat
  inj : Nat := 0
  stage : Nat := 0
  deriving DecidableEq, Repr

/-- One entry of the agenda: how many cycles pass on each die, which thread is in the issue stage (`sel`: a core and a
slot), which fault the hardware meets, which packet of an access that the model performs in one step enters the data plane (source,
destination, channel, flits), and which step of the machine happens then; `none` lets that thread move, at a turn of its
own (`gap` 0) or at one lent to it that comes `gap` cycles before its next own one (R49) (DESIGN CHOICE, logs 1 and 2). The MODEL's own, not the spec's. -/
structure Turn where
  c0 : Nat := 1
  c1 : Nat := 1
  c2 : Nat := 1
  c3 : Nat := 1
  sel : Option (Nat × Nat) := none
  glitch : Option Glitch := none
  ev : Option Instr := none
  gap : Nat := 0
  sent : Option (Nat × Nat × Bool × Nat) := none
  deriving DecidableEq, Repr

/-- The state of the package. -/
structure State where
  agenda : List Turn := []                     -- the MODEL's own (DESIGN CHOICE, log 1)
  serial : Nat := 0                            -- the MODEL's own: names in flight and free values (DESIGN CHOICE, log 9)
  beat : Nat := 0                              -- the MODEL's own: steps taken with an empty agenda, modulo 8 (DESIGN CHOICE, log 2)
  pick : Nat := 0                              -- the MODEL's own: steps of its own the machine has taken by itself (DESIGN CHOICE, log 2)
  thr : Thread := {}                           -- the thread in the issue stage
  pool : List Thread := []                     -- every other attached thread
  cores : List (Nat × CoreSt) := []
  clusters : List (Nat × ClusterSt) := []
  dies : List (Nat × DieSt) := []
  ports : List (Nat × Port) := []
  coreMap : List (Nat × (MapState × Nat × Nat)) := []   -- entries that differ from R8's (R11)
  mem : List Host.Cell := []
  asks : List (Asker × PortWalk) := []         -- pages that accesses on no thread's behalf wait for (R355)
  trying : Option (Asker × List PortWalk) := none -- the MODEL's own: who acts in the step being tried, and what it missed (DESIGN CHOICE, log 15)
  empties : List Nat := []                     -- words whose full/empty bit is empty, by address / 8 (R151)
  poison : List Nat := []                      -- poisoned words, by address / 8 (R400)
  path : Path := {}                            -- R401; empty between steps
  tskb : Word := 0
  hmtb : Word := 0
  pwtb : Word := 0
  partb : Word := 0
  masks : List (Nat × List Nat) := []          -- cached home masks: clusters of an entry (R361)
  peers1 : List (Nat × Word) := []             -- cached level-1 peer entries (R209, R361)
  peers2 : List ((Nat × Nat) × (Word × Word × Word)) := []   -- cached level-2 entries
  bgen : BitVec 8 := 1
  flash : Nat := 0                             -- names the firmware image that the flash holds (R419)
  flashGen : BitVec 8 := 1                     -- the stored boot generation (R207)
  tgen : BitVec 32 := 1
  pops : List Pop := []
  flight : List Req := []
  waiters : List Waiter := []
  owed : List Owed := []
  acks : List Ack := []
  naks : List Nak := []
  hops : List Hop := []
  pings : List Ping := []
  wakeReqs : List WakeReq := []
  sysWakes : List SysWake := []
  wkxs : List WkxOp := []
  sysWrites : List SysWrite := []
  msgs : List InMsg := []
  flue : List FlueFlit := []
  flits : List DFlit := []
  drifts : List Drift := []                    -- R188, R189
  portLast : List (Nat × Nat) := []            -- positions where the port, and not the core, injected last of the two (R429)
  hostTx : List HostTx := []                   -- what has left the host and management ports, oldest first
  hostReads : List HostRead := []
  hostHold : Option Nat := none                -- the tag of the read of a `gset` that the port performs (R263)
  hostQ : List HostTx := []                    -- what leaves the port after it
  hostIn : List HostIn := []                   -- BAR2 accesses and doorbells held at the host port, in arrival order (R179, R380)
  regions : List Region := []
  groupGens : List (Nat × Nat) := []           -- R318
  seqs : List ((Nat × Nat × Nat) × Nat) := []  -- last sequence number per engine, region and target (R322)
  halves : List Half := []
  answers : List BAnswer := []
  recalls : List Recall := []
  reasms : List Reasm := []
  brineQ : List BrineCmd := []
  rounds : List Round := []
  abandoned : List Round := []                 -- superseded rounds, which a late STATE still commits (R339)
  proposals : List Proposal := []
  states : List (Nat × List Proposal) := []    -- STATE messages on their way, by RID (R339)
  done : List (Nat × Nat × List Proposal) := []  -- committed rounds: RID, CSEQ, proposals (R339)
  bells : List (Nat × Word) := []              -- doorbell array (R379)
  mboxRegs : List Word := [0, 0, 0, 0]         -- BAR4 MBOX (R381)
  w2base : Word := 0
  msix : List (Nat × (Word × Word)) := []      -- MSI-X entries: address, data and vector control
  fmask : Bool := false                        -- MSI-X function mask
  lateVecs : List (Nat × Nat × Nat) := []      -- commands sent to a peer whose queue has been unmapped: name, die, vector (R382, R392)
  pba : List Nat := []                         -- pending vectors
  rdyd : Word := 0
  rdyc : List Nat := []                        -- ready clusters (R415)
  rdym : List Nat := []                        -- ready DRAM channels
  flm : List Nat := []                         -- failed DRAM channels
  pcap : Word := 1250
  attBusy : Bool := false
  attStat : BitVec 3 := 0
  attAddr : Word := 0
  i3cAddr : Option (BitVec 7) := none
  deriving DecidableEq, Repr

/-- The machine right after device reset, before any firmware has started: no thread is attached anywhere and nothing is
ready (R415, R416). The thread in the issue stage is the absent thread (`Wait.ended`). -/
def State.reset : State := {}

end Sys2Proof.Machine
end

