-- ==== Sys2Proof/Machine/Bits.lean ====
section
/-! DEFINITION. Bit fields, byte order, sign extension and the small list operations the machine uses. -/

namespace Sys2Proof.Machine

/-- Bits `lo + n - 1 : lo` of a number. -/
def bits (v lo n : Nat) : Nat := v / 2 ^ lo % 2 ^ n

/-- Bit `k` of a number. -/
def bit (v k : Nat) : Bool := v.testBit k

/-- A natural number of a truth value. -/
def b2n (b : Bool) : Nat := if b then 1 else 0

/-- A word of a truth value. -/
def b2w (b : Bool) : Word := if b then 1#64 else 0#64

/-- The number that little-endian bytes hold (R3). -/
def leNat : List Byte → Nat
  | [] => 0
  | b :: bs => b.toNat + 256 * leNat bs

/-- The low `n` bytes of a number, little-endian (R3). -/
def leBytes : Nat → Nat → List Byte
  | 0, _ => []
  | n + 1, v => BitVec.ofNat 8 v :: leBytes n (v / 256)

/-- The low `w` bits of a number as a signed integer. -/
def sintOf (w v : Nat) : Int :=
  if 2 ^ (w - 1) ≤ v % 2 ^ w then ((v % 2 ^ w : Nat) : Int) - (2 ^ w : Nat) else ((v % 2 ^ w : Nat) : Int)

/-- A value of `w` bits, sign- or zero-extended to a register (R35). -/
def extend (w : Nat) (signed : Bool) (v : Nat) : Word :=
  if signed then BitVec.ofInt 64 (sintOf w v) else BitVec.ofNat 64 (v % 2 ^ w)

/-- A word from its `n`-bit field at `lo`. -/
def field (v : Nat) (lo : Nat) : Word := BitVec.ofNat 64 (v * 2 ^ lo)

/-- Rounds up a quotient. -/
def ceilDiv (a b : Nat) : Nat := (a + b - 1) / b

/-- The value an association list gives a key. -/
def look {α β : Type} [DecidableEq α] (k : α) : List (α × β) → Option β
  | [] => none
  | (a, b) :: l => if a = k then some b else look k l

/-- An association list with a key bound to a value. -/
def put {α β : Type} [DecidableEq α] (k : α) (v : β) : List (α × β) → List (α × β)
  | [] => [(k, v)]
  | (a, b) :: l => if a = k then (a, v) :: l else (a, b) :: put k v l

/-- An association list without a key. -/
def cut {α β : Type} [DecidableEq α] (k : α) (l : List (α × β)) : List (α × β) := l.filter fun p => decide (p.1 ≠ k)

/-- A rising list of numbers with one more. -/
def insertNat (n : Nat) : List Nat → List Nat
  | [] => [n]
  | a :: l => if n < a then n :: a :: l else if n = a then a :: l else a :: insertNat n l

/-- Replaces the first element that satisfies `p`. -/
def mapFirst {α : Type} (p : α → Bool) (f : α → α) : List α → List α
  | [] => []
  | a :: l => if p a then f a :: l else a :: mapFirst p f l

/-- A list without its element `k`. -/
def dropAt {α : Type} (k : Nat) (l : List α) : List α := l.take k ++ l.drop (k + 1)

/-- A list without the first element that satisfies `p`. -/
def dropFirst {α : Type} (p : α → Bool) : List α → List α
  | [] => []
  | a :: l => if p a then l else a :: dropFirst p l

/-- The lowest number from `lo` to `hi - 1` that is not in the list. -/
def freshFrom (used : List Nat) (lo hi : Nat) : Option Nat :=
  ((List.range (hi - lo)).map (· + lo)).find? fun n => !used.contains n

/-- A list of bits as a number: member `n` sets bit `n`. -/
def maskOf (l : List Nat) : Nat := l.foldl (fun m n => m ||| 2 ^ n) 0

/-- The numbers below `n` whose bit is set. -/
def membersOf (m n : Nat) : List Nat := (List.range n).filter fun k => m.testBit k

end Sys2Proof.Machine
end

