-- ==== Sys2Proof/Machine/Float.lean ====
section
/-! DEFINITION. Floating-point formats, exact values, rounding and its flags (R124-R138): every operation computes the
exact value as an integer times a power of two and rounds once. -/

namespace Sys2Proof.Machine

/-- A format (R124): exponent bits, fraction bits, bias, and whether it is f8. -/
structure Fmt where
  eb : Nat
  fb : Nat
  bias : Nat
  isF8 : Bool
  deriving DecidableEq, Repr

/-- binary64. -/
def fmtF64 : Fmt := ⟨11, 52, 1023, false⟩
/-- binary32. -/
def fmtF32 : Fmt := ⟨8, 23, 127, false⟩
/-- binary16. -/
def fmtH16 : Fmt := ⟨5, 10, 15, false⟩
/-- bfloat16. -/
def fmtB16 : Fmt := ⟨8, 7, 127, false⟩
/-- The 8-bit float (R124, R244). -/
def fmtF8 : Fmt := ⟨4, 3, 8, true⟩

end Sys2Proof.Machine

namespace Sys2Proof

open Machine

/-- The format a type names; an integer type has none. -/
def Ty.fmt : Ty → Option Fmt
  | .h16 => some fmtH16 | .b16 => some fmtB16 | .f32 => some fmtF32 | .f64 => some fmtF64 | .f8 => some fmtF8
  | _ => none

/-- The width of a type (R35). -/
def Ty.width : Ty → Nat
  | .i8 | .n8 | .f8 => 8
  | .i16 | .n16 | .h16 | .b16 => 16
  | .i32 | .n32 | .f32 => 32
  | .i64 | .n64 | .f64 | .x64 => 64
  | .q4 => 4

/-- The type is signed (R35). -/
def Ty.signed : Ty → Bool
  | .i8 | .i16 | .i32 | .i64 | .x64 => true
  | _ => false

end Sys2Proof

namespace Sys2Proof.Machine

/-- The width of a format. -/
def Fmt.width (f : Fmt) : Nat := 1 + f.eb + f.fb

/-- The default NaN (R124). -/
def Fmt.dnan (f : Fmt) : Nat := if f.isF8 then 0x80 else (2 ^ (f.eb + 1) - 1) * 2 ^ (f.fb - 1)

/-- The pattern of +∞. -/
def Fmt.infBits (f : Fmt) : Nat := (2 ^ f.eb - 1) * 2 ^ f.fb

/-- The pattern of the largest finite value. -/
def Fmt.maxBits (f : Fmt) : Nat := if f.isF8 then 0x7F else f.infBits - 1

/-- The exponent of the last place of a subnormal. -/
def Fmt.qmin (f : Fmt) : Int := 1 - (f.bias : Int) - f.fb

/-- A value: a NaN (signalling or not), an infinity, or `m * 2 ^ e` with a sign. -/
inductive FVal where
  | nan (sig : Bool)
  | inf (neg : Bool)
  | fin (neg : Bool) (m : Nat) (e : Int)
  deriving DecidableEq, Repr

/-- Flags as ST holds them from bit 4 on (R53). -/
abbrev FFlags := BitVec 5

/-- NX. -/
def fNX : FFlags := 1#5
/-- UF. -/
def fUF : FFlags := 2#5
/-- OF. -/
def fOF : FFlags := 4#5
/-- DZ. -/
def fDZ : FFlags := 8#5
/-- NV. -/
def fNV : FFlags := 16#5

/-- Rounding modes (R53). -/
inductive RMode where
  | rne | rtz | rup | rdn
  deriving DecidableEq, Repr

/-- The mode a code names. -/
def RMode.ofCode : Nat → RMode
  | 1 => .rtz | 2 => .rup | 3 => .rdn | _ => .rne

/-- The value of a pattern (R124). -/
def Fmt.decode (f : Fmt) (v : Nat) : FVal :=
  let neg := v.testBit (f.eb + f.fb)
  let ex := bits v f.fb f.eb
  let fr := v % 2 ^ f.fb
  if f.isF8 then
    if v % 256 = 0x80 then .nan false
    else if ex = 0 then .fin neg fr f.qmin else .fin neg (2 ^ f.fb + fr) (f.qmin + (ex - 1))
  else if ex = 2 ^ f.eb - 1 then
    if fr = 0 then .inf neg else .nan (!fr.testBit (f.fb - 1))
  else if ex = 0 then .fin neg fr f.qmin
  else .fin neg (2 ^ f.fb + fr) (f.qmin + (ex - 1))

/-- Whether a value is a NaN. -/
def FVal.isNan : FVal → Bool
  | .nan _ => true
  | _ => false

/-- Whether a value is a signalling NaN. -/
def FVal.isSig : FVal → Bool
  | .nan b => b
  | _ => false

/-- Whether a value is a zero. -/
def FVal.isZero : FVal → Bool
  | .fin _ m _ => m == 0
  | _ => false

/-- The sign of a value. -/
def FVal.neg : FVal → Bool
  | .nan _ => false
  | .inf n => n
  | .fin n _ _ => n

/-- The number with the other sign. -/
def FVal.negate : FVal → FVal
  | .nan b => .nan b
  | .inf n => .inf (!n)
  | .fin n m e => .fin (!n) m e

/-- `m` with `k` bits dropped, rounded; and whether a dropped bit was set (R126). -/
def roundShift (rm : RMode) (neg : Bool) (m k : Nat) : Nat × Bool :=
  let q := m / 2 ^ k
  let r := m % 2 ^ k
  let up := match rm with
    | .rne => decide (2 ^ k < 2 * r) || (decide (2 * r = 2 ^ k) && q % 2 == 1)
    | .rtz => false
    | .rup => decide (r ≠ 0) && !neg
    | .rdn => decide (r ≠ 0) && neg
  (if up && decide (r ≠ 0) then q + 1 else q, decide (r ≠ 0))

/-- `m * 2 ^ e` as an integer multiple of `2 ^ l`, rounded. -/
def roundAt (rm : RMode) (neg : Bool) (m : Nat) (e l : Int) : Nat × Bool :=
  if l ≤ e then (m * 2 ^ (e - l).toNat, false) else roundShift rm neg m (l - e).toNat

/-- A sign in front of a pattern; f8 has no negative zero (R124). -/
def Fmt.withSign (f : Fmt) (neg : Bool) (b : Nat) : Nat :=
  if neg && !(f.isF8 && b == 0) then 2 ^ (f.eb + f.fb) + b else b

/-- What an overflow delivers (R127). -/
def Fmt.overflow (f : Fmt) (rm : RMode) (neg : Bool) : Nat :=
  if f.isF8 then f.withSign neg f.maxBits
  else match rm, neg with
    | .rtz, _ | .rup, true | .rdn, false => f.withSign neg f.maxBits
    | _, _ => f.withSign neg f.infBits

/-- ROUND: the value of the format that the mode selects for `m * 2 ^ e`, and its flags (R126, R127). -/
def Fmt.round (f : Fmt) (rm : RMode) (neg : Bool) (m : Nat) (e : Int) : Nat × FFlags :=
  if m = 0 then (f.withSign neg 0, 0#5)
  else
    let top := e + Nat.log2 m
    let lu := top - f.fb
    let l := max lu f.qmin
    let (q, inex) := roundAt rm neg m e l
    let packed := q + (l - f.qmin).toNat * 2 ^ f.fb
    if f.maxBits < packed then (f.overflow rm neg, fOF ||| fNX)
    else
      let (qu, _) := roundAt rm neg m e lu
      let tiny := decide (lu + Nat.log2 qu < f.qmin + f.fb)
      (f.withSign neg packed, (if inex then fNX else 0#5) ||| (if inex && tiny then fUF else 0#5))

/-- NV when an operand is a signalling NaN (R125). -/
def nvIf (b : Bool) : FFlags := if b then fNV else 0#5

/-- The default NaN with flags. -/
def Fmt.nanOut (f : Fmt) (fl : FFlags) : Nat × FFlags := (f.dnan, fl)

/-- The pattern of a zero. -/
def Fmt.zero (f : Fmt) (neg : Bool) : Nat := f.withSign neg 0

/-- The pattern of an infinity. -/
def Fmt.infinity (f : Fmt) (neg : Bool) : Nat := f.withSign neg f.infBits

/-- The sum of two finite values, exact: sign, magnitude, exponent; `none` when it is zero. -/
def sumFin (n1 : Bool) (m1 : Nat) (e1 : Int) (n2 : Bool) (m2 : Nat) (e2 : Int) : Option (Bool × Nat × Int) :=
  let e := min e1 e2
  let a : Int := (if n1 then -1 else 1) * (m1 * 2 ^ (e1 - e).toNat : Nat)
  let b : Int := (if n2 then -1 else 1) * (m2 * 2 ^ (e2 - e).toNat : Nat)
  let c := a + b
  if c = 0 then none else some (decide (c < 0), c.natAbs, e)

/-- The sum of two terms, rounded once (R126): the sum rule of `fadd`, `fsub` and `fma`. -/
def Fmt.addVal (f : Fmt) (rm : RMode) : FVal → FVal → Nat × FFlags
  | .nan _, _ | _, .nan _ => f.nanOut 0#5
  | .inf a, .inf b => if a = b then (f.infinity a, 0#5) else f.nanOut fNV
  | .inf a, .fin _ _ _ => (f.infinity a, 0#5)
  | .fin _ _ _, .inf b => (f.infinity b, 0#5)
  | .fin n1 m1 e1, .fin n2 m2 e2 =>
    match sumFin n1 m1 e1 n2 m2 e2 with
    | some (n, m, e) => f.round rm n m e
    | none =>
      if m1 = 0 ∧ m2 = 0 ∧ n1 = n2 then (f.zero n1, 0#5) else (f.zero (decide (rm = .rdn)), 0#5)

/-- The exact product of two values, neither a NaN; `none` for 0 times ∞. -/
def mulVal : FVal → FVal → Option FVal
  | .fin n1 m1 e1, .fin n2 m2 e2 => some (.fin (n1 != n2) (m1 * m2) (e1 + e2))
  | .inf a, b | b, .inf a => if b.isZero then none else some (.inf (a != b.neg))
  | a, _ => some a

/-- `fadd` (R132). -/
def Fmt.add (f : Fmt) (rm : RMode) (a b : Nat) : Nat × FFlags :=
  let x := f.decode a
  let y := f.decode b
  if x.isNan || y.isNan then f.nanOut (nvIf (x.isSig || y.isSig)) else f.addVal rm x y

/-- `fsub` (R132). -/
def Fmt.sub (f : Fmt) (rm : RMode) (a b : Nat) : Nat × FFlags :=
  let x := f.decode a
  let y := f.decode b
  if x.isNan || y.isNan then f.nanOut (nvIf (x.isSig || y.isSig)) else f.addVal rm x y.negate

/-- `fmul` (R132). -/
def Fmt.mul (f : Fmt) (rm : RMode) (a b : Nat) : Nat × FFlags :=
  let x := f.decode a
  let y := f.decode b
  if x.isNan || y.isNan then f.nanOut (nvIf (x.isSig || y.isSig))
  else match mulVal x y with
    | none => f.nanOut fNV
    | some (.fin n m e) => f.round rm n m e
    | some (.inf n) => (f.infinity n, 0#5)
    | some (.nan _) => f.nanOut 0#5

/-- `fma`: a·b + c with one rounding; 0 × ∞ sets NV even when c is a quiet NaN (R132). -/
def Fmt.fma (f : Fmt) (rm : RMode) (a b c : Nat) : Nat × FFlags :=
  let x := f.decode a
  let y := f.decode b
  let z := f.decode c
  let sig := nvIf (x.isSig || y.isSig || z.isSig)
  if x.isNan || y.isNan then f.nanOut sig
  else match mulVal x y with
    | none => f.nanOut (sig ||| fNV)
    | some p => if z.isNan then f.nanOut sig else f.addVal rm p z

/-- The quotient of two magnitudes to 2 ^ -k, with a last bit that says whether it is inexact. -/
def quotSticky (m n k : Nat) : Nat := 2 * (m * 2 ^ k / n) + b2n (decide (m * 2 ^ k % n ≠ 0))

/-- `fdiv` (R132). -/
def Fmt.div (f : Fmt) (rm : RMode) (a b : Nat) : Nat × FFlags :=
  let x := f.decode a
  let y := f.decode b
  match x, y with
  | .nan s, .nan t => f.nanOut (nvIf (s || t))
  | .nan s, _ => f.nanOut (nvIf s)
  | _, .nan s => f.nanOut (nvIf s)
  | .inf _, .inf _ => f.nanOut fNV
  | .inf n, .fin k _ _ => (f.infinity (n != k), 0#5)
  | .fin n _ _, .inf k => (f.zero (n != k), 0#5)
  | .fin n m e, .fin k m' e' =>
    if m' = 0 then (if m = 0 then f.nanOut fNV else (f.infinity (n != k), fDZ))
    else
      let sh := Nat.log2 m' + f.fb + 4
      f.round rm (n != k) (quotSticky m m' sh) (e - e' - sh - 1)

/-- The greatest r with r·r ≤ n, among those below 2 ^ fuel. -/
def isqrt (n : Nat) : Nat → Nat → Nat
  | 0, r => r
  | k + 1, r => if (r + 2 ^ k) * (r + 2 ^ k) ≤ n then isqrt n k (r + 2 ^ k) else isqrt n k r

/-- The square root of `m * 2 ^ e` (m ≠ 0) to at least `p` bits, with a last bit that says whether it is inexact. -/
def sqrtSticky (m : Nat) (e : Int) (p : Nat) : Nat × Int :=
  let k0 := 2 * p
  let k := if (e - k0) % 2 = 0 then k0 else k0 + 1
  let n := m * 2 ^ k
  let r := isqrt n (Nat.log2 n / 2 + 1) 0
  (2 * r + b2n (decide (r * r ≠ n)), (e - k) / 2 - 1)

/-- `fsqrt` (R132). -/
def Fmt.sqrt (f : Fmt) (rm : RMode) (a : Nat) : Nat × FFlags :=
  match f.decode a with
  | .nan s => f.nanOut (nvIf s)
  | .inf n => if n then f.nanOut fNV else (f.infinity false, 0#5)
  | .fin n m e =>
    if m = 0 then (f.zero n, 0#5)
    else if n then f.nanOut fNV
    else
      let (r, e') := sqrtSticky m e (f.fb + 4)
      f.round rm false r e'

/-- Compares two values, neither a NaN: less, equal, greater; −0 equals +0 (R55). -/
def FVal.cmp : FVal → FVal → Ordering
  | .inf a, .inf b => if a = b then .eq else if a then .lt else .gt
  | .inf a, _ => if a then .lt else .gt
  | _, .inf b => if b then .gt else .lt
  | .fin n1 m1 e1, .fin n2 m2 e2 =>
    match sumFin n1 m1 e1 (!n2) m2 e2 with
    | none => .eq
    | some (n, _, _) => if n then .lt else .gt
  | _, _ => .eq

/-- `fmin` and `fmax`: minimumNumber and maximumNumber, with −0 < +0 (R133). -/
def Fmt.minmax (f : Fmt) (isMax : Bool) (a b : Nat) : Nat × FFlags :=
  let x := f.decode a
  let y := f.decode b
  let fl := nvIf (x.isSig || y.isSig)
  match x.isNan, y.isNan with
  | true, true => f.nanOut fl
  | true, false => (b, fl)
  | false, true => (a, fl)
  | false, false =>
    let aLess := match x.cmp y with
      | .lt => true
      | .gt => false
      | .eq => x.neg
    (if aLess != isMax then a else b, fl)

/-- A conversion between floating-point formats (R134). -/
def fcvt (src dst : Fmt) (rm : RMode) (a : Nat) : Nat × FFlags :=
  match src.decode a with
  | .nan s => (dst.dnan, nvIf (s || dst.isF8))
  | .inf n => if dst.isF8 then (dst.withSign n dst.maxBits, fOF ||| fNX) else (dst.infinity n, 0#5)
  | .fin n m e => dst.round rm n m e

/-- `m * 2 ^ e` rounded to an integer, and whether it changed (R135). -/
def roundInt (rm : RMode) (neg : Bool) (m : Nat) (e : Int) : Nat × Bool := roundAt rm neg m e 0

/-- The least value of an integer type of width `w`. -/
def minInt (w : Nat) (sg : Bool) : Int := if sg then -(2 ^ (w - 1) : Nat) else 0

/-- The greatest value of an integer type of width `w`. -/
def maxInt (w : Nat) (sg : Bool) : Int := if sg then (2 ^ (w - 1) : Nat) - 1 else (2 ^ w : Nat) - 1

/-- `fcvti`: a floating-point value to an integer type, saturating (R135). -/
def fToInt (f : Fmt) (w : Nat) (sg : Bool) (rm : RMode) (a : Nat) : Int × FFlags :=
  match f.decode a with
  | .nan _ => (0, fNV)
  | .inf n => (if n then minInt w sg else maxInt w sg, fNV)
  | .fin n m e =>
    let (q, inex) := roundInt rm n m e
    let t : Int := if n then -(q : Int) else q
    if t < minInt w sg then (minInt w sg, fNV)
    else if maxInt w sg < t then (maxInt w sg, fNV)
    else (t, if inex then fNX else 0#5)

/-- `icvtf`: an integer to a format (R136). -/
def Fmt.ofInt (f : Fmt) (rm : RMode) (v : Int) : Nat × FFlags := f.round rm (decide (v < 0)) v.natAbs 0

/-- `frnd`: to an integral value in the format (R137). -/
def Fmt.integral (f : Fmt) (rm : RMode) (x : Bool) (a : Nat) : Nat × FFlags :=
  match f.decode a with
  | .nan s => f.nanOut (nvIf s)
  | .inf n => (f.infinity n, 0#5)
  | .fin n m e =>
    if 0 ≤ e then (a % 2 ^ f.width, 0#5)
    else
      let (q, inex) := roundInt rm n m e
      ((f.round .rne n q 0).1, if x && inex then fNX else 0#5)

/-- `fcls`: the class of a pattern, as a bit number (R138). -/
def Fmt.classOf (f : Fmt) (a : Nat) : Nat :=
  match f.decode a with
  | .nan s => if s then 0 else 1
  | .inf n => if n then 2 else 9
  | .fin n m _ =>
    let v := a % 2 ^ (f.eb + f.fb)
    if m = 0 then (if n then 5 else 6)
    else if v < 2 ^ f.fb then (if n then 4 else 7) else (if n then 3 else 8)

end Sys2Proof.Machine
end

