-- ==== Sys2Proof/Machine/Memory.lean ====
section
/-! DEFINITION. Memory: a list of cells in one canonical form (strictly rising addresses, no entry equal to what an
unlisted address reads as), its byte and word accesses, the full/empty bits and the poison of words (R151, R157). -/

namespace Sys2Proof.Machine

/-- What a byte that nothing has written reads as (core memory: R146; DRAM: log 7). -/
def Memory.unlisted : Byte := 0#8

/-- The byte at an address. -/
def Memory.readByte : List Host.Cell → Nat → Byte
  | [], _ => Memory.unlisted
  | (b, v) :: m, a => if b = a then v else Memory.readByte m a

/-- The memory without an address. -/
def Memory.erase : List Host.Cell → Nat → List Host.Cell
  | [], _ => []
  | (b, v) :: m, a => if b = a then m else if a < b then (b, v) :: m else (b, v) :: Memory.erase m a

/-- The memory with a listed byte. -/
def Memory.insert : List Host.Cell → Nat → Byte → List Host.Cell
  | [], a, x => [(a, x)]
  | (b, v) :: m, a, x =>
    if b = a then (b, x) :: m else if a < b then (a, x) :: (b, v) :: m else (b, v) :: Memory.insert m a x

/-- Writes one byte and keeps the canonical form. -/
def Memory.writeByte (m : List Host.Cell) (a : Nat) (x : Byte) : List Host.Cell :=
  if x = Memory.unlisted then Memory.erase m a else Memory.insert m a x

/-- The bytes from an address on. -/
def Memory.read (m : List Host.Cell) (a : Nat) : Nat → List Byte
  | 0 => []
  | n + 1 => Memory.readByte m a :: Memory.read m (a + 1) n

/-- Writes bytes from an address on. -/
def Memory.write (m : List Host.Cell) (a : Nat) : List Byte → List Host.Cell
  | [] => m
  | x :: xs => Memory.write (Memory.writeByte m a x) (a + 1) xs

/-- The canonical form of memory, above a bound. -/
def Memory.wfFrom (lo : Nat) : List Host.Cell → Bool
  | [] => true
  | (a, v) :: m => decide (lo ≤ a) && decide (v ≠ Memory.unlisted) && Memory.wfFrom (a + 1) m

/-- The canonical form of memory. -/
def Memory.wf (m : List Host.Cell) : Bool := Memory.wfFrom 0 m

/-! ### The machine's storage -/

/-- The bytes of storage from an address on. -/
def State.readMem (s : State) (a n : Nat) : List Byte := Memory.read s.mem a n

/-- The number in the `n` bytes of storage at an address. -/
def State.readNat (s : State) (a n : Nat) : Nat := leNat (s.readMem a n)

/-- A 64-bit word of storage. -/
def State.readWord (s : State) (a : Nat) : Word := BitVec.ofNat 64 (s.readNat a 8)

/-- The words of 8 bytes that `n` bytes at an address touch. -/
def wordsOf (a n : Nat) : List Nat := if n = 0 then [] else (List.range ((a + n - 1) / 8 + 1 - a / 8)).map (· + a / 8)

/-- The words of 8 bytes that `n` bytes at an address cover. -/
def wholeWords (a n : Nat) : List Nat := (List.range ((a + n) / 8 - (a + 7) / 8)).map (· + (a + 7) / 8)

/-- The full/empty bit of the word that holds an address is full (R151). -/
def State.isFull (s : State) (a : Nat) : Bool := !s.empties.contains (a / 8)

/-- Sets the full/empty bit of the word that holds an address. -/
def State.setFullBit (a : Nat) (full : Bool) (s : State) : State :=
  { s with empties := if full then s.empties.filter (· ≠ a / 8) else insertNat (a / 8) s.empties }

/-- The DRAM channel of a physical address: 32 a die, two sub-channels each (R17, DEDUCED, log 22). -/
def chanOf (a : Nat) : Nat := 32 * (a / Config.dieBytes) + bits (a % Config.dieBytes) 8 6 / 2

/-- The die is fatal (R418). -/
def State.dieFatal (s : State) (d : Nat) : Bool := s.rdyd.getLsbD (24 + d) || s.rdyd.getLsbD (32 + d)

/-- The address is DRAM whose channel failed training or whose die is fatal (R417, R418). -/
def State.chanFailed (s : State) (a : Nat) : Bool :=
  decide (a < Config.physEnd) && (s.flm.contains (chanOf a) || s.dieFatal (a / Config.dieBytes))

/-- The address is DRAM whose channel is not ready yet (R417). -/
def State.chanWaits (s : State) (a : Nat) : Bool :=
  decide (a < Config.physEnd) && !s.rdym.contains (chanOf a) && !s.chanFailed a

/-- A read of `n` bytes at an address finds a poisoned word, or DRAM that cannot be read (R157, R400, R417). -/
def State.spoiled (s : State) (a n : Nat) : Bool := (wordsOf a n).any s.poison.contains || s.chanFailed a

/-- A word of a read of `n` bytes arrives uncorrectable in this step (R401). -/
def State.lostRead (s : State) (a n : Nat) : Bool := (wordsOf a n).any s.path.reads.contains

/-- A read of `n` bytes at an address is delivered as poison (R400, R401). -/
def State.poisoned (s : State) (a n : Nat) : Bool := s.spoiled a n || s.lostRead a n

/-- Writes bytes: the words they cover lose their poison (R157), every word they touch is set full (R151). -/
def State.writeMem (a : Nat) (bs : List Byte) (s : State) : State :=
  { s with
    mem := Memory.write s.mem a bs
    empties := s.empties.filter fun w => !(wordsOf a bs.length).contains w
    poison := s.poison.filter fun w => !(wholeWords a bs.length).contains w }

/-- Writes a 64-bit word. -/
def State.writeWord (a : Nat) (v : Word) (s : State) : State := s.writeMem a (leBytes 8 v.toNat)

/-- Marks the word that holds an address as poisoned (R400). -/
def State.addPoison (a : Nat) (s : State) : State := { s with poison := insertNat (a / 8) s.poison }

/-- Of the words written by an engine or another device, those whose data arrive uncorrectable are written as poisoned (R401). -/
def State.tear (a n : Nat) (s : State) : State :=
  if s.path.writes = [] then s
  else ((wordsOf a n).filter s.path.writes.contains).foldl (fun s w => s.addPoison (8 * w)) s

/-! ### The host port's way out (R179) -/

/-- The request leaves for a `gset`, which the port performs before anything after it (R263). -/
def State.beginsHold (s : State) (t : HostTx) : Option Nat :=
  match t with
  | .memRead tag _ _ => (s.hostReads.find? fun r => r.tag == tag).bind fun r =>
    match r.owner with
    | .gset .. => some tag
    | _ => none
  | _ => none

/-- Something leaves the host port: behind a `gset` that the port performs (R263). -/
def State.emit (t : HostTx) (s : State) : State :=
  if s.hostHold.isSome then { s with hostQ := s.hostQ ++ [t] }
  else { s with hostTx := s.hostTx ++ [t], hostHold := s.beginsHold t }

/-- A request for `n` bytes leaves the host port under a fresh tag (R179). -/
def State.askHost (owner : HostOwner) (n : Nat) (t : Nat → HostTx) (s : State) : State :=
  ({ s with hostReads := s.hostReads ++ [{ tag := s.serial, owner := owner, left := n }], serial := s.serial + 1 } : State).emit
    (t s.serial)

end Sys2Proof.Machine
end

