-- ==== Sys2Proof/Machine/Shapes.lean ====
section
/-! DEFINITION. The encoding tables of the spec: OP and FN of every word (R36), the KINDs, modifiers and conditions
each operand field permits, the types each mnemonic permits, and the limits that are encoding limits (R37 rows 6 to 13).
Written from the encoding tables R59, R92, R108-R110, R129-R130, R154, R180, R213, R233-R234, R256-R257, R280, R304,
R331, R362 and R391. -/

namespace Sys2Proof

/-- The KINDs of R29, as a name. -/
inductive Kind where
  | reg | pred | spec | imm | chan | lit | absent
  deriving DecidableEq, Repr

/-- What an entry permits in one operand field: KINDs, the modifiers SYNC, NEG, VAL on a register, whether a register
must carry VAL (the `sc` fields of R233), and how many condition codes a predicate field may hold (R31). -/
structure FieldSpec where
  kinds : List Kind
  sync : Bool := false
  neg : Bool := false
  val : Bool := false
  needVal : Bool := false
  conds : Nat := 1
  deriving DecidableEq, Repr

/-- The three fields of an entry. -/
structure Shape where
  a : FieldSpec
  b : FieldSpec
  c : FieldSpec
  deriving DecidableEq, Repr

/-- The operand field at fault, as TRD.FLD codes it (R38). -/
inductive Fld where
  | a | b | c
  deriving DecidableEq, Repr

namespace Ty

/-- The code of a type in FN (R35). -/
def code : Ty → BitVec 4
  | .i8 => 0x0#4
  | .i16 => 0x1#4
  | .i32 => 0x2#4
  | .i64 => 0x3#4
  | .n8 => 0x4#4
  | .n16 => 0x5#4
  | .n32 => 0x6#4
  | .n64 => 0x7#4
  | .h16 => 0x8#4
  | .b16 => 0x9#4
  | .f32 => 0xA#4
  | .f64 => 0xB#4
  | .f8 => 0xC#4
  | .q4 => 0xD#4
  | .x64 => 0xE#4

/-- The type a code names; 0xF names none (R35). -/
def ofCode : Nat → Option Ty
  | 0 => some .i8
  | 1 => some .i16
  | 2 => some .i32
  | 3 => some .i64
  | 4 => some .n8
  | 5 => some .n16
  | 6 => some .n32
  | 7 => some .n64
  | 8 => some .h16
  | 9 => some .b16
  | 10 => some .f32
  | 11 => some .f64
  | 12 => some .f8
  | 13 => some .q4
  | 14 => some .x64
  | _ => none

end Ty

/-- FN of the placements of R94. -/
def Placement.code : Placement → BitVec 4
  | .loc => 0#4 | .core => 1#4 | .addr => 2#4 | .mask => 3#4

/-- The placement an FN names. -/
def Placement.ofCode : Nat → Option Placement
  | 0 => some .loc | 1 => some .core | 2 => some .addr | 3 => some .mask | _ => none

/-- FN of the scopes of R172. -/
def Scope.code : Scope → BitVec 4
  | .thr => 0#4 | .core => 1#4 | .clu => 2#4 | .band => 3#4 | .die => 4#4 | .dev => 5#4 | .host => 6#4 | .peer => 7#4
  | .grp => 8#4 | .fab => 9#4 | .sys => 10#4

/-- The scope an FN names (codes 11 to 15 are reserved, R172). -/
def Scope.ofCode : Nat → Option Scope
  | 0 => some .thr | 1 => some .core | 2 => some .clu | 3 => some .band | 4 => some .die | 5 => some .dev | 6 => some .host
  | 7 => some .peer | 8 => some .grp | 9 => some .fab | 10 => some .sys | _ => none

/-- FN of the scopes of `tlbi` and `tlbw` (R362). -/
def TlbScope.code : TlbScope → BitVec 4
  | .clu => 0#4 | .band => 1#4 | .die => 2#4 | .dev => 3#4

/-- The scope an FN of `tlbi` or `tlbw` names. -/
def TlbScope.ofCode : Nat → Option TlbScope
  | 0 => some .clu | 1 => some .band | 2 => some .die | 3 => some .dev | _ => none

/-- FN of a `cas`: width in bits 3:2, order in bits 1:0 (R183). -/
def CasFn.code (f : CasFn) : BitVec 4 :=
  0#1 ++ BitVec.ofBool f.wide ++ BitVec.ofBool f.rel ++ BitVec.ofBool f.acq

/-- The width and order an FN names; bit 3 set is reserved. -/
def CasFn.ofCode : Nat → Option CasFn
  | 0 => some ⟨false, false, false⟩ | 1 => some ⟨false, false, true⟩ | 2 => some ⟨false, true, false⟩
  | 3 => some ⟨false, true, true⟩ | 4 => some ⟨true, false, false⟩ | 5 => some ⟨true, false, true⟩
  | 6 => some ⟨true, true, false⟩ | 7 => some ⟨true, true, true⟩ | _ => none

/-- The operand part of a word; a step that no word encodes has none. -/
def Instr.args : Instr → Option Args
  | .nop x => some x
  | .br x => some x
  | .jmp x => some x
  | .call x => some x
  | .callr x => some x
  | .loop x => some x
  | .cmp _ x => some x
  | .plogAnd x => some x
  | .plogOr x => some x
  | .plogXor x => some x
  | .plogAndn x => some x
  | .plogOrn x => some x
  | .plogXnor x => some x
  | .plogMov x => some x
  | .plogNot x => some x
  | .trap x => some x
  | .tretRetry x => some x
  | .tretNext x => some x
  | .brk x => some x
  | .spawn _ x => some x
  | .exit x => some x
  | .park x => some x
  | .wake x => some x
  | .yield x => some x
  | .hop x => some x
  | .cbar x => some x
  | .gbar x => some x
  | .ibx x => some x
  | .ibs x => some x
  | .ntc x => some x
  | .fork x => some x
  | .rdv x => some x
  | .cpinOn x => some x
  | .cpinOff x => some x
  | .drq x => some x
  | .jdr _ x => some x
  | .add _ x => some x
  | .sub _ x => some x
  | .mul _ x => some x
  | .mulh _ x => some x
  | .div _ x => some x
  | .rem _ x => some x
  | .and _ x => some x
  | .or _ x => some x
  | .xor _ x => some x
  | .andn _ x => some x
  | .min _ x => some x
  | .max _ x => some x
  | .shl _ x => some x
  | .shr _ x => some x
  | .sar _ x => some x
  | .rot _ x => some x
  | .clz _ x => some x
  | .ctz _ x => some x
  | .popc _ x => some x
  | .bswap _ x => some x
  | .bext _ x => some x
  | .bins _ x => some x
  | .cvi _ x => some x
  | .mov _ x => some x
  | .movl x => some x
  | .mvs x => some x
  | .msv x => some x
  | .leaAdd x => some x
  | .leaOff x => some x
  | .leaGva x => some x
  | .leaSeg _ x => some x
  | .mad _ x => some x
  | .fadd _ x => some x
  | .fsub _ x => some x
  | .fmul _ x => some x
  | .fma _ x => some x
  | .fdiv _ x => some x
  | .fsqrt _ x => some x
  | .fmin _ x => some x
  | .fmax _ x => some x
  | .fcvt _ x => some x
  | .fcvti _ x => some x
  | .icvtf _ x => some x
  | .frnd _ x => some x
  | .fcls _ x => some x
  | .ld _ x => some x
  | .st _ x => some x
  | .ldc x => some x
  | .stp x => some x
  | .lfe x => some x
  | .sfeEmpty x => some x
  | .sfeFull x => some x
  | .ldm _ x => some x
  | .stm _ x => some x
  | .pfch x => some x
  | .sgp x => some x
  | .pgq x => some x
  | .dsc x => some x
  | .amoAdd x => some x
  | .amoAnd x => some x
  | .amoOr x => some x
  | .amoXor x => some x
  | .amoMin x => some x
  | .amoMax x => some x
  | .amoNmin x => some x
  | .amoNmax x => some x
  | .amoSwap x => some x
  | .amoFadd32 x => some x
  | .amoFmax32 x => some x
  | .amoFadd64 x => some x
  | .cas _ x => some x
  | .lda _ x => some x
  | .stl _ x => some x
  | .fence _ x => some x
  | .wtwNe x => some x
  | .wtwGe x => some x
  | .sopn x => some x
  | .scls x => some x
  | .sput _ x => some x
  | .drn x => some x
  | .pprbTab x => some x
  | .pprbPing x => some x
  | .vadd _ x => some x
  | .vsub _ x => some x
  | .vmul _ x => some x
  | .vfma _ x => some x
  | .vmin _ x => some x
  | .vmax _ x => some x
  | .vexp _ x => some x
  | .vlog _ x => some x
  | .vrcp _ x => some x
  | .vrsq _ x => some x
  | .vsqrt _ x => some x
  | .vcvt _ x => some x
  | .vsum _ x => some x
  | .vrmax _ x => some x
  | .vdot _ x => some x
  | .vscan _ x => some x
  | .vgat _ x => some x
  | .vsct _ x => some x
  | .vsel _ x => some x
  | .vcmp _ x => some x
  | .vfill _ x => some x
  | .vand _ x => some x
  | .vor _ x => some x
  | .vxor _ x => some x
  | .vshl _ x => some x
  | .vshr _ x => some x
  | .vsmx _ x => some x
  | .vlnm _ x => some x
  | .gpk _ x => some x
  | .gupk _ x => some x
  | .grq x => some x
  | .gamx x => some x
  | .ghdr x => some x
  | .gsetBe x => some x
  | .gsetZero x => some x
  | .gsetNan x => some x
  | .gchk x => some x
  | .gcvt _ x => some x
  | .lse x => some x
  | .lsr x => some x
  | .mz x => some x
  | .mmac _ x => some x
  | .mld x => some x
  | .mst _ x => some x
  | .cpy x => some x
  | .cpl x => some x
  | .rcfAll x => some x
  | .rcfOne x => some x
  | .cpstH x => some x
  | .cpstN x => some x
  | .cpxH x => some x
  | .cpxAll x => some x
  | .cpfFull x => some x
  | .cpfEmpty x => some x
  | .cpfMke x => some x
  | .cpfMkf x => some x
  | .bregNew x => some x
  | .bregJoin x => some x
  | .bdrg x => some x
  | .badd x => some x
  | .brd _ x => some x
  | .bqryRd x => some x
  | .bqryClr x => some x
  | .bgrpAdd x => some x
  | .bgrpRm x => some x
  | .bgrpDrop x => some x
  | .bholdOn x => some x
  | .bholdOff x => some x
  | .bstep x => some x
  | .sret x => some x
  | .tlbi _ x => some x
  | .tlbw _ x => some x
  | .cmapMap x => some x
  | .cmapDead x => some x
  | .cmapRd x => some x
  | .wkxPage x => some x
  | .wkxThr x => some x
  | .wkxEnd x => some x
  | .cxf x => some x
  | .psw x => some x
  | .srd x => some x
  | .swr x => some x
  | .evict x => some x
  | .prhUnb x => some x
  | .prhEvc x => some x
  | .prhHold x => some x
  | .pgdFill x => some x
  | .pgdFail x => some x
  | .haltCore x => some x
  | .haltRun x => some x
  | .haltPart x => some x
  | .haltPrun x => some x
  | .qmap x => some x
  | .qunm x => some x
  | .qsw x => some x
  | .qlch x => some x
  | .qdlRd x => some x
  | .qdlAdd x => some x
  | .qdlStop x => some x
  | .qstSlot x => some x
  | .qstBell x => some x
  | .qstClr x => some x
  | .qstSkip x => some x
  | .qsigCtr x => some x
  | .qsigIrq x => some x
  | .launch .. | .signal .. | .wait .. | .deadline .. | .mark .. | .queueFence .. => none
  | .queueDispatch .. | .queueUnblock .. | .deadlineExpire .. | .doorbellWrite .. | .bar2Write .. | .bar2Read .. => none
  | .mbell .. | .hostRegisterWrite .. | .fetchReady .. | .resultLand .. | .threadBind .. | .lineFillDone .. => none
  | .quantumEnd .. | .groupAdmit .. | .doneAddRetry .. | .hopArrive .. | .wakeReceive .. | .inboxEnqueue .. => none
  | .flitArrive .. | .homeRequestStart .. | .missFill .. | .waiterResend .. | .draughtAck .. | .ceilRecover .. => none
  | .nakReceive .. | .streamNak .. | .flueArrive .. | .collectorDeliver .. | .heartbeat .. | .wakeArrive .. => none
  | .linkFlitReceive .. | .linkRetryReceive .. | .laneFail .. | .linkSilenceDown .. | .peerPacketReceive .. | .portTimeout .. => none
  | .remoteWaitTimeout .. | .streamStrip .. | .grainBlock .. | .streamCompletion .. | .leaseGrant .. | .leaseTermExpire .. => none
  | .leaseIdleClose .. | .panStart .. | .panCommit .. | .panCompletion .. | .recordFill .. | .copyStart .. => none
  | .copyElement .. | .copyHoldRetry .. | .copyFlag .. | .copyCompletion .. | .brineSweepStep .. | .brineHalfArrive .. => none
  | .brineAnswer .. | .brineSlotTimeout .. | .brineRecallReceive .. | .brineRecallAnswer .. | .brineProposeReceive .. | .brineStateReceive .. => none
  | .brineProposeResend .. | .brineHoldRetry .. | .tableBaseWrite .. | .mboxRead .. | .cmpartWrite .. | .ibxszWrite .. => none
  | .rfpwrWrite .. | .klsWrite .. | .mrxWrite .. | .attsWrite .. | .attestDone | .deviceReset .. => none
  | .clusterReady .. | .dramTrainDone .. | .dramTrainFail .. | .thermalFatal .. | .clockAdjust .. | .unitGate .. => none
  | .i3cEntdaa .. | .i3cSetdasa .. | .i3cPrivateRead .. | .i3cPrivateWrite .. | .writeBack .. | .skippedTurn .. => none
  | .bankWake .. | .segmentSetFill .. | .routerCycle .. | .linkTrain .. | .pcieCompletion .. => none

/-- The major opcode (R36). -/
def Instr.op : Instr → BitVec 8
  | .nop .. => 0x01#8
  | .br .. => 0x02#8
  | .jmp .. => 0x03#8
  | .call .. => 0x04#8
  | .callr .. => 0x05#8
  | .loop .. => 0x06#8
  | .cmp .. => 0x07#8
  | .plogAnd .. => 0x08#8
  | .plogOr .. => 0x08#8
  | .plogXor .. => 0x08#8
  | .plogAndn .. => 0x08#8
  | .plogOrn .. => 0x08#8
  | .plogXnor .. => 0x08#8
  | .plogMov .. => 0x08#8
  | .plogNot .. => 0x08#8
  | .trap .. => 0x09#8
  | .tretRetry .. => 0x0A#8
  | .tretNext .. => 0x0A#8
  | .brk .. => 0x0B#8
  | .spawn .. => 0x10#8
  | .exit .. => 0x11#8
  | .park .. => 0x12#8
  | .wake .. => 0x13#8
  | .yield .. => 0x14#8
  | .hop .. => 0x15#8
  | .cbar .. => 0x16#8
  | .gbar .. => 0x17#8
  | .ibx .. => 0x18#8
  | .ibs .. => 0x19#8
  | .ntc .. => 0x1F#8
  | .fork .. => 0x1A#8
  | .rdv .. => 0x1B#8
  | .cpinOn .. => 0x1C#8
  | .cpinOff .. => 0x1C#8
  | .drq .. => 0x1D#8
  | .jdr .. => 0x1E#8
  | .add .. => 0x20#8
  | .sub .. => 0x21#8
  | .mul .. => 0x22#8
  | .mulh .. => 0x23#8
  | .div .. => 0x24#8
  | .rem .. => 0x25#8
  | .and .. => 0x26#8
  | .or .. => 0x27#8
  | .xor .. => 0x28#8
  | .andn .. => 0x29#8
  | .min .. => 0x2E#8
  | .max .. => 0x2F#8
  | .shl .. => 0x2A#8
  | .shr .. => 0x2B#8
  | .sar .. => 0x2C#8
  | .rot .. => 0x2D#8
  | .clz .. => 0x30#8
  | .ctz .. => 0x31#8
  | .popc .. => 0x32#8
  | .bswap .. => 0x3C#8
  | .bext .. => 0x33#8
  | .bins .. => 0x34#8
  | .cvi .. => 0x35#8
  | .mov .. => 0x36#8
  | .movl .. => 0x37#8
  | .mvs .. => 0x38#8
  | .msv .. => 0x39#8
  | .leaAdd .. => 0x3A#8
  | .leaOff .. => 0x3A#8
  | .leaGva .. => 0x3A#8
  | .leaSeg .. => 0x3A#8
  | .mad .. => 0x3B#8
  | .fadd .. => 0x40#8
  | .fsub .. => 0x41#8
  | .fmul .. => 0x42#8
  | .fma .. => 0x43#8
  | .fdiv .. => 0x44#8
  | .fsqrt .. => 0x45#8
  | .fmin .. => 0x46#8
  | .fmax .. => 0x47#8
  | .fcvt .. => 0x48#8
  | .fcvti .. => 0x49#8
  | .icvtf .. => 0x4A#8
  | .frnd .. => 0x4B#8
  | .fcls .. => 0x4C#8
  | .ld .. => 0x50#8
  | .st .. => 0x51#8
  | .ldc .. => 0x52#8
  | .stp .. => 0x53#8
  | .lfe .. => 0x54#8
  | .sfeEmpty .. => 0x55#8
  | .sfeFull .. => 0x55#8
  | .ldm .. => 0x56#8
  | .stm .. => 0x57#8
  | .pfch .. => 0x58#8
  | .sgp .. => 0x59#8
  | .pgq .. => 0x5A#8
  | .dsc .. => 0x5B#8
  | .amoAdd .. => 0x60#8
  | .amoAnd .. => 0x60#8
  | .amoOr .. => 0x60#8
  | .amoXor .. => 0x60#8
  | .amoMin .. => 0x60#8
  | .amoMax .. => 0x60#8
  | .amoNmin .. => 0x60#8
  | .amoNmax .. => 0x60#8
  | .amoSwap .. => 0x60#8
  | .amoFadd32 .. => 0x60#8
  | .amoFmax32 .. => 0x60#8
  | .amoFadd64 .. => 0x60#8
  | .cas .. => 0x61#8
  | .lda .. => 0x62#8
  | .stl .. => 0x63#8
  | .fence .. => 0x64#8
  | .wtwNe .. => 0x65#8
  | .wtwGe .. => 0x65#8
  | .sopn .. => 0x70#8
  | .scls .. => 0x71#8
  | .sput .. => 0x72#8
  | .drn .. => 0x73#8
  | .pprbTab .. => 0x74#8
  | .pprbPing .. => 0x74#8
  | .vadd .. => 0x80#8
  | .vsub .. => 0x81#8
  | .vmul .. => 0x82#8
  | .vfma .. => 0x83#8
  | .vmin .. => 0x84#8
  | .vmax .. => 0x85#8
  | .vexp .. => 0x86#8
  | .vlog .. => 0x87#8
  | .vrcp .. => 0x88#8
  | .vrsq .. => 0x89#8
  | .vsqrt .. => 0x8A#8
  | .vcvt .. => 0x8B#8
  | .vsum .. => 0x8C#8
  | .vrmax .. => 0x8D#8
  | .vdot .. => 0x8E#8
  | .vscan .. => 0x8F#8
  | .vgat .. => 0x90#8
  | .vsct .. => 0x91#8
  | .vsel .. => 0x92#8
  | .vcmp .. => 0x93#8
  | .vfill .. => 0x94#8
  | .vand .. => 0x95#8
  | .vor .. => 0x96#8
  | .vxor .. => 0x97#8
  | .vshl .. => 0x98#8
  | .vshr .. => 0x99#8
  | .vsmx .. => 0x9A#8
  | .vlnm .. => 0x9B#8
  | .gpk .. => 0xA0#8
  | .gupk .. => 0xA1#8
  | .grq .. => 0xA2#8
  | .gamx .. => 0xA3#8
  | .ghdr .. => 0xA4#8
  | .gsetBe .. => 0xA5#8
  | .gsetZero .. => 0xA5#8
  | .gsetNan .. => 0xA5#8
  | .gchk .. => 0xA6#8
  | .gcvt .. => 0xA7#8
  | .lse .. => 0xB0#8
  | .lsr .. => 0xB1#8
  | .mz .. => 0xB2#8
  | .mmac .. => 0xB3#8
  | .mld .. => 0xB4#8
  | .mst .. => 0xB5#8
  | .cpy .. => 0xC0#8
  | .cpl .. => 0xC1#8
  | .rcfAll .. => 0xC2#8
  | .rcfOne .. => 0xC2#8
  | .cpstH .. => 0xC3#8
  | .cpstN .. => 0xC3#8
  | .cpxH .. => 0xC4#8
  | .cpxAll .. => 0xC4#8
  | .cpfFull .. => 0xC5#8
  | .cpfEmpty .. => 0xC5#8
  | .cpfMke .. => 0xC5#8
  | .cpfMkf .. => 0xC5#8
  | .bregNew .. => 0xC8#8
  | .bregJoin .. => 0xC8#8
  | .bdrg .. => 0xC9#8
  | .badd .. => 0xCA#8
  | .brd .. => 0xCB#8
  | .bqryRd .. => 0xCC#8
  | .bqryClr .. => 0xCC#8
  | .bgrpAdd .. => 0xCD#8
  | .bgrpRm .. => 0xCD#8
  | .bgrpDrop .. => 0xCD#8
  | .bholdOn .. => 0xCE#8
  | .bholdOff .. => 0xCE#8
  | .bstep .. => 0xCF#8
  | .sret .. => 0xE0#8
  | .tlbi .. => 0xE1#8
  | .tlbw .. => 0xE2#8
  | .cmapMap .. => 0xE3#8
  | .cmapDead .. => 0xE3#8
  | .cmapRd .. => 0xE3#8
  | .wkxPage .. => 0xE4#8
  | .wkxThr .. => 0xE4#8
  | .wkxEnd .. => 0xE4#8
  | .cxf .. => 0xE5#8
  | .psw .. => 0xE6#8
  | .srd .. => 0xE7#8
  | .swr .. => 0xE8#8
  | .evict .. => 0xE9#8
  | .prhUnb .. => 0xEA#8
  | .prhEvc .. => 0xEA#8
  | .prhHold .. => 0xEA#8
  | .pgdFill .. => 0xEB#8
  | .pgdFail .. => 0xEB#8
  | .haltCore .. => 0xEC#8
  | .haltRun .. => 0xEC#8
  | .haltPart .. => 0xEC#8
  | .haltPrun .. => 0xEC#8
  | .qmap .. => 0xF0#8
  | .qunm .. => 0xF1#8
  | .qsw .. => 0xF2#8
  | .qlch .. => 0xF3#8
  | .qdlRd .. => 0xF4#8
  | .qdlAdd .. => 0xF4#8
  | .qdlStop .. => 0xF4#8
  | .qstSlot .. => 0xF5#8
  | .qstBell .. => 0xF5#8
  | .qstClr .. => 0xF5#8
  | .qstSkip .. => 0xF5#8
  | .qsigCtr .. => 0xF6#8
  | .qsigIrq .. => 0xF6#8
  | .launch .. | .signal .. | .wait .. | .deadline .. | .mark .. | .queueFence .. => 0#8
  | .queueDispatch .. | .queueUnblock .. | .deadlineExpire .. | .doorbellWrite .. | .bar2Write .. | .bar2Read .. => 0#8
  | .mbell .. | .hostRegisterWrite .. | .fetchReady .. | .resultLand .. | .threadBind .. | .lineFillDone .. => 0#8
  | .quantumEnd .. | .groupAdmit .. | .doneAddRetry .. | .hopArrive .. | .wakeReceive .. | .inboxEnqueue .. => 0#8
  | .flitArrive .. | .homeRequestStart .. | .missFill .. | .waiterResend .. | .draughtAck .. | .ceilRecover .. => 0#8
  | .nakReceive .. | .streamNak .. | .flueArrive .. | .collectorDeliver .. | .heartbeat .. | .wakeArrive .. => 0#8
  | .linkFlitReceive .. | .linkRetryReceive .. | .laneFail .. | .linkSilenceDown .. | .peerPacketReceive .. | .portTimeout .. => 0#8
  | .remoteWaitTimeout .. | .streamStrip .. | .grainBlock .. | .streamCompletion .. | .leaseGrant .. | .leaseTermExpire .. => 0#8
  | .leaseIdleClose .. | .panStart .. | .panCommit .. | .panCompletion .. | .recordFill .. | .copyStart .. => 0#8
  | .copyElement .. | .copyHoldRetry .. | .copyFlag .. | .copyCompletion .. | .brineSweepStep .. | .brineHalfArrive .. => 0#8
  | .brineAnswer .. | .brineSlotTimeout .. | .brineRecallReceive .. | .brineRecallAnswer .. | .brineProposeReceive .. | .brineStateReceive .. => 0#8
  | .brineProposeResend .. | .brineHoldRetry .. | .tableBaseWrite .. | .mboxRead .. | .cmpartWrite .. | .ibxszWrite .. => 0#8
  | .rfpwrWrite .. | .klsWrite .. | .mrxWrite .. | .attsWrite .. | .attestDone | .deviceReset .. => 0#8
  | .clusterReady .. | .dramTrainDone .. | .dramTrainFail .. | .thermalFatal .. | .clockAdjust .. | .unitGate .. => 0#8
  | .i3cEntdaa .. | .i3cSetdasa .. | .i3cPrivateRead .. | .i3cPrivateWrite .. | .writeBack .. | .skippedTurn .. => 0#8
  | .bankWake .. | .segmentSetFill .. | .routerCycle .. | .linkTrain .. | .pcieCompletion .. => 0#8

/-- FN (R23, R35, R172 and the entries). -/
def Instr.fn : Instr → BitVec 4
  | .nop _ => 0x0#4
  | .br _ => 0x0#4
  | .jmp _ => 0x0#4
  | .call _ => 0x0#4
  | .callr _ => 0x0#4
  | .loop _ => 0x0#4
  | .cmp t _ => t.code
  | .plogAnd _ => 0x0#4
  | .plogOr _ => 0x1#4
  | .plogXor _ => 0x2#4
  | .plogAndn _ => 0x3#4
  | .plogOrn _ => 0x4#4
  | .plogXnor _ => 0x5#4
  | .plogMov _ => 0x6#4
  | .plogNot _ => 0x7#4
  | .trap _ => 0x0#4
  | .tretRetry _ => 0x0#4
  | .tretNext _ => 0x1#4
  | .brk _ => 0x0#4
  | .spawn sc _ => sc.code
  | .exit _ => 0x0#4
  | .park _ => 0x0#4
  | .wake _ => 0x0#4
  | .yield _ => 0x0#4
  | .hop _ => 0x0#4
  | .cbar _ => 0x0#4
  | .gbar _ => 0x0#4
  | .ibx _ => 0x0#4
  | .ibs _ => 0x0#4
  | .ntc _ => 0x0#4
  | .fork _ => 0x0#4
  | .rdv _ => 0x0#4
  | .cpinOn _ => 0x1#4
  | .cpinOff _ => 0x0#4
  | .drq _ => 0x0#4
  | .jdr n _ => n
  | .add t _ => t.code
  | .sub t _ => t.code
  | .mul t _ => t.code
  | .mulh t _ => t.code
  | .div t _ => t.code
  | .rem t _ => t.code
  | .and t _ => t.code
  | .or t _ => t.code
  | .xor t _ => t.code
  | .andn t _ => t.code
  | .min t _ => t.code
  | .max t _ => t.code
  | .shl t _ => t.code
  | .shr t _ => t.code
  | .sar t _ => t.code
  | .rot t _ => t.code
  | .clz t _ => t.code
  | .ctz t _ => t.code
  | .popc t _ => t.code
  | .bswap t _ => t.code
  | .bext t _ => t.code
  | .bins t _ => t.code
  | .cvi t _ => t.code
  | .mov t _ => t.code
  | .movl _ => 0x0#4
  | .mvs _ => 0x0#4
  | .msv _ => 0x0#4
  | .leaAdd _ => 0x0#4
  | .leaOff _ => 0x1#4
  | .leaGva _ => 0x2#4
  | .leaSeg n _ => 1#1 ++ n
  | .mad t _ => t.code
  | .fadd t _ => t.code
  | .fsub t _ => t.code
  | .fmul t _ => t.code
  | .fma t _ => t.code
  | .fdiv t _ => t.code
  | .fsqrt t _ => t.code
  | .fmin t _ => t.code
  | .fmax t _ => t.code
  | .fcvt t _ => t.code
  | .fcvti t _ => t.code
  | .icvtf t _ => t.code
  | .frnd t _ => t.code
  | .fcls t _ => t.code
  | .ld t _ => t.code
  | .st t _ => t.code
  | .ldc _ => 0x0#4
  | .stp _ => 0x0#4
  | .lfe _ => 0x0#4
  | .sfeEmpty _ => 0x0#4
  | .sfeFull _ => 0x1#4
  | .ldm n _ => n
  | .stm n _ => n
  | .pfch _ => 0x0#4
  | .sgp _ => 0x0#4
  | .pgq _ => 0x0#4
  | .dsc _ => 0x0#4
  | .amoAdd _ => 0x0#4
  | .amoAnd _ => 0x1#4
  | .amoOr _ => 0x2#4
  | .amoXor _ => 0x3#4
  | .amoMin _ => 0x4#4
  | .amoMax _ => 0x5#4
  | .amoNmin _ => 0x6#4
  | .amoNmax _ => 0x7#4
  | .amoSwap _ => 0x8#4
  | .amoFadd32 _ => 0x9#4
  | .amoFmax32 _ => 0xA#4
  | .amoFadd64 _ => 0xB#4
  | .cas f _ => f.code
  | .lda sc _ => sc.code
  | .stl sc _ => sc.code
  | .fence sc _ => sc.code
  | .wtwNe _ => 0x0#4
  | .wtwGe _ => 0x1#4
  | .sopn _ => 0x0#4
  | .scls _ => 0x0#4
  | .sput n _ => n
  | .drn _ => 0x0#4
  | .pprbTab _ => 0x0#4
  | .pprbPing _ => 0x1#4
  | .vadd t _ => t.code
  | .vsub t _ => t.code
  | .vmul t _ => t.code
  | .vfma t _ => t.code
  | .vmin t _ => t.code
  | .vmax t _ => t.code
  | .vexp t _ => t.code
  | .vlog t _ => t.code
  | .vrcp t _ => t.code
  | .vrsq t _ => t.code
  | .vsqrt t _ => t.code
  | .vcvt t _ => t.code
  | .vsum t _ => t.code
  | .vrmax t _ => t.code
  | .vdot t _ => t.code
  | .vscan t _ => t.code
  | .vgat t _ => t.code
  | .vsct t _ => t.code
  | .vsel t _ => t.code
  | .vcmp t _ => t.code
  | .vfill t _ => t.code
  | .vand t _ => t.code
  | .vor t _ => t.code
  | .vxor t _ => t.code
  | .vshl t _ => t.code
  | .vshr t _ => t.code
  | .vsmx t _ => t.code
  | .vlnm t _ => t.code
  | .gpk t _ => t.code
  | .gupk t _ => t.code
  | .grq _ => 0x0#4
  | .gamx _ => 0x0#4
  | .ghdr _ => 0x0#4
  | .gsetBe _ => 0x0#4
  | .gsetZero _ => 0x1#4
  | .gsetNan _ => 0x2#4
  | .gchk _ => 0x0#4
  | .gcvt t _ => t.code
  | .lse _ => 0x0#4
  | .lsr _ => 0x0#4
  | .mz _ => 0x0#4
  | .mmac t _ => t.code
  | .mld _ => 0x0#4
  | .mst t _ => t.code
  | .cpy _ => 0x0#4
  | .cpl _ => 0x0#4
  | .rcfAll _ => 0x0#4
  | .rcfOne _ => 0x1#4
  | .cpstH _ => 0x0#4
  | .cpstN _ => 0x1#4
  | .cpxH _ => 0x0#4
  | .cpxAll _ => 0x1#4
  | .cpfFull _ => 0x0#4
  | .cpfEmpty _ => 0x1#4
  | .cpfMke _ => 0x2#4
  | .cpfMkf _ => 0x3#4
  | .bregNew _ => 0x0#4
  | .bregJoin _ => 0x1#4
  | .bdrg _ => 0x0#4
  | .badd _ => 0x0#4
  | .brd t _ => t.code
  | .bqryRd _ => 0x0#4
  | .bqryClr _ => 0x1#4
  | .bgrpAdd _ => 0x0#4
  | .bgrpRm _ => 0x1#4
  | .bgrpDrop _ => 0x2#4
  | .bholdOn _ => 0x0#4
  | .bholdOff _ => 0x1#4
  | .bstep _ => 0x0#4
  | .sret _ => 0x0#4
  | .tlbi sc _ => sc.code
  | .tlbw sc _ => sc.code
  | .cmapMap _ => 0x0#4
  | .cmapDead _ => 0x1#4
  | .cmapRd _ => 0x2#4
  | .wkxPage _ => 0x0#4
  | .wkxThr _ => 0x1#4
  | .wkxEnd _ => 0x2#4
  | .cxf _ => 0x0#4
  | .psw _ => 0x0#4
  | .srd _ => 0x0#4
  | .swr _ => 0x0#4
  | .evict _ => 0x0#4
  | .prhUnb _ => 0x0#4
  | .prhEvc _ => 0x1#4
  | .prhHold _ => 0x2#4
  | .pgdFill _ => 0x0#4
  | .pgdFail _ => 0x1#4
  | .haltCore _ => 0x0#4
  | .haltRun _ => 0x1#4
  | .haltPart _ => 0x2#4
  | .haltPrun _ => 0x3#4
  | .qmap _ => 0x0#4
  | .qunm _ => 0x0#4
  | .qsw _ => 0x0#4
  | .qlch _ => 0x0#4
  | .qdlRd _ => 0x0#4
  | .qdlAdd _ => 0x1#4
  | .qdlStop _ => 0x2#4
  | .qstSlot _ => 0x0#4
  | .qstBell _ => 0x1#4
  | .qstClr _ => 0x2#4
  | .qstSkip _ => 0x3#4
  | .qsigCtr _ => 0x0#4
  | .qsigIrq _ => 0x1#4
  | .launch .. | .signal .. | .wait .. | .deadline .. | .mark .. | .queueFence .. => 0#4
  | .queueDispatch .. | .queueUnblock .. | .deadlineExpire .. | .doorbellWrite .. | .bar2Write .. | .bar2Read .. => 0#4
  | .mbell .. | .hostRegisterWrite .. | .fetchReady .. | .resultLand .. | .threadBind .. | .lineFillDone .. => 0#4
  | .quantumEnd .. | .groupAdmit .. | .doneAddRetry .. | .hopArrive .. | .wakeReceive .. | .inboxEnqueue .. => 0#4
  | .flitArrive .. | .homeRequestStart .. | .missFill .. | .waiterResend .. | .draughtAck .. | .ceilRecover .. => 0#4
  | .nakReceive .. | .streamNak .. | .flueArrive .. | .collectorDeliver .. | .heartbeat .. | .wakeArrive .. => 0#4
  | .linkFlitReceive .. | .linkRetryReceive .. | .laneFail .. | .linkSilenceDown .. | .peerPacketReceive .. | .portTimeout .. => 0#4
  | .remoteWaitTimeout .. | .streamStrip .. | .grainBlock .. | .streamCompletion .. | .leaseGrant .. | .leaseTermExpire .. => 0#4
  | .leaseIdleClose .. | .panStart .. | .panCommit .. | .panCompletion .. | .recordFill .. | .copyStart .. => 0#4
  | .copyElement .. | .copyHoldRetry .. | .copyFlag .. | .copyCompletion .. | .brineSweepStep .. | .brineHalfArrive .. => 0#4
  | .brineAnswer .. | .brineSlotTimeout .. | .brineRecallReceive .. | .brineRecallAnswer .. | .brineProposeReceive .. | .brineStateReceive .. => 0#4
  | .brineProposeResend .. | .brineHoldRetry .. | .tableBaseWrite .. | .mboxRead .. | .cmpartWrite .. | .ibxszWrite .. => 0#4
  | .rfpwrWrite .. | .klsWrite .. | .mrxWrite .. | .attsWrite .. | .attestDone | .deviceReset .. => 0#4
  | .clusterReady .. | .dramTrainDone .. | .dramTrainFail .. | .thermalFatal .. | .clockAdjust .. | .unitGate .. => 0#4
  | .i3cEntdaa .. | .i3cSetdasa .. | .i3cPrivateRead .. | .i3cPrivateWrite .. | .writeBack .. | .skippedTurn .. => 0#4
  | .bankWake .. | .segmentSetFill .. | .routerCycle .. | .linkTrain .. | .pcieCompletion .. => 0#4

/-- A field written `absent` in the tables. -/
def FieldSpec.fAbsent : FieldSpec := { kinds := [.absent] }
/-- A field written `reg` in the tables. -/
def FieldSpec.fReg : FieldSpec := { kinds := [.reg] }
/-- A field written `reg:s` in the tables. -/
def FieldSpec.fRegS : FieldSpec := { kinds := [.reg], sync := true }
/-- A field written `reg:s/imm` in the tables. -/
def FieldSpec.fRegImm : FieldSpec := { kinds := [.reg, .imm], sync := true }
/-- A field written `reg:sn` in the tables. -/
def FieldSpec.fRegN : FieldSpec := { kinds := [.reg], sync := true, neg := true }
/-- A field written `reg:sn/imm` in the tables. -/
def FieldSpec.fRegNImm : FieldSpec := { kinds := [.reg, .imm], sync := true, neg := true }
/-- A field written `imm` in the tables. -/
def FieldSpec.fImm : FieldSpec := { kinds := [.imm] }
/-- A field written `pred` in the tables. -/
def FieldSpec.fPred : FieldSpec := { kinds := [.pred] }
/-- A field written `predc` in the tables. -/
def FieldSpec.fPredC : FieldSpec := { kinds := [.pred], conds := 8 }
/-- A field written `predj` in the tables. -/
def FieldSpec.fPredJ : FieldSpec := { kinds := [.pred], conds := 6 }
/-- A field written `spec` in the tables. -/
def FieldSpec.fSpec : FieldSpec := { kinds := [.spec] }
/-- A field written `chan` in the tables. -/
def FieldSpec.fChan : FieldSpec := { kinds := [.chan] }
/-- A field written `imm/lit` in the tables. -/
def FieldSpec.fImmLit : FieldSpec := { kinds := [.imm, .lit] }
/-- A field written `reg:sv/imm` in the tables. -/
def FieldSpec.fArrSc : FieldSpec := { kinds := [.reg, .imm], sync := true, val := true }
/-- A field written `reg:sV/imm` in the tables. -/
def FieldSpec.fSc : FieldSpec := { kinds := [.reg, .imm], sync := true, val := true, needVal := true }
/-- A field written `reg:sV/imm/absent` in the tables. -/
def FieldSpec.fScAbs : FieldSpec := { kinds := [.reg, .imm, .absent], sync := true, val := true, needVal := true }

open FieldSpec in
/-- The fields each entry permits. -/
def Instr.shape : Instr → Shape
  | .nop .. => ⟨fAbsent, fAbsent, fAbsent⟩
  | .br .. => ⟨fImm, fAbsent, fAbsent⟩
  | .jmp .. => ⟨fRegS, fAbsent, fAbsent⟩
  | .call .. => ⟨fImm, fAbsent, fAbsent⟩
  | .callr .. => ⟨fRegS, fAbsent, fAbsent⟩
  | .loop .. => ⟨fReg, fImm, fAbsent⟩
  | .cmp .. => ⟨fPredC, fRegN, fRegNImm⟩
  | .plogAnd .. => ⟨fPred, fPred, fPred⟩
  | .plogOr .. => ⟨fPred, fPred, fPred⟩
  | .plogXor .. => ⟨fPred, fPred, fPred⟩
  | .plogAndn .. => ⟨fPred, fPred, fPred⟩
  | .plogOrn .. => ⟨fPred, fPred, fPred⟩
  | .plogXnor .. => ⟨fPred, fPred, fPred⟩
  | .plogMov .. => ⟨fPred, fPred, fAbsent⟩
  | .plogNot .. => ⟨fPred, fPred, fAbsent⟩
  | .trap .. => ⟨fImm, fAbsent, fAbsent⟩
  | .tretRetry .. => ⟨fAbsent, fAbsent, fAbsent⟩
  | .tretNext .. => ⟨fAbsent, fAbsent, fAbsent⟩
  | .brk .. => ⟨fImm, fAbsent, fAbsent⟩
  | .spawn .. => ⟨fRegS, fRegS, fRegImm⟩
  | .exit .. => ⟨fAbsent, fAbsent, fAbsent⟩
  | .park .. => ⟨fAbsent, fAbsent, fAbsent⟩
  | .wake .. => ⟨fRegS, fRegS, fRegS⟩
  | .yield .. => ⟨fAbsent, fAbsent, fAbsent⟩
  | .hop .. => ⟨fAbsent, fRegS, fRegImm⟩
  | .cbar .. => ⟨fAbsent, fAbsent, fAbsent⟩
  | .gbar .. => ⟨fAbsent, fAbsent, fAbsent⟩
  | .ibx .. => ⟨fReg, fChan, fAbsent⟩
  | .ibs .. => ⟨fChan, fRegS, fReg⟩
  | .ntc .. => ⟨fChan, fRegS, fAbsent⟩
  | .fork .. => ⟨fRegS, fRegImm, fAbsent⟩
  | .rdv .. => ⟨fRegS, fAbsent, fAbsent⟩
  | .cpinOn .. => ⟨fRegS, fAbsent, fAbsent⟩
  | .cpinOff .. => ⟨fRegS, fAbsent, fAbsent⟩
  | .drq .. => ⟨fRegS, fRegImm, fAbsent⟩
  | .jdr .. => ⟨fPredJ, fRegImm, fImm⟩
  | .add .. => ⟨fRegS, fRegN, fRegNImm⟩
  | .sub .. => ⟨fRegS, fRegN, fRegNImm⟩
  | .mul .. => ⟨fRegS, fRegN, fRegNImm⟩
  | .mulh .. => ⟨fRegS, fRegN, fRegNImm⟩
  | .div .. => ⟨fRegS, fRegN, fRegNImm⟩
  | .rem .. => ⟨fRegS, fRegN, fRegNImm⟩
  | .and .. => ⟨fRegS, fRegN, fRegNImm⟩
  | .or .. => ⟨fRegS, fRegN, fRegNImm⟩
  | .xor .. => ⟨fRegS, fRegN, fRegNImm⟩
  | .andn .. => ⟨fRegS, fRegN, fRegNImm⟩
  | .min .. => ⟨fRegS, fRegN, fRegNImm⟩
  | .max .. => ⟨fRegS, fRegN, fRegNImm⟩
  | .shl .. => ⟨fRegS, fRegN, fRegImm⟩
  | .shr .. => ⟨fRegS, fRegN, fRegImm⟩
  | .sar .. => ⟨fRegS, fRegN, fRegImm⟩
  | .rot .. => ⟨fRegS, fRegN, fRegImm⟩
  | .clz .. => ⟨fRegS, fRegN, fAbsent⟩
  | .ctz .. => ⟨fRegS, fRegN, fAbsent⟩
  | .popc .. => ⟨fRegS, fRegN, fAbsent⟩
  | .bswap .. => ⟨fRegS, fRegN, fAbsent⟩
  | .bext .. => ⟨fRegS, fRegN, fRegImm⟩
  | .bins .. => ⟨fReg, fRegN, fRegImm⟩
  | .cvi .. => ⟨fRegS, fRegN, fImm⟩
  | .mov .. => ⟨fRegS, fRegNImm, fAbsent⟩
  | .movl .. => ⟨fRegS, fImmLit, fAbsent⟩
  | .mvs .. => ⟨fRegS, fSpec, fAbsent⟩
  | .msv .. => ⟨fSpec, fRegImm, fAbsent⟩
  | .leaAdd .. => ⟨fRegS, fRegS, fRegImm⟩
  | .leaOff .. => ⟨fRegS, fRegS, fRegImm⟩
  | .leaGva .. => ⟨fRegS, fRegS, fRegImm⟩
  | .leaSeg .. => ⟨fRegS, fRegS, fRegImm⟩
  | .mad .. => ⟨fReg, fRegN, fRegNImm⟩
  | .fadd .. => ⟨fRegS, fRegN, fRegNImm⟩
  | .fsub .. => ⟨fRegS, fRegN, fRegNImm⟩
  | .fmul .. => ⟨fRegS, fRegN, fRegNImm⟩
  | .fma .. => ⟨fReg, fRegN, fRegNImm⟩
  | .fdiv .. => ⟨fRegS, fRegN, fRegNImm⟩
  | .fsqrt .. => ⟨fRegS, fRegN, fAbsent⟩
  | .fmin .. => ⟨fRegS, fRegN, fRegNImm⟩
  | .fmax .. => ⟨fRegS, fRegN, fRegNImm⟩
  | .fcvt .. => ⟨fRegS, fRegS, fImm⟩
  | .fcvti .. => ⟨fRegS, fRegS, fImm⟩
  | .icvtf .. => ⟨fRegS, fRegS, fImm⟩
  | .frnd .. => ⟨fRegS, fRegS, fImm⟩
  | .fcls .. => ⟨fRegS, fRegS, fAbsent⟩
  | .ld .. => ⟨fRegS, fRegS, fRegImm⟩
  | .st .. => ⟨fRegImm, fRegS, fRegImm⟩
  | .ldc .. => ⟨fRegS, fRegS, fRegImm⟩
  | .stp .. => ⟨fRegImm, fRegS, fRegImm⟩
  | .lfe .. => ⟨fRegS, fRegS, fRegImm⟩
  | .sfeEmpty .. => ⟨fAbsent, fRegS, fRegImm⟩
  | .sfeFull .. => ⟨fAbsent, fRegS, fRegImm⟩
  | .ldm .. => ⟨fReg, fRegS, fRegImm⟩
  | .stm .. => ⟨fReg, fRegS, fRegImm⟩
  | .pfch .. => ⟨fAbsent, fRegS, fRegImm⟩
  | .sgp .. => ⟨fReg, fImm, fAbsent⟩
  | .pgq .. => ⟨fRegS, fRegS, fRegImm⟩
  | .dsc .. => ⟨fReg, fRegS, fRegImm⟩
  | .amoAdd .. => ⟨fReg, fRegS, fRegImm⟩
  | .amoAnd .. => ⟨fReg, fRegS, fRegImm⟩
  | .amoOr .. => ⟨fReg, fRegS, fRegImm⟩
  | .amoXor .. => ⟨fReg, fRegS, fRegImm⟩
  | .amoMin .. => ⟨fReg, fRegS, fRegImm⟩
  | .amoMax .. => ⟨fReg, fRegS, fRegImm⟩
  | .amoNmin .. => ⟨fReg, fRegS, fRegImm⟩
  | .amoNmax .. => ⟨fReg, fRegS, fRegImm⟩
  | .amoSwap .. => ⟨fReg, fRegS, fRegImm⟩
  | .amoFadd32 .. => ⟨fReg, fRegS, fRegImm⟩
  | .amoFmax32 .. => ⟨fReg, fRegS, fRegImm⟩
  | .amoFadd64 .. => ⟨fReg, fRegS, fRegImm⟩
  | .cas .. => ⟨fReg, fRegS, fRegImm⟩
  | .lda .. => ⟨fRegS, fRegS, fRegImm⟩
  | .stl .. => ⟨fRegImm, fRegS, fRegImm⟩
  | .fence .. => ⟨fImm, fAbsent, fAbsent⟩
  | .wtwNe .. => ⟨fReg, fRegS, fRegImm⟩
  | .wtwGe .. => ⟨fReg, fRegS, fRegImm⟩
  | .sopn .. => ⟨fRegS, fRegS, fRegImm⟩
  | .scls .. => ⟨fAbsent, fRegS, fAbsent⟩
  | .sput .. => ⟨fReg, fRegS, fRegImm⟩
  | .drn .. => ⟨fRegS, fRegImm, fAbsent⟩
  | .pprbTab .. => ⟨fRegS, fRegImm, fAbsent⟩
  | .pprbPing .. => ⟨fRegS, fRegImm, fAbsent⟩
  | .vadd .. => ⟨fRegS, fArrSc, fArrSc⟩
  | .vsub .. => ⟨fRegS, fArrSc, fArrSc⟩
  | .vmul .. => ⟨fRegS, fArrSc, fArrSc⟩
  | .vfma .. => ⟨fRegS, fArrSc, fArrSc⟩
  | .vmin .. => ⟨fRegS, fArrSc, fArrSc⟩
  | .vmax .. => ⟨fRegS, fArrSc, fArrSc⟩
  | .vexp .. => ⟨fRegS, fRegS, fAbsent⟩
  | .vlog .. => ⟨fRegS, fRegS, fAbsent⟩
  | .vrcp .. => ⟨fRegS, fRegS, fAbsent⟩
  | .vrsq .. => ⟨fRegS, fRegS, fAbsent⟩
  | .vsqrt .. => ⟨fRegS, fRegS, fAbsent⟩
  | .vcvt .. => ⟨fRegS, fRegS, fImm⟩
  | .vsum .. => ⟨fReg, fRegS, fAbsent⟩
  | .vrmax .. => ⟨fReg, fRegS, fAbsent⟩
  | .vdot .. => ⟨fReg, fRegS, fArrSc⟩
  | .vscan .. => ⟨fRegS, fRegS, fScAbs⟩
  | .vgat .. => ⟨fRegS, fRegS, fRegS⟩
  | .vsct .. => ⟨fRegS, fArrSc, fRegS⟩
  | .vsel .. => ⟨fRegS, fArrSc, fArrSc⟩
  | .vcmp .. => ⟨fPredC, fRegS, fArrSc⟩
  | .vfill .. => ⟨fRegS, fSc, fAbsent⟩
  | .vand .. => ⟨fRegS, fArrSc, fArrSc⟩
  | .vor .. => ⟨fRegS, fArrSc, fArrSc⟩
  | .vxor .. => ⟨fRegS, fArrSc, fArrSc⟩
  | .vshl .. => ⟨fRegS, fArrSc, fArrSc⟩
  | .vshr .. => ⟨fRegS, fArrSc, fArrSc⟩
  | .vsmx .. => ⟨fRegS, fRegS, fAbsent⟩
  | .vlnm .. => ⟨fRegS, fRegS, fSc⟩
  | .gpk .. => ⟨fRegS, fRegS, fImm⟩
  | .gupk .. => ⟨fRegS, fRegS, fImm⟩
  | .grq .. => ⟨fRegS, fRegS, fSc⟩
  | .gamx .. => ⟨fReg, fRegS, fAbsent⟩
  | .ghdr .. => ⟨fRegS, fRegS, fRegImm⟩
  | .gsetBe .. => ⟨fRegImm, fRegS, fRegImm⟩
  | .gsetZero .. => ⟨fAbsent, fRegS, fRegImm⟩
  | .gsetNan .. => ⟨fAbsent, fRegS, fRegImm⟩
  | .gchk .. => ⟨fReg, fRegS, fAbsent⟩
  | .gcvt .. => ⟨fRegS, fRegS, fImm⟩
  | .lse .. => ⟨fReg, fAbsent, fAbsent⟩
  | .lsr .. => ⟨fAbsent, fAbsent, fAbsent⟩
  | .mz .. => ⟨fRegImm, fAbsent, fAbsent⟩
  | .mmac .. => ⟨fRegImm, fRegS, fRegS⟩
  | .mld .. => ⟨fRegImm, fRegS, fAbsent⟩
  | .mst .. => ⟨fRegImm, fRegS, fAbsent⟩
  | .cpy .. => ⟨fRegS, fRegS, fRegImm⟩
  | .cpl .. => ⟨fRegS, fRegS, fRegImm⟩
  | .rcfAll .. => ⟨fAbsent, fAbsent, fAbsent⟩
  | .rcfOne .. => ⟨fAbsent, fRegS, fRegImm⟩
  | .cpstH .. => ⟨fRegS, fRegS, fAbsent⟩
  | .cpstN .. => ⟨fRegS, fAbsent, fAbsent⟩
  | .cpxH .. => ⟨fRegS, fRegS, fAbsent⟩
  | .cpxAll .. => ⟨fRegS, fAbsent, fAbsent⟩
  | .cpfFull .. => ⟨fRegS, fRegImm, fRegImm⟩
  | .cpfEmpty .. => ⟨fRegS, fRegImm, fRegImm⟩
  | .cpfMke .. => ⟨fRegS, fRegImm, fAbsent⟩
  | .cpfMkf .. => ⟨fRegS, fRegImm, fAbsent⟩
  | .bregNew .. => ⟨fRegS, fRegS, fRegImm⟩
  | .bregJoin .. => ⟨fRegS, fRegS, fRegImm⟩
  | .bdrg .. => ⟨fRegS, fRegImm, fAbsent⟩
  | .badd .. => ⟨fRegS, fRegS, fRegImm⟩
  | .brd .. => ⟨fRegS, fRegS, fRegImm⟩
  | .bqryRd .. => ⟨fReg, fRegS, fImm⟩
  | .bqryClr .. => ⟨fReg, fRegS, fImm⟩
  | .bgrpAdd .. => ⟨fRegS, fRegImm, fRegS⟩
  | .bgrpRm .. => ⟨fRegS, fRegImm, fRegS⟩
  | .bgrpDrop .. => ⟨fRegS, fRegImm, fRegS⟩
  | .bholdOn .. => ⟨fRegS, fRegImm, fAbsent⟩
  | .bholdOff .. => ⟨fRegS, fRegImm, fAbsent⟩
  | .bstep .. => ⟨fRegS, fRegS, fRegImm⟩
  | .sret .. => ⟨fAbsent, fRegS, fRegS⟩
  | .tlbi .. => ⟨fRegS, fRegImm, fRegS⟩
  | .tlbw .. => ⟨fRegS, fRegImm, fRegImm⟩
  | .cmapMap .. => ⟨fRegS, fRegImm, fRegS⟩
  | .cmapDead .. => ⟨fRegS, fRegImm, fAbsent⟩
  | .cmapRd .. => ⟨fRegS, fRegImm, fAbsent⟩
  | .wkxPage .. => ⟨fRegS, fRegS, fRegS⟩
  | .wkxThr .. => ⟨fRegS, fRegS, fRegS⟩
  | .wkxEnd .. => ⟨fRegS, fRegS, fRegS⟩
  | .cxf .. => ⟨fRegS, fRegS, fRegS⟩
  | .psw .. => ⟨fRegS, fRegImm, fAbsent⟩
  | .srd .. => ⟨fRegS, fRegImm, fRegImm⟩
  | .swr .. => ⟨fRegImm, fRegImm, fRegImm⟩
  | .evict .. => ⟨fRegS, fRegS, fRegS⟩
  | .prhUnb .. => ⟨fRegS, fRegS, fRegImm⟩
  | .prhEvc .. => ⟨fRegS, fRegS, fRegImm⟩
  | .prhHold .. => ⟨fRegS, fRegS, fRegImm⟩
  | .pgdFill .. => ⟨fAbsent, fRegImm, fRegS⟩
  | .pgdFail .. => ⟨fAbsent, fRegImm, fAbsent⟩
  | .haltCore .. => ⟨fRegS, fRegImm, fAbsent⟩
  | .haltRun .. => ⟨fRegS, fRegImm, fAbsent⟩
  | .haltPart .. => ⟨fRegS, fRegImm, fAbsent⟩
  | .haltPrun .. => ⟨fRegS, fRegImm, fAbsent⟩
  | .qmap .. => ⟨fRegS, fRegS, fAbsent⟩
  | .qunm .. => ⟨fRegS, fRegImm, fAbsent⟩
  | .qsw .. => ⟨fRegS, fRegImm, fRegS⟩
  | .qlch .. => ⟨fRegS, fRegS, fRegImm⟩
  | .qdlRd .. => ⟨fRegS, fRegImm, fAbsent⟩
  | .qdlAdd .. => ⟨fRegS, fRegImm, fRegImm⟩
  | .qdlStop .. => ⟨fRegS, fRegImm, fAbsent⟩
  | .qstSlot .. => ⟨fRegS, fRegImm, fAbsent⟩
  | .qstBell .. => ⟨fRegS, fRegImm, fAbsent⟩
  | .qstClr .. => ⟨fRegS, fRegImm, fAbsent⟩
  | .qstSkip .. => ⟨fRegS, fRegImm, fAbsent⟩
  | .qsigCtr .. => ⟨fRegS, fRegS, fRegImm⟩
  | .qsigIrq .. => ⟨fRegS, fRegImm, fAbsent⟩
  | .launch .. | .signal .. | .wait .. | .deadline .. | .mark .. | .queueFence .. => ⟨fAbsent, fAbsent, fAbsent⟩
  | .queueDispatch .. | .queueUnblock .. | .deadlineExpire .. | .doorbellWrite .. | .bar2Write .. | .bar2Read .. => ⟨fAbsent, fAbsent, fAbsent⟩
  | .mbell .. | .hostRegisterWrite .. | .fetchReady .. | .resultLand .. | .threadBind .. | .lineFillDone .. => ⟨fAbsent, fAbsent, fAbsent⟩
  | .quantumEnd .. | .groupAdmit .. | .doneAddRetry .. | .hopArrive .. | .wakeReceive .. | .inboxEnqueue .. => ⟨fAbsent, fAbsent, fAbsent⟩
  | .flitArrive .. | .homeRequestStart .. | .missFill .. | .waiterResend .. | .draughtAck .. | .ceilRecover .. => ⟨fAbsent, fAbsent, fAbsent⟩
  | .nakReceive .. | .streamNak .. | .flueArrive .. | .collectorDeliver .. | .heartbeat .. | .wakeArrive .. => ⟨fAbsent, fAbsent, fAbsent⟩
  | .linkFlitReceive .. | .linkRetryReceive .. | .laneFail .. | .linkSilenceDown .. | .peerPacketReceive .. | .portTimeout .. => ⟨fAbsent, fAbsent, fAbsent⟩
  | .remoteWaitTimeout .. | .streamStrip .. | .grainBlock .. | .streamCompletion .. | .leaseGrant .. | .leaseTermExpire .. => ⟨fAbsent, fAbsent, fAbsent⟩
  | .leaseIdleClose .. | .panStart .. | .panCommit .. | .panCompletion .. | .recordFill .. | .copyStart .. => ⟨fAbsent, fAbsent, fAbsent⟩
  | .copyElement .. | .copyHoldRetry .. | .copyFlag .. | .copyCompletion .. | .brineSweepStep .. | .brineHalfArrive .. => ⟨fAbsent, fAbsent, fAbsent⟩
  | .brineAnswer .. | .brineSlotTimeout .. | .brineRecallReceive .. | .brineRecallAnswer .. | .brineProposeReceive .. | .brineStateReceive .. => ⟨fAbsent, fAbsent, fAbsent⟩
  | .brineProposeResend .. | .brineHoldRetry .. | .tableBaseWrite .. | .mboxRead .. | .cmpartWrite .. | .ibxszWrite .. => ⟨fAbsent, fAbsent, fAbsent⟩
  | .rfpwrWrite .. | .klsWrite .. | .mrxWrite .. | .attsWrite .. | .attestDone | .deviceReset .. => ⟨fAbsent, fAbsent, fAbsent⟩
  | .clusterReady .. | .dramTrainDone .. | .dramTrainFail .. | .thermalFatal .. | .clockAdjust .. | .unitGate .. => ⟨fAbsent, fAbsent, fAbsent⟩
  | .i3cEntdaa .. | .i3cSetdasa .. | .i3cPrivateRead .. | .i3cPrivateWrite .. | .writeBack .. | .skippedTurn .. => ⟨fAbsent, fAbsent, fAbsent⟩
  | .bankWake .. | .segmentSetFill .. | .routerCycle .. | .linkTrain .. | .pcieCompletion .. => ⟨fAbsent, fAbsent, fAbsent⟩

/-- The types (and, for `sput`, the counts) each entry permits in FN (R109, R129, R158, R213, R234, R256, R280, R331 and
the entries). -/
def Instr.fnOk : Instr → Bool
  | .nop .. => true
  | .br .. => true
  | .jmp .. => true
  | .call .. => true
  | .callr .. => true
  | .loop .. => true
  | .cmp t _ => decide (t ∈ ([.i8, .i16, .i32, .i64, .n8, .n16, .n32, .n64, .f32, .f64, .x64] : List Ty))
  | .plogAnd .. => true
  | .plogOr .. => true
  | .plogXor .. => true
  | .plogAndn .. => true
  | .plogOrn .. => true
  | .plogXnor .. => true
  | .plogMov .. => true
  | .plogNot .. => true
  | .trap .. => true
  | .tretRetry .. => true
  | .tretNext .. => true
  | .brk .. => true
  | .spawn .. => true
  | .exit .. => true
  | .park .. => true
  | .wake .. => true
  | .yield .. => true
  | .hop .. => true
  | .cbar .. => true
  | .gbar .. => true
  | .ibx .. => true
  | .ibs .. => true
  | .ntc .. => true
  | .fork .. => true
  | .rdv .. => true
  | .cpinOn .. => true
  | .cpinOff .. => true
  | .drq .. => true
  | .jdr .. => true
  | .add t _ => decide (t ∈ ([.i8, .i16, .i32, .i64, .n8, .n16, .n32, .n64, .x64] : List Ty))
  | .sub t _ => decide (t ∈ ([.i8, .i16, .i32, .i64, .n8, .n16, .n32, .n64, .x64] : List Ty))
  | .mul t _ => decide (t ∈ ([.i8, .i16, .i32, .i64, .n8, .n16, .n32, .n64, .x64] : List Ty))
  | .mulh t _ => decide (t ∈ ([.i8, .i16, .i32, .i64, .n8, .n16, .n32, .n64, .x64] : List Ty))
  | .div t _ => decide (t ∈ ([.i8, .i16, .i32, .i64, .n8, .n16, .n32, .n64, .x64] : List Ty))
  | .rem t _ => decide (t ∈ ([.i8, .i16, .i32, .i64, .n8, .n16, .n32, .n64, .x64] : List Ty))
  | .and t _ => decide (t ∈ ([.i8, .i16, .i32, .i64, .n8, .n16, .n32, .n64, .x64] : List Ty))
  | .or t _ => decide (t ∈ ([.i8, .i16, .i32, .i64, .n8, .n16, .n32, .n64, .x64] : List Ty))
  | .xor t _ => decide (t ∈ ([.i8, .i16, .i32, .i64, .n8, .n16, .n32, .n64, .x64] : List Ty))
  | .andn t _ => decide (t ∈ ([.i8, .i16, .i32, .i64, .n8, .n16, .n32, .n64, .x64] : List Ty))
  | .min t _ => decide (t ∈ ([.i8, .i16, .i32, .i64, .n8, .n16, .n32, .n64, .x64] : List Ty))
  | .max t _ => decide (t ∈ ([.i8, .i16, .i32, .i64, .n8, .n16, .n32, .n64, .x64] : List Ty))
  | .shl t _ => decide (t ∈ ([.i8, .i16, .i32, .i64, .n8, .n16, .n32, .n64, .x64] : List Ty))
  | .shr t _ => decide (t ∈ ([.i8, .i16, .i32, .i64, .n8, .n16, .n32, .n64, .x64] : List Ty))
  | .sar t _ => decide (t ∈ ([.i8, .i16, .i32, .i64, .n8, .n16, .n32, .n64, .x64] : List Ty))
  | .rot t _ => decide (t ∈ ([.i8, .i16, .i32, .i64, .n8, .n16, .n32, .n64, .x64] : List Ty))
  | .clz t _ => decide (t ∈ ([.i8, .i16, .i32, .i64, .n8, .n16, .n32, .n64, .x64] : List Ty))
  | .ctz t _ => decide (t ∈ ([.i8, .i16, .i32, .i64, .n8, .n16, .n32, .n64, .x64] : List Ty))
  | .popc t _ => decide (t ∈ ([.i8, .i16, .i32, .i64, .n8, .n16, .n32, .n64, .x64] : List Ty))
  | .bswap t _ => decide (t ∈ ([.i16, .i32, .i64, .n16, .n32, .n64, .x64] : List Ty))
  | .bext t _ => decide (t ∈ ([.i64, .n64] : List Ty))
  | .bins t _ => decide (t ∈ ([.n64] : List Ty))
  | .cvi t _ => decide (t ∈ ([.i8, .i16, .i32, .i64, .n8, .n16, .n32, .n64, .x64] : List Ty))
  | .mov t _ => decide (t ∈ ([.i8, .i16, .i32, .i64, .n8, .n16, .n32, .n64, .x64] : List Ty))
  | .movl .. => true
  | .mvs .. => true
  | .msv .. => true
  | .leaAdd .. => true
  | .leaOff .. => true
  | .leaGva .. => true
  | .leaSeg .. => true
  | .mad t _ => decide (t ∈ ([.i8, .i16, .i32, .i64, .n8, .n16, .n32, .n64, .x64] : List Ty))
  | .fadd t _ => decide (t ∈ ([.f32, .f64] : List Ty))
  | .fsub t _ => decide (t ∈ ([.f32, .f64] : List Ty))
  | .fmul t _ => decide (t ∈ ([.f32, .f64] : List Ty))
  | .fma t _ => decide (t ∈ ([.f32, .f64] : List Ty))
  | .fdiv t _ => decide (t ∈ ([.f32, .f64] : List Ty))
  | .fsqrt t _ => decide (t ∈ ([.f32, .f64] : List Ty))
  | .fmin t _ => decide (t ∈ ([.f32, .f64] : List Ty))
  | .fmax t _ => decide (t ∈ ([.f32, .f64] : List Ty))
  | .fcvt t _ => decide (t ∈ ([.h16, .b16, .f32, .f64, .f8] : List Ty))
  | .fcvti t _ => decide (t ∈ ([.i8, .i16, .i32, .i64, .n8, .n16, .n32, .n64] : List Ty))
  | .icvtf t _ => decide (t ∈ ([.f32, .f64] : List Ty))
  | .frnd t _ => decide (t ∈ ([.f32, .f64] : List Ty))
  | .fcls t _ => decide (t ∈ ([.h16, .b16, .f32, .f64, .f8] : List Ty))
  | .ld t _ => decide (t ∈ ([.i8, .i16, .i32, .i64, .n8, .n16, .n32, .n64, .h16, .b16, .f32, .f64, .f8, .x64] : List Ty))
  | .st t _ => decide (t ∈ ([.i8, .i16, .i32, .i64, .n8, .n16, .n32, .n64, .h16, .b16, .f32, .f64, .f8, .x64] : List Ty))
  | .ldc .. => true
  | .stp .. => true
  | .lfe .. => true
  | .sfeEmpty .. => true
  | .sfeFull .. => true
  | .ldm .. => true
  | .stm .. => true
  | .pfch .. => true
  | .sgp .. => true
  | .pgq .. => true
  | .dsc .. => true
  | .amoAdd .. => true
  | .amoAnd .. => true
  | .amoOr .. => true
  | .amoXor .. => true
  | .amoMin .. => true
  | .amoMax .. => true
  | .amoNmin .. => true
  | .amoNmax .. => true
  | .amoSwap .. => true
  | .amoFadd32 .. => true
  | .amoFmax32 .. => true
  | .amoFadd64 .. => true
  | .cas .. => true
  | .lda .. => true
  | .stl .. => true
  | .fence .. => true
  | .wtwNe .. => true
  | .wtwGe .. => true
  | .sopn .. => true
  | .scls .. => true
  | .sput n _ => decide (n.toNat ≤ 6)
  | .drn .. => true
  | .pprbTab .. => true
  | .pprbPing .. => true
  | .vadd t _ => decide (t ∈ ([.i8, .i16, .i32, .n8, .n16, .n32, .h16, .b16, .f32] : List Ty))
  | .vsub t _ => decide (t ∈ ([.i8, .i16, .i32, .n8, .n16, .n32, .h16, .b16, .f32] : List Ty))
  | .vmul t _ => decide (t ∈ ([.i8, .i16, .i32, .n8, .n16, .n32, .h16, .b16, .f32] : List Ty))
  | .vfma t _ => decide (t ∈ ([.i8, .i16, .i32, .n8, .n16, .n32, .h16, .b16, .f32] : List Ty))
  | .vmin t _ => decide (t ∈ ([.i8, .i16, .i32, .n8, .n16, .n32, .h16, .b16, .f32] : List Ty))
  | .vmax t _ => decide (t ∈ ([.i8, .i16, .i32, .n8, .n16, .n32, .h16, .b16, .f32] : List Ty))
  | .vexp t _ => decide (t ∈ ([.h16, .b16, .f32] : List Ty))
  | .vlog t _ => decide (t ∈ ([.h16, .b16, .f32] : List Ty))
  | .vrcp t _ => decide (t ∈ ([.h16, .b16, .f32] : List Ty))
  | .vrsq t _ => decide (t ∈ ([.h16, .b16, .f32] : List Ty))
  | .vsqrt t _ => decide (t ∈ ([.h16, .b16, .f32] : List Ty))
  | .vcvt t _ => decide (t ∈ ([.i8, .i16, .i32, .n8, .n16, .n32, .h16, .b16, .f32, .f8] : List Ty))
  | .vsum t _ => decide (t ∈ ([.i8, .i16, .i32, .n8, .n16, .n32, .h16, .b16, .f32] : List Ty))
  | .vrmax t _ => decide (t ∈ ([.i8, .i16, .i32, .n8, .n16, .n32, .h16, .b16, .f32] : List Ty))
  | .vdot t _ => decide (t ∈ ([.i8, .i16, .i32, .n8, .n16, .n32, .h16, .b16, .f32] : List Ty))
  | .vscan t _ => decide (t ∈ ([.i8, .i16, .i32, .n8, .n16, .n32, .h16, .b16, .f32] : List Ty))
  | .vgat t _ => decide (t ∈ ([.i8, .i16, .i32, .n8, .n16, .n32, .h16, .b16, .f32, .f8] : List Ty))
  | .vsct t _ => decide (t ∈ ([.i8, .i16, .i32, .n8, .n16, .n32, .h16, .b16, .f32, .f8] : List Ty))
  | .vsel t _ => decide (t ∈ ([.i8, .i16, .i32, .n8, .n16, .n32, .h16, .b16, .f32, .f8] : List Ty))
  | .vcmp t _ => decide (t ∈ ([.i8, .i16, .i32, .n8, .n16, .n32, .h16, .b16, .f32] : List Ty))
  | .vfill t _ => decide (t ∈ ([.i8, .i16, .i32, .n8, .n16, .n32, .h16, .b16, .f32, .f8] : List Ty))
  | .vand t _ => decide (t ∈ ([.i8, .i16, .i32, .n8, .n16, .n32] : List Ty))
  | .vor t _ => decide (t ∈ ([.i8, .i16, .i32, .n8, .n16, .n32] : List Ty))
  | .vxor t _ => decide (t ∈ ([.i8, .i16, .i32, .n8, .n16, .n32] : List Ty))
  | .vshl t _ => decide (t ∈ ([.i8, .i16, .i32, .n8, .n16, .n32] : List Ty))
  | .vshr t _ => decide (t ∈ ([.i8, .i16, .i32, .n8, .n16, .n32] : List Ty))
  | .vsmx t _ => decide (t ∈ ([.h16, .b16, .f32] : List Ty))
  | .vlnm t _ => decide (t ∈ ([.h16, .b16, .f32] : List Ty))
  | .gpk t _ => decide (t ∈ ([.i8, .f8, .q4] : List Ty))
  | .gupk t _ => decide (t ∈ ([.h16, .b16, .f32] : List Ty))
  | .grq .. => true
  | .gamx .. => true
  | .ghdr .. => true
  | .gsetBe .. => true
  | .gsetZero .. => true
  | .gsetNan .. => true
  | .gchk .. => true
  | .gcvt t _ => decide (t ∈ ([.i8, .f8, .q4] : List Ty))
  | .lse .. => true
  | .lsr .. => true
  | .mz .. => true
  | .mmac t _ => decide (t ∈ ([.i8, .h16, .b16, .f8, .q4] : List Ty))
  | .mld .. => true
  | .mst t _ => decide (t ∈ ([.i32, .h16, .b16, .f32] : List Ty))
  | .cpy .. => true
  | .cpl .. => true
  | .rcfAll .. => true
  | .rcfOne .. => true
  | .cpstH .. => true
  | .cpstN .. => true
  | .cpxH .. => true
  | .cpxAll .. => true
  | .cpfFull .. => true
  | .cpfEmpty .. => true
  | .cpfMke .. => true
  | .cpfMkf .. => true
  | .bregNew .. => true
  | .bregJoin .. => true
  | .bdrg .. => true
  | .badd .. => true
  | .brd t _ => decide (t ∈ ([.b16, .f32, .f8] : List Ty))
  | .bqryRd .. => true
  | .bqryClr .. => true
  | .bgrpAdd .. => true
  | .bgrpRm .. => true
  | .bgrpDrop .. => true
  | .bholdOn .. => true
  | .bholdOff .. => true
  | .bstep .. => true
  | .sret .. => true
  | .tlbi .. => true
  | .tlbw .. => true
  | .cmapMap .. => true
  | .cmapDead .. => true
  | .cmapRd .. => true
  | .wkxPage .. => true
  | .wkxThr .. => true
  | .wkxEnd .. => true
  | .cxf .. => true
  | .psw .. => true
  | .srd .. => true
  | .swr .. => true
  | .evict .. => true
  | .prhUnb .. => true
  | .prhEvc .. => true
  | .prhHold .. => true
  | .pgdFill .. => true
  | .pgdFail .. => true
  | .haltCore .. => true
  | .haltRun .. => true
  | .haltPart .. => true
  | .haltPrun .. => true
  | .qmap .. => true
  | .qunm .. => true
  | .qsw .. => true
  | .qlch .. => true
  | .qdlRd .. => true
  | .qdlAdd .. => true
  | .qdlStop .. => true
  | .qstSlot .. => true
  | .qstBell .. => true
  | .qstClr .. => true
  | .qstSkip .. => true
  | .qsigCtr .. => true
  | .qsigIrq .. => true
  | .launch .. | .signal .. | .wait .. | .deadline .. | .mark .. | .queueFence .. => true
  | .queueDispatch .. | .queueUnblock .. | .deadlineExpire .. | .doorbellWrite .. | .bar2Write .. | .bar2Read .. => true
  | .mbell .. | .hostRegisterWrite .. | .fetchReady .. | .resultLand .. | .threadBind .. | .lineFillDone .. => true
  | .quantumEnd .. | .groupAdmit .. | .doneAddRetry .. | .hopArrive .. | .wakeReceive .. | .inboxEnqueue .. => true
  | .flitArrive .. | .homeRequestStart .. | .missFill .. | .waiterResend .. | .draughtAck .. | .ceilRecover .. => true
  | .nakReceive .. | .streamNak .. | .flueArrive .. | .collectorDeliver .. | .heartbeat .. | .wakeArrive .. => true
  | .linkFlitReceive .. | .linkRetryReceive .. | .laneFail .. | .linkSilenceDown .. | .peerPacketReceive .. | .portTimeout .. => true
  | .remoteWaitTimeout .. | .streamStrip .. | .grainBlock .. | .streamCompletion .. | .leaseGrant .. | .leaseTermExpire .. => true
  | .leaseIdleClose .. | .panStart .. | .panCommit .. | .panCompletion .. | .recordFill .. | .copyStart .. => true
  | .copyElement .. | .copyHoldRetry .. | .copyFlag .. | .copyCompletion .. | .brineSweepStep .. | .brineHalfArrive .. => true
  | .brineAnswer .. | .brineSlotTimeout .. | .brineRecallReceive .. | .brineRecallAnswer .. | .brineProposeReceive .. | .brineStateReceive .. => true
  | .brineProposeResend .. | .brineHoldRetry .. | .tableBaseWrite .. | .mboxRead .. | .cmpartWrite .. | .ibxszWrite .. => true
  | .rfpwrWrite .. | .klsWrite .. | .mrxWrite .. | .attsWrite .. | .attestDone | .deviceReset .. => true
  | .clusterReady .. | .dramTrainDone .. | .dramTrainFail .. | .thermalFatal .. | .clockAdjust .. | .unitGate .. => true
  | .i3cEntdaa .. | .i3cSetdasa .. | .i3cPrivateRead .. | .i3cPrivateWrite .. | .writeBack .. | .skippedTurn .. => true
  | .bankWake .. | .segmentSetFill .. | .routerCycle .. | .linkTrain .. | .pcieCompletion .. => true

/-- Every special register has an index of R32. -/
def specAssigned (i : BitVec 8) : Bool := decide (i.toNat ≤ 0x11)

/-- The special registers an `msv` may name at some level (R120). -/
def specWritable (i : BitVec 8) : Bool :=
  decide (i.toNat ∈ ([0x00, 0x09, 0x0A, 0x0B, 0x0C, 0x0D, 0x0E] : List Nat))

/-- The system-register indices of R361 and R415-R424. -/
def sysRegAssigned (n : Nat) : Bool :=
  decide (n ≤ 4) || n == 0x10 || n == 0x11 || decide (0x20 ≤ n ∧ n ≤ 0x23) || decide (0x40 ≤ n ∧ n ≤ 0x42)
    || decide (0x80 ≤ n ∧ n ≤ 0x8F) || decide (0xC0 ≤ n ∧ n ≤ 0xCC) || decide (0xD0 ≤ n ∧ n ≤ 0xEB)
    || decide (0xF0 ≤ n ∧ n ≤ 0xF3)

/-- The system registers that are not read only (R361, R415, R421-R424). -/
def sysRegWritable (n : Nat) : Bool :=
  sysRegAssigned n && !(n == 4 || n == 0x10 || n == 0x11 || n == 0x21 || decide (0xC0 ≤ n ∧ n ≤ 0xDF)
    || decide (0xE2 ≤ n ∧ n ≤ 0xEB) || decide (0xF1 ≤ n ∧ n ≤ 0xF3))

/-- An imm21 that lies between two bounds, as a signed number; operands that are no immediate pass. -/
def Opnd.immIn (lo hi : Int) : Opnd → Bool
  | .imm v => decide (lo ≤ v.toInt ∧ v.toInt ≤ hi)
  | _ => true

/-- An imm21 none of whose bits lies outside a mask. -/
def Opnd.immMask (mask : BitVec 21) : Opnd → Bool
  | .imm v => v &&& ~~~mask == 0#21
  | _ => true

/-- A register number that is at most `hi`; operands that are no register pass. -/
def Opnd.regLe (hi : Nat) : Opnd → Bool
  | .reg r _ _ _ => decide (r.toNat ≤ hi)
  | _ => true

/-- An immediate that is one of the given type codes, and nothing else. -/
def Opnd.immTy (l : List Ty) : Opnd → Bool
  | .imm v => match Ty.ofCode v.toNat with
    | some t => decide (t ∈ l)
    | none => false
  | _ => true

/-- The limits of R282 on a control word, as an immediate or a register value gives it: reserved bits clear, KB and Z only
where the instruction has a meaning for them, ACC in its range. -/
def ctlOk (needKb useZ anyAcc : Bool) (v : BitVec 64) : Bool :=
  v.extractLsb' 32 32 == 0#32 && v.extractLsb' 18 2 == 0#2
    && (if needKb then v.extractLsb' 8 10 != 0#10 else v.extractLsb' 8 10 == 0#10)
    && (useZ || v.extractLsb' 7 1 == 0#1)
    && (if anyAcc then v.extractLsb' 0 4 != 0#4 else v.extractLsb' 2 2 == 0#2)

/-- `ctlOk` of an immediate. -/
def Opnd.immCtl (needKb useZ anyAcc : Bool) : Opnd → Bool
  | .imm v => ctlOk needKb useZ anyAcc (v.signExtend 64)
  | _ => true

/-- The first operand field whose check fails. -/
def firstBad (a b c : Bool) : Option Fld :=
  if a then (if b then (if c then none else some .c) else some .b) else some .a

/-- The source types of `fcvt`, `fcvti` and `fcls` (R134, R135). -/
def floatTys : List Ty := [.h16, .b16, .f32, .f64, .f8]

/-- The integer types without x64 (R136). -/
def intTys : List Ty := [.i8, .i16, .i32, .i64, .n8, .n16, .n32, .n64]

/-- The element types of `vcvt` (R234). -/
def streamTys : List Ty := [.i8, .i16, .i32, .n8, .n16, .n32, .h16, .b16, .f32, .f8]

/-- The operand field that exceeds an encoding limit of the entry (R37 row 13), if one does. -/
def Instr.limit : Instr → Option Fld
  | .nop .. => none
  | .br .. => none
  | .jmp .. => none
  | .call .. => none
  | .callr .. => none
  | .loop .. => none
  | .cmp .. => none
  | .plogAnd .. => none
  | .plogOr .. => none
  | .plogXor .. => none
  | .plogAndn .. => none
  | .plogOrn .. => none
  | .plogXnor .. => none
  | .plogMov .. => none
  | .plogNot .. => none
  | .trap .. => none
  | .tretRetry .. => none
  | .tretNext .. => none
  | .brk .. => none
  | .spawn .. => none
  | .exit .. => none
  | .park .. => none
  | .wake .. => none
  | .yield .. => none
  | .hop .. => none
  | .cbar .. => none
  | .gbar .. => none
  | .ibx x => firstBad (x.a.regLe 12) true true
  | .ibs x => firstBad true true (x.c.regLe 12)
  | .ntc .. => none
  | .fork x => firstBad true (x.b.immIn 1 255) true
  | .rdv .. => none
  | .cpinOn .. => none
  | .cpinOff .. => none
  | .drq .. => none
  | .jdr .. => none
  | .add .. => none
  | .sub .. => none
  | .mul .. => none
  | .mulh .. => none
  | .div .. => none
  | .rem .. => none
  | .and .. => none
  | .or .. => none
  | .xor .. => none
  | .andn .. => none
  | .min .. => none
  | .max .. => none
  | .shl .. => none
  | .shr .. => none
  | .sar .. => none
  | .rot .. => none
  | .clz .. => none
  | .ctz .. => none
  | .popc .. => none
  | .bswap .. => none
  | .bext .. => none
  | .bins .. => none
  | .cvi _ x => firstBad true true (x.c.immTy (.x64 :: intTys))
  | .mov .. => none
  | .movl .. => none
  | .mvs .. => none
  | .msv x => firstBad (match x.a with | .spec i => specWritable i | _ => true) true true
  | .leaAdd .. => none
  | .leaOff .. => none
  | .leaGva .. => none
  | .leaSeg .. => none
  | .mad .. => none
  | .fadd .. => none
  | .fsub .. => none
  | .fmul .. => none
  | .fma .. => none
  | .fdiv .. => none
  | .fsqrt .. => none
  | .fmin .. => none
  | .fmax .. => none
  | .fcvt t x => firstBad true true (x.c.immTy (floatTys.erase t))
  | .fcvti _ x => firstBad true true (match x.c with | .imm v => Opnd.immTy floatTys (.imm (v &&& ~~~(0x10#21))) | _ => true)
  | .icvtf _ x => firstBad true true (x.c.immTy intTys)
  | .frnd _ x => firstBad true true (match x.c with | .imm v => v &&& ~~~(0xF#21) == 0#21 && decide ((v &&& 7#21).toNat ≤ 4) | _ => true)
  | .fcls .. => none
  | .ld .. => none
  | .st t x => firstBad (match x.a with | .imm _ => decide (t ∈ (Ty.x64 :: intTys)) | _ => true) true true
  | .ldc .. => none
  | .stp .. => none
  | .lfe .. => none
  | .sfeEmpty .. => none
  | .sfeFull .. => none
  | .ldm n x => firstBad (x.a.regLe (15 - n.toNat)) true true
  | .stm n x => firstBad (x.a.regLe (15 - n.toNat)) true true
  | .pfch .. => none
  | .sgp x => firstBad (x.a.regLe 14) (x.b.immIn 0 7) true
  | .pgq .. => none
  | .dsc .. => none
  | .amoAdd .. => none
  | .amoAnd .. => none
  | .amoOr .. => none
  | .amoXor .. => none
  | .amoMin .. => none
  | .amoMax .. => none
  | .amoNmin .. => none
  | .amoNmax .. => none
  | .amoSwap .. => none
  | .amoFadd32 .. => none
  | .amoFmax32 .. => none
  | .amoFadd64 .. => none
  | .cas _ x => firstBad (x.a.regLe 14) true true
  | .lda .. => none
  | .stl .. => none
  | .fence _ x => firstBad (x.a.immMask 0x1F#21) true true
  | .wtwNe .. => none
  | .wtwGe .. => none
  | .sopn .. => none
  | .scls .. => none
  | .sput n x => firstBad (x.a.regLe (15 - n.toNat)) true true
  | .drn .. => none
  | .pprbTab .. => none
  | .pprbPing .. => none
  | .vadd .. => none
  | .vsub .. => none
  | .vmul .. => none
  | .vfma .. => none
  | .vmin .. => none
  | .vmax .. => none
  | .vexp .. => none
  | .vlog .. => none
  | .vrcp .. => none
  | .vrsq .. => none
  | .vsqrt .. => none
  | .vcvt t x => firstBad true true (x.c.immTy (streamTys.erase t))
  | .vsum .. => none
  | .vrmax .. => none
  | .vdot .. => none
  | .vscan .. => none
  | .vgat .. => none
  | .vsct .. => none
  | .vsel .. => none
  | .vcmp .. => none
  | .vfill .. => none
  | .vand .. => none
  | .vor .. => none
  | .vxor .. => none
  | .vshl .. => none
  | .vshr .. => none
  | .vsmx .. => none
  | .vlnm .. => none
  | .gpk _ x => firstBad true true (x.c.immTy [.h16, .b16, .f32])
  | .gupk _ x => firstBad true true (x.c.immTy [.f8, .i8, .q4])
  | .grq x => firstBad true true (x.c.immIn 1 254)
  | .gamx .. => none
  | .ghdr .. => none
  | .gsetBe x => firstBad (x.a.immIn 1 254) true true
  | .gsetZero .. => none
  | .gsetNan .. => none
  | .gchk .. => none
  | .gcvt _ x => firstBad true true (x.c.immTy [.f8, .i8, .q4])
  | .lse .. => none
  | .lsr .. => none
  | .mz x => firstBad (x.a.immCtl false false true) true true
  | .mmac _ x => firstBad (x.a.immCtl true true false) true true
  | .mld x => firstBad (x.a.immCtl false false false) true true
  | .mst _ x => firstBad (x.a.immCtl false false false) true true
  | .cpy .. => none
  | .cpl x => firstBad true true (x.c.immIn 0 1048575)
  | .rcfAll .. => none
  | .rcfOne .. => none
  | .cpstH .. => none
  | .cpstN .. => none
  | .cpxH .. => none
  | .cpxAll .. => none
  | .cpfFull x => firstBad true (x.b.immIn 0 1048575 && (match x.b with | .imm v => v.extractLsb' 0 3 == 0#3 | _ => true)) true
  | .cpfEmpty x => firstBad true (x.b.immIn 0 1048575 && (match x.b with | .imm v => v.extractLsb' 0 3 == 0#3 | _ => true)) true
  | .cpfMke x => firstBad true (x.b.immIn 0 1048575 && (match x.b with | .imm v => v.extractLsb' 0 3 == 0#3 | _ => true)) true
  | .cpfMkf x => firstBad true (x.b.immIn 0 1048575 && (match x.b with | .imm v => v.extractLsb' 0 3 == 0#3 | _ => true)) true
  | .bregNew .. => none
  | .bregJoin .. => none
  | .bdrg x => firstBad true (x.b.immIn 0 63) true
  | .badd .. => none
  | .brd _ x => firstBad true true (x.c.immIn 0 1048575)
  | .bqryRd x => firstBad (x.a.regLe 14) true (x.c.immIn 0 9)
  | .bqryClr x => firstBad (x.a.regLe 14) true (x.c.immIn 0 9)
  | .bgrpAdd x => firstBad true (x.b.immIn 0 63) true
  | .bgrpRm x => firstBad true (x.b.immIn 0 63) true
  | .bgrpDrop x => firstBad true (x.b.immIn 0 63) true
  | .bholdOn x => firstBad true (x.b.immIn 0 63) true
  | .bholdOff x => firstBad true (x.b.immIn 0 63) true
  | .bstep x => firstBad true true (x.c.immIn 0 63)
  | .sret .. => none
  | .tlbi _ x => firstBad true (x.b.immIn 0 511) true
  | .tlbw _ x => firstBad true (x.b.immIn 0 511) (x.c.immIn 0 1048575)
  | .cmapMap x => firstBad true (x.b.immIn 0 2047) true
  | .cmapDead x => firstBad true (x.b.immIn 0 2047) true
  | .cmapRd x => firstBad true (x.b.immIn 0 2047) true
  | .wkxPage .. => none
  | .wkxThr .. => none
  | .wkxEnd .. => none
  | .cxf .. => none
  | .psw x => firstBad true (x.b.immIn 0 7) true
  | .srd x => firstBad true (x.b.immIn 0 2047) (match x.c with | .imm v => sysRegAssigned v.toNat | _ => true)
  | .swr x => firstBad true (x.b.immIn 0 2047) (match x.c with | .imm v => sysRegWritable v.toNat | _ => true)
  | .evict .. => none
  | .prhUnb x => firstBad true true (x.c.immIn 0 6)
  | .prhEvc x => firstBad true true (x.c.immIn 0 6)
  | .prhHold x => firstBad true true (x.c.immIn 0 6)
  | .pgdFill x => firstBad true (x.b.immMask 0x10F#21) true
  | .pgdFail x => firstBad true (x.b.immMask 0xF#21) true
  | .haltCore x => firstBad true (x.b.immIn 0 2047) true
  | .haltRun x => firstBad true (x.b.immIn 0 2047) true
  | .haltPart x => firstBad true (x.b.immIn 0 7) true
  | .haltPrun x => firstBad true (x.b.immIn 0 7) true
  | .qmap .. => none
  | .qunm x => firstBad true (x.b.immIn 0 63) true
  | .qsw x => firstBad true (x.b.immIn 0 63) true
  | .qlch x => firstBad (x.a.regLe 14) true true
  | .qdlRd x => firstBad true (x.b.immIn 0 63) true
  | .qdlAdd x => firstBad true (x.b.immIn 0 63) true
  | .qdlStop x => firstBad true (x.b.immIn 0 63) true
  | .qstSlot x => firstBad true (x.b.immIn 0 63) true
  | .qstBell x => firstBad true (x.b.immIn 0 4095) true
  | .qstClr x => firstBad true (x.b.immIn 0 63) true
  | .qstSkip x => firstBad true (x.b.immIn 0 63) true
  | .qsigCtr .. => none
  | .qsigIrq x => firstBad true (x.b.immIn 0 2047) true
  | .launch .. | .signal .. | .wait .. | .deadline .. | .mark .. | .queueFence .. => none
  | .queueDispatch .. | .queueUnblock .. | .deadlineExpire .. | .doorbellWrite .. | .bar2Write .. | .bar2Read .. => none
  | .mbell .. | .hostRegisterWrite .. | .fetchReady .. | .resultLand .. | .threadBind .. | .lineFillDone .. => none
  | .quantumEnd .. | .groupAdmit .. | .doneAddRetry .. | .hopArrive .. | .wakeReceive .. | .inboxEnqueue .. => none
  | .flitArrive .. | .homeRequestStart .. | .missFill .. | .waiterResend .. | .draughtAck .. | .ceilRecover .. => none
  | .nakReceive .. | .streamNak .. | .flueArrive .. | .collectorDeliver .. | .heartbeat .. | .wakeArrive .. => none
  | .linkFlitReceive .. | .linkRetryReceive .. | .laneFail .. | .linkSilenceDown .. | .peerPacketReceive .. | .portTimeout .. => none
  | .remoteWaitTimeout .. | .streamStrip .. | .grainBlock .. | .streamCompletion .. | .leaseGrant .. | .leaseTermExpire .. => none
  | .leaseIdleClose .. | .panStart .. | .panCommit .. | .panCompletion .. | .recordFill .. | .copyStart .. => none
  | .copyElement .. | .copyHoldRetry .. | .copyFlag .. | .copyCompletion .. | .brineSweepStep .. | .brineHalfArrive .. => none
  | .brineAnswer .. | .brineSlotTimeout .. | .brineRecallReceive .. | .brineRecallAnswer .. | .brineProposeReceive .. | .brineStateReceive .. => none
  | .brineProposeResend .. | .brineHoldRetry .. | .tableBaseWrite .. | .mboxRead .. | .cmpartWrite .. | .ibxszWrite .. => none
  | .rfpwrWrite .. | .klsWrite .. | .mrxWrite .. | .attsWrite .. | .attestDone | .deviceReset .. => none
  | .clusterReady .. | .dramTrainDone .. | .dramTrainFail .. | .thermalFatal .. | .clockAdjust .. | .unitGate .. => none
  | .i3cEntdaa .. | .i3cSetdasa .. | .i3cPrivateRead .. | .i3cPrivateWrite .. | .writeBack .. | .skippedTurn .. => none
  | .bankWake .. | .segmentSetFill .. | .routerCycle .. | .linkTrain .. | .pcieCompletion .. => none

/-- The majors that are not reserved (R36). 0x00, whose cell reads (illegal), counts as reserved: a word of it that is not
all zero gets WHY 2 (DESIGN CHOICE, log 65). -/
def opAssigned (op : Nat) : Bool :=
  decide (0x01 ≤ op ∧ op ≤ 0x0B) || decide (0x10 ≤ op ∧ op ≤ 0x3C) || decide (0x40 ≤ op ∧ op ≤ 0x4C)
    || decide (0x50 ≤ op ∧ op ≤ 0x5B) || decide (0x60 ≤ op ∧ op ≤ 0x65) || decide (0x70 ≤ op ∧ op ≤ 0x74)
    || decide (0x80 ≤ op ∧ op ≤ 0x9B) || decide (0xA0 ≤ op ∧ op ≤ 0xA7) || decide (0xB0 ≤ op ∧ op ≤ 0xB5)
    || decide (0xC0 ≤ op ∧ op ≤ 0xC5) || decide (0xC8 ≤ op ∧ op ≤ 0xCF) || decide (0xE0 ≤ op ∧ op ≤ 0xEC)
    || decide (0xF0 ≤ op ∧ op ≤ 0xF6)

/-- The majors that only level H may execute (R36). -/
def opHOnly (op : Nat) : Bool := decide (0xE0 ≤ op ∧ op ≤ 0xEC) || decide (0xF0 ≤ op ∧ op ≤ 0xF6)

/-- The majors whose CP may be other than 00 (R27). -/
def opCpOk (op : Nat) : Bool := decide (0x50 ≤ op ∧ op ≤ 0x6F) || decide (0x80 ≤ op ∧ op ≤ 0xC7)

end Sys2Proof
end

