-- ==== Sys2Proof/Machine/Ops.lean ====
section
/-! DEFINITION. The named operations over the state: accessors, places of the machine (R8-R12), threads and the run
queue (R81-R83), flue flits (R199, R347), dropped threads (R346), taking a user trap and escalating it (R57, R58, R352),
returning from one (R69), and how an instruction ends. -/

namespace Sys2Proof.Machine

open Config

/-! ### Accessors -/

/-- The state of a logical core. -/
def State.core (s : State) (n : Nat) : CoreSt := (look n s.cores).getD {}

/-- Changes the state of a logical core. -/
def State.setCore (n : Nat) (f : CoreSt → CoreSt) (s : State) : State := { s with cores := put n (f (s.core n)) s.cores }

/-- The state of a cluster. -/
def State.cluster (s : State) (n : Nat) : ClusterSt := (look n s.clusters).getD {}

/-- Changes the state of a cluster. -/
def State.setCluster (n : Nat) (f : ClusterSt → ClusterSt) (s : State) : State :=
  { s with clusters := put n (f (s.cluster n)) s.clusters }

/-- A command reaches an engine of a cluster, which wakes when its clock is gated (R425). -/
def State.ungate (cluster unit : Nat) (s : State) : State :=
  s.setCluster cluster fun c => { c with gated := c.gated.filter (· ≠ unit) }

/-- The state of a die. -/
def State.die (s : State) (n : Nat) : DieSt := (look n s.dies).getD {}

/-- Changes the state of a die. -/
def State.setDie (n : Nat) (f : DieSt → DieSt) (s : State) : State := { s with dies := put n (f (s.die n)) s.dies }

/-- The state of a scale-up port. -/
def State.port (s : State) (n : Nat) : Port := (look n s.ports).getD {}

/-- Changes the state of a scale-up port. -/
def State.setPort (n : Nat) (f : Port → Port) (s : State) : State := { s with ports := put n (f (s.port n)) s.ports }

/-- Changes the thread in the issue stage. -/
def State.mapThr (f : Thread → Thread) (s : State) : State := { s with thr := f s.thr }

/-- Changes the context of the thread in the issue stage. -/
def State.mapCtx (f : Ctx → Ctx) (s : State) : State := { s with thr := { s.thr with ctx := f s.thr.ctx } }

/-- Changes the resume state of the thread in the issue stage. -/
def State.mapRes (f : Resume → Resume) (s : State) : State := { s with thr := { s.thr with res := f s.thr.res } }

/-- A fresh name: for what is in flight, for the order of waiting, and for free values. -/
def State.fresh (s : State) : Nat × State := (s.serial, { s with serial := s.serial + 1 })

/-! ### Registers of the thread in the issue stage -/

/-- A scalar register. -/
def Regs.get (v : Vector Word 16) (r : BitVec 4) : Word := v[r.toNat]'r.isLt

/-- Writes a scalar register. -/
def Regs.set (v : Vector Word 16) (r : BitVec 4) (x : Word) : Vector Word 16 := v.set r.toNat x r.isLt

/-- X[r]. -/
def State.x (s : State) (r : BitVec 4) : Word := Regs.get s.thr.ctx.x r

/-- FE[r] is full. -/
def State.full (s : State) (r : BitVec 4) : Bool := s.thr.ctx.fe.getLsbD r.toNat

/-- P[p]; p0 reads 1 (R54). -/
def State.p (s : State) (p : BitVec 3) : Bool := p == 0#3 || s.thr.ctx.pred.getLsbD p.toNat

/-- PC. -/
def State.pc (s : State) : Word := s.thr.ctx.pc

/-- ST. -/
def State.st (s : State) : Word := s.thr.ctx.st

/-- The register with FE set full. -/
def Ctx.fill (r : BitVec 4) (c : Ctx) : Ctx := { c with fe := c.fe ||| BitVec.ofNat 16 (2 ^ r.toNat) }

/-- The register with FE set empty. -/
def Ctx.drain (r : BitVec 4) (c : Ctx) : Ctx := { c with fe := c.fe &&& ~~~BitVec.ofNat 16 (2 ^ r.toNat) }

/-- X[r] := v; FE[r] := full. -/
def Ctx.writeX (r : BitVec 4) (v : Word) (c : Ctx) : Ctx := { (c.fill r) with x := Regs.set c.x r v }

/-- P[p] := v; a write to p0 is discarded (R31, R54). -/
def Ctx.writeP (p : BitVec 3) (v : Bool) (c : Ctx) : Ctx :=
  if p = 0#3 then c
  else { c with pred := if v then c.pred ||| BitVec.ofNat 8 (2 ^ p.toNat) else c.pred &&& ~~~BitVec.ofNat 8 (2 ^ p.toNat) }

/-- X[r] := v; FE[r] := full, in the thread that issues. -/
def State.writeX (r : BitVec 4) (v : Word) (s : State) : State := s.mapCtx (Ctx.writeX r v)

/-- P[p] := v, in the thread that issues. -/
def State.writeP (p : BitVec 3) (v : Bool) (s : State) : State := s.mapCtx (Ctx.writeP p v)

/-- Sets PC. -/
def State.setPc (v : Word) (s : State) : State := s.mapCtx fun c => { c with pc := v }

/-- Sets ST. -/
def State.setSt (v : Word) (s : State) : State := s.mapCtx fun c => { c with st := v }

/-- The fields of SLEN; its reserved bits read zero (R5, R223). -/
def slenMask : Word := 0xFFFFFFFF07FFFFFF#64

/-- The fields of SSTR; its reserved bits read zero (R5, R224). -/
def sstrMask : Word := 0x0000FFFFFFFFFFFF#64

/-- The fields of ST; its reserved bits read zero (R5, R53). -/
def stMask : Word := 0x0000FFFFFFFF07FF#64

/-- Bits of ST. -/
def State.stBits (s : State) (lo n : Nat) : Nat := bits s.st.toNat lo n

/-- ST.PRIV = H (R53). -/
def State.levelH (s : State) : Bool := s.stBits 0 2 == 3

/-- ST.TASK. -/
def State.task (s : State) : BitVec 16 := s.st.extractLsb' 16 16

/-- ST.TRIN. -/
def State.trin (s : State) : Bool := s.st.getLsbD 10

/-- ST.CHK. -/
def State.chk (s : State) : Bool := s.st.getLsbD 9

/-- ST.GRP. -/
def State.grp (s : State) : BitVec 16 := s.st.extractLsb' 32 16

/-- Sets flags of ST: bit 0 NX, 1 UF, 2 OF, 3 DZ, 4 NV; they are sticky (R53). -/
def State.orFlags (f : BitVec 5) (s : State) : State := s.setSt (s.st ||| (f.setWidth 64 <<< 4))

/-! ### Places (R8-R12) -/

/-- An entry of the core map: STATE, x, y (R11, R367). -/
def State.mapEntry (s : State) (n : Nat) : MapState × Nat × Nat := (look n s.coreMap).getD (.live, n % 64, n / 64)

/-- The die of a position. -/
def posDie (x y : Nat) : Nat := 2 * (y / 16) + x / 32

/-- The cluster of a position. -/
def posCluster (x y : Nat) : Nat := 32 * (y / 2) + x / 2

/-- The band of a position. -/
def posBand (x y : Nat) : Nat := 2 * (y / 2) + x / 32

/-- The die of a band. -/
def bandDie (b : Nat) : Nat := 2 * (b / 16) + b % 2

/-- The cluster a logical core had at boot. -/
def bootCluster (n : Nat) : Nat := posCluster (n % 64) (n / 64)

/-- The die a logical core had at boot. -/
def bootDie (n : Nat) : Nat := posDie (n % 64) (n / 64)

/-- The position of a logical core. -/
def State.pos (s : State) (n : Nat) : Nat × Nat := (s.mapEntry n).2

/-- The die of a logical core (R10). -/
def State.coreDie (s : State) (n : Nat) : Nat := posDie (s.pos n).1 (s.pos n).2

/-- The cluster of a logical core (R10, R11). -/
def State.coreCluster (s : State) (n : Nat) : Nat := posCluster (s.pos n).1 (s.pos n).2

/-- The band of a logical core. -/
def State.coreBand (s : State) (n : Nat) : Nat := posBand (s.pos n).1 (s.pos n).2

/-- The hearth core of a die (R12). -/
def hearthOf (d : Nat) : Nat := 32 * (d % 2) + 1024 * (d / 2)

/-- The core is a hearth core (R12). -/
def isHearth (n : Nat) : Bool := hearthCores.contains n

/-- The logical number is a spare's (R12). -/
def isSpare (n : Nat) : Bool := spares.contains n

/-- The core is live in the core map, on a die that is not fatal (R193, R418). -/
def State.live (s : State) (n : Nat) : Bool :=
  (s.mapEntry n).1 == .live && !s.dieFatal (posDie (s.mapEntry n).2.1 (s.mapEntry n).2.2)

/-- The members of a cluster: the logical cores the map places there (R11), in ascending order; `near` are the logical
cores whose place may have changed. -/
def State.clusterCores (s : State) (k : Nat) : List Nat :=
  let boot := [2 * (k % 32) + 64 * (2 * (k / 32)), 2 * (k % 32) + 1 + 64 * (2 * (k / 32)),
    2 * (k % 32) + 64 * (2 * (k / 32) + 1), 2 * (k % 32) + 1 + 64 * (2 * (k / 32) + 1)]
  let all := (s.coreMap.map (·.1)).foldl (fun l n => insertNat n l) boot
  all.filter fun n => s.live n && s.coreCluster n == k

/-- The cores of a cluster that run user work: members that are neither hearth cores nor spares' numbers (R12). -/
def State.workCores (s : State) (k : Nat) : List Nat := (s.clusterCores k).filter fun n => !isHearth n && !isSpare n

/-- The count of the die a core runs on (R20). -/
def State.now (s : State) (n : Nat) : Word := (s.die (s.coreDie n)).cyc

/-- A core holds the lease and its term is open (R269): neither closed nor 65,536 cycles old. -/
def Lease.isOpen (l : Lease) (n : Nat) (now : Word) : Bool :=
  decide (l.holder = some n) && l.opened && decide ((now - l.start).toNat < 65536)

/-- A core's term is open (R269, R270). -/
def State.termOpen (s : State) (n : Nat) : Bool := (s.cluster (s.coreCluster n)).lease.isOpen n (s.now n)

/-- Commands that a core's pan queue and its term still take (R269, R273). -/
def State.panRoom (s : State) (n : Nat) : Nat :=
  if s.termOpen n then
    min (16 - (s.core n).panQ.countP fun q => q.st != .committed) (256 - (s.cluster (s.coreCluster n)).lease.cmds)
  else 0

/-- A pan command is admitted: it joins its core's queue and counts against the term, which its 256th closes (R269, R273). -/
def State.admitPan (q : PanCmd) (s : State) : State :=
  let k := s.coreCluster q.core
  let now := s.now q.core
  ((s.setCore q.core fun c => { c with panQ := c.panQ ++ [q] }).ungate k 0).setCluster k fun c =>
    { c with lease := { c.lease with cmds := c.lease.cmds + 1, opened := decide (c.lease.cmds + 1 < 256), active := now } }

/-- The cluster of the core the thread runs on. -/
def State.myCluster (s : State) : Nat := s.coreCluster s.thr.core

/-! ### Threads -/

/-- The thread is the one named. -/
def Thread.isAt (core : Nat) (cxa : Word) (t : Thread) : Bool :=
  t.core == core && t.ctx.cxa == cxa && decide (t.wait ≠ .ended)

/-- Every attached thread of the device. -/
def State.threads (s : State) : List Thread := (s.thr :: s.pool).filter fun t => decide (t.wait ≠ .ended)

/-- The threads attached to a core (R81). -/
def State.attached (s : State) (n : Nat) : List Thread := s.threads.filter fun t => t.core == n

/-- The thread named, if it is attached there. -/
def State.findThr (s : State) (core : Nat) (cxa : Word) : Option Thread := s.threads.find? (Thread.isAt core cxa)

/-- A thread of a core's saved set (R360). -/
def State.findSaved (s : State) (core : Nat) (cxa : Word) : Option Thread :=
  (s.core core).saved.threads.find? (Thread.isAt core cxa)

/-- The thread a result is owed to, attached or in its core's saved set (R80, R369). -/
def State.findOwed (s : State) (core : Nat) (cxa : Word) : Option Thread :=
  match s.findThr core cxa with
  | some t => some t
  | none => s.findSaved core cxa

/-- Changes the threads of a core's saved set. -/
def CoreSt.mapSaved (cxa : Word) (f : Thread → Thread) (c : CoreSt) : CoreSt :=
  { c with saved := { c.saved with threads := mapFirst (fun t => t.ctx.cxa == cxa) f c.saved.threads } }

/-- Changes the thread named, in the saved set of its core where it is not attached (R369). -/
def State.updThr (core : Nat) (cxa : Word) (f : Thread → Thread) (s : State) : State :=
  if s.thr.isAt core cxa then { s with thr := f s.thr }
  else if s.pool.any (Thread.isAt core cxa) then { s with pool := mapFirst (Thread.isAt core cxa) f s.pool }
  else s.setCore core (CoreSt.mapSaved cxa f)

/-- Sets flags of a context's ST; they are sticky (R53). -/
def Ctx.orFlags (f : BitVec 5) (c : Ctx) : Ctx := { c with st := c.st ||| (f.setWidth 64 <<< 4) }

/-- The flags that fixed-latency results leave in ST when they land (R128). -/
def flagsOf (l : List FixedPend) : BitVec 5 := l.foldl (fun f p => f ||| p.flags) 0#5

/-- The fixed-latency results that are still outstanding after some cycles (R39). -/
def agePend (cycles : Nat) (l : List FixedPend) : List FixedPend :=
  (l.map fun f => { f with left := f.left - cycles }).filter fun f => decide (0 < f.left)

/-- Cycles pass for a thread's fixed-latency results: those that are written back leave their flags in ST (R39, R52, R128). -/
def Thread.age (cycles : Nat) (t : Thread) : Thread :=
  { t with
    ctx := t.ctx.orFlags (flagsOf (t.res.fixed.filter fun f => decide (f.left ≤ cycles)))
    res := { t.res with fixed := agePend cycles t.res.fixed } }

/-- A thread without its slot: the skip count is discarded (R51), its fixed-latency results land (R52), and what was fetched
for it is not kept (R428). -/
def Thread.unbind (t : Thread) : Thread :=
  { t with
    slot := none, skip := 0, turns := 0
    ctx := t.ctx.orFlags (flagsOf t.res.fixed)
    res := { t.res with fixed := [], fetched := [] } }

/-- Appends a run-queue entry (R81). -/
def State.enqueue (core : Nat) (cxa : Word) (org : BitVec 2) (s : State) : State :=
  s.setCore core fun c => { c with runq := c.runq ++ [{ cxa := cxa, org := org }] }

/-- Moves a thread's entry from the run queue into the saved one (R360). -/
def CoreSt.queueSaved (cxa : Word) (c : CoreSt) : CoreSt :=
  { c with
    runq := c.runq.filter fun e => e.cxa != cxa
    saved := { c.saved with runq := c.saved.runq ++ c.runq.filter fun e => e.cxa == cxa } }

/-- A thread whose wait is over: ready, or dropped where its page has turned away a store it had posted (R358). -/
def Thread.rouse (t : Thread) : Thread :=
  match t.dropNext with
  | some k => { t.unbind with wait := .dropped k, dropNext := none }
  | none => { t with wait := .ready }

/-- Ends a wait: a thread that kept its slot is ready there (R49), and another joins the tail of the run queue of its set with
ORG 10 (R83, R369). -/
def State.makeReady (core : Nat) (cxa : Word) (s : State) : State :=
  let s1 := s.updThr core cxa Thread.rouse
  match s.findOwed core cxa with
  | none => s1
  | some t =>
    if t.dropNext.isSome || t.slot.isSome then s1
    else
      let s2 := s1.enqueue core cxa 2#2
      if (s.findThr core cxa).isSome then s2 else s2.setCore core (CoreSt.queueSaved cxa)

/-- The thread that issues stands in line for a resource; it keeps its place in the line when it waits again (R84). -/
def State.standFor (r : Resource) (s : State) : State :=
  { (s.mapThr fun t => { t with wait := .on r, waitOn := some r, stamp := if t.waitOn = some r then t.stamp else s.serial }) with
    serial := s.serial + 1 }

/-- The thread that issues parks on a resource (R83). -/
def State.parkOn (r : Resource) (s : State) : State := (s.mapThr fun t => { t.unbind with parked := true }).standFor r

/-- The thread that issues waits for a reply or an event; its PC stays. -/
def State.waitFor (w : Wait) (s : State) : State :=
  s.mapThr fun t => { t.unbind with wait := w, res := { t.unbind.res with asOf := none } }

/-- The thread that issues parks until an event, and issues its instruction again then (R28, R83). -/
def State.parkFor (w : Wait) (s : State) : State := (s.mapThr fun t => { t with parked := true }).waitFor w

/-- The thread that issues waits at its core's port and keeps its slot: its turns are lent (R49, R140, R355). -/
def State.lend (w : Wait) (s : State) : State := s.mapThr fun t => { t with wait := w }

/-- A thread waits for its next word, from now on (R60, R428); its results have been aged by `ahead` cycles more already. -/
def Thread.awaitWord (now : Word) (ahead : Nat) (t : Thread) : Thread := { t with wait := .fetch, fetchAt := now, fetchAhead := ahead }

/-- The thread that issues gives up its slot (R98): it joins the tail of the run queue with ORG 11, or, when no other entry
without CF waits there, is bound again at once. -/
def State.yieldThr (s : State) : State :=
  let c := s.core s.thr.core
  if s.thr.slot.isSome && c.runq.all (·.cf) then
    { (s.mapThr fun t => { t.unbind with slot := t.slot, bound := s.serial }) with serial := s.serial + 1 }
  else (s.mapThr fun t => { t.unbind with wait := .ready }).enqueue s.thr.core s.thr.ctx.cxa 3#2

/-- Removes a thread from its core (R96, R99, R103). -/
def State.removeThr (core : Nat) (cxa : Word) (s : State) : State :=
  let s1 := if s.thr.isAt core cxa then { s with thr := {} } else { s with pool := dropFirst (Thread.isAt core cxa) s.pool }
  s1.setCore core fun c =>
    { c with
      runq := c.runq.filter fun e => e.cxa != cxa
      notice := c.notice.map fun n => if n = some cxa then none else n }

/-- What no thread's CXA is: CXAs are multiples of 256 (R71). It names the thread of work that outlives its thread. -/
def noCxa : Word := 1#64

/-- The image of a thread is discarded: the answer to a blocking access of its, when it comes, finds nothing that waits for it
(R346, R408). -/
def State.dropAnswers (core : Nat) (cxa : Word) (s : State) : State :=
  let nm (c : Nat) (x : Word) : Word := if c == core && x == cxa then noCxa else x
  { s with
    waiters := s.waiters.map fun w => if w.posted then w else { w with cxa := nm w.src w.cxa }
    naks := s.naks.map fun n => if n.posted then n else { n with cxa := nm n.core n.cxa }
    owed := s.owed.map fun o => match o.dest with
      | .reply _ => { o with cxa := nm o.core o.cxa }
      | _ => o
    ports := s.ports.map fun p =>
      (p.1, { p.2 with reqs := p.2.reqs.map fun q => if q.posted then q else { q with cxa := nm q.core q.cxa } })
    hostReads := s.hostReads.map fun h => match h.owner with
      | .thread c x => { h with owner := .thread c (nm c x) }
      | .gset c x fn v a => { h with owner := .gset c (nm c x) fn v a }
      | _ => h }

/-- A thread ends or is lost: what it has posted and its engine commands go on without it, and the results still owed to
it are discarded (R96, R104, R367, R368). -/
def State.orphan (core : Nat) (cxa : Word) (s : State) : State :=
  let past := ((s.findOwed core cxa).map (·.past)).getD []
  let mine (c : Nat) (x : Word) : Bool := (c == core || past.contains c) && x == cxa
  let nm (c : Nat) (x : Word) : Word := if mine c x then noCxa else x
  let jn (c : Nat) (x : Word) (j : Option (Nat × Nat)) : Option (Nat × Nat) := if mine c x then none else j
  let s0 := s.setCore core fun c => { c with joins := c.joins.filter fun j => j.cxa != cxa }
  let s1 := (core :: past).foldl (fun s core => s.setCore core fun c =>
    { c with
      copies := c.copies.map fun q => { q with join := jn core q.cxa q.join, cxa := nm core q.cxa }
      streamQ := c.streamQ.map fun q => { q with join := jn core q.cxa q.join, cxa := nm core q.cxa }
      panQ := c.panQ.map fun q => { q with join := jn core q.cxa q.join, cxa := nm core q.cxa } }) s0
  let port (p : Port) : Port :=
    { p with reqs := (p.reqs.filter fun q => q.posted || q.owner != .thread || !mine q.core q.cxa).map fun q =>
      { q with cxa := nm q.core q.cxa } }
  let notHost (h : HostRead) : Bool :=
    match h.owner with
    | .thread c x => !mine c x
    | _ => true
  { s1 with
    msgs := s1.msgs.map fun m => { m with join := jn m.core m.cxa m.join, cxa := nm m.core m.cxa }
    brineQ := s1.brineQ.map fun h => { h with join := jn h.core h.cxa h.join, cxa := nm h.core h.cxa }
    flight := s1.flight.map fun r => { r with counted := r.counted && !mine r.src r.cxa, cxa := nm r.src r.cxa }
    waiters := (s1.waiters.filter fun w => w.posted || w.remote.isSome || !mine w.src w.cxa).map fun w =>
      { w with cxa := nm w.src w.cxa }
    naks := (s1.naks.filter fun n => n.posted || !mine n.core n.cxa).map fun n => { n with cxa := nm n.core n.cxa }
    owed := s1.owed.filter fun o => !mine o.core o.cxa
    wakeReqs := s1.wakeReqs.map fun w => { w with srcCxa := nm w.src w.srcCxa }
    pings := s1.pings.filter fun g => !mine g.core g.cxa
    sysWrites := s1.sysWrites.map fun w => { w with cxa := nm w.core w.cxa }
    ports := s1.ports.map fun p => (p.1, port p.2)
    hostReads := s1.hostReads.filter notHost }

/-- Runs `f` with the thread named in the issue stage, then puts things back; a thread of a saved set stays in it. -/
def State.asThr (core : Nat) (cxa : Word) (f : State → State) (s : State) : State :=
  if s.thr.isAt core cxa then f s
  else match s.pool.find? (Thread.isAt core cxa) with
    | some t =>
      let s1 := f { s with thr := t, pool := dropFirst (Thread.isAt core cxa) s.pool }
      { s1 with thr := s.thr, pool := s1.thr :: s1.pool }
    | none =>
      match s.findSaved core cxa with
      | none => s
      | some t =>
        let s1 := f { s with thr := t }
        ({ s1 with thr := s.thr } : State).setCore core fun c => (c.mapSaved cxa fun _ => s1.thr).queueSaved cxa

/-- Empties the record cache of a core; what is being read serves its own `cpy` and is not installed (R294). -/
def State.dropRecs (core : Nat) (s : State) : State :=
  let no (t : Thread) : Thread :=
    if t.core == core then { t with res := { t.res with fill := t.res.fill.map fun f => { f with install := false } } } else t
  { (s.setCore core fun c => { c with recs := [] }) with thr := no s.thr, pool := s.pool.map no }

/-! ### Flue flits and dropped threads -/

/-- The core whose position is (x, y), if one is mapped there. -/
def State.coreAtPos (s : State) (x y : Nat) : Option Nat :=
  ((64 * y + x) :: s.coreMap.map (·.1)).find? fun n => decide ((s.mapEntry n).2 = (x, y)) && decide ((s.mapEntry n).1 ≠ .unmapped)

/-- Cause codes (R199), and the key of a `prh.hold` (R373). -/
def cPGF : BitVec 8 := 0x01#8
/-- CXF. -/
def cCXF : BitVec 8 := 0x02#8
/-- REV. -/
def cREV : BitVec 8 := 0x03#8
/-- MCK. -/
def cMCK : BitVec 8 := 0x04#8
/-- DBG. -/
def cDBG : BitVec 8 := 0x05#8
/-- WLK. -/
def cWLK : BitVec 8 := 0x06#8
/-- ESC. -/
def cESC : BitVec 8 := 0x08#8
/-- HBT. -/
def cHBT : BitVec 8 := 0x10#8
/-- LNK. -/
def cLNK : BitVec 8 := 0x11#8
/-- FLT. -/
def cFLT : BitVec 8 := 0x12#8
/-- WAKE. -/
def cWAKE : BitVec 8 := 0x20#8
/-- HOLD. -/
def cHOLD : BitVec 8 := 0x30#8

/-- The bit of a position in the bitmap of its band (R199). -/
def bandBit (x y : Nat) : Nat := 32 * (y % 2) + x % 32

/-- Where the collector of a band stands: the first position of the band's first core row (R431). -/
def collectorPos (b : Nat) : Nat × Nat := (32 * (b % 2), 2 * (b / 2))

/-- A flue flit that leaves a position for the collector of its band (R199, R431). -/
def flueFrom (x y src : Nat) (cause : BitVec 8) (d1 d2 : Word) : FlueFlit :=
  let b := posBand x y
  let c := collectorPos b
  { atX := x, atY := y, dx := c.1, dy := c.2, src := src, goal := .collector, cause := cause, band := b
    d0 := BitVec.ofNat 64 (2 ^ bandBit x y), d1 := d1, d2 := d2 }

/-- Sends a flue flit from a logical core (R199, R347). -/
def State.sendFlue (core : Nat) (cause : BitVec 8) (d1 d2 : Word) (s : State) : State :=
  { s with flue := s.flue ++ [flueFrom (s.pos core).1 (s.pos core).2 core cause d1 d2] }

/-- The thread that issues is dropped with a key (R346). -/
def State.dropThr (cause : BitVec 8) (val : Word) (s : State) : State := s.waitFor (.dropped ⟨cause, val⟩)

/-- CXA bits 55:8, in place (R347). -/
def cxaBits (cxa : Word) : Word := cxa &&& 0x00FFFFFFFFFFFF00#64

/-- Escalates a user trap: the thread is dropped and nothing else changes; ESC carries code, sub-code and detail
(R58, R347, R352). -/
def State.escalate (code sub : BitVec 8) (detail : Word) (s : State) : State :=
  (s.dropThr cESC s.thr.ctx.cxa).sendFlue s.thr.core cESC
    (cxaBits s.thr.ctx.cxa ||| code.setWidth 64 ||| (sub.setWidth 64 <<< 56)) detail

/-- The trap vector of the thread's task, from the core's cached set (R353, R361). -/
def State.tvec (s : State) : Word :=
  match (s.core s.thr.core).sets.find? (fun e => e.task == s.task) with
  | some e => e.tvec
  | none => s.readWord (s.tskb.toNat + 256 * s.task.toNat + 8)

/-- TAKING A USER TRAP at the instruction at PC: TRC, TRA and TRD are saved, TRIN is set and PC takes TVEC (R57); at
level H, or while TRIN is set, it escalates instead (R58, R352). STALL and YL are not applied. -/
def State.takeTrap (code sub : BitVec 8) (detail : Word) (s : State) : State :=
  if s.levelH || s.trin then s.escalate code sub detail
  else
    s.mapThr fun t =>
      let t := (t.age 24).awaitWord (s.now t.core) 24
      { t with
        skip := 0
        waitOn := none
        parked := false
        ctx := { t.ctx with
          trc := (sub.setWidth 64 <<< 8) ||| code.setWidth 64
          tra := t.ctx.pc
          trd := detail
          st := t.ctx.st ||| 0x400#64
          pc := s.tvec }
        res := { t.res with setter := t.ctx.pc, fetched := [], held := [], asOf := none, walk := none } }

/-- RETURNING FROM A TRAP: TRIN is cleared; what was recorded of later posted faults opens again (R69, R156). -/
def State.leaveTrap (s : State) : State :=
  (s.setSt (s.st &&& ~~~0x400#64)).mapRes fun r => { r with faultShut := false }

/-- A user trap of a thread that waits unbound: it joins the run queue, and its handler's word is fetched when it is
bound (R57, R211). -/
def State.trapWaiting (code sub : BitVec 8) (detail : Word) (s : State) : State :=
  let s1 := s.takeTrap code sub detail
  if s1.thr.wait = .fetch then (s1.mapThr fun t => { t with wait := .ready }).enqueue s1.thr.core s1.thr.ctx.cxa 2#2
  else s1

/-- Trap codes (R56). -/
def tILL : BitVec 8 := 1#8
/-- PRIV. -/
def tPRIV : BitVec 8 := 2#8
/-- SEG. -/
def tSEG : BitVec 8 := 3#8
/-- ALN. -/
def tALN : BitVec 8 := 4#8
/-- ARI. -/
def tARI : BitVec 8 := 5#8
/-- POI. -/
def tPOI : BitVec 8 := 6#8
/-- GRN. -/
def tGRN : BitVec 8 := 7#8
/-- STL. -/
def tSTL : BitVec 8 := 8#8
/-- SWT. -/
def tSWT : BitVec 8 := 9#8

/-- Sub-codes of POI, which are also the reasons of a NAK (R56, R206). -/
def pRIGHTS : BitVec 8 := 1#8
/-- MALFORMED. -/
def pMALF : BitVec 8 := 2#8
/-- DEAD. -/
def pDEAD : BitVec 8 := 3#8
/-- STALE. -/
def pSTALE : BitVec 8 := 4#8
/-- UNCORR. -/
def pUNCORR : BitVec 8 := 5#8

/-! ### How an instruction ends -/

/-- How the body of an instruction ends. A trap and a park start from the state before the instruction issued. -/
inductive Eff where
  /-- It completed; PC advances by 12. -/
  | done (s : State)
  /-- It completed and set PC. -/
  | jump (s : State) (pc : Word)
  /-- It raises a user trap; nothing else of it has happened (R57). -/
  | trap (code sub : BitVec 8) (detail : Word)
  /-- The thread parks on a resource and issues the instruction again when the wait ends; nothing else of it has
  happened. -/
  | park (r : Resource)
  /-- It parks on draught, and its request keeps the translations it has (R357). -/
  | hold (r : Resource) (l : List Held)
  /-- It waits for a resource at its core's port and keeps its slot, with its turns lent (R49, R168, R355); nothing else of it
  has happened. -/
  | lend (r : Resource)
  /-- A recorded fault of a posted store is raised as POI; raising it clears the record (R156, R96). -/
  | posted (sub : BitVec 8) (detail : Word)
  /-- The thread waits or has been dropped, and issues the instruction again afterwards: its registers are as before. -/
  | again (s : State)
  /-- The state is as given: PC, STALL and YL are not touched (a reply is owed, the thread is dropped or gone, or PC has
  been advanced already). -/
  | stay (s : State)

/-- The detail word of an ILL (R38). -/
def illDetail (op : BitVec 8) (why fld : Nat) : Word :=
  (op.setWidth 64 <<< 16) ||| BitVec.ofNat 64 (fld * 64 + why)

/-- ILL with a reason (R38, R93). -/
def Eff.ill (op : BitVec 8) (why : Nat) (fld : Nat := 0) : Eff := .trap tILL 0#8 (illDetail op why fld)

/-- After the instruction: STALL sets the skip count (R51), the wait it had is over, and YL gives up the slot unless the
instruction has parked (R28). The next own turn comes 8 cycles later, or 4 to 7 after a lent one (R49); STALL own turns are skipped, and
a transfer costs two more (R39, R428). -/
def State.retire (h : Head) (jumped : Bool) (s : State) : State :=
  let s1 := s.mapThr fun t =>
    let ahead := t.gap + if jumped then 16 else 0
    let t := t.age (8 * h.stall.toNat + ahead)
    let t := { t with skip := h.stall.toNat, waitOn := none, parked := false, res := { t.res with asOf := none, walk := none } }
    if jumped then t.awaitWord (s.now t.core) ahead else t
  if h.yl && !s.thr.parked then s1.yieldThr else s1

/-- Ends an instruction that began in `s0`. -/
def Eff.finish (h : Head) (s0 : State) : Eff → State
  | .done s => (s.setPc (s.pc + 12#64)).retire h false
  | .jump s pc => ((s.setPc pc).mapRes fun r => { r with setter := s0.pc }).retire h true
  | .trap c sub d => (({ s0 with serial := s0.serial + 1 }).mapRes fun r => { r with record := none, fill := none }).takeTrap c sub d
  | .park r => s0.parkOn r
  | .hold r l => (s0.mapRes fun q => { q with held := l }).parkOn r
  | .lend r => s0.standFor r
  | .posted sub d => (s0.mapRes fun r => { r with fault := none, faultShut := true }).takeTrap tPOI sub d
  | .again s =>
    { s with
      thr := { s.thr with
        ctx := { s0.thr.ctx with rld := s.thr.ctx.rld, stc := s.thr.ctx.stc, pk := s.thr.ctx.pk, st := s.thr.ctx.st } } }
  | .stay s => s

end Sys2Proof.Machine
end

