-- ==== Sys2Proof/Machine/Flags.lean ====
section
/-! DEFINITION. The comparison conditions (R31, R55), and the flags of ST an instruction leaves (R53, R127, R128). -/

namespace Sys2Proof.Machine

/-- A condition on an ordering of two comparable operands (R55). -/
def condOrd (c : Nat) (o : Ordering) : Bool :=
  match c with
  | 0 => o == .eq
  | 1 => o != .eq
  | 2 => o == .lt
  | 3 => o != .gt
  | 4 => o == .gt
  | 5 => o != .lt
  | 7 => true
  | _ => false

/-- The order of two integers. -/
def intOrd (a b : Int) : Ordering := if a < b then .lt else if a = b then .eq else .gt

/-- COND on integers (R55). -/
def condInt (c : Nat) (a b : Int) : Bool := condOrd c (intOrd a b)

/-- COND on floating-point patterns, with NV (R55). -/
def Fmt.cond (f : Fmt) (c a b : Nat) : Bool × FFlags :=
  let x := f.decode a
  let y := f.decode b
  if x.isNan || y.isNan then
    (c == 1 || c == 6, nvIf (x.isSig || y.isSig || (2 ≤ c && c ≤ 5)))
  else (condOrd c (x.cmp y), 0#5)

end Sys2Proof.Machine

namespace Sys2Proof

open Machine

/-- The value of an integer pattern of a type (R107). -/
def Ty.intVal (t : Ty) (v : Nat) : Int := if t.signed then sintOf t.width v else (v % 2 ^ t.width : Nat)

end Sys2Proof

namespace Sys2Proof.Machine

/-- COND at a type (R55, R66). -/
def condTy (t : Ty) (c a b : Nat) : Bool × FFlags :=
  match t.fmt with
  | some f => f.cond c a b
  | none => (condInt c (t.intVal a) (t.intVal b), 0#5)

/-- `amo`: the value a function writes, and its flags (R182); the floating-point functions round to nearest even. -/
def amoValue (fn old v : Nat) : Nat × FFlags :=
  match fn with
  | 0x0 => ((old + v) % 2 ^ 64, 0#5)
  | 0x1 => (old &&& v, 0#5)
  | 0x2 => (old ||| v, 0#5)
  | 0x3 => (old ^^^ v, 0#5)
  | 0x4 => (if sintOf 64 old ≤ sintOf 64 v then old else v, 0#5)
  | 0x5 => (if sintOf 64 v ≤ sintOf 64 old then old else v, 0#5)
  | 0x6 => (Nat.min old v, 0#5)
  | 0x7 => (Nat.max old v, 0#5)
  | 0x8 => (v, 0#5)
  | 0x9 => fmtF32.add .rne (old % 2 ^ 32) (v % 2 ^ 32)
  | 0xA => fmtF32.minmax true (old % 2 ^ 32) (v % 2 ^ 32)
  | _ => fmtF64.add .rne old v

/-- The bytes an `amo` acts on (R181). -/
def amoSize (fn : Nat) : Nat := if fn = 0x9 ∨ fn = 0xA then 4 else 8

/-- ST.RM (R53, R126). -/
def State.rm (s : State) : RMode := RMode.ofCode (s.stBits 2 2)

end Sys2Proof.Machine
end

