-- ==== Sys2Proof/Machine/Operands.lean ====
section
/-! DEFINITION. Reading guards, operands and destinations: what makes a thread park or raise STL (R25, R30, R40, R52),
the modifiers of a register (R30), the memory operand (R33), and issuing an instruction. -/

namespace Sys2Proof.Machine

/-- The detail word of STL (R52). -/
def stlDetail (f : FixedPend) : Word :=
  (f.min.setWidth 64 <<< 16) ||| (f.got.setWidth 64 <<< 8) ||| (if f.isPred then 16#64 else 0#64) ||| f.idx.setWidth 64

/-- A fixed-latency write of the register or predicate is outstanding (R52). -/
def State.fixedOf (s : State) (isPred : Bool) (idx : BitVec 4) : Option FixedPend :=
  s.thr.res.fixed.find? fun f => f.isPred == isPred && f.idx == idx

/-- Goes on when no fixed-latency write is outstanding; else STL when CHK is set, or parks until the write (R40, R52). -/
def withFixed (isPred : Bool) (idx : BitVec 4) (s : State) (k : Eff) : Eff :=
  match s.fixedOf isPred idx with
  | none => k
  | some f =>
    if s.chk then .trap tSTL 0#8 (stlDetail f)
    else .park (if isPred then .pred (idx.setWidth 3) else .reg idx true)

/-- Waits until every earlier fixed-latency result has been written back; never STL (R122, R128). -/
def withAllFixed (s : State) (k : Eff) : Eff :=
  match s.thr.res.fixed with
  | [] => k
  | f :: _ => .park (if f.isPred then .pred (f.idx.setWidth 3) else .reg f.idx true)

/-- Reads a register: waits for FE = full; SYNC empties it (R30). -/
def withReg (r : BitVec 4) (sync : Bool) (s : State) (k : Word → State → Eff) : Eff :=
  withFixed false r s (if s.full r then k (s.x r) (if sync then s.mapCtx (Ctx.drain r) else s) else .park (.reg r true))

/-- Reads a predicate, waiting for a pending write (R25, R52); p0 has none. -/
def withPred (p : BitVec 3) (s : State) (k : Bool → Eff) : Eff :=
  if p = 0#3 then k true
  else withFixed true (p.setWidth 4) s (if s.thr.res.owedPred.getLsbD p.toNat then .park (.pred p) else k (s.p p))

/-- Reads an operand as a 64-bit value, before NEG: an immediate or a literal is sign-extended (R29, R107). -/
def withSrc (o : Opnd) (s : State) (k : Word → State → Eff) : Eff :=
  match o with
  | .reg r sync _ _ => withReg r sync s k
  | .imm v => k (v.signExtend 64) s
  | .lit v => k (v.signExtend 64) s
  | .chan c => k (c.setWidth 64) s
  | .pred p _ => withPred p s fun b => k (b2w b) s
  | .spec i => k (i.setWidth 64) s
  | .absent => k 0#64 s

end Sys2Proof.Machine

namespace Sys2Proof

open Machine

/-- NEG of an operand. -/
def Opnd.isNeg : Opnd → Bool
  | .reg _ _ n _ => n
  | _ => false

/-- VAL of an operand. -/
def Opnd.isVal : Opnd → Bool
  | .reg _ _ _ v => v
  | _ => false

/-- SYNC of an operand. -/
def Opnd.isSync : Opnd → Bool
  | .reg _ n _ _ => n
  | _ => false

/-- The register an operand names. -/
def Opnd.rix : Opnd → BitVec 4
  | .reg r _ _ _ => r
  | _ => 0#4

/-- The predicate an operand names. -/
def Opnd.pix : Opnd → BitVec 3
  | .pred p _ => p
  | _ => 0#3

/-- The condition an operand holds (R31). -/
def Opnd.cond : Opnd → Nat
  | .pred _ c => c.toNat
  | _ => 0

/-- The immediate of an operand, sign-extended. -/
def Opnd.immW : Opnd → Word
  | .imm v => v.signExtend 64
  | .lit v => v.signExtend 64
  | _ => 0#64

/-- The operand is a register. -/
def Opnd.isReg : Opnd → Bool
  | .reg .. => true
  | _ => false

/-- The low `w` bits of an operand's value, with NEG as two's complement (R30). -/
def Opnd.atInt (o : Opnd) (w : Nat) (v : Word) : Nat :=
  if o.isNeg then (2 ^ w - v.toNat % 2 ^ w) % 2 ^ w else v.toNat % 2 ^ w

/-- A floating-point operand's pattern: NEG inverts the sign; an immediate is converted exactly (R30, R125). -/
def Opnd.atFloat (o : Opnd) (f : Fmt) (v : Word) : Nat :=
  match o with
  | .imm i => (f.ofInt .rne i.toInt).1
  | _ => if o.isNeg then (v.toNat % 2 ^ f.width) ^^^ 2 ^ (f.eb + f.fb) else v.toNat % 2 ^ f.width

/-- An operand's pattern at a type (R30, R66). -/
def Opnd.atTy (o : Opnd) (t : Ty) (v : Word) : Nat :=
  match t.fmt with
  | some f => o.atFloat f v
  | none => o.atInt t.width v

end Sys2Proof

namespace Sys2Proof.Machine

/-- Goes on when the destination register has no write outstanding and, with SYNC, is empty (R30, R52). -/
def withDestReg (r : BitVec 4) (sync : Bool) (s : State) (k : Eff) : Eff :=
  withFixed false r s
    (if s.thr.ctx.owe.getLsbD r.toNat then .park (.reg r true)
     else if sync && s.full r then .park (.reg r false) else k)

/-- Goes on when the destination operand can be written. -/
def withDest (o : Opnd) (s : State) (k : Eff) : Eff :=
  match o with
  | .reg r sync _ _ => withDestReg r sync s k
  | .pred p _ =>
    if p = 0#3 then k
    else withFixed true (p.setWidth 4) s (if s.thr.res.owedPred.getLsbD p.toNat then .park (.pred p) else k)
  | _ => k

/-- Goes on when registers r to r + n − 1 have no write outstanding. -/
def withDests : Nat → BitVec 4 → State → Eff → Eff
  | 0, _, _, k => k
  | n + 1, r, s, k => withDestReg r false s (withDests n (r + 1#4) s k)

/-- Reads n registers from r on. -/
def withRegs : Nat → BitVec 4 → State → (List Word → Eff) → Eff
  | 0, _, _, k => k []
  | n + 1, r, s, k => withReg r false s fun v _ => withRegs n (r + 1#4) s fun vs => k (v :: vs)

/-- A result of a fixed latency above 8 cycles may still be outstanding when the next instruction issues, unless STALL covers
it; its flags land with it (R39, R52, R128). -/
def State.pendFixed (isPred : Bool) (idx : BitVec 4) (lat : Nat) (fl : BitVec 5) (h : Head) (s : State) : State :=
  s.mapRes fun q =>
    { q with fixed := ⟨isPred, idx, BitVec.ofNat 8 (ceilDiv lat 8 - 1), h.stall.setWidth 8, lat, fl⟩ :: q.fixed }

/-- Writes X[r] with a fixed latency. -/
def State.writeFixed (r : BitVec 4) (v : Word) (lat : Nat) (h : Head) (s : State) : State :=
  let s1 := s.writeX r v
  if lat ≤ 8 then s1 else s1.pendFixed false r lat 0#5 h

/-- Writes X[r] with a fixed latency, and the flags that land with it (R128). -/
def State.writeFlagged (r : BitVec 4) (v : Word) (lat : Nat) (fl : BitVec 5) (h : Head) (s : State) : State :=
  let s1 := s.writeX r v
  if lat ≤ 8 then s1.orFlags fl else s1.pendFixed false r lat fl h

/-- Writes P[p] with a fixed latency, and the flags that land with it (R128). -/
def State.writePFixed (p : BitVec 3) (v : Bool) (lat : Nat) (fl : BitVec 5) (h : Head) (s : State) : State :=
  let s1 := s.writeP p v
  if lat ≤ 8 then s1.orFlags fl else s1.pendFixed true (p.setWidth 4) lat fl h

/-- Writes registers r, r + 1, … -/
def State.writeRegs : List Word → BitVec 4 → State → State
  | [], _, s => s
  | v :: vs, r, s => State.writeRegs vs (r + 1#4) (s.writeX r v)

/-- The memory operand: base plus index or displacement, with wrap (R33). -/
def withEa (b c : Opnd) (s : State) (k : Word → State → Eff) : Eff :=
  withSrc b s fun base s => withSrc c s fun off s => k (base + off) s

/-- Issues an instruction: the guard is read (R25), the body runs when it is enabled, and the instruction ends. -/
def issue (h : Head) (body : State → Eff) (s : State) : Host.Outcome State Fault Refusal :=
  .next (Eff.finish h s (withPred h.gp s fun v => if v != h.gn then body s else .done s))

end Sys2Proof.Machine
end

