-- ==== Sys2Proof/Machine/Address.lean ====
section
/-! DEFINITION. From an address to its home: segments (R139-R141), the address map (R142), page tables and the TLB
(R143, R353-R356), homes (R147), discarded pages (R150), and the peer-and-window table (R209, R210). -/

namespace Sys2Proof.Machine

open Config

/-- On whose behalf an access is made: a core, a task and a level. -/
structure Who where
  core : Nat
  task : BitVec 16
  lvlH : Bool
  deriving DecidableEq, Repr

/-- The thread that issues. -/
def State.me (s : State) : Who := ⟨s.thr.core, s.task, s.levelH⟩

/-- What an access needs: segment rights, whether it counts as a write for the page, whether a discarded page turns it away
(R150, R181), its KIND (R348), whether the host window and a peer support it (R142, R151, R181). -/
structure Need where
  r : Bool := false
  w : Bool := false
  x : Bool := false
  a : Bool := false
  e : Bool := false
  write : Bool := false
  rev : Bool := false
  kind : Nat := 0
  host : Bool := true
  far : Bool := true
  deriving DecidableEq, Repr

/-- A plain load. -/
def nLoad : Need := { r := true }
/-- A plain store. -/
def nStore : Need := { w := true, write := true, kind := 1 }
/-- A full/empty read: no full/empty bit behind the host window (R151). -/
def nLfe : Need := { r := true, host := false }
/-- `ldc`: R and W, a write for the page (R141, R159). -/
def nLdc : Need := { r := true, w := true, write := true, kind := 1, host := false }
/-- `stp` and `sfe`. -/
def nStp : Need := { w := true, write := true, kind := 1, host := false }
/-- An atomic or a `cas`; only some reach the host (R181). -/
def nAmo (host : Bool) : Need := { a := true, write := true, kind := 3, host := host }
/-- `wtw` (R181). -/
def nWtw : Need := { r := true, rev := true, host := false }
/-- An instruction fetch. -/
def nFetch : Need := { x := true, kind := 2 }

/-! ### Segments -/

/-- The bits of SGB and of SGL; the reserved bits 63:61 read 0 (R5, R139). -/
def segMask : Word := 0x1FFFFFFFFFFFFFFF#64

/-- A task's segment set and trap vector in its descriptor (R353). -/
def State.descriptor (s : State) (task : BitVec 16) : TaskSet :=
  let d := s.tskb.toNat + 256 * task.toNat
  { task := task, tvec := s.readWord (d + 8)
    segs := (List.range 8).map fun n => (s.readWord (d + 0x80 + 16 * n) &&& segMask, s.readWord (d + 0x88 + 16 * n) &&& segMask) }

/-- The set a core has cached for a task (R140). -/
def State.cachedSet (s : State) (core : Nat) (task : BitVec 16) : Option TaskSet :=
  (s.core core).sets.find? fun e => e.task == task

/-- A core's copy of a task's segment set becomes the most recently used (R140). -/
def CoreSt.touchSet (task : BitVec 16) (c : CoreSt) : CoreSt :=
  match c.sets.find? fun e => e.task == task with
  | some e => { c with sets := (c.sets.filter fun e => e.task != task) ++ [e] }
  | none => c

/-- The set in force for a task on a core. -/
def State.taskSet (s : State) (core : Nat) (task : BitVec 16) : TaskSet :=
  (s.cachedSet core task).getD (s.descriptor task)

/-- A segment register (R139). -/
def TaskSet.seg (t : TaskSet) (n : Nat) : Word × Word := t.segs.getD n (0#64, 0#64)

/-- The segment grants the rights (R139, R141 step 2). -/
def segGrants (sgb : Word) (nd : Need) : Bool :=
  (!nd.r || sgb.getLsbD 56) && (!nd.w || sgb.getLsbD 57) && (!nd.x || sgb.getLsbD 58) && (!nd.a || sgb.getLsbD 59)
    && (!nd.e || sgb.getLsbD 60)

/-- R141 steps 2 and 3: the GVA, or nothing where SEG is raised. -/
def TaskSet.gva (t : TaskSet) (nd : Need) (ea : Word) (n : Nat) : Option Nat :=
  let (sgb, sgl) := t.seg (bits ea.toNat 61 3)
  let off := bits ea.toNat 0 61
  let base := bits sgb.toNat 0 56
  if segGrants sgb nd && decide (off + n ≤ bits sgl.toNat 0 61) && decide (base + off + n ≤ 2 ^ 56) then some (base + off)
  else none

/-! ### The address map -/

/-- The scratchpad of a core, in bytes (R145). -/
def CoreSt.spBytes (c : CoreSt) : Nat := bits c.cmpart.toNat 0 4 * 0x10000

/-- Entries of an inbox channel (R90). -/
def CoreSt.ibEntries (c : CoreSt) : Nat := 64 * 2 ^ bits c.ibxsz.toNat 0 2

/-- Messages that a channel holds (R89). -/
def CoreSt.ibCount (c : CoreSt) (chan : Nat) : Nat := (c.inbox.getD chan (0, 0)).2

/-- Scratchpad offset of a channel's entry: the rings lie at the top of the scratchpad (R89). -/
def CoreSt.ibEntryAt (c : CoreSt) (chan i : Nat) : Nat :=
  c.spBytes - 256 * c.ibEntries + chan * (32 * c.ibEntries) + 32 * (i % c.ibEntries)

/-- What a window of a core shows at a level (R142). -/
def State.winLimit (s : State) (n : Nat) (lvlH : Bool) : Nat :=
  let c := s.core n
  if lvlH then c.spBytes else if isSpare n then 0 else c.spBytes - 256 * c.ibEntries

/-- The storage address of a byte of core memory. -/
def coreAddr (n o : Nat) : Nat := winBase + n * 0x100000 + o

/-- The regions of R142. -/
inductive Area where
  | paged
  | window (core off : Nat)
  | peer (p w off : Nat)
  | host (off : Nat)
  | none
  deriving DecidableEq, Repr

/-- R141 step 4: the region in which all `n` bytes lie, when it is accessible and supports the access. -/
def State.area (s : State) (lvlH : Bool) (nd : Need) (g n : Nat) : Area :=
  if g < winBase then (if g + n ≤ winBase then .paged else .none)
  else if g < winBase + nCores * 0x100000 then
    let k := (g - winBase) / 0x100000
    let o := (g - winBase) % 0x100000
    if o + n ≤ s.winLimit k lvlH then .window k o else .none
  else if peerBase ≤ g ∧ g < peerBase + 2 ^ 50 then
    let o := bits g 0 34
    if o + n ≤ 2 ^ 34 && nd.far then .peer (bits (g - peerBase) 40 10) (bits g 34 6) o else .none
  else if hostBase ≤ g ∧ g + n ≤ hostBase + 2 ^ 48 then (if nd.host && nd.far then .host (g - hostBase) else .none)
  else .none

/-! ### Pages -/

/-- The leaf of a task-0 translation (R353): valid, present, writable, executable, cacheable; not user (DEDUCED, log 10). -/
def leaf0 (g : Nat) : Word := 0xF800000000000000#64 ||| BitVec.ofNat 64 (g / 2 ^ 16 * 2 ^ 16)

/-- A TLB entry holds the page (R355). -/
def TlbEntry.hits (e : TlbEntry) (task : BitVec 16) (g : Nat) : Bool :=
  e.task == task && (if e.large then e.page / 2 ^ 29 == g / 2 ^ 29 else e.page / 2 ^ 16 == g / 2 ^ 16)

/-- The leaf the port has for a page; task 0 has no page tables (R353). -/
inductive Lookup where
  | leaf (l : Word) (large : Bool)
  | notValid
  | miss
  deriving DecidableEq, Repr

/-- Looks a paged address up at a cluster port (R143, R355). -/
def State.lookup (s : State) (cluster : Nat) (task : BitVec 16) (g : Nat) : Lookup :=
  if task = 0#16 then (if g < physEnd then .leaf (leaf0 g) false else .notValid)
  else match (s.cluster cluster).tlb.find? fun e => e.hits task g with
    | some e => .leaf e.leaf e.large
    | none => .miss

/-- Attributes of a leaf (R354). -/
def lfV (l : Word) : Bool := l.getLsbD 63
/-- P. -/
def lfP (l : Word) : Bool := l.getLsbD 61
/-- W. -/
def lfW (l : Word) : Bool := l.getLsbD 60
/-- X. -/
def lfX (l : Word) : Bool := l.getLsbD 59
/-- U. -/
def lfU (l : Word) : Bool := l.getLsbD 58
/-- GRN. -/
def lfGRN (l : Word) : Bool := l.getLsbD 57
/-- CTX. -/
def lfCTX (l : Word) : Bool := l.getLsbD 56
/-- DSC. -/
def lfDSC (l : Word) : Bool := l.getLsbD 55
/-- CPC. -/
def lfCPC (l : Word) : Nat := bits l.toNat 53 2
/-- HK. -/
def lfHK (l : Word) : Bool := l.getLsbD 52
/-- HOME. -/
def lfHome (l : Word) : Nat := bits l.toNat 41 11

/-- The physical address behind a leaf. -/
def lfAddr (l : Word) (large : Bool) (g : Nat) : Nat :=
  if large then bits l.toNat 29 12 * 2 ^ 29 + g % 2 ^ 29 else bits l.toNat 16 25 * 2 ^ 16 + g % 2 ^ 16

/-- The next table of a non-leaf entry: V set, LEAF clear, and every other bit 0 (R354). -/
def nextTable (e : Word) : Option Nat :=
  if lfV e && !e.getLsbD 62 && e &&& 0x3FFFFE000000FFFF#64 == 0#64 then some (bits e.toNat 16 25 * 2 ^ 16) else none

/-- Where a task's leaf for a GVA stands, what it holds, and whether it is a 512 MiB page (R353, R354). -/
def State.walkTable (s : State) (task : BitVec 16) (g : Nat) : Option (Nat × Word × Bool) :=
  let root := (s.readWord (s.tskb.toNat + 256 * task.toNat)).toNat
  if root = 0 then none
  else match nextTable (s.readWord (root + 8 * bits g 42 13)) with
    | none => none
    | some t2 =>
      let a2 := t2 + 8 * bits g 29 13
      let e2 := s.readWord a2
      if lfV e2 && e2.getLsbD 62 then some (a2, e2, true)
      else match nextTable e2 with
        | none => none
        | some t3 => let a3 := t3 + 8 * bits g 16 13; some (a3, s.readWord a3, false)

/-- How a page turns an access away (R71, R143, R150, R356). -/
inductive PageFail where
  | pgf (why : Nat)
  | seg
  | rev
  deriving DecidableEq, Repr

/-- The check of a leaf (R356, R150, R71). -/
def checkLeaf (l : Word) (who : Who) (nd : Need) : Option PageFail :=
  if !lfV l then some (.pgf 0)
  else if !lfP l then some (.pgf 1)
  else if !who.lvlH && lfCTX l then some .seg
  else if nd.write && !lfW l then some (.pgf 2)
  else if !who.lvlH && !lfU l then some (.pgf 3)
  else if nd.x && !lfX l then some (.pgf 4)
  else if (nd.write || nd.rev) && lfDSC l then some .rev
  else none

/-! ### Homes -/

/-- A home that does not exist: a masked page whose list is empty (R147). -/
def noHome : Nat := 4096

/-- The host window's home: the PCIe port of die 0 (R147). -/
def hostHome : Nat := 4097

/-- A home served by a scale-up port: the peer decides (R147). -/
def farHome (port : Nat) : Nat := 5000 + port

/-- What a posted store to a DOWN peer has for a home (R210): nothing serves it. -/
def downHome (p : Nat) : Nat := 8192 + p

/-- The hash of R147. -/
def homeHash (g : Nat) : Nat :=
  let q := bits g 12 44
  bits q 0 11 ^^^ bits q 11 11 ^^^ bits q 22 11 ^^^ bits q 33 11

/-- The home among a list of cores. -/
def homeIn (l : List Nat) (g : Nat) : Nat := if l = [] then noHome else l.getD (homeHash g % l.length) noHome

/-- The logical cores of a cluster at boot, without the spares (R147). -/
def bootCores (k : Nat) : List Nat :=
  let b := 2 * (k % 32) + 128 * (k / 32)
  [b, b + 1, b + 64, b + 65].filter fun n => !isSpare n

/-- The list L of a set of clusters, in ascending order (R147). -/
def maskCores (cl : List Nat) : List Nat := cl.foldl (fun l k => (bootCores k).foldl (fun l n => insertNat n l) l) []

/-- The clusters of a home-mask entry, as cached or in memory (R147, R361). -/
def State.homeMask (s : State) (k : Nat) : List Nat :=
  (look k s.masks).getD (membersOf (s.readNat (s.hmtb.toNat + 64 * k) 64) 512)

/-- The n-th logical core of a die at boot that is not a spare, in ascending order (R353). -/
def dieCore (d n : Nat) : Nat :=
  let o := hearthOf d
  if n < 448 then o + 64 * (n / 32) + n % 32 else o + 64 * (14 + (n - 448) / 30) + (n - 448) % 30

/-- The home of a task-0 address: masked over the cores of the die that holds it (R353). -/
def home0 (g : Nat) : Nat := dieCore (g / dieBytes) (homeHash g % 508)

/-- The home of a paged address (R147). -/
def State.homeOf (s : State) (task : BitVec 16) (l : Word) (g : Nat) : Nat :=
  if task = 0#16 then home0 g
  else if lfHK l then homeIn (maskCores (s.homeMask (lfHome l % 256))) g
  else lfHome l

/-- Caches the home mask that a translation used (R361). -/
def State.noteMask (task : BitVec 16) (l : Word) (s : State) : State :=
  let k := lfHome l % 256
  if task ≠ 0#16 && lfHK l && (look k s.masks).isNone then { s with masks := s.masks ++ [(k, s.homeMask k)] } else s

/-- An access to the home finds nothing that serves it (R147, R193, R404). -/
def State.homeDead (s : State) (h : Nat) : Bool := h != hostHome && (decide (nCores ≤ h) || !s.live h || (s.core h).dead)

/-! ### The peer-and-window table (R209, R210) -/

/-- Word 0 of a level-1 entry, as cached or in memory. -/
def State.peer1 (s : State) (p : Nat) : Word := (look p s.peers1).getD (s.readWord (s.pwtb.toNat + 16 * p))

/-- The words of a level-2 entry, as cached or in memory. -/
def State.peer2 (s : State) (p w : Nat) : Word × Word × Word :=
  (look (p, w) s.peers2).getD
    (let a := s.pwtb.toNat + 0x4000 + 2048 * p + 32 * w
     (s.readWord a, s.readWord (a + 8), s.readWord (a + 16)))

/-- Caches the entries of a peer window that an access used (R361). -/
def State.notePeer (p w : Nat) (s : State) : State :=
  { s with
    peers1 := if (look p s.peers1).isNone then s.peers1 ++ [(p, s.peer1 p)] else s.peers1
    peers2 := if (look (p, w) s.peers2).isNone then s.peers2 ++ [((p, w), s.peer2 p w)] else s.peers2 }

/-- STATE of a level-1 entry: 0 INVALID, 1 UP, 2 DOWN. -/
def p1State (e : Word) : Nat := bits e.toNat 50 3
/-- GEN of a level-1 entry. -/
def p1Gen (e : Word) : Nat := bits e.toNat 56 8
/-- NRT of a level-1 entry. -/
def p1Nrt (e : Word) : Nat := bits e.toNat 53 3
/-- Route entry i of a level-1 entry. -/
def p1Route (e : Word) (i : Nat) : Nat := bits e.toNat (8 * i) 8

/-- The scale-up port of the first hop to a peer. -/
def State.peerPort (s : State) (p : Nat) : Nat := p1Route (s.peer1 p) 0 % 16

/-! ### Places -/

/-- How a location's resolution ends. -/
inductive Found where
  | loc (l : Loc) (s : State)
  | fail (f : PageFail)
  | miss (s : State)
  | deadPeer (p : Nat)
  deriving DecidableEq

/-- From a GVA to its place: region, translation, home (R141 step 4, R142, R143, R210). Of an access to a peer window the start alone is
held against LIMIT (DESIGN CHOICE, log 67). -/
def State.locate (s : State) (who : Who) (nd : Need) (g n : Nat) : Found :=
  match s.area who.lvlH nd g n with
  | .none => .fail .seg
  | .window k o => .loc (.mem (coreAddr k o) k false 0#64) s
  | .host o => .loc (.host o) s
  | .peer p w o =>
    let e := s.peer1 p
    if p1State e ≠ 1 ∧ p1State e ≠ 2 then .fail .seg
    else if bits (s.peer2 p w).2.1.toNat 0 34 ≤ o then .fail .seg
    else if p1State e = 2 then .deadPeer p
    else .loc (.peer p w o) (s.notePeer p w)
  | .paged =>
    match s.lookup (s.coreCluster who.core) who.task g with
    | .miss => .miss s
    | .notValid => .fail (.pgf 0)
    | .leaf l large =>
      match checkLeaf l who nd with
      | some f => .fail f
      | none =>
        if lfDSC l then .loc .zeros s
        else .loc (.mem (lfAddr l large g) (s.homeOf who.task l g) true l) (s.noteMask who.task l)

/-! ### The page events and the miss mailbox -/

/-- The page-event word of a thread's access (R348). -/
def pageWord (who : Who) (kind why : Nat) : Word :=
  field who.task.toNat 32 ||| field who.core 16 ||| field kind 13 ||| field why 10

/-- The 64 KiB page of a GVA. -/
def pageOf (g : Nat) : Word := BitVec.ofNat 64 (g / 2 ^ 16 * 2 ^ 16)

/-- Drops the thread that issues with PGF, REV or WLK (R346-R348). -/
def State.pageEvent (cause : BitVec 8) (nd : Need) (why g : Nat) (s : State) : State :=
  (s.dropThr cause (pageOf g)).sendFlue s.thr.core cause (pageOf g) (pageWord s.me nd.kind why)

/-- Posts a miss to the core's mailbox; misses to one page of one task share an entry (R355). -/
def State.postMiss (s : State) (who : Who) (kind g : Nat) : Option (Nat × State) :=
  let c := s.core who.core
  match c.mbox.find? fun e => e.task == who.task && e.page == g / 2 ^ 16 with
  | some e => some (e.idx, s)
  | none =>
    match freshFrom (c.mbox.map (·.idx)) 0 16 with
    | none => none
    | some i =>
      some (i, s.setCore who.core fun c =>
        { c with mbox := c.mbox ++ [⟨i, who.task, !who.lvlH, kind, g / 2 ^ 16, false, false, false⟩] })

/-- Posts the miss of an access that no thread waits for; with every mailbox entry in use it waits at the port (R355). -/
def State.askPage (asker : Asker) (m : PortWalk) (s : State) : State :=
  match s.postMiss ⟨m.core, m.task, m.lvlH⟩ m.kind (m.page * 2 ^ 16) with
  | none => s
  | some (i, s) =>
    let same (a : Asker × PortWalk) : Bool := a.1 == asker && a.2.core == m.core && a.2.task == m.task && a.2.page == m.page
    { s with asks := (s.asks.filter fun a => !same a) ++ [(asker, { m with idx := i, why := none })] }

/-- Why the walk of a page that this access waited for was refused, if it was (R356, R374). -/
def State.refusal (s : State) (asker : Asker) (core : Nat) (task : BitVec 16) (g : Nat) : Option Nat :=
  (s.asks.find? fun a => a.1 == asker && a.2.core == core && a.2.task == task && a.2.page == g / 2 ^ 16 && a.2.why.isSome).bind (·.2.why)

/-- Nobody waits for the page: it is walked for a `pfch` (R162). -/
def Asker.isPrefetch : Asker → Bool
  | .prefetch .. => true
  | _ => false

/-- The access waits for a core's mailbox entry. -/
def PortWalk.waits (core idx : Nat) (m : PortWalk) : Bool := m.core == core && m.idx == idx && m.why.isNone

/-- Tells those that wait for a mailbox entry: the leaf is in the TLB, or the walk is refused (R356, R374), which ends a `pfch`. -/
def State.answerAsks (core idx : Nat) (why : Option Nat) (s : State) : State :=
  { s with
    asks := match why with
      | none => s.asks.filter fun a => !a.2.waits core idx
      | some _ => s.asks.filterMap fun a =>
          if !a.2.waits core idx then some a else if a.1.isPrefetch then none else some (a.1, { a.2 with why := why }) }

/-- The state as a step that is tried on behalf of `asker` sees it. -/
def State.asTried (asker : Asker) (s : State) : State := { s with trying := some (asker, []) }

/-- A step on no thread's behalf (R355): it happens; or a page misses the TLB: then nothing of it happens, its misses are posted,
and it is tried again. A refusal is answered once: a port caches no absence (R356). -/
def State.tryPort (asker : Asker) (f : State → State) (s : State) : Except State State :=
  let u := f (s.asTried asker)
  match u.trying.map (·.2) with
  | some (m :: l) => .error ((m :: l).foldl (fun s m => s.askPage asker m) s)
  | _ => .ok { u with trying := s.trying, asks := u.asks.filter fun a => !(a.1 == asker && a.2.why.isSome) }

/-- The state after a step through a port, done or given up. -/
def State.atPort (asker : Asker) (f : State → State) (s : State) : State :=
  match s.tryPort asker f with
  | .ok u => u
  | .error u => u

/-- The state that an ending goes on with. -/
def Eff.state? : Eff → Option State
  | .done s | .jump s _ | .again s | .stay s => some s
  | _ => none

/-- Changes the state that an ending goes on with. -/
def Eff.mapState (f : State → State) : Eff → Eff
  | .done s => .done (f s)
  | .jump s pc => .jump (f s) pc
  | .again s => .again (f s)
  | .stay s => .stay (f s)
  | e => e

/-- An instruction that reaches context records through cluster ports (R77, R355): it goes on, or a page misses the TLB: then nothing of
it happens, its misses are posted, and it waits for their walks with its turns lent. -/
def withRecords (s : State) (k : State → Eff) : Eff :=
  let asker := Asker.thread s.thr.core s.thr.ctx.cxa
  let e := k (s.asTried asker)
  match ((e.state?).bind (·.trying)).map (·.2) with
  | some (m :: l) => .again (((m :: l).foldl (fun s m => s.askPage asker m) s).standFor (.pages asker))
  | _ => e.mapState fun u => { u with trying := s.trying, asks := u.asks.filter fun a => !(a.1 == asker && a.2.why.isSome) }

/-- Notes a page that the step being tried has missed. -/
def State.noteMiss (m : PortWalk) (s : State) : State :=
  { s with trying := s.trying.map fun t => (t.1, t.2 ++ [m]) }

/-- What a page's refusal does to the thread that issues. -/
def pageFails (f : PageFail) (nd : Need) (ea : Word) (g : Nat) (s : State) : Eff :=
  match f with
  | .seg => .trap tSEG 0#8 ea
  | .pgf why => .again (s.pageEvent (if why = 5 then cWLK else cPGF) nd why g)
  | .rev => .again (s.pageEvent cREV nd 6 g)

/-- The thread waits for a walk, or for a free mailbox entry (R355). -/
def walkWait (nd : Need) (g : Nat) (s : State) : Eff :=
  match s.postMiss s.me nd.kind g with
  | some (i, s) =>
    .again ((s.mapRes fun r => { r with walk := some { kind := nd.kind, write := nd.write, fetch := nd.x, gva := g } }).lend (.walk i))
  | none => .lend .mbox

/-- R141 steps 1 to 3 for the thread that issues: the GVA of an access of `n` bytes. A thread whose task's set is not
cached waits for it (R140). -/
def withGva (nd : Need) (ea : Word) (n align : Nat) (s : State) (k : Nat → Eff) : Eff :=
  match s.cachedSet s.thr.core s.task with
  | none => .again (s.lend .segset)
  | some ts =>
    if ea.toNat % align ≠ 0 then .trap tALN 0#8 ea
    else match ts.gva nd ea n with
      | none => .trap tSEG 0#8 ea
      | some g => k g

/-- The place is storage in a page. -/
def Loc.isPaged : Loc → Bool
  | .mem _ _ paged _ => paged
  | _ => false

/-- An instruction that parks on draught keeps its translations (R357). -/
def Eff.keep (h : Held) : Eff → Eff
  | .park (.draught d) => .hold (.draught d) [h]
  | .park .table => .hold .table [h]
  | .hold r l => .hold r (h :: l)
  | e => e

/-- The translation of a GVA that this instruction has kept over a wait on draught (R357). -/
def State.heldAt (s : State) (g : Nat) : Option Held := s.thr.res.held.find? fun h => h.gva == g && h.pc == s.pc

/-- Takes a kept translation into use: what is sent belongs to its generation (R357). -/
def State.useHeld (h : Held) (s : State) : State :=
  s.mapRes fun r => { r with held := dropFirst (fun e => e.gva == h.gva) r.held, asOf := some (h.port, h.gen) }

/-- The cluster port and the generation that a request of the thread that issues belongs to (R357). -/
def State.portGen (s : State) : Nat × BitVec 32 := s.thr.res.asOf.getD (s.myCluster, (s.cluster s.myCluster).tgen)

/-- From a GVA to its place for the thread that issues; a location that cannot be had ends the instruction. A DOWN peer
raises DEAD (R210): precisely on a blocking access, and a posted one goes on and is recorded (`soft`). -/
def withLoc (nd : Need) (ea : Word) (g n : Nat) (soft : Bool) (s : State) (k : Loc → State → Eff) : Eff :=
  match s.heldAt g with
  | some h => (k h.loc (s.useHeld h)).keep h
  | none =>
    match s.locate s.me nd g n with
    | .loc l s1 => (k l s1).keep ⟨s.pc, g, l, s.portGen.1, s.portGen.2⟩
    | .fail f => pageFails f nd ea g s
    | .miss s1 => walkWait nd g s1
    | .deadPeer p => if soft then k (.mem 0 (downHome p) false 0#64) s else .trap tPOI pDEAD ea

/-- A checked and translated access of `n` bytes that lies in one line. -/
def withPlace (nd : Need) (ea : Word) (n align : Nat) (soft : Bool) (s : State) (k : Loc → State → Eff) : Eff :=
  withGva nd ea n align s fun g => withLoc nd ea g n soft s k

/-- The lengths of the parts of `n` bytes at a GVA that lie within one 128-byte line each (R161). -/
def lineParts : Nat → Nat → Nat → List Nat
  | 0, _, _ => []
  | fuel + 1, g, n =>
    if n = 0 then [] else
      let k := min n (128 - g % 128)
      k :: lineParts fuel (g + k) (n - k)

/-- Every part of an access, each translated, before any of it happens (R161). The parts of one access in a peer window
or the host window lie in one region (R141 step 4). -/
def withParts (nd : Need) (ea : Word) (soft : Bool) : List Nat → Nat → State → (List (Loc × Nat) → State → Eff) → Eff
  | [], _, s, k => k [] s
  | n :: ns, g, s, k =>
    withLoc nd ea g n soft s fun l s => withParts nd ea soft ns (g + n) s fun ls s => k ((l, n) :: ls) s

/-- A checked and translated access of `n` bytes, in its line parts; all of it lies in one region (R141, R161). -/
def withAccess (nd : Need) (ea : Word) (n align : Nat) (soft : Bool) (s : State)
    (k : List (Loc × Nat) → State → Eff) : Eff :=
  withGva nd ea n align s fun g =>
    if s.area s.levelH nd g n = .none then .trap tSEG 0#8 ea
    else withParts nd ea soft (lineParts 40 g n) g s k

end Sys2Proof.Machine
end

