-- ==== Sys2Proof/Machine/Integer.lean ====
section
/-! DEFINITION. The integer and address instructions (R107-R123), and the special registers (R32, R120-R122). -/

namespace Sys2Proof.Machine

open Config

/-- The result of an integer operation, wrapped and extended (R107). -/
def wrapTo (t : Ty) (r : Int) : Word := extend t.width t.signed (r % (2 ^ t.width : Nat)).toNat

/-- An instruction of two sources and one fixed-latency result, each read at the type (R107, R111). -/
def intOp (lat : Nat) (f : Int → Int → Int) (t : Ty) (x : Args) (s : State) : Host.Outcome State Fault Refusal :=
  issue x.h (fun s =>
    withSrc x.b s fun b s => withSrc x.c s fun c s =>
      withDest x.a s (.done (s.writeFixed x.a.rix
        (wrapTo t (f (t.intVal (x.b.atInt t.width b)) (t.intVal (x.c.atInt t.width c)))) lat x.h))) s

/-- The same on the patterns of the two sources. -/
def bitOp (f : Nat → Nat → Nat → Nat) (t : Ty) (x : Args) (s : State) : Host.Outcome State Fault Refusal :=
  issue x.h (fun s =>
    withSrc x.b s fun b s => withSrc x.c s fun c s =>
      withDest x.a s (.done (s.writeFixed x.a.rix
        (extend t.width t.signed (f t.width (x.b.atInt t.width b) (x.c.atInt t.width c))) 4 x.h))) s

/-- `add` (R112). -/
def execAdd (t : Ty) (x : Args) (s : State) : Host.Outcome State Fault Refusal := intOp 4 (fun a b => a + b) t x s

/-- `sub` (R112). -/
def execSub (t : Ty) (x : Args) (s : State) : Host.Outcome State Fault Refusal := intOp 4 (fun a b => a - b) t x s

/-- `mul` (R112). -/
def execMul (t : Ty) (x : Args) (s : State) : Host.Outcome State Fault Refusal := intOp 10 (fun a b => a * b) t x s

/-- `mulh`: the upper half of the exact product (R112). -/
def execMulh (t : Ty) (x : Args) (s : State) : Host.Outcome State Fault Refusal :=
  intOp 10 (fun a b => a * b / (2 ^ t.width : Nat)) t x s

/-- `div` and `rem`: ARI on a zero divisor, raised before the destination is waited for (DESIGN CHOICE, log 57); the quotient
truncates toward zero (R114). -/
def divOp (f : Int → Int → Int) (t : Ty) (x : Args) (s : State) : Host.Outcome State Fault Refusal :=
  issue x.h (fun s =>
    withSrc x.b s fun b s => withSrc x.c s fun c s =>
      let n := t.intVal (x.b.atInt t.width b)
      let d := t.intVal (x.c.atInt t.width c)
      if d = 0 then .trap tARI 0#8 0#64
      else withDest x.a s (.done (s.writeFixed x.a.rix (wrapTo t (f n d)) 40 x.h))) s

/-- `div` (R114). -/
def execDiv (t : Ty) (x : Args) (s : State) : Host.Outcome State Fault Refusal := divOp Int.tdiv t x s

/-- `rem` (R114). -/
def execRem (t : Ty) (x : Args) (s : State) : Host.Outcome State Fault Refusal := divOp Int.tmod t x s

/-- `and` (R112). -/
def execAnd (t : Ty) (x : Args) (s : State) : Host.Outcome State Fault Refusal := bitOp (fun _ a b => a &&& b) t x s

/-- `or` (R112). -/
def execOr (t : Ty) (x : Args) (s : State) : Host.Outcome State Fault Refusal := bitOp (fun _ a b => a ||| b) t x s

/-- `xor` (R112). -/
def execXor (t : Ty) (x : Args) (s : State) : Host.Outcome State Fault Refusal := bitOp (fun _ a b => a ^^^ b) t x s

/-- `andn` (R112). -/
def execAndn (t : Ty) (x : Args) (s : State) : Host.Outcome State Fault Refusal :=
  bitOp (fun w a b => a &&& (2 ^ w - 1 - b)) t x s

/-- `min` (R112). -/
def execMin (t : Ty) (x : Args) (s : State) : Host.Outcome State Fault Refusal := intOp 4 (fun a b => min a b) t x s

/-- `max` (R112). -/
def execMax (t : Ty) (x : Args) (s : State) : Host.Outcome State Fault Refusal := intOp 4 (fun a b => max a b) t x s

/-- A shift of the W-bit pattern by the C operand read as 64 bits, unsigned (R115). -/
def shiftOp (f : Nat → Nat → Nat → Nat) (t : Ty) (x : Args) (s : State) : Host.Outcome State Fault Refusal :=
  issue x.h (fun s =>
    withSrc x.b s fun b s => withSrc x.c s fun c s =>
      withDest x.a s (.done (s.writeFixed x.a.rix
        (extend t.width t.signed (f t.width (x.b.atInt t.width b) c.toNat)) 4 x.h))) s

/-- A left shift (R115). -/
def shlBits (w a k : Nat) : Nat := if k < w then a * 2 ^ k % 2 ^ w else 0

/-- A right shift with zeros (R115). -/
def shrBits (w a k : Nat) : Nat := if k < w then a / 2 ^ k else 0

/-- A right shift with copies of the top bit (R115). -/
def sarBits (w a k : Nat) : Nat := ((sintOf w a / 2 ^ (min k w)) % (2 ^ w : Nat)).toNat

/-- A rotation to the right (R115). -/
def rotBits (w a k : Nat) : Nat := a / 2 ^ (k % w) + a * 2 ^ (w - k % w) % 2 ^ w

/-- `shl` (R115). -/
def execShl (t : Ty) (x : Args) (s : State) : Host.Outcome State Fault Refusal := shiftOp shlBits t x s

/-- `shr` (R115). -/
def execShr (t : Ty) (x : Args) (s : State) : Host.Outcome State Fault Refusal := shiftOp shrBits t x s

/-- `sar` (R115). -/
def execSar (t : Ty) (x : Args) (s : State) : Host.Outcome State Fault Refusal := shiftOp sarBits t x s

/-- `rot` (R115). -/
def execRot (t : Ty) (x : Args) (s : State) : Host.Outcome State Fault Refusal := shiftOp rotBits t x s

/-- An instruction of one source; the value written is given whole. -/
def unaryOp (f : Ty → Nat → Word) (t : Ty) (x : Args) (s : State) : Host.Outcome State Fault Refusal :=
  issue x.h (fun s =>
    withSrc x.b s fun b s => withDest x.a s (.done (s.writeFixed x.a.rix (f t (x.b.atInt t.width b)) 4 x.h))) s

/-- Leading zeros of a W-bit pattern (R116). -/
def clzBits (w a : Nat) : Nat := if a = 0 then w else w - 1 - Nat.log2 a

/-- Trailing zeros among the low bits (R116). -/
def ctzBits (w a : Nat) : Nat := ((List.range w).find? fun k => a.testBit k).getD w

/-- One bits (R116). -/
def popBits (w a : Nat) : Nat := (List.range w).countP fun k => a.testBit k

/-- `clz` (R116). -/
def execClz (t : Ty) (x : Args) (s : State) : Host.Outcome State Fault Refusal :=
  unaryOp (fun t a => BitVec.ofNat 64 (clzBits t.width a)) t x s

/-- `ctz` (R116). -/
def execCtz (t : Ty) (x : Args) (s : State) : Host.Outcome State Fault Refusal :=
  unaryOp (fun t a => BitVec.ofNat 64 (ctzBits t.width a)) t x s

/-- `popc` (R116). -/
def execPopc (t : Ty) (x : Args) (s : State) : Host.Outcome State Fault Refusal :=
  unaryOp (fun t a => BitVec.ofNat 64 (popBits t.width a)) t x s

/-- `bswap`: the bytes in reverse order (R116). -/
def execBswap (t : Ty) (x : Args) (s : State) : Host.Outcome State Fault Refusal :=
  unaryOp (fun t a => extend t.width t.signed (leNat (leBytes (t.width / 8) a).reverse)) t x s

/-- The effective length of the field a control value names (R117). -/
def fieldLen (c : Nat) : Nat := min (bits c 6 7) (64 - bits c 0 6)

/-- The mask of the field a control value names (R117). -/
def fieldMask (c : Nat) : Nat := (2 ^ fieldLen c - 1) * 2 ^ bits c 0 6

/-- `bext` (R117). -/
def execBext (t : Ty) (x : Args) (s : State) : Host.Outcome State Fault Refusal :=
  issue x.h (fun s =>
    withSrc x.b s fun b s => withSrc x.c s fun c s =>
      let l := fieldLen c.toNat
      let f := (x.b.atInt 64 b &&& fieldMask c.toNat) / 2 ^ bits c.toNat 0 6
      let v := if t.signed && decide (l ≠ 0) then extend l true f else BitVec.ofNat 64 f
      withDest x.a s (.done (s.writeFixed x.a.rix v 4 x.h))) s

/-- `bins`: A is read and written (R117). -/
def execBins (_t : Ty) (x : Args) (s : State) : Host.Outcome State Fault Refusal :=
  issue x.h (fun s =>
    withSrc x.a s fun a s => withSrc x.b s fun b s => withSrc x.c s fun c s =>
      let m := fieldMask c.toNat
      let v := (a.toNat &&& (2 ^ 64 - 1 - m)) ||| (x.b.atInt 64 b * 2 ^ bits c.toNat 0 6 &&& m)
      .done (s.writeFixed x.a.rix (BitVec.ofNat 64 v) 4 x.h)) s

/-- The type a control immediate names (R118). -/
def srcTy (o : Opnd) : Ty := (Ty.ofCode (bits o.immW.toNat 0 4)).getD .i64

/-- A value held to the range of a type (R118). -/
def clampTo (t : Ty) (v : Int) : Word := wrapTo t (max (minInt t.width t.signed) (min (maxInt t.width t.signed) v))

/-- `cvi`: B is read at the source type, NEG included, and saturated to the destination type (R118). -/
def execCvi (t : Ty) (x : Args) (s : State) : Host.Outcome State Fault Refusal :=
  issue x.h (fun s =>
    withSrc x.b s fun b s =>
      let q := srcTy x.c
      withDest x.a s (.done (s.writeFixed x.a.rix (clampTo t (q.intVal (x.b.atInt q.width b))) 4 x.h))) s

/-- `mov` (R119). -/
def execMov (t : Ty) (x : Args) (s : State) : Host.Outcome State Fault Refusal :=
  unaryOp (fun t a => extend t.width t.signed a) t x s

/-- `movl` (R119). -/
def execMovl (x : Args) (s : State) : Host.Outcome State Fault Refusal :=
  issue x.h (fun s => withDest x.a s (.done (s.writeFixed x.a.rix x.b.immW 4 x.h))) s

/-- `mad`: A is read and written (R113). -/
def execMad (t : Ty) (x : Args) (s : State) : Host.Outcome State Fault Refusal :=
  issue x.h (fun s =>
    withSrc x.a s fun a s => withSrc x.b s fun b s => withSrc x.c s fun c s =>
      let r := t.intVal a.toNat + t.intVal (x.b.atInt t.width b) * t.intVal (x.c.atInt t.width c)
      .done (s.writeFixed x.a.rix (wrapTo t r) 10 x.h)) s

/-! ### Special registers -/

/-- INS: non-empty, full and notice-thread bits of the channels (R91). -/
def State.insWord (s : State) : Word :=
  let c := s.core s.thr.core
  let m (p : Nat → Bool) : Nat := maskOf ((List.range 8).filter p)
  BitVec.ofNat 64 (m (fun k => decide (c.ibCount k ≠ 0)) + 2 ^ 8 * m (fun k => decide (c.ibEntries ≤ c.ibCount k))
    + 2 ^ 16 * m fun k => (c.notice.getD k none).isSome)

/-- A resource is a draught wait list (R87). -/
def Resource.isDraught : Resource → Bool
  | .draught _ | .drain _ | .table | .attach _ | .room _ _ => true
  | _ => false

/-- The thread is parked on a draught wait list. -/
def Thread.onDraught (t : Thread) : Bool :=
  match t.wait with
  | .on r => r.isDraught
  | _ => false

/-- DRS: waiting threads, entries with a low allowance, entries with none (R88). -/
def State.drsWord (s : State) : Word :=
  let c := s.core s.thr.core
  field ((s.attached s.thr.core).countP Thread.onDraught) 16
    ||| field (c.draught.countP fun e => decide (e.ceil - e.out < 4)) 8
    ||| field (c.draught.countP fun e => decide (e.ceil - e.out = 0)) 0

/-- A special register as `mvs` reads it (R32, R120). -/
def State.spec (s : State) (i : Nat) : Word :=
  let c := s.thr.ctx
  match i with
  | 0x00 => c.st
  | 0x01 => c.pc
  | 0x02 => c.cxa
  | 0x03 => c.tix
  | 0x04 => c.pop
  | 0x05 => BitVec.ofNat 64 s.thr.core
  | 0x06 => BitVec.ofNat 64 s.myCluster
  | 0x07 => BitVec.ofNat 64 (s.coreDie s.thr.core)
  | 0x08 => s.now s.thr.core
  | 0x09 => c.slen
  | 0x0A => c.sstr
  | 0x0B => c.trc
  | 0x0C => c.tra
  | 0x0D => c.trd
  | 0x0E => s.tvec
  | 0x0F => s.insWord
  | 0x10 => s.drsWord
  | _ => (s.core s.thr.core).dscrd

/-- The special register an operand names. -/
def specOf (o : Opnd) : Nat :=
  match o with
  | .spec i => i.toNat
  | _ => 0

/-- `mvs`: before it reads ST, every earlier fixed-latency result has been written back (R121, R128). -/
def execMvs (x : Args) (s : State) : Host.Outcome State Fault Refusal :=
  issue x.h (fun s =>
    let go := withDest x.a s (.done (s.writeFixed x.a.rix (s.spec (specOf x.b)) 4 x.h))
    if specOf x.b = 0 then withAllFixed s go else go) s

/-- The bits of ST that `msv` writes: CHK, the flags and RM (R53, R120). -/
def stWritable : Word := 0x3FC#64

/-- TVEC of the running thread's task, in the descriptor and in every cached set (R122, R353). -/
def State.setTvec (v : Word) (s : State) : State :=
  let s1 := s.writeWord (s.tskb.toNat + 256 * s.task.toNat + 8) v
  let upd (e : TaskSet) : TaskSet := if e.task == s.task then { e with tvec := v } else e
  { s1 with cores := s1.cores.map fun p => (p.1, { p.2 with sets := p.2.sets.map upd }) }

/-- A special register written by `msv` (R120, R122). -/
def State.writeSpec (i : Nat) (v : Word) (s : State) : State :=
  match i with
  | 0x00 => s.setSt ((s.st &&& ~~~stWritable) ||| (v &&& stWritable))
  | 0x09 => s.mapCtx fun c => { c with slen := v &&& slenMask }
  | 0x0A => s.mapCtx fun c => { c with sstr := v &&& sstrMask }
  | 0x0B => s.mapCtx fun c => { c with trc := v &&& 0xFFFF#64 }
  | 0x0C => s.mapCtx fun c => { c with tra := v }
  | 0x0D => s.mapCtx fun c => { c with trd := v }
  | 0x0E => s.setTvec v
  | _ => s

/-- `msv`: every earlier fixed-latency result is waited for; TVEC at level U raises PRIV (R120, R122), after the source has been
waited for (DESIGN CHOICE, log 57). -/
def execMsv (x : Args) (s : State) : Host.Outcome State Fault Refusal :=
  issue x.h (fun s =>
    withAllFixed s (withSrc x.b s fun v s =>
      if specOf x.a = 0x0E && !s.levelH then .trap tPRIV 0#8 (illDetail 0x39#8 0 0)
      else .done (s.writeSpec (specOf x.a) v))) s

/-! ### Addresses -/

/-- `lea`: s := X[B] + C, from which the result comes (R123). -/
def leaOp (f : Word → Word → Word) (x : Args) (s : State) : Host.Outcome State Fault Refusal :=
  issue x.h (fun s =>
    withSrc x.b s fun b s => withSrc x.c s fun c s =>
      withDest x.a s (.done (s.writeFixed x.a.rix (f b (b + c)) 4 x.h))) s

/-- A segment number in front of an offset (R123). -/
def segJoin (n : Word) (off : Word) : Word := (n <<< 61) ||| (off &&& 0x1FFFFFFFFFFFFFFF#64)

/-- `lea.add` (R123). -/
def execLeaAdd (x : Args) (s : State) : Host.Outcome State Fault Refusal := leaOp (fun _ v => v) x s

/-- `lea.off` (R123). -/
def execLeaOff (x : Args) (s : State) : Host.Outcome State Fault Refusal := leaOp (fun b v => segJoin (b >>> 61) v) x s

/-- `lea.s0` to `lea.s7` (R123). -/
def execLeaSeg (n : BitVec 3) (x : Args) (s : State) : Host.Outcome State Fault Refusal :=
  leaOp (fun _ v => segJoin (n.setWidth 64) v) x s

/-- `lea.gva`: the GVA behind an address; SEG when the offset is at or above the limit, raised before the destination is waited
for (DESIGN CHOICE, log 57); rights are not checked (R123). -/
def execLeaGva (x : Args) (s : State) : Host.Outcome State Fault Refusal :=
  issue x.h (fun s =>
    withSrc x.b s fun b s => withSrc x.c s fun c s =>
      match s.cachedSet s.thr.core s.task with
      | none => .again (s.lend .segset)
      | some ts =>
        let v := b + c
        let (sgb, sgl) := ts.seg (bits v.toNat 61 3)
        let off := bits v.toNat 0 61
        if bits sgl.toNat 0 61 ≤ off then .trap tSEG 0#8 v
        else withDest x.a s (.done (s.writeFixed x.a.rix (BitVec.ofNat 64 ((bits sgb.toNat 0 56 + off) % 2 ^ 56)) 4 x.h))) s

end Sys2Proof.Machine
end

