-- ==== Sys2Proof/Machine/Scalar.lean ====
section
/-! DEFINITION. The scalar floating-point instructions (R124-R138). -/

namespace Sys2Proof.Machine

/-- The format of a floating-point type. -/
def fmtOf (t : Ty) : Fmt := t.fmt.getD fmtF64

/-- Latency of an operation by the widest type it names (R131). -/
def fltLatency (a b : Ty) : Nat := if a.width = 64 ∨ b.width = 64 then 12 else 8

/-- Writes a floating-point result, zero-extended, with its flags (R124, R128). -/
def State.writeFloat (r : BitVec 4) (v : Nat × FFlags) (lat : Nat) (h : Head) (s : State) : State :=
  s.writeFlagged r (BitVec.ofNat 64 v.1) lat v.2 h

/-- An arithmetic instruction of two sources (R132). -/
def fltOp (lat : Ty → Nat) (f : Fmt → RMode → Nat → Nat → Nat × FFlags) (t : Ty) (x : Args) (s : State) :
    Host.Outcome State Fault Refusal :=
  issue x.h (fun s =>
    withSrc x.b s fun b s => withSrc x.c s fun c s =>
      let m := fmtOf t
      withDest x.a s (.done (s.writeFloat x.a.rix (f m s.rm (x.b.atFloat m b) (x.c.atFloat m c)) (lat t) x.h))) s

/-- `fadd` (R132). -/
def execFadd (t : Ty) (x : Args) (s : State) : Host.Outcome State Fault Refusal := fltOp (fun t => fltLatency t t) Fmt.add t x s

/-- `fsub` (R132). -/
def execFsub (t : Ty) (x : Args) (s : State) : Host.Outcome State Fault Refusal := fltOp (fun t => fltLatency t t) Fmt.sub t x s

/-- `fmul` (R132). -/
def execFmul (t : Ty) (x : Args) (s : State) : Host.Outcome State Fault Refusal := fltOp (fun t => fltLatency t t) Fmt.mul t x s

/-- Latency of a division or a square root (R39, R131). -/
def divLatency (t : Ty) : Nat := if t.width = 64 then 40 else 24

/-- `fdiv` (R132). -/
def execFdiv (t : Ty) (x : Args) (s : State) : Host.Outcome State Fault Refusal := fltOp divLatency Fmt.div t x s

/-- `fmin` (R133). -/
def execFmin (t : Ty) (x : Args) (s : State) : Host.Outcome State Fault Refusal :=
  fltOp (fun t => fltLatency t t) (fun m _ a b => m.minmax false a b) t x s

/-- `fmax` (R133). -/
def execFmax (t : Ty) (x : Args) (s : State) : Host.Outcome State Fault Refusal :=
  fltOp (fun t => fltLatency t t) (fun m _ a b => m.minmax true a b) t x s

/-- `fma`: A is read and written (R132). -/
def execFma (t : Ty) (x : Args) (s : State) : Host.Outcome State Fault Refusal :=
  issue x.h (fun s =>
    withSrc x.a s fun a s => withSrc x.b s fun b s => withSrc x.c s fun c s =>
      let m := fmtOf t
      let r := m.fma s.rm (x.b.atFloat m b) (x.c.atFloat m c) (a.toNat % 2 ^ m.width)
      .done (s.writeFloat x.a.rix r (fltLatency t t) x.h)) s

/-- An instruction of one floating-point source. -/
def fltUnary (lat : Nat) (f : RMode → Nat → Nat × FFlags) (m : Fmt) (x : Args) (s : State) :
    Host.Outcome State Fault Refusal :=
  issue x.h (fun s =>
    withSrc x.b s fun b s => withDest x.a s (.done (s.writeFloat x.a.rix (f s.rm (x.b.atFloat m b)) lat x.h))) s

/-- `fsqrt` (R132). -/
def execFsqrt (t : Ty) (x : Args) (s : State) : Host.Outcome State Fault Refusal :=
  fltUnary (divLatency t) (fun rm a => (fmtOf t).sqrt rm a) (fmtOf t) x s

/-- The mode of a conversion between formats: narrow formats round to nearest even (R126, R134). -/
def cvtMode (dst : Fmt) (rm : RMode) : RMode := if dst.width < 32 then .rne else rm

/-- `fcvt` (R134). -/
def execFcvt (t : Ty) (x : Args) (s : State) : Host.Outcome State Fault Refusal :=
  let q := fmtOf (srcTy x.c)
  fltUnary (fltLatency t (srcTy x.c)) (fun rm a => fcvt q (fmtOf t) (cvtMode (fmtOf t) rm) a) q x s

/-- `fcvti` (R135). -/
def execFcvti (t : Ty) (x : Args) (s : State) : Host.Outcome State Fault Refusal :=
  let q := fmtOf (srcTy x.c)
  fltUnary (fltLatency t (srcTy x.c))
    (fun rm a =>
      let r := fToInt q t.width t.signed (if x.c.immW.getLsbD 4 then .rtz else rm) a
      ((wrapTo t r.1).toNat, r.2)) q x s

/-- `icvtf` (R136). -/
def execIcvtf (t : Ty) (x : Args) (s : State) : Host.Outcome State Fault Refusal :=
  issue x.h (fun s =>
    withSrc x.b s fun b s =>
      let q := srcTy x.c
      withDest x.a s (.done (s.writeFloat x.a.rix ((fmtOf t).ofInt s.rm (q.intVal (b.toNat % 2 ^ q.width)))
        (fltLatency t q) x.h))) s

/-- `frnd` (R137). -/
def execFrnd (t : Ty) (x : Args) (s : State) : Host.Outcome State Fault Refusal :=
  let c := x.c.immW.toNat
  fltUnary (fltLatency t t)
    (fun rm a => (fmtOf t).integral (if bits c 0 3 = 4 then rm else RMode.ofCode (bits c 0 3)) (bit c 3) a) (fmtOf t) x s

/-- `fcls` (R138). -/
def execFcls (t : Ty) (x : Args) (s : State) : Host.Outcome State Fault Refusal :=
  fltUnary (fltLatency t t) (fun _ a => (2 ^ (fmtOf t).classOf a, 0#5)) (fmtOf t) x s

end Sys2Proof.Machine
end

