-- ==== Sys2Proof/Machine/Image.lean ====
section
/-! DEFINITION. The context record as bytes (R71, R72), where a thread's record stands in storage (R71, R77), and changes
of a thread's image wherever it is (R80). -/

namespace Sys2Proof.Machine

open Config

/-- PEND (R72). -/
def Ctx.pend (c : Ctx) : Nat := c.stc.toNat * 2 ^ 32 + b2n c.rld * 2 ^ 16 + c.owe.toNat

/-- Bytes 0x00 to 0xDF of a context record (R71). -/
def Ctx.toBytes (c : Ctx) : List Byte :=
  (c.x.toList.map fun v => leBytes 8 v.toNat).flatten ++ leBytes 2 c.fe.toNat ++ [c.pred, BitVec.ofNat 8 (b2n c.wk + 2 * b2n c.pk)]
    ++ leBytes 4 0 ++ ([c.pc, c.st, c.cxa, c.tix, c.pop, c.slen, c.sstr, c.trc, c.tra, c.trd].map fun v => leBytes 8 v.toNat).flatten
    ++ leBytes 8 c.pend

/-- A word of a list of bytes. -/
def wordAt (bs : List Byte) (a : Nat) : Word := BitVec.ofNat 64 (leNat ((bs.drop a).take 8))

/-- A context from the bytes of its record; bit 0 of PRED is ignored, and reserved bits read zero (R5, R54, R71). -/
def Ctx.ofBytes (bs : List Byte) : Ctx :=
  let n (a k : Nat) : Nat := leNat ((bs.drop a).take k)
  { x := Vector.ofFn fun i => wordAt bs (8 * i.val)
    fe := BitVec.ofNat 16 (n 0x80 2), pred := BitVec.ofNat 8 (n 0x82 1) ||| 1#8, wk := bit (n 0x83 1) 0, pk := bit (n 0x83 1) 1
    pc := wordAt bs 0x88, st := wordAt bs 0x90 &&& stMask, cxa := wordAt bs 0x98, tix := wordAt bs 0xA0, pop := wordAt bs 0xA8
    slen := wordAt bs 0xB0 &&& slenMask, sstr := wordAt bs 0xB8 &&& sstrMask, trc := wordAt bs 0xC0 &&& 0xFFFF#64, tra := wordAt bs 0xC8, trd := wordAt bs 0xD0
    stc := BitVec.ofNat 16 (bits (n 0xD8 8) 32 16), rld := bit (n 0xD8 8) 16, owe := BitVec.ofNat 16 (bits (n 0xD8 8) 0 16) }

/-- Where a record stands in storage, with its home, when its page is mapped, present and a CTX page, or lies in task 0's
translation (R71, R77). A page that misses the TLB is walked in the same step (DESIGN CHOICE, log 15) but for the steps of
`atPort`, which post it (`reachRecord`) and learn here that its walk was refused. -/
def State.recordPlace (s : State) (core : Nat) (task : BitVec 16) (cxa : Word) : Option (Nat × Nat) :=
  let g := cxa.toNat
  if task = 0#16 then (if g < physEnd then some (g, home0 g) else none)
  else
    let found := match s.lookup (s.coreCluster core) task g with
      | .leaf l large => some (l, large)
      | _ => if (s.trying.bind fun t => s.refusal t.1 core task g).isSome then none else (s.walkTable task g).map (·.2)
    match found with
    | some (l, large) =>
      if decide (g < winBase) && lfV l && lfP l && lfCTX l then some (lfAddr l large g, s.homeOf task l g) else none
    | none => none

/-- The port is asked for a record's page, in a step that is tried (R77, R355). -/
def State.reachRecord (core : Nat) (task : BitVec 16) (cxa : Word) (write : Bool) (s : State) : State :=
  let g := cxa.toNat
  match s.trying with
  | some t =>
    if task = 0#16 ∨ winBase ≤ g then s
    else if s.lookup (s.coreCluster core) task g = .miss ∧ s.refusal t.1 core task g = none then
      s.noteMiss ⟨core, task, true, g / 2 ^ 16, b2n write, 0, none⟩
    else s
  | none => s

/-- Where a record stands in storage. -/
def State.recordAt (s : State) (core : Nat) (task : BitVec 16) (cxa : Word) : Option Nat := (s.recordPlace core task cxa).map (·.1)

/-- The record of a thread. -/
def State.recordOf (s : State) (t : Thread) : Option Nat := s.recordAt t.core (t.ctx.st.extractLsb' 16 16) t.ctx.cxa

/-- The record of a thread, where its home can write it (R404). -/
def State.recordHome (s : State) (t : Thread) : Option Nat :=
  ((s.recordPlace t.core (t.ctx.st.extractLsb' 16 16) t.ctx.cxa).filter fun p => !s.homeDead p.2).map (·.1)

/-- A resume state as a record holds it: zero, or non-zero words that only the G4 gives a meaning (R72). -/
def State.resumeBytes (s : State) (r : Resume) : List Byte :=
  if r = {} then List.replicate 32 0#8
  else ((List.range 4).map fun i => leBytes 8 (freeWord (s.serial + i) ||| 1#64).toNat).flatten

/-- Writes a thread's image to its record in storage. -/
def State.saveRecord (a : Nat) (t : Thread) (s : State) : State :=
  ({ s with serial := s.serial + 4 }).writeMem a (t.ctx.toBytes ++ s.resumeBytes t.res)

/-- The thread as its record in storage gives it: a resume state of zeros is an empty one (R72). -/
def State.loadRecord (a : Nat) (t : Thread) (s : State) : Thread :=
  { t with
    ctx := { Ctx.ofBytes (s.readMem a 0xE0) with cxa := t.ctx.cxa }
    res := if (s.readMem (a + 0xE0) 32).all (· == 0#8) then {} else t.res }

/-- A field of RFPWR: 0 ON, 1 RET, 2 OFF (R79). -/
def CoreSt.bank (c : CoreSt) (b : Nat) : Nat := bits c.rfpwr.toNat (2 * b) 2

/-- The line a thread holds or is filling. -/
def Thread.lineOf (t : Thread) : Option Nat :=
  match t.place with
  | .line n => some n
  | _ => t.fillTo

/-- An access to a line in RET brings its bank back to ON (R79). -/
def State.touchBank (core : Nat) (t : Thread) (s : State) : State :=
  match t.lineOf with
  | some n =>
    if (s.core core).bank (n / 16) = 1 then
      s.setCore core fun c => { c with rfpwr := c.rfpwr &&& ~~~field 3 (2 * (n / 16)) }
    else s
  | none => s

/-- A result reaches the image of the thread named (R79). -/
def State.touchImage (core : Nat) (cxa : Word) (s : State) : State :=
  match s.findThr core cxa with
  | some t => s.touchBank core t
  | none => s

/-- Changes the image of the thread named, wherever it is: in a line, in the ember cache, or in its record (R80); a record whose home has
halted keeps its bytes (R404, R413). -/
def State.updImage (core : Nat) (cxa : Word) (f : Thread → Thread) (s : State) : State :=
  match s.findOwed core cxa with
  | none => s
  | some t =>
    let out := decide (t.place = .record) && !t.raw && t.abroad == []
    let s := if out then s.reachRecord core (t.ctx.st.extractLsb' 16 16) cxa true else s
    match (if out then s.recordHome t else none) with
    | none => s.updThr core cxa f
    | some a =>
      let t1 := f (s.loadRecord a t)
      (s.updThr core cxa fun _ => t1).saveRecord a t1

end Sys2Proof.Machine
end

