-- ==== Sys2Proof/Machine/Packet.lean ====
section
/-! DEFINITION. Packets between devices (R206, R218, R219), the CRC of a link flit (R201), and sending on a scale-up
port (R196, R202). -/

namespace Sys2Proof.Machine

/-- An operation entry (R206). -/
structure POp where
  opc : Nat
  hop : Nat
  sub : Nat
  len : Nat
  off : Nat
  rsvd : Bool := false
  deriving DecidableEq, Repr

/-- An inter-device packet (R206); `rsvd`: a reserved bit is set. -/
structure Pkt where
  hver : Nat := 1
  nrt : Nat
  nop : Nat
  rt : List Nat
  nrb : Nat := 0
  hix : Nat := 0
  rb : List Nat := []
  resp : Bool := false
  score : Nat
  gen : Nat := 0
  win : Nat := 0
  rgt : Nat := 0
  nfl : Nat
  ctag : Nat := 0
  ops : List POp
  data : List Byte
  rsvd : Bool := false
  deriving DecidableEq, Repr

/-- Lengthens a list of bytes with zeros. -/
def padTo (n : Nat) (l : List Byte) : List Byte := l ++ List.replicate (n - l.length) 0#8

/-- Rounds a length up to a multiple of 8. -/
def up8 (n : Nat) : Nat := (n + 7) / 8 * 8

/-- A byte of a number. -/
def byteOf (n : Nat) : Byte := BitVec.ofNat 8 n

/-- The word of an operation entry. -/
def POp.word (o : POp) : Nat := o.opc * 2 ^ 56 + o.hop * 2 ^ 53 + o.sub * 2 ^ 48 + (o.len - 1) % 256 * 2 ^ 40 + o.off

/-- An operation entry from its word. -/
def POp.ofWord (w : Nat) : POp :=
  ⟨bits w 56 8, bits w 53 3, bits w 48 5, bits w 40 8 + 1, bits w 0 34, decide (bits w 34 6 ≠ 0)⟩

/-- The bytes of a packet, a whole number of 64-byte payloads. -/
def Pkt.toBytes (p : Pkt) : List Byte :=
  let hd := [byteOf (p.hver * 16), byteOf (p.nrt + 8 * p.nop)] ++ padTo 6 (p.rt.map byteOf) ++ [byteOf (p.nrb + 8 * p.hix)]
    ++ padTo 6 ((p.rb.take 6).map byteOf) ++ [byteOf (b2n p.resp)] ++ leBytes 2 p.score ++ [byteOf p.gen, byteOf p.win, byteOf p.rgt,
      byteOf p.nfl, 0#8, 0#8] ++ leBytes 8 p.ctag
  padTo (64 * p.nfl) (padTo 64 (hd ++ (p.ops.map fun o => leBytes 8 o.word).flatten) ++ p.data)

/-- A number from bytes of a packet. -/
def at' (bs : List Byte) (a n : Nat) : Nat := leNat ((bs.drop a).take n)

/-- A packet from its bytes (R206). -/
def Pkt.ofBytes (bs : List Byte) : Pkt :=
  let nop := bits (at' bs 1 1) 3 3
  let route (a : Nat) := (List.range 6).map fun i => at' bs (a + i) 1
  let ops := (List.range (min nop 4)).map fun i => POp.ofWord (at' bs (32 + 8 * i) 8)
  let nrt := bits (at' bs 1 1) 0 3
  let nrb := bits (at' bs 8 1) 0 3
  { hver := bits (at' bs 0 1) 4 4, nrt := nrt, nop := nop, rt := (route 2).take nrt
    nrb := nrb, hix := bits (at' bs 8 1) 3 3, rb := (route 9).take nrb, resp := bit (at' bs 15 1) 0
    score := bits (at' bs 16 2) 0 11, gen := at' bs 18 1, win := bits (at' bs 19 1) 0 6, rgt := bits (at' bs 20 1) 0 5
    nfl := at' bs 21 1, ctag := at' bs 24 8, ops := ops, data := bs.drop 64
    rsvd := decide (bits (at' bs 0 1) 0 4 ≠ 0) || decide (bits (at' bs 1 1) 6 2 ≠ 0) || decide (bits (at' bs 8 1) 6 2 ≠ 0)
      || decide (bits (at' bs 15 1) 1 7 ≠ 0) || decide (bits (at' bs 16 2) 11 5 ≠ 0) || decide (bits (at' bs 19 1) 6 2 ≠ 0)
      || decide (bits (at' bs 20 1) 5 3 ≠ 0) || decide (at' bs 22 2 ≠ 0) || decide (bits (at' bs 24 8) 52 12 ≠ 0)
      || (route 2).any (fun r => decide (16 ≤ r)) || (route 9).any (fun r => decide (16 ≤ r)) || ops.any (·.rsvd) }

/-- Bytes of request data of an operation (R219, R326, R339). -/
def POp.reqData (o : POp) : Nat :=
  match o.opc with
  | 0x01 => if 4 ≤ o.sub then 8 else 0
  | 0x02 => if o.sub = 2 ∨ o.sub = 3 then 0 else up8 o.len
  | 0x03 => up8 o.len
  | 0x04 => up8 (2 * o.len)
  | 0x08 => if o.sub = 2 ∨ o.sub = 3 then 0 else up8 o.len
  | 0x10 => up8 o.len
  | 0x11 | 0x12 => 0
  | _ => up8 o.len

/-- NFL of a packet with that many bytes of data (R219). -/
def nflOf (n : Nat) : Nat := 1 + ceilDiv n 64

/-- The CRC-32 of IEEE 802.3 over one byte (R201): reflected, polynomial 0x04C1_1DB7. -/
def crcByte (c : BitVec 32) (b : Byte) : BitVec 32 :=
  (List.range 8).foldl (fun c _ => if c.getLsbD 0 then (c >>> 1) ^^^ 0xEDB88320#32 else c >>> 1) (c ^^^ b.setWidth 32)

/-- The CRC-32 of a list of bytes. -/
def crc32 (bs : List Byte) : BitVec 32 := ~~~(bs.foldl crcByte 0xFFFFFFFF#32)

/-- The 72 bytes of a link flit (R201): LHDR, the payload, and the CRC over both. -/
def LinkTx.bytes (f : LinkTx) : List Byte :=
  let b := leBytes 4 (f.ltype * 2 ^ 28 + f.lseq * 2 ^ 16 + f.lack * 2 ^ 4 + f.nwid.toNat * 4) ++ padTo 64 (f.payload.take 64)
  b ++ leBytes 4 (crc32 b).toNat

/-- A port sends a link flit at its width, with the LSEQ of the last DATA flit it took in order as LACK (R201-R203). -/
def Port.tx (ltype lseq : Nat) (nwid : BitVec 2) (payload : List Byte) (p : Port) : Port :=
  { p with sent := p.sent ++ [⟨p.cwid, ltype, lseq, (p.want + 4095) % 4096, nwid, payload⟩] }

/-- Moves flits from the transmit queue to the link while the replay buffer has room and the port is UP; while it is full, IDLE
goes (R202). -/
def Port.pump : Nat → Port → Port
  | 0, p => p
  | fuel + 1, p =>
    match p.txq with
    | [] => p
    | f :: q =>
      if p.st ≠ 2#3 then p
      else if 1024 ≤ p.replay.length then p.tx 1 p.lseq p.cwid []
      else
        Port.pump fuel
          { (p.tx 0 p.lseq p.cwid f.bytes) with txq := q, replay := p.replay ++ [(p.lseq, f)], lseq := (p.lseq + 1) % 4096 }

/-- RETRY with this port's LACK (R202). -/
def Port.sendRetry (p : Port) : Port := p.tx 2 p.lseq p.cwid []

/-- What the replay buffer holds goes again, in order (R202). -/
def Port.resend (p : Port) : Port := p.replay.foldl (fun p e => p.tx 0 e.1 p.cwid e.2.bytes) p

/-- A port that is UP announces a new width in the last flit at the old one, here an IDLE, and sends what follows at the new
one (R203). -/
def Port.takeWidth (w : BitVec 2) (p : Port) : Port :=
  if w = p.cwid then p else { (if p.st = 2#3 then p.tx 1 p.lseq w [] else p) with cwid := w }

/-- The DATA flits of a packet of `n` flits (R206): its last names the core whose draught entry it acknowledges, and keeps
the packet's header. -/
def flitsOf (core : Option Nat) (header : List Byte) : Nat → List Byte → List LinkFlit
  | 0, _ => []
  | n + 1, bs =>
    ⟨bs.take 64, if n = 0 then core else none, if n = 0 then some header else none⟩ :: flitsOf core header n (bs.drop 64)

/-- Sends a packet on a port. -/
def State.sendPkt (port : Nat) (core : Option Nat) (p : Pkt) (s : State) : State :=
  s.setPort port fun q =>
    let q := { q with txq := q.txq ++ flitsOf core (p.toBytes.take 64) p.nfl p.toBytes }
    q.pump q.txq.length

/-- The packet of a request to a window of a peer (R218): one operation with its data. -/
def State.request (s : State) (core : Nat) (ctag p w opc sub len off : Nat) (data : List Byte) : Pkt :=
  let e := s.peer1 p
  let n := p1Nrt e
  let rgt := bits (s.peer2 p w).1.toNat 56 5
  { nrt := n - 1, nop := 1, rt := (List.range (n - 1)).map fun i => p1Route e (i + 1)
    score := core, gen := p1Gen e, win := w, rgt := rgt, nfl := nflOf data.length, ctag := ctag
    ops := [⟨opc, n, sub, len, off, false⟩], data := data }

/-- An answer to a packet at this device, on the reversed return route (R207, R218): the port and the packet. -/
def Pkt.answer (p : Pkt) (o : POp) (opc sub : Nat) (data : List Byte) : Nat × Pkt :=
  let back := p.rb.reverse
  (back.headD 0 % 16,
    { nrt := back.length - 1, nop := 1, rt := back.drop 1, resp := true, score := p.score, win := p.win
      nfl := nflOf data.length, ctag := p.ctag, ops := [⟨opc, back.length, sub, o.len, o.off, false⟩], data := data })

/-- CTAG of a blocking request: CXA bits 55:8 and the destination register (R206, R218). -/
def ctagOf (cxa : Word) (r : BitVec 4) : Nat := bits cxa.toNat 8 48 + 2 ^ 48 * r.toNat

end Sys2Proof.Machine
end

