-- ==== Sys2Proof/Machine/Home.lean ====
section
/-! DEFINITION. Draught (R87, R194-R196), caches (R148, R149, R170), performance at the home (R151, R152, R166-R168,
R184, R186), replies (R80, R211), posting (R153, R156), and what a release waits for (R172, R173). -/

namespace Sys2Proof.Machine

open Config

/-! ### Draught -/

/-- An allowance (R194). -/
def DEntry.allowance (e : DEntry) : Nat := e.ceil - e.out

/-- The allowance of a destination; one without an entry reads 16 (R106). -/
def CoreSt.allowance (c : CoreSt) (dn : Nat) : Nat :=
  match c.draught.find? fun e => e.dn == dn with
  | some e => e.allowance
  | none => 16

/-- Charges one packet to a destination's entry, which becomes the most recently used; `none` when its allowance is 0, or
no entry is free and none can be reused (R87, R194). -/
def CoreSt.charge (dn : Nat) (c : CoreSt) : Option CoreSt :=
  match c.draught.find? fun e => e.dn == dn with
  | some e =>
    if e.allowance = 0 then none
    else some { c with draught := (c.draught.filter fun e => e.dn != dn) ++ [{ e with out := e.out + 1 }] }
  | none =>
    if c.draught.length < 64 then some { c with draught := c.draught ++ [⟨dn, 1, 16⟩] }
    else if c.draught.any fun e => e.allowance == 16 then
      some { c with draught := dropFirst (fun e => e.allowance == 16) c.draught ++ [⟨dn, 1, 16⟩] }
    else none

/-- The ceiling a pressure level grants (R195). -/
def ceilOf (level : Nat) : Nat :=
  match level with
  | 0 => 16 | 1 => 8 | 2 => 4 | _ => 1

/-- An acknowledgment at a level: OUT falls; CEIL takes a lower ceiling at once, else rises by 1 up to it (R195). -/
def DEntry.ack (level : Nat) (e : DEntry) : DEntry :=
  let g := ceilOf level
  { e with out := e.out - 1, ceil := if g < e.ceil then g else min (e.ceil + 1) g }

/-- An acknowledgment to a core's entry. -/
def CoreSt.ack (dn level : Nat) (c : CoreSt) : CoreSt :=
  { c with draught := mapFirst (fun e => e.dn == dn) (DEntry.ack level) c.draught }

/-- Requests in the input queue of a home: those that have arrived and are not started (R195). -/
def State.homeQueue (s : State) (h : Nat) : Nat :=
  (s.flight.countP fun r => r.home == h && r.stage == 2) + s.drifts.countP fun d => d.dst == h && d.stage == 2

/-- The pressure level of a destination (R195): its ingress fill out of 1,152. -/
def State.level (s : State) (h : Nat) : Nat :=
  let f := (s.core h).reorder.length + s.homeQueue h
  if f < 576 then 0 else if f < 864 then 1 else if f < 1008 then 2 else 3

/-- The draught destination of a packet to a home (R196): none for the core itself and for the host port. -/
def chargeDn (core home : Nat) : Option Nat :=
  if home = core then none else if home < nCores then some home
  else if 5000 ≤ home ∧ home < 5016 then some (0x800 + (home - 5000)) else none

/-- The line in which a wait for a resource stands: `drn` waits in line with its destination's draught waits (R216). -/
def Resource.line (r : Resource) : Resource :=
  match r with
  | .drain dn => .draught dn
  | r => r

/-- A thread stands in the line of a resource. -/
def Thread.inLine (r : Resource) (t : Thread) : Bool := t.waitOn.any fun q => q.line == r.line

/-- Waiters of the thread's core that stand in line for a resource before the thread (R84). -/
def State.aheadOf (s : State) (r : Resource) : Nat :=
  s.pool.countP fun t => t.core == s.thr.core && t.inLine r && (!s.thr.inLine r || decide (t.stamp < s.thr.stamp))

/-- Entries of a core's draught table that a new destination can have: free ones, and those whose allowance is back at 16 (R87). -/
def CoreSt.tableRoom (c : CoreSt) : Nat := (64 - c.draught.length) + c.draught.countP fun e => e.allowance == 16

/-- Charges a destination for the thread that issues; else the line it parks in: that of its entry, or for a new destination
the core-wide list of the table, first in, first out (R84, R87). -/
def State.takeDraught (dn : Nat) (s : State) : Except Resource State :=
  let c := s.core s.thr.core
  let r : Resource := if c.draught.any fun e => e.dn == dn then .draught dn else .table
  if s.aheadOf r < (if r = .table then c.tableRoom else c.allowance dn) then
    match c.charge dn with
    | some c => .ok { s with cores := put s.thr.core c s.cores }
    | none => .error r
  else .error r

/-- Charges a destination, or parks. -/
def withDraught (dn : Nat) (s : State) (k : State → Eff) : Eff :=
  match s.takeDraught dn with
  | .ok s => k s
  | .error r => .park r

/-- Charges the packet of an access to a home. -/
def withCharge (home : Nat) (s : State) (k : State → Eff) : Eff :=
  match chargeDn s.thr.core home with
  | none => k s
  | some dn => withDraught dn s k

/-- The acknowledgment of a packet that a core sent to a home is on its way, at a level (R195). -/
def State.ackWith (src home level : Nat) (s : State) : State :=
  match chargeDn src home with
  | some dn => { s with acks := s.acks ++ [⟨src, dn, level⟩] }
  | none => s

/-- The acknowledgment at the home's level. -/
def State.ackTo (src home : Nat) (s : State) : State := s.ackWith src home (s.level home)

/-! ### Caches -/

/-- The effective policy of an access: the lesser of the page's ceiling and what CP asks for (R149). -/
def effPolicy (leaf : Word) (cp : BitVec 2) : Nat :=
  min (match lfCPC leaf with | 0 => 3 | 1 => 1 | _ => 0)
    (match cp.toNat with | 1 => 3 | 0 => 2 | 2 => 1 | _ => 0)

/-- Sets of a core's L2 slice: 16 ways of 128 bytes (R148). -/
def CoreSt.l2Sets (c : CoreSt) : Nat := max 1 (bits c.cmpart.toNat 4 4 * 32)

/-- An access of a home to a line of its L2 slice under a policy (R149): tags, ages and kept and dirty marks; the list
is in order of age. -/
def CoreSt.l2Access (a pol : Nat) (wr : Bool) (back : Backing) (c : CoreSt) : CoreSt :=
  let ln := a / 128
  match c.l2.find? fun e => e.addr == ln with
  | some e =>
    let e' := { e with kept := e.kept || pol == 3, dirty := e.dirty || wr, back := if wr && !e.dirty then back else e.back }
    if pol = 0 then { c with l2 := mapFirst (fun e => e.addr == ln) (fun _ => e') c.l2 }
    else { c with l2 := (c.l2.filter fun e => e.addr != ln) ++ [e'] }
  | none =>
    if pol < 2 then c
    else
      let inSet (e : L2Line) := e.addr % c.l2Sets == ln % c.l2Sets
      let l := if (c.l2.filter inSet).length < 16 then c.l2
        else if c.l2.any fun e => inSet e && !e.kept then dropFirst (fun e => inSet e && !e.kept) c.l2
        else dropFirst inSet c.l2
      { c with l2 := l ++ [⟨ln, pol == 3, wr, if wr then back else {}⟩] }

/-- What storage holds of a line, which a store is about to make dirty (R407). -/
def State.backing (a : Nat) (s : State) : Backing :=
  let ln := a / 128
  ⟨s.mem.filter fun c => c.1 / 128 == ln, s.empties.filter fun w => w / 16 == ln, s.poison.filter fun w => w / 16 == ln⟩

/-- A home's access to a line of paged space. -/
def State.touchL2 (home a pol : Nat) (wr : Bool) (s : State) : State := s.setCore home (CoreSt.l2Access a pol wr (s.backing a))

/-- The line of a core's near cache that holds an address. -/
def CoreSt.nearLine (c : CoreSt) (a : Nat) (insn : Bool) : Option NearLine :=
  c.near.find? fun e => e.addr == a / 128 && e.insn == insn

/-- Lines of the near cache (R145). -/
def CoreSt.nearRoom (c : CoreSt) : Nat := bits c.cmpart.toNat 8 4 * 512

/-- Brings a line into a core's near cache (R148, R149); a line with a poisoned word is read at its home each time (R157). -/
def State.nearFill (core a : Nat) (insn : Bool) (s : State) : State :=
  s.setCore core fun c =>
    if c.nearRoom = 0 || s.poisoned (a / 128 * 128) 128 then c
    else { c with near :=
      (if c.near.length < c.nearRoom then c.near else c.near.drop 1) ++ [⟨a / 128, s.readMem (a / 128 * 128) 128, insn⟩] }

/-- Drops the data lines of a core's near cache (R170). -/
def State.dropNear (core : Nat) (s : State) : State :=
  s.setCore core fun c => { c with near := c.near.filter (·.insn) }

/-! ### Replies -/

/-- Every register a reply writes. -/
def ReplyTo.regs : ReplyTo → List (BitVec 4)
  | .loadX r _ _ | .word r | .lowWord r _ | .atomic r _ _ _ => [r]
  | .loadM r n => (List.range n).map fun i => r + BitVec.ofNat 4 i
  | .fetch | .record | .nothing | .gone => []

/-- Sets FE bits full. -/
def Ctx.fillAll (l : List (BitVec 4)) (c : Ctx) : Ctx := l.foldl (fun c r => c.fill r) c

/-- Clears OWE bits. -/
def Ctx.clearOwe (l : List (BitVec 4)) (c : Ctx) : Ctx :=
  { c with owe := l.foldl (fun w r => w &&& ~~~BitVec.ofNat 16 (2 ^ r.toNat)) c.owe }

/-- Writes what a reply brings. -/
def ReplyTo.land (d : ReplyTo) (bs : List Byte) (t : Thread) : Thread :=
  match d with
  | .loadX r n sg => { t with ctx := t.ctx.writeX r (extend (8 * n) sg (leNat bs)) }
  | .word r => { t with ctx := t.ctx.writeX r (BitVec.ofNat 64 (leNat bs)) }
  | .lowWord r n => { t with ctx := t.ctx.writeX r (BitVec.ofNat 64 (leNat (bs.take n))) }
  | .loadM r n =>
    let w (c : Ctx) (i : Nat) : Ctx := c.writeX (r + BitVec.ofNat 4 i) (BitVec.ofNat 64 (leNat ((bs.drop (8 * i)).take 8)))
    { t with ctx := (List.range n).foldl w t.ctx }
  | .atomic r n fn v =>
    let old := leNat (bs.take n)
    let c := t.ctx.writeX r (BitVec.ofNat 64 old)
    { t with ctx := { c with st := c.st ||| ((amoValue fn old v.toNat).2.setWidth 64 <<< 4) } }
  | .fetch => { t with res := { t.res with fetched := bs } }
  | .record => { t with res := { t.res with record := some ((t.res.record.getD []) ++ bs) } }
  | .nothing | .gone => t

/-- A blocking access's destination is marked empty, and RLD and OWE are set (R39, R72). -/
def Thread.expect (d : ReplyTo) (ea : Word) (acq : Bool) (emptied : BitVec 16) (t : Thread) : Thread :=
  let c := d.regs.foldl (fun c r => c.drain r) t.ctx
  { t with
    ctx := { c with rld := true, owe := d.regs.foldl (fun w r => w ||| BitVec.ofNat 16 (2 ^ r.toNat)) c.owe }
    res := { t.res with reply := some ⟨d, ea, acq, emptied⟩ } }

/-- FE bits that the instruction has emptied since it issued. -/
def emptiedSince (s0 s : State) : BitVec 16 := s0.thr.ctx.fe &&& ~~~s.thr.ctx.fe

/-- The thread that issues waits for the reply of a blocking access (R83, R168); PC moves when it lands. -/
def State.awaitReply (d : ReplyTo) (ea : Word) (acq : Bool) (emptied : BitVec 16) (s : State) : State :=
  (s.mapThr fun t => { t.expect d ea acq emptied with parked := t.parked || d != .fetch }).waitFor .home

/-- A home of this device has performed a blocking access of the thread that issues: its answer is on its way (R80, R168). -/
def State.replyBy (d : ReplyTo) (ea : Word) (acq : Bool) (emptied : BitVec 16) (bs : List Byte) (s : State) : State :=
  let s1 := s.awaitReply d ea acq emptied
  { s1 with owed := s1.owed ++ [⟨s.thr.core, s.thr.ctx.cxa, .reply bs, 0#64, 0#5⟩] }

/-- A home has turned a blocking access of the thread that issues away: the NAK is on its way (R193, R211). -/
def State.nakBy (d : ReplyTo) (ea : Word) (acq : Bool) (emptied : BitVec 16) (reason : BitVec 8) (home : Nat) (s : State) : State :=
  let s1 := s.awaitReply d ea acq emptied
  { s1 with naks := s1.naks ++ [⟨s.thr.core, s.thr.ctx.cxa, false, reason, ea, false, .core home⟩] }

/-- Installs an image in place of its key's entry, else of the least recently used one (R294, R314). -/
def CoreSt.install (e : RecEntry) (c : CoreSt) : CoreSt :=
  let l := c.recs.filter fun f => !(f.task == e.task && f.gva == e.gva)
  { c with recs := (if l.length < 16 then l else l.drop 1) ++ [e] }

/-- The bytes of a record read from a peer or the host: once all have arrived, the image is installed, unless its entry has been
invalidated meanwhile (R294, R314). -/
def State.landRecord (core : Nat) (cxa : Word) (s : State) : State :=
  match s.findOwed core cxa with
  | none => s
  | some t =>
    match t.res.record, t.res.fill with
    | some bs, some f =>
      if 256 ≤ bs.length then
        (if f.install then s.setCore core (CoreSt.install ⟨t.ctx.st.extractLsb' 16 16, f.gva, bs⟩) else s).updImage core cxa fun t =>
          { t with res := { t.res with fill := none } }
      else s
    | _, _ => s

/-- A reply lands in the image of the thread named (R80): registers, FE and OWE, RLD; PC advances, and the thread becomes
ready. Nothing happens when no such thread waits for one. -/
def State.landReply (core : Nat) (cxa : Word) (bs : List Byte) (s : State) : State :=
  match (if (s.core core).dead then none else s.findOwed core cxa).bind fun t => t.res.reply with
  | none => s
  | some b =>
    let keepPc := b.dest == .fetch || b.dest == .record
    if b.dest = .gone then s.removeThr core cxa else
    let s1 := (s.touchImage core cxa).updImage core cxa fun t =>
      let t := b.dest.land bs t
      let c := t.ctx.clearOwe b.dest.regs
      { t with
        ctx := { c with rld := false, pc := if keepPc then c.pc else c.pc + 12#64 }
        res := { t.res with reply := none }
        waitOn := if keepPc then t.waitOn else none
        parked := keepPc && t.parked }
    let s2 := if b.dest = .record then s1.landRecord core cxa else s1
    (if b.acquire then s2.dropNear core else s2).makeReady core cxa

/-- A NAK lands on a blocking access: FE full with the old values, RLD clear, and a precise POI (R211). -/
def State.landTrap (core : Nat) (cxa : Word) (reason : BitVec 8) (s : State) : State :=
  match (if (s.core core).dead then none else s.findOwed core cxa).bind fun t => t.res.reply with
  | none => s
  | some b =>
    s.asThr core cxa fun s =>
      (s.mapThr fun t =>
        let c := (t.ctx.clearOwe b.dest.regs).fillAll b.dest.regs
        { t with ctx := { c with rld := false, fe := c.fe ||| b.emptied }, res := { t.res with reply := none, record := none, fill := none } })
        |>.trapWaiting tPOI reason b.ea

/-- The first fault of a posted access is recorded; later ones are discarded until `tret` (R156). -/
def State.recordFault (core : Nat) (cxa : Word) (sub : BitVec 8) (ea : Word) (s : State) : State :=
  s.updImage core cxa fun t =>
    if t.res.fault.isNone && !t.res.faultShut then { t with res := { t.res with fault := some (sub, ea) } } else t

/-- One posted access of the thread named has been performed or has failed (R72, R153). -/
def State.storeDone (core : Nat) (cxa : Word) (s : State) : State :=
  s.updImage core cxa fun t => { t with ctx := { t.ctx with stc := t.ctx.stc - 1#16 } }

/-! ### Waiters (R152, R186) -/

/-- The condition of a waiter-table entry holds. -/
def Waiter.holds (w : Waiter) (s : State) : Bool :=
  match w.kind with
  | .ldc => s.isFull w.addr
  | .stp => !s.isFull w.addr
  | .wtwNe => s.readWord w.addr != w.val
  | .wtwGe => decide (w.val.toNat ≤ (s.readWord w.addr).toNat)
  | .aside => false

/-- Answers a request from a peer with bytes, an acknowledgment or a NAK (R207, R218). -/
def State.answerPeer (pkt : List Byte) (opc sub : Nat) (data : List Byte) (s : State) : State :=
  let p := Pkt.ofBytes pkt
  let (port, a) := p.answer (p.ops.headD ⟨0, 0, 0, 8, 0, false⟩) opc sub data
  s.sendPkt port none a

/-- Answers the requester of a waiter-table entry with a word. -/
def Waiter.reply (w : Waiter) (v : Word) (s : State) : State :=
  match w.remote with
  | some (_, pkt) => s.answerPeer pkt (if w.kind = .stp then 0x11 else 0x10) (if w.kind = .stp then s.level w.home else 0) (if w.kind = .stp then [] else leBytes 8 v.toNat)
  | none =>
    let s := s.ackTo w.src w.home
    if w.posted then s.storeDone w.src w.cxa
    else { s with owed := s.owed ++ [⟨w.src, w.cxa, .reply (leBytes 8 v.toNat), 0#64, 0#5⟩] }

/-- Turns a peer's request away: each of its operations is answered (R207, R219). -/
def State.nakPeer (pkt : List Byte) (reason : BitVec 8) (s : State) : State :=
  let p := Pkt.ofBytes pkt
  match p.ops with
  | [] => s.answerPeer pkt 0x12 reason.toNat []
  | ops => ops.foldl (fun s o => let (port, a) := p.answer o 0x12 reason.toNat []; s.sendPkt port none a) s

/-- Turns the requester of a waiter-table entry away (R193, R220). -/
def Waiter.nak (w : Waiter) (reason : BitVec 8) (s : State) : State :=
  match w.remote with
  | some (_, pkt) => s.nakPeer pkt reason
  | none =>
    let s := s.ackTo w.src w.home
    { s with naks := s.naks ++ [⟨w.src, w.cxa, w.posted, reason, w.ea, w.posted, .core w.home⟩] }

/-- Performs a waiter-table entry whose condition holds. -/
def Waiter.perform (w : Waiter) (s : State) : State :=
  let v := s.readWord w.addr
  if w.kind ≠ .stp && s.spoiled w.addr 8 then w.nak pUNCORR s
  else match w.kind with
    | .ldc => w.reply v (s.setFullBit w.addr false)
    | .stp => w.reply 0#64 (if w.hurt then (s.writeWord w.addr w.val).addPoison w.addr else s.writeWord w.addr w.val)
    | .wtwNe | .wtwGe => w.reply v s
    | .aside => s

/-- Serves the waiter-table entries of a word, oldest first, until none holds (R152, R186). -/
def State.serveWord (word : Nat) : Nat → State → State
  | 0, s => s
  | fuel + 1, s =>
    match s.waiters.find? fun w => w.addr / 8 == word && !w.refused && w.holds s with
    | none => s
    | some w => State.serveWord word fuel (w.perform { s with waiters := s.waiters.filter fun v => v.id != w.id })

/-- Cycles left on a deadline unit. -/
def Deadline.left (u : Deadline) (now : Word) : Nat := u.count - (now - u.base).toNat

/-- The word that a deadline unit watches has reached its target, and its home can read it (R387). -/
def State.deadlineMet (s : State) (u : Deadline) : Bool :=
  match u.place with
  | some (a, home) => !s.homeDead home && !s.chanWaits a && !s.spoiled a 8 && decide (u.val.toNat ≤ (s.readWord a).toNat)
  | none => false

/-- Changes every deadline unit, given its die. -/
def State.mapDeadlines (f : Nat → Deadline → Option Deadline) (s : State) : State :=
  { s with
    dies := s.dies.map fun (d : Nat × DieSt) =>
      (d.1, { d.2 with slots := d.2.slots.map fun q => { q with dl := q.dl.bind (f d.1) } }) }

/-- Removes the WAIT entries that satisfy `p` from their homes; their queues examine their words again (R358, R383, R404). -/
def State.mapWaits (p : Nat → QSlot → Nat × Nat × Word → Bool) (s : State) : State :=
  { s with
    dies := s.dies.map fun (d : Nat × DieSt) =>
      (d.1, { d.2 with slots := d.2.slots.map fun q => { q with wt := q.wt.filter fun w => !p d.1 q w } }) }

/-- A WAIT's entry at a word holds, and its home can read it (R186, R383). -/
def State.waitMet (s : State) (w : Nat × Nat × Word) : Bool :=
  !s.homeDead w.2.1 && !s.chanWaits w.1 && !s.spoiled w.1 8 && decide (w.2.2.toNat ≤ (s.readWord w.1).toNat)

/-- What a word that has changed does to the queues that watch it: a WAIT's entry whose condition holds is served (R186), and a deadline
unit disarms when the word reaches its target before its count does 0 (R387). -/
def State.meetDeadlines (word : Nat) (s : State) : State :=
  let slot (die : Nat) (q : QSlot) : QSlot :=
    let served := q.wt.any fun w => w.1 / 8 == word && s.waitMet w
    let past := q.dl.any fun u => (u.place.any fun p => p.1 / 8 == word) && s.deadlineMet u && u.left (s.die die).cyc != 0
    { q with met := q.met || served, wt := if served then none else q.wt, dl := if past then none else q.dl }
  { s with dies := s.dies.map fun (d : Nat × DieSt) => (d.1, { d.2 with slots := d.2.slots.map (slot d.1) }) }

/-- Some queue watches a word. -/
def State.anyDeadline (s : State) : Bool := s.dies.any fun d => d.2.slots.any fun q => q.dl.isSome || q.wt.isSome

/-- After the words at `n` bytes from an address have changed, their deadlines and waiters are examined (R152, R186, R387). -/
def State.afterWrite (a n : Nat) (s : State) : State :=
  let s := if s.anyDeadline then (wordsOf a n).foldl (fun s w => s.meetDeadlines w) s else s
  if s.waiters.isEmpty then s
  else (wordsOf a n).foldl (fun s w => s.serveWord w (2 * s.waiters.length + 1)) s

/-- A write performed at its home. -/
def State.homeWrite (a : Nat) (bs : List Byte) (s : State) : State := (s.writeMem a bs).afterWrite a bs.length

/-- A full/empty bit set at its home. -/
def State.homeSetFull (a : Nat) (full : Bool) (s : State) : State := (s.setFullBit a full).afterWrite a 1

/-- Enters a home's waiter table; a full table refuses the request, which is sent again later (R152), and one translated under
a generation its port has left is refused and translated again (R358). -/
def State.addWaiter (w : Waiter) (s : State) : State :=
  let used := s.waiters.countP fun v => v.home == w.home && !v.refused
  let old := w.paged && w.gen != (s.cluster w.port).tgen
  { s with waiters := s.waiters ++ [{ w with refused := old || decide (1024 ≤ used), anew := old, woken := none }] }

/-! ### Posted accesses -/

/-- The home of a request or a waiter by its number. -/
def homedAt (h : Nat) : Homed := if h = hostHome then .host else if 8192 ≤ h then .peer (h - 8192) else .core h

/-- The home turns a posted request away (R193). -/
def State.nakReq (r : Req) (reason : BitVec 8) (s : State) : State :=
  let s1 := s.ackTo r.src r.home
  { s1 with naks := s1.naks ++ [⟨r.src, r.cxa, true, reason, r.ea, r.counted, homedAt r.home⟩] }

/-- A stream packet's entry in the receiver's table is installed, refreshed or moved (R198). -/
def CoreSt.noteStream (src : Nat) (tag : BitVec 16) (a page : Nat) (c : CoreSt) : CoreSt :=
  let l := c.recv.filter fun e => !(e.src == src && e.tag == tag)
  { c with recv := (if l.length < 32 then l else l.drop 1) ++ [⟨src, tag, a, a / page * page, a / page * page + page⟩] }

/-- A short-header packet whose key is missing (R198). -/
def State.streamMiss (s : State) (r : Req) : Bool :=
  r.tag != 0#16 && r.short && !(s.core r.home).recv.any fun e => e.src == r.src && e.tag == r.tag

/-- An entry of the MSI-X table: address, data and vector control; a vector is masked until the host clears its mask. -/
def State.msixEntry (s : State) (v : Nat) : Word × Word := (look v s.msix).getD (0#64, 0x100000000#64)

/-- The vector is masked, by itself or by the function mask. -/
def State.msixMasked (s : State) (v : Nat) : Bool := s.fmask || (s.msixEntry v).2.getLsbD 32

/-- The message of a vector leaves, after every earlier posted write (R381). -/
def State.msixSend (v : Nat) (s : State) : State :=
  let e := s.msixEntry v
  ({ s with pba := s.pba.filter (· ≠ v) } : State).emit (.msix v e.1 (e.2 &&& 0xFFFFFFFF#64))

/-- A vector is raised: a masked one sets its pending bit (R381). -/
def State.msixDo (v : Nat) (s : State) : State :=
  if s.msixMasked v then { s with pba := insertNat v s.pba } else s.msixSend v

/-- A posted request changes a word of DRAM whose channel has failed (R417). -/
def State.reqFailed (s : State) (r : Req) : Bool :=
  decide (r.home < nCores) && s.chanFailed r.addr && match r.op with
    | .store _ | .stp _ | .sfe _ => true
    | .close _ | .msix _ => false

/-- A home performs a posted request (R166, R193, R195), unless it is dead or its DRAM has failed (R417); stores to the host window
leave as Memory Writes (R179). -/
def State.performReq (r : Req) (s : State) : State :=
  if s.homeDead r.home then s.nakReq r pDEAD
  else if s.reqFailed r then s.nakReq r pUNCORR
  else
    let s := if r.paged then s.touchL2 r.home r.addr r.pol true else s
    let fin (s : State) : State := (if r.counted then s.storeDone r.src r.cxa else s).ackTo r.src r.home
    match r.op with
    | .store bs =>
      if r.home = hostHome then fin (s.emit (.memWrite r.addr bs))
      else
        let s := if r.tag = 0#16 then s else s.setCore r.home (CoreSt.noteStream r.src r.tag r.addr r.page)
        fin (s.homeWrite r.addr bs)
    | .sfe f => fin (s.homeSetFull r.addr f)
    | .msix v => fin (s.msixDo v)
    | .close tag =>
      fin (s.setCore r.home fun c => { c with recv := c.recv.filter fun e => !(e.src == r.src && e.tag == tag) })
    | .stp v =>
      if s.isFull r.addr then
        s.addWaiter ⟨r.id, r.home, .stp, r.addr, v, r.src, r.cxa, true, 0#4, r.ea, r.port, r.gen, r.paged, s.now r.home,
          none, r.cp, false, false, none, r.task, r.lvlH, false⟩
      else fin (s.homeWrite r.addr (leBytes 8 v.toNat))

/-- A posted request stands behind an `stp` of its thread that waits at the home (R168), or that is to be translated again and may
find its home there (R153, R358); those of other threads pass. -/
def State.heldBack (s : State) (r : Req) : Bool :=
  s.waiters.any fun w =>
    w.posted && w.remote.isNone && w.src == r.src && w.cxa == r.cxa && decide (w.id < r.id) && (w.home == r.home || w.anew)

/-- Performs requests of a core to a home, in order (R167). -/
def State.performAll : List Req → State → State
  | [], s => s
  | r :: rs, s =>
    State.performAll rs
      (if s.heldBack r then s else ({ s with flight := s.flight.filter fun q => q.id != r.id } : State).performReq r)

/-- The earlier requests of a core to a home are performed before a later one from it (R167, R168). -/
def State.performPrior (core home : Nat) (s : State) : State :=
  let mine (r : Req) : Bool := r.src == core && r.home == home
  if s.flight.any mine then
    State.performAll (s.flight.filter mine)
      (if (s.core home).nakSrc.contains core then s.setCore home fun c => { c with nakSrc := c.nakSrc.filter (· ≠ core) } else s)
  else s

/-- Goes on once the DRAM channel of an address is ready (R417). -/
def withReady (a : Nat) (s : State) (k : Eff) : Eff := if s.chanWaits a then .park (.channel (chanOf a)) else k

/-- A posted request that its home cannot perform yet: its DRAM channel is not ready (R417). -/
def State.reqWaits (s : State) (r : Req) : Bool := decide (r.home < nCores) && s.chanWaits r.addr

/-- The bytes a posted request writes, or whose full/empty bit it changes. -/
def Req.bytes (r : Req) : Nat :=
  match r.op with
  | .store bs => bs.length
  | .stp _ | .sfe _ => 8
  | .close _ | .msix _ => 0

/-- The request is an `stp`. -/
def Req.isStp (r : Req) : Bool :=
  match r.op with
  | .stp _ => true
  | _ => false

/-- A wake or an image that a core has sent to another, before a number, has not arrived (R167). -/
def State.mailBefore (s : State) (core home ser : Nat) : Bool :=
  s.wakeReqs.any (fun w => w.src == core && w.target == home && decide (w.ser < ser))
    || s.hops.any (fun h => h.pkt == [] && h.src == core && h.t.core == home && decide (h.ser < ser))

/-- An `stp` that a thread has posted to a peer is not answered yet. -/
def State.stpAt (s : State) (core : Nat) (cxa : Word) (p : Nat) : Bool :=
  s.ports.any fun t => t.2.reqs.any fun q => q.stp && q.core == core && q.cxa == cxa && q.peer == p

/-- What stands before an access of a thread to a home: earlier packets of its core on their way, or an earlier posted wait of
the thread (R153, R167, R168); for `downHome p` it is an access to peer p. -/
def State.orderBusy (s : State) (core : Nat) (cxa : Word) (home : Nat) : Bool :=
  s.flight.any (fun r => r.src == core && r.home == home && (r.stage == 1 || s.reqWaits r || (r.cxa == cxa && r.isStp)))
    || s.mailBefore core home s.serial
    || s.waiters.any (fun w => w.posted && w.remote.isNone && w.src == core && w.cxa == cxa && (w.home == home || w.anew))
    || (decide (8192 ≤ home) && s.stpAt core cxa (home - 8192))

/-- What stands before a fetch of `n` bytes at a home (R24): earlier packets of the core on their way there (R167), and an access to
the same bytes that the thread has posted before its last `fence` of stores. Other posted accesses of its own that wait there let the
fetch pass (R159). -/
def State.fetchBusy (s : State) (core : Nat) (cxa : Word) (home a n : Nat) : Bool :=
  let before (t : Thread) (id src : Nat) (c : Word) (b len : Nat) : Bool :=
    src == core && c == cxa && decide (id < t.res.fenced) && decide (b < a + n) && decide (a < b + len)
  s.flight.any (fun r => r.src == core && r.home == home && (r.stage == 1 || s.reqWaits r))
    || s.mailBefore core home s.serial
    || (s.findThr core cxa).any fun t =>
      s.waiters.any (fun w => w.posted && w.remote.isNone && w.home == home && before t w.id w.src w.cxa w.addr 8)
        || s.flight.any fun r => r.home == home && s.heldBack r && before t r.id r.src r.cxa r.addr r.bytes

/-- Goes on once nothing stands before an access of the thread that issues to a home. -/
def withOrder (home : Nat) (s : State) (k : State → Eff) : Eff :=
  if s.orderBusy s.thr.core s.thr.ctx.cxa home then .park (.order home) else k (s.performPrior s.thr.core home)

/-- Goes on with an access to a peer: an `stp` that the thread has posted there is answered first, since its packet names no thread by
which the home could keep the two in order (R153, R168, DESIGN CHOICE, log 59), and then the packet is charged (R196). -/
def withFar (p : Nat) (s : State) (k : State → Eff) : Eff :=
  withOrder (downHome p) s fun s => withCharge (farHome (s.peerPort p)) s k

/-- The same for an access performed at issue: it waits with its turns lent (R168). -/
def withOwnOrder (home : Nat) (s : State) (k : State → Eff) : Eff :=
  if s.orderBusy s.thr.core s.thr.ctx.cxa home then .lend (.order home) else k (s.performPrior s.thr.core home)

/-- What a stream packet adds to a request (R197, R198): its tag, whether its header is short, DELTA, and the size of its page or
window. -/
structure Via where
  tag : BitVec 16 := 0#16
  short : Bool := false
  delta : BitVec 16 := 0#16
  page : Nat := 0
  deriving DecidableEq, Repr

/-- Posts one access of the thread that issues to a home (R153). -/
def State.post (home a : Nat) (op : ReqOp) (ea : Word) (paged : Bool) (pol : Nat) (cp : BitVec 2) (v : Via) (s : State) : State :=
  let r : Req :=
    { id := s.serial, src := s.thr.core, cxa := s.thr.ctx.cxa, home := home, op := op, addr := a, ea := ea, port := s.portGen.1
      gen := s.portGen.2, paged := paged, pol := pol, cp := cp, counted := true, tag := v.tag, short := v.short, delta := v.delta
      page := v.page, stage := 0, inj := 0, resend := false, task := s.task, lvlH := s.levelH }
  ({ s with flight := s.flight ++ [r], serial := s.serial + 1 }).mapCtx fun c => { c with stc := c.stc + 1#16 }

/-! ### Requests to peers -/

/-- Sends a request to a window of a peer (R196, R210, R218); the port times it (R212). -/
def State.sendPeer (posted : Bool) (r : BitVec 4) (ea : Word) (p w off opc sub len : Nat) (data : List Byte)
    (s : State) : State :=
  let port := s.peerPort p
  let tag := if posted then 0 else ctagOf s.thr.ctx.cxa r
  let die := port / 4
  let q : PortReq := ⟨s.thr.core, s.thr.ctx.cxa, posted, r, ea, p, w, off, (s.die die).cyc, .thread, tag, posted && opc == 2 && sub == 1⟩
  let s := s.sendPkt port (some s.thr.core) (s.request s.thr.core tag p w opc sub len off data)
  let s := s.setPort port fun t => { t with reqs := t.reqs ++ [q] }
  if posted then s.mapCtx fun c => { c with stc := c.stc + 1#16 } else s

/-- CTAG of a request that no thread waits for: bit 47 set, which no CXA has, and a fresh number (DESIGN CHOICE, log 32). -/
def engineTag (n : Nat) : Nat := 2 ^ 47 + n % 2 ^ 47

/-- CTAG of a request on behalf of an owner: a thread's CXA and register where its result goes there (R206, R218). -/
def PortOwner.ctag (owner : PortOwner) (n : Nat) : Nat :=
  match owner with
  | .signal _ cxa r => ctagOf cxa r
  | _ => engineTag n

/-- Sends the request of an engine to a window of a peer: operations (OPC, SUB, LEN, data) at one offset; the port times each and
waits for its answer (R212, R218, R219). -/
def State.sendEngine (owner : PortOwner) (core : Nat) (idx : Word) (p w off : Nat) (ops : List (Nat × Nat × Nat × List Byte))
    (s : State) : State :=
  let port := s.peerPort p
  let tag := owner.ctag s.serial
  let n := p1Nrt (s.peer1 p)
  let data := (ops.map fun o => padTo (up8 o.2.2.2.length) o.2.2.2).flatten
  let k := { (s.request core tag p w 0 0 1 off []) with
    nop := ops.length, nfl := nflOf data.length, data := data, ops := ops.map fun o => ⟨o.1, n, o.2.1, o.2.2.1, off, false⟩ }
  let r : PortReq := ⟨core, 0#64, true, 0#4, idx, p, w, off, (s.die (port / 4)).cyc, owner, tag, false⟩
  (({ s with serial := s.serial + 1 }).sendPkt port none k).setPort port fun t =>
    { t with reqs := t.reqs ++ List.replicate ops.length r }

/-! ### Scopes and releases (R172, R173) -/

/-- The homes of the accesses a thread has not had performed. -/
def State.unperformed (s : State) (core : Nat) (cxa : Word) : List Homed :=
  (s.flight.filter fun r => r.src == core && r.cxa == cxa && r.counted).map (fun r => homedAt r.home)
    ++ (s.waiters.filter fun w => w.posted && w.src == core && w.cxa == cxa && w.remote.isNone).map (fun w => homedAt w.home)
    ++ (s.naks.filter fun n => n.core == core && n.cxa == cxa && n.counted).map (·.home)
    ++ ((s.ports.map (·.2.reqs)).flatten.filter fun q => q.posted && q.core == core && q.cxa == cxa).map fun q => .peer q.peer

/-- The peers that hold a VALID member of a brine group of a region registered here (R172, R316). -/
def State.groupPeers (s : State) : List Nat :=
  ((s.regions.filter (·.committed)).map fun r => (r.table.filter fun e => e.getLsbD 63 && !e.getLsbD 10).map fun e => bits e.toNat 0 10).flatten

/-- The home lies in the instance of a scope, for an instruction issued on a core; `dst`: the peer of the instruction's
address, when it is on one; `grp`: the peers of the group scope (R172). A page that has no home lies in every instance (DEDUCED,
log 50). -/
def State.inScope (s : State) (sc : Scope) (core : Nat) (dst : Option Nat) (grp : List Nat) (h : Homed) : Bool :=
  match h with
  | .core n =>
    match sc with
    | .thr => false
    | .core => decide (nCores ≤ n) || n == core
    | .clu => decide (nCores ≤ n) || s.coreCluster n == s.coreCluster core
    | .band => decide (nCores ≤ n) || s.coreBand n == s.coreBand core
    | .die => decide (nCores ≤ n) || s.coreDie n == s.coreDie core
    | _ => true
  | .host => sc == .host || sc == .sys
  | .peer p =>
    match sc with
    | .peer => (match dst with
      | some q => p == q
      | none => p1Nrt (s.peer1 p) == 1)
    | .grp => grp.contains p
    | .fab | .sys => true
    | _ => false

/-- The home is on another device or in the host window (R185, FAR). -/
def Homed.isFar : Homed → Bool
  | .core _ => false
  | _ => true

/-- Earlier accesses of a thread that a release at a scope waits for (R173); without `far`, those homed here (R185). -/
def State.releaseBusy (s : State) (core : Nat) (cxa : Word) (sc : Scope) (dst : Option Nat) (far : Bool) (grp : List Nat) : Bool :=
  (s.unperformed core cxa).any fun h => s.inScope sc core dst grp h && (far || !h.isFar)

/-- The peers of the group scope for the instruction that issues: those of the regions registered when it first waited (R172). -/
def State.grpNow (s : State) : List Nat :=
  match s.thr.waitOn with
  | some (.release _ _ _ g) => g
  | _ => s.groupPeers

/-- Waits for the accesses of the thread that issues in the instance of a scope (R173, R185). -/
def withPerformed (sc : Scope) (dst : Option Nat) (far : Bool) (s : State) (k : Eff) : Eff :=
  if s.releaseBusy s.thr.core s.thr.ctx.cxa sc dst far s.grpNow then .park (.release sc dst far s.grpNow) else k

/-- Raises a recorded fault of a posted access (R156). -/
def withRecorded (s : State) (k : Eff) : Eff :=
  match s.thr.res.fault with
  | some (sub, ea) => .posted sub ea
  | none => k

/-- A release at a scope: a recorded fault is raised, then the earlier accesses in the instance are waited for (R173). -/
def withRelease (sc : Scope) (dst : Option Nat) (s : State) (k : Eff) : Eff :=
  withRecorded s (withPerformed sc dst true s k)

/-- Waits until PEND.STC = 0 and raises a recorded fault: an engine command, `spawn` and the like (R156, R177, R363). -/
def withStores (s : State) (k : Eff) : Eff :=
  if s.thr.ctx.stc = 0#16 then withRecorded s k else .park .stores

/-- The smallest scope that contains two cores (R155, R173). -/
def State.scopeOf (s : State) (a b : Nat) : Scope :=
  if a = b then .core else if s.coreCluster a = s.coreCluster b then .clu else if s.coreBand a = s.coreBand b then .band
  else if s.coreDie a = s.coreDie b then .die else .dev

/-- Home scope of a peer (R173). -/
def State.peerScope (s : State) (p : Nat) : Scope × Option Nat := (if p1Nrt (s.peer1 p) = 1 then .peer else .fab, some p)

/-- Home scope of a place (R173). -/
def State.homeScope (s : State) (core : Nat) (l : Loc) : Scope × Option Nat :=
  match l with
  | .mem _ h _ _ => if h < nCores then (s.scopeOf core h, none) else if 8192 ≤ h then s.peerScope (h - 8192) else (.dev, none)
  | .zeros => (.core, none)
  | .host _ => (.host, none)
  | .peer p _ _ => s.peerScope p

/-! ### Blocking accesses -/

/-- What the near cache serves of a page that cannot be written (R148, R170); a poisoned word is read at its home (R157). -/
def State.nearBytes (s : State) (insn : Bool) (cp : BitVec 2) (l : Loc) (n : Nat) : Option (List Byte) :=
  match l with
  | .mem a _ paged leaf =>
    if paged && !lfW leaf && decide (2 ≤ effPolicy leaf cp) && !s.poisoned a n then
      ((s.core s.thr.core).nearLine a insn).map fun e => (e.data.drop (a % 128)).take n
    else none
  | _ => none

/-- Why a home turns a read away (R157, R193). -/
def State.readBad (s : State) (a home n : Nat) : Option (BitVec 8) :=
  if s.homeDead home then some pDEAD else if s.spoiled a n then some pUNCORR else none

/-- A home's L2 slice and the requester's near cache after a read of a page (R148, R149); `near`: the line kind that is
brought near. -/
def State.noteRead (near : Option Bool) (cp : BitVec 2) (a home : Nat) (paged : Bool) (leaf : Word) (s : State) : State :=
  if !paged then s
  else
    let pol := effPolicy leaf cp
    let s1 := s.touchL2 home a pol false
    match near with
    | some insn => if !lfW leaf && decide (2 ≤ pol) then s1.nearFill s.thr.core a insn else s1
    | none => s1

/-- Reads the parts of a plain load: from the near cache, or ordered and charged at their homes (R161, R167). -/
def withRead (cp : BitVec 2) (near : Bool) (nak : BitVec 8 → Nat → State → Eff) :
    List (Loc × Nat) → State → (List Byte → State → Eff) → Eff
  | [], s, k => k [] s
  | (l, n) :: ls, s, k =>
    let rest (bs : List Byte) (s : State) : Eff := withRead cp near nak ls s fun bs' s => k (bs ++ bs') s
    match (if near then s.nearBytes false cp l n else none) with
    | some bs => rest bs s
    | none =>
      match l with
      | .mem a home paged leaf =>
        withOrder home s fun s => withReady a s <| withCharge home s fun s =>
          let s := s.ackTo s.thr.core home
          match s.readBad a home n with
          | some reason => nak reason home s
          | none => rest (s.readMem a n) (s.noteRead (if near then some false else none) cp a home paged leaf)
      | _ => rest (List.replicate n 0#8) s

/-- One more instruction of the core has read a discarded page (R150). -/
def State.noteZeros (ls : List (Loc × Nat)) (s : State) : State :=
  if ls.any fun p => p.1 == .zeros then s.setCore s.thr.core fun c => { c with dscrd := c.dscrd + 1#64 } else s

/-- The size of an access behind the host window and its tag (R179). -/
def State.hostRead (addr n : Nat) (s : State) : State :=
  s.askHost (.thread s.thr.core s.thr.ctx.cxa) n (.memRead · addr n)

/-- The places of a store's parts get their requests: one per part (R161), each charged. -/
def withPosts (mk : List Byte → ReqOp) (cp : BitVec 2) (ea : Word) :
    List (Loc × Nat) → List Byte → State → (State → Eff) → Eff
  | [], _, s, k => k s
  | (l, n) :: ls, bs, s, k =>
    match l with
    | .mem a home paged leaf =>
      withCharge home s fun s =>
        withPosts mk cp ea ls (bs.drop n)
          (s.post home a (mk (bs.take n)) ea paged (if paged then effPolicy leaf cp else 0) cp {}) k
    | .host o =>
      withPosts mk cp ea ls (bs.drop n) (s.post hostHome o (mk (bs.take n)) ea false 0 cp {}) k
    | _ => withPosts mk cp ea ls (bs.drop n) s k

end Sys2Proof.Machine
end

