-- ==== Sys2Proof/Machine/Translation.lean ====
section
/-! DEFINITION. TLB generations (R357, R358, R365, R366). -/

namespace Sys2Proof.Machine

open Config

/-- What a `tlbi` selector matches (R365). -/
inductive TlbSel where
  | all
  | task (t : BitVec 16)
  | page (t : BitVec 16) (g : Nat)
  deriving DecidableEq, Repr

/-- The selector matches a TLB entry. -/
def TlbSel.hits (sel : TlbSel) (e : TlbEntry) : Bool :=
  match sel with
  | .all => true
  | .task t => e.task == t
  | .page t g => e.hits t g

/-- The selector matches a page of a task. -/
def TlbSel.hitsPage (sel : TlbSel) (t : BitVec 16) (g : Nat) : Bool :=
  match sel with
  | .all => true
  | .task u => u == t
  | .page u h => u == t && h / 2 ^ 16 == g / 2 ^ 16

/-- The selector matches a page of a task, if that page is of 512 MiB. -/
def TlbSel.hitsLarge (sel : TlbSel) (t : BitVec 16) (g : Nat) : Bool :=
  match sel with
  | .page u h => u == t && h / 2 ^ 29 == g / 2 ^ 29
  | sel => sel.hitsPage t g

/-- The cores whose port lies in a set of clusters, among those that hold anything. -/
def State.coresAt (s : State) (cl : List Nat) : List Nat :=
  (s.cores.map (·.1)).filter fun n => cl.contains (s.coreCluster n)

/-- A port adopts a generation: TLB entries that match, near-cache lines and record caches are dropped, walks that match become
stale, and requests that wait at a home under an earlier generation are refused, a deadline unit's watch too (R294, R357-R359, R387). -/
def State.adoptGen (cl : List Nat) (sel : TlbSel) (gen : BitVec 32) (s : State) : State :=
  let cores := s.coresAt cl
  let s1 := cl.foldl
    (fun s k => s.setCluster k fun c => { c with tgen := gen, tlb := c.tlb.filter fun e => !sel.hits e }) s
  let old (e : MboxEntry) : MboxEntry :=
    { e with
      stale := e.stale || sel.hitsPage e.task (e.page * 2 ^ 16)
      staleL := e.staleL || sel.hitsLarge e.task (e.page * 2 ^ 16) }
  let s2 := cores.foldl (fun s n => (s.setCore n fun c => { c with near := [], mbox := c.mbox.map old }).dropRecs n) s1
  let s3 : State := { s2 with waiters := s2.waiters.map fun w => if cl.contains w.port && w.paged then { w with refused := true, anew := true } else w }
  s3.mapWaits (fun d q w => q.word8.extractLsb' 20 16 != 0#16 && decide (w.1 < physEnd) && cl.contains (s.coreCluster (hearthOf d))) |>.mapDeadlines fun d u =>
    some (if u.paged && cl.contains (s.coreCluster (hearthOf d)) then { u with place := none, paged := false, anew := true } else u)

/-- `tlbi`: the device number rises by 1 and the ports of the instance adopt it (R357). -/
def State.startGen (cl : List Nat) (sel : TlbSel) (s : State) : State :=
  ({ s with tgen := s.tgen + 1#32 }).adoptGen cl sel (s.tgen + 1#32)

/-- The generation below which a port's accesses are counted for a `tlbw` to `gen` (R366). -/
def State.floorGen (s : State) (gen : Nat) (k : Nat) : Nat := min gen (s.cluster k).tgen.toNat

/-- A translation kept over a wait on draught, or the rest of a record that is being read, is of a page at a port of the instance,
under an older generation (R294, R357, R366). -/
def State.heldBusy (s : State) (cl : List Nat) (gen : Nat) (t : Thread) : Bool :=
  let old (p : Nat × BitVec 32) : Bool := cl.contains p.1 && decide (p.2.toNat < s.floorGen gen p.1)
  t.res.held.any (fun h => h.loc.isPaged && old (h.port, h.gen)) || (t.res.fill.bind (·.tran)).any old

/-- Some access translated at a port of the instance under an older generation is not performed (R366). -/
def State.genBusy (s : State) (cl : List Nat) (gen : Nat) : Bool :=
  s.flight.any (fun r => r.paged && cl.contains r.port && decide (r.gen.toNat < s.floorGen gen r.port))
    || s.waiters.any (fun w => w.paged && !w.refused && cl.contains w.port && decide (w.gen.toNat < s.floorGen gen w.port))
    || (s.threads ++ (s.cores.map (·.2.saved.threads)).flatten).any (s.heldBusy cl gen)

/-- Every cluster. -/
def allClusters : List Nat := List.range 512

/-- The clusters of an instance of `tlbi` and `tlbw` (R365). -/
def scopeClusters (sc : TlbScope) (k : Nat) : List Nat :=
  match sc with
  | .clu => [k]
  | .band => allClusters.filter fun c => posBand (2 * (c % 32)) (2 * (c / 32)) == posBand (2 * (k % 32)) (2 * (k / 32))
  | .die => allClusters.filter fun c => posDie (2 * (c % 32)) (2 * (c / 32)) == posDie (2 * (k % 32)) (2 * (k / 32))
  | .dev => allClusters

/-! ### Partitions (R360) -/

/-- The cores of a partition: those that run user work in the clusters of its mask (R12, R360). -/
def State.partCores (s : State) (p : Nat) : List Nat :=
  ((membersOf (s.readNat (s.partb.toNat + 64 * p) 64) 512).map s.workCores).flatten

/-- A stream command has begun and is not finished. -/
def StreamCmd.underway (q : StreamCmd) : Bool := !q.fin && (q.next != 0 || q.pass != 0)

/-- A stream or pan command is in progress on a core (R369). -/
def CoreSt.unitBusy (c : CoreSt) : Bool := c.streamQ.any StreamCmd.underway || c.panQ.any fun q => q.st == .running

/-- A stream or pan command is in progress on a core of a partition (R369). -/
def State.partBusy (s : State) (p : Nat) : Bool := (s.partCores p).any fun n => (s.core n).unitBusy

end Sys2Proof.Machine
end

