-- ==== Sys2Proof/Machine/MemOps.lean ====
section
/-! DEFINITION. The memory access instructions (R154-R165). -/

namespace Sys2Proof.Machine

open Config

/-- The bytes of all parts. -/
def totalOf (ls : List (Loc × Nat)) : Nat := ls.foldl (fun n p => n + p.2) 0

/-- A blocking read: a home of this device performs it at once and its answer is on its way (DEDUCED, log 4); a peer or the host
replies later. `s0` is the state before the instruction read its sources. -/
def withBlockRead (d : ReplyTo) (sub : Nat) (acq : Bool) (cp : BitVec 2) (near : Bool) (ea : Word) (s0 : State)
    (ls : List (Loc × Nat)) (s : State) : Eff :=
  match ls with
  | (.peer p w o, _) :: _ =>
    withFar p s fun s =>
      .stay ((s.sendPeer false (d.regs.headD 0#4) ea p w o 0x01 sub (totalOf ls) []).awaitReply d ea acq (emptiedSince s0 s))
  | (.host o, _) :: _ =>
    withOrder hostHome s fun s => .stay ((s.hostRead o (totalOf ls)).awaitReply d ea acq (emptiedSince s0 s))
  | _ =>
    withRead cp near (fun reason home s => .stay (s.nakBy d ea acq (emptiedSince s0 s) reason home)) ls s fun bs s =>
      .stay ((s.noteZeros ls).replyBy d ea acq (emptiedSince s0 s) bs)

/-- A store's place is the scratchpad of the issuing core's own window: it is performed at issue (R168). -/
def ownPad (core : Nat) (l : Loc) : Bool :=
  match l with
  | .mem _ h paged _ => h == core && !paged
  | _ => false

/-- `ld` (R158): from the scratchpad of the core's own window it completes in the issue cycle (R39, R168). -/
def execLd (t : Ty) (x : Args) (s : State) : Host.Outcome State Fault Refusal :=
  issue x.h (fun s0 =>
    withEa x.b x.c s0 fun ea s =>
      let n := t.width / 8
      withPlace nLoad ea n n false s fun l s =>
        withDest x.a s
          (let d := ReplyTo.loadX x.a.rix n t.signed
           if ownPad s.thr.core l then
             match l with
             | .mem a h _ _ =>
               withOwnOrder h s fun s =>
                 if s.poisoned a n then .trap tPOI pUNCORR ea else .done (s.mapThr (d.land (s.readMem a n)))
             | _ => .done s
           else withBlockRead d 0 false x.h.cp true ea s0 [(l, n)] s)) s

/-- A thread whose count of posted stores leaves no room below 65,536 for `n` more parks until it falls (R153). -/
def withStc (n : Nat) (s : State) (k : Eff) : Eff := if s.thr.ctx.stc.toNat + n < 65536 then k else .park (.stcRoom n)

/-- Posts the parts of a store: to homes, to the host, or as one request to a peer (R153, R196). -/
def withStore (mk : List Byte → ReqOp) (sub : Nat) (cp : BitVec 2) (ea : Word) (ls : List (Loc × Nat)) (bs : List Byte)
    (s : State) (k : State → Eff) : Eff :=
  withStc ls.length s
    (match ls with
    | (.peer p w o, _) :: _ =>
      withFar p s fun s =>
        k (s.sendPeer true 0#4 ea p w o 0x02 sub (max 1 (totalOf ls)) (if sub = 2 ∨ sub = 3 then [] else padTo (up8 bs.length) bs))
    | _ => withPosts mk cp ea ls bs s k)

/-- `st` (R158). B and C are read first, then A (DESIGN CHOICE, log 6: R30 orders B and C only). -/
def execSt (t : Ty) (x : Args) (s : State) : Host.Outcome State Fault Refusal :=
  issue x.h (fun s =>
    withEa x.b x.c s fun ea s => withSrc x.a s fun v s =>
      let n := t.width / 8
      let bs := leBytes n v.toNat
      withPlace nStore ea n n true s fun l s =>
        if ownPad s.thr.core l then
          match l with
          | .mem a h _ _ => withOwnOrder h s fun s => .done (s.homeWrite a bs)
          | _ => .done s
        else withStore .store 0 x.h.cp ea [(l, n)] bs s .done) s

/-- Enters the waiter table of a home for the thread that issues, which waits for the reply (R152). -/
def State.waitAtHome (kind : WaitKind) (a home : Nat) (paged : Bool) (v : Word) (r : BitVec 4) (ea : Word) (cp : BitVec 2)
    (emptied : BitVec 16) (s : State) : State :=
  let w : Waiter := ⟨s.serial, home, kind, a, v, s.thr.core, s.thr.ctx.cxa, false, r, ea, s.portGen.1, s.portGen.2, paged,
    s.now home, none, cp, false, false, none, s.task, s.levelH, false⟩
  (({ s with serial := s.serial + 1 }).awaitReply (.word r) ea true emptied).addWaiter w

/-- A blocking access at its home: ordered, charged, and turned away by a dead home or a poisoned word; its acknowledgment
comes back with the answer (R167, R168, R193, R196). -/
def withHome (d : ReplyTo) (acq : Bool) (a home n : Nat) (ea : Word) (s0 s : State) (k : State → Eff) : Eff :=
  withOrder home s fun s => withReady a s <| withCharge home s fun s =>
    match s.readBad a home n with
    | some reason => .stay ((s.ackTo s.thr.core home).nakBy d ea acq (emptiedSince s0 s) reason home)
    | none => k s

/-- `ldc` (R152, R159). -/
def execLdc (x : Args) (s : State) : Host.Outcome State Fault Refusal :=
  issue x.h (fun s0 =>
    withEa x.b x.c s0 fun ea s =>
      withPlace nLdc ea 8 8 false s fun l s =>
        withDest x.a s
          (let d := ReplyTo.word x.a.rix
           match l with
           | .mem a home paged leaf =>
             withHome d true a home 8 ea s0 s fun s =>
               let s := if paged then s.touchL2 home a (effPolicy leaf x.h.cp) true else s
               if s.isFull a then
                 let v := s.readWord a
                 .stay (((s.ackTo s.thr.core home).homeSetFull a false).replyBy d ea true (emptiedSince s0 s) (leBytes 8 v.toNat))
               else .stay (s.waitAtHome .ldc a home paged 0#64 x.a.rix ea x.h.cp (emptiedSince s0 s))
           | l => withBlockRead d 1 true x.h.cp false ea s0 [(l, 8)] s)) s

/-- `stp`: a release at home scope, then posted with its wait (R155, R159). -/
def execStp (x : Args) (s : State) : Host.Outcome State Fault Refusal :=
  issue x.h (fun s =>
    withEa x.b x.c s fun ea s => withSrc x.a s fun v s =>
      withPlace nStp ea 8 8 true s fun l s =>
        let sc := s.homeScope s.thr.core l
        withRelease sc.1 sc.2 s
          (withStore (fun bs => .stp (BitVec.ofNat 64 (leNat bs))) 1 x.h.cp ea [(l, 8)] (leBytes 8 v.toNat) s .done)) s

/-- `lfe` (R160): it never waits. -/
def execLfe (x : Args) (s : State) : Host.Outcome State Fault Refusal :=
  issue x.h (fun s0 =>
    withEa x.b x.c s0 fun ea s =>
      withPlace nLfe ea 8 8 false s fun l s =>
        withDest x.a s
          (let d := ReplyTo.word x.a.rix
           match l with
           | .mem a home paged leaf =>
             withHome d false a home 8 ea s0 s fun s =>
               let s := (if paged then s.touchL2 home a (effPolicy leaf x.h.cp) false else s).ackTo s.thr.core home
               .stay (s.replyBy d ea false (emptiedSince s0 s) (leBytes 8 (b2n (s.isFull a))))
           | .zeros => .stay ((s.noteZeros [(l, 8)]).replyBy d ea false (emptiedSince s0 s) (leBytes 8 1))
           | l => withBlockRead d 2 false x.h.cp false ea s0 [(l, 8)] s)) s

/-- `sfe`: posted; the data is unchanged (R160). -/
def sfeTo (full : Bool) (x : Args) (s : State) : Host.Outcome State Fault Refusal :=
  issue x.h (fun s =>
    withEa x.b x.c s fun ea s =>
      withPlace nStp ea 8 8 true s fun l s =>
        withStore (fun _ => .sfe full) (if full then 3 else 2) x.h.cp ea [(l, 8)] [] s .done) s

/-- `sfe.empty` (R160). -/
def execSfeEmpty (x : Args) (s : State) : Host.Outcome State Fault Refusal := sfeTo false x s

/-- `sfe.full` (R160). -/
def execSfeFull (x : Args) (s : State) : Host.Outcome State Fault Refusal := sfeTo true x s

/-- `ldm`: n words; a fault in any part raises before any register is written (R161). -/
def execLdm (n : BitVec 4) (x : Args) (s : State) : Host.Outcome State Fault Refusal :=
  issue x.h (fun s0 =>
    withEa x.b x.c s0 fun ea s =>
      let m := n.toNat + 1
      withAccess nLoad ea (8 * m) 8 false s fun ls s =>
        withDests m x.a.rix s (withBlockRead (.loadM x.a.rix m) 0 false x.h.cp true ea s0 ls s)) s

/-- `stm`: n words, posted in line parts (R161). -/
def execStm (n : BitVec 4) (x : Args) (s : State) : Host.Outcome State Fault Refusal :=
  issue x.h (fun s =>
    withEa x.b x.c s fun ea s =>
      let m := n.toNat + 1
      withRegs m x.a.rix s fun vs =>
        withAccess nStore ea (8 * m) 8 true s fun ls s =>
          withStore .store 0 x.h.cp ea ls (vs.map fun v => leBytes 8 v.toNat).flatten s .done) s

/-- What a `pfch` brings in of a page whose leaf is at hand, when every check passes (R162). -/
def State.bringLine (who : Who) (g : Nat) (cp : BitVec 2) (l : Word) (large : Bool) (s : State) : State :=
  let pol := effPolicy l cp
  let home := s.homeOf who.task l g
  if checkLeaf l who nLoad ≠ none || lfDSC l || decide (pol < 2) || s.homeDead home then s
  else
    let a := lfAddr l large g
    let s := s.touchL2 home a pol false
    if lfW l then s else s.nearFill who.core a false

/-- What `pfch` does of the page of an address (R162); on a TLB miss the page is walked, and the line comes once the leaf is there,
while the thread goes on. With every mailbox entry in use it does nothing (DESIGN CHOICE, log 28). -/
def State.prefetch (s : State) (cp : BitVec 2) (ts : TaskSet) (ea : Word) : State :=
  match ts.gva nLoad ea 1 with
  | none => s
  | some g =>
    match s.area s.levelH nLoad g 1 with
    | .paged =>
      match s.lookup s.myCluster s.task g with
      | .leaf l large => s.bringLine s.me g cp l large
      | .notValid => s
      | .miss => s.askPage (.prefetch g cp) ⟨s.thr.core, s.task, s.levelH, g / 2 ^ 16, nLoad.kind, 0, none⟩
    | _ => s

/-- `pfch` (R162): no trap, no event, and it never parks. -/
def execPfch (x : Args) (s : State) : Host.Outcome State Fault Refusal :=
  issue x.h (fun s => withEa x.b x.c s fun ea s =>
    match s.cachedSet s.thr.core s.task with
    | none => .again (s.lend .segset)
    | some ts => .done (s.prefetch x.h.cp ts ea)) s

/-- `sgp` (R163). -/
def execSgp (x : Args) (s : State) : Host.Outcome State Fault Refusal :=
  issue x.h (fun s =>
    match s.cachedSet s.thr.core s.task with
    | none => .again (s.lend .segset)
    | some ts =>
      let g := ts.seg x.b.immW.toNat
      withDests 2 x.a.rix s (.done (s.writeRegs [g.1, g.2] x.a.rix))) s

/-- What `pgq` reports of a page (R164). Where the spec gives no value the model's choice stands (log 52): a task-0 page, which
has no leaf, reads HK 1 with HIDX 0, a masked page with an empty core list reads HCORE 0, and where V is 0 every other bit is 0. -/
def State.pageInfo (s : State) (who : Who) (g : Nat) (l : Word) (large : Bool) : Word :=
  if !lfV l || !lfP l || (!who.lvlH && lfCTX l) then 0#64
  else
    let hk := who.task == 0#16 || lfHK l
    field (if hk && who.task != 0#16 then lfHome l % 256 else 0) 32 ||| field (s.homeOf who.task l g % 2048) 16
      ||| field (b2n hk) 10 ||| field (b2n large) 9 ||| field (lfCPC l) 7 ||| field (b2n (lfDSC l)) 6
      ||| field (b2n (lfCTX l)) 5 ||| field (b2n (lfGRN l)) 4 ||| field (b2n (lfU l)) 3 ||| field (b2n (lfX l)) 2
      ||| field (b2n (lfW l)) 1 ||| 1#64

/-- A peer window is no accessible region at an offset: its peer is INVALID, or the offset reaches LIMIT (R141, R142, R210). -/
def State.peerShut (s : State) (p w o : Nat) : Bool :=
  (p1State (s.peer1 p) != 1 && p1State (s.peer1 p) != 2) || decide (bits (s.peer2 p w).2.1.toNat 0 34 ≤ o)

/-- What the walk for a `pgq` of the thread that issues has found (R356). -/
def State.queryAnswer (s : State) (g : Nat) : Option Word :=
  s.thr.res.walk.bind fun w => if w.query && w.gva == g then w.answer else none

/-- `pgq`: segment limit and region only, for one byte (DESIGN CHOICE, log 52: R164 gives no size); a page that is unmapped, not
present or whose walk fails reads V = 0 (R164). -/
def execPgq (x : Args) (s : State) : Host.Outcome State Fault Refusal :=
  issue x.h (fun s =>
    withEa x.b x.c s fun ea s =>
      withGva {} ea 1 1 s fun g =>
        withDest x.a s
          (match s.area s.levelH {} g 1 with
          | .none => .trap tSEG 0#8 ea
          | .window k _ => .done (s.writeX x.a.rix (field k 16 ||| 0x90B#64 ||| field 2 7))
          | .peer p w o =>
            if s.peerShut p w o then .trap tSEG 0#8 ea else .done ((s.notePeer p w).writeX x.a.rix 0x1001#64)
          | .host _ => .done (s.writeX x.a.rix 0x1001#64)
          | .paged =>
            match s.queryAnswer g with
            | some v => .done ((s.mapRes fun r => { r with walk := none }).writeX x.a.rix v)
            | none =>
              match s.lookup s.myCluster s.task g with
              | .leaf l large => .done (s.writeX x.a.rix (s.pageInfo s.me g l large))
              | .notValid => .done (s.writeX x.a.rix 0#64)
              | .miss =>
                match s.postMiss s.me 0 g with
                | some (i, s) =>
                  .again ((s.mapRes fun r =>
                    { r with walk := some { kind := 0, write := false, fetch := false, gva := g, query := true } }).lend (.walk i))
                | none => .lend .mbox)) s

/-- A leaf that `dsc` discards: valid, user, writable, not CTX and no part of a 512 MiB page (R165). -/
def dscOk (l : Word) (large : Bool) : Bool := lfV l && lfU l && lfW l && !lfCTX l && !large

/-- Marks the pages of a range that can be discarded, and counts them (R165). -/
def discardPages (task : BitVec 16) : Nat → Nat → Nat → State → Nat × State
  | 0, _, c, s => (c, s)
  | n + 1, g, c, s =>
    match s.walkTable task g with
    | some (a, l, large) =>
      if dscOk l large then discardPages task n (g + 0x10000) (c + 1) (s.writeWord a (l ||| 0x80000000000000#64))
      else discardPages task n (g + 0x10000) c s
    | none => discardPages task n (g + 0x10000) c s

/-- `dsc`: every earlier store is performed (R155, R169, R177), the pages are marked, and a TLB generation starts at every port,
which drops the entries of the issuing task (DESIGN CHOICE, log 53: R165 names no selector); then the instruction waits as `tlbw`
does (R165). A page count out of range is ILL before a misaligned ea is ALN or a range outside its segment SEG (DESIGN CHOICE, log 53). -/
def execDsc (x : Args) (s : State) : Host.Outcome State Fault Refusal :=
  issue x.h (fun s =>
    withEa x.b x.c s fun ea s => withSrc x.a s fun v s =>
      match s.thr.res.phase with
      | some (gen, cnt) =>
        if s.genBusy allClusters gen then .park (.tlbw .dev 0 (BitVec.ofNat 32 gen))
        else .done ((s.writeX x.a.rix cnt).mapRes fun r => { r with phase := none })
      | none =>
        if v.toNat = 0 ∨ 65536 < v.toNat then .ill 0x5B#8 0xD
        else
          withGva nStore ea (v.toNat * 0x10000) 0x10000 s fun g =>
            if s.area s.levelH nStore g (v.toNat * 0x10000) ≠ .paged then .trap tSEG 0#8 ea
            else
              withStores s
                (let r := if s.task = 0#16 then (0, s) else discardPages s.task v.toNat g 0 s
                 let s1 := r.2.startGen allClusters (.task s.task)
                 if s1.genBusy allClusters s1.tgen.toNat then
                   .again ((s1.mapRes fun q => { q with phase := some (s1.tgen.toNat, BitVec.ofNat 64 r.1) }).parkOn (.tlbw .dev 0 s1.tgen))
                 else .done (s1.writeX x.a.rix (BitVec.ofNat 64 r.1)))) s

end Sys2Proof.Machine
end

