-- ==== Sys2Proof/Machine/Atomics.lean ====
section
/-! DEFINITION. The atomics, `cas`, acquire loads, release stores, fences and waits on a word (R180-R187). -/

namespace Sys2Proof.Machine

open Config

/-- `amo` at its home, indivisibly: the old value, its flags, and the state after (R182). -/
def State.homeAmo (fn a : Nat) (v : Word) (s : State) : Nat × FFlags × State :=
  let n := amoSize fn
  let old := s.readNat a n
  let r := amoValue fn old (v.toNat % 2 ^ (8 * n))
  (old, r.2, s.homeWrite a (leBytes n r.1))

/-- `cas` at its home, indivisibly: the old value and the state after (R183). -/
def State.homeCas (n a : Nat) (e v : Word) (s : State) : Nat × State :=
  let old := s.readNat a n
  (old, if old = e.toNat % 2 ^ (8 * n) then s.homeWrite a (leBytes n v.toNat) else s)

/-- An AtomicOp leaves for the host (R179): 0 FetchAdd, 1 Swap, 2 CAS. -/
def State.hostAtomic (op addr n : Nat) (v w : Word) (s : State) : State :=
  s.askHost (.thread s.thr.core s.thr.ctx.cxa) n (.atomic · addr op n v w)

/-- A read-modify-write of the thread that issues at a home of this device: it is answered at once (R167, R181). -/
def withHomeOp (d : ReplyTo) (acq : Bool) (a home : Nat) (paged : Bool) (leaf : Word) (n : Nat) (cp : BitVec 2) (ea : Word)
    (s0 s : State) (k : State → List Byte × State) : Eff :=
  withHome d acq a home n ea s0 s fun s =>
    let r := k (if paged then s.touchL2 home a (effPolicy leaf cp) true else s)
    .stay ((r.2.ackTo s.thr.core home).replyBy d ea acq (emptiedSince s0 s) r.1)

/-- `amo` (R182). -/
def amoOp (fn : Nat) (x : Args) (s : State) : Host.Outcome State Fault Refusal :=
  issue x.h (fun s0 =>
    withEa x.b x.c s0 fun ea s => withSrc x.a s fun v s =>
      let n := amoSize fn
      withPlace (nAmo (fn == 0 || fn == 8)) ea n n false s fun l s =>
        withDest x.a s
          (match l with
          | .mem a home paged leaf =>
            withHomeOp (.atomic x.a.rix n fn v) false a home paged leaf n x.h.cp ea s0 s fun s =>
              let r := s.homeAmo fn a v
              (leBytes n r.1, r.2.2)
          | .peer p w o =>
            withFar p s fun s =>
              .stay ((s.sendPeer false x.a.rix ea p w o 0x03 fn n (padTo 8 (leBytes n v.toNat))).awaitReply
                (.atomic x.a.rix n fn v) ea false (emptiedSince s0 s))
          | .host o =>
            withOrder hostHome s fun s =>
              .stay ((s.hostAtomic (if fn = 0 then 0 else 1) o n v 0#64).awaitReply (.atomic x.a.rix n fn v) ea false
                (emptiedSince s0 s))
          | .zeros => .again (s.pageEvent cREV (nAmo true) 6 ea.toNat))) s

/-- `amo.add` (R182). -/
def execAmoAdd (x : Args) (s : State) : Host.Outcome State Fault Refusal := amoOp 0x0 x s
/-- `amo.and` (R182). -/
def execAmoAnd (x : Args) (s : State) : Host.Outcome State Fault Refusal := amoOp 0x1 x s
/-- `amo.or` (R182). -/
def execAmoOr (x : Args) (s : State) : Host.Outcome State Fault Refusal := amoOp 0x2 x s
/-- `amo.xor` (R182). -/
def execAmoXor (x : Args) (s : State) : Host.Outcome State Fault Refusal := amoOp 0x3 x s
/-- `amo.min` (R182). -/
def execAmoMin (x : Args) (s : State) : Host.Outcome State Fault Refusal := amoOp 0x4 x s
/-- `amo.max` (R182). -/
def execAmoMax (x : Args) (s : State) : Host.Outcome State Fault Refusal := amoOp 0x5 x s
/-- `amo.nmin` (R182). -/
def execAmoNmin (x : Args) (s : State) : Host.Outcome State Fault Refusal := amoOp 0x6 x s
/-- `amo.nmax` (R182). -/
def execAmoNmax (x : Args) (s : State) : Host.Outcome State Fault Refusal := amoOp 0x7 x s
/-- `amo.swap` (R182). -/
def execAmoSwap (x : Args) (s : State) : Host.Outcome State Fault Refusal := amoOp 0x8 x s
/-- `amo.fadd32` (R182). -/
def execAmoFadd32 (x : Args) (s : State) : Host.Outcome State Fault Refusal := amoOp 0x9 x s
/-- `amo.fmax32` (R182). -/
def execAmoFmax32 (x : Args) (s : State) : Host.Outcome State Fault Refusal := amoOp 0xA x s
/-- `amo.fadd64` (R182). -/
def execAmoFadd64 (x : Args) (s : State) : Host.Outcome State Fault Refusal := amoOp 0xB x s

/-- `cas` (R183): X[A] is the expected value and X[A + 1] the new one. -/
def execCas (f : CasFn) (x : Args) (s : State) : Host.Outcome State Fault Refusal :=
  issue x.h (fun s0 =>
    withEa x.b x.c s0 fun ea s => withSrc x.a s fun e s => withReg (x.a.rix + 1#4) false s fun v s =>
      let n := if f.wide then 8 else 4
      withPlace (nAmo true) ea n n false s fun l s =>
        withDest x.a s
          (let sc := s.homeScope s.thr.core l
           let go : Eff :=
            match l with
            | .mem a home paged leaf =>
              withHomeOp (.lowWord x.a.rix n) f.acq a home paged leaf n x.h.cp ea s0 s fun s =>
                let r := s.homeCas n a e v
                (leBytes n r.1, r.2)
            | .peer p w o =>
              withFar p s fun s =>
                .stay ((s.sendPeer false x.a.rix ea p w o 0x04 f.code.toNat n
                  (leBytes n e.toNat ++ leBytes n v.toNat)).awaitReply (.lowWord x.a.rix n) ea f.acq
                    (emptiedSince s0 s))
            | .host o =>
              withOrder hostHome s fun s =>
                .stay ((s.hostAtomic 2 o n e v).awaitReply (.lowWord x.a.rix n) ea f.acq (emptiedSince s0 s))
            | .zeros => .again (s.pageEvent cREV (nAmo true) 6 ea.toNat)
           if f.rel then withRelease sc.1 sc.2 s go else go)) s

/-- `lda` (R184): no near cache serves it; at `thr` it drops nothing. -/
def execLda (sc : Scope) (x : Args) (s : State) : Host.Outcome State Fault Refusal :=
  issue x.h (fun s0 =>
    withEa x.b x.c s0 fun ea s =>
      withPlace nLoad ea 8 8 false s fun l s =>
        withDest x.a s (withBlockRead (.word x.a.rix) 3 (sc != .thr) x.h.cp false ea s0 [(l, 8)] s)) s

/-- `stl` (R184): a recorded fault, the release, then the posted store. -/
def execStl (sc : Scope) (x : Args) (s : State) : Host.Outcome State Fault Refusal :=
  issue x.h (fun s =>
    withEa x.b x.c s fun ea s => withSrc x.a s fun v s =>
      withRecorded s
        (withPlace nStore ea 8 8 true s fun l s =>
          let dst := match l with
            | .peer p _ _ => some p
            | _ => none
          withRelease sc dst s (withStore .store 4 x.h.cp ea [(l, 8)] (leBytes 8 v.toNat) s .done))) s

/-- `fence` (R185): STS, ENG and LDS of the mask; FAR takes in what is homed on another device or behind the host
window. With STS, later fetches are ordered after the thread's stores (R24). -/
def execFence (sc : Scope) (x : Args) (s : State) : Host.Outcome State Fault Refusal :=
  issue x.h (fun s =>
    let m := x.a.immW.toNat
    let far := bit m 4
    let drop (s : State) : State := if bit m 0 && sc != .thr then s.dropNear s.thr.core else s
    let eng (sts : Bool) : Eff :=
      if bit m 3 && decide (s.thr.res.cmds ≠ 0) then .park .engines
      else .done (if sts then (drop s).mapRes fun r => { r with fenced := s.serial } else drop s)
    if bit m 1 then
      withPerformed sc none far s (withRecorded s (eng (sc != .thr)))
    else eng false) s

/-- `wtw`: at its home the word is compared, or the thread waits there (R186). -/
def wtwOp (kind : WaitKind) (sub : Nat) (x : Args) (s : State) : Host.Outcome State Fault Refusal :=
  issue x.h (fun s0 =>
    withEa x.b x.c s0 fun ea s => withSrc x.a s fun e s =>
      withPlace nWtw ea 8 8 false s fun l s =>
        withDest x.a s
          (let d := ReplyTo.word x.a.rix
           match l with
          | .mem a home paged leaf =>
            withHome d true a home 8 ea s0 s fun s =>
              let s := if paged then s.touchL2 home a (effPolicy leaf x.h.cp) false else s
              let v := s.readWord a
              let go := if kind = .wtwGe then decide (e.toNat ≤ v.toNat) else v != e
              if go then .stay ((s.ackTo s.thr.core home).replyBy d ea true (emptiedSince s0 s) (leBytes 8 v.toNat))
              else .stay (s.waitAtHome kind a home paged e x.a.rix ea x.h.cp (emptiedSince s0 s))
          | .peer p w o =>
            withFar p s fun s =>
              .stay ((s.sendPeer false x.a.rix ea p w o 0x01 sub 8 (leBytes 8 e.toNat)).awaitReply (.word x.a.rix) ea true
                (emptiedSince s0 s))
          | .host _ | .zeros => .again (s.pageEvent cREV nWtw 6 ea.toNat))) s

/-- `wtw.ne` (R186). -/
def execWtwNe (x : Args) (s : State) : Host.Outcome State Fault Refusal := wtwOp .wtwNe 4 x s

/-- `wtw.ge` (R186). -/
def execWtwGe (x : Args) (s : State) : Host.Outcome State Fault Refusal := wtwOp .wtwGe 5 x s

end Sys2Proof.Machine
end

