-- ==== Sys2Proof/Machine/Contexts.lean ====
section
/-! DEFINITION. Context lines, the ember cache and records (R73-R78), materialisation, populations and their completion
(R85, R86, R95, R430), barriers (R100), wakes (R97), messages (R89, R103) and the end of a thread (R96). -/

namespace Sys2Proof.Machine

open Config

/-! ### Context lines and the ember cache -/

/-- The context lines threads of a core hold. -/
def State.usedLines (s : State) (core : Nat) : List Nat :=
  (s.attached core).filterMap fun t => match t.place with
    | .line n => some n
    | _ => t.fillTo

/-- The lowest FREE line of a core: not in use, in service (R408), and in no OFF bank (R79). -/
def State.freeLine (s : State) (core : Nat) : Option Nat :=
  let c := s.core core
  let used := s.usedLines core
  (List.range 64).find? fun n => !used.contains n && !c.badLines.contains n && c.bank (n / 16) != 2

/-- The thread holds an IDLE line that may be a victim (R74, R105). -/
def Thread.evictable (t : Thread) : Bool :=
  (match t.place with
    | .line _ => true
    | _ => false) && t.slot.isNone && !t.pinC && !t.pinG && decide (t.wait ≠ .fill)

/-- The least recently bound of the threads that satisfy `p`. -/
def oldestOf (p : Thread → Bool) (l : List Thread) : Option Thread :=
  (l.filter p).foldl (fun o t => match o with
    | none => some t
    | some u => if t.bound < u.bound then some t else some u) none

/-- Images the ember cache of a core holds (R76). -/
def State.emberUsed (s : State) (core : Nat) : Nat := (s.attached core).countP fun t => decide (t.place = .ember)

/-- Images the ember cache of a core can hold (R76, R145). -/
def CoreSt.emberRoom (c : CoreSt) : Nat := 256 * bits c.cmpart.toNat 12 4

/-- Raises CXF for a record: 0 materialise, 1 fill, 2 write-back (R77, R347, R349). -/
def State.cxfEvent (core : Nat) (cxa : Word) (op : Nat) (s : State) : State :=
  s.sendFlue core cCXF (pageOf cxa.toNat) (field op 59 ||| field core 48 ||| (cxa >>> 8 &&& 0xFFFFFFFFFFFF#64))

/-- Writes a thread's image to its record, or holds the write-back with CXF (R77, R78), also where the record's home has halted (DESIGN
CHOICE, log 64). A record on another device takes it over the route back; a fault there is raised there (R99, log 40). -/
def State.toRecord (t : Thread) (s : State) : Bool × State :=
  if t.abroad ≠ [] then (true, s.updThr t.core t.ctx.cxa fun t => { t with place := .record, wbHeld := false })
  else
  let s := s.reachRecord t.core (t.ctx.st.extractLsb' 16 16) t.ctx.cxa true
  match s.recordHome t with
  | some a => (true, (s.updThr t.core t.ctx.cxa fun t => { t with place := .record, wbHeld := false }).saveRecord a t)
  | none => (false, (s.updThr t.core t.ctx.cxa fun t => { t with wbHeld := true }).cxfEvent t.core t.ctx.cxa 2)

/-- Makes room for one more image in the ember cache (R76): whether there is any. No image with a result owed is chosen, and the least
recently used is that of the thread that was bound least recently (DESIGN CHOICE, log 55). -/
def State.emberSpace (core : Nat) : Nat → State → Bool × State
  | 0, s => (false, s)
  | fuel + 1, s =>
    if s.emberUsed core < (s.core core).emberRoom then (true, s)
    else
      match oldestOf (fun t => decide (t.place = .ember) && !t.wbHeld && t.ctx.owe == 0#16 && !t.ctx.rld) (s.attached core) with
      | none => (false, s)
      | some t => State.emberSpace core fuel (s.toRecord t).2

/-- Writes a line back to the ember cache (R76): false while no image can make room. -/
def State.toEmber (t : Thread) (s : State) : Bool × State :=
  let r := s.emberSpace t.core (s.emberUsed t.core + 1)
  if r.1 then
    (true, (r.2.touchBank t.core t).updThr t.core t.ctx.cxa fun t => { t with place := .ember, backDue := false })
  else r

/-- Lines whose write-back has waited for room are written back (R76, R373). -/
def State.backAll (core : Nat) (s : State) : State :=
  ((s.attached core).filter fun t => t.backDue && t.slot.isNone).foldl (fun s t => (s.toEmber t).2) s

/-- A line for an image: a FREE one, or that of the least recently bound IDLE thread, written back (R75). -/
def State.takeLine (core : Nat) (s : State) : Option Nat × State :=
  match s.freeLine core with
  | some n => (some n, s)
  | none =>
    match oldestOf Thread.evictable (s.attached core) with
    | some t => let r := s.toEmber t; (if r.1 then r.2.freeLine core else none, r.2)
    | none => (none, s)

/-- Whether a FREE line or the ember cache can take one more image (R99). -/
def State.seatRoom (core : Nat) (s : State) : Bool × State :=
  match s.freeLine core with
  | some _ => (true, s)
  | none => s.emberSpace core (s.emberUsed core + 1)

/-- Puts the image of an attached thread into a FREE line, else into the ember cache; a write into a line of a bank in RET brings the
bank back (R79, R99). -/
def State.seat (core : Nat) (cxa : Word) (s : State) : State :=
  match s.freeLine core with
  | some n => (s.touchBank core { place := .line n }).updThr core cxa fun t => { t with place := .line n }
  | none => s.updThr core cxa fun t => { t with place := .ember }

/-- Puts the new image of an attached thread into a FREE line, else into the ember cache, else into its record (R384). -/
def State.placeImage (core : Nat) (cxa : Word) (s : State) : State :=
  let r := s.seatRoom core
  if r.1 then r.2.seat core cxa
  else match r.2.findThr core cxa with
    | some t => (r.2.toRecord t).2
    | none => r.2

/-! ### Materialisation (R71, R86) -/

/-- The context of a new thread (R71, R53). -/
def newCtx (p : Pop) (tix : Nat) (cxa : Word) (grp : BitVec 16) : Ctx :=
  { x := Vector.ofFn fun i => p.seeds.getD i.val 0#64
    pc := p.pc, st := field grp.toNat 32 ||| field p.task.toNat 16, cxa := cxa, tix := BitVec.ofNat 64 tix, pop := p.handle }

/-- Marks the newest run-queue entry of a thread as context-faulted. -/
def State.markCf (core : Nat) (cxa : Word) (s : State) : State :=
  s.setCore core fun c => { c with runq := c.runq.map fun e => if e.cxa == cxa then { e with cf := true } else e }

/-- Changes a population. -/
def State.updPop (ix : Nat) (f : Pop → Pop) (s : State) : State :=
  { s with pops := mapFirst (fun p => p.ix == ix) f s.pops }

/-- A population. -/
def State.findPop (s : State) (ix : Nat) : Option Pop := s.pops.find? fun p => p.ix == ix

/-- Materialises one thread of a population on a core (R71, R86); CXF leaves it unmaterialised, with a marked entry (R78,
R410). -/
def State.materialise (p : Pop) (core i : Nat) (cxa : Word) (grp : BitVec 16) (s : State) : State :=
  let t : Thread :=
    { ctx := newCtx p (p.tixb + i) cxa grp, core := core, place := .record, pinG := grp != 0#16, wait := .ready
      popIx := p.ix, bound := s.serial }
  let s1 := ({ s with pool := s.pool ++ [t], serial := s.serial + 1 }).updPop p.ix fun p => { p with live := p.live + 1 }
  let s2 := (s1.enqueue core cxa 0#2).reachRecord core p.task cxa true
  if (s.recordAt core p.task cxa).isSome then s2.placeImage core cxa
  else ((s2.updThr core cxa fun t => { t with raw := true }).markCf core cxa).cxfEvent core cxa 0

/-- The record of index i of a population's arena (R86, R95). -/
def Pop.record (p : Pop) (i : Nat) : Word := p.arena + BitVec.ofNat 64 (256 * i)

/-- Where index i of the first wave of a population goes: core k of its placement list holds k·q to k·q + q − 1 (R86). -/
def Pop.waveCore (p : Pop) (i : Nat) : Nat := p.cores.getD (i / p.quota) 0

/-- How many threads the first wave has (R86). -/
def Pop.waveSize (p : Pop) : Nat := min p.count (p.cores.length * p.quota)

/-- Materialises index i of the first wave (R86). -/
def State.materialiseNext (p : Pop) (i : Nat) (s : State) : State :=
  (s.materialise p (p.waveCore i) i (p.record i) 0#16).updPop p.ix fun p => { p with toCome := p.toCome - 1 }

/-- Materialises the indices of the first wave from i on (R86). -/
def State.wave (p : Pop) : Nat → Nat → State → State
  | 0, _, s => s
  | n + 1, i, s => State.wave p n (i + 1) (s.materialiseNext p i)

/-! ### Messages -/

/-- A message on its way to an inbox channel (R89). -/
def State.sendMsg (core chan : Nat) (m : Msg) (join : Option (Nat × Nat)) (cxa : Word) (s : State) : State :=
  { s with msgs := s.msgs ++ [⟨core, chan, m, join, cxa, []⟩] }

/-- KSTAT of a message (R89). -/
def kstat (kind code : Nat) : BitVec 16 := BitVec.ofNat 16 (kind + 256 * code)

/-- A wake reaches a thread (R97): 1 when it is attached there. -/
def State.wakeThread (core : Nat) (cxa : Word) (s : State) : Word × State :=
  match s.findThr core cxa with
  | none => (0#64, s)
  | some t =>
    if t.wait = .park then
      (1#64, ((s.updImage core cxa fun t => { t with ctx := { t.ctx with pk := false } }).makeReady core cxa).dropNear core)
    else (1#64, s.updImage core cxa fun t => { t with ctx := { t.ctx with wk := true } })

/-- The 32 bytes of a message (R89). -/
def Msg.toBytes (m : Msg) : List Byte :=
  leBytes 4 m.tag.toNat ++ leBytes 2 m.kstat.toNat ++ leBytes 2 m.src.toNat
    ++ ([m.d0, m.d1, m.d2].map fun w => leBytes 8 w.toNat).flatten

/-- A message is written into the next entry of its ring; its channel's notice thread is woken (R89, R103). -/
def State.putMsg (core chan : Nat) (m : Msg) (s : State) : State :=
  let c := s.core core
  let q := c.inbox.getD chan (0, 0)
  let s1 := (s.writeMem (coreAddr core (c.ibEntryAt chan (q.1 + q.2))) m.toBytes).setCore core fun c =>
    { c with inbox := c.inbox.set chan (q.1, q.2 + 1) }
  match (s.core core).notice.getD chan none with
  | some cxa => (s1.wakeThread core cxa).2
  | none => s1

/-- Entries a channel has left (R89). -/
def State.roomOf (s : State) (core chan : Nat) : Nat := (s.core core).ibEntries - (s.core core).ibCount chan

/-- The pressure level of a core for a message: 3 when the channel it names is full (R195). -/
def State.levelOf (s : State) (core chan : Nat) : Nat := if s.roomOf core chan = 0 then 3 else s.level core

/-- A completion is counted into a join record (R104). -/
def JoinRec.count (order code : Nat) (j : JoinRec) : JoinRec :=
  let n := bits j.status.toNat 8 8
  let first := if n = 0 ∨ order < bits j.status.toNat 16 16 then order else bits j.status.toNat 16 16
  { j with
    completed := j.completed + 1
    status := if code = 0 then j.status
      else field first 16 ||| field (min 255 (n + 1)) 8 ||| (j.status &&& 1#64) ||| (if code = 1 then 1#64 else 0#64) }

/-- A completion of a thread's command takes effect: it is counted into the thread's join record, also in a saved set (R369), or
enqueued into an inbox channel; none when the channel is full (R89, R104). -/
def State.complete (core : Nat) (cxa : Word) (chan : Nat) (m : Msg) (join : Option (Nat × Nat)) (s : State) : Option State :=
  match join with
  | some (idx, order) =>
    let mine (j : JoinRec) : Bool := j.idx == idx && j.cxa == cxa
    let count := mapFirst mine (JoinRec.count order (m.kstat.toNat / 256))
    if (s.core core).joins.any mine then some (s.setCore core fun c => { c with joins := count c.joins })
    else if (s.core core).saved.joins.any mine then
      some (s.setCore core fun c => { c with saved := { c.saved with joins := count c.saved.joins } })
    else if 0 < s.roomOf core chan then some (s.putMsg core chan m) else none
  | none => if 0 < s.roomOf core chan then some (s.putMsg core chan m) else none

/-! ### The completion of a population (R86, R430) -/

/-- A leaf whose bits agree with its level (R354, R374). -/
def wellFormedLeaf (l : Word) (large : Bool) : Bool :=
  (!large || bits l.toNat 16 13 == 0) && l.getLsbD 62 && lfCPC l != 3 && l.toNat % 2 ^ 16 == 0
    && (!lfHK l || bits l.toNat 49 3 == 0)

/-- Installs a leaf in a port's TLB of 4,096 entries (R16, R356). -/
def ClusterSt.install (task : BitVec 16) (g : Nat) (l : Word) (large : Bool) (c : ClusterSt) : ClusterSt :=
  let size := if large then 2 ^ 29 else 2 ^ 16
  let old := c.tlb.filter fun e => !e.hits task g
  { c with tlb := (if old.length < 4096 then old else old.drop 1) ++ [⟨task, g / size * size, large, l⟩] }

/-- From a GVA to its place on behalf of an engine or a completion add (R355, R356): a page that misses the TLB is noted, and the
step is then given up; a walk that was refused fails with its WHY. Outside a step that is tried, the tables are walked in the same
step (DESIGN CHOICE, log 15). -/
def State.locateEng (s : State) (who : Who) (nd : Need) (g n : Nat) : Found :=
  match s.locate who nd g n with
  | .miss s1 =>
    match s.trying with
    | some t =>
      match s.refusal t.1 who.core who.task g with
      | some why => .fail (.pgf why)
      | none => .miss (s1.noteMiss ⟨who.core, who.task, who.lvlH, g / 2 ^ 16, nd.kind, 0, none⟩)
    | none =>
      match s.walkTable who.task g with
      | none => .fail (.pgf 5)
      | some (_, l, large) =>
        if !wellFormedLeaf l large then .fail (.pgf 5)
        else if !lfV l then .fail (.pgf 0)
        else if !lfP l then .fail (.pgf 1)
        else (s.setCluster (s.coreCluster who.core) (ClusterSt.install who.task g l large)).locate who nd g n
  | r => r

/-- The page-event word of an engine's access (R348). -/
def engWord (ekind slot : Nat) (who : Who) (kind why : Nat) : Word :=
  field 1 62 ||| field ekind 60 ||| pageWord who kind why ||| field slot 0

/-- The hearth core that serves a core's die. -/
def State.hearthFor (s : State) (core : Nat) : Nat := hearthOf (s.coreDie core)

/-- The population is complete. -/
def State.closePop (ix : Nat) (s : State) : State := s.updPop ix fun p => { p with complete := true, heldAt := none }

/-- The completion add failed at its home: KIND 6 to channel 7 of the hearth (R430). -/
def State.doneFailed (p : Pop) (code reason : Nat) (s : State) : State :=
  (s.sendMsg (s.hearthFor p.lastCore) 7
    ⟨0#32, kstat 6 code, BitVec.ofNat 16 p.lastCore, p.handle, p.done, field p.task.toNat 16 ||| field reason 0⟩ none 0#64).closePop p.ix

/-- One try of the completion add of a population (R430): it is performed at DONE's home, sent to a peer or the host, held with
a page event, or reported as failed. -/
def State.tryAdd (p : Pop) (s : State) : State :=
  if p.done = 0#64 then s.closePop p.ix
  else
    let who : Who := ⟨p.lastCore, p.task, false⟩
    let now := s.now p.lastCore
    match (s.taskSet p.lastCore p.task).gva (nAmo true) p.done 8 with
    | none => s.updPop p.ix fun p => { p with heldAt := some (now, (p.heldAt.map (·.2)).getD (now - 0x100000#64)) }
    | some g =>
      let hold (cause : BitVec 8) (why : Nat) : State :=
        let again := match p.heldAt with
          | some (_, t) => decide (2 ^ 20 ≤ (now - t).toNat)
          | none => true
        let s1 := if again then s.sendFlue p.lastCore cause (pageOf g) (engWord 2 0 who 3 why) else s
        s1.updPop p.ix fun p =>
          { p with heldAt := some (now, if again then now else (p.heldAt.map (·.2)).getD now) }
      match s.locateEng who (nAmo true) g 8 with
      | .loc (.mem a home _ _) s1 =>
        if s1.chanWaits a then s1.updPop p.ix fun p => { p with heldAt := some (now, (p.heldAt.map (·.2)).getD (now - 0x100000#64)) }
        else if s1.homeDead home then s1.doneFailed p 2 0
        else if s1.poisoned a 8 then s1.doneFailed p 1 0
        else ((s1.homeAmo 0 a 1#64).2.2).closePop p.ix
      | .loc (.peer q w o) s1 =>
        (s1.sendEngine (.pop p.ix) p.lastCore p.done q w o [(0x03, 0, 8, leBytes 8 1)]).updPop p.ix fun p => { p with heldAt := none }
      | .loc (.host o) s1 =>
        (s1.askHost (.pop p.ix) 8 (.atomic · o 0 8 1#64 0#64)).updPop p.ix fun p => { p with heldAt := none }
      | .loc .zeros _ => hold cREV 6
      | .fail .rev => hold cREV 6
      | .fail (.pgf why) => hold (if why = 5 then cWLK else cPGF) why
      | .fail .seg => hold cPGF 3
      | .deadPeer _ => s.doneFailed p 6 3
      | .miss s => s

/-- The completion add of a population (R430); while its page is walked it is held, and tried again (R355). -/
def State.doneAdd (p : Pop) (s : State) : State :=
  let now := s.now p.lastCore
  match s.tryPort (.pop p.ix) (State.tryAdd p) with
  | .ok u => u
  | .error u => u.updPop p.ix fun p => { p with heldAt := some (now - 0x1000#64, (p.heldAt.map (·.2)).getD (now - 0x100000#64)) }

/-- A population whose indices and threads are exhausted completes (R86). -/
def State.popEnds (ix core : Nat) (s : State) : State :=
  match s.findPop ix with
  | some p =>
    if p.count ≤ p.cursor && p.toCome == 0 && p.live == 0 && !p.complete then
      let s1 := s.updPop ix fun p => { p with lastCore := core }
      s1.doneAdd { p with lastCore := core }
    else s
  | none => s

/-! ### Barriers (R100) -/

/-- The group of an id on a cluster. -/
def State.findGroup (s : State) (k : Nat) (id : BitVec 16) : Option Group := (s.cluster k).groups.find? fun g => g.id == id

/-- Changes a group of a cluster. -/
def State.updGroup (k : Nat) (id : BitVec 16) (f : Group → Group) (s : State) : State :=
  s.setCluster k fun c => { c with groups := mapFirst (fun g => g.id == id) f c.groups }

/-- Members that have arrived become ready, each with an acquire (R100). -/
def State.releaseAll : List (Nat × Word) → State → State
  | [], s => s
  | (core, cxa) :: l, s => State.releaseAll l ((s.makeReady core cxa).dropNear core)

/-- The barrier unit releases its group when every live member has arrived (R100). -/
def State.barrierTest (k : Nat) (id : BitVec 16) (s : State) : State :=
  match s.findGroup k id with
  | some g =>
    if g.arrived ≠ [] ∧ g.arrived.length = g.live then
      State.releaseAll g.arrived (s.updGroup k id fun g => { g with arrived := [], phase := !g.phase })
    else s
  | none => s

/-- A member leaves its group: the count falls, and an empty group gives its barrier unit back (R85, R96, R100). -/
def State.leaveGroup (k : Nat) (id : BitVec 16) (core : Nat) (cxa : Word) (s : State) : State :=
  let s1 := s.updGroup k id fun g => { g with live := g.live - 1, arrived := g.arrived.filter fun a => !(a.1 == core && a.2 == cxa) }
  (s1.setCluster k fun c => { c with groups := c.groups.filter fun g => g.live != 0 }).barrierTest k id

/-- A thread that has been removed leaves its crew or gang, if it is in one. -/
def State.exitGroup (t : Thread) (s : State) : State :=
  let grp := t.ctx.st.extractLsb' 32 16
  if grp = 0#16 then s else s.leaveGroup (s.coreCluster t.core) grp t.core t.ctx.cxa

/-! ### The end of a thread (R96) -/

/-- Steps 1 to 3 of R96: the line and the record are freed, the group is left, the next index is pulled. -/
def State.endThread (core : Nat) (cxa : Word) (s : State) : State :=
  match s.findThr core cxa with
  | none => s
  | some t =>
    let s3 := (((s.orphan core cxa).removeThr core cxa).exitGroup t).updPop t.popIx fun p => { p with live := p.live - 1 }
    match s3.findPop t.popIx with
    | some p =>
      if p.cursor < p.count then
        (s3.updPop p.ix fun p => { p with cursor := p.cursor + 1 }).materialise p core p.cursor cxa 0#16
      else s3.popEnds p.ix core
    | none => s3

/-- The thread that issues marks a register as owed and goes on (R39, R52). -/
def State.oweX (r : BitVec 4) (s : State) : State :=
  s.mapCtx fun c => { (c.drain r) with owe := c.owe ||| BitVec.ofNat 16 (2 ^ r.toNat) }

/-- A result on its way to a register of a thread (R80). -/
def State.oweWord (core : Nat) (cxa : Word) (r : BitVec 4) (v : Word) (s : State) : State :=
  { s with owed := s.owed ++ [⟨core, cxa, .xreg r, v, 0#5⟩] }

end Sys2Proof.Machine
end

