-- ==== Sys2Proof/Machine/Threads.lean ====
section
/-! DEFINITION. The thread instructions (R92-R106). -/

namespace Sys2Proof.Machine

open Config

/-- Reads `n` bytes as one access and goes on with them (R412); those of a peer or the host arrive first, and the
instruction, whose register CTAG names (R218), is then issued again. -/
def withBytes (reg : BitVec 4) (nd : Need) (ea : Word) (n align : Nat) (cp : BitVec 2) (s : State) (k : List Byte → State → Eff) : Eff :=
  match s.thr.res.record with
  | some bs => k bs (s.mapRes fun r => { r with record := none })
  | none =>
    withAccess nd ea n align false s fun ls s =>
      match ls with
      | (.peer p w o, _) :: _ =>
        withFar p s fun s =>
          .again ((s.sendPeer false reg ea p w o 0x01 0 n []).awaitReply .record ea false 0#16)
      | (.host o, _) :: _ => withOrder hostHome s fun s => .again ((s.hostRead o n).awaitReply .record ea false 0#16)
      | _ => withRead cp false (fun reason _ _ => .trap tPOI reason ea) ls s fun bs s => k bs (s.noteZeros ls)

/-- A spawn descriptor (R94). -/
structure SpawnDesc where
  pc : Word
  seeds : List Word
  count : Nat
  quota : Nat
  place : Word
  arena : Word
  done : Word
  task : BitVec 16
  shape : Nat
  bad : Bool
  deriving DecidableEq, Repr

/-- COUNT: a field of 0 stands for 2^40 (R94). -/
def countOf (v : Nat) : Nat := if bits v 0 40 = 0 then 2 ^ 40 else bits v 0 40

/-- A descriptor from its 128 bytes, with whether a field of its own breaks its limit (R94). -/
def SpawnDesc.ofBytes (bs : List Byte) : SpawnDesc :=
  let w (a : Nat) : Nat := (wordAt bs a).toNat
  { pc := wordAt bs 0, seeds := (List.range 4).map fun i => wordAt bs (8 + 8 * i)
    count := countOf (w 0x28), quota := bits (w 0x28) 40 16, place := wordAt bs 0x30, arena := wordAt bs 0x38
    done := wordAt bs 0x40, task := BitVec.ofNat 16 (w 0x48), shape := bits (w 0x48) 16 2
    bad := decide (w 0 % 4 ≠ 0) || decide (bits (w 0x28) 56 8 ≠ 0) || decide (bits (w 0x28) 40 16 = 0)
      || decide (4096 < bits (w 0x28) 40 16) || decide (w 0x38 % 2 ^ 16 ≠ 0) || decide (bits (w 0x48) 16 2 = 3)
      || decide (bits (w 0x48) 18 46 ≠ 0) || (bs.drop 0x50).any (· != 0#8) }

/-- The home core of a checked place; the host window has none (DEDUCED, log 26). -/
def placeHome (s : State) (g : Nat) (l : Loc) : Option Nat :=
  match l with
  | .mem _ h _ _ => some h
  | .zeros =>
    match s.lookup s.myCluster s.task g with
    | .leaf lf _ => some (s.homeOf s.task lf g)
    | _ => none
  | _ => none

/-- The placement cores of a spawn (R94): WHY 0xD where PLACE breaks its limit. -/
def withCores (pl : Placement) (d : SpawnDesc) (s : State) (k : List Nat → State → Eff) : Eff :=
  match pl with
  | .loc => k [s.thr.core] s
  | .core => if d.place.toNat < nCores then k [d.place.toNat] s else .ill 0x10#8 0xD
  | .mask =>
    if 256 ≤ d.place.toNat then .ill 0x10#8 0xD
    else
      let l := maskCores (s.homeMask d.place.toNat)
      if l = [] then .ill 0x10#8 0xD else k l s
  | .addr =>
    withPlace {} d.place 1 1 false s fun l s =>
      match placeHome s (((s.taskSet s.thr.core s.task).gva {} d.place 1).getD 0) l with
      | some h => k [h] s
      | none => .ill 0x10#8 0xD

/-- The limits of a crew or a gang (R94). -/
def shapeOk (pl : Placement) (d : SpawnDesc) (cores : List Nat) (s : State) : Bool :=
  match d.shape with
  | 0 => true
  | 1 => pl != .mask && decide (d.count ≤ 64)
  | _ => pl != .mask && decide (d.count ≤ 64 * (s.workCores (s.coreCluster (cores.headD 0))).length)

/-- A handle: non-zero and otherwise free (R94, DESIGN CHOICE, log 9). -/
def handleOf (n : Nat) : Word := if freeWord n = 0#64 then 1#64 else freeWord n

/-- A new population, under a fresh number (R86, R95). -/
def State.newPop (s : State) (task : BitVec 16) (d : SpawnDesc) (cores : List Nat) (tixb : Nat) : Pop × State :=
  let p : Pop :=
    { ix := s.serial + 1, handle := handleOf s.serial, task := task, pc := d.pc, seeds := d.seeds, count := d.count
      quota := d.quota, cores := cores, cursor := if d.shape = 0 then cores.length * d.quota else d.count, arena := d.arena
      done := d.done, tixb := tixb, live := 0, shape := d.shape, complete := false, heldAt := none
      lastCore := cores.headD 0, toCome := if d.shape = 0 then min d.count (cores.length * d.quota) else 0 }
  (p, { s with pops := s.pops ++ [p], serial := s.serial + 1 })

/-- Threads the first wave of a population brings to a core (R86). -/
def Pop.waveOn (p : Pop) (core : Nat) : Nat :=
  let k := p.cores.findIdx (· == core)
  if k < p.cores.length then min p.quota (p.count - k * p.quota) else 0

/-- DONE is checked under R141 steps 1 to 4 with right A (R430): the trap it raises. -/
def State.doneTrap (s : State) (task : BitVec 16) (core : Nat) (done : Word) : Option (BitVec 8) :=
  if done = 0#64 then none
  else if done.toNat % 8 ≠ 0 then some tALN
  else match (s.taskSet core task).gva (nAmo true) done 8 with
    | none => some tSEG
    | some g => if s.area false (nAmo true) g 8 = .none then some tSEG else none

/-- `spawn`: every earlier store is performed, then the descriptor is read (R94, R95, R169, R177, R412, R417, R430); at a core that is
full of attached threads it waits (DESIGN CHOICE, log 58). -/
def execSpawn (pl : Placement) (x : Args) (s : State) : Host.Outcome State Fault Refusal :=
  issue x.h (fun s =>
    withEa x.b x.c s fun ea s =>
      withDest x.a s
        (withStores s
          (withBytes x.a.rix nLoad ea 128 128 0#2 s fun bs s =>
            let d := SpawnDesc.ofBytes bs
            if d.bad then .ill 0x10#8 0xD
            else
              withCores pl d s fun cores s =>
                let task := if s.levelH then d.task else s.task
                if !shapeOk pl d cores s then .ill 0x10#8 0xD
                else if !s.levelH && cores.any isHearth then .trap tPRIV 0#8 (illDetail 0x10#8 0 0)
                else if cores.any (fun n => s.homeDead n || (!s.levelH && isSpare n)) then
                  .trap tPOI pDEAD (freeWord s.serial)
                else
                  match s.doneTrap task s.thr.core d.done with
                  | some c => .trap c 0#8 d.done
                  | none =>
                    match cores.find? fun n => !s.rdyc.contains (s.coreCluster n) with
                    | some n => .park (.ready (s.coreCluster n))
                    | none => withRecords s fun s =>
                      let (p, s1) := s.newPop task d cores 0
                      let s1 := s1.writeX x.a.rix p.handle
                      if d.shape = 0 then
                        match cores.find? fun n => 4096 < (s.attached n).length + p.waveOn n with
                        | some n => .park (.attach n)
                        | none => .done (State.wave p p.waveSize 0 s1)
                      else .done (s1.setCluster (s1.coreCluster (cores.headD 0)) fun c => { c with admits := c.admits ++ [p.ix] })))) s

/-- PEND is all zero (R72). -/
def Ctx.pendZero (c : Ctx) : Bool := c.stc == 0#16 && !c.rld && c.owe == 0#16

/-- Waits for PEND = 0 and for owed predicates, and raises a recorded fault (R96, R99, R156, R230). -/
def withPend (s : State) (k : Eff) : Eff :=
  if s.thr.ctx.pendZero && !s.thr.res.owesPred then withRecorded s k else .park .pend

/-- `exit` (R96). -/
def execExit (x : Args) (s : State) : Host.Outcome State Fault Refusal :=
  issue x.h (fun s => withPend s (withRecords s fun s => .stay (s.endThread s.thr.core s.thr.ctx.cxa))) s

/-- The thread that issues has moved past its instruction and waits. -/
def State.parkPast (w : Wait) (s : State) : State :=
  ((s.setPc (s.pc + 12#64)).mapThr fun t => { t with waitOn := none, parked := false }).waitFor w

/-- `park`: an acquire for this core where the wake has come first (R97). -/
def execPark (x : Args) (s : State) : Host.Outcome State Fault Refusal :=
  issue x.h (fun s =>
    if s.thr.ctx.wk then .done ((s.mapCtx fun c => { c with wk := false }).dropNear s.thr.core)
    else .stay ((s.mapCtx fun c => { c with pk := true }).parkPast .park)) s

/-- A wake of the thread that issues is on its way to a core (R97). -/
def State.sendWake (n : Nat) (cxa : Word) (s : State) : State :=
  { s with
    wakeReqs := s.wakeReqs ++ [⟨n, cxa, s.thr.core, s.thr.ctx.cxa, s.serial⟩]
    serial := s.serial + 1 }

/-- `wake`: earlier stores are completed at the smallest scope that holds both cores; the result arrives later (R97), and until then the
thread waits, so that a target which dies meanwhile raises POI precisely (R413). -/
def execWake (x : Args) (s : State) : Host.Outcome State Fault Refusal :=
  issue x.h (fun s0 =>
    withSrc x.b s0 fun core s => withSrc x.c s fun cxa s =>
      let n := core.toNat
      if nCores ≤ n then .ill 0x13#8 0xD
      else
        withDest x.a s (withRelease (s.scopeOf s.thr.core n) none s
          (if s.homeDead n then .trap tPOI pDEAD (freeWord s.serial)
          else withCharge n s fun s =>
            .stay ((s.sendWake n cxa).awaitReply (.word x.a.rix) (freeWord s.serial) false (emptiedSince s0 s))))) s

/-- `yield` (R98). -/
def execYield (x : Args) (s : State) : Host.Outcome State Fault Refusal :=
  issue x.h (fun s => .stay (((s.setPc (s.pc + 12#64)).mapThr fun t => { t with waitOn := none, parked := false }).yieldThr)) s

/-- The image leaves for another core: pins and notices end, and the streams stay (R99, R103, R105). -/
def State.leaveFor (h : Nat) (s : State) : State :=
  let t := { s.thr.unbind with
    core := h, place := .record, pinC := false, waitOn := none, parked := false
    past := if s.thr.res.cmds = 0 then [] else s.thr.core :: s.thr.past }
  let src := s.thr.core
  let cxa := s.thr.ctx.cxa
  let s1 := s.removeThr src cxa
  { s1 with
    hops := s1.hops ++ [{ src := src, ser := s1.serial, t := { t with ctx := { t.ctx with pc := t.ctx.pc + 12#64 } } }]
    serial := s1.serial + 1 }

/-- `hop` (R99); to a peer it names no register (DESIGN CHOICE, log 68). -/
def execHop (x : Args) (s : State) : Host.Outcome State Fault Refusal :=
  issue x.h (fun s =>
    withEa x.b x.c s fun ea s =>
      withGva nLoad ea 1 1 s fun g =>
        withLoc nLoad ea g 1 false s fun l s =>
          if s.grp ≠ 0#16 ∨ s.thr.res.join.isSome then .ill 0x15#8 0xE
          else
            withPend s
              (match l with
              | .peer p w o =>
                withFar p s fun s =>
                  .stay ((s.sendPeer false 0#4 ea p w o 0x06 0 224
                    ({ s.thr.unbind.ctx with pc := s.pc + 12#64 }).toBytes).awaitReply .gone ea false 0#16)
              | l =>
                match placeHome s g l with
                | none => .trap tPOI pDEAD ea
                | some h =>
                  if h = s.thr.core then .done s
                  else if s.homeDead h then .trap tPOI pDEAD ea
                  else if 4096 ≤ (s.attached h).length then .park (.attach h)
                  else withCharge h s fun s => .stay (s.leaveFor h))) s

/-- A barrier (R100): a release, the arrival, and a wait until every live member has arrived. -/
def barrier (crew : Bool) (op : BitVec 8) (sc : Scope) (s : State) : Eff :=
  match (if s.grp = 0#16 then none else s.findGroup s.myCluster s.grp) with
  | some g =>
    if g.crew != crew then .ill op 0xC
    else
      withRelease sc none s
        (if g.arrived.length + 1 = g.live then
          let s1 := State.releaseAll g.arrived
            (s.updGroup s.myCluster s.grp fun g => { g with arrived := [], phase := !g.phase })
          .done (s1.dropNear s1.thr.core)
        else
          let s1 := s.updGroup s.myCluster s.grp fun g => { g with arrived := g.arrived ++ [(s.thr.core, s.thr.ctx.cxa)] }
          .stay (s1.parkPast .barrier))
  | none => .ill op 0xC

/-- `cbar` (R100). -/
def execCbar (x : Args) (s : State) : Host.Outcome State Fault Refusal := issue x.h (barrier true 0x16#8 .core) s

/-- `gbar` (R100). -/
def execGbar (x : Args) (s : State) : Host.Outcome State Fault Refusal := issue x.h (barrier false 0x17#8 .clu) s

/-- The channel an operand names. -/
def chanOfOpnd (o : Opnd) : Nat :=
  match o with
  | .chan c => c.toNat
  | _ => 0

/-- `ibx`: the oldest message of the channel is read from its ring into four registers; an acquire for this core (R101). A
poisoned entry raises POI as a load of it does, and stays in the ring (R157, DEDUCED, log 45). -/
def execIbx (x : Args) (s : State) : Host.Outcome State Fault Refusal :=
  issue x.h (fun s =>
    let ch := chanOfOpnd x.b
    let c := s.core s.thr.core
    let q := c.inbox.getD ch (0, 0)
    let a := coreAddr s.thr.core (c.ibEntryAt ch q.1)
    withDests 4 x.a.rix s
      (if q.2 ≤ s.aheadOf (.inbox ch) then .park (.inbox ch)
      else if s.poisoned a 32 then .trap tPOI pUNCORR (BitVec.ofNat 64 a)
      else
        .done (((s.setCore s.thr.core fun c => { c with inbox := c.inbox.set ch ((q.1 + 1) % c.ibEntries, q.2 - 1) }).writeRegs
          ((List.range 4).map fun k => s.readWord (a + 8 * k)) x.a.rix).dropNear s.thr.core))) s

/-- `ibs` to a core of this device: it completes when the message is enqueued (R102); its acknowledgment carries level 3 where
the channel is then full (R195). -/
def sendLocal (n ch : Nat) (m : Msg) (s : State) : Eff :=
  if s.homeDead n then .trap tPOI pDEAD (freeWord s.serial)
  else if s.roomOf n ch ≤ s.aheadOf (.room n ch) then .park (.room n ch)
  else withOrder n s fun s => withCharge n s fun s =>
    let s1 := s.putMsg n ch m
    .done (s1.ackWith s.thr.core n (s1.levelOf n ch))

/-- `ibs` to a core of a peer: the reply of its window completes it (R102, R218); it names window 0 and no register (DESIGN CHOICE, log
68). -/
def sendFar (p n ch : Nat) (m : Msg) (s0 s : State) : Eff :=
  if p1State (s.peer1 p) ≠ 1 then .trap tPOI pDEAD (freeWord s.serial)
  else
    withFar p s fun s =>
      .stay (((s.notePeer p 0).sendPeer false 0#4 (freeWord s.serial) p 0 n 0x05 ch 32 m.toBytes).awaitReply .nothing
        (freeWord s.serial) false (emptiedSince s0 s))

/-- `ibs`: every earlier store is performed first (R102, R155, R169, R177). -/
def execIbs (x : Args) (s : State) : Host.Outcome State Fault Refusal :=
  issue x.h (fun s0 =>
    withSrc x.b s0 fun t s =>
      withRegs 4 x.c.rix s fun vs =>
        let n := bits t.toNat 0 11
        let p := bits t.toNat 16 10
        let ch := chanOfOpnd x.a
        let m : Msg := ⟨(vs.getD 0 0#64).setWidth 32, 0#16, BitVec.ofNat 16 s.thr.core, vs.getD 1 0#64, vs.getD 2 0#64, vs.getD 3 0#64⟩
        if t &&& 0xFFFFFFFF7C00F800#64 ≠ 0#64 ∨ (!bit t.toNat 31 ∧ p ≠ 0) then .ill 0x19#8 0xD
        else withStores s (if bit t.toNat 31 then sendFar p n ch m s0 s else sendLocal n ch m s)) s

/-- `ntc` (R103). -/
def execNtc (x : Args) (s : State) : Host.Outcome State Fault Refusal :=
  issue x.h (fun s =>
    withSrc x.b s fun v s =>
      if v ≠ 0#64 ∧ (s.findThr s.thr.core v).isNone then .ill 0x1F#8 0xD
      else
        .done (s.setCore s.thr.core fun c =>
          { c with notice := c.notice.set (chanOfOpnd x.a) (if v = 0#64 then none else some v) })) s

/-- `fork` (R104). -/
def execFork (x : Args) (s : State) : Host.Outcome State Fault Refusal :=
  issue x.h (fun s =>
    withSrc x.b s fun v s =>
      if s.thr.res.join.isSome then .ill 0x1A#8 0xE
      else if v.toNat = 0 ∨ 255 < v.toNat then .ill 0x1A#8 0xD
      else
        withDest x.a s
          (match freshFrom ((s.core s.thr.core).joins.map (·.idx)) 0 256 with
          | none => .park .joinFree
          | some i =>
            if 256 - (s.core s.thr.core).joins.length ≤ s.aheadOf .joinFree then .park .joinFree
            else
              let s1 := s.setCore s.thr.core fun c => { c with joins := c.joins ++ [⟨i, v.toNat, 0, 0, 0#64, s.thr.ctx.cxa⟩] }
              .done ((s1.mapRes fun r => { r with join := some i }).writeFixed x.a.rix (field s.thr.core 8 ||| field i 0) 4 x.h))) s

/-- `rdv`: an acquire for this core (R104). -/
def execRdv (x : Args) (s : State) : Host.Outcome State Fault Refusal :=
  issue x.h (fun s =>
    match s.thr.res.join with
    | none => .ill 0x1B#8 0xE
    | some i =>
      withDest x.a s
        (match (s.core s.thr.core).joins.find? fun j => j.idx == i with
        | none => .ill 0x1B#8 0xE
        | some j =>
          if j.completed = j.n then
            let s1 := s.setCore s.thr.core fun c => { c with joins := c.joins.filter fun j => j.idx != i }
            .done (((s1.mapRes fun r => { r with join := none }).writeX x.a.rix j.status).dropNear s.thr.core)
          else .park .joinDone)) s

/-- `cpin.on` (R105). A thread whose line is pinned already reads 1, and its own pin is not counted against it (DESIGN CHOICE, log
54). -/
def execCpinOn (x : Args) (s : State) : Host.Outcome State Fault Refusal :=
  issue x.h (fun s =>
    withDest x.a s
      (let n := (s.attached s.thr.core).countP fun t => t.pinC
       if s.thr.pinC || decide (n < 16) then .done ((s.mapThr fun t => { t with pinC := true }).writeFixed x.a.rix 1#64 4 x.h)
       else .done (s.writeFixed x.a.rix 0#64 4 x.h))) s

/-- `cpin.off` (R105). -/
def execCpinOff (x : Args) (s : State) : Host.Outcome State Fault Refusal :=
  issue x.h (fun s =>
    withDest x.a s (.done ((s.mapThr fun t => { t with pinC := false }).writeFixed x.a.rix 0#64 4 x.h))) s

/-- A draught destination number (R88). -/
def dnOk (v : Word) : Bool := decide (v.toNat < 0x810)

/-- `drq` (R106). -/
def execDrq (x : Args) (s : State) : Host.Outcome State Fault Refusal :=
  issue x.h (fun s =>
    withSrc x.b s fun v s =>
      if !dnOk v then .ill 0x1D#8 0xD
      else
        withDest x.a s
          (.done (s.writeFixed x.a.rix (BitVec.ofNat 64 ((s.core s.thr.core).allowance v.toNat)) 4 x.h))) s

/-- `jdr`: the allowance at issue against the threshold of FN (R106). -/
def execJdr (n : BitVec 4) (x : Args) (s : State) : Host.Outcome State Fault Refusal :=
  issue x.h (fun s =>
    withSrc x.b s fun v s =>
      if !dnOk v then .ill 0x1E#8 0xD
      else
        withDest x.a s
          (let c := condInt x.a.cond ((s.core s.thr.core).allowance v.toNat : Nat) (n.toNat : Nat)
           let s1 := s.writeP x.a.pix c
           if c then .jump s1 (s.pc + (x.c.immW <<< 2)) else .done s1)) s

end Sys2Proof.Machine
end

