-- ==== Sys2Proof/Machine/Fabric.lean ====
section
/-! DEFINITION. The fabric instructions (R197, R213-R217). -/

namespace Sys2Proof.Machine

open Config

/-- The next generation of a sender entry: 1 to 2,047, skipping 0 (R197). -/
def nextGen (g : Nat) : Nat := if 2047 ≤ g then 1 else g + 1

/-- The tag of a sender entry (R197). -/
def SendStream.tag (e : SendStream) : BitVec 16 := BitVec.ofNat 16 (e.idx + 32 * e.gen)

/-- `sopn`: the cursor is checked, and nothing is sent (R214). -/
def execSopn (x : Args) (s : State) : Host.Outcome State Fault Refusal :=
  issue x.h (fun s =>
    withEa x.b x.c s fun ea s =>
      withGva nStore ea 8 8 s fun g =>
        match s.area s.levelH nStore g 8 with
        | .paged | .window .. =>
          withDest x.a s
            (let l := (s.core s.thr.core).send
             match freshFrom ((l.filter (·.opened)).map (·.idx)) 0 32 with
             | none => .done (s.writeX x.a.rix 0#64)
             | some i =>
               let gen := nextGen (((l.find? fun e => e.idx == i).map (·.gen)).getD 0)
               let e : SendStream := ⟨i, gen, true, s.task, ea, 0#64, 0, false⟩
               .done ((s.setCore s.thr.core fun c => { c with send := (c.send.filter fun f => f.idx != i) ++ [e] }).writeX x.a.rix
                 (e.tag.setWidth 64)))
        | _ => .trap tSEG 0#8 ea) s

/-- The open sender entry a tag register names (R213). -/
def withStream (op : BitVec 8) (v : Word) (s : State) (k : SendStream → Eff) : Eff :=
  if 0x10000 ≤ v.toNat then .ill op 0xD
  else match (s.core s.thr.core).send.find? fun e => e.opened && e.tag.setWidth 64 == v && e.task == s.task with
    | some e => k e
    | none => .ill op 0xE

/-- Changes a sender entry of a core. -/
def State.updSend (core idx : Nat) (f : SendStream → SendStream) (s : State) : State :=
  s.setCore core fun c => { c with send := mapFirst (fun e => e.idx == idx) f c.send }

/-- `scls`: a CLOSE follows the stream's packets to its last home (R214). -/
def execScls (x : Args) (s : State) : Host.Outcome State Fault Refusal :=
  issue x.h (fun s =>
    withSrc x.b s fun v s =>
      withStream 0x71#8 v s fun e =>
        let shut (s : State) : Eff := .done (s.updSend s.thr.core e.idx fun e => { e with opened := false })
        if e.full then
          withStc 1 s (withCharge e.lastHome s fun s =>
            shut (s.post e.lastHome winBase (.close e.tag) e.cursor false 0 0#2 {}))
        else shut s) s

/-- The size of the page, or of the window of core memory, that a GVA lies in (R145, R354). -/
def State.pageSize (s : State) (g : Nat) : Nat :=
  if winBase ≤ g then 2 ^ 20
  else match s.lookup s.myCluster s.task g with
    | .leaf _ true => 2 ^ 29
    | _ => 2 ^ 16

/-- The signed distance in words from the last packet of a stream to a GVA (R197). -/
def SendStream.dist (e : SendStream) (g : Nat) : Int := (g : Int) / 8 - (e.last.toNat : Int) / 8

/-- A short header may be used (R197): same home, same page or window, and a distance of at most 16 signed bits. -/
def SendStream.short (e : SendStream) (g home page : Nat) : Bool :=
  e.full && e.lastHome == home && (decide (winBase ≤ g) == decide (winBase ≤ e.last.toNat)) && g / page == e.last.toNat / page
    && decide (-32768 ≤ e.dist g) && decide (e.dist g < 32768)

/-- What the header of a stream's packet to a GVA holds (R197). -/
def SendStream.via (e : SendStream) (g home page : Nat) : Via :=
  { tag := e.tag, short := e.short g home page, delta := BitVec.ofInt 16 (e.dist g), page := page }

/-- The packets of a `sput`, one for each part (R161, R215). -/
def withStreamPosts (ea : Word) : SendStream → Nat → List (Loc × Nat) → List Byte → State → (State → Eff) → Eff
  | _, _, [], _, s, k => k s
  | e, g, (l, n) :: ls, bs, s, k =>
    match l with
    | .mem a home paged leaf =>
      withCharge home s fun s =>
        withStreamPosts ea { e with last := BitVec.ofNat 64 g, lastHome := home, full := true } (g + n) ls (bs.drop n)
          (s.post home a (.store (bs.take n)) ea paged (if paged then effPolicy leaf 0#2 else 0) 0#2 (e.via g home (s.pageSize g))) k
    | _ => withStreamPosts ea e (g + n) ls (bs.drop n) s k

/-- The home of a place, by its number (R147). -/
def State.homeNo (s : State) (l : Loc) : Nat :=
  match l with
  | .mem _ h _ _ => h
  | .peer p _ _ => farHome (s.peerPort p)
  | .host _ => hostHome
  | .zeros => noHome

/-- `sput` (R215). A packet to a peer or the host window carries no stream header, so none has been sent to that home. -/
def execSput (n : BitVec 4) (x : Args) (s : State) : Host.Outcome State Fault Refusal :=
  issue x.h (fun s =>
    withSrc x.b s fun v s => withSrc x.c s fun d s =>
      let m := n.toNat + 1
      withRegs m x.a.rix s fun vs =>
        withStream 0x72#8 v s fun e =>
          let a := e.cursor + d
          withAccess nStore a (8 * m) 8 true s fun ls s =>
            let g := ((s.taskSet s.thr.core s.task).gva nStore a (8 * m)).getD 0
            let bs := (vs.map fun v => leBytes 8 v.toNat).flatten
            let home := s.homeNo (((ls.map (·.1)).head?).getD .zeros)
            let fin (full : Bool) (s : State) : Eff :=
              .done (s.updSend s.thr.core e.idx fun e =>
                { e with cursor := a + BitVec.ofNat 64 (8 * m), last := BitVec.ofNat 64 g, lastHome := home, full := full })
            match ls with
            | (.peer .., _) :: _ | (.host _, _) :: _ => withStore .store 0 0#2 a ls bs s (fin false)
            | _ => withStc ls.length s (withStreamPosts a e g ls bs s (fin true))) s

/-- `drn`: a recorded fault, then OUT = 0 (R216). -/
def execDrn (x : Args) (s : State) : Host.Outcome State Fault Refusal :=
  issue x.h (fun s =>
    withSrc x.b s fun v s =>
      if !dnOk v then .ill 0x73#8 0xD
      else
        withRecorded s (withDest x.a s
          (let c := s.core s.thr.core
           if c.draught.all fun e => e.dn != v.toNat || e.out == 0 then
             .done (s.writeX x.a.rix (BitVec.ofNat 64 (c.allowance v.toNat)))
           else .park (.drain v.toNat)))) s

/-- The bits of word 0 of a level-1 peer entry; the reserved bits 49:48 read 0 (R5, R209). -/
def peerMask : Word := 0xFFFCFFFFFFFFFFFF#64

/-- `pprb.tab` (R217). -/
def execPprbTab (x : Args) (s : State) : Host.Outcome State Fault Refusal :=
  issue x.h (fun s =>
    withSrc x.b s fun v s =>
      if 1024 ≤ v.toNat then .ill 0x74#8 0xD
      else withDest x.a s (.done ((s.notePeer v.toNat 0).writeX x.a.rix (s.peer1 v.toNat &&& peerMask)))) s

/-- The PROBE packets of a ping: at most 4 operations each, HOP 4i + 1 onward (R217), with window 0 and no rights (DESIGN CHOICE, log 68). -/
def probePackets (s : State) (p core n : Nat) : List (Nat × Pkt) :=
  (List.range (ceilDiv n 4)).map fun i =>
    let hops := ((List.range 4).map (· + 4 * i + 1)).filter (· ≤ n)
    let base := s.request core 0 p 0 0x0A 0 8 0 (List.replicate (8 * hops.length) 0#8)
    (4 * i + 1, { base with rgt := 0, nop := hops.length, ops := hops.map fun h => ⟨0x0A, h, 0, 8, 0, false⟩ })

/-- Sends the packets of a ping one after another, each charged to the port's entry (R196, R217); the port times each (R212), and
each carries the CTAG of the thread and its register (R206). -/
def withProbes (port id p : Nat) (r : BitVec 4) : List (Nat × Pkt) → State → (State → Eff) → Eff
  | [], s, k => k s
  | (h, pk) :: l, s, k =>
    withCharge (farHome port) s fun s =>
      let tag := ctagOf s.thr.ctx.cxa r
      let q : PortReq := ⟨s.thr.core, s.thr.ctx.cxa, false, r, 0#64, p, 0, 0, (s.die (port / 4)).cyc, .probe id h, tag, false⟩
      withProbes port id p r l
        ((s.sendPkt port (some s.thr.core) { pk with ctag := tag }).setPort port fun t => { t with reqs := t.reqs ++ [q] }) k

/-- `pprb.ping`: X[A] is written once the last reply has arrived; where nothing is sent, what RTT and RGEN hold is free
(R217, DESIGN CHOICE, log 27). -/
def execPprbPing (x : Args) (s : State) : Host.Outcome State Fault Refusal :=
  issue x.h (fun s =>
    withSrc x.b s fun v s =>
      if 1024 ≤ v.toNat then .ill 0x74#8 0xD
      else
        withDest x.a s
          (let p := v.toNat
           let s := s.notePeer p 0
           if p1State (s.peer1 p) ≠ 1 then
             let (k, s) := s.fresh
             .done (s.writeX x.a.rix ((freeWord k &&& 0xFFFFFFFFFF000000#64) ||| 3#64))
           else
             let n := p1Nrt (s.peer1 p)
             let pk := probePackets s p s.thr.core n
             let (id, s1) := s.fresh
             let g : Ping := ⟨id, s.thr.core, s.thr.ctx.cxa, x.a.rix, s.now s.thr.core, pk.length, n, 0#8, []⟩
             withProbes (s.peerPort p) id p x.a.rix pk { s1 with pings := s1.pings ++ [g] } fun s => .done (s.oweX x.a.rix))) s

end Sys2Proof.Machine
end

