-- ==== Sys2Proof/Machine/Functions.lean ====
section
/-! DEFINITION. The functions of the stream unit, correctly rounded (R226, R236, R243): exponential, logarithm, reciprocal
and reciprocal square root, and products and quotients rounded to another format. -/

namespace Sys2Proof.Machine

/-- The fractional bits of the fixed-point numbers the functions are computed in. No result of R236 lies within a
distance of 2 ^ -180 of a rounding boundary unless it is exact, and the exact ones are treated apart. -/
def fxBits : Nat := 240

/-- 2 · atanh(p/q) in fixed point: the sum of 2 z^(2n+1) / (2n+1), term by term; `t` is the current power of z. -/
def atanhSum (p q : Nat) : Nat → Nat → Nat → Nat
  | 0, _, _ => 0
  | fuel + 1, n, t => 2 * t / (2 * n + 1) + atanhSum p q fuel (n + 1) (t * (p * p) / (q * q))

/-- 2 · atanh(p/q) for p/q of at most 1/3. -/
def twoAtanh (p q : Nat) : Nat := atanhSum p q 90 0 (p * 2 ^ fxBits / q)

/-- ln 2. -/
def ln2Fx : Nat := twoAtanh 1 3

/-- The sum of r^n / n! in fixed point, n from `n`; `t` is the current term. -/
def expSum (r : Int) : Nat → Nat → Int → Int
  | 0, _, _ => 0
  | fuel + 1, n, t => t + expSum r fuel (n + 1) (t * r / (2 ^ fxBits : Nat) / ((n : Int) + 1))

/-- e^x for a non-zero x that is a multiple of 2 ^ -fxBits and lies between -200 and 200: magnitude and exponent, with a
last bit that says it is inexact. -/
def expFx (x : Int) : Nat × Int :=
  let k := (2 * x + ln2Fx) / (2 * ln2Fx : Nat)
  let e := expSum (x - k * ln2Fx) 70 0 (2 ^ fxBits : Nat)
  (2 * e.toNat + 1, k - fxBits - 1)

/-- A finite value in fixed point. -/
def toFx (neg : Bool) (m : Nat) (e : Int) : Int :=
  let v : Nat := if 0 ≤ e + fxBits then m * 2 ^ (e + fxBits).toNat else m / 2 ^ (-(e + fxBits)).toNat
  if neg then -(v : Int) else v

/-- `vexp` (R236). -/
def Fmt.exp (f : Fmt) (a : Nat) : Nat × FFlags :=
  match f.decode a with
  | .nan s => f.nanOut (nvIf s)
  | .inf n => if n then (f.zero false, 0#5) else (f.infinity false, 0#5)
  | .fin n m e =>
    if m = 0 then f.round .rne false 1 0
    else
      let x := toFx n m e
      let big := (200 * 2 ^ fxBits : Nat)
      if (big : Int) ≤ x then f.round .rne false 1 300
      else if x ≤ -(big : Int) then f.round .rne false 1 (-300)
      else
        let (r, k) := expFx x
        f.round .rne false r k

/-- ln of a positive m · 2^e other than 1, in fixed point. -/
def lnFx (m : Nat) (e : Int) : Int :=
  let w := Nat.log2 m
  let hi := decide (3 * 2 ^ w ≤ 2 * m)
  let d : Nat := if hi then 2 ^ (w + 1) else 2 ^ w
  let k : Int := e + w + (if hi then 1 else 0)
  let frac : Int := if d ≤ m then (twoAtanh (m - d) (m + d) : Nat) else -(twoAtanh (d - m) (m + d) : Nat)
  k * ln2Fx + frac

/-- `vlog` (R236). -/
def Fmt.log (f : Fmt) (a : Nat) : Nat × FFlags :=
  match f.decode a with
  | .nan s => f.nanOut (nvIf s)
  | .inf n => if n then f.nanOut fNV else (f.infinity false, 0#5)
  | .fin n m e =>
    if m = 0 then (f.infinity true, fDZ)
    else if n then f.nanOut fNV
    else
      let w := Nat.log2 m
      if m = 2 ^ w ∧ e + w = 0 then (f.zero false, 0#5)
      else
        let v := lnFx m e
        f.round .rne (decide (v < 0)) (2 * v.natAbs + 1) (-(fxBits : Int) - 1)

/-- A quotient of values of one format, rounded once to another (R132, R243). -/
def Fmt.divTo (f dst : Fmt) (a b : Nat) : Nat × FFlags :=
  let x := f.decode a
  let y := f.decode b
  match x, y with
  | .nan s, .nan t => dst.nanOut (nvIf (s || t))
  | .nan s, _ => dst.nanOut (nvIf s)
  | _, .nan s => dst.nanOut (nvIf s)
  | .inf _, .inf _ => dst.nanOut fNV
  | .inf n, .fin k _ _ => (dst.infinity (n != k), 0#5)
  | .fin n _ _, .inf k => (dst.zero (n != k), 0#5)
  | .fin n m e, .fin k m' e' =>
    if m' = 0 then (if m = 0 then dst.nanOut fNV else (dst.infinity (n != k), fDZ))
    else
      let sh := Nat.log2 m' + f.fb + 4
      dst.round .rne (n != k) (quotSticky m m' sh) (e - e' - sh - 1)

/-- A product of values of one format, rounded once to another (R132, R243). -/
def Fmt.mulTo (f dst : Fmt) (a b : Nat) : Nat × FFlags :=
  let x := f.decode a
  let y := f.decode b
  if x.isNan || y.isNan then dst.nanOut (nvIf (x.isSig || y.isSig))
  else match mulVal x y with
    | none => dst.nanOut fNV
    | some (.fin n m e) => dst.round .rne n m e
    | some (.inf n) => (dst.infinity n, 0#5)
    | some (.nan _) => dst.nanOut 0#5

/-- `vrcp` (R236). -/
def Fmt.rcp (f : Fmt) (a : Nat) : Nat × FFlags := f.div .rne (f.round .rne false 1 0).1 a

/-- `vrsq` (R236). -/
def Fmt.rsq (f : Fmt) (a : Nat) : Nat × FFlags :=
  match f.decode a with
  | .nan s => f.nanOut (nvIf s)
  | .inf n => if n then f.nanOut fNV else (f.zero false, 0#5)
  | .fin n m e =>
    if m = 0 then (f.infinity n, fDZ)
    else if n then f.nanOut fNV
    else
      -- 1/√(m·2^e) = √(2^k / m) · 2^-((e + k)/2) with e + k even
      let k0 := Nat.log2 m + 2 * f.fb + 10
      let k := if (e + k0) % 2 = 0 then k0 else k0 + 1
      let q := 2 ^ k / m
      let r := isqrt q (Nat.log2 q / 2 + 1) 0
      f.round .rne false (2 * r + b2n (decide (r * r * m ≠ 2 ^ k))) (-((e + k) / 2) - 1)

/-- A pattern widened exactly to f32, a NaN with its quiet bit (R229, R238). -/
def Fmt.widen (f : Fmt) (a : Nat) : Nat :=
  match f.decode a with
  | .nan s => if s then 0x7F800001 else 0x7FC00000
  | .inf n => fmtF32.infinity n
  | .fin n m e => (fmtF32.round .rne n m e).1

/-- A pattern of f32 as it is, of another format widened. -/
def Fmt.asF32 (f : Fmt) (a : Nat) : Nat := if f = fmtF32 then a % 2 ^ 32 else f.widen a

end Sys2Proof.Machine
end

