-- ==== Sys2Proof/Machine/Engines.lean ====
section
/-! DEFINITION. What the engines of a cluster share: the checks of array operands at issue (R225), joining a command
(R104), and completions. -/

namespace Sys2Proof.Machine

open Config

/-- The window of the issuing core's cluster that holds `n` bytes at a GVA, with the range a level may reach (R142, R225). -/
def State.clusterWindow (s : State) (who : Who) (g : Int) (n : Nat) : Option Nat :=
  if g < winBase then none
  else
    let k := (g.toNat - winBase) / 0x100000
    let o := (g.toNat - winBase) % 0x100000
    if k < nCores && s.coreCluster k == s.coreCluster who.core && decide (o + n ≤ s.winLimit k who.lvlH) then some k else none

/-- The checks of an array operand: `len` elements of `z` bytes, `step` bytes apart, from address `a` on (R225). The array's
storage address goes on. -/
def withArray (nd : Need) (a : Word) (z len : Nat) (step : Int) (s : State) (k : Nat → Eff) : Eff :=
  if len = 0 then k 0
  else match s.cachedSet s.thr.core s.task with
    | none => .again (s.lend .segset)
    | some ts =>
      if a.toNat % z ≠ 0 then .trap tALN 0#8 a
      else
        let (sgb, sgl) := ts.seg (bits a.toNat 61 3)
        if !segGrants sgb nd then .trap tSEG 0#8 a
        else
          let off : Int := bits a.toNat 0 61
          let span := ((len : Int) - 1) * step
          let lo := off + min 0 span
          let hi := off + max 0 span
          let base : Int := bits sgb.toNat 0 56
          let lowAt := a + BitVec.ofInt 64 (min 0 span)
          let highAt := a + BitVec.ofInt 64 (max 0 span)
          if lo < 0 then .trap tSEG 0#8 lowAt
          else if (bits sgl.toNat 0 61 : Int) < hi + z then .trap tSEG 0#8 highAt
          else match s.clusterWindow s.me (base + lo) z with
            | none => .trap tSEG 0#8 lowAt
            | some w =>
              if s.clusterWindow s.me (base + hi) z ≠ some w then .trap tSEG 0#8 highAt
              else if s.homeDead w then .trap tPOI pDEAD a
              else k (base + off).toNat

/-- The join record that counts the next engine command of the thread that issues: its index and the command's place in
issue order (R104). -/
def State.joinTag (s : State) : Option (Nat × Nat) × State :=
  let c := s.core s.thr.core
  let s1 := s.mapRes fun r => { r with cmds := r.cmds + 1 }
  match s.thr.res.join.bind fun i => c.joins.find? fun j => j.idx == i && decide (j.issued < j.n) with
  | some j =>
    (some (j.idx, j.issued),
      s1.setCore s.thr.core fun c => { c with joins := mapFirst (fun k => k.idx == j.idx) (fun k => { k with issued := k.issued + 1 }) c.joins })
  | none => (none, s1)

/-- The thread issued commands on a core that it has left since (R185). -/
def Thread.hasLeft (core : Nat) (cxa : Word) (t : Thread) : Bool := t.ctx.cxa == cxa && t.past.contains core

/-- The core where the thread that issued a command on a core is now attached (R80, R185, R230). -/
def State.issuerAt (s : State) (core : Nat) (cxa : Word) : Nat :=
  if (s.findOwed core cxa).isSome then core
  else ((s.threads.find? (Thread.hasLeft core cxa)).map (·.core)).getD core

/-- An engine command of the thread named has completed (R185), wherever a `hop` has taken the thread. -/
def State.cmdDone (core : Nat) (cxa : Word) (s : State) : State :=
  let less (t : Thread) : Thread := { t with res := { t.res with cmds := t.res.cmds - 1 } }
  if s.hops.any fun h => h.t.hasLeft core cxa then
    { s with hops := mapFirst (fun h => h.t.hasLeft core cxa) (fun h => { h with t := less h.t }) s.hops }
  else s.updThr (s.issuerAt core cxa) cxa less

/-- Delivers the completion of a command; `none` when the inbox channel is full (R89). A completion addressed to a dead
core is discarded (R413). -/
def State.finishCmd (core : Nat) (cxa : Word) (chan : Nat) (m : Msg) (join : Option (Nat × Nat)) (s : State) : Option State :=
  if s.homeDead core then some (s.cmdDone core cxa)
  else (s.complete core cxa chan m join).map (State.cmdDone core cxa)

/-- CH of SLEN (R223). -/
def slenCh (v : Word) : Nat := bits v.toNat 24 3
/-- N of SLEN. -/
def slenN (v : Word) : Nat := bits v.toNat 0 24
/-- TAG of SLEN. -/
def slenTag (v : Word) : BitVec 32 := v.extractLsb' 32 32
/-- A stride of SSTR: field 0 A, 1 B, 2 C (R224). -/
def sstrOf (v : Word) (f : Nat) : Int := sintOf 16 (bits v.toNat (16 * f) 16)

/-- The thread that issues marks a predicate as owed by an engine (R222, R230); of p0 only the command's flags come (R226, R241),
and nothing but `hop` and `exit` waits for them. -/
def State.oweP (p : BitVec 3) (s : State) : State :=
  s.mapRes fun r =>
    if p = 0#3 then { r with owedZero := r.owedZero + 1 } else { r with owedPred := r.owedPred ||| BitVec.ofNat 8 (2 ^ p.toNat) }

/-- Waits for a free entry of the core's stream queue, first in, first out (R221). -/
def withStreamRoom (s : State) (k : Eff) : Eff :=
  if (s.core s.thr.core).streamQ.countP (fun q => !q.fin) + s.aheadOf .streamQ < 16 then k else .park .streamQ

/-- Enqueues a stream or grain command of the thread that issues (R222). -/
def State.enqueueStream (q : StreamCmd) (s : State) : State :=
  (s.setCore s.thr.core fun c => { c with streamQ := c.streamQ ++ [q] }).ungate s.myCluster 1

end Sys2Proof.Machine
end

