-- ==== Sys2Proof/Machine/Streams.lean ====
section
/-! DEFINITION. The stream instructions at issue (R222-R225, R233, R234), and the element operations of the stream unit
(R226, R235-R243). -/

namespace Sys2Proof.Machine

open Config

/-- The operations of the stream unit. -/
inductive VOp where
  | add | sub | mul | fma | min | max | exp | log | rcp | rsq | sqrt | cvt | sum | rmax | dot | scan | gat | sct | sel | cmp
  | fill | and | or | xor | shl | shr | smx | lnm
  deriving DecidableEq, Repr

/-- How a command uses a field (R233). -/
inductive Role where
  | none | rd | wr | rw | tabR | tabW | idx
  deriving DecidableEq, Repr

/-- The roles of A, B and C as arrays. -/
def VOp.roles : VOp → Role × Role × Role
  | .fma | .sel => (.rw, .rd, .rd)
  | .exp | .log | .rcp | .rsq | .sqrt | .cvt | .scan | .smx | .lnm => (.wr, .rd, .none)
  | .sum | .rmax => (.none, .rd, .none)
  | .dot => (.none, .rd, .rd)
  | .gat => (.wr, .tabR, .idx)
  | .sct => (.tabW, .rd, .idx)
  | .cmp => (.none, .rw, .rd)
  | .fill => (.wr, .none, .none)
  | _ => (.wr, .rd, .rd)

/-- The command returns a scalar register. -/
def VOp.scalar : VOp → Bool
  | .sum | .rmax | .dot => true
  | _ => false

/-- The segment rights of a role (R225). -/
def Role.need : Role → Need
  | .rd | .tabR | .idx => { r := true, e := true }
  | .wr | .tabW => { w := true, e := true }
  | .rw => { r := true, w := true, e := true }
  | .none => {}

/-- An operand stands for an array in this role. -/
def isArr (o : Opnd) (r : Role) : Bool := r != .none && o.isReg && !o.isVal

/-- The type codes an immediate names as a source type (R237). -/
def vSrcTy (x : Args) : Ty := (Ty.ofCode (bits x.c.immW.toNat 0 4)).getD .i32

/-- Element width in bytes of a field. -/
def VOp.width (o : VOp) (t : Ty) (x : Args) (f : Nat) : Nat :=
  match o, f with
  | .cvt, 1 => (vSrcTy x).width / 8
  | .gat, 2 | .sct, 2 => 4
  | _, _ => t.width / 8

/-- A scalar operand's pattern at the element type, and the flags of its conversion (R225). -/
def scalarOf (o : Opnd) (t : Ty) (v : Word) : Nat × FFlags :=
  match o with
  | .imm i => (match t with
    | .h16 | .b16 | .f32 => (t.fmt.getD fmtF32).ofInt .rne i.toInt
    | _ => (v.toNat % 2 ^ t.width, 0#5))
  | .absent => (0, 0#5)
  | _ => (v.toNat % 2 ^ t.width, 0#5)

/-- The type scalar C is read at: f32 for `vscan` of a float type and for `vlnm` (R239, R243). -/
def VOp.scalarTy (o : VOp) (t : Ty) : Ty :=
  match o with
  | .scan | .lnm => if t.fmt.isSome then .f32 else t
  | _ => t

/-- The value a field captures: an array's storage address or a scalar's pattern. -/
def withField (op : VOp) (t : Ty) (x : Args) (o : Opnd) (r : Role) (f : Nat) (s : State) (v : Word)
    (k : Word → FFlags → Eff) : Eff :=
  if isArr o r then
    let z := op.width t x f
    let n := slenN s.thr.ctx.slen
    let table := r = .tabR ∨ r = .tabW
    withArray r.need v z (if table then min n 1 else n) (if table then 0 else sstrOf s.thr.ctx.sstr f * z) s fun a =>
      k (BitVec.ofNat 64 a) 0#5
  else
    let c := scalarOf o (op.scalarTy t) v
    k (BitVec.ofNat 64 c.1) c.2

/-- A register source of an engine command, or the value of an immediate. -/
def withCapture (o : Opnd) (r : Role) (s : State) (k : Word → State → Eff) : Eff :=
  match o with
  | .reg .. => if r = .none && !o.isVal then k 0#64 s else withSrc o s k
  | .pred .. => k 0#64 s
  | o => withSrc o s k

/-- A stream command at issue (R222); A as a source is read before B and C (DESIGN CHOICE, log 6). -/
def streamOp (op : VOp) (i : Instr) (t : Ty) (x : Args) (s : State) : Host.Outcome State Fault Refusal :=
  issue x.h (fun s =>
    let (ra, rb, rc) := op.roles
    withCapture x.a ra s fun a s => withCapture x.b rb s fun b s => withCapture x.c rc s fun c s =>
      let dest := if op.scalar || op == .cmp then withDest x.a s else fun k => k
      dest (withStores s
        (withField op t x x.a ra 0 s a fun a _ => withField op t x x.b rb 1 s b fun b fb =>
          withField op t x x.c rc 2 s c fun c fc =>
            withStreamRoom s
              (let (j, s) := s.joinTag
               let q : StreamCmd :=
                { core := s.thr.core, cxa := s.thr.ctx.cxa, ins := i, a := a, b := b, c := c, slen := s.thr.ctx.slen
                  sstr := s.thr.ctx.sstr, task := s.task, lvlH := s.levelH, join := j, flags := fb ||| fc
                  lanes := List.replicate 64 none, acc := if op = .scan then c else 0#64 }
               let s := s.enqueueStream q
               .done (if op.scalar then s.oweX x.a.rix else if op = .cmp then s.oweP x.a.pix else s))))) s

/-- `vadd` (R235). -/
def execVadd (t : Ty) (x : Args) (s : State) : Host.Outcome State Fault Refusal := streamOp .add (.vadd t x) t x s
/-- `vsub` (R235). -/
def execVsub (t : Ty) (x : Args) (s : State) : Host.Outcome State Fault Refusal := streamOp .sub (.vsub t x) t x s
/-- `vmul` (R235). -/
def execVmul (t : Ty) (x : Args) (s : State) : Host.Outcome State Fault Refusal := streamOp .mul (.vmul t x) t x s
/-- `vfma` (R235). -/
def execVfma (t : Ty) (x : Args) (s : State) : Host.Outcome State Fault Refusal := streamOp .fma (.vfma t x) t x s
/-- `vmin` (R235). -/
def execVmin (t : Ty) (x : Args) (s : State) : Host.Outcome State Fault Refusal := streamOp .min (.vmin t x) t x s
/-- `vmax` (R235). -/
def execVmax (t : Ty) (x : Args) (s : State) : Host.Outcome State Fault Refusal := streamOp .max (.vmax t x) t x s
/-- `vexp` (R236). -/
def execVexp (t : Ty) (x : Args) (s : State) : Host.Outcome State Fault Refusal := streamOp .exp (.vexp t x) t x s
/-- `vlog` (R236). -/
def execVlog (t : Ty) (x : Args) (s : State) : Host.Outcome State Fault Refusal := streamOp .log (.vlog t x) t x s
/-- `vrcp` (R236). -/
def execVrcp (t : Ty) (x : Args) (s : State) : Host.Outcome State Fault Refusal := streamOp .rcp (.vrcp t x) t x s
/-- `vrsq` (R236). -/
def execVrsq (t : Ty) (x : Args) (s : State) : Host.Outcome State Fault Refusal := streamOp .rsq (.vrsq t x) t x s
/-- `vsqrt` (R236). -/
def execVsqrt (t : Ty) (x : Args) (s : State) : Host.Outcome State Fault Refusal := streamOp .sqrt (.vsqrt t x) t x s
/-- `vcvt` (R237). -/
def execVcvt (t : Ty) (x : Args) (s : State) : Host.Outcome State Fault Refusal := streamOp .cvt (.vcvt t x) t x s
/-- `vsum` (R238). -/
def execVsum (t : Ty) (x : Args) (s : State) : Host.Outcome State Fault Refusal := streamOp .sum (.vsum t x) t x s
/-- `vrmax` (R238). -/
def execVrmax (t : Ty) (x : Args) (s : State) : Host.Outcome State Fault Refusal := streamOp .rmax (.vrmax t x) t x s
/-- `vdot` (R238). -/
def execVdot (t : Ty) (x : Args) (s : State) : Host.Outcome State Fault Refusal := streamOp .dot (.vdot t x) t x s
/-- `vscan` (R239). -/
def execVscan (t : Ty) (x : Args) (s : State) : Host.Outcome State Fault Refusal := streamOp .scan (.vscan t x) t x s
/-- `vgat` (R240). -/
def execVgat (t : Ty) (x : Args) (s : State) : Host.Outcome State Fault Refusal := streamOp .gat (.vgat t x) t x s
/-- `vsct` (R240). -/
def execVsct (t : Ty) (x : Args) (s : State) : Host.Outcome State Fault Refusal := streamOp .sct (.vsct t x) t x s
/-- `vsel` (R241). -/
def execVsel (t : Ty) (x : Args) (s : State) : Host.Outcome State Fault Refusal := streamOp .sel (.vsel t x) t x s
/-- `vcmp` (R241). -/
def execVcmp (t : Ty) (x : Args) (s : State) : Host.Outcome State Fault Refusal := streamOp .cmp (.vcmp t x) t x s
/-- `vfill` (R242). -/
def execVfill (t : Ty) (x : Args) (s : State) : Host.Outcome State Fault Refusal := streamOp .fill (.vfill t x) t x s
/-- `vand` (R235). -/
def execVand (t : Ty) (x : Args) (s : State) : Host.Outcome State Fault Refusal := streamOp .and (.vand t x) t x s
/-- `vor` (R235). -/
def execVor (t : Ty) (x : Args) (s : State) : Host.Outcome State Fault Refusal := streamOp .or (.vor t x) t x s
/-- `vxor` (R235). -/
def execVxor (t : Ty) (x : Args) (s : State) : Host.Outcome State Fault Refusal := streamOp .xor (.vxor t x) t x s
/-- `vshl` (R235). -/
def execVshl (t : Ty) (x : Args) (s : State) : Host.Outcome State Fault Refusal := streamOp .shl (.vshl t x) t x s
/-- `vshr` (R235). -/
def execVshr (t : Ty) (x : Args) (s : State) : Host.Outcome State Fault Refusal := streamOp .shr (.vshr t x) t x s
/-- `vsmx` (R243). -/
def execVsmx (t : Ty) (x : Args) (s : State) : Host.Outcome State Fault Refusal := streamOp .smx (.vsmx t x) t x s
/-- `vlnm` (R243). -/
def execVlnm (t : Ty) (x : Args) (s : State) : Host.Outcome State Fault Refusal := streamOp .lnm (.vlnm t x) t x s

/-- The operation, type and operands of a stream instruction. -/
def vopOf (i : Instr) : Option (VOp × Ty × Args) :=
  match i with
  | .vadd t x => some (.add, t, x) | .vsub t x => some (.sub, t, x) | .vmul t x => some (.mul, t, x)
  | .vfma t x => some (.fma, t, x) | .vmin t x => some (.min, t, x) | .vmax t x => some (.max, t, x)
  | .vexp t x => some (.exp, t, x) | .vlog t x => some (.log, t, x) | .vrcp t x => some (.rcp, t, x)
  | .vrsq t x => some (.rsq, t, x) | .vsqrt t x => some (.sqrt, t, x) | .vcvt t x => some (.cvt, t, x)
  | .vsum t x => some (.sum, t, x) | .vrmax t x => some (.rmax, t, x) | .vdot t x => some (.dot, t, x)
  | .vscan t x => some (.scan, t, x) | .vgat t x => some (.gat, t, x) | .vsct t x => some (.sct, t, x)
  | .vsel t x => some (.sel, t, x) | .vcmp t x => some (.cmp, t, x) | .vfill t x => some (.fill, t, x)
  | .vand t x => some (.and, t, x) | .vor t x => some (.or, t, x) | .vxor t x => some (.xor, t, x)
  | .vshl t x => some (.shl, t, x) | .vshr t x => some (.shr, t, x) | .vsmx t x => some (.smx, t, x)
  | .vlnm t x => some (.lnm, t, x)
  | _ => none

/-! ### Element operations (R226, R235-R238) -/

/-- The pattern of an integer wrapped to a width. -/
def wrapPat (w : Nat) (v : Int) : Nat := (v % (2 ^ w : Nat)).toNat

/-- An elementwise binary operation (R235). -/
def elemBin (op : VOp) (t : Ty) (b c : Nat) : Nat × FFlags :=
  let w := t.width
  match t.fmt with
  | some f =>
    match op with
    | .add => f.add .rne b c
    | .sub => f.sub .rne b c
    | .mul => f.mul .rne b c
    | .min => f.minmax false b c
    | _ => f.minmax true b c
  | none =>
    let x := t.intVal b
    let y := t.intVal c
    (match op with
     | .add => wrapPat w (x + y)
     | .sub => wrapPat w (x - y)
     | .mul => wrapPat w (x * y)
     | .min => wrapPat w (min x y)
     | .max => wrapPat w (max x y)
     | .and => b &&& c
     | .or => b ||| c
     | .xor => b ^^^ c
     | .shl => shlBits w b c
     | _ => if t.signed then sarBits w b c else shrBits w b c, 0#5)

/-- A unary function (R236). -/
def elemUn (op : VOp) (f : Fmt) (b : Nat) : Nat × FFlags :=
  match op with
  | .exp => f.exp b
  | .log => f.log b
  | .rcp => f.rcp b
  | .rsq => f.rsq b
  | _ => f.sqrt .rne b

/-- `vcvt` of one element (R237). -/
def elemCvt (src dst : Ty) (v : Nat) : Nat × FFlags :=
  match src.fmt, dst.fmt with
  | some f, some g => fcvt f g .rne v
  | some f, none => let r := fToInt f dst.width dst.signed .rne v; (wrapPat dst.width r.1, r.2)
  | none, some g => g.ofInt .rne (src.intVal v)
  | none, none =>
    (wrapPat dst.width (max (minInt dst.width dst.signed) (min (maxInt dst.width dst.signed) (src.intVal v))), 0#5)

/-- Combines two values of a reduction (R229, R238): sums, or maxima; floats as f32 patterns, integers as 64-bit words. -/
def combine (isMax : Bool) (t : Ty) (a b : Word) : Word × FFlags :=
  match t.fmt with
  | some _ =>
    let r := if isMax then fmtF32.minmax true a.toNat b.toNat else fmtF32.add .rne a.toNat b.toNat
    (BitVec.ofNat 64 r.1, r.2)
  | none =>
    if isMax then
      (if t.signed then (if a.toInt < b.toInt then b else a) else if a.toNat < b.toNat then b else a, 0#5)
    else (a + b, 0#5)

/-- One level of the tree of R229: adjacent results are combined, an empty one passes the other through. -/
def treeLevel (isMax : Bool) (t : Ty) : List (Option Word) → List (Option Word) × FFlags
  | a :: b :: l =>
    let (rest, fl) := treeLevel isMax t l
    match a, b with
    | some x, some y => let r := combine isMax t x y; (some r.1 :: rest, fl ||| r.2)
    | some x, none => (some x :: rest, fl)
    | none, y => (y :: rest, fl)
  | l => (l, 0#5)

/-- The lane values combined in six levels (R229). -/
def treeOf (isMax : Bool) (t : Ty) : Nat → List (Option Word) → Option Word × FFlags
  | 0, l => (l.headD none, 0#5)
  | n + 1, l =>
    let (l1, fl) := treeLevel isMax t l
    let (r, fl2) := treeOf isMax t n l1
    (r, fl ||| fl2)

/-- An element as a term of a reduction: widened, or extended to 64 bits (R226, R229). -/
def termOf (t : Ty) (v : Nat) : Word :=
  match t.fmt with
  | some f => BitVec.ofNat 64 (f.asF32 v)
  | none => BitVec.ofInt 64 (t.intVal v)

/-- A term that opens a lane: a NaN becomes the default NaN, and a signalling one sets NV (R125, R226, R229). -/
def laneOpen (t : Ty) (v : Word) : Word × FFlags :=
  match t.fmt with
  | some _ =>
    let x := fmtF32.decode v.toNat
    if x.isNan then (BitVec.ofNat 64 fmtF32.dnan, nvIf x.isSig) else (v, 0#5)
  | none => (v, 0#5)

/-- A term into a logical lane (R229). -/
def laneAdd (isMax : Bool) (t : Ty) (v : Word) (l : Option Word) : Word × FFlags :=
  match l with
  | none => laneOpen t v
  | some a => combine isMax t a v

/-- A product into a logical lane of `vdot` (R238). -/
def laneDot (t : Ty) (b c : Nat) (l : Option Word) : Word × FFlags :=
  match t.fmt with
  | some f =>
    let x := f.asF32 b
    let y := f.asF32 c
    let r := match l with
      | none => fmtF32.mul .rne x y
      | some a => fmtF32.fma .rne x y a.toNat
    (BitVec.ofNat 64 r.1, r.2)
  | none => ((l.getD 0#64) + BitVec.ofInt 64 (t.intVal b * t.intVal c), 0#5)

/-- What a reduction of no element returns (R238). -/
def emptyResult (op : VOp) (t : Ty) : Word :=
  match op with
  | .rmax | .smx => (match t.fmt with
    | some _ => 0xFF800000#64
    | none => BitVec.ofInt 64 (minInt t.width t.signed))
  | _ => 0#64

/-- A scalar result after POISON or DEAD (R231). -/
def badScalar (t : Ty) : Word := if t.fmt.isSome then BitVec.ofNat 64 fmtF32.dnan else 0#64

end Sys2Proof.Machine
end

