-- ==== Sys2Proof/Machine/StreamUnit.lean ====
section
/-! DEFINITION. The stream unit of a cluster: strips (R221, R227-R229), the end of a command, its result and its completion
(R230, R231). Lane lending changes no result (R228) and is left to timing. -/

namespace Sys2Proof.Machine

open Config

/-- Cores of a list in round-robin order after one of them (R221). -/
def roundRobin (last : Nat) (l : List Nat) : List Nat := l.filter (fun n => last < n) ++ l.filter fun n => n ≤ last

/-- The oldest command of a core's queue that still runs. -/
def CoreSt.streamHead (c : CoreSt) : Option StreamCmd := c.streamQ.find? fun q => !q.fin

/-- The core whose command the stream unit of a cluster serves next (R221). -/
def State.nextStream (s : State) (k : Nat) : Option Nat :=
  (roundRobin (s.cluster k).rr (s.clusterCores k)).find? fun n => (s.core n).streamHead.isSome

/-- Replaces the command at the head of a core's queue. -/
def State.putStreamHead (core : Nat) (q : StreamCmd) (s : State) : State :=
  s.setCore core fun c => { c with streamQ := mapFirst (fun q => !q.fin) (fun _ => q) c.streamQ }

/-- What a command captured for a field. -/
def StreamCmd.val (q : StreamCmd) (f : Nat) : Nat :=
  match f with
  | 0 => q.a.toNat
  | 1 => q.b.toNat
  | _ => q.c.toNat

/-- The storage address of element i of an array (R225). -/
def StreamCmd.at (q : StreamCmd) (f i z : Nat) : Nat := ((q.val f : Int) + (i : Int) * sstrOf q.sstr f * z).toNat

/-- The address of the first poisoned word that `n` bytes touch (R231). -/
def State.firstPoison (s : State) (a n : Nat) : Nat := (((wordsOf a n).find? fun w => s.poison.contains w || s.path.reads.contains w).getD (a / 8)) * 8

/-- A read of an element by an engine: its pattern, and the address of poison where it met some; the pattern is free then
(R400, DESIGN CHOICE, log 9). -/
def State.engRead (s : State) (a n k : Nat) : Nat × Option Nat :=
  if s.poisoned a n then ((freeWord (s.serial + k)).toNat % 2 ^ (8 * n), some (s.firstPoison a n)) else (s.readNat a n, none)

/-- A write that an engine performs at its home; a poisoned one leaves its words poisoned (R231). -/
def State.engWrite (a : Nat) (bs : List Byte) (bad : Bool) (s : State) : State :=
  let s1 := (s.writeMem a bs).tear a bs.length
  (if bad then (wordsOf a bs.length).foldl (fun s w => s.addPoison (8 * w)) s1 else s1).afterWrite a bs.length

/-- A command and the writes its strip makes, latest first. -/
structure Strip where
  q : StreamCmd
  ws : List (Nat × List Byte × Bool) := []
  deriving DecidableEq, Repr

/-- Notes the first poisoned element (R231). -/
def Strip.bad (i : Nat) (p : Option Nat) (r : Strip) : Strip :=
  match p, r.q.poison with
  | some a, none => { r with q := { r.q with poison := some (i, BitVec.ofNat 64 a) } }
  | _, _ => r

/-- Adds flags. -/
def Strip.flags (f : FFlags) (r : Strip) : Strip := { r with q := { r.q with flags := r.q.flags ||| f } }

/-- Adds a write. -/
def Strip.put (a n v : Nat) (bad : Bool) (r : Strip) : Strip := { r with ws := (a, leBytes n v, bad) :: r.ws }

/-- Changes the logical lane of an element. -/
def Strip.lane (i : Nat) (f : Option Word → Word × FFlags) (r : Strip) : Strip :=
  let v := f (r.q.lanes.getD (i % 64) none)
  { r with q := { r.q with lanes := r.q.lanes.set (i % 64) (some v.1), flags := r.q.flags ||| v.2 } }

/-- A table element may be accessed (R225, R231). -/
def State.tableOk (s : State) (lvlH : Bool) (base a n : Nat) : Bool :=
  let k := (base - winBase) / 0x100000
  decide ((a - winBase) / 0x100000 = k) && decide ((a - winBase) % 0x100000 + n ≤ s.winLimit k lvlH)

/-- Notes the first element outside its table (R231). -/
def Strip.bound (i k : Nat) (r : Strip) : Strip :=
  if r.q.bnd.isNone then { r with q := { r.q with bnd := some (i, BitVec.ofNat 64 k) } } else r

/-- One element of a command, read from the state at the start of its strip (R227). -/
def Strip.elem (s0 : State) (op : VOp) (t : Ty) (x : Args) (r : Strip) (i : Nat) : Strip :=
  let q := r.q
  let z := t.width / 8
  let (ra, rb, rc) := op.roles
  let get (o : Opnd) (ro : Role) (f : Nat) : Nat × Option Nat :=
    if isArr o ro then s0.engRead (q.at f i (op.width t x f)) (op.width t x f) (3 * i + f) else (q.val f, none)
  let write (f : Nat) (v : Nat) (bad : Bool) (r : Strip) : Strip := r.put (q.at f i z) z v bad
  match op with
  | .fill => write 0 q.b.toNat false r
  | .fma =>
    let d := get x.a ra 0
    let b := get x.b rb 1
    let c := get x.c rc 2
    let p := d.2 <|> b.2 <|> c.2
    let v := match t.fmt with
      | some f => f.fma .rne b.1 c.1 d.1
      | none => (wrapPat t.width (t.intVal b.1 * t.intVal c.1 + t.intVal d.1), 0#5)
    ((write 0 v.1 p.isSome r).bad i p).flags (if p.isSome then 0#5 else v.2)
  | .sel =>
    let d := get x.a ra 0
    let b := get x.b rb 1
    let c := get x.c rc 2
    let p := d.2 <|> b.2 <|> c.2
    (write 0 (if d.1 ≠ 0 then b.1 else c.1) p.isSome r).bad i p
  | .cmp =>
    let b := get x.b rb 1
    let c := get x.c rc 2
    let p := b.2 <|> c.2
    let v := condTy t x.a.cond b.1 c.1
    let r := (write 1 (if v.1 then 2 ^ t.width - 1 else 0) p.isSome r).bad i p
    if p.isSome then r else { (r.flags v.2) with q := { (r.flags v.2).q with any := r.q.any || v.1 } }
  | .exp | .log | .rcp | .rsq | .sqrt =>
    let b := get x.b rb 1
    let v := elemUn op (t.fmt.getD fmtF32) b.1
    ((write 0 v.1 b.2.isSome r).bad i b.2).flags (if b.2.isSome then 0#5 else v.2)
  | .cvt =>
    let b := get x.b rb 1
    let v := elemCvt (vSrcTy x) t b.1
    ((write 0 v.1 b.2.isSome r).bad i b.2).flags (if b.2.isSome then 0#5 else v.2)
  | .sum | .rmax =>
    let b := get x.b rb 1
    (r.lane i (laneAdd (op == .rmax) t (termOf t b.1))).bad i b.2
  | .dot =>
    let b := get x.b rb 1
    let c := get x.c rc 2
    (r.lane i (laneDot t b.1 c.1)).bad i (b.2 <|> c.2)
  | .scan =>
    let b := get x.b rb 1
    match t.fmt with
    | some f =>
      let a := fmtF32.add .rne q.acc.toNat (f.asF32 b.1)
      let v := if f = fmtF32 then (a.1, 0#5) else fcvt fmtF32 f .rne a.1
      let r := { r with q := { r.q with acc := BitVec.ofNat 64 a.1 } }
      ((write 0 v.1 b.2.isSome r).bad i b.2).flags (a.2 ||| v.2)
    | none =>
      let a := wrapPat t.width (t.intVal q.acc.toNat + t.intVal b.1)
      let r := { r with q := { r.q with acc := BitVec.ofNat 64 a } }
      (write 0 a b.2.isSome r).bad i b.2
  | .gat =>
    let k := get x.c rc 2
    if k.2.isSome then (write 0 0 true r).bad i k.2
    else
      let a := q.b.toNat + k.1 * z
      if s0.tableOk q.lvlH q.b.toNat a z then
        let v := s0.engRead a z (3 * i)
        (write 0 v.1 v.2.isSome r).bad i v.2
      else (write 0 0 false r).bound i k.1
  | .sct =>
    let k := get x.c rc 2
    if k.2.isSome then r.bad i k.2
    else
      let a := q.a.toNat + k.1 * z
      if s0.tableOk q.lvlH q.a.toNat a z then
        let v := get x.b rb 1
        (r.put a z v.1 v.2.isSome).bad i v.2
      else r.bound i k.1
  | .smx =>
    let f := t.fmt.getD fmtF32
    let b := get x.b rb 1
    let v := f.asF32 b.1
    let d := fmtF32.sub .rne v q.acc.toNat
    let e := fmtF32.exp d.1
    match q.pass with
    | 0 => (r.lane i (laneAdd true t (BitVec.ofNat 64 v))).bad i b.2
    | 1 => ((r.lane i (laneAdd false t (BitVec.ofNat 64 e.1))).flags (d.2 ||| e.2)).bad i b.2
    | _ =>
      let y := fmtF32.divTo f e.1 q.acc2.toNat
      ((write 0 y.1 b.2.isSome r).bad i b.2).flags y.2
  | .lnm =>
    let f := t.fmt.getD fmtF32
    let b := get x.b rb 1
    let v := f.asF32 b.1
    let d := fmtF32.sub .rne v q.acc.toNat
    let e := fmtF32.mul .rne d.1 d.1
    match q.pass with
    | 0 => (r.lane i (laneAdd false t (BitVec.ofNat 64 v))).bad i b.2
    | 1 => ((r.lane i (laneAdd false t (BitVec.ofNat 64 e.1))).flags (d.2 ||| e.2)).bad i b.2
    | _ =>
      let y := fmtF32.mulTo f d.1 q.acc2.toNat
      ((write 0 y.1 b.2.isSome r).bad i b.2).flags y.2
  | op =>
    let b := get x.b rb 1
    let c := get x.c rc 2
    let p := b.2 <|> c.2
    let v := elemBin op t b.1 c.1
    ((write 0 v.1 p.isSome r).bad i p).flags (if p.isSome then 0#5 else v.2)

/-- The end of a pass of `vsmx` or `vlnm` (R243): its scalar, and empty lanes for the next pass. -/
def StreamCmd.endPass (op : VOp) (t : Ty) (q : StreamCmd) : StreamCmd :=
  let isMax := op = .smx ∧ q.pass = 0
  let (v, fl) := treeOf isMax t 6 q.lanes
  let sum := v.getD (emptyResult op t)
  let n := (fmtF32.ofInt .rne (slenN q.slen)).1
  let q1 := { q with next := 0, pass := q.pass + 1, lanes := List.replicate 64 none, flags := q.flags ||| fl }
  match op, q.pass with
  | .smx, 0 => { q1 with acc := sum }
  | .smx, _ => { q1 with acc2 := sum }
  | _, 0 =>
    let m := fmtF32.div .rne sum.toNat n
    { q1 with acc := BitVec.ofNat 64 m.1, flags := q1.flags ||| m.2 }
  | _, _ =>
    let m := fmtF32.div .rne sum.toNat n
    let e := fmtF32.add .rne m.1 (q.c.toNat % 2 ^ 32)
    let r := fmtF32.rsq e.1
    { q1 with acc2 := BitVec.ofNat 64 r.1, flags := q1.flags ||| m.2 ||| e.2 ||| r.2 }

/-- The result of a command sets out for its destination (R226, R230). -/
def State.streamResult (op : VOp) (t : Ty) (x : Args) (q : StreamCmd) (s : State) : State :=
  let bad := q.poison.isSome || q.dead.isSome
  if op.scalar then
    let (v, fl) := treeOf (op == .rmax) t 6 q.lanes
    let r := if bad then badScalar t else v.getD (emptyResult op t)
    { s with owed := s.owed ++ [⟨q.core, q.cxa, .xreg x.a.rix, r, q.flags ||| fl⟩] }
  else if op = .cmp then
    { s with owed := s.owed ++ [⟨q.core, q.cxa, .pred x.a.pix, b2w (q.any && !bad), q.flags⟩] }
  else s

/-- Ends a command: its result is on its way, and its queue entry is free (R221). -/
def State.endStream (op : VOp) (t : Ty) (x : Args) (q : StreamCmd) (s : State) : State :=
  let fl := if op.scalar then (treeOf (op == .rmax) t 6 q.lanes).2 else 0#5
  (s.streamResult op t x q).putStreamHead q.core { q with fin := true, flags := q.flags ||| fl }

/-- An array of the command lies in the window of a dead core (R231). -/
def StreamCmd.deadWindow (q : StreamCmd) (op : VOp) (x : Args) (s : State) : Bool :=
  let (ra, rb, rc) := op.roles
  let dead (o : Opnd) (r : Role) (f : Nat) : Bool := isArr o r && s.homeDead ((q.val f - winBase) / 0x100000)
  slenN q.slen != 0 && (dead x.a ra 0 || dead x.b rb 1 || dead x.c rc 2)

/-- One strip of the command at the head of a core's queue (R227). -/
def State.strip (op : VOp) (t : Ty) (x : Args) (q : StreamCmd) (s : State) : State :=
  let n := slenN q.slen
  if q.deadWindow op x s then
    s.endStream op t x { q with dead := some (if (op = .smx ∨ op = .lnm) ∧ q.pass < 2 then 0 else q.next) }
  else
    let idx := (List.range (min 64 (n - q.next))).map (· + q.next)
    let r := idx.foldl (Strip.elem s op t x) { q := q }
    let s1 := r.ws.reverse.foldl (fun s w => s.engWrite w.1 w.2.1 w.2.2) { s with serial := s.serial + 3 * (n + 1) }
    let q1 := { r.q with next := q.next + idx.length }
    if q1.next < n then s1.putStreamHead q.core q1
    else if (op = .smx ∨ op = .lnm) ∧ q.pass < 2 ∧ n ≠ 0 then s1.putStreamHead q.core (q1.endPass op t)
    else s1.endStream op t x q1

/-- `STREAM_STRIP` (R227): the unit executes one strip of the next command in its round (R221). -/
def execStreamStrip (cluster : Nat) (s : State) : Host.Outcome State Fault Refusal :=
  .next
    (match s.nextStream cluster with
    | none => s
    | some n =>
      match (s.core n).streamHead with
      | none => s
      | some q =>
        match vopOf q.ins with
        | none => s
        | some (op, t, x) => (s.strip op t x q).setCluster cluster fun c => { c with rr := n })

/-- CODE, D1 and D2 of a completion (R231): POISON before DEAD before BOUND. -/
def StreamCmd.report (q : StreamCmd) : Nat × Word × Word :=
  match q.poison, q.dead, q.bnd with
  | some (i, a), _, _ => (1, BitVec.ofNat 64 i, a)
  | none, some i, _ => (2, BitVec.ofNat 64 i, 0#64)
  | none, none, some (i, k) => (3, BitVec.ofNat 64 i, k)
  | none, none, none =>
    match q.grn with
    | some (i, a) => (4, BitVec.ofNat 64 i, a)
    | none => (0, 0#64, 0#64)

/-- The completion message of a stream or grain command (R231). -/
def StreamCmd.message (q : StreamCmd) : Msg :=
  let (code, d1, d2) := q.report
  ⟨slenTag q.slen, kstat 2 code, BitVec.ofNat 16 q.core, q.flags.setWidth 64, d1, d2⟩

/-- An engine's result for the thread named has not landed yet; it lands before the completion is sent (R230). -/
def State.owesTo (s : State) (core : Nat) (cxa : Word) : Bool :=
  s.owed.any fun o => o.core == core && o.cxa == cxa && match o.dest with
    | .reply _ => false
    | _ => true

/-- The completion of a finished command takes effect, unless a full channel holds it (R231). -/
def State.streamEnds (n : Nat) (q : StreamCmd) (s : State) : Option State :=
  if !q.fin || s.owesTo q.core q.cxa then none
  else (s.finishCmd n q.cxa (slenCh q.slen) q.message q.join).map fun s1 =>
    s1.setCore n fun c => { c with streamQ := dropFirst (fun p => p.fin && p.cxa == q.cxa && p == q) c.streamQ }

/-- `STREAM_COMPLETION` (R231): the oldest finished command of the cluster that no full channel holds sends its completion. -/
def execStreamCompletion (cluster : Nat) (s : State) : Host.Outcome State Fault Refusal :=
  .next
    (((s.clusterCores cluster).findSome? fun n => (s.core n).streamQ.findSome? fun q => s.streamEnds n q).getD s)

end Sys2Proof.Machine
end

