-- ==== Sys2Proof/Machine/Grains.lean ====
section
/-! DEFINITION. Grain blocks: their formats (R244-R249), packing and requantising (R250, R251), the grain instructions
(R252-R265) and the unit's step over one block. -/

namespace Sys2Proof.Machine

open Config

/-! ### Elements (R244-R246) -/

/-- A magnitude m1 · 2^e1 is at most m2 · 2^e2. -/
def magLe (m1 : Nat) (e1 : Int) (m2 : Nat) (e2 : Int) : Bool :=
  let e := min e1 e2
  decide (m1 * 2 ^ (e1 - e).toNat ≤ m2 * 2 ^ (e2 - e).toNat)

/-- The block formats. -/
inductive GFmt where
  | f8 | i8 | q4
  deriving DecidableEq, Repr

/-- The format a type names. -/
def gfmtOf (t : Ty) : GFmt :=
  match t with
  | .i8 => .i8
  | .q4 => .q4
  | _ => .f8

/-- Grain code (R247). -/
def GFmt.code : GFmt → Nat
  | .f8 => 1 | .q4 => 2 | .i8 => 3

/-- Elements of a block (R247). -/
def GFmt.elems : GFmt → Nat
  | .q4 => 96 | _ => 48

/-- The format of a code. -/
def gfmtOfCode (c : Nat) : Option GFmt :=
  match c with
  | 1 => some .f8 | 2 => some .q4 | 3 => some .i8 | _ => none

/-- MAX (R246). -/
def GFmt.top : GFmt → Nat
  | .f8 => 240 | .q4 => 1 | .i8 => 127

/-- The levels of q4, over 1024 (R245). -/
def q4Levels : List Nat := [0, 105, 213, 326, 450, 592, 768, 1024]

/-- The boundaries of q4 above each level, over 2048 (R245). -/
def q4Bounds : List Nat := [105, 318, 539, 776, 1042, 1360, 1792]

/-- DEC of an element code (R244-R246). -/
def GFmt.dec (f : GFmt) (c : Nat) : FVal :=
  match f with
  | .f8 => fmtF8.decode c
  | .q4 => .fin (decide (8 ≤ c) && c % 8 != 0) (q4Levels.getD (c % 8) 0) (-10)
  | .i8 => let v := sintOf 8 c; .fin (decide (v < 0)) v.natAbs 0

/-- ENC of a finite value, with SAT in OF's place (R244-R246). -/
def GFmt.enc (f : GFmt) (neg : Bool) (m : Nat) (e : Int) : Nat × FFlags :=
  match f with
  | .f8 => fmtF8.round .rne neg m e
  | .i8 =>
    let (q, inex) := roundAt .rne neg m e 0
    let v : Int := if neg then -(q : Int) else q
    if 127 < q then (wrapPat 8 (if neg then -127 else 127), fOF ||| fNX)
    else (wrapPat 8 v, if inex then fNX else 0#5)
  | .q4 =>
    let x := m * 2 ^ (max (e + 11) 0).toNat
    let d := 2 ^ (max (-(e + 11)) 0).toNat
    if 2048 * d < x then ((if neg then 0xF else 0x7), fOF ||| fNX)
    else
      let l := q4Bounds.findIdx fun b => decide (x ≤ b * d)
      let l := if l < 7 ∧ x = q4Bounds.getD l 0 * d ∧ l % 2 = 1 then l + 1 else l
      ((if l = 0 then 0 else if neg then 8 + l else l), if q4Levels.getD l 0 * 2 * d = x then 0#5 else fNX)

/-! ### Blocks (R247-R249) -/

/-- What the bytes of a block are (R247, R249). -/
inductive GBlock where
  | zero
  | nan (f : GFmt)
  | data (f : GFmt)
  | bad
  | poisoned
  deriving DecidableEq, Repr

/-- Classifies the 64 bytes of a block; `want`: the element count a command names (R249). -/
def gclass (bs : List Byte) (want : Option Nat) : GBlock :=
  let c := at' bs 0 1
  if c = 0xFF then .poisoned
  else if c = 0 then (if (bs.drop 1).all (· == 0#8) then .zero else .bad)
  else match gfmtOfCode c with
    | none => .bad
    | some f =>
      let reserved := bs.drop (if f = .q4 then 62 else 56)
      if want.any (· != f.elems) then .bad
      else if at' bs 1 1 = 0xFF then .nan f
      else if reserved.any (· != 0#8) then .bad else .data f

/-- Bytes from the start of one group to the next (R247). -/
def GFmt.stride : GFmt → Nat
  | .q4 => 10 | _ => 18

/-- GE of a group. -/
def geOf (f : GFmt) (bs : List Byte) (g : Nat) : Int := sintOf 8 (at' bs (2 + f.stride * g) 1)

/-- m of a pair of a group. -/
def mbOf (f : GFmt) (bs : List Byte) (g p : Nat) : Nat := b2n (bit (at' bs (3 + f.stride * g) 1) p)

/-- The code of element i of a block. -/
def elemCode (f : GFmt) (bs : List Byte) (i : Nat) : Nat :=
  let at0 := 4 + f.stride * (i / 16)
  match f with
  | .q4 => bits (at' bs (at0 + i % 16 / 2) 1) (4 * (i % 2)) 4
  | _ => at' bs (at0 + i % 16) 1

/-- A value times a power of two. -/
def FVal.scale (v : FVal) (k : Int) : FVal :=
  match v with
  | .fin n m e => .fin n m (e + k)
  | v => v

/-- value(i) of a data block (R248). -/
def elemValue (f : GFmt) (bs : List Byte) (i : Nat) : FVal :=
  (f.dec (elemCode f bs i)).scale ((at' bs 1 1 : Int) - 127 + geOf f bs (i / 16) - mbOf f bs (i / 16) (i % 16 / 2))

/-- Every value of a block that is neither bad nor poisoned (R248). -/
def blockValues (k : GBlock) (bs : List Byte) (n : Nat) : List FVal :=
  match k with
  | .data f => (List.range f.elems).map (elemValue f bs)
  | .nan f => List.replicate f.elems (.nan false)
  | _ => List.replicate n (.fin false 0 0)

/-! ### Packing (R250) and requantising (R251) -/

/-- A NaN block (R247). -/
def nanBlock (f : GFmt) : List Byte := byteOf f.code :: 0xFF#8 :: List.replicate 62 0#8

/-- A zero block. -/
def zeroBlock : List Byte := List.replicate 64 0#8

/-- A poisoned block. -/
def poisonBlock : List Byte := 0xFF#8 :: List.replicate 63 0#8

/-- The magnitude of a finite value. -/
def FVal.mag : FVal → Nat × Int
  | .fin _ m e => (m, e)
  | _ => (0, 0)

/-- The greatest magnitude of a list. -/
def maxMag (l : List FVal) : Nat × Int :=
  l.foldl (fun a v => if magLe v.mag.1 v.mag.2 a.1 a.2 then a else v.mag) (0, 0)

/-- Element bytes of a group from its codes. -/
def groupBytes (f : GFmt) : List Nat → List Byte
  | a :: b :: l => (match f with
    | .q4 => [byteOf (a + 16 * b)]
    | _ => [byteOf a, byteOf b]) ++ groupBytes f l
  | [a] => [byteOf a]
  | [] => []

/-- Pairs of a list. -/
def pairsOf : List FVal → List (FVal × FVal)
  | a :: b :: l => (a, b) :: pairsOf l
  | _ => []

/-- One element encoded at a scale. -/
def encAt (f : GFmt) (v : FVal) (k : Int) : Nat × FFlags :=
  match v with
  | .fin n m e => f.enc n m (e - k)
  | _ => (0x80, 0#5)

/-- One group of a packed block: its bytes and flags (R250). -/
def packGroup (f : GFmt) (be : Nat) (l : List FVal) : List Byte × FFlags :=
  let s : Int := (be : Int) - 127
  let ga := maxMag l
  let ge : Int :=
    if ga.1 = 0 then 0
    else match (List.range 129).find? fun k => magLe ga.1 ga.2 f.top (s - 128 + k) with
      | some k => (k : Int) - 128
      | none => 0
  let fits (v : FVal) : Bool := magLe v.mag.1 v.mag.2 f.top (s + ge - 1)
  let ps := (pairsOf l).map fun p => (fits p.1 && fits p.2, p)
  let codes := (ps.map fun p => let k := s + ge - b2n p.1; [encAt f p.2.1 k, encAt f p.2.2 k]).flatten
  (byteOf (wrapPat 8 ge) :: byteOf (maskOf ((List.range 8).filter fun j => (ps.map (·.1)).getD j false))
    :: groupBytes f (codes.map (·.1)), codes.foldl (fun a c => a ||| c.2) 0#5)

/-- The groups of a list of values. -/
def groupsOf : Nat → List FVal → List (List FVal)
  | 0, _ => []
  | n + 1, l => l.take 16 :: groupsOf n (l.drop 16)

/-- Packs E exact values into a block (R250). -/
def packBlock (f : GFmt) (l : List FVal) : List Byte × FFlags :=
  let special (v : FVal) : Bool := match v with
    | .fin .. => false
    | _ => true
  if l.any special then (nanBlock f, nvIf (l.any FVal.isSig))
  else if l.all FVal.isZero then (zeroBlock, 0#5)
  else
    let a := maxMag l
    let be : Nat := (((List.range 254).map (· + 1)).find? fun (b : Nat) => magLe a.1 a.2 f.top ((b : Int) - 127)).getD 254
    let gs := (groupsOf (f.elems / 16) l).map (packGroup f be)
    (padTo 64 (byteOf f.code :: byteOf be :: (gs.map (·.1)).flatten), gs.foldl (fun a g => a ||| g.2) 0#5)

/-- One group requantised to a new block exponent (R251). -/
def requantGroup (f : GFmt) (bs : List Byte) (be' g : Nat) : List Byte × FFlags :=
  let t := geOf f bs g + (at' bs 1 1 : Int) - be'
  let raw := (bs.drop (2 + f.stride * g)).take f.stride
  if -128 ≤ t ∧ t ≤ 127 then (byteOf (wrapPat 8 t) :: raw.drop 1, 0#5)
  else
    let ge : Int := max (-128) (min 127 t)
    let codes := (List.range 16).map fun j =>
      encAt f (elemValue f bs (16 * g + j)) ((be' : Int) - 127 + ge - mbOf f bs g (j / 2))
    (byteOf (wrapPat 8 ge) :: (raw.drop 1).take 1 ++ groupBytes f (codes.map (·.1)), codes.foldl (fun a c => a ||| c.2) 0#5)

/-- Requantises a block that is neither bad nor poisoned (R251). -/
def requantBlock (k : GBlock) (bs : List Byte) (be' : Nat) : List Byte × FFlags :=
  match k with
  | .data f =>
    let gs := (List.range (f.elems / 16)).map (requantGroup f bs be')
    (padTo 64 (byteOf f.code :: byteOf be' :: (gs.map (·.1)).flatten), gs.foldl (fun a g => a ||| g.2) 0#5)
  | _ => (bs, 0#5)

/-! ### The bulk commands at issue (R252, R256) -/

/-- The bulk commands. -/
inductive GOp where
  | pk | upk | rq | amx | chk | cvt
  deriving DecidableEq, Repr

/-- Elements of the block class an immediate names (R256). -/
def classElems (o : Opnd) : Nat := if bits o.immW.toNat 0 4 = Ty.q4.code.toNat then 96 else 48

/-- Width in bytes, and count, of the arrays in A and B (R252). -/
def GOp.shape (op : GOp) (t : Ty) (x : Args) (n : Nat) : (Nat × Nat) × (Nat × Nat) :=
  match op with
  | .pk => ((64, n), ((vSrcTy x).width / 8, n * (gfmtOf t).elems))
  | .upk => ((t.width / 8, n * classElems x.c), (64, n))
  | .rq => ((64, n), (64, n))
  | .amx | .chk => ((1, 0), (64, n))
  | .cvt => ((64, ceilDiv (n * classElems x.c) (gfmtOf t).elems), (64, n))

/-- A bulk grain command at issue (R222, R252). -/
def grainOp (op : GOp) (i : Instr) (t : Ty) (x : Args) (s : State) : Host.Outcome State Fault Refusal :=
  issue x.h (fun s =>
    let scalar := op == .amx || op == .chk
    (if scalar then fun (k : Word → State → Eff) => k 0#64 s else withSrc x.a s) fun a s =>
    withSrc x.b s fun b s =>
    (if op = .rq then withSrc x.c s else fun (k : Word → State → Eff) => k 0#64 s) fun c s =>
      let n := slenN s.thr.ctx.slen
      let sh := op.shape t x n
      (if scalar then withDest x.a s else fun k => k)
        (withStores s
          (if op = .rq && (c.toNat == 0 || decide (254 < c.toNat)) then .ill 0xA2#8 0xD
          else
            withArray Role.wr.need a sh.1.1 (if scalar then 0 else sh.1.2) sh.1.1 s fun aa =>
              withArray Role.rd.need b sh.2.1 sh.2.2 sh.2.1 s fun bb =>
                withStreamRoom s
                  (let (j, s) := s.joinTag
                   let q : StreamCmd :=
                    { core := s.thr.core, cxa := s.thr.ctx.cxa, ins := i, a := BitVec.ofNat 64 aa, b := BitVec.ofNat 64 bb
                      c := c, slen := s.thr.ctx.slen, sstr := 0#64, task := s.task, lvlH := s.levelH, join := j }
                   let s := s.enqueueStream q
                   .done (if scalar then s.oweX x.a.rix else s))))) s

/-- `gpk` (R258). -/
def execGpk (t : Ty) (x : Args) (s : State) : Host.Outcome State Fault Refusal := grainOp .pk (.gpk t x) t x s
/-- `gupk` (R259). -/
def execGupk (t : Ty) (x : Args) (s : State) : Host.Outcome State Fault Refusal := grainOp .upk (.gupk t x) t x s
/-- `grq` (R260). -/
def execGrq (x : Args) (s : State) : Host.Outcome State Fault Refusal := grainOp .rq (.grq x) .f8 x s
/-- `gamx` (R261). -/
def execGamx (x : Args) (s : State) : Host.Outcome State Fault Refusal := grainOp .amx (.gamx x) .f32 x s
/-- `gchk` (R264). -/
def execGchk (x : Args) (s : State) : Host.Outcome State Fault Refusal := grainOp .chk (.gchk x) .f8 x s
/-- `gcvt` (R265). -/
def execGcvt (t : Ty) (x : Args) (s : State) : Host.Outcome State Fault Refusal := grainOp .cvt (.gcvt t x) t x s

/-- The operation, type and operands of a bulk grain command. -/
def gopOf (i : Instr) : Option (GOp × Ty × Args) :=
  match i with
  | .gpk t x => some (.pk, t, x)
  | .gupk t x => some (.upk, t, x)
  | .grq x => some (.rq, .f8, x)
  | .gamx x => some (.amx, .f32, x)
  | .gchk x => some (.chk, .f8, x)
  | .gcvt t x => some (.cvt, t, x)
  | _ => none

/-! ### The unit's step over one block (R252, R253) -/

/-- A source block: its class, its bytes, and the address of poison where it is poisoned (R253). -/
def State.readBlock (s : State) (a : Nat) (want : Option Nat) : GBlock × List Byte × Nat :=
  if s.poisoned a 64 then (.poisoned, poisonBlock, s.firstPoison a 64)
  else (gclass (s.readMem a 64) want, s.readMem a 64, a)

/-- Notes the first bad block (R253). -/
def StreamCmd.noteGrn (i a : Nat) (q : StreamCmd) : StreamCmd :=
  if q.grn.isNone then { q with grn := some (i, BitVec.ofNat 64 a) } else q

/-- Notes the first poisoned block or word (R253). -/
def StreamCmd.notePoison (i a : Nat) (q : StreamCmd) : StreamCmd :=
  if q.poison.isNone then { q with poison := some (i, BitVec.ofNat 64 a) } else q

/-- Adds flags to a command. -/
def StreamCmd.orFlags (f : FFlags) (q : StreamCmd) : StreamCmd := { q with flags := q.flags ||| f }

/-- The elements of a `gpk` block, with the address of a poisoned one (R253, R258). -/
def State.packSource (s : State) (src : Ty) (a n : Nat) : List FVal × Option Nat :=
  let z := src.width / 8
  if s.poisoned a (n * z) then ([], some (s.firstPoison a (n * z)))
  else ((List.range n).map fun i => (src.fmt.getD fmtF32).decode (s.readNat (a + i * z) z), none)

/-- An element of `gupk`: value(i) rounded once (R259). -/
def unpackElem (f : Fmt) (v : FVal) : Nat × FFlags :=
  match v with
  | .fin n m e => f.round .rne n m e
  | _ => (f.dnan, 0#5)

/-- The source blocks of one destination block of `gcvt` (R265): class, bytes and address of each. -/
def State.cvtSources (s : State) (q : StreamCmd) (es ed d : Nat) : List (Nat × GBlock × List Byte × Nat) :=
  let first := d * ed / es
  let last := min (slenN q.slen - 1) ((d * ed + ed - 1) / es)
  ((List.range (last + 1 - first)).map (· + first)).map fun k => (k, s.readBlock (q.b.toNat + 64 * k) (some es))

/-- One block of a bulk command (R252, R253). -/
def State.grainBlock (op : GOp) (t : Ty) (x : Args) (q : StreamCmd) (s : State) : StreamCmd × State :=
  let k := q.next
  let q1 := { q with next := k + 1 }
  let src := q.b.toNat + 64 * k
  let dst := q.a.toNat + 64 * k
  match op with
  | .pk =>
    let f := gfmtOf t
    let z := (vSrcTy x).width / 8
    let (vs, bad) := s.packSource (vSrcTy x) (q.b.toNat + k * f.elems * z) f.elems
    match bad with
    | some a => (q1.notePoison k a, s.engWrite dst poisonBlock false)
    | none =>
      let r := packBlock f vs
      (q1.orFlags r.2, s.engWrite dst r.1 false)
  | .upk =>
    let e := classElems x.c
    let f := t.fmt.getD fmtF32
    let z := t.width / 8
    let out := q.a.toNat + k * e * z
    let (c, bs, a) := s.readBlock src (some e)
    match c with
    | .bad => (q1.noteGrn k src, s.engWrite out (List.replicate e (leBytes z f.dnan)).flatten false)
    | .poisoned => (q1.notePoison k a, s.engWrite out (List.replicate (e * z) 0#8) true)
    | c =>
      let vs := (blockValues c bs e).map (unpackElem f)
      (q1.orFlags (vs.foldl (fun a v => a ||| v.2) 0#5), s.engWrite out (vs.map fun v => leBytes z v.1).flatten false)
  | .rq =>
    let (c, bs, a) := s.readBlock src none
    match c with
    | .bad => (q1.noteGrn k src, s)
    | .poisoned => (q1.notePoison k a, s.engWrite dst poisonBlock false)
    | c =>
      let r := requantBlock c bs q.c.toNat
      (q1.orFlags r.2, s.engWrite dst r.1 false)
  | .amx =>
    let (c, bs, a) := s.readBlock src none
    match c with
    | .bad => ({ q1.noteGrn k src with any := true }, s)
    | .poisoned => (q1.notePoison k a, s)
    | c =>
      let vs := blockValues c bs 48
      let m := maxMag vs
      let q2 := if vs.any FVal.isNan then { q1 with any := true } else q1
      (if magLe m.1 m.2 q.acc.toNat q.acc2.toInt then q2
       else { q2 with acc := BitVec.ofNat 64 m.1, acc2 := BitVec.ofInt 64 m.2 }, s)
  | .chk =>
    match (s.readBlock src none).1 with
    | .bad => ({ q1 with acc := q.acc + 1#64 }, s)
    | .poisoned => ({ q1 with acc := q.acc + 0x1000000#64 }, s)
    | _ => (q1, s)
  | .cvt =>
    let es := classElems x.c
    let f := gfmtOf t
    let srcs := s.cvtSources q es f.elems k
    match srcs.find? fun b => b.2.1 == .poisoned, srcs.find? fun b => b.2.1 == .bad with
    | some b, _ => (q1.notePoison b.1 b.2.2.2, s.engWrite dst poisonBlock false)
    | none, some b => (q1.noteGrn b.1 (q.b.toNat + 64 * b.1), s)
    | none, none =>
      let all := (srcs.map fun b => blockValues b.2.1 b.2.2.1 es).flatten
      let vs := (all.drop (k * f.elems - (k * f.elems / es) * es)).take f.elems
      let r := packBlock f (vs ++ List.replicate (f.elems - vs.length) (.fin false 0 0))
      (q1.orFlags r.2, s.engWrite dst r.1 false)

/-- Blocks a bulk command works through: source blocks, or destination blocks of `gcvt` (R252, R265). -/
def GOp.blocks (op : GOp) (t : Ty) (x : Args) (n : Nat) : Nat := if op = .cvt then (op.shape t x n).1.2 else n

/-- An array of the command lies in the window of a dead core (R231, R253). -/
def StreamCmd.deadGrain (q : StreamCmd) (op : GOp) (s : State) : Bool :=
  let dead (v : Nat) : Bool := s.homeDead ((v - winBase) / 0x100000)
  slenN q.slen != 0 && (dead q.b.toNat || (op != .amx && op != .chk && dead q.a.toNat))

/-- Ends a bulk command: the result of `gamx` or `gchk` is on its way (R261, R264). -/
def State.endGrain (op : GOp) (x : Args) (q : StreamCmd) (s : State) : State :=
  let nan := BitVec.ofNat 64 fmtF32.dnan
  let s1 := s.putStreamHead q.core { q with fin := true }
  match op with
  | .amx =>
    let bad := q.any || q.poison.isSome || q.dead.isSome
    let r := if bad then (fmtF32.dnan, 0#5) else fmtF32.round .rne false q.acc.toNat q.acc2.toInt
    let s2 := s.putStreamHead q.core { q with fin := true, flags := q.flags ||| r.2 }
    { s2 with owed := s2.owed ++ [⟨q.core, q.cxa, .xreg x.a.rix, if bad then nan else BitVec.ofNat 64 r.1, q.flags ||| r.2⟩] }
  | .chk => { s1 with owed := s1.owed ++ [⟨q.core, q.cxa, .xreg x.a.rix, if q.dead.isSome then 0#64 else q.acc, 0#5⟩] }
  | _ => s1

/-- `GRAIN_BLOCK` (R252): the unit processes one block of the next command in its round. -/
def execGrainBlock (cluster : Nat) (s : State) : Host.Outcome State Fault Refusal :=
  .next
    (match s.nextStream cluster with
    | none => s
    | some n =>
      match (s.core n).streamHead with
      | none => s
      | some q =>
        match gopOf q.ins with
        | none => s
        | some (op, t, x) =>
          let total := op.blocks t x (slenN q.slen)
          let s1 :=
            if q.deadGrain op s then s.endGrain op x { q with dead := some q.next }
            else if total ≤ q.next then s.endGrain op x q
            else
              let (q1, s1) := s.grainBlock op t x q
              if q1.next < total then s1.putStreamHead n q1 else s1.endGrain op x q1
          s1.setCluster cluster fun c => { c with rr := n })

/-! ### The single-block instructions (R255, R262, R263) -/

/-- The header word of a block (R262). -/
def headerOf (k : GBlock) (bs : List Byte) : Word :=
  match k with
  | .data f =>
    let ge (g : Nat) : Word := if g < f.elems / 16 then field (at' bs (2 + f.stride * g) 1) (16 + 8 * g) else 0#64
    field f.code 0 ||| field (at' bs 1 1) 8 ||| ge 0 ||| ge 1 ||| ge 2 ||| ge 3 ||| ge 4 ||| ge 5
  | .nan f => field f.code 0 ||| 0xFF00#64
  | _ => 0#64

/-- A block that a single-block instruction meets: GRN for a bad one, POI for a poisoned one (R249). -/
def withGoodBlock (ea : Word) (bs : List Byte) (k : GBlock → Eff) : Eff :=
  match gclass bs none with
  | .bad => .trap tGRN 0#8 ea
  | .poisoned => .trap tPOI pUNCORR ea
  | c => k c

/-- `ghdr` (R262). -/
def execGhdr (x : Args) (s : State) : Host.Outcome State Fault Refusal :=
  issue x.h (fun s =>
    withEa x.b x.c s fun ea s =>
      withDest x.a s (withStores s (withBytes x.a.rix nLoad ea 64 64 x.h.cp s fun bs s =>
        withGoodBlock ea bs fun c => .done (s.writeX x.a.rix (headerOf c bs))))) s

/-- What `gset` writes: the offset and the bytes (R263). -/
def gsetBytes (fn : Nat) (c : GBlock) (be : Nat) (bs : List Byte) : Option (Nat × List Byte) :=
  match fn, c with
  | 0, .data _ => some (1, [byteOf be])
  | 1, _ => some (0, zeroBlock)
  | 2, .data f | 2, .nan f => some (0, byteOf f.code :: 0xFF#8 :: (bs.drop 2).map fun _ => 0#8)
  | _, _ => none

/-- `gset` of a good block at its home. -/
def State.homeGset (fn v a : Nat) (c : GBlock) (bs : List Byte) (s : State) : State :=
  match gsetBytes fn c v bs with
  | some (o, w) => s.homeWrite (a + o) w
  | none => s

/-- The need of `gset`: R and W, a write for the page (R263). -/
def nGset : Need := { r := true, w := true, write := true, kind := 1 }

/-- `gset`: at the home the block is checked and changed, indivisibly (R263). To a peer goes one STORE of 64 bytes under SUB 5 + `fn`,
whose data word is the value, and the block as it was comes back; behind the host window the port reads the block and writes it before
anything else leaves (DESIGN CHOICE, log 28). The thread then meets the block as it was. -/
def gsetOp (fn : Nat) (x : Args) (s : State) : Host.Outcome State Fault Refusal :=
  issue x.h (fun s0 =>
    withEa x.b x.c s0 fun ea s =>
    (if fn = 0 then withSrc x.a s else fun (k : Word → State → Eff) => k 1#64 s) fun v s =>
      withStores s
        (if v.toNat = 0 ∨ 254 < v.toNat then .ill 0xA5#8 0xD
        else
          match s.thr.res.record with
          | some bs => withGoodBlock ea bs fun _ => .done (s.mapRes fun r => { r with record := none })
          | none =>
            withPlace nGset ea 64 64 false s fun l s =>
              match l with
              | .mem a home paged leaf =>
                withHome .nothing false a home 64 ea s0 s fun s =>
                  let bs := s.readMem a 64
                  withGoodBlock ea bs fun c =>
                    let s := (if paged then s.touchL2 home a (effPolicy leaf x.h.cp) true else s).ackTo s.thr.core home
                    .stay ((s.homeGset fn v.toNat a c bs).replyBy .nothing ea false (emptiedSince s0 s) [])
              | .peer p win off =>
                withFar p s fun s =>
                  .again ((s.sendPeer false 0#4 ea p win off 0x02 (5 + fn) 64 (padTo 64 (leBytes 8 v.toNat))).awaitReply .record ea false 0#16)
              | .host off =>
                withOrder hostHome s fun s =>
                  .again ((s.askHost (.gset s.thr.core s.thr.ctx.cxa fn v.toNat off) 64 (.memRead · off 64)).awaitReply .record ea false 0#16)
              | .zeros => .done s) ) s

/-- `gset.be` (R263). -/
def execGsetBe (x : Args) (s : State) : Host.Outcome State Fault Refusal := gsetOp 0 x s
/-- `gset.zero` (R263). -/
def execGsetZero (x : Args) (s : State) : Host.Outcome State Fault Refusal := gsetOp 1 x s
/-- `gset.nan` (R263). -/
def execGsetNan (x : Args) (s : State) : Host.Outcome State Fault Refusal := gsetOp 2 x s

end Sys2Proof.Machine
end

