-- ==== Sys2Proof/Machine/Schedule.lean ====
section
/-! DEFINITION. Time, who moves next, and the end of waits (R47-R50, R81-R84; DESIGN CHOICE, logs 1 and 2): the agenda names a step, and
an empty agenda lets the thread in the issue stage move, then the machine's own pending steps, in one fixed order. -/

namespace Sys2Proof.Machine

open Config

/-- The cycles of one step when the agenda is empty: a slot's own turns lie 8 cycles apart (R47). -/
def defaultCycles : Nat := 8

/-- The core at a position sends heartbeats: it works, and it is no spare's (R12, R404, R405). -/
def State.beats (s : State) (x y : Nat) : Option Nat :=
  (s.coreAtPos x y).filter fun n => !isSpare n && !s.homeDead n

/-- Every core of a band sends its heartbeat (R405). -/
def State.bandBeat (b : Nat) (s : State) : State :=
  let place (i : Nat) : Nat × Nat := (32 * (b % 2) + i % 32, 2 * (b / 2) + i / 32)
  { s with
    flue := s.flue ++ (List.range 64).filterMap fun i =>
      (s.beats (place i).1 (place i).2).map fun n => flueFrom (place i).1 (place i).2 n cHBT 0#64 0#64 }

/-- Every band of a die sends the heartbeat that is due (R405). -/
def State.dieBeat (die : Nat) (s : State) : State :=
  (((List.range 32).filter fun b => bandDie b == die).foldl (fun s b => s.bandBeat b) s).setDie die fun e => { e with beatDue := false }

/-- Several heartbeats of a die. -/
def State.dieBeats (die : Nat) : Nat → State → State
  | 0, s => s
  | k + 1, s => State.dieBeats die k (s.dieBeat die)

/-- Cycles in which CYC bits 15:0 are 0 among the next `n` (R405). -/
def beatsIn (cyc : Word) (n : Nat) : Nat := (cyc.toNat % 65536 + n) / 65536

/-- `n` cycles pass on a die: the heartbeat of each cycle in which CYC bits 15:0 are 0 is sent, the last one within the next step
(R20, R405). -/
def State.passDie (d n : Nat) (s : State) : State :=
  let e := s.die d
  let k := beatsIn e.cyc n
  let s1 := if n = 0 then s else s.dieBeats d (b2n e.beatDue + (k - 1))
  s1.setDie d fun e => { e with cyc := e.cyc + BitVec.ofNat 64 n, beatDue := e.beatDue || decide (0 < k) }

/-- Time passes on each die (R20). -/
def State.pass (c : Nat → Nat) (s : State) : State := [0, 1, 2, 3].foldl (fun s d => s.passDie d (c d)) s

/-- The cycles an agenda entry gives a die. -/
def Turn.cycles (t : Turn) (d : Nat) : Nat :=
  match d with
  | 0 => t.c0 | 1 => t.c1 | 2 => t.c2 | _ => t.c3

/-- The thread can issue: it is bound, nothing holds it, and its skip count is 0 (R48, R49). -/
def Thread.canIssue (t : Thread) : Bool := decide (t.wait = .ready) && t.slot.isSome && t.skip == 0

/-- An own turn of the thread in the issue stage passes (R47, R82); its next own one comes 8 cycles later. -/
def State.ownTurn (s : State) : State := s.mapThr fun t => { t with turns := t.turns + 1, gap := 8 }

/-- A turn of the thread in the issue stage: an own one (`gap` 0) counts towards its quantum, and one lent to it `gap` cycles before
its next own turn does not (R49, R82). -/
def State.takeTurn (gap : Nat) (s : State) : State := if gap = 0 then s.ownTurn else s.mapThr fun t => { t with gap := gap }

/-- The thread can issue at a turn lent to it: no fixed-latency result of its is outstanding (R49). -/
def Thread.canBorrow (t : Thread) : Bool := t.canIssue && t.res.fixed.isEmpty

/-- The thread can issue at an own turn, or at one lent to it, which comes 4 to 7 cycles before its next own one (R49). -/
def Thread.canTake (gap : Nat) (t : Thread) : Bool :=
  if gap = 0 then t.canIssue else t.canBorrow && decide (4 ≤ gap) && decide (gap ≤ 7)

/-- Brings the first other thread that satisfies `p` into the issue stage; the displaced thread joins the others. -/
def State.switchTo (p : Thread → Bool) (s : State) : State :=
  match s.pool.find? p with
  | none => s
  | some t =>
    let rest := dropFirst p s.pool
    { s with thr := t, pool := if s.thr.wait = .ended then rest else rest ++ [s.thr] }

/-- Brings the thread bound to a core's slot into the issue stage. -/
def State.select (sel : Option (Nat × Nat)) (s : State) : State :=
  match sel with
  | none => s
  | some (c, k) =>
    if s.thr.core == c && decide (s.thr.slot = some k) then s else s.switchTo fun t => t.core == c && decide (t.slot = some k)

/-! ### The end of waits -/

/-- How many threads a resource can serve now, for a thread of a core (R84); a condition that holds serves any number. -/
def State.units (s : State) (t : Thread) (r : Resource) : Nat :=
  let c := s.core t.core
  let all (b : Bool) : Nat := if b then 1000000 else 0
  match r with
  | .reg r f => all (!t.ctx.owe.getLsbD r.toNat && t.ctx.fe.getLsbD r.toNat == f)
  | .pred p => all (!t.res.owedPred.getLsbD p.toNat)
  | .stores => all (t.ctx.stc == 0#16)
  | .stcRoom n => all (decide (t.ctx.stc.toNat + n < 65536))
  | .order h => all (!s.orderBusy t.core t.ctx.cxa h)
  | .fetched h a n => all (!s.fetchBusy t.core t.ctx.cxa h a n)
  | .release sc dst far grp => all (!s.releaseBusy t.core t.ctx.cxa sc dst far grp)
  | .pend => all (t.ctx.stc == 0#16 && !t.ctx.rld && t.ctx.owe == 0#16 && !t.res.owesPred)
  | .draught dn => c.allowance dn
  | .table => c.tableRoom
  | .drain dn => all (c.draught.all fun e => e.dn != dn || e.out == 0)
  | .inbox ch => c.ibCount ch
  | .room k ch => if s.homeDead k then all true else (s.core k).ibEntries - (s.core k).ibCount ch
  | .joinFree => 256 - c.joins.length
  | .joinDone => all (match t.res.join with
      | some i => c.joins.any fun j => j.idx == i && j.completed == j.n
      | none => true)
  | .streamQ => 16 - c.streamQ.countP fun q => !q.fin
  | .lease => all (s.termOpen t.core)
  | .panQ => s.panRoom t.core
  | .copySlot => 1024 - c.copies.length
  | .attach k => if s.homeDead k then all true else 4096 - (s.attached k).length
  | .ready k => all (s.rdyc.contains k)
  | .engines => all (t.res.cmds == 0)
  | .tlbw sc k gen => all (!s.genBusy (scopeClusters sc k) gen.toNat)
  | .mbox => 16 - c.mbox.length
  | .part p => all (!s.partBusy p)
  | .channel ch => all (s.rdym.contains ch || s.flm.contains ch || s.dieFatal (ch / 32))
  | .pages a => all (!s.asks.any fun q => decide (q.1 = a) && q.2.why.isNone)

/-- Threads of a core that stand in line for a resource before `t`. -/
def State.before (s : State) (t : Thread) (r : Resource) : Nat :=
  s.threads.countP fun u => u.core == t.core && u.inLine r && decide (u.stamp < t.stamp)

/-- The wait of a parked thread is over; those of a halted core stay (R404). -/
def State.waitOver (s : State) (t : Thread) : Bool :=
  match t.wait with
  | .on r => !(s.core t.core).dead && decide (s.before t r < s.units t r)
  | _ => false

/-- The thread whose wait began first among those whose wait is over (R83, R84). -/
def State.nextOver (s : State) : Option Thread :=
  (s.threads.filter s.waitOver).foldl (fun o t => match o with
    | none => some t
    | some u => if t.stamp < u.stamp then some t else some u) none

/-- The wait of a thread ends: it is ready, or the pan command it has captured is admitted and it goes on (R270, R273). -/
def State.endWait (t : Thread) (s : State) : State :=
  match t.res.pan with
  | none => s.makeReady t.core t.ctx.cxa
  | some q =>
    ((s.admitPan q).updImage t.core t.ctx.cxa fun t =>
      { t with
        waitOn := none, parked := false, ctx := { t.ctx with pc := t.ctx.pc + 12#64 }, res := { t.res with pan := none } }).makeReady
      t.core t.ctx.cxa

/-- Ends the waits that are over, the longest-waiting first (R83, R84). -/
def State.settle : Nat → State → State
  | 0, s => s
  | fuel + 1, s =>
    match s.nextOver with
    | none => s
    | some t => State.settle fuel (s.endWait t)

/-- What follows every step; what was in transit in it has arrived (R401). -/
def State.after (s : State) : State := ({ s with path := {} } : State).settle (s.pool.length + 1)

/-- What follows a step's outcome. -/
def afterStep : Host.Outcome State Fault Refusal → Host.Outcome State Fault Refusal
  | .next s => .next s.after
  | .fault f => .fault f
  | .refused r => .refused r

/-! ### The machine's own steps, when the agenda is empty -/

/-- The slots threads of a core may have (R13). -/
def coreSlots (n : Nat) : List Nat := if isHearth n then [0, 1, 2, 3, 4, 5, 6, 7] else [0, 1, 2, 3, 4, 5, 6]

/-- A free slot of a core. -/
def State.freeSlot (s : State) (n : Nat) : Option Nat :=
  (coreSlots n).find? fun k => !(s.attached n).any fun t => decide (t.slot = some k)

/-- The slot that a run-queue entry of a core can take now: the walker's own line runs in slot 7 (R13, R73), also while the core is
halted (R375). -/
def State.slotFor (s : State) (n : Nat) (e : RqEntry) : Option Nat :=
  if (s.findThr n e.cxa).any fun t => decide (t.place = .walker) then
    (if (s.attached n).any fun u => decide (u.slot = some 7) then none else some 7)
  else if (s.core n).halted then none
  else s.freeSlot n

/-- The entry can be bound now (R82, R77). -/
def State.canTake (s : State) (n : Nat) (e : RqEntry) : Bool := !e.cf && (s.slotFor n e).isSome

/-- A core can bind a thread (R82). -/
def State.canBind (s : State) (n : Nat) : Bool :=
  !(s.core n).dead && (s.core n).runq.any (s.canTake n)

end Sys2Proof.Machine
end

