-- ==== Sys2Proof/Machine/Pan.lean ====
section
/-! DEFINITION. The pan: accumulators (R267, R268), leases (R269, R270, R283, R284), the pan instructions at issue
(R272, R273, R280-R282), and the pan's own steps (R271, R274-R278, R285-R288). -/

namespace Sys2Proof.Machine

open Config

/-! ### Accumulators (R267, R268) -/

/-- The position of a core in its cluster, which its accumulators belong to. -/
def State.panPos (s : State) (n : Nat) : Nat := (s.pos n).1 % 2 + 2 * ((s.pos n).2 % 2)

/-- The 4,096 words of an accumulator as it is held. -/
def accWords (l : List (BitVec 32)) : List (BitVec 32) := if l = [] then List.replicate 4096 0#32 else l

/-- An accumulator of a core, with its shadow. -/
def State.accOf (s : State) (n i : Nat) : AccPair :=
  ((s.cluster (s.coreCluster n)).accs.find? fun a => a.pos == s.panPos n && a.idx == i).getD ⟨s.panPos n, i, [], []⟩

/-- Replaces an accumulator and its shadow. -/
def State.setAcc (n i : Nat) (v sh : List (BitVec 32)) (s : State) : State :=
  let p := s.panPos n
  s.setCluster (s.coreCluster n) fun c =>
    { c with accs := (c.accs.filter fun a => !(a.pos == p && a.idx == i)) ++ (if v = [] ∧ sh = [] then [] else [⟨p, i, v, sh⟩]) }

/-! ### Leases (R269) -/

/-- A thread of a core is parked in `lse`, or on a pan command because the core has no open term (R269). -/
def State.requesting (s : State) (n : Nat) : Bool :=
  !s.termOpen n && (s.attached n).any fun t => decide (t.wait = .on .lease) || decide (t.wait = .on .panQ)

/-- A core has admitted commands that have neither committed nor aborted. -/
def CoreSt.panBusy (c : CoreSt) : Bool := c.panQ.any fun q => q.st != .committed

/-- The word that `lse` returns (R283). -/
def Lease.word (l : Lease) (now : Word) (new : Bool) : Word :=
  field (b2n new) 63 ||| field (65536 - (now - l.start).toNat) 32 ||| BitVec.ofNat 64 (256 - l.cmds)

/-- Notes that the holder is active (R269 case 4). -/
def Lease.touch (now : Word) (l : Lease) : Lease := { l with active := now }

/-- Closes the term of a core (R269). -/
def State.closeTerm (n : Nat) (s : State) : State :=
  s.setCluster (s.coreCluster n) fun c =>
    if c.lease.holder = some n then { c with lease := { c.lease with opened := false } } else c

/-- `lse` (R283). -/
def execLse (x : Args) (s : State) : Host.Outcome State Fault Refusal :=
  issue x.h (fun s =>
    withDest x.a s (withStores s
      (if s.termOpen s.thr.core then
        let w := (s.cluster s.myCluster).lease.word (s.now s.thr.core) s.thr.res.newTerm.isSome
        .done ((s.writeX x.a.rix w).mapRes fun r => { r with newTerm := none })
      else .again ((s.mapRes fun r => { r with newTerm := some x.a.rix }).parkOn .lease)))) s

/-- `lsr` (R284). -/
def execLsr (x : Args) (s : State) : Host.Outcome State Fault Refusal :=
  issue x.h (fun s =>
    withStores s (.done (if s.termOpen s.thr.core then s.closeTerm s.thr.core else s))) s

/-- Inserts a thread among those that began to wait before it. -/
def insertWaiting (t : Thread) : List Thread → List Thread
  | [] => [t]
  | u :: l => if t.stamp < u.stamp then t :: u :: l else u :: insertWaiting t l

/-- Threads by when they began to wait, the longest-waiting first (R84). -/
def inTurn (l : List Thread) : List Thread := l.foldl (fun l t => insertWaiting t l) []

/-- A grant serves a thread that waits on its core's lease (R269): an `lse` reads the counts as they stand (R283), and a pan command
is admitted if the term and the queue still have room (R270). -/
def State.serveLease (t : Thread) (s : State) : State :=
  let l := (s.cluster (s.coreCluster t.core)).lease
  match t.wait, t.res.newTerm with
  | .on .lease, some r =>
    (s.updImage t.core t.ctx.cxa fun t =>
      { t with
        waitOn := none
        ctx := { (t.ctx.writeX r (l.word (s.now t.core) true)) with pc := t.ctx.pc + 12#64 }
        res := { t.res with newTerm := none } }).makeReady t.core t.ctx.cxa
  | .on .panQ, _ => if 0 < s.panRoom t.core then s.endWait t else s
  | _, _ => s

/-- The cores of a cluster that its pan executes commands of: its members, and a dead one until all that it had admitted has run
(R269, R413). -/
def State.panCores (s : State) (k : Nat) : List Nat :=
  s.clusterCores k ++ (s.cores.map (·.1)).filter fun n => !s.live n && s.coreCluster n == k

/-- `LEASE_GRANT` (R269): the next requesting core after the former holder, once every command of a closed term has
committed or aborted. -/
def execLeaseGrant (cluster : Nat) (s : State) : Host.Outcome State Fault Refusal :=
  let l := (s.cluster cluster).lease
  let drained := match l.holder with
    | some n => !l.isOpen n (s.now n) && !(s.coreCluster n == cluster && (s.core n).panBusy)
    | none => true
  .next
    (match (if drained then (roundRobin l.last (s.clusterCores cluster)).find? s.requesting else none) with
    | none => s
    | some n =>
      let now := s.now n
      let l1 : Lease := { holder := some n, opened := true, cmds := 0, start := now, active := now, last := n }
      (inTurn (s.attached n)).foldl (fun s t => s.serveLease t) (s.setCluster cluster fun c => { c with lease := l1 }))

/-- `LEASE_TERM_EXPIRE` (R269 case 2). -/
def execLeaseTermExpire (cluster : Nat) (s : State) : Host.Outcome State Fault Refusal :=
  let l := (s.cluster cluster).lease
  .next
    (match l.holder with
    | some n => if l.opened && !s.termOpen n then s.closeTerm n else s
    | none => s)

/-- `LEASE_IDLE_CLOSE` (R269 case 4); threads that wait on a core that has halted do not keep its term (R413). -/
def execLeaseIdleClose (cluster : Nat) (s : State) : Host.Outcome State Fault Refusal :=
  let l := (s.cluster cluster).lease
  .next
    (match l.holder with
    | some n =>
      if s.termOpen n && !(s.core n).panBusy && ((s.core n).dead || !(s.attached n).any fun t => decide (t.wait = .on .panQ)) &&
          decide (1024 ≤ (s.now n - l.active).toNat) && (s.clusterCores cluster).any (fun m => m != n && s.requesting m) then
        s.closeTerm n
      else s
    | none => s)

/-! ### The pan commands at issue (R272, R273) -/

/-- The pan commands. -/
inductive POpr where
  | mz | mmac | mld | mst
  deriving DecidableEq, Repr

/-- The operation, type and operands of a pan command. -/
def poprOf (i : Instr) : Option (POpr × Ty × Args) :=
  match i with
  | .mz x => some (.mz, .x64, x)
  | .mmac t x => some (.mmac, t, x)
  | .mld x => some (.mld, .i32, x)
  | .mst t x => some (.mst, t, x)
  | _ => none

/-- KB of a control word (R281). -/
def ctlKb (v : Word) : Nat := bits v.toNat 8 10
/-- Z of a control word. -/
def ctlZ (v : Word) : Bool := v.getLsbD 7
/-- CH of a control word. -/
def ctlCh (v : Word) : Nat := bits v.toNat 4 3
/-- ACC of a control word. -/
def ctlAcc (v : Word) : Nat := bits v.toNat 0 4
/-- TAG of a control word. -/
def ctlTag (v : Word) : BitVec 32 := BitVec.ofNat 32 (bits v.toNat 20 12)

/-- Bytes of a K block in one row or column (R266). -/
def kBytes (t : Ty) : Nat :=
  match t with
  | .i8 | .f8 => 128
  | _ => 64

/-- The extent of an operand in 64-byte units, and its rights (R272). -/
def POpr.extent (op : POpr) (t : Ty) (ctl : Word) : Need × Nat :=
  match op with
  | .mmac => (Role.rd.need, ctlKb ctl * kBytes t)
  | .mld => (Role.rd.need, 256)
  | .mst => (Role.wr.need, if t = .h16 ∨ t = .b16 then 128 else 256)
  | .mz => (Role.rd.need, 0)

/-- Checks an operand of a pan command, or passes an absent one (R272). -/
def withPanArray (o : Opnd) (nd : Need) (n : Nat) (v : Word) (s : State) (k : Nat → Eff) : Eff :=
  if o.isReg then withArray nd v 64 n 64 s k else k 0

/-- A pan command at issue (R273): checked and captured, it is admitted, or its thread parks until it is. -/
def panOp (op : POpr) (i : Instr) (o : BitVec 8) (t : Ty) (x : Args) (s : State) : Host.Outcome State Fault Refusal :=
  issue x.h (fun s =>
    withSrc x.a s fun ctl s => withSrc x.b s fun b s => withSrc x.c s fun c s =>
      withStores s
        (if !ctlOk (op == .mmac) (op == .mmac) (op == .mz) ctl then .ill o 0xD
        else
          let (nd, n) := op.extent t ctl
          withPanArray x.b nd n b s fun b => withPanArray x.c nd n c s fun c =>
            let (j, s) := s.joinTag
            let q : PanCmd :=
              { core := s.thr.core, cxa := s.thr.ctx.cxa, ins := i, ctl := ctl, b := BitVec.ofNat 64 b
                c := BitVec.ofNat 64 c, task := s.task, lvlH := s.levelH, join := j }
            if s.aheadOf .panQ < s.panRoom s.thr.core then .done (s.admitPan q)
            else .stay ((s.mapRes fun r => { r with pan := some q }).parkOn .panQ))) s

/-- `mz` (R285). -/
def execMz (x : Args) (s : State) : Host.Outcome State Fault Refusal := panOp .mz (.mz x) 0xB2#8 .x64 x s
/-- `mmac` (R286). -/
def execMmac (t : Ty) (x : Args) (s : State) : Host.Outcome State Fault Refusal := panOp .mmac (.mmac t x) 0xB3#8 t x s
/-- `mld` (R287). -/
def execMld (x : Args) (s : State) : Host.Outcome State Fault Refusal := panOp .mld (.mld x) 0xB4#8 .i32 x s
/-- `mst` (R288). -/
def execMst (t : Ty) (x : Args) (s : State) : Host.Outcome State Fault Refusal := panOp .mst (.mst t x) 0xB5#8 t x s

/-! ### Operands of `mmac` (R271) -/

/-- A grain block fits the command's format (R271). -/
def blockFits (t : Ty) (k : GBlock) (bs : List Byte) : Bool :=
  match k with
  | .zero => true
  | .data f =>
    f == gfmtOf t && (t != .i8 || (at' bs 1 1 == 127 && (List.range 3).all fun g => geOf .i8 bs g == 0 && at' bs (3 + 18 * g) 1 == 0))
  | .nan f => f == gfmtOf t && t != .i8
  | _ => false

/-- The operand holds grain blocks. -/
def isGrainTy (t : Ty) : Bool := t == .i8 || t == .f8 || t == .q4

/-- The elements of one 64-byte unit of an operand (R271). -/
def unitElems (t : Ty) (bs : List Byte) : List FVal :=
  if isGrainTy t then blockValues (gclass bs none) bs (gfmtOf t).elems
  else (List.range 32).map fun k => (t.fmt.getD fmtF32).decode (at' bs (2 * k) 2)

/-- Addresses of the units of K block b of an operand: 64 vectors in order (R271). -/
def kUnits (t : Ty) (kb base b : Nat) : List Nat :=
  let n := kBytes t / 64
  ((List.range 64).map fun j => (List.range n).map fun u => base + j * (kb * kBytes t) + b * kBytes t + 64 * u).flatten

/-- A 64-byte unit that a command reads is poisoned: by a poisoned word, or as a block of code 0xFF (R276). -/
def State.unitPoisoned (s : State) (grain : Bool) (a : Nat) : Bool :=
  s.poisoned a 64 || (grain && s.readNat a 1 == 0xFF)

/-- Consecutive poisoned units from one of an operand that ends at `hi`, at most 255 (R278). -/
def State.poisonRun (s : State) (grain : Bool) (hi : Nat) : Nat → Nat → Nat
  | 0, _ => 0
  | fuel + 1, a => if a < hi && s.unitPoisoned grain a then 1 + s.poisonRun grain hi fuel (a + 64) else 0

/-- The core whose window an operand lies in (R272). -/
def windowOf (a : Nat) : Nat := (a - winBase) / 0x100000

/-- How a pan command ended: CODE, D1 and D2 (R276, R278). -/
structure PanEnd where
  code : Nat := 0
  d1 : Word := 0
  d2 : Word := 0
  deriving DecidableEq, Repr

/-- A report of POISON at a unit of an operand that ends at `hi` (R278). -/
def State.poisonEnd (s : State) (grain : Bool) (hi a : Nat) : PanEnd :=
  ⟨1, field (s.poisonRun grain hi 255 a) 56 ||| BitVec.ofNat 64 (a / 64 * 64), BitVec.ofNat 64 a⟩

/-- A report of DEAD at the first unit not accessed. -/
def deadEnd (a : Nat) : PanEnd := ⟨2, BitVec.ofNat 64 (windowOf a), BitVec.ofNat 64 a⟩

/-- What stops `mmac` in K block b: POISON before DEAD before GRN; P before Q, vectors in order (R276, DEDUCED, log 29). -/
def State.mmacFault (s : State) (t : Ty) (kb p q b : Nat) : Option PanEnd :=
  let deadP := s.homeDead (windowOf p)
  let deadQ := s.homeDead (windowOf q)
  let up := kUnits t kb p b
  let uq := kUnits t kb q b
  let poi (base : Nat) (l : List Nat) : Option PanEnd :=
    (l.find? (s.unitPoisoned (isGrainTy t))).map (s.poisonEnd (isGrainTy t) (base + 64 * kb * kBytes t))
  let dead (d : Bool) (l : List Nat) : Option PanEnd := if d then l.head?.map deadEnd else none
  let bad (inQ : Bool) (l : List Nat) : Option PanEnd :=
    if !isGrainTy t then none
    else (l.find? fun a => !blockFits t (gclass (s.readMem a 64) none) (s.readMem a 64)).map fun a =>
      ⟨4, field (b2n inQ) 63 ||| BitVec.ofNat 64 b, BitVec.ofNat 64 a⟩
  [poi p up, poi q uq, dead deadP up, dead deadQ uq, bad false up, bad true uq].findSome? id

/-! ### Sums (R274, R275) -/

/-- A finite value as an integer at an exponent that is not above its own. -/
def FVal.at (e : Int) : FVal → Int
  | .fin n m e1 => (if n then -1 else 1) * ((m * 2 ^ (e1 - e).toNat : Nat) : Int)
  | _ => 0

/-- The exponent of a finite value. -/
def FVal.exp : FVal → Int
  | .fin _ _ e => e
  | _ => 0

/-- The exact sum of finite values; a sum of zeros of one sign is that zero (R126, DEDUCED, log 29). -/
def exactSum (l : List FVal) : FVal :=
  let e := l.foldl (fun e v => min e v.exp) 0
  let t := l.foldl (fun t v => t + v.at e) (0 : Int)
  if t = 0 then .fin (l.all fun v => v.isZero && v.neg) 0 0 else .fin (decide (t < 0)) t.natAbs e

/-- The sum of one K block of products, and its flags (R274). -/
def blockSum (p q : List FVal) : FVal × FFlags :=
  if p.any FVal.isNan || q.any FVal.isNan then (.nan false, nvIf (p.any FVal.isSig || q.any FVal.isSig))
  else
    let l := List.zipWith mulVal p q
    if l.any (·.isNone) then (.nan false, fNV)
    else
      let l := l.filterMap id
      let pos := l.any (· == .inf false)
      let neg := l.any (· == .inf true)
      if pos && neg then (.nan false, fNV)
      else if pos then (.inf false, 0#5)
      else if neg then (.inf true, 0#5)
      else (exactSum l, 0#5)

/-- acc := RNE_f32(acc + s), with its flags (R274). -/
def accAdd (a : Nat) (v : FVal × FFlags) : Nat × FFlags :=
  let x := fmtF32.decode a
  if x.isNan || v.1.isNan then fmtF32.nanOut (nvIf x.isSig ||| v.2)
  else let r := fmtF32.addVal .rne x v.1; (r.1, r.2 ||| v.2)

/-- The integer sum of one K block (R275). -/
def blockInt (p q : List FVal) : Int := (List.zipWith (fun a b => FVal.at 0 a * FVal.at 0 b) p q).foldl (· + ·) 0

/-- acc := clamp(acc + s); SAT is reported where OF stands (R275, R278). -/
def accClamp (a : Nat) (v : Int) : Nat × FFlags :=
  let t := sintOf 32 a + v
  if t < -2147483648 then (wrapPat 32 (-2147483648), fOF)
  else if 2147483647 < t then (2147483647, fOF) else (wrapPat 32 t, 0#5)

/-- One K block into one element. -/
def macStep (t : Ty) (a : Nat) (p q : List FVal) : Nat × FFlags :=
  if t = .i8 then accClamp a (blockInt p q) else accAdd a (blockSum p q)

/-- All K blocks of one row and one column into one element, in ascending order. -/
def macElem (t : Ty) (a : Nat) (p q : List (List FVal)) : Nat × FFlags :=
  (p.zip q).foldl (fun (r : Nat × FFlags) pq => let x := macStep t r.1 pq.1 pq.2; (x.1, r.2 ||| x.2)) (a, 0#5)

/-- The 64 vectors of an operand, each as its K blocks (R271). -/
def State.operand (s : State) (t : Ty) (kb base : Nat) : List (List (List FVal)) :=
  let n := kBytes t / 64
  (List.range 64).map fun j => (List.range kb).map fun b =>
    ((List.range n).map fun u =>
      unitElems t (s.readMem (base + j * (kb * kBytes t) + b * kBytes t + 64 * u) 64)).flatten

/-- The accumulator after `mmac`, and its flags (R274, R275). -/
def State.mmacValue (s : State) (t : Ty) (kb p q : Nat) (a : List (BitVec 32)) : List (BitVec 32) × FFlags :=
  let vp := s.operand t kb p
  let vq := s.operand t kb q
  let r := List.zipWith (fun (x : BitVec 32) (pq : List (List FVal) × List (List FVal)) => macElem t x.toNat pq.1 pq.2) a
    (vp.map fun x => vq.map fun y => (x, y)).flatten
  (r.map fun x => BitVec.ofNat 32 x.1, r.foldl (fun f x => f ||| x.2) 0#5)

/-! ### The pan's own steps -/

/-- The bytes that `mst` writes, and its flags (R288). -/
def mstBytes (t : Ty) (a : List (BitVec 32)) : List Byte × FFlags :=
  if t = .h16 ∨ t = .b16 then
    let r := a.map fun w => fcvt fmtF32 (t.fmt.getD fmtF32) .rne w.toNat
    ((r.map fun x => leBytes 2 x.1).flatten, r.foldl (fun f x => f ||| x.2) 0#5)
  else ((a.map fun w => leBytes 4 w.toNat).flatten, 0#5)

/-- Changes the first command of a core's pan queue that has not committed. -/
def State.putPan (n : Nat) (q : PanCmd) (s : State) : State :=
  s.setCore n fun c => { c with panQ := mapFirst (fun q => q.st != .committed) (fun _ => q) c.panQ }

/-- An aborted command: its accumulator is as its shadow (R277). -/
def State.abortPan (q : PanCmd) (e : PanEnd) (s : State) : State :=
  let now := s.now q.core
  (s.putPan q.core { q with st := .committed, code := e.code, d1 := e.d1, d2 := e.d2 }).setCluster (s.coreCluster q.core)
    fun c => { c with lease := c.lease.touch now }

/-- Starts a command: its operands are read and its result computed into the accumulator, or it aborts (R273-R277). -/
def State.startPan (op : POpr) (t : Ty) (q : PanCmd) (s : State) : State :=
  let n := q.core
  let i := ctlAcc q.ctl % 4
  let acc := s.accOf n i
  let run (f : FFlags) (s : State) : State := s.putPan n { q with st := .running, flags := f }
  match op with
  | .mz => run 0#5 ((List.range 4).foldl (fun s i => if bit (ctlAcc q.ctl) i then s.setAcc n i [] (s.accOf n i).shadow else s) s)
  | .mmac =>
    let kb := ctlKb q.ctl
    match (List.range kb).findSome? (s.mmacFault t kb q.b.toNat q.c.toNat) with
    | some e => s.abortPan q e
    | none =>
      let r := s.mmacValue t kb q.b.toNat q.c.toNat (if ctlZ q.ctl then List.replicate 4096 0#32 else accWords acc.val)
      run r.2 (s.setAcc n i r.1 acc.shadow)
  | .mld =>
    let a := q.b.toNat
    match ((List.range 256).map fun u => a + 64 * u).find? (s.unitPoisoned false) with
    | some u => s.abortPan q (s.poisonEnd false (a + 16384) u)
    | none =>
      if s.homeDead (windowOf a) then s.abortPan q (deadEnd a)
      else run 0#5 (s.setAcc n i ((List.range 4096).map fun k => BitVec.ofNat 32 (s.readNat (a + 4 * k) 4)) acc.shadow)
  | .mst =>
    let a := q.b.toNat
    if s.homeDead (windowOf a) then s.abortPan q (deadEnd a)
    else
      let r := mstBytes t (accWords acc.val)
      run r.2 (s.engWrite a r.1 false)

/-- `PAN_START` (R273): the pan starts a core's next admitted command. -/
def execPanStart (cluster : Nat) (s : State) : Host.Outcome State Fault Refusal :=
  let head (n : Nat) : Option PanCmd := ((s.core n).panQ.find? fun q => q.st != .committed).filter fun q => q.st == .queued
  .next
    (match (s.panCores cluster).findSome? head with
    | none => s
    | some q =>
      match poprOf q.ins with
      | none => s
      | some (op, t, _) => s.startPan op t q)

/-- The commit: the result is copied into the shadow (R267). -/
def State.commitPan (op : POpr) (q : PanCmd) (s : State) : State :=
  let i := ctlAcc q.ctl % 4
  let now := s.now q.core
  let copy (i : Nat) (s : State) : State := s.setAcc q.core i (s.accOf q.core i).val (s.accOf q.core i).val
  let s1 := match op with
    | .mz => (List.range 4).foldl (fun s i => if bit (ctlAcc q.ctl) i then copy i s else s) s
    | .mst => s
    | _ => copy i s
  (s1.putPan q.core { q with st := .committed }).setCluster (s1.coreCluster q.core) fun c => { c with lease := c.lease.touch now }

/-- `PAN_COMMIT` (R267): the running command commits. -/
def execPanCommit (cluster : Nat) (s : State) : Host.Outcome State Fault Refusal :=
  .next
    (match (s.panCores cluster).findSome? fun n => (s.core n).panQ.find? fun q => q.st == .running with
    | none => s
    | some q =>
      match poprOf q.ins with
      | none => s
      | some (op, _, _) => s.commitPan op q)

/-- The admitted commands of a core run to completion (R269). -/
def State.drainPan (n : Nat) (s : State) : State :=
  ((s.core n).panQ.filter fun q => q.st != .committed).foldl (fun s q =>
    match poprOf q.ins with
    | none => s
    | some (op, t, _) =>
      let s1 := if q.st = .queued then s.startPan op t q else s
      match (s1.core n).panQ.find? fun q => q.st == .running with
      | some r => s1.commitPan op r
      | none => s1) s

/-- The completion of a pan command (R278): an aborted command reports no flags. -/
def PanCmd.message (q : PanCmd) : Msg :=
  ⟨ctlTag q.ctl, kstat 3 q.code, BitVec.ofNat 16 q.core, if q.code = 0 then q.flags.setWidth 64 else 0#64, q.d1, q.d2⟩

/-- The completion of a core's oldest committed command takes effect, unless a full channel holds it (R278). -/
def State.panEnd (n : Nat) (s : State) : Option State :=
  ((s.core n).panQ.head?.filter fun q => q.st == .committed).bind fun q =>
    (s.finishCmd q.core q.cxa (ctlCh q.ctl) q.message q.join).map fun s1 => s1.setCore q.core fun c => { c with panQ := c.panQ.drop 1 }

/-- `PAN_COMPLETION` (R278): the oldest committed command of the cluster that no full channel holds reports. -/
def execPanCompletion (cluster : Nat) (s : State) : Host.Outcome State Fault Refusal :=
  .next (((s.panCores cluster).findSome? fun n => s.panEnd n).getD s)

end Sys2Proof.Machine
end

