-- ==== Sys2Proof/Machine/Copy.lean ====
section
/-! DEFINITION. The copy engine: slots (R289), shape records and their cache (R290-R294, R311-R314), the copy instructions
(R295, R296, R304-R310), and the engine's own steps (R297-R302). -/

namespace Sys2Proof.Machine

open Config

/-! ### Spans (R296) -/

/-- How the check of a span ends: the GVA of its base, or a trap. -/
inductive SpanRes where
  | ok (g : Nat)
  | bad (code sub : BitVec 8) (detail : Word)
  deriving DecidableEq, Repr

/-- The region, and in it the window, of a place; 0 for none. -/
def Area.key : Area → Nat
  | .none => 0
  | .paged => 1
  | .host _ => 2
  | .window k _ => 16 + k
  | .peer p w _ => 0x10000 + 64 * p + w

/-- What R210 and a dead core say of a span's place; `hi` is the address of its last element. -/
def State.spanPlace (s : State) (a : Area) (z : Nat) (hi : Area) (base lowAt highAt : Word) : Option SpanRes :=
  match a, hi with
  | .window k _, _ => if s.homeDead k then some (.bad tPOI pDEAD base) else none
  | .peer p w ol, .peer _ _ o =>
    let st := p1State (s.peer1 p)
    let limit := bits (s.peer2 p w).2.1.toNat 0 34
    if (st ≠ 1 ∧ st ≠ 2) ∨ limit < ol + z then some (.bad tSEG 0#8 lowAt)
    else if limit < o + z then some (.bad tSEG 0#8 highAt)
    else if st = 2 then some (.bad tPOI pDEAD base) else none
  | _, _ => none

/-- Checks a span of elements of `z` bytes, from `lo` to `hi` bytes away from its base; of two failing ends the lowest is named
(R141, R296). -/
def State.span (s : State) (ts : TaskSet) (nd : Need) (base : Word) (lo hi : Int) (z : Nat) : SpanRes :=
  let (sgb, sgl) := ts.seg (bits base.toNat 61 3)
  let off : Int := bits base.toNat 0 61
  let g : Int := (bits sgb.toNat 0 56 : Int) + off
  let lowAt := base + BitVec.ofInt 64 lo
  let highAt := base + BitVec.ofInt 64 hi
  let past (d : Int) : Bool := decide ((bits sgl.toNat 0 61 : Int) < off + d + z ∨ ((2 ^ 56 : Nat) : Int) < g + d + z)
  if !segGrants sgb nd then .bad tSEG 0#8 base
  else if decide (off + lo < 0) || past lo then .bad tSEG 0#8 lowAt
  else if past hi then .bad tSEG 0#8 highAt
  else
    let al := s.area s.levelH nd (g + lo).toNat z
    let ab := s.area s.levelH nd g.toNat z
    let ah := s.area s.levelH nd (g + hi).toNat z
    if al.key = 0 ∨ (al.key ≠ ah.key ∧ al.key ≠ ab.key) then .bad tSEG 0#8 lowAt
    else if al.key ≠ ah.key then .bad tSEG 0#8 highAt
    else (s.spanPlace al z ah base lowAt highAt).getD (.ok g.toNat)

/-- Checks a span of a copy whose count is not 0, and goes on with the GVA of its base. -/
def withSpan (nd : Need) (base : Word) (lo hi : Int) (z n : Nat) (s : State) (k : Nat → Eff) : Eff :=
  if n = 0 then k 0
  else match s.cachedSet s.thr.core s.task with
    | none => .again (s.lend .segset)
    | some ts =>
      match s.span ts nd base lo hi z with
      | .ok g => k g
      | .bad c sub d => .trap c sub d

/-- The needs of a source and of a destination (R296). -/
def nCopySrc : Need := { r := true, e := true }
/-- A destination; without `host` it is a fill that the host window does not support (R307). -/
def nCopyDst (host : Bool) : Need := { w := true, e := true, write := true, kind := 1, host := host }

/-! ### Slots (R289) -/

/-- The handle of a slot. -/
def copyHandle (slot gen : Nat) : Word := BitVec.ofNat 64 (slot + 1024 * gen)

/-- The handle of a copy. -/
def CopySlot.handle (c : CopySlot) : Word := copyHandle c.slot c.gen

/-- A generation after another, 0 skipped. -/
def nextCopyGen (g : Nat) : Nat := if g + 1 < 2 ^ 22 then g + 1 else 1

/-- Takes the lowest FREE slot for a copy of the thread that issues; parks, first in, first out, when there is none; `keep`
is what the parked thread keeps of its record. -/
def withCopySlot (keep : Option (List Byte)) (mk : Nat → Nat → CopySlot) (s : State) (k : CopySlot → State → Eff) : Eff :=
  let c := s.core s.thr.core
  match freshFrom (c.copies.map (·.slot)) 0 1024 with
  | some i =>
    if s.aheadOf .copySlot < 1024 - c.copies.length then
      let g := nextCopyGen ((look i c.copyGens).getD 0)
      let (j, s) := s.joinTag
      let q := { (mk i g) with task := s.task, lvlH := s.levelH, join := j, cxa := s.thr.ctx.cxa }
      k q (s.setCore s.thr.core fun c => { c with copies := c.copies ++ [q], copyGens := put i g c.copyGens })
    else .again ((s.mapRes fun r => { r with record := keep }).parkOn .copySlot)
  | none => .again ((s.mapRes fun r => { r with record := keep }).parkOn .copySlot)

/-- The copy in a slot; the engine of a halted core issues nothing (R404). -/
def State.copySlot (s : State) (core slot : Nat) : Option CopySlot :=
  if (s.core core).dead then none else (s.core core).copies.find? fun c => c.slot == slot

/-- Replaces a copy slot. -/
def State.putCopy (core : Nat) (c : CopySlot) (s : State) : State :=
  s.setCore core fun e => { e with copies := mapFirst (fun d => d.slot == c.slot) (fun _ => c) e.copies }

/-! ### Shape records (R290-R293) -/

/-- A signed 32-bit field of a record. -/
def recInt (bs : List Byte) (a : Nat) : Int := sintOf 32 (at' bs a 4)

/-- The dimensions of a record: EXT, SS, DS (R290). -/
def recDims (bs : List Byte) : List (Nat × Int × Int) :=
  (List.range (bits (at' bs 0x10 8) 4 5)).map fun d => (at' bs (0x40 + 12 * d) 4, recInt bs (0x44 + 12 * d), recInt bs (0x48 + 12 * d))

/-- A record that R293 rejects. -/
def recBad (bs : List Byte) : Bool :=
  let ctl := at' bs 0x10 8
  let z := 2 ^ bits ctl 0 3
  decide (bits ctl 14 18 ≠ 0) || bit ctl 9 || bit ctl 3 || ((bs.drop 0x28).take 24).any (· != 0#8)
    || decide (bits ctl 4 5 = 0) || decide (16 < bits ctl 4 5) || decide (bits ctl 0 3 = 7)
    || decide (at' bs 0 8 % z ≠ 0) || decide (at' bs 8 8 % z ≠ 0) || decide (at' bs 0x18 8 % 8 ≠ 0)

/-- Elements of a shape (R292). -/
def dimsCount (l : List (Nat × Int × Int)) : Nat := l.foldl (fun n d => n * d.1) 1

/-- The lowest and the highest offset that strides reach, in elements (R296). -/
def dimsReach (f : Nat × Int × Int → Int) (l : List (Nat × Int × Int)) : Int × Int :=
  l.foldl (fun r d => let v := ((d.1 : Int) - 1) * f d; (r.1 + min 0 v, r.2 + max 0 v)) (0, 0)

/-- The offsets of a linear index in source and destination, in elements (R292). -/
def dimsAt : List (Nat × Int × Int) → Nat → Int × Int
  | [], _ => (0, 0)
  | (e, ss, ds) :: l, q =>
    let i : Int := (q % e : Nat)
    let r := dimsAt l (q / e)
    (i * ss + r.1, i * ds + r.2)

/-! ### The record cache (R294, R311-R314) -/

/-- The parts of a record that lie in its first 128 bytes, and the others (R311). -/
def firstHalf : Nat → List (Loc × Nat) → List (Loc × Nat) × List (Loc × Nat)
  | _, [] => ([], [])
  | n, p :: l => if p.2 ≤ n then let r := firstHalf (n - p.2) l; (p :: r.1, r.2) else ([], p :: l)

/-- A part as a fill keeps it. -/
def partPlace (p : Loc × Nat) : Option (Nat × Nat) × Nat :=
  match p.1 with
  | .mem a h _ _ => (some (a, h), p.2)
  | _ => (none, p.2)

/-- Captures the record of a `cpy` (R294): its cached image, or the image read for it; a miss parks the thread. -/
def withRecord (reg : BitVec 4) (ea : Word) (s : State) (k : List Byte → State → Eff) : Eff :=
  let far (o : Nat) (ls : List (Loc × Nat)) (g : Nat) (s : State) (near : State → Eff) : Eff :=
    let note (s : State) : State :=
      if s.thr.res.fill.isSome then s else s.mapRes fun r => { r with fill := some { gva := g, ea := ea, first := [], rest := [], install := true } }
    match ls with
    | (.peer p w a, _) :: _ =>
      withFar p s fun s =>
        .again (((note s).sendPeer false reg ea p w (a + o) 0x01 0 128 []).awaitReply .record ea false 0#16)
    | (.host a, _) :: _ =>
      withOrder hostHome s fun s => .again (((note s).hostRead (a + o) 128).awaitReply .record ea false 0#16)
    | _ => near s
  match s.thr.res.record with
  | some bs =>
    if 256 ≤ bs.length then k bs (s.mapRes fun r => { r with record := none, fill := none })
    else withAccess nLoad ea 256 256 false s fun ls s => far 128 ls 0 s fun s => .again s
  | none =>
    withGva nLoad ea 256 256 s fun g =>
      if s.area s.levelH nLoad g 256 = .none then .trap tSEG 0#8 ea
      else match (s.core s.thr.core).recs.find? fun e => e.task == s.task && e.gva == g with
        | some e => k e.image (s.setCore s.thr.core (CoreSt.install e))
        | none =>
          withAccess nLoad ea 256 256 false s fun ls s =>
            far 0 ls g s fun s =>
              let (l1, l2) := firstHalf 128 ls
              withRead 0#2 false (fun reason _ _ => .trap tPOI reason ea) l1 s fun bs s =>
                .again (((s.noteZeros ls).mapRes fun r =>
                  { r with
                    fill := some { gva := g, ea := ea, first := bs, rest := l2.map partPlace, install := true
                                   tran := if l2.any fun p => p.1.isPaged then some s.portGen else none } }).parkFor .home)

/-- Reads the rest of a record: its bytes, or the reason it cannot be read; none while a channel is not ready. -/
def State.fillRest (s : State) : List (Option (Nat × Nat) × Nat) → Option (Except (BitVec 8) (List Byte))
  | [] => some (.ok [])
  | (none, n) :: l => (s.fillRest l).map fun r => r.map fun bs => List.replicate n 0#8 ++ bs
  | (some (a, h), n) :: l =>
    if s.chanWaits a then none
    else if s.homeDead h then some (.error pDEAD)
    else if s.poisoned a n then some (.error pUNCORR)
    else (s.fillRest l).map fun r => r.map fun bs => s.readMem a n ++ bs

/-- `RECORD_FILL` (R294): a missed record arrives, is installed unless its entry has been invalidated meanwhile, and its
`cpy` goes on. -/
def execRecordFill (core : Nat) (cxa : Word) (s : State) : Host.Outcome State Fault Refusal :=
  .next
    (match s.findThr core cxa with
    | none => s
    | some t =>
      match (if t.wait = .home ∧ t.res.reply = none then t.res.fill else none) with
      | none => s
      | some f =>
        match s.fillRest f.rest with
        | none => s
        | some (.error r) =>
          s.asThr core cxa fun s => (s.mapRes fun q => { q with fill := none }).trapWaiting tPOI r f.ea
        | some (.ok bs) =>
          let task := t.ctx.st.extractLsb' 16 16
          let s1 := if f.install then s.setCore core (CoreSt.install ⟨task, f.gva, f.first ++ bs⟩) else s
          (s1.updThr core cxa fun t => { t with res := { t.res with record := some (f.first ++ bs), fill := none } }).makeReady core cxa)

/-! ### The copy instructions -/

/-- A named flag, or none (R290): its GVA, with bit 63 set. -/
def withFlag (flag : Word) (s : State) (k : Word → Eff) : Eff :=
  if flag = 0#64 then k 0#64 else withSpan (nCopyDst true) flag 0 0 8 1 s fun g => k (field 1 63 ||| BitVec.ofNat 64 g)

/-- A copy slot as an instruction takes it. -/
def newCopy (slot gen : Nat) (cp : BitVec 2) : CopySlot :=
  { slot := slot, gen := gen, st := .queued, task := 0#16, lvlH := false, kind := .linear, src := 0#64, dst := 0#64, esz := 0
    dims := [], count := 0, next := 0, code := 0, d1 := 0#64, d2 := 0#64, chan := 0#3, tag := 0#32, flag := 0#64, flgv := 0#64
    flgop := false, pattern := 0#64, cp := cp, join := none, cxa := 0#64, heldAt := 0#64, raisedAt := 0#64 }

/-- `cpy` (R305). -/
def execCpy (x : Args) (s : State) : Host.Outcome State Fault Refusal :=
  issue x.h (fun s =>
    withEa x.b x.c s fun ea s =>
      withDest x.a s (withStores s (withRecord x.a.rix ea s fun bs s =>
        if recBad bs then .ill 0xC0#8 0xD
        else
          let ctl := at' bs 0x10 8
          let dims := recDims bs
          let n := dimsCount dims
          let z : Nat := 2 ^ bits ctl 0 3
          let (sl, sh) := dimsReach (fun d => d.2.1) dims
          let (dl, dh) := dimsReach (fun d => d.2.2) dims
          withSpan nCopySrc (wordAt bs 0) (sl * z) (sh * z) z n s fun src =>
            withSpan (nCopyDst true) (wordAt bs 8) (dl * z) (dh * z) z n s fun dst =>
              withFlag (wordAt bs 0x18) s fun flag =>
                let mk (i g : Nat) : CopySlot :=
                  { (newCopy i g x.h.cp) with
                    kind := .shape, src := BitVec.ofNat 64 src, dst := BitVec.ofNat 64 dst, esz := bits ctl 0 3, dims := dims, count := n
                    chan := BitVec.ofNat 3 (bits ctl 10 3), tag := BitVec.ofNat 32 (bits ctl 32 32), flag := flag
                    flgv := wordAt bs 0x20, flgop := bit ctl 13 }
                withCopySlot (some bs) mk s fun q s => .done (s.writeX x.a.rix q.handle)))) s

/-- `cpl` (R306). -/
def execCpl (x : Args) (s : State) : Host.Outcome State Fault Refusal :=
  issue x.h (fun s =>
    withSrc x.a s fun d s => withSrc x.b s fun b s => withSrc x.c s fun l s =>
      withStores s
        (let n := l.toNat
         if 2 ^ 40 ≤ n then .ill 0xC1#8 0xD
         else
          withSpan nCopySrc b 0 ((n : Int) - 1) 1 n s fun src => withSpan (nCopyDst true) d 0 ((n : Int) - 1) 1 n s fun dst =>
            let sl := s.thr.ctx.slen
            let mk (i g : Nat) : CopySlot :=
              { (newCopy i g x.h.cp) with
                src := BitVec.ofNat 64 src, dst := BitVec.ofNat 64 dst, count := n, chan := BitVec.ofNat 3 (slenCh sl), tag := slenTag sl }
            withCopySlot none mk s fun _ s => .done s)) s

/-- `cpf` (R307). -/
def fillOp (kind : CopyKind) (x : Args) (s : State) : Host.Outcome State Fault Refusal :=
  issue x.h (fun s =>
    withSrc x.a s fun d s => withSrc x.b s fun l s => withSrc x.c s fun v s =>
      withStores s
        (let n := l.toNat
         if 2 ^ 40 ≤ n ∨ n % 8 ≠ 0 then .ill 0xC5#8 0xD
         else if n ≠ 0 ∧ d.toNat % 8 ≠ 0 then .trap tALN 0#8 d
         else
          withSpan (nCopyDst (kind == .fillFull)) d 0 ((n : Int) - 8) 8 n s fun dst =>
            let sl := s.thr.ctx.slen
            let mk (i g : Nat) : CopySlot :=
              { (newCopy i g x.h.cp) with
                kind := kind, dst := BitVec.ofNat 64 dst, count := n, pattern := v, chan := BitVec.ofNat 3 (slenCh sl), tag := slenTag sl }
            withCopySlot none mk s fun _ s => .done s)) s

/-- `cpf.full` (R307). -/
def execCpfFull (x : Args) (s : State) : Host.Outcome State Fault Refusal := fillOp .fillFull x s
/-- `cpf.empty` (R307). -/
def execCpfEmpty (x : Args) (s : State) : Host.Outcome State Fault Refusal := fillOp .fillEmpty x s
/-- `cpf.mke` (R307). -/
def execCpfMke (x : Args) (s : State) : Host.Outcome State Fault Refusal := fillOp .mke x s
/-- `cpf.mkf` (R307). -/
def execCpfMkf (x : Args) (s : State) : Host.Outcome State Fault Refusal := fillOp .mkf x s

/-- `rcf.all` (R308). -/
def execRcfAll (x : Args) (s : State) : Host.Outcome State Fault Refusal :=
  issue x.h (fun s => withStores s (.done (s.dropRecs s.thr.core))) s

/-- Removes a record's entry from a core's cache; what is being read for it is not installed (R294, R308). -/
def State.dropRec (core : Nat) (task : BitVec 16) (g : Nat) (s : State) : State :=
  let no (t : Thread) : Thread :=
    if t.core == core && t.ctx.st.extractLsb' 16 16 == task then
      { t with res := { t.res with fill := t.res.fill.map fun f => if f.gva = g then { f with install := false } else f } }
    else t
  { (s.setCore core fun c => { c with recs := c.recs.filter fun e => !(e.task == task && e.gva == g) }) with
    thr := no s.thr, pool := s.pool.map no }

/-- `rcf.one` (R308). -/
def execRcfOne (x : Args) (s : State) : Host.Outcome State Fault Refusal :=
  issue x.h (fun s =>
    withEa x.b x.c s fun ea s =>
      withStores s (withGva {} ea 8 1 s fun g =>
        if s.area s.levelH {} g 8 = .none then .trap tSEG 0#8 ea else .done (s.dropRec s.thr.core s.task g))) s

/-- The state code of `cpst` (R309). -/
def CopyState.code : CopyState → Nat
  | .queued => 1 | .run | .wait => 2 | .hold => 3 | .flag => 4 | .close => 5

/-- A register value that cannot be a handle (R309). -/
def handleBad (v : Word) : Bool := decide (2 ^ 32 ≤ v.toNat) || decide (bits v.toNat 10 22 = 0)

/-- The copy of the thread's task that a handle names (R309). -/
def State.copyOf (s : State) (v : Word) : Option CopySlot :=
  (s.core s.thr.core).copies.find? fun c => c.handle == v && c.task == s.task

/-- `cpst.h` (R309). -/
def execCpstH (x : Args) (s : State) : Host.Outcome State Fault Refusal :=
  issue x.h (fun s =>
    withSrc x.b s fun v s =>
      withDest x.a s (withStores s
        (if handleBad v then .ill 0xC3#8 0xD
        else
          match s.copyOf v with
          | some c => .done (s.writeX x.a.rix (field (c.next % 2 ^ 40) 8 ||| field c.st.code 0))
          | none => .done (s.writeX x.a.rix 0#64)))) s

/-- `cpst.n` (R309). -/
def execCpstN (x : Args) (s : State) : Host.Outcome State Fault Refusal :=
  issue x.h (fun s =>
    withDest x.a s (withStores s
      (let l := (s.core s.thr.core).copies
       .done (s.writeX x.a.rix (field (l.countP fun c => c.st == .hold) 16 ||| field l.length 0))))) s

/-- The copy can be cancelled (R310). -/
def CopySlot.live (c : CopySlot) : Bool := c.st == .queued || c.st == .run || c.st == .wait || c.st == .hold

/-- A copy closes, and its outstanding read is still to be answered. -/
def CopySlot.shut (c : CopySlot) : CopySlot := { c with st := .close, pend := c.pend + b2n (c.st == .wait) }

/-- Cancels a copy: an element whose source has not arrived is not issued; its answer is still awaited (R310, DEDUCED, log 30). -/
def CopySlot.cancel (c : CopySlot) : CopySlot :=
  { c.shut with code := 5, d1 := BitVec.ofNat 64 c.next, d2 := 0#64 }

/-- Cancels the copies of a core that satisfy `p`. -/
def State.cancelCopies (core : Nat) (p : CopySlot → Bool) (s : State) : State :=
  s.setCore core fun e => { e with copies := e.copies.map fun c => if c.live && p c then c.cancel else c }

/-- `cpx.h` (R310). -/
def execCpxH (x : Args) (s : State) : Host.Outcome State Fault Refusal :=
  issue x.h (fun s =>
    withSrc x.b s fun v s =>
      withDest x.a s (withStores s
        (if handleBad v then .ill 0xC4#8 0xD
        else
          let hit (c : CopySlot) : Bool := c.handle == v && c.task == s.task
          let n := (s.core s.thr.core).copies.countP fun c => c.live && hit c
          .done ((s.cancelCopies s.thr.core hit).writeX x.a.rix (BitVec.ofNat 64 n))))) s

/-- `cpx.all` (R310). -/
def execCpxAll (x : Args) (s : State) : Host.Outcome State Fault Refusal :=
  issue x.h (fun s =>
    withDest x.a s (withStores s
      (let hit (c : CopySlot) : Bool := c.task == s.task
       let n := (s.core s.thr.core).copies.countP fun c => c.live && hit c
       .done ((s.cancelCopies s.thr.core hit).writeX x.a.rix (BitVec.ofNat 64 n))))) s

/-! ### The engine's own steps -/

/-- On whose behalf a copy accesses memory. -/
def CopySlot.who (core : Nat) (c : CopySlot) : Who := ⟨core, c.task, c.lvlH⟩

/-- Bytes of the next element, or of the next access of a linear copy: at most 64, within one line at both ends (R297,
R306). -/
def CopySlot.size (c : CopySlot) : Nat :=
  match c.kind with
  | .shape => 2 ^ c.esz
  | .linear =>
    min (min 64 (c.count - c.next)) (min (128 - (c.src.toNat + c.next) % 128) (128 - (c.dst.toNat + c.next) % 128))
  | _ => 8

/-- Indices that one access covers: elements, or bytes of `cpl` and `cpf` (R302). -/
def CopySlot.stride (c : CopySlot) : Nat := if c.kind = .shape then 1 else c.size

/-- The GVAs of the next element in source and destination (R292). -/
def CopySlot.places (c : CopySlot) : Nat × Nat :=
  match c.kind with
  | .shape =>
    let r := dimsAt c.dims c.next
    let z : Int := (2 ^ c.esz : Nat)
    (((c.src.toNat : Int) + r.1 * z).toNat, ((c.dst.toNat : Int) + r.2 * z).toNat)
  | _ => (c.src.toNat + c.next, c.dst.toNat + c.next)

/-- A copy in RUN after an element: FLAG or CLOSE once the last one is performed (R289). -/
def CopySlot.advance (c : CopySlot) : CopySlot :=
  if c.next < c.count ∨ c.pend ≠ 0 then { c with st := .run }
  else { c with st := if c.code = 0 ∧ c.flag ≠ 0#64 then .flag else .close }

/-- A fault that ends a copy: DEAD or REMOTE at an index; POISON and CANCEL keep their code, DEAD goes before REMOTE (R300), and
D1 is the first element not performed (R302). -/
def CopySlot.fail (code idx : Nat) (d2 : Word) (c : CopySlot) : CopySlot :=
  let c := c.shut
  if c.code = 1 ∨ c.code = 5 then c
  else if c.code = 0 then { c with code := code, d1 := BitVec.ofNat 64 idx, d2 := d2 }
  else
    let c1 := { c with d1 := BitVec.ofNat 64 (min c.d1.toNat idx) }
    if c.code = 6 ∧ code = 2 then { c1 with code := 2, d2 := d2 } else c1

/-- Notes the first poisoned element, `k` indices after the next one, and its first poisoned word (R300, R302). -/
def CopySlot.notePoison (k a : Nat) (c : CopySlot) : CopySlot :=
  if c.code = 0 then { c with code := 1, d1 := BitVec.ofNat 64 (c.next + k), d2 := BitVec.ofNat 64 a } else c

/-- Which bytes of an access belong to poisoned elements: all of them for a shape element; those of poisoned words for `cpl`,
whose elements are bytes (R300, R306). -/
def State.badBytes (s : State) (c : CopySlot) (a n : Nat) : List Nat :=
  if !s.poisoned a n then [] else if c.kind = .shape then List.range n else (List.range n).filter fun i => s.poisoned (a + i) 1

/-- The slot enters or stays in HOLD; the event is raised on entering, at a retry that gets as far as another page, and again after
2^20 cycles (R299). -/
def State.holdCopy (core : Nat) (c : CopySlot) (f : PageFail) (wr : Bool) (g : Nat) (s : State) : State :=
  let now := s.now core
  let page := (wr, pageOf g)
  let again := c.st != .hold || c.heldAs != some page || decide (2 ^ 20 ≤ (now - c.raisedAt).toNat)
  let (cause, why) : BitVec 8 × Nat := match f with
    | .rev => (cREV, 6)
    | .pgf 5 => (cWLK, 5)
    | .pgf w => (cPGF, w)
    | .seg => (cPGF, 3)
  let s1 := if again then s.sendFlue core cause (pageOf g) (engWord 0 c.slot (c.who core) (b2n wr) why) else s
  s1.putCopy core { c with st := .hold, heldAt := now, raisedAt := if again then now else c.raisedAt, heldAs := some page }

/-- Bytes written at a home by a copy; a word that takes a byte of a poisoned element is poisoned (R300). -/
def State.copyStore (c : CopySlot) (a : Nat) (bs : List Byte) (bad : List Nat) (s : State) : State :=
  match c.kind with
  | .fillEmpty => (((s.writeMem a bs).tear a 8).setFullBit a false).afterWrite a 8
  | .mke => s.homeSetFull a false
  | .mkf => s.homeSetFull a true
  | _ => (bad.foldl (fun s i => s.addPoison (a + i)) ((s.writeMem a bs).tear a bs.length)).afterWrite a bs.length

/-- The operations of a write to a peer; the two of `cpf.empty` are one packet, which its home performs as one (log 30). -/
def CopySlot.farOps (c : CopySlot) (bs : List Byte) : List (Nat × Nat × Nat × List Byte) :=
  match c.kind with
  | .fillEmpty => [(0x02, 0, 8, bs), (0x02, 2, 8, [])]
  | .mke => [(0x02, 2, 8, [])]
  | .mkf => [(0x02, 3, 8, [])]
  | _ => [(0x02, 0, bs.length, bs)]

/-- Packets that a core's copy engine has sent to a peer and that are not answered. -/
def State.copiesOut (s : State) (core p : Nat) : Nat :=
  (s.port (s.peerPort p)).reqs.countP fun q => q.core == core && q.peer == p && match q.owner with
    | .copy _ _ => true
    | _ => false

/-- A copy engine's allowance for a peer: at most 64 packets outstanding (R189, R196, R298). -/
def State.copyRoom (s : State) (core p : Nat) : Bool := decide (s.copiesOut core p < 64)

/-- The write of one element (R297): performed at its home, sent to a peer or to the host, or held; `word` is the first
poisoned word of its source. -/
def State.copyWrite (core : Nat) (c : CopySlot) (bs : List Byte) (bad : List Nat) (word : Nat) (s : State) : State :=
  let g := c.places.2
  let c1 := match bad with
    | k :: _ => c.notePoison (if c.kind = CopyKind.linear then k else 0) word
    | [] => c
  let gone (c1 : CopySlot) (s : State) (far : Nat) : State :=
    s.putCopy core { c1 with next := c.next + c.stride, pend := c.pend + far }.advance
  let go := gone c1
  match s.locateEng (c.who core) (nCopyDst (c.kind == .fillFull || c.kind == .shape || c.kind == .linear)) g c.size with
  | .loc (.mem a h paged leaf) s =>
    if s.chanWaits a then s
    else if s.homeDead h then s.putCopy core (c1.fail 2 c.next (BitVec.ofNat 64 h))
    else if s.chanFailed a then gone (c1.notePoison 0 a) s 0
    else
      let s := if paged then s.touchL2 h a (effPolicy leaf c.cp) true else s
      go (s.copyStore c a bs bad) 0
  | .loc (.peer p w o) s =>
    if s.copyRoom core p then
      go (s.sendEngine (.copy c.slot c.gen) core (BitVec.ofNat 64 c.next) p w o (c.farOps bs)) (c.farOps bs).length
    else s
  | .loc (.host o) s => go (s.emit (.memWrite o bs)) 0
  | .loc .zeros s => s
  | .fail f => s.holdCopy core c f true g
  | .deadPeer _ => s.putCopy core (c1.fail 2 c.next (BitVec.ofNat 64 (0x8000 + bits g 40 10)))
  | .miss s => s

/-- One element of a copy (R297): its read, then its write. -/
def State.copyStep (core : Nat) (c : CopySlot) (s : State) : State :=
  match c.kind with
  | .shape | .linear =>
    let g := c.places.1
    let n := c.size
    match s.locateEng (c.who core) nCopySrc g n with
    | .loc (.mem a h paged leaf) s =>
      if s.chanWaits a then s
      else if s.homeDead h then s.putCopy core (c.fail 2 c.next (BitVec.ofNat 64 h))
      else
        let s := if paged then s.touchL2 h a (effPolicy leaf c.cp) false else s
        let bad := s.badBytes c a n
        let bs := (s.readMem a n).zipIdx.map fun b => if bad.contains b.2 then (freeWord (s.serial + b.2)).setWidth 8 else b.1
        ({ s with serial := s.serial + n } : State).copyWrite core c bs bad (s.firstPoison a n)
    | .loc .zeros s =>
      let c1 := { c with zeros := true }
      let s := if c.zeros then s else s.setCore core fun e => { e with dscrd := e.dscrd + 1#64 }
      (s.putCopy core c1).copyWrite core c1 (List.replicate n 0#8) [] 0
    | .loc (.peer p w o) s =>
      if !s.copyRoom core p then s
      else (s.sendEngine (.copy c.slot c.gen) core (BitVec.ofNat 64 c.next) p w o [(0x01, 0, n, [])]).putCopy core { c with st := .wait }
    | .loc (.host o) s =>
      (s.askHost (.copy core c.slot c.gen) n (.memRead · o n)).putCopy core { c with st := .wait }
    | .fail f => s.holdCopy core c f false g
    | .deadPeer _ => s.putCopy core (c.fail 2 c.next (BitVec.ofNat 64 (0x8000 + bits g 40 10)))
    | .miss s => s
  | _ => s.copyWrite core c (leBytes 8 c.pattern.toNat) [] 0

/-- `COPY_START` (R289): the oldest queued copy starts. -/
def execCopyStart (core : Nat) (s : State) : Host.Outcome State Fault Refusal :=
  .next
    (match (if (s.core core).dead then none else (s.core core).copies.find? fun c => c.st == .queued) with
    | some c => s.putCopy core c.advance
    | none => s)

/-- `COPY_ELEMENT` (R297). -/
def execCopyElement (core slot : Nat) (s : State) : Host.Outcome State Fault Refusal :=
  .next
    (match s.copySlot core slot with
    | some c => if c.st = .run ∧ c.next < c.count then s.atPort (.copy core slot) (State.copyStep core c) else s
    | none => s)

/-- The flag write (R301): a store, or an addition at the flag's home. -/
def State.copyFlag (core : Nat) (c : CopySlot) (s : State) : State :=
  let g := bits c.flag.toNat 0 63
  let sent (s : State) : State := s.putCopy core { c with st := .flag, flagSent := true }
  match s.locateEng (c.who core) (nCopyDst true) g 8 with
  | .loc (.mem a h paged leaf) s =>
    if s.chanWaits a then s
    else if s.homeDead h then s.putCopy core (c.fail 2 c.count (BitVec.ofNat 64 h))
    else if (if c.flgop then s.poisoned a 8 else s.chanFailed a) then s.putCopy core { c with st := .close, code := 1, d1 := BitVec.ofNat 64 c.count, d2 := BitVec.ofNat 64 a }
    else
      let s := if paged then s.touchL2 h a (effPolicy leaf 0#2) true else s
      let v := if c.flgop then s.readWord a + c.flgv else c.flgv
      (s.homeWrite a (leBytes 8 v.toNat)).putCopy core { c with st := .close }
  | .loc (.peer p w o) s =>
    if s.copyRoom core p then
      sent (s.sendEngine (.copy c.slot c.gen) core (BitVec.ofNat 64 c.count) p w o
        [(if c.flgop then 0x03 else 0x02, 0, 8, leBytes 8 c.flgv.toNat)])
    else s
  | .loc (.host o) s =>
    if c.flgop then sent (s.askHost (.copy core c.slot c.gen) 8 (.atomic · o 0 8 c.flgv 0#64))
    else (s.emit (.memWrite o (leBytes 8 c.flgv.toNat))).putCopy core { c with st := .close }
  | .loc .zeros s => s
  | .fail f => s.holdCopy core c f true g
  | .deadPeer _ => s.putCopy core (c.fail 2 c.count (BitVec.ofNat 64 (0x8000 + bits g 40 10)))
  | .miss s => s

/-- `COPY_FLAG` (R301): once every data write is performed, the flag is written. -/
def execCopyFlag (core slot : Nat) (s : State) : Host.Outcome State Fault Refusal :=
  .next
    (match s.copySlot core slot with
    | some c => if c.st = .flag ∧ c.pend = 0 ∧ !c.flagSent then s.atPort (.copy core slot) (State.copyFlag core c) else s
    | none => s)

/-- `COPY_HOLD_RETRY` (R299): every 4,096 cycles a held copy tries again. -/
def execCopyHoldRetry (core slot : Nat) (s : State) : Host.Outcome State Fault Refusal :=
  .next
    (match s.copySlot core slot with
    | some c =>
      if c.st = .hold ∧ 4096 ≤ (s.now core - c.heldAt).toNat then
        s.atPort (.copy core slot) (if c.next < c.count then State.copyStep core c else State.copyFlag core c)
      else s
    | none => s)

/-- The completion of a copy (R302). -/
def CopySlot.message (core : Nat) (c : CopySlot) : Msg :=
  ⟨c.tag, kstat 1 c.code, BitVec.ofNat 16 core, if c.kind = .shape then c.handle else 0#64, c.d1, c.d2⟩

/-- `COPY_COMPLETION` (R302): a closed copy reports and its slot is free; a full channel holds it. -/
def execCopyCompletion (core slot : Nat) (s : State) : Host.Outcome State Fault Refusal :=
  .next
    (match s.copySlot core slot with
    | some c =>
      if c.st = .close ∧ c.pend = 0 then
        match s.finishCmd core c.cxa c.chan.toNat (c.message core) c.join with
        | some s1 => s1.setCore core fun e => { e with copies := e.copies.filter fun d => d.slot != slot }
        | none => s
      else s
    | none => s)

/-- An answer to a copy's request to a peer or the host: data, an acknowledgment, or the reason of a NAK (R300, R301). -/
def State.copyAnswer (core slot : Nat) (idx : Nat) (peer : Nat) (r : Except (BitVec 8) (List Byte)) (s : State) : State :=
  match s.copySlot core slot with
  | none => s
  | some c =>
    let failed (e : BitVec 8) (c : CopySlot) : CopySlot :=
      if e = pDEAD then c.fail 2 idx (BitVec.ofNat 64 (0x8000 + peer)) else c.fail 6 idx (e.setWidth 64)
    if c.st = .wait ∧ idx = c.next then
      match r with
      | .ok bs =>
        let s1 := ({ s with serial := s.serial + 1 } : State).putCopy core { c with st := .run }
        s1.atPort (.copy core slot) (State.copyWrite core { c with st := .run } bs [] 0)
      | .error e => s.putCopy core (failed e { c with st := .run })
    else if c.flagSent then
      match r with
      | .ok _ => s.putCopy core { c with st := .close, flagSent := false }
      | .error e => s.putCopy core (failed e { c with flagSent := false })
    else
      let c1 := { c with pend := c.pend - 1 }
      match r with
      | .ok _ => s.putCopy core (if c.st = .run then c1.advance else c1)
      | .error e => s.putCopy core (failed e c1)

end Sys2Proof.Machine
end

