-- ==== Sys2Proof/Machine/Brine.lean ====
section
/-! DEFINITION. Push-sum mixing: regions and blocks (R315-R318), the numbers of sends, applies and estimates (R320, R321,
R326, R337), halves and their parts (R325, R327), custody (R322) and the rota (R319). -/

namespace Sys2Proof.Machine

open Config

/-! ### The end of a command (R332) -/

/-- The result register of a brine instruction. -/
def brineReg (i : Instr) : BitVec 4 :=
  match i with
  | .bregNew x | .bregJoin x | .bdrg x | .bgrpAdd x | .bgrpRm x | .bgrpDrop x | .bholdOn x | .bholdOff x | .bstep x
  | .bqryRd x | .bqryClr x => x.a.rix
  | _ => 0#4

/-- A command without its engine's entry. -/
def State.dropBrine (id : Nat) (s : State) : State := { s with brineQ := s.brineQ.filter fun q => q.id != id }

/-- Replaces a command. -/
def State.putBrine (q : BrineCmd) (s : State) : State :=
  { s with brineQ := mapFirst (fun p => p.id == q.id) (fun _ => q) s.brineQ }

/-- A register result: status and VAL (R332); the command is complete (R185). -/
def State.brineWord (q : BrineCmd) (status val : Nat) (s : State) : State :=
  ((s.dropBrine q.id).cmdDone q.core q.cxa).oweWord q.core q.cxa (brineReg q.ins) (field status 0 ||| field val 32)

/-- The register result of the command of that id, if it is still there. -/
def State.brineEnd (id status val : Nat) (s : State) : State :=
  match s.brineQ.find? fun q => q.id == id with
  | some q => s.brineWord q status val
  | none => s

/-! ### Regions and blocks -/

/-- The die of a cluster. -/
def clusterDie (k : Nat) : Nat := posDie (2 * (k % 32)) (2 * (k / 32))

/-- The count of the die of a cluster. -/
def State.nowAt (s : State) (k : Nat) : Word := (s.die (clusterDie k)).cyc

/-- The region at a region id, once its registering round has committed (R333). -/
def State.region (s : State) (rid : Nat) : Option Region := s.regions.find? fun r => r.rid == rid && r.committed

/-- Changes a region. -/
def State.updRegion (rid : Nat) (f : Region → Region) (s : State) : State :=
  { s with regions := mapFirst (fun r => r.rid == rid) f s.regions }

/-- A block of a region. -/
def Region.block (r : Region) (b : Nat) : RBlock := r.blocks.getD b ⟨0, 0, true⟩

/-- Elements of a block (R317). -/
def Region.elems (r : Region) : Nat := if r.f32 then 1024 else 512

/-- Bytes of an element. -/
def Region.width (r : Region) : Nat := if r.f32 then 4 else 8

/-- On whose behalf the engine of a cluster accesses memory for a region. -/
def Region.who (r : Region) (s : State) (cl : Nat) : Who := ⟨(s.clusterCores cl).headD r.core, r.task, r.lvlH⟩

/-- The need of an engine's write. -/
def nEngWrite : Need := { write := true, kind := 1 }

/-- Where an engine finds a block: at an address; nowhere; or on a discarded page, which holds what is to be written (R150). -/
inductive BlockFind where
  | here (a : Nat) (s : State)
  | lost
  | held (g : Nat)

/-- Where a block stands: it is lost when its home is dead or has left its serving engine's cluster (R317, R328). -/
def State.findBlock (s : State) (r : Region) (b : Nat) : BlockFind :=
  let cl := (r.block b).cl
  let g := r.vbase + 4096 * b
  if (r.block b).bad then .lost
  else match s.locateEng (r.who s cl) nEngWrite g 4096 with
  | .loc (.mem a h _ _) s1 => if s1.homeDead h || s1.coreCluster h != cl then .lost else .here a s1
  | .miss s1 => .here 0 s1
  | .fail .rev => .held g
  | _ => .lost

/-- The address of a block that its engine can reach. -/
def State.blockAt (s : State) (r : Region) (b : Nat) : Option (Nat × State) :=
  match s.findBlock r b with
  | .here a s1 => some (a, s1)
  | _ => none

/-- An engine's write at a GVA would meet a discarded page (R150). -/
def State.discarded (who : Who) (g n : Nat) (s : State) : Bool :=
  match s.locateEng who nEngWrite g n with
  | .fail .rev => true
  | _ => false

/-- An engine of a region waits for a discarded page to be revived: REV is raised, and again only after 2^20 cycles (R150, R299,
DESIGN CHOICE, log 62). -/
def State.awaitRevival (rid cl g : Nat) (s : State) : State :=
  match s.regions.find? fun r => r.rid == rid with
  | none => s
  | some r =>
    let page := g / 2 ^ 16 * 2 ^ 16
    let now := s.nowAt cl
    if (look page r.revs).any fun t => decide ((now - t).toNat < 2 ^ 20) then s
    else (s.sendFlue (r.who s cl).core cREV (pageOf g) (engWord 1 rid (r.who s cl) 1 6)).updRegion rid fun r => { r with revs := put page now r.revs }

/-- Marks a block poisoned and sets PBLK (R328). -/
def State.spoil (rid b : Nat) (s : State) : State :=
  s.updRegion rid fun r => { r with blocks := r.blocks.set b { r.block b with bad := true }, pblk := true }

/-- Numbers of `z` bytes each. -/
def numsOf (z : Nat) : Nat → List Byte → List Nat
  | 0, _ => []
  | n + 1, bs => leNat (bs.take z) :: numsOf z n (bs.drop z)

/-- The value words of a block. -/
def State.blockVals (s : State) (r : Region) (a : Nat) : List Nat := numsOf r.width r.elems (s.readMem a 4096)

/-- Writes the value words of a block. -/
def State.putVals (r : Region) (a : Nat) (l : List Nat) (s : State) : State :=
  s.engWrite a ((l.map (leBytes r.width)).flatten) false

/-- Writes to a window of a peer, at most 128 bytes a packet (R206). -/
def State.farWrites (core p w : Nat) : Nat → Nat → List Byte → State → State
  | 0, _, _, s => s
  | n + 1, o, bs, s =>
    let k := min 128 bs.length
    if k = 0 then s else State.farWrites core p w n (o + k) (bs.drop k) (s.sendEngine .quiet core 0#64 p w o [(0x02, 0, k, bs.take k)])

/-- An engine's write at a GVA: performed at its home, or sent on; one whose page cannot be had is lost (DEDUCED, log 31). -/
def State.writeAtGva (who : Who) (g : Nat) (bs : List Byte) (s : State) : State :=
  match s.locateEng who nEngWrite g bs.length with
  | .loc (.mem a h _ _) s => if s.homeDead h then s else s.engWrite a bs false
  | .loc (.peer p w o) s => s.farWrites who.core p w (bs.length / 128 + 1) o bs
  | .loc (.host o) s => s.emit (.memWrite o bs)
  | .miss s => s
  | _ => s

/-- The GVA of a block's word in the mass table (R317). -/
def Region.massAt (r : Region) (b : Nat) : Nat := r.mbase + 8 * b

/-- The engine of a block writes its mass to the table, or waits for a discarded page (R150, R317). -/
def State.writeMass (r : Region) (b w : Nat) (s : State) : State :=
  let cl := (r.block b).cl
  let who := r.who s cl
  if s.discarded who (r.massAt b) 8 then
    (s.awaitRevival r.rid cl (r.massAt b)).updRegion r.rid fun r => { r with due := insertNat b r.due }
  else s.writeAtGva who (r.massAt b) (leBytes 8 w)

/-- Sets the mass of a block, in the engine and in the mass table (R317). -/
def State.setMass (r : Region) (b w : Nat) (s : State) : State :=
  if r.maxMode then s
  else (s.updRegion r.rid fun r => { r with blocks := r.blocks.set b { r.block b with w := w } }).writeMass r b w

/-- The discarded page that a write of a block's mass would meet. -/
def State.massHeld (s : State) (r : Region) (b : Nat) : Option Nat :=
  if !r.maxMode && s.discarded (r.who s (r.block b).cl) (r.massAt b) 8 then some (r.massAt b) else none

/-- BMSUM (R338). -/
def Region.bmsum (r : Region) : Nat := if r.maxMode then 0 else r.blocks.foldl (fun n b => n + b.w) 0

/-- Custody slots of a region in use, with the cluster of each. -/
def State.custOf (s : State) (rid : Nat) : List (Nat × CustSlot) :=
  (s.clusters.map fun p => (p.2.custody.filter fun c => c.rid == rid).map fun c => (p.1, c)).flatten

/-- BCUST (R338). -/
def State.bcust (s : State) (rid : Nat) : Nat := (s.custOf rid).foldl (fun n c => n + c.2.sentW) 0

/-- Entry idx of a member table is VALID (R316). -/
def Region.valid (r : Region) (i : Nat) : Bool := (r.table.getD i 0#64).getLsbD 63

/-- VALID entries, as indices. -/
def Region.members (r : Region) : List Nat := (List.range 64).filter r.valid

/-- The VALID mask. -/
def Region.mask (r : Region) : BitVec 64 := BitVec.ofNat 64 (maskOf r.members)

/-- The target of block b in step k, or none for the skip of an empty rota (R319). -/
def Region.rotaAt (r : Region) (b : Nat) : Nat :=
  if r.rota ≠ [] then r.rota.getD ((r.k + b) % r.rota.length) r.self
  else
    let top := r.members.foldl Nat.max 0
    let d := Nat.max 1 (if top = 0 then 1 else Nat.log2 top + 1)
    r.self ^^^ 2 ^ ((r.k + b) % d)

/-! ### Numbers -/

/-- The sent and the kept part of a value (R320). -/
def halve (f32 : Bool) (v : Nat) : Nat × Nat :=
  if f32 then
    match fmtF32.decode v with
    | .fin n m e =>
      let x := (fmtF32.round .rne n m (e - 1)).1
      (x, (fmtF32.sub .rne v x).1)
    | _ => (v, v)
  else
    let i := sintOf 64 v
    let x := i.fdiv 2
    (wrapPat 64 x, wrapPat 64 (i - x))

/-- The add of an apply or a reclaim: the value, and whether it saturated or is a NaN (R321). -/
def addHalf (f32 : Bool) (v x : Nat) : Nat × Bool :=
  if f32 then let r := (fmtF32.add .rne v x).1; (r, (fmtF32.decode r).isNan)
  else
    let t := sintOf 64 v + sintOf 64 x
    if t < minInt 64 true then (wrapPat 64 (minInt 64 true), true)
    else if maxInt 64 true < t then (wrapPat 64 (maxInt 64 true), true) else (wrapPat 64 t, false)

/-- MAXN (R326): maximumNumber, but a NaN operand gives the default NaN. -/
def maxn (a b : Nat) : Nat × Bool :=
  if (fmtF32.decode a).isNan || (fmtF32.decode b).isNan then (fmtF32.dnan, true) else ((fmtF32.minmax true a b).1, false)

/-- A quotient m / d · 2^e, exact up to a last bit that says whether more follows: every rounding and every comparison with a
value of fewer bits comes out as of the exact quotient. -/
def ratio (neg : Bool) (m d : Nat) (e : Int) : FVal :=
  if m = 0 then .fin neg 0 0
  else let k := 70 + Nat.log2 d; .fin neg (quotSticky m d k) (e - k - 1)

/-- An estimate before rounding (R337). -/
def Region.est (r : Region) (w v : Nat) : FVal :=
  if r.maxMode then fmtF32.decode v
  else if r.f32 then
    match fmtF32.decode v with
    | .fin n m e => ratio n m w (e + r.upt)
    | x => x
  else let i := sintOf 64 v; ratio (decide (i < 0)) i.natAbs w ((r.upt : Int) - r.fpt)

/-- The mass is too small for an estimate (R337). -/
def Region.under (r : Region) (w : Nat) : Bool := !r.maxMode && (decide (w = 0) || decide (w < r.minw))

/-- A value rounded once to a format (R337). -/
def FVal.roundTo (f : Fmt) (v : FVal) : Nat × FFlags :=
  match v with
  | .nan sig => (f.dnan, nvIf sig)
  | .inf n => (f.infinity n, 0#5)
  | .fin n m e => f.round .rne n m e

/-- An estimate as `brd.f32` writes it (R321, R337). -/
def Region.est32 (r : Region) (w v : Nat) : Nat := if r.under w then 0 else ((r.est w v).roundTo fmtF32).1

/-- |RNE_f32(a − b)|; a NaN counts as +∞ (R326, DEDUCED, log 31). -/
def absDiff (a b : Nat) : Nat :=
  let d := (fmtF32.sub .rne a b).1
  if (fmtF32.decode d).isNan then fmtF32.infBits else d % 2 ^ 31

/-- D of an apply (R321, R326). -/
def Region.discr (r : Region) (w : Nat) (vs : List Nat) (inW : Nat) (ins : List Nat) : Nat :=
  if r.maxMode then (List.zipWith (fun x v => absDiff x v) ins vs).foldl Nat.max 0
  else if w = 0 ∨ inW = 0 then 0
  else (List.zipWith (fun x v => absDiff (r.est32 inW x) (r.est32 w v)) ins vs).foldl Nat.max 0

/-! ### Halves and their parts (R325, R327) -/

/-- The 32-byte brine header. -/
def brineHeader (id gen frm ver rid blk w flags pairs : Nat) : List Byte :=
  leBytes 2 id ++ [byteOf gen, byteOf frm] ++ leBytes 4 ver ++ [byteOf rid] ++ leBytes 3 blk ++ leBytes 8 w ++ [byteOf flags]
    ++ leBytes 2 pairs ++ List.replicate 9 0#8

/-- The data of a half: pairs when it is sparse enough, else every value (R325). -/
def Region.halfData (r : Region) (vals : List Nat) : Bool × Nat × List Byte :=
  let ps := ((List.range vals.length).zip vals).filter fun p => p.2 != 0
  let dens := if r.dens = 0 then 64 else r.dens
  if r.sparse && decide (ps.length * 256 ≤ dens * r.elems) then
    (true, ps.length, (ps.map fun p => leBytes 4 p.1 ++ leBytes r.width p.2).flatten)
  else (false, 0, (vals.map (leBytes r.width)).flatten)

/-- Parts of a message: at most 184 bytes each (R327). -/
def brineParts (seq cluster : Nat) : Nat → Nat → List Byte → List (List Byte)
  | 0, _, _ => []
  | fuel + 1, i, bs =>
    let last := decide (bs.length ≤ 184)
    let word := seq % 2 ^ 32 + 2 ^ 32 * cluster + 2 ^ 41 * i + 2 ^ 47 * b2n last
    (leBytes 8 word ++ bs.take 184) :: (if last then [] else brineParts seq cluster fuel (i + 1) (bs.drop 184))

/-- CTAG of a part that no answer is awaited for (DESIGN CHOICE, log 32). -/
def partTag : Nat := engineTag (2 ^ 47 - 1)

/-- Sends the parts of a message to a peer, which name window 0 (DESIGN CHOICE, log 68); an answer to the last one is awaited for
`owner`. -/
def State.sendParts (opc sub core p : Nat) (owner : Option PortOwner) : List (List Byte) → State → State
  | [], s => s
  | [l], s =>
    match owner with
    | some o => s.sendEngine o core 0#64 p 0 0 [(opc, sub, l.length, l)]
    | none => s.sendPkt (s.peerPort p) none (s.request core partTag p 0 opc sub l.length 0 (padTo (up8 l.length) l))
  | l :: ls, s =>
    State.sendParts opc sub core p owner ls
      (s.sendPkt (s.peerPort p) none (s.request core partTag p 0 opc sub l.length 0 (padTo (up8 l.length) l)))

/-- PEER of a member-table entry (R316). -/
def entPeer (e : Word) : Nat := bits e.toNat 0 10
/-- LOCAL. -/
def entLocal (e : Word) : Bool := e.getLsbD 10
/-- RID. -/
def entRid (e : Word) : Nat := bits e.toNat 11 6

/-- A copy that its target has applied, or has not (R326): the `bstep` that sent it ends, with DONE or RECLAIMED (R345, DEDUCED, log 31). -/
def State.endCopy (owner : Option Nat) (applied : Bool) (s : State) : State :=
  match owner with
  | some id => s.brineEnd id (if applied then 0 else 11) 0
  | none => s

/-- A half or a copy sets out for its target (R320, R327); a peer that is not UP answers DEAD (R210). -/
def State.launchHalf (r : Region) (h : Half) (s : State) : State :=
  let e := r.table.getD h.target 0#64
  if entLocal e then { s with halves := s.halves ++ [h] }
  else
    let p := entPeer e
    if p1State (s.peer1 p) ≠ 1 then
      if h.copy then s.endCopy h.owner false else { s with answers := s.answers ++ [⟨r.rid, h.cluster, h.target, h.seq, .nak pDEAD.toNat, h.ser⟩] }
    else
      let (sp, n, d) := r.halfData (h.vals.map (·.toNat))
      let hd := brineHeader h.id h.gen h.frm h.ver h.rid h.blk h.w (b2n sp + 2 * b2n r.f32) n
      let core := (r.who s h.cluster).core
      (s.notePeer p 0).sendParts 0x08 (if h.copy then 4 else 0) core p
        (if h.copy then h.owner.map .bcopy else some (.half r.rid h.cluster h.target h.seq h.ser)) (brineParts h.seq h.cluster 64 0 (hd ++ d))

/-! ### Custody (R320, R322) -/

/-- The GVA of a custody slot (R317). -/
def Region.slotAt (r : Region) (cl slot : Nat) : Nat := r.cbase + (cl * r.custn + slot) * 4096

/-- Slots of a region in use at the engine of a cluster. -/
def State.slotsOf (s : State) (cl rid : Nat) : List CustSlot := (s.cluster cl).custody.filter fun c => c.rid == rid

/-- The next sequence number of an engine to a target; the first is 1 (R322, DEDUCED, log 31). -/
def State.nextSeq (s : State) (cl rid t : Nat) : Nat := ((look (cl, rid, t) s.seqs).getD 0 + 1) % 2 ^ 32

/-- The lowest free custody slot for a send to a target, unless its number has to wait (R322). -/
def State.freeCust (s : State) (r : Region) (cl t : Nat) : Option Nat :=
  let l := s.slotsOf cl r.rid
  let n := s.nextSeq cl r.rid t
  if l.any fun c => c.target == t && decide (64 ≤ sintOf 32 (n + 2 ^ 32 - c.seq)) then none
  else freshFrom (l.map (·.slot)) 0 r.custn

/-- How a send ends. -/
inductive SendRes where
  | sent (seq : Nat) (s : State)
  | poisoned (s : State)
  | blocked
  | held (g : Nat)                             -- a discarded page is to be written (R150)

/-- A send of a block (R320): half of it, or all of it for a leaver (R339); MAX mode sends a copy (R326). -/
def State.sendBlock (r : Region) (b t : Nat) (whole sweep : Bool) (owner : Option Nat) (s : State) : SendRes :=
  let k := r.block b
  let e := r.table.getD t 0#64
  let half (vs : List Nat) : Half :=
    ⟨r.id, r.gen, r.self, r.rid, r.ver, entRid e, t, b, 0, k.cl, 0, r.maxMode, vs.map (BitVec.ofNat 64), none, owner, s.serial⟩
  match s.findBlock r b with
  | .lost => .poisoned (s.spoil r.rid b)
  | .held g => if r.maxMode then .sent 0 (s.launchHalf r (half (List.replicate r.elems 0))) else .held g
  | .here a s =>
    if s.poisoned a 4096 then .poisoned (s.spoil r.rid b)
    else
      let vs := s.blockVals r a
      if r.maxMode then .sent 0 (s.launchHalf r (half vs))
      else match s.freeCust r k.cl t with
        | none => .blocked
        | some i =>
          match (s.massHeld r b).or (if s.discarded (r.who s k.cl) (r.slotAt k.cl i) 4096 then some (r.slotAt k.cl i) else none) with
          | some g => .held g
          | none =>
          let n := s.nextSeq k.cl r.rid t
          let hs := vs.map (halve r.f32)
          let sent := if whole then vs else hs.map (·.1)
          let keep := if whole then vs.map fun _ => 0 else hs.map (·.2)
          let w := if whole then k.w else k.w / 2
          let c : CustSlot := ⟨i, r.rid, b, t, n, w, false, 0, s.nowAt k.cl, owner, sweep, sent.map (BitVec.ofNat 64), s.serial⟩
          let s1 := ((s.putVals r a keep).setMass r b (k.w - w)).writeAtGva (r.who s k.cl) (r.slotAt k.cl i)
            ((sent.map (leBytes r.width)).flatten)
          let s2 := (s1.setCluster k.cl fun q => { q with custody := q.custody ++ [c] })
          .sent n (({ s2 with seqs := put (k.cl, r.rid, t) n s2.seqs, serial := s2.serial + 1 }).launchHalf r
            { half sent with seq := n, w := w, ser := c.ser })

/-- The values of a custody slot as its memory holds them; a slot on a peer or the host holds what its engine wrote there, which
alone writes it (R317); what cannot be read is free (DEDUCED, log 31). -/
def State.custVals (s : State) (r : Region) (cl : Nat) (c : CustSlot) : List Nat :=
  match s.locateEng (r.who s cl) nEngWrite (r.slotAt cl c.slot) 4096 with
  | .loc (.mem a h _ _) s1 =>
    if s1.homeDead h || s1.poisoned a 4096 then
      (List.range r.elems).map fun i => (freeWord (s.serial + i)).toNat % 2 ^ (8 * r.width)
    else s1.blockVals r a
  | .loc (.peer _ _ _) _ | .loc (.host _) _ => c.vals.map (·.toNat)
  | _ => (List.range r.elems).map fun i => (freeWord (s.serial + i)).toNat % 2 ^ (8 * r.width)

/-- The port is asked for a custody slot's page, in a step that is tried (R355). -/
def State.reachCust (r : Region) (cl : Nat) (c : CustSlot) (s : State) : State :=
  match s.locateEng (r.who s cl) nEngWrite (r.slotAt cl c.slot) 4096 with
  | .miss s1 => s1
  | _ => s

/-- A custody slot is free again. -/
def State.dropCust (cl : Nat) (c : CustSlot) (s : State) : State :=
  s.setCluster cl fun k => { k with custody := k.custody.filter fun d => !(d.rid == c.rid && d.slot == c.slot) }

/-- Reclaim (R322): the slot is added back to its block; into a poisoned block only the mass returns. -/
def State.reclaim (cl : Nat) (c : CustSlot) (s : State) : State :=
  match s.regions.find? fun r => r.rid == c.rid with
  | none => s.dropCust cl c
  | some r =>
    let k := r.block c.blk
    let s0 := ({ s with serial := s.serial + r.elems } : State).reachCust r cl c
    let back (s : State) : State := (s.setMass r c.blk (k.w + c.sentW)).dropCust cl c
    match s0.findBlock r c.blk with
    | .lost => back (s0.spoil r.rid c.blk)
    | .held g => s.awaitRevival r.rid cl g
    | .here a s1 =>
      if s1.poisoned a 4096 then back (s1.spoil r.rid c.blk)
      else
        let l := List.zipWith (addHalf r.f32) (s1.blockVals r a) (s.custVals r cl c)
        let s2 := s1.putVals r a (l.map (·.1))
        let hit := l.any (·.2)
        back (s2.updRegion r.rid fun r => if r.f32 then r else { r with ovf := r.ovf || hit })

/-! ### Receiving (R321, R322) -/

/-- The engine that serves a block of the region at a RID. -/
def State.blockEngine (s : State) (rid b : Nat) : Nat := ((s.region rid).map fun r => (r.block b).cl).getD 0

/-- The receiving engine of a message: that of the block in the brine header, which opens part 0. -/
def State.engineOf (s : State) (bs : List Byte) : Nat := s.blockEngine (at' bs 8 1 % 64) (at' bs 9 3)

/-- An engine has none of its 32 reassembly buffers free (R327). -/
def State.buffersFull (s : State) (cl : Nat) : Bool := decide (32 ≤ s.reasms.countP fun r => s.engineOf r.bytes == cl)

/-- Which member a version has at an index: the version at which it was added (R339). -/
def Region.epoch (r : Region) (idx ver : Nat) : Nat :=
  (r.joined.filter fun j => j.1 == idx && decide (j.2 ≤ ver)).foldl (fun n j => max n j.2) 0

/-- The window of a sending engine of a member at a receiving one. -/
def State.window (s : State) (cl rid member from_ epoch : Nat) : SeqWindow :=
  ((s.cluster cl).windows.find? fun w => w.rid == rid && w.member == member && w.cluster == from_ && w.epoch == epoch).getD
    ⟨rid, member, from_, epoch, 0, 0#64⟩

/-- The number has been applied, or lies below the window (R321). -/
def SeqWindow.has (w : SeqWindow) (n : Nat) : Bool :=
  let d := sintOf 32 (w.high + 2 ^ 32 - n)
  decide (64 ≤ d) || (decide (0 ≤ d) && w.mask.getLsbD d.toNat)

/-- Marks a number applied (R321). -/
def SeqWindow.mark (n : Nat) (w : SeqWindow) : SeqWindow :=
  let d := sintOf 32 (n + 2 ^ 32 - w.high)
  if 0 < d then { w with high := n, mask := if d < 64 then (w.mask <<< d.toNat) ||| 1#64 else 1#64 }
  else { w with mask := w.mask ||| BitVec.ofNat 64 (2 ^ d.natAbs) }

/-- Replaces a window. -/
def State.putWindow (cl : Nat) (w : SeqWindow) (s : State) : State :=
  s.setCluster cl fun k =>
    { k with windows := (k.windows.filter fun v => !(v.rid == w.rid && v.member == w.member && v.cluster == w.cluster && v.epoch == w.epoch)) ++ [w] }

/-- A new member at an index (R339): the numbers of the halves to it begin anew, and so do its own, in windows of its own; those of a
member that stood there before it stay, for its RECALLs (R322). -/
def State.newMember (rid idx ver : Nat) (s : State) : State :=
  ({ s with seqs := s.seqs.filter fun e => !(e.1.2.1 == rid && e.1.2.2 == idx) }).updRegion rid fun r =>
    { r with joined := r.joined ++ [(idx, ver)] }

/-- What the engines hold of a region beside it (R334). -/
def State.forgetRegion (rid : Nat) (s : State) : State :=
  { s with
    clusters := s.clusters.map fun p => (p.1, { p.2 with windows := p.2.windows.filter fun w => w.rid != rid })
    seqs := s.seqs.filter fun e => e.1.2.1 != rid
    done := s.done.filter fun e => e.1 != rid
    abandoned := s.abandoned.filter fun e => e.rid != rid }

/-- An answer to a half: on this device, or as a packet (R321); one to a copy ends the `bstep` that sent it (R345). -/
def State.answerHalf (h : Half) (ans : BrineAns) (s : State) : State :=
  match h.remote with
    | none =>
      if h.copy then s.endCopy h.owner (ans == .ack)
      else { s with answers := s.answers ++ [⟨h.frmRid, h.cluster, h.target, h.seq, ans, h.ser⟩] }
    | some pkt =>
      match ans with
      | .nak r => s.answerPeer pkt 0x12 r []
      | _ => s.answerPeer pkt 0x11 0 []

/-- The apply of a half or a copy whose block can take it (R321, R326). -/
def State.applyHalf (r : Region) (h : Half) (a : Nat) (s : State) : State :=
  let k := r.block h.blk
  let vs := s.blockVals r a
  let ins := h.vals.map (·.toNat)
  let d := Nat.max r.bdisc.toNat (r.discr k.w vs h.w ins)
  let l := List.zipWith (fun v x => if r.maxMode then maxn v x else addHalf r.f32 v x) vs ins
  let hit := l.any (·.2)
  let ends := decide (r.sper = 0)
  let s1 := (s.putVals r a (l.map (·.1))).updRegion r.rid fun r =>
    { r with
      ovf := r.ovf || (hit && !r.f32), nan := r.nan || (hit && r.f32)
      bdis := if ends then BitVec.ofNat 32 d else r.bdis
      bdisc := if ends then 0#32 else BitVec.ofNat 32 d
      k := if ends then r.k + 1 else r.k }
  s1.setMass r h.blk (k.w + h.w)

/-- Counts a packet of an old generation or version (R321, R338). -/
def State.countStale (rid : Nat) (s : State) : State :=
  s.updRegion rid fun r => { r with stale := Nat.min (r.stale + 1) (2 ^ 32 - 1) }

/-- A half or a copy arrives (R321): stale, duplicate, poisoned, or applied; where its block is on a discarded page it waits for that
(R150). -/
def State.receiveHalf (h : Half) (s : State) : State :=
  match s.region h.rid with
  | none => s.answerHalf h (.nak pSTALE.toNat)
  | some r =>
    if r.id ≠ h.id then s.answerHalf h (.nak pSTALE.toNat)
    else if r.gen ≠ h.gen ∨ r.ver ≠ h.ver ∨ !r.valid h.frm ∨ r.nblk ≤ h.blk then
      (s.countStale r.rid).answerHalf h (.nak pSTALE.toNat)
    else
      let k := r.block h.blk
      let w := s.window k.cl r.rid h.frm h.cluster (r.epoch h.frm h.ver)
      if !h.copy && w.has h.seq then s.answerHalf h .ack
      else
        match s.findBlock r h.blk with
        | .lost => (s.spoil r.rid h.blk).answerHalf h (.nak pUNCORR.toNat)
        | .held g => { s.awaitRevival r.rid k.cl g with halves := s.halves ++ [h] }
        | .here a s1 =>
          if s1.poisoned a 4096 then s1.answerHalf h (.nak pUNCORR.toNat)
          else
            let s2 := s1.applyHalf r h a
            (if h.copy then s2 else s2.putWindow k.cl (w.mark h.seq)).answerHalf h .ack

/-- A RECALL arrives (R322): at any version, the receiver answers from its window alone and marks the number; one of another group
or generation is dropped (R341). -/
def State.receiveRecall (q : Recall) (s : State) : State :=
  let out (ans : BrineAns) (s : State) : State :=
    match q.remote with
    | none => { s with answers := s.answers ++ [⟨q.frmRid, q.cluster, q.target, q.seq, ans, q.ser⟩] }
    | some pkt => if ans = .stale then s.answerPeer pkt 0x12 pSTALE.toNat [] else s.answerPeer pkt 0x08 (if ans = .applied then 2 else 3) []
  match s.region q.rid with
  | none => out .stale s
  | some r =>
    if r.id ≠ q.id then out .stale s
    else if r.gen ≠ q.gen then out .stale (s.countStale r.rid)
    else
    let cl := (r.block q.blk).cl
    let w := s.window cl r.rid q.frm q.cluster (r.epoch q.frm q.ver)
    if w.has q.seq then out .applied s else out .void (s.putWindow cl (w.mark q.seq))

/-- Sends a RECALL for a custody slot (R322). -/
def State.sendRecall (r : Region) (cl : Nat) (c : CustSlot) (s : State) : State :=
  let e := r.table.getD c.target 0#64
  if entLocal e then
    { s with recalls := s.recalls ++ [⟨r.id, r.gen, r.ver, r.self, r.rid, entRid e, c.target, c.blk, cl, c.seq, none, c.ser⟩] }
  else
    s.sendParts 0x08 1 (r.who s cl).core (entPeer e) (some (.recall r.rid cl c.target c.seq c.ser))
      (brineParts c.seq cl 2 0 (brineHeader r.id r.gen r.self r.ver (entRid e) c.blk c.sentW (2 * b2n r.f32) 0))

/-- Sends the half of a custody slot again, under the same number (R322). -/
def State.resendHalf (r : Region) (cl : Nat) (c : CustSlot) (s : State) : State :=
  let e := r.table.getD c.target 0#64
  let vs := s.custVals r cl c
  (({ s with serial := s.serial + r.elems } : State).reachCust r cl c).launchHalf r
    ⟨r.id, r.gen, r.self, r.rid, r.ver, entRid e, c.target, c.blk, c.seq, cl, c.sentW, false, vs.map (BitVec.ofNat 64), none, none, c.ser⟩

end Sys2Proof.Machine
end

