-- ==== Sys2Proof/Machine/BrineCmds.lean ====
section
/-! DEFINITION. The brine instructions (R329-R338, R342-R345), membership rounds (R339, R340), and the brine engines' own
steps (R319, R322, R329, R339). -/

namespace Sys2Proof.Machine

open Config

/-! ### The end of a command (R332) -/

/-- The completion of `badd` or `brd` (R332), on its way to its channel. -/
def State.brineMsg (q : BrineCmd) (s : State) : State :=
  (s.dropBrine q.id).sendMsg q.core (slenCh q.slen)
    ⟨slenTag q.slen, kstat 4 q.code, BitVec.ofNat 16 q.core, q.flags.setWidth 64, q.d1, q.d2⟩ q.join q.cxa

/-- A custody slot ends for good: the `bstep` that waits for it gets its status (R343). -/
def State.endCust (cl : Nat) (c : CustSlot) (status : Nat) (s : State) : State :=
  match c.owner with
  | some id => s.brineEnd id status c.seq
  | none => let _ := cl; s

/-- ACK or APPLIED (R322). -/
def State.custDone (cl : Nat) (c : CustSlot) (s : State) : State := (s.dropCust cl c).endCust cl c 0

/-- The slot is not in use any more. -/
def State.custFreed (s : State) (cl : Nat) (c : CustSlot) : Bool := !(s.cluster cl).custody.any fun d => d.ser == c.ser

/-- Reclaim, with its status (R322, R343); a slot whose block is on a discarded page is still in use after it (R150). -/
def State.custBack (cl : Nat) (c : CustSlot) (s : State) : State :=
  let s1 := s.reclaim cl c
  if s1.custFreed cl c then s1.endCust cl c 11 else s1

/-- Reclaims every custody slot of a region whose target is an index (R322, R339). -/
def State.reclaimAll (rid idx : Nat) (s : State) : State :=
  ((s.custOf rid).filter fun c => c.2.target == idx).foldl (fun s c => s.custBack c.1 c.2) s

/-! ### Rounds (R339) -/

/-- The round of a region. -/
def State.round (s : State) (rid : Nat) : Option Round := s.rounds.find? fun r => r.rid == rid

/-- Replaces the round of a region. -/
def State.putRound (d : Round) (s : State) : State :=
  { s with rounds := mapFirst (fun e => e.rid == d.rid) (fun _ => d) s.rounds }

/-- The region of a round, committed or not. -/
def State.roundRegion (s : State) (rid : Nat) : Option Region := s.regions.find? fun r => r.rid == rid

/-- The participants of a round, as the member knows them. -/
def Round.parts (d : Round) (r : Region) : List Nat :=
  match d.op with
  | .add => insertNat d.idx r.members
  | .drop => r.members.filter (· ≠ d.idx)
  | _ => r.members

/-- The member-table entry of a participant. -/
def Round.entryOf (d : Round) (r : Region) (i : Nat) : Word :=
  if d.op = .add ∧ i = d.idx ∧ !d.joiner then d.entry else r.table.getD i 0#64

/-- The operation of a round as a number in its message (DESIGN CHOICE, log 33). -/
def RoundOp.code : RoundOp → Nat
  | .create => 0 | .add => 1 | .rm => 2 | .drop => 3

/-- The operation of a number. -/
def RoundOp.ofCode (n : Nat) : RoundOp :=
  match n with
  | 0 => .create | 1 => .add | 2 => .rm | _ => .drop

/-- A proposal as 40 bytes (DESIGN CHOICE, log 33). -/
def Proposal.toBytes (p : Proposal) : List Byte :=
  [byteOf p.op.code, byteOf p.idx, byteOf p.frm, 0#8] ++ leBytes 2 p.cseq ++ [0#8, 0#8] ++ leBytes 4 p.ver ++ leBytes 4 0
    ++ leBytes 8 p.mask.toNat ++ leBytes 16 p.bheld

/-- A proposal from its bytes. -/
def Proposal.ofBytes (id gen rid : Nat) (bs : List Byte) : Proposal :=
  ⟨id, gen, at' bs 2 1, rid, at' bs 4 2, RoundOp.ofCode (at' bs 0 1), at' bs 1 1, at' bs 8 4, at' bs 24 16, BitVec.ofNat 64 (at' bs 16 8), []⟩

/-- Sends a membership message of a region to the member of an entry: 0 PROPOSE, 1 STATE (R327). -/
def State.sendMemb (r : Region) (e : Word) (sub : Nat) (ps : List Proposal) (s : State) : State :=
  if entLocal e then
    if sub = 0 then
      let new := (ps.map fun p => { p with rid := entRid e }).filter fun p => !s.proposals.contains p
      { s with proposals := s.proposals ++ new }
    else { s with states := s.states ++ [(entRid e, ps)] }
  else if p1State (s.peer1 (entPeer e)) ≠ 1 then s
  else
    (s.notePeer (entPeer e) 0).sendParts 0x09 sub r.core (entPeer e) none
      (brineParts (s.serial % 2 ^ 32) (s.coreCluster r.core) 16 0
        (brineHeader r.id r.gen r.self r.ver (entRid e) 0 0 0 ps.length ++ (ps.map Proposal.toBytes).flatten))

/-- The member's own proposal. -/
def State.proposal (s : State) (d : Round) (r : Region) : Proposal :=
  ⟨r.id, r.gen, r.self, r.rid, d.cseq, d.op, d.idx, r.ver, if r.maxMode then 0 else r.bmsum + s.bcust r.rid, r.mask, []⟩

/-- Sends the member's proposal to the participants that satisfy `p`. -/
def State.propose (d : Round) (r : Region) (own : Proposal) (p : Nat → Bool) (s : State) : State :=
  ((d.parts r).filter fun i => i != r.self && p i).foldl (fun s i => s.sendMemb r (d.entryOf r i) 0 [own]) s

/-- The joiner's proposal is set aside where versions and masks are compared. -/
def Round.agree (d : Round) (ps : List Proposal) : Bool :=
  let old := ps.filter fun p => !(d.op == .add && p.frm == d.idx)
  ps.all (fun p => p.cseq == d.cseq && p.op == d.op && p.idx == d.idx)
    && old.all fun p => p.ver == (old.headD p).ver && p.mask == (old.headD p).mask

/-- The commit of a round on a region (R339, R318): a leaver keeps itself alone as a VALID member. -/
def State.commitRound (d : Round) (ps : List Proposal) (s : State) : State :=
  match s.roundRegion d.rid with
  | none => s
  | some r =>
    let ver := ((ps.find? fun p => !(d.op == .add && p.frm == d.idx)).map (·.ver)).getD r.ver + 1
    let table := match d.op with
      | .create => r.table
      | .add => if d.joiner then r.table else r.table.set d.idx d.entry
      | _ =>
        (List.range 64).map fun i =>
          let e := r.table.getD i 0#64
          if (if d.idx = r.self then i ≠ r.self else i = d.idx) then e &&& 0x7FFFFFFFFFFFFFFF#64 else e
    let now := s.now r.core
    let s1 := s.updRegion d.rid fun r =>
      { r with
        ver := ver, table := table, bnom := if r.maxMode then 0 else ps.foldl (fun n p => n + p.bheld) 0, roundHold := false
        stepped := if r.committed then r.stepped else now, committed := true }
    let s2 := { s1 with groupGens := put r.id r.gen s1.groupGens, done := s1.done ++ [(d.rid, d.cseq, ps)] }
    let s3 := if d.op = .rm ∨ d.op = .drop then s2.reclaimAll d.rid d.idx else s2
    if d.op = .add then s3.newMember d.rid d.idx ver else s3

/-- Ends the round that a member runs, with the status of its command. -/
def State.endRound (d : Round) (status : Nat) (s : State) : State :=
  let ver := ((s.roundRegion d.rid).map (·.ver)).getD 0
  let s1 := { s with rounds := s.rounds.filter fun e => e.rid != d.rid }
  s1.brineEnd d.owner status (if status = 0 then ver else 0)

/-- Every proposal is held: the round commits or mismatches (R339). -/
def State.testRound (rid : Nat) (s : State) : State :=
  match s.round rid, s.roundRegion rid with
  | some d, some r =>
    if d.sent && (d.parts r).all (fun i => d.held.any fun p => p.frm == i) then
      let ps := d.held.filter fun p => (d.parts r).contains p.frm
      if d.agree ps then (s.commitRound d ps).endRound d 0
      else
        let s1 := s.updRegion rid fun r => { r with roundHold := false }
        let s2 := if r.committed then s1 else { s1 with regions := s1.regions.filter fun r => r.rid != rid }
        s2.endRound d 14
    else s
  | _, _ => s

/-- A leaver sends its blocks whole to the lowest other VALID index (R339). -/
def State.leaveBlocks (rid : Nat) : Nat → State → State
  | 0, s => s
  | fuel + 1, s =>
    match s.round rid, s.roundRegion rid with
    | some d, some r =>
      if r.nblk ≤ d.next then s
      else
        match r.members.find? (· ≠ r.self) with
        | none => s.putRound { d with next := r.nblk }
        | some t =>
          match s.sendBlock r d.next t true false none with
          | .blocked => s
          | .held g => s.awaitRevival rid (r.block d.next).cl g
          | .sent _ s1 => State.leaveBlocks rid fuel (s1.putRound { d with next := d.next + 1 })
          | .poisoned s1 => State.leaveBlocks rid fuel (s1.putRound { d with next := d.next + 1 })
    | _, _ => s

/-- Moves the round of a region on: the leaver's blocks, then PROPOSE once BCUST = 0, then the test (R339). -/
def State.stepRound (rid : Nat) (s : State) : State :=
  match s.round rid, s.roundRegion rid with
  | some d, some r =>
    let leaver := decide (d.op = .rm) && d.idx == r.self
    let s0 := if !d.sent && d.op == .drop then s.reclaimAll rid d.idx else s
    let s1 := if !d.sent && leaver then s0.leaveBlocks rid (r.nblk + 1) else s0
    match s1.round rid, s1.roundRegion rid with
    | some d, some r =>
      if !d.sent && (!leaver || decide (r.nblk ≤ d.next)) && s1.bcust rid == 0 then
        let own := s1.proposal d r
        ((s1.putRound { d with sent := true, held := d.held ++ [own], since := s1.now r.core }).propose d r own fun _ => true).testRound rid
      else s1.testRound rid
    | _, _ => s1
  | _, _ => s

/-- Starts a round on a region for a command (R339). -/
def State.startRound (q : BrineCmd) (op : RoundOp) (idx cseq : Nat) (entry : Word) (joiner : Bool) (s : State) : State :=
  let ver := ((s.roundRegion q.rid).map (·.ver)).getD 0
  let d : Round := ⟨q.rid, cseq, op, idx, entry, joiner, ver, 0, [], false, 0#64, q.id⟩
  (({ s with rounds := s.rounds ++ [d] }.updRegion q.rid fun r => { r with roundHold := true }).putBrine { q with started := true }).stepRound q.rid

/-! ### Reads of a command (R329, R333, R335) -/

/-- On whose behalf a command accesses memory. -/
def BrineCmd.who (q : BrineCmd) : Who := ⟨q.core, q.task, q.lvlH⟩

/-- How a read of a command's engine goes: it has every byte, waits for some, is held at a page, or meets a dead home. -/
inductive Gather where
  | ok (q : BrineCmd) (s : State)
  | wait (q : BrineCmd) (s : State)
  | hold (q : BrineCmd) (s : State) (f : PageFail) (g : Nat)
  | dead (s : State)

/-- Bytes that a command's engine has read. -/
def BrineCmd.take (bs : List Byte) (bad : Bool) (q : BrineCmd) : BrineCmd := { q with got := q.got ++ bs, gotBad := q.gotBad || bad }

/-- A command reads a discarded page: its instruction is counted once (R150). -/
def State.noteDiscard (q : BrineCmd) (s : State) : State :=
  if q.zeros then s else s.setCore q.core fun e => { e with dscrd := e.dscrd + 1#64 }

/-- Reads the parts of a span from a GVA on, but for the `skip` bytes it has already; a part on a peer or the host is asked for.
With `free`, a part that is dead reads as free bytes (DEDUCED, log 31). -/
def State.gather (who : Who) (nd : Need) (free : Bool) : List Nat → Nat → Nat → BrineCmd → State → Gather
  | [], _, _, q, s => .ok q s
  | n :: ns, g, skip, q, s =>
    let lost (s : State) : List Byte := (List.range n).map fun i => (freeWord (s.serial + i)).setWidth 8
    let next (bs : List Byte) (bad : Bool) (s : State) : Gather :=
      State.gather who nd free ns (g + n) 0 (q.take bs bad) { s with serial := s.serial + n }
    if n ≤ skip then State.gather who nd free ns (g + n) (skip - n) q s
    else if q.asked then .wait q s
    else match s.locateEng who nd g n with
      | .loc (.mem a h paged leaf) s =>
        if s.chanWaits a then .wait q s
        else if s.homeDead h then (if free then next (lost s) false s else .dead s)
        else next (s.readMem a n) (s.poisoned a n) (if paged then s.touchL2 h a (effPolicy leaf 0#2) false else s)
      | .loc .zeros s =>
        State.gather who nd free ns (g + n) 0 ({ q with zeros := true }.take (List.replicate n 0#8) false) (s.noteDiscard q)
      | .loc (.peer p w o) s => .wait { q with asked := true } (s.sendEngine (.brine q.id) q.core (BitVec.ofNat 64 n) p w o [(0x01, 0, n, [])])
      | .loc (.host o) s =>
        .wait { q with asked := true } (s.askHost (.brine q.id) n (.memRead · o n))
      | .fail f => if free then next (lost s) false s else .hold q s f g
      | .deadPeer _ => if free then next (lost s) false s else .dead s
      | .miss s => .wait q s

/-- Holds a command at its block, with PGF, REV or WLK, raised again at a retry that gets as far as another page (R150, R329, R348). -/
def State.holdBrine (q : BrineCmd) (f : PageFail) (wr : Bool) (g : Nat) (s : State) : State :=
  let now := s.now q.core
  let last := (q.held.map (·.2)).getD now
  let page := (wr, pageOf g)
  let again := q.held.isNone || q.heldAs != some page || decide (2 ^ 20 ≤ (now - last).toNat)
  let (cause, why) : BitVec 8 × Nat := match f with
    | .rev => (cREV, 6)
    | .pgf 5 => (cWLK, 5)
    | .pgf w => (cPGF, w)
    | .seg => (cPGF, 3)
  let s1 := if again then s.sendFlue q.core cause (pageOf g) (engWord 1 q.rid q.who (b2n wr) why) else s
  s1.putBrine { q with held := some (now, if again then now else last), heldAs := some page }

/-! ### `breg` and `bdrg` (R333, R334) -/

/-- `breg` at its engine (R333); a mass that cannot be read is free (DEDUCED, log 31). -/
def State.bregRun (q : BrineCmd) (r : Region) (join : Bool) (cseq : Nat) (s : State) : State :=
  let cls := (r.blocks.map (·.cl)).eraseDups
  let busyGen := (look r.id s.groupGens).any (fun g => g != 0 && g != r.gen)
    || s.regions.any fun e => e.id == r.id && e.gen != r.gen
  let load (cl : Nat) : Nat := ((r :: s.regions).map fun e => e.blocks.countP fun b => b.cl == cl).foldl (· + ·) 0
  if s.regions.any (fun e => e.rid == r.rid) || busyGen then s.brineWord q 9 0
  else if r.blocks.any fun b => b.bad then s.brineWord q 2 0
  else if cls.any fun c => decide (16384 < load c) then s.brineWord q 13 0
  else match (if join || r.maxMode then Gather.ok q s
      else State.gather q.who {} true (List.replicate r.nblk 8) r.mbase q.got.length q s) with
  | .wait q s => s.putBrine q
  | .hold _ s _ _ | .dead s => s
  | .ok q s =>
    let ws := if join then r.blocks.map fun _ => 0 else numsOf 8 r.nblk q.got
    match (if join || r.maxMode then none else (List.range r.nblk).find? fun b => decide (2 ^ 57 < ws.getD b 0)) with
    | some b => s.brineWord q 8 b
    | none =>
      let r1 := { r with blocks := List.zipWith (fun b w => { b with w := if r.maxMode then 0 else w }) r.blocks ws }
      let held (b : Nat) : Option Nat := (match s.findBlock r1 b with
        | .held g => some g
        | _ => none).or (s.massHeld r1 b)
      match (if join then (List.range r.nblk).findSome? held else none) with
      | some g => s.holdBrine q .rev true g
      | none =>
      let s1 := { s with regions := s.regions ++ [r1] }
      let clear (s : State) (b : Nat) : State :=
        match s.blockAt r1 b with
        | some (a, s) => (s.putVals r1 a (List.replicate r1.elems 0)).setMass r1 b 0
        | none => s.spoil r1.rid b
      let s2 := if join then (List.range r.nblk).foldl clear s1 else s1
      s2.startRound q (if join then .add else .create) (if join then r.self else 0) cseq 0#64 join

/-- `bdrg` at its engine (R334, R318). -/
def State.bdrgRun (q : BrineCmd) (s : State) : State :=
  match s.region q.rid with
  | none => s.brineWord q 7 0
  | some r =>
    if r.members.any (· ≠ r.self) then s.brineWord q 10 0
    else if s.bcust q.rid ≠ 0 then s
    else match (List.range r.nblk).findSome? (s.massHeld r) with
    | some g => s.holdBrine q .rev true g
    | none =>
      let s1 := (List.range r.nblk).foldl (fun s b => s.setMass r b (r.block b).w) s
      let s2 := ({ s1 with regions := s1.regions.filter fun e => e.rid != q.rid } : State).forgetRegion q.rid
      let s3 := if s2.regions.any fun e => e.id == r.id then s2 else { s2 with groupGens := put r.id 0 s2.groupGens }
      s3.brineWord q 0 0

/-! ### `bqry`, `bhold`, `bstep`, `bgrp` (R338, R339, R342, R343) -/

/-- A brine register (R338). -/
def Region.register (r : Region) (cust blk code : Nat) : Nat × Nat :=
  let wide (n : Nat) : Nat × Nat := (n % 2 ^ 64, n / 2 ^ 64)
  let m (n : Nat) : Nat := if r.maxMode then 0 else n
  match code with
  | 0 => (if blk < r.nblk then m (r.block blk).w else 0, 0)
  | 1 => wide r.bmsum
  | 2 => wide (m cust)
  | 3 => wide (m r.bnom)
  | 4 => wide (m (r.bmsum + cust))
  | 5 => (r.bdis.toNat, 0)
  | 6 => (r.bdisc.toNat, 0)
  | 7 => (r.ver + r.gen * 2 ^ 32 + r.id * 2 ^ 40, r.mask.toNat)
  | 8 => (b2n r.ovf + 2 * b2n r.uw + 4 * b2n r.nan + 8 * b2n r.pblk + r.stale * 2 ^ 32, 0)
  | _ => (r.k, 0)

/-- `bqry` at its engine (R338); a block it names whose home has left its engine is marked (R317, R328). -/
def State.bqryRun (q : BrineCmd) (clr : Bool) (s : State) : State :=
  let code := q.c.toNat
  let b := bits q.b.toNat 16 24
  let s := match s.region q.rid with
    | some r =>
      if decide (code = 0 ∧ b < r.nblk) && !(r.block b).bad then
        match s.findBlock r b with
        | .lost => s.spoil r.rid b
        | .held _ => s
        | .here _ s1 => if s1.trying = s.trying then s else s1
      else s
    | none => s
  let v := match s.region q.rid with
    | some r => r.register (s.bcust q.rid) b code
    | none => (0, 0)
  let s1 := if clr && code == 8 then
    s.updRegion q.rid fun r => if r.committed then { r with ovf := false, uw := false, nan := false, pblk := false, stale := 0 } else r
    else s
  let r := brineReg q.ins
  (((s1.dropBrine q.id).cmdDone q.core q.cxa).oweWord q.core q.cxa r (BitVec.ofNat 64 v.1)).oweWord q.core q.cxa (r + 1#4) (BitVec.ofNat 64 v.2)

/-- `bhold` at its engine (R342). -/
def State.bholdRun (q : BrineCmd) (on : Bool) (s : State) : State :=
  match s.region q.rid with
  | none => s.brineWord q 7 0
  | some r =>
    let s1 := s.updRegion q.rid fun r => { r with hold := on }
    if on && s1.bcust q.rid != 0 then s1 else s1.brineWord q 0 r.ver

/-- `bstep` at its engine (R343). -/
def State.bstepRun (q : BrineCmd) (s : State) : State :=
  if q.started then s
  else match s.region q.rid with
    | none => s.brineWord q 7 0
    | some r =>
      let b := bits q.b.toNat 16 24
      let t := q.c.toNat
      if r.nblk ≤ b then s.brineWord q 8 0
      else if t = r.self ∨ !r.valid t then s.brineWord q 12 0
      else if r.roundHold then s
      else match s.sendBlock r b t false false (some q.id) with
        | .blocked => s
        | .held g => s.holdBrine q .rev true g
        | .poisoned s1 => s1.brineWord q 1 0
        | .sent _ s1 => s1.putBrine { q with started := true }

/-- The argument of `bgrp` (R339): index, entry (its bits 16:0, VALID once it is added), CSEQ. -/
def grpArg (v : Word) : Nat × Word × Nat :=
  (bits v.toNat 0 6, field 1 63 ||| BitVec.ofNat 64 (bits v.toNat 16 17), bits v.toNat 48 16)

/-- `bgrp` at its engine (R339, R340). -/
def State.bgrpRun (q : BrineCmd) (op : RoundOp) (s : State) : State :=
  if q.started then s
  else match s.region q.rid with
    | none => s.brineWord q 7 0
    | some r =>
      let (idx, e, cseq) := grpArg q.c
      let no := match op with
        | .add => r.valid idx
        | .drop => !r.valid idx || idx == r.self
        | _ => !r.valid idx
      if no then s.brineWord q 10 0
      else if (s.round q.rid).isSome then s
      else s.startRound q op idx cseq e false

/-! ### `badd` and `brd` (R335-R337) -/

/-- What an engine finds where it accesses a span. -/
inductive SpanFind where
  | ok (ls : List (Loc × Nat)) (s : State)
  | dead
  | hold (f : PageFail) (g : Nat)

/-- The places of the parts of a span, all translated (R329). -/
def State.findSpan (who : Who) (nd : Need) : List Nat → Nat → State → SpanFind
  | [], _, s => .ok [] s
  | n :: ns, g, s =>
    match s.locateEng who nd g n with
    | .loc l s =>
      match l with
      | .mem _ h _ _ =>
        if s.homeDead h then .dead
        else (match State.findSpan who nd ns (g + n) s with
          | .ok ls s => .ok ((l, n) :: ls) s
          | r => r)
      | _ => (match State.findSpan who nd ns (g + n) s with
        | .ok ls s => .ok ((l, n) :: ls) s
        | r => r)
    | .fail f => .hold f g
    | .deadPeer _ => .dead
    | .miss s => .ok [] s

/-- Writes the parts of a span; how many of them went to a peer (R336). -/
def State.writeSpan (id core : Nat) (bad : Bool) : List (Loc × Nat) → List Byte → State → Nat × State
  | [], _, s => (0, s)
  | (l, n) :: ls, bs, s =>
    let w := bs.take n
    let (k, s) := match l with
      | .mem a h paged leaf => (0, (if paged then s.touchL2 h a (effPolicy leaf 0#2) true else s).engWrite a w bad)
      | .peer p wi o => (1, s.sendEngine (.brine id) core 0#64 p wi o [(0x02, 0, n, w)])
      | .host o => (0, s.emit (.memWrite o w))
      | .zeros => (0, s)
    let (m, s) := State.writeSpan id core bad ls (bs.drop n) s
    (k + m, s)

/-- Ends `badd` or `brd` with a code about a block, once the writes of the blocks before it are performed (R329, R337). -/
def State.brineCode (q : BrineCmd) (code b : Nat) (s : State) : State :=
  let g := ((s.region q.rid).map fun r => r.vbase + 4096 * b).getD 0
  let q := if q.code = 0 then { q with code := code, d1 := BitVec.ofNat 64 b, d2 := BitVec.ofNat 64 g } else q
  if q.pend = 0 then s.brineMsg q else s.putBrine { q with started := true, held := none }

/-- The update of one value by `badd` (R335): with w = 0 the value stays, and a NaN sets NV all the same (DEDUCED, log 31); the value, its flags, and whether it saturated or met a NaN in MAX mode. -/
def Region.addDelta (r : Region) (w v d : Nat) : Nat × FFlags × Bool :=
  let x := fmtF32.decode d
  if r.maxMode then let m := maxn v d; (m.1, nvIf ((fmtF32.decode v).isSig || x.isSig), m.2)
  else if w = 0 then (v, if x.isNan then fNV else 0#5, false)
  else if r.f32 then
    match x with
    | .nan _ => (fmtF32.dnan, fNV, false)
    | .inf n =>
      let y := fmtF32.decode v
      if y.isNan then (fmtF32.dnan, nvIf y.isSig, false) else let z := fmtF32.addVal .rne y (.inf n); (z.1, z.2, false)
    | .fin n m e =>
      let y := fmtF32.decode v
      if y.isNan then (fmtF32.dnan, nvIf y.isSig, false)
      else let z := fmtF32.addVal .rne y (.fin n (m * w) (e - r.upt)); (z.1, z.2, false)
  else
    match x with
    | .nan _ => (v, fNV, false)
    | .inf n => (wrapPat 64 (if n then minInt 64 true else maxInt 64 true), 0#5, true)
    | .fin n m e =>
      let (q, inex) := roundInt .rne n (m * w) (e + r.fpt - r.upt)
      let t := sintOf 64 v + (if n then -(q : Int) else q)
      let fl := if inex then fNX else 0#5
      if t < minInt 64 true then (wrapPat 64 (minInt 64 true), fl, true)
      else if maxInt 64 true < t then (wrapPat 64 (maxInt 64 true), fl, true) else (wrapPat 64 t, fl, false)

/-- `badd` at its engine (R335). -/
def State.baddRun (q : BrineCmd) (s : State) : State :=
  let b := bits q.a.toNat 16 24
  match (s.region q.rid).filter fun r => r.elems == q.elems with
  | none => s.brineCode q 7 b
  | some r =>
    if r.nblk ≤ b then s.brineCode q 8 b
    else
      match State.gather q.who {} false (lineParts 40 q.b.toNat (4 * r.elems)) q.b.toNat q.got.length q s with
      | .hold q s f g => s.holdBrine q f false g
      | .dead s => s.brineCode q 2 b
      | .wait q s => s.putBrine q
      | .ok q s2 =>
        let k := r.block b
        match s2.findBlock r b with
        | .lost => (s2.spoil r.rid b).brineCode q 1 b
        | .held g => s2.holdBrine q .rev true g
        | .here a s3 =>
          if q.gotBad || s3.poisoned a 4096 then s3.brineCode q 1 b
          else
            let l := List.zipWith (r.addDelta k.w) (s3.blockVals r a) (numsOf 4 r.elems q.got)
            let hit := l.any fun x => x.2.2
            let fl := l.foldl (fun f x => f ||| x.2.1) 0#5
            let s4 := (s3.putVals r a (l.map (·.1))).updRegion r.rid fun r =>
              { r with ovf := r.ovf || (hit && !r.maxMode), nan := r.nan || (hit && r.maxMode) }
            s4.brineMsg { q with flags := fl.setWidth 7 ||| (if hit && !r.maxMode then 0x40#7 else 0#7) }

/-- Bytes `brd` writes for a block (R336). -/
def brdSize (t : Ty) (e : Nat) : Nat :=
  match t with
  | .f8 => ceilDiv e 48 * 64
  | t => e * (t.width / 8)

/-- Grain blocks of a list of estimates (R337). -/
def packAll : Nat → List FVal → List Byte × FFlags
  | 0, _ => ([], 0#5)
  | n + 1, l =>
    let r := packBlock .f8 (l.take 48 ++ List.replicate (48 - (l.take 48).length) (.fin false 0 0))
    let rest := packAll n (l.drop 48)
    (r.1 ++ rest.1, r.2 ||| rest.2)

/-- The estimates of a block as `brd` writes them (R337): bytes, flags, and whether the mass is too small. -/
def Region.estimates (r : Region) (t : Ty) (w : Nat) (vs : List Nat) : List Byte × FFlags × Bool :=
  if r.under w then (List.replicate (brdSize t r.elems) 0#8, 0#5, true)
  else
    let es := vs.map (r.est w)
    match t with
    | .f8 => let p := packAll (ceilDiv r.elems 48) es; (p.1, p.2, false)
    | t =>
      let l := es.map (FVal.roundTo (t.fmt.getD fmtF32))
      ((l.map fun x => leBytes (t.width / 8) x.1).flatten, l.foldl (fun f x => f ||| x.2) 0#5, false)

/-- `brd` at its engine (R336, R337): one block in each of the engine's steps, so that sweeps and halves interleave (R323, R329). -/
def State.brdRun (t : Ty) (q : BrineCmd) (s : State) : State :=
  let n := q.c.toNat
  let b := bits q.b.toNat 16 24 + q.next
  if q.started ∨ (0 < q.next ∧ n ≤ q.next) then (if q.pend = 0 then s.brineMsg q else s)
  else match (s.region q.rid).filter fun r => r.elems == q.elems with
    | none => s.brineCode q 7 b
    | some r =>
      if n = 0 then s.brineMsg q
      else if r.nblk ≤ b then s.brineCode q 8 b
      else
        let z := brdSize t r.elems
        let g := q.a.toNat + q.next * z
        match State.findSpan q.who nEngWrite (lineParts 80 g z) g s with
        | .hold f g => s.holdBrine q f true g
        | .dead => s.brineCode q 2 b
        | .ok ls s1 =>
          if ls.any fun p => match p.1 with
            | .mem a _ _ _ => s1.chanWaits a
            | _ => false then s1
          else
            let k := r.block b
            let done (q : BrineCmd) (m : Nat) (s : State) : State :=
              let q := { q with next := q.next + 1, pend := q.pend + m, held := none, moved := true }
              if n ≤ q.next ∧ q.pend = 0 then s.brineMsg q else s.putBrine q
            let bad (s : State) : State :=
              let (m, s3) := State.writeSpan q.id q.core true ls (List.replicate z 0#8) s
              done (if q.code = 0 then
                { q with code := 1, d1 := BitVec.ofNat 64 b, d2 := BitVec.ofNat 64 (r.vbase + 4096 * b) } else q) m s3
            let good (q : BrineCmd) (vs : List Nat) (s : State) : State :=
              let (bs, fl, uw) := r.estimates t k.w vs
              let (m, s3) := State.writeSpan q.id q.core false ls bs s
              done { q with flags := q.flags ||| fl.setWidth 7 ||| (if uw then 0x20#7 else 0#7) } m
                (s3.updRegion r.rid fun r => { r with uw := r.uw || uw })
            match s1.findBlock r b with
            | .lost => bad (s1.spoil r.rid b)
            | .held _ => good { q with zeros := true } (List.replicate r.elems 0) (s1.noteDiscard q)
            | .here a s2 => if s2.poisoned a 4096 then bad s2 else good q (s2.blockVals r a) s2

/-! ### Running commands in order (R329) -/

/-- One command that stands first among its core's commands on its region. -/
def State.brineRun (q : BrineCmd) (s : State) : State :=
  match q.ins with
  | .bregNew _ | .bregJoin _ =>
    if q.started then s
    else match q.cand with
      | some r => s.bregRun q r (match q.ins with
          | .bregJoin _ => true
          | _ => false) q.c.toNat
      | none => s.dropBrine q.id
  | .bdrg _ => s.bdrgRun q
  | .badd _ => s.baddRun q
  | .brd t _ => s.brdRun t q
  | .bqryRd _ => s.bqryRun q false
  | .bqryClr _ => s.bqryRun q true
  | .bgrpAdd _ => s.bgrpRun q .add
  | .bgrpRm _ => s.bgrpRun q .rm
  | .bgrpDrop _ => s.bgrpRun q .drop
  | .bholdOn _ => s.bholdRun q true
  | .bholdOff _ => s.bholdRun q false
  | .bstep _ => s.bstepRun q
  | _ => s.dropBrine q.id

/-- No earlier command of its core on its region is still there (R329). -/
def State.brineFirst (s : State) (q : BrineCmd) : Bool :=
  (s.brineQ.find? fun p => p.core == q.core && p.rid == q.rid).any fun p => p.id == q.id

/-- Every command that can move, and every round, once. -/
def State.brinePass (s : State) : State :=
  let s1 := (s.brineQ.map (·.id)).foldl (fun s id =>
    match s.brineQ.find? fun q => q.id == id with
    | some q => if s.brineFirst q && q.held.isNone && !q.moved then s.atPort (.brine id) (State.brineRun q) else s
    | none => s) s
  (s1.rounds.map (·.rid)).foldl (fun s rid => s.atPort (.region rid) (State.stepRound rid)) s1

/-- Lets brine commands and rounds move until none can; a `brd` moves by one block at most (R329). -/
def State.brineGo (s : State) : State :=
  if s.brineQ.isEmpty && s.rounds.isEmpty then s
  else
    let s1 := (List.range (s.brineQ.length + s.rounds.length + 1)).foldl (fun s _ => s.brinePass) s
    { s1 with brineQ := s1.brineQ.map fun q => { q with moved := false } }

/-- The engine of a command has the bytes it asked a peer or the host for (R333, R335). -/
def State.brineRead (id : Nat) (bs : List Byte) (bad : Bool) (s : State) : State :=
  match s.brineQ.find? fun q => q.id == id with
  | none => s
  | some q => (s.putBrine { (q.take bs bad) with asked := false }).brineGo

/-- A read of a command has been turned away: a poisoned part poisons its block; else `badd` ends with DEAD, and `breg` reads
free bytes (DEDUCED, log 31). -/
def State.brineLost (id n : Nat) (bad : Bool) (s : State) : State :=
  let s1 := { s with serial := s.serial + n }
  let free := (List.range n).map fun i => (freeWord (s.serial + i)).setWidth 8
  match s.brineQ.find? fun q => q.id == id with
  | none => s
  | some q =>
    if bad then s1.brineRead id free true
    else match q.ins with
      | .badd _ => (s.brineCode { q with asked := false } 2 (bits q.a.toNat 16 24)).brineGo
      | _ => s1.brineRead id free false

/-! ### The instructions at issue (R331) -/

/-- A selector or RID value is out of range (R331). -/
def selBad (v : Word) : Bool := decide (v &&& 0xFFFFFF000000FFC0#64 ≠ 0#64)

/-- A brine command of the thread that issues. -/
def State.brineCmd (s : State) (i : Instr) (rid : Nat) (a b c : Word) : BrineCmd :=
  { id := s.serial, core := s.thr.core, cxa := s.thr.ctx.cxa, ins := i, rid := rid, a := a, b := b, c := c, task := s.task
    lvlH := s.levelH, slen := s.thr.ctx.slen, join := none }

/-- An engine command of the thread that issues is not complete (R185). -/
def State.countCmd (s : State) : State := s.mapRes fun r => { r with cmds := r.cmds + 1 }

/-- Hands a command to its engine. -/
def State.pushBrine (q : BrineCmd) (s : State) : State :=
  (({ s with serial := s.serial + 1, brineQ := s.brineQ ++ [q] } : State).ungate (s.coreCluster q.core) 2).brineGo

/-- A command with a register result and a RID in B (R334, R342). -/
def ridOp (i : Instr) (op : BitVec 8) (x : Args) (s : State) : Host.Outcome State Fault Refusal :=
  issue x.h (fun s =>
    withSrc x.b s fun v s =>
      withDest x.a s (withStores s
        (if 64 ≤ v.toNat then .ill op 0xD
        else .done ((s.oweX x.a.rix).countCmd.pushBrine (s.brineCmd i v.toNat 0#64 0#64 0#64))))) s

/-- `bdrg` (R334). -/
def execBdrg (x : Args) (s : State) : Host.Outcome State Fault Refusal := ridOp (.bdrg x) 0xC9#8 x s
/-- `bhold.on` (R342). -/
def execBholdOn (x : Args) (s : State) : Host.Outcome State Fault Refusal := ridOp (.bholdOn x) 0xCE#8 x s
/-- `bhold.off` (R342). -/
def execBholdOff (x : Args) (s : State) : Host.Outcome State Fault Refusal := ridOp (.bholdOff x) 0xCE#8 x s

/-- A `bgrp` with a higher CSEQ abandons an uncommitted round at this member (R339). -/
def State.supersede (rid cseq : Nat) (s : State) : State :=
  match s.round rid with
  | some d =>
    if d.cseq < cseq ∧ (s.region rid).isSome then
      (({ s with abandoned := s.abandoned ++ [d] }).updRegion rid fun r => { r with roundHold := false }).endRound d 15
    else s
  | none => s

/-- `bgrp` (R339). -/
def grpOp (i : Instr) (x : Args) (s : State) : Host.Outcome State Fault Refusal :=
  issue x.h (fun s =>
    withSrc x.b s fun v s => withSrc x.c s fun g s =>
      withDest x.a s (withStores s
        (if 64 ≤ v.toNat ∨ g &&& 0x0000FFFE0000FFC0#64 ≠ 0#64 then .ill 0xCD#8 0xD
        else
          let s := s.supersede v.toNat (bits g.toNat 48 16)
          .done ((s.oweX x.a.rix).countCmd.pushBrine (s.brineCmd i v.toNat 0#64 0#64 g))))) s

/-- `bgrp.add` (R339). -/
def execBgrpAdd (x : Args) (s : State) : Host.Outcome State Fault Refusal := grpOp (.bgrpAdd x) x s
/-- `bgrp.rm` (R339). -/
def execBgrpRm (x : Args) (s : State) : Host.Outcome State Fault Refusal := grpOp (.bgrpRm x) x s
/-- `bgrp.drop` (R339, R340). -/
def execBgrpDrop (x : Args) (s : State) : Host.Outcome State Fault Refusal := grpOp (.bgrpDrop x) x s

/-- `bqry` (R338). -/
def qryOp (i : Instr) (x : Args) (s : State) : Host.Outcome State Fault Refusal :=
  issue x.h (fun s =>
    withSrc x.b s fun v s => withSrc x.c s fun code s =>
      withDests 2 x.a.rix s (withStores s
        (if selBad v then .ill 0xCC#8 0xD
        else
          let s1 := ((s.oweX x.a.rix).oweX (x.a.rix + 1#4)).countCmd
          .done (s1.pushBrine (s1.brineCmd i (bits v.toNat 0 6) 0#64 v code))))) s

/-- `bqry.rd` (R338). -/
def execBqryRd (x : Args) (s : State) : Host.Outcome State Fault Refusal := qryOp (.bqryRd x) x s
/-- `bqry.clr` (R338). -/
def execBqryClr (x : Args) (s : State) : Host.Outcome State Fault Refusal := qryOp (.bqryClr x) x s

/-- `bstep` (R343). -/
def execBstep (x : Args) (s : State) : Host.Outcome State Fault Refusal :=
  issue x.h (fun s =>
    withSrc x.b s fun v s => withSrc x.c s fun t s =>
      withDest x.a s (withStores s
        (if selBad v ∨ 64 ≤ t.toNat then .ill 0xCF#8 0xD
        else .done ((s.oweX x.a.rix).countCmd.pushBrine (s.brineCmd (.bstep x) (bits v.toNat 0 6) 0#64 v t))))) s

/-- A span of an operand in one region (R141), or none to check. -/
def withOpSpan (nd : Need) (ea : Word) (n align : Nat) (s : State) (k : Nat → Eff) : Eff :=
  if n = 0 then k 0
  else withGva nd ea n align s fun g => if s.area s.levelH nd g n = .none then .trap tSEG 0#8 ea else k g

/-- Elements of a block of the region at a RID, as a command of the core that issues will find it: one that the core's own `breg` still
registers goes before one that is registered (R329, DESIGN CHOICE, log 63); 0 where there is none. -/
def State.elemsAt (s : State) (rid : Nat) : Nat :=
  let own := (s.brineQ.filter fun q => q.core == s.thr.core && q.rid == rid).filterMap (·.cand)
  ((own.getLast?.or (s.region rid)).map Region.elems).getD 0

/-- `badd` (R335). -/
def execBadd (x : Args) (s : State) : Host.Outcome State Fault Refusal :=
  issue x.h (fun s =>
    withSrc x.a s fun v s => withEa x.b x.c s fun ea s =>
      withStores s
        (if selBad v then .ill 0xCA#8 0xD
        else
          let e := s.elemsAt (bits v.toNat 0 6)
          withOpSpan { r := true, e := true } ea (Nat.max 4 (4 * e)) 4 s fun g =>
            let (j, s) := s.joinTag
            .done (s.pushBrine { (s.brineCmd (.badd x) (bits v.toNat 0 6) v (BitVec.ofNat 64 g) 0#64) with join := j, elems := e }))) s

/-- `brd` (R336). -/
def execBrd (t : Ty) (x : Args) (s : State) : Host.Outcome State Fault Refusal :=
  issue x.h (fun s =>
    withSrc x.a s fun d s => withSrc x.b s fun v s => withSrc x.c s fun n s =>
      withStores s
        (if selBad v ∨ 2 ^ 24 ≤ n.toNat then .ill 0xCB#8 0xD
        else
          let e := s.elemsAt (bits v.toNat 0 6)
          let z := brdSize t e
          withOpSpan { w := true, e := true, write := true, kind := 1 } d (n.toNat * z) (match t with
            | .f32 => 4
            | .b16 => 2
            | _ => 64) s fun g =>
            let (j, s) := s.joinTag
            .done (s.pushBrine { (s.brineCmd (.brd t x) (bits v.toNat 0 6) (BitVec.ofNat 64 g) v n) with join := j, elems := e }))) s

/-! ### `breg` at issue (R315-R317, R333, R344) -/

/-- One more piece of what an instruction reads before it acts: from what has arrived already, from a home, or from a peer or
the host, after which the instruction is issued again. -/
def withChunk (reg : BitVec 4) (nd : Need) (ea : Word) (n align : Nat) (pre acc : List Byte) (s : State)
    (k : List Byte → List Byte → List Byte → State → Eff) : Eff :=
  if n ≤ pre.length then k (pre.take n) (pre.drop n) (acc ++ pre.take n) s
  else
    withAccess nd ea n align false s fun ls s =>
      let s1 := s.mapRes fun r => { r with record := some acc }
      match ls with
      | (.peer p w o, _) :: _ =>
        withFar p s1 fun s => .again ((s.sendPeer false reg ea p w o 0x01 0 n []).awaitReply .record ea false 0#16)
      | (.host o, _) :: _ => withOrder hostHome s1 fun s => .again ((s.hostRead o n).awaitReply .record ea false 0#16)
      | ls => withRead 0#2 false (fun reason _ _ => .trap tPOI reason ea) ls s fun bs s => k bs [] (acc ++ bs) (s.noteZeros ls)

/-- A descriptor whose own fields break R315. -/
def bregBad (bs : List Byte) : Bool :=
  let w (o : Nat) : Nat := at' bs o 8
  let geom := w 0x10
  let grp := w 0x18
  let pace := w 0x20
  let c2 := w 0x38
  let f32 := bits geom 24 2 == 1
  let rl := bits c2 8 7
  decide (w 8 % 8 ≠ 0) || decide (bits geom 0 24 = 0) || decide (1 < bits geom 24 2) || (bit geom 26 && !f32)
    || decide (62 < bits geom 32 6) || (f32 && bits geom 32 6 != 0) || decide (56 < bits geom 40 6)
    || decide (bits geom 28 4 ≠ 0) || decide (bits geom 38 2 ≠ 0) || decide (bits geom 46 2 ≠ 0) || decide (bits geom 54 2 ≠ 0)
    || decide (bits geom 62 2 ≠ 0) || decide (bits grp 12 8 = 0) || decide (bits grp 20 12 ≠ 0) || decide (bits grp 48 16 ≠ 0)
    || decide (bits pace 32 4 = 0) || decide (bits pace 36 4 ≠ 0) || decide (bits pace 40 16 = 0) || decide (bits pace 56 8 ≠ 0)
    || decide (bits c2 0 7 = 0) || decide (64 < bits c2 0 7) || decide (64 < rl) || bit c2 7 || decide (bits c2 15 49 ≠ 0)
    || (rl == 0 && w 0x40 != 0) || decide (w 0x48 % 8 ≠ 0) || (bs.drop 0x50).any (· != 0#8)

/-- VBASE is not the GVA of a page's multiple of 4,096 in paged space, or CBASE no multiple of 4,096 (R315). -/
def State.basesBad (s : State) (ts : TaskSet) (nd : Need) (bs : List Byte) : Bool :=
  let gva (v : Word) : Nat := bits (ts.seg (bits v.toNat 61 3)).1.toNat 0 56 + bits v.toNat 0 61
  let v := gva (wordAt bs 0)
  decide (v % 4096 ≠ 0) || decide (s.area s.levelH nd v 1 ≠ .paged) || decide (gva (wordAt bs 0x30) % 4096 ≠ 0)

/-- The region that a descriptor, a member table and a rota describe; its spans and blocks are still to be filled in. -/
def regionOf (bs tab rota : List Byte) (s : State) : Region :=
  let w (o : Nat) : Nat := at' bs o 8
  let geom := w 0x10
  let pace := w 0x20
  { rid := bits geom 48 6, id := bits (w 0x18) 0 12, gen := bits (w 0x18) 12 8, ver := 0, task := s.task, lvlH := s.levelH
    core := s.thr.core, nblk := bits geom 0 24, f32 := bits geom 24 2 == 1, maxMode := bit geom 26, sparse := bit geom 27
    fpt := bits geom 32 6, upt := bits geom 40 6, self := bits geom 56 6, sper := bits pace 0 24, dens := bits pace 24 8
    retry := bits pace 32 4, tout := bits pace 40 16, minw := w 0x28, vbase := 0, mbase := 0, cbase := 0
    custn := bits (w 0x38) 0 7, rota := rota.map (·.toNat), table := (numsOf 8 64 tab).map (BitVec.ofNat 64), bnom := 0, k := 0
    bdis := 0#32, bdisc := 0#32, ovf := false, uw := false, nan := false, pblk := false, stale := 0, hold := false
    roundHold := false, committed := false, stepped := 0#64, blocks := [] }

/-- A member table or a rota that breaks R315 or R316. -/
def Region.tablesBad (r : Region) : Bool :=
  r.rota.any (fun i => decide (63 < i)) || r.table.any (fun e => decide (e &&& 0x7FFFFFFFFFFE0000#64 ≠ 0#64))
    || !r.valid r.self || !entLocal (r.table.getD r.self 0#64) || entRid (r.table.getD r.self 0#64) != r.rid

/-- Translates the first byte of each block to find its serving engine (R317); a block with no home is served by none, and is bad. -/
def withBlocks (ea : Word) (g : Nat) : Nat → Nat → State → (List RBlock → State → Eff) → Eff
  | 0, _, s, k => k [] s
  | n + 1, b, s, k =>
    withLoc nEngWrite (ea + BitVec.ofNat 64 (4096 * b)) (g + 4096 * b) 1 false s fun l s =>
      let e : RBlock := match l with
        | .mem _ h _ _ => ⟨if h < nCores then s.coreCluster h else noHome, 0, s.homeDead h⟩
        | _ => ⟨noHome, 0, true⟩
      withBlocks ea g n (b + 1) s fun l s => k (e :: l) s

/-- The custody parts of the serving clusters (R344). -/
def withCustody (nd : Need) (ea : Word) (custn : Nat) : List Nat → State → Eff → Eff
  | [], _, k => k
  | c :: cs, s, k =>
    withOpSpan nd (ea + BitVec.ofNat 64 (c * custn * 4096)) (custn * 4096) 1 s fun _ => withCustody nd ea custn cs s k

/-- `breg` (R333). -/
def bregOp (i : Instr) (x : Args) (s : State) : Host.Outcome State Fault Refusal :=
  issue x.h (fun s =>
    withEa x.b x.c s fun ea s =>
      withDest x.a s (withStores s
        (withChunk x.a.rix nLoad ea 128 128 (s.thr.res.record.getD []) [] s fun bs pre acc s =>
          if bregBad bs then .ill 0xC8#8 0xD
          else
            withChunk x.a.rix nLoad (wordAt bs 0x48) 256 8 pre acc s fun t1 pre acc s =>
              withChunk x.a.rix nLoad (wordAt bs 0x48 + 256#64) 256 8 pre acc s fun t2 pre acc s =>
                withChunk x.a.rix nLoad (wordAt bs 0x40) (bits (at' bs 0x38 8) 8 7) 1 pre acc s fun rota _ _ s =>
                  let r := regionOf bs (t1 ++ t2) rota s
                  let nd : Need := { r := true, w := true, e := true, write := true, kind := 1 }
                  let ndp : Need := { nd with host := false, far := false }
                  match s.cachedSet s.thr.core s.task with
                  | none => .again (s.lend .segset)
                  | some ts =>
                    if r.tablesBad || s.basesBad ts ndp bs then .ill 0xC8#8 0xD
                    else
                      withOpSpan ndp (wordAt bs 0) (r.nblk * 4096) 1 s fun v =>
                        withOpSpan nd (wordAt bs 8) (r.nblk * 8) 1 s fun m =>
                          withBlocks (wordAt bs 0) v r.nblk 0 s fun bl s =>
                            withCustody nd (wordAt bs 0x30) r.custn (((bl.map (·.cl)).eraseDups).filter (· ≠ noHome)) s
                              (let cb := wordAt bs 0x30
                               let cg := bits (ts.seg (bits cb.toNat 61 3)).1.toNat 0 56 + bits cb.toNat 0 61
                               let r := { r with vbase := v, mbase := m, cbase := cg, blocks := bl }
                               let s := ((s.mapRes fun q => { q with record := none }).oweX x.a.rix).countCmd
                               let q := s.brineCmd i r.rid 0#64 0#64 (BitVec.ofNat 64 (bits (at' bs 0x18 8) 32 16))
                               .done (s.pushBrine { q with cand := some r }))))) s

/-- `breg.new` (R333). -/
def execBregNew (x : Args) (s : State) : Host.Outcome State Fault Refusal := bregOp (.bregNew x) x s
/-- `breg.join` (R333). -/
def execBregJoin (x : Args) (s : State) : Host.Outcome State Fault Refusal := bregOp (.bregJoin x) x s

/-! ### The engines' own steps -/

/-- Sends of one sweep step, block after block (R319). -/
def State.sweepBlocks (rid : Nat) : Nat → Nat → State → State
  | 0, _, s => s
  | n + 1, b, s =>
    match s.region rid with
    | none => s
    | some r =>
      let t := r.rotaAt b
      if t = r.self ∨ !r.valid t ∨ (r.block b).bad then State.sweepBlocks rid n (b + 1) s
      else match s.sendBlock r b t false true none with
        | .sent _ s1 => State.sweepBlocks rid n (b + 1) s1
        | .poisoned s1 => State.sweepBlocks rid n (b + 1) s1
        | .blocked => State.sweepBlocks rid n (b + 1) s
        | .held g => State.sweepBlocks rid n (b + 1) (s.awaitRevival rid (r.block b).cl g)

/-- `BRINE_SWEEP_STEP` (R319): a step starts when its period has passed and every send of the previous one is over. -/
def execBrineSweepStep (rid : Nat) (s : State) : Host.Outcome State Fault Refusal :=
  .next
    (match s.region rid with
    | none => s
    | some r =>
      let now := s.now r.core
      if r.sper ≠ 0 ∧ r.sper * 1024 ≤ (now - r.stepped).toNat ∧ !((s.custOf rid).any fun c => c.2.sweep) then
        (s.atPort (.region rid) fun s =>
          let s1 := s.updRegion rid fun r => { r with bdis := r.bdisc, bdisc := 0#32, stepped := now }
          let s2 := if r.hold || r.roundHold then s1 else State.sweepBlocks rid r.nblk 0 s1
          s2.updRegion rid fun r => { r with k := r.k + 1 }).brineGo
      else s)

/-- `BRINE_HALF_ARRIVE` (R321): one of this device takes a reassembly buffer, or is dropped (R327). -/
def execBrineHalfArrive (k : Nat) (s : State) : Host.Outcome State Fault Refusal :=
  .next
    (match s.halves[k]? with
    | some h =>
      let s1 := match s.region h.rid with
        | some r => s.ungate (r.block h.blk).cl 2
        | none => s
      if h.remote.isNone && s1.buffersFull (s1.blockEngine h.rid h.blk) then { s1 with halves := dropAt k s1.halves }
      else (s1.atPort (.region h.rid) fun s => ({ s with halves := dropAt k s.halves }).receiveHalf h).brineGo
    | none => s)

/-- The custody slot an answer is about: the use of it that sent the half, so that a late duplicate is about none (R324). -/
def State.custFor (s : State) (a : BAnswer) : Option CustSlot :=
  (s.slotsOf a.cluster a.rid).find? fun c => c.target == a.target && c.seq == a.seq && c.ser == a.ser

/-- An answer reclaims its slot (R322); where the block is on a discarded page, the answer waits for that (R150). -/
def State.reclaimFor (k : Nat) (a : BAnswer) (c : CustSlot) (s : State) : State :=
  (s.atPort (.region a.rid) fun s =>
    let s1 := s.custBack a.cluster c
    if s1.custFreed a.cluster c then { s1 with answers := dropAt k s1.answers } else s1).brineGo

/-- An earlier answer about the same half is still on its way. -/
def State.answerAhead (s : State) (k : Nat) (a : BAnswer) : Bool :=
  (s.answers.take k).any fun b => b.rid == a.rid && b.cluster == a.cluster && b.target == a.target && b.seq == a.seq

/-- `BRINE_ANSWER` (R322): ACK frees the slot, NAK STALE or UNCORR reclaims it, NAK DEAD starts RECALL. -/
def execBrineAnswer (k : Nat) (s : State) : Host.Outcome State Fault Refusal :=
  .next
    (match s.answers[k]? with
    | none => s
    | some a =>
      if s.answerAhead k a then s
      else
        let s1 := { s with answers := dropAt k s.answers }
        match a.ans, s.custFor a with
        | .ack, some c => (s1.custDone a.cluster c).brineGo
        | .nak e, some c =>
          if c.rcl then s1
          else if e = pDEAD.toNat then
            match s1.regions.find? fun r => r.rid == a.rid with
            | some r =>
              let c1 := { c with rcl := true, since := s1.nowAt a.cluster }
              (s1.setCluster a.cluster fun q =>
                { q with custody := mapFirst (fun d => d.rid == c.rid && d.slot == c.slot) (fun _ => c1) q.custody }).sendRecall r a.cluster c1
            | none => s1
          else s.reclaimFor k a c
        | .ack, none | .nak _, none => s1
        | _, _ => s)

/-- `BRINE_RECALL_ANSWER` (R322, R341): APPLIED frees the slot, VOID and STALE reclaim it. -/
def execBrineRecallAnswer (k : Nat) (s : State) : Host.Outcome State Fault Refusal :=
  .next
    (match s.answers[k]? with
    | none => s
    | some a =>
      if s.answerAhead k a then s
      else
        let s1 := { s with answers := dropAt k s.answers }
        match a.ans, s.custFor a with
        | .applied, some c => (s1.custDone a.cluster c).brineGo
        | .void, some c | .stale, some c => s.reclaimFor k a c
        | .applied, none | .void, none | .stale, none => s1
        | _, _ => s)

/-- `BRINE_SLOT_TIMEOUT` (R322): the slot-th custody slot in use at a cluster resends, or goes to RECALL. -/
def execBrineSlotTimeout (cluster slot : Nat) (s : State) : Host.Outcome State Fault Refusal :=
  .next
    (match (s.cluster cluster).custody[slot]? with
    | none => s
    | some c =>
      match s.regions.find? fun r => r.rid == c.rid with
      | none => s
      | some r =>
        let now := s.nowAt cluster
        let upd (c : CustSlot) (s : State) : State :=
          s.setCluster cluster fun q =>
            { q with custody := mapFirst (fun d => d.rid == c.rid && d.slot == c.slot) (fun _ => c) q.custody }
        if (now - c.since).toNat < r.tout * 1024 then s
        else if !c.rcl && decide (c.resends < r.retry) then
          let c1 := { c with resends := c.resends + 1, since := now }
          s.atPort (.region r.rid) fun s => (upd c1 s).resendHalf r cluster c1
        else
          let c1 := { c with rcl := true, since := now }
          (upd c1 s).sendRecall r cluster c1)

/-- `BRINE_RECALL_RECEIVE` (R322, R327). -/
def execBrineRecallReceive (k : Nat) (s : State) : Host.Outcome State Fault Refusal :=
  .next
    (match s.recalls[k]? with
    | some q =>
      let s1 : State := { s with recalls := dropAt k s.recalls }
      if q.remote.isNone && s.buffersFull (s.blockEngine q.rid q.blk) then s1 else s1.receiveRecall q
    | none => s)

/-- A membership message of another generation of its group is dropped, counted, and answered NAK STALE where another device sent it
(R341). -/
def State.staleMemb (rid : Nat) (pkt : List Byte) (s : State) : State :=
  let s1 := s.countStale rid
  if pkt = [] then s1 else s1.answerPeer pkt 0x12 pSTALE.toNat []

/-- `BRINE_PROPOSE_RECEIVE` (R339): a PROPOSE of the round is held; one of a committed round is answered with STATE; one of
another group or generation is dropped (R341); any other stays on its way. -/
def execBrineProposeReceive (k : Nat) (s : State) : Host.Outcome State Fault Refusal :=
  .next
    (match s.proposals[k]? with
    | none => s
    | some p =>
      let s1 := { s with proposals := dropAt k s.proposals }
      match s.roundRegion p.rid with
      | none => s
      | some r =>
        if r.id ≠ p.id then (if p.pkt = [] then s1 else s1.answerPeer p.pkt 0x12 pSTALE.toNat [])
        else if r.gen ≠ p.gen then s1.staleMemb p.rid p.pkt
        else match (s.round p.rid).filter fun d => d.cseq == p.cseq with
          | some d => if d.held.any fun e => e.frm == p.frm then s1 else (s1.putRound { d with held := d.held ++ [{ p with pkt := [] }] }).brineGo
          | none =>
            match s.done.find? fun e => e.1 == p.rid && e.2.1 == p.cseq with
            | some e => s1.sendMemb r (r.table.getD p.frm 0#64) 1 e.2.2
            | none => s)

/-- `BRINE_STATE_RECEIVE` (R339): it completes the member's round at once, or commits a superseded one first; one of another group
or generation is dropped (R341). -/
def execBrineStateReceive (k : Nat) (s : State) : Host.Outcome State Fault Refusal :=
  .next
    (match s.states[k]? with
    | none => s
    | some (rid, msg) =>
      let s1 := { s with states := dropAt k s.states }
      let ps := msg.map fun p => { p with pkt := [] }
      let pkt := ((msg.head?).map (·.pkt)).getD []
      let cseq := ((ps.head?).map (·.cseq)).getD 0
      let cur := s1.round rid
      if !((s1.roundRegion rid).any fun r => ps.all fun p => p.id == r.id) then
        (if pkt = [] then s1 else s1.answerPeer pkt 0x12 pSTALE.toNat [])
      else if !((s1.roundRegion rid).any fun r => ps.all fun p => p.gen == r.gen) then s1.staleMemb rid pkt
      else
      match cur.filter fun d => d.cseq == cseq with
      | some d => (s.atPort (.region rid) fun s => ({ s with states := dropAt k s.states }.commitRound d ps).endRound d 0).brineGo
      | none =>
        match s1.abandoned.find? fun d => d.rid == rid && d.cseq == cseq && (s1.region rid).any fun r => r.ver == d.ver with
        | some d =>
          (s.atPort (.region rid) fun s =>
            let s1 := { s with states := dropAt k s.states }
            let s2 := { (s1.commitRound d ps) with abandoned := s1.abandoned.filter fun e => !(e.rid == rid && e.cseq == cseq) }
            match cur with
            | some c =>
              let me := ((s2.region rid).map fun (r : Region) => r.self).getD 64
              (s2.putRound { c with sent := false, held := c.held.filter fun p => p.frm != me }).updRegion
                rid fun r => { r with roundHold := true }
            | none => s2).brineGo
        | none => s1)

/-- `BRINE_PROPOSE_RESEND` (R339): PROPOSE goes again to every participant that has not answered. -/
def execBrineProposeResend (rid : Nat) (s : State) : Host.Outcome State Fault Refusal :=
  .next
    (match s.round rid, s.roundRegion rid with
    | some d, some r =>
      let now := s.now r.core
      if d.sent && decide (r.tout * 1024 ≤ (now - d.since).toNat) then
        let own := (d.held.find? fun p => p.frm == r.self).getD (s.proposal d r)
        (s.putRound { d with since := now }).propose d r own fun i => !d.held.any fun p => p.frm == i
      else s
    | _, _ => s)

/-- The engines of a region try again what waits for a discarded page (R150). -/
def State.retryMass (r : Region) (s : State) : State :=
  let still (p : Nat × Word) : Bool := s.discarded (r.who s (s.coreCluster r.core)) p.1 1
  let now := s.now r.core
  r.due.foldl (fun s b => s.writeMass r b (r.block b).w)
    (s.updRegion r.rid fun r => { r with due := [], revs := r.revs.filter still, tried := now })

/-- Something of a region waits for a discarded page, and 4,096 cycles have passed since it was last tried. -/
def State.massWaits (s : State) (cluster : Nat) (r : Region) : Bool :=
  s.coreCluster r.core == cluster && !(r.due.isEmpty && r.revs.isEmpty) && decide (4096 ≤ (s.now r.core - r.tried).toNat)

/-- `BRINE_HOLD_RETRY` (R329): commands of a cluster's cores that are held try their translation again, and those that are not go on; so do
engines that wait for a discarded page (R150). -/
def execBrineHoldRetry (cluster : Nat) (s : State) : Host.Outcome State Fault Refusal :=
  .next
    ((s.brineQ.map (·.id)).foldl (fun s id =>
      match s.brineQ.find? fun q => q.id == id with
      | some q =>
        match q.held with
        | some (t, _) =>
          if s.coreCluster q.core == cluster && decide (4096 ≤ (s.now q.core - t).toNat) then
            let s1 := s.atPort (.brine id) (State.brineRun q)
            match s1.brineQ.find? fun p => p.id == id with
            | some p => if p.held = q.held then s1.putBrine { p with held := none } else s1
            | none => s1
          else s
        | none => s
      | none => s) ((s.regions.filter (s.massWaits cluster)).foldl (fun s r => s.atPort (.region r.rid) (State.retryMass r)) s)).brineGo

end Sys2Proof.Machine
end

