-- ==== Sys2Proof/Machine/System.lean ====
section
/-! DEFINITION. The system instructions of row 0xE (R346-R375): leaving level H, TLB generations, the core map, waking
dropped threads, partition switches, saving and pre-empting threads, finishing walks, and halting cores. -/

namespace Sys2Proof.Machine

open Config

/-- A status result (R363): 0 DONE, 1 NONE, 2 BOUND, 3 PINNED, 4 NOTHALT, 5 NOSPACE, 6 BUSY, 7 REFUSED. -/
def statusWord (code val : Nat) : Word := field code 0 ||| field val 32

/-- Every instruction of rows 0xE and 0xF first waits until its own PEND.STC = 0 (R363, R391). -/
def issueSys (x : Args) (body : State → Eff) (s : State) : Host.Outcome State Fault Refusal :=
  issue x.h (fun s => withStores s (body s)) s

/-- Ends an instruction with a change that may befall the thread that issues: its PC has then advanced before it. -/
def doneThen (f : State → State) (s : State) : Eff :=
  let s1 := f s
  if s1.thr.slot = s.thr.slot ∧ s1.thr.ctx.cxa = s.thr.ctx.cxa then .done s1
  else .stay (f ((s.setPc (s.pc + 12#64)).mapThr fun t => { t with waitOn := none }))

/-! ### sret (R364) -/

/-- The bits of ST that `sret` takes from X[C] (R53, R364): GRP is kept, and reserved bits are 0. -/
def sretMask : Word := 0x00000000FFFF07FF#64

/-- `sret` (R364). -/
def execSret (x : Args) (s : State) : Host.Outcome State Fault Refusal :=
  issueSys x (fun s =>
    withSrc x.b s fun pc s => withSrc x.c s fun st s =>
      if pc.toNat % 4 ≠ 0 then .ill 0xE0#8 0xD
      else if st.toNat % 4 ≠ 0 then .ill 0xE0#8 0xD
      else .jump (s.setSt ((st &&& sretMask) ||| (s.st &&& 0x0000FFFF00000000#64))) pc) s

/-! ### tlbi and tlbw (R365, R366) -/

/-- The selector of `tlbi`; none where it is out of range (R365). -/
def tlbSel (v : Word) : Option TlbSel :=
  if bits v.toNat 55 7 ≠ 0 then none
  else match bits v.toNat 62 2 with
    | 0 => some .all
    | 1 => some (.task (v.extractLsb' 0 16))
    | 2 => some (.page (v.extractLsb' 0 16) (bits v.toNat 16 39 * 2 ^ 16))
    | _ => none

/-- `tlbi` (R357, R365). -/
def execTlbi (sc : TlbScope) (x : Args) (s : State) : Host.Outcome State Fault Refusal :=
  issueSys x (fun s =>
    withSrc x.b s fun k s => withSrc x.c s fun v s =>
      if 512 ≤ k.toNat then .ill 0xE1#8 0xD
      else match tlbSel v with
        | none => .ill 0xE1#8 0xD
        | some sel =>
          withDest x.a s
            (let s1 := s.startGen (scopeClusters sc k.toNat) sel
             .done (s1.writeX x.a.rix (s1.tgen.setWidth 64)))) s

/-- `tlbw` (R366). -/
def execTlbw (sc : TlbScope) (x : Args) (s : State) : Host.Outcome State Fault Refusal :=
  issueSys x (fun s =>
    withSrc x.b s fun k s => withSrc x.c s fun g s =>
      if 512 ≤ k.toNat then .ill 0xE2#8 0xD
      else
        withDest x.a s
          (if s.tgen.toNat < g.toNat then .done (s.writeX x.a.rix (statusWord 7 0))
           else if s.genBusy (scopeClusters sc k.toNat) g.toNat then .park (.tlbw sc k.toNat (g.setWidth 32))
           else .done (s.writeX x.a.rix (statusWord 0 0)))) s

/-! ### The core map (R367, R407, R414) -/

/-- Storage holds of a dirty line what was last written back (R407), with its full/empty bits and its poison (R398). -/
def State.restoreLine (l : L2Line) (s : State) : State :=
  let other (w : Nat) : Bool := w / 16 != l.addr
  { s with
    mem := l.back.bytes.foldl (fun m c => Memory.write m c.1 [c.2]) (Memory.write s.mem (128 * l.addr) (List.replicate 128 0#8))
    empties := l.back.empties.foldl (fun e w => insertNat w e) (s.empties.filter other)
    poison := l.back.poison.foldl (fun e w => insertNat w e) (s.poison.filter other) }

/-- Dirty lines of a core's L2 slice are lost (R407). -/
def State.loseLines (core : Nat) (s : State) : State :=
  (((s.core core).l2.filter (·.dirty)).foldl (fun s l => s.restoreLine l) s).setCore core fun c => { c with l2 := [] }

/-- A thread of a dead core is lost (R367): its group counts it as exited (R414), its population does not (R86). -/
def State.loseThr (t : Thread) (s : State) : State :=
  ((s.orphan t.core t.ctx.cxa).removeThr t.core t.ctx.cxa).exitGroup t

/-- A thread of a dead core's saved set is lost likewise (R369, R414). -/
def State.loseSaved (core : Nat) (t : Thread) (s : State) : State := (s.orphan core t.ctx.cxa).exitGroup { t with core := core }

/-- Every request that a dead home holds is turned away (R193, R404), the watch of a deadline unit too (R387). -/
def State.nakWaiters (core : Nat) (s : State) : State :=
  let s1 := (s.waiters.filter fun w => w.home == core).foldl (fun s w => w.nak pDEAD s)
    { s with waiters := s.waiters.filter fun w => w.home != core }
  s1.mapWaits (fun _ _ w => w.2.1 == core) |>.mapDeadlines fun _ u => some (if (u.place.any fun p => p.2 == core) then { u with place := none } else u)

/-- The core stops serving: its threads, its engines' commands and its open term are lost (R367, R404, R418); pan commands already
admitted run to completion (R269). -/
def State.loseCore (core : Nat) (s : State) : State :=
  let s0 := (s.attached core).foldl (fun s t => s.loseThr t) s
  let s1 := (s0.core core).saved.threads.foldl (fun s t => s.loseSaved core t) s0
  let s2 := (s1.loseLines core).nakWaiters core
  ((s2.closeTerm core).dropRecs core).setCore core fun c =>
    { c with runq := [], joins := [], copies := [], streamQ := [], near := [], mbox := [], saved := {}, sets := [] }

/-- The bytes of storage in a range read as zero, and their words are full (R146, R407). -/
def State.zeroRange (a n : Nat) (s : State) : State :=
  let out (w : Nat) : Bool := !(decide (a / 8 ≤ w) && decide (w < (a + n) / 8))
  { s with
    mem := s.mem.filter fun c => !(decide (a ≤ c.1) && decide (c.1 < a + n))
    empties := s.empties.filter out
    poison := s.poison.filter out }

/-- An entry of the core map as `cmap.rd` reads it (R367). -/
def mapWord (e : MapState × Nat × Nat) : Word :=
  field (match e.1 with | .live => 0 | .dead => 1 | .unmapped => 2) 62 ||| field e.2.1 5 ||| field e.2.2 0

/-- The logical number of a spare position of a die, when the position is one and is in service nowhere (R12, R367). -/
def State.spareAt (s : State) (die x y : Nat) : Option Nat :=
  let m := 64 * y + x
  if isSpare m && posDie x y == die && decide (s.mapEntry m = (.live, x, y)) then some m else none

/-- The thread runs in slot 7, on the walker's own line, which is no part of a saved set (R73, R360). -/
def Thread.isWalker (t : Thread) : Bool := decide (t.place = .walker) || decide (t.slot = some 7)

/-- The translation walker of a core: the hearth firmware's context in slot 7, on the walker's own line, which waits for a miss (R13, R73,
R355). Its PC, its CXA and the register that takes the miss are free (DESIGN CHOICE, log 43). -/
def walkerOf (core n : Nat) : Thread :=
  let r : BitVec 4 := (freeWord n).setWidth 4
  { ctx := { pc := freeWord (n + 1) &&& ~~~3#64, st := 3#64, cxa := freeWord (n + 2) &&& 0x00FFFFFFFFFFFF00#64
             fe := ~~~BitVec.ofNat 16 (2 ^ r.toNat), owe := BitVec.ofNat 16 (2 ^ r.toNat) }
    core := core, slot := some 7, place := .walker, wait := .mailbox core r, stamp := n }

/-- A core begins to run its walker, unless it has one. -/
def State.startWalker (core : Nat) (s : State) : State :=
  if (s.attached core).any Thread.isWalker then s
  else { s with pool := s.pool ++ [walkerOf core s.serial], serial := s.serial + 3 }

/-- A logical core moves to a spare position, where its walker starts (R13, R367, R407, R268, R192); what its old pan has admitted is done before (R269). -/
def State.remap (n m x y : Nat) (s : State) : State :=
  let away (k : Nat) (l : List ((Nat × Bool) × Nat)) := l.filter fun e => e.1.1 != k
  let s := s.drainPan n
  let s1 := { s with
    coreMap := put n (.live, x, y) (put m (.unmapped, x, y) s.coreMap)
    cores := (cut n s.cores).map fun (c : Nat × CoreSt) => (c.1, { c.2 with expect := away n c.2.expect, sendSeq := away n c.2.sendSeq }) }
  let s2 := s1.zeroRange (coreAddr n 0) 0x100000
  (s2.setCluster (s2.coreCluster n) fun c => { c with accs := c.accs.filter fun a => a.pos != s2.panPos n }).startWalker n

/-- Sets STATE of an entry of the core map. -/
def State.mapState (n : Nat) (st : MapState) (s : State) : State := { s with coreMap := put n (st, (s.mapEntry n).2) s.coreMap }

/-- `cmap.map` (R367). -/
def execCmapMap (x : Args) (s : State) : Host.Outcome State Fault Refusal :=
  issueSys x (fun s =>
    withSrc x.b s fun n s => withSrc x.c s fun v s =>
      if nCores ≤ n.toNat ∨ 0x800 ≤ v.toNat then .ill 0xE3#8 0xD
      else
        withDest x.a s
          (let e := s.mapEntry n.toNat
           let px := bits v.toNat 5 6
           let py := bits v.toNat 0 5
           match (if e.1 = .dead then s.spareAt (posDie e.2.1 e.2.2) px py else none) with
           | some m => .done ((s.remap n.toNat m px py).writeX x.a.rix (statusWord 0 0))
           | none => .done (s.writeX x.a.rix (statusWord 7 0)))) s

/-- `cmap.dead` (R367). -/
def execCmapDead (x : Args) (s : State) : Host.Outcome State Fault Refusal :=
  issueSys x (fun s =>
    withSrc x.b s fun n s =>
      if nCores ≤ n.toNat then .ill 0xE3#8 0xD
      else
        withDest x.a s
          (if isHearth n.toNat then .done (s.writeX x.a.rix (statusWord 7 0))
           else
             doneThen (fun s => (s.loseCore n.toNat).mapState n.toNat .dead) (s.writeX x.a.rix (statusWord 0 0)))) s

/-- `cmap.rd` (R367). -/
def execCmapRd (x : Args) (s : State) : Host.Outcome State Fault Refusal :=
  issueSys x (fun s =>
    withSrc x.b s fun n s =>
      if nCores ≤ n.toNat then .ill 0xE3#8 0xD
      else withDest x.a s (.done (s.writeX x.a.rix (mapWord (s.mapEntry n.toNat))))) s

/-! ### Waking dropped threads (R346, R351, R368) -/

/-- The cores a bitmap of a band names (R199). -/
def State.bandCores (s : State) (band : Nat) (bitmap : Word) : List Nat :=
  (membersOf bitmap.toNat 64).filterMap fun i => s.coreAtPos (32 * (band % 2) + i % 32) (2 * (band / 2) + i / 32)

/-- What the WAKEs of a `wkx` carry (R347, R351): the key that its threads are dropped with, D1 and D2, and whether it ends them. -/
structure WakeOf where
  key : DropKey
  d1 : Word
  d2 : Word
  ends : Bool
  deriving DecidableEq, Repr

/-- A WAKE from the core that issues to another (R199, R347, R351). -/
def State.wakeFlit (s : State) (w : WakeOf) (n : Nat) : FlueFlit :=
  let p := s.pos s.thr.core
  let q := s.pos n
  { atX := p.1, atY := p.2, dx := q.1, dy := q.2, src := s.thr.core, goal := .wake n w.key s.serial w.ends, cause := cWAKE
    band := posBand q.1 q.2, d0 := BitVec.ofNat 64 (2 ^ bandBit q.1 q.2), d1 := w.d1, d2 := w.d2 }

/-- Sends one WAKE to each of a list of cores, and the result of the `wkx` follows once all have acted (R368). -/
def State.sendWakes (cores : List Nat) (w : WakeOf) (reg : BitVec 4) (s : State) : State :=
  if cores = [] then s.writeX reg (statusWord 0 0)
  else
    { (s.oweX reg) with
      wkxs := s.wkxs ++ [⟨s.serial, s.thr.core, s.thr.ctx.cxa, reg, cores.length, 0⟩]
      flue := s.flue ++ cores.map (s.wakeFlit w)
      serial := s.serial + 1 }

/-- `wkx.page` (R368). -/
def execWkxPage (x : Args) (s : State) : Host.Outcome State Fault Refusal :=
  issueSys x (fun s =>
    withSrc x.b s fun m s => withSrc x.c s fun k s =>
      let cause : BitVec 8 := k.extractLsb' 0 8
      if bits k.toNat 56 8 ≠ 0 ∨ bits k.toNat 13 3 ≠ 0 ∨ ¬(cause = cPGF ∨ cause = cREV ∨ cause = cWLK) then .ill 0xE4#8 0xD
      else
        withDest x.a s
          (.done (s.sendWakes (s.bandCores (bits k.toNat 8 5) m)
            ⟨⟨cause, BitVec.ofNat 64 (bits k.toNat 16 40 * 2 ^ 16)⟩, k, 0#64, false⟩ x.a.rix))) s

/-- `wkx.thr` (R368). -/
def execWkxThr (x : Args) (s : State) : Host.Outcome State Fault Refusal :=
  issueSys x (fun s =>
    withSrc x.b s fun n s => withSrc x.c s fun k s =>
      let cause : BitVec 8 := k.extractLsb' 0 8
      if nCores ≤ n.toNat ∨ bits k.toNat 56 8 ≠ 0 ∨ ¬(cause = cMCK ∨ cause = cDBG ∨ cause = cESC ∨ cause = cHOLD) then
        .ill 0xE4#8 0xD
      else withDest x.a s (.done (s.sendWakes [n.toNat] ⟨⟨cause, cxaBits k⟩, k, cxaBits k, false⟩ x.a.rix))) s

/-- The thread has been dropped (R346). -/
def Thread.isDropped (t : Thread) : Bool :=
  match t.wait with
  | .dropped _ => true
  | _ => false

/-- `wkx.end` (R368): its WAKE ends the thread when it arrives; D1 of it, a drop key with no cause, is C as it stands (DESIGN CHOICE,
log 60). -/
def execWkxEnd (x : Args) (s : State) : Host.Outcome State Fault Refusal :=
  issueSys x (fun s =>
    withSrc x.b s fun n s => withSrc x.c s fun cxa s =>
      if nCores ≤ n.toNat then .ill 0xE4#8 0xD
      else
        withDest x.a s (.done (s.sendWakes [n.toNat] ⟨⟨0#8, cxa⟩, cxa, cxa, true⟩ x.a.rix))) s

/-- The WAKE of a `wkx.end` acts on a core (R368): the thread with that CXA ends, if it is dropped; how many do. -/
def State.endDropped (core : Nat) (cxa : Word) (s : State) : Nat × State :=
  match s.findThr core cxa with
  | some t => if t.isDropped then (1, s.endThread core cxa) else (0, s)
  | none => (0, s)

/-- A WAKE acts on a core (R351): every dropped thread with its key becomes ready, and a store of the core that its page turned
away is sent again (R358); how many threads did. -/
def State.wakeDropped (core : Nat) (key : DropKey) (s : State) : Nat × State :=
  let l := (s.attached core).filter fun t => decide (t.wait = .dropped key)
  let s1 := { s with waiters := s.waiters.map fun w => if w.src == core && w.woken == some key then { w with woken := none } else w }
  let due := (s.attached core).filter fun t => t.dropNext == some key
  let s2 := due.foldl (fun s t => s.updThr core t.ctx.cxa fun t => { t with dropNext := none }) s1
  (l.length + due.length, l.foldl (fun s t => s.makeReady core t.ctx.cxa) s2)

/-- A record lies in a page. -/
def inPage (cxa page : Word) : Bool := cxa.toNat / 2 ^ 16 == page.toNat / 2 ^ 16

/-- `cxf` on one core (R78, R368): CF is cleared and held write-backs are released; how many threads it affects. -/
def State.clearCf (page : Word) (core : Nat) (s : State) : Nat × State :=
  let marked (x : Word) : Bool := inPage x page && (s.core core).runq.any fun e => e.cxa == x && e.cf
  let l := (s.attached core).filter fun t => marked t.ctx.cxa || (t.wbHeld && inPage t.ctx.cxa page)
  let s1 := s.setCore core fun c => { c with runq := c.runq.map fun e => if inPage e.cxa page then { e with cf := false } else e }
  (l.length, l.foldl (fun s t => s.updThr core t.ctx.cxa fun t => { t with wbHeld := false }) s1)

/-- Adds up what an action on several cores affects. -/
def State.onCores (f : Nat → State → Nat × State) : List Nat → State → Nat × State
  | [], s => (0, s)
  | n :: l, s =>
    let (a, s1) := f n s
    let (b, s2) := State.onCores f l s1
    (a + b, s2)

/-- `cxf` (R368); the cause in its key is not looked at (DEDUCED, log 34). -/
def execCxf (x : Args) (s : State) : Host.Outcome State Fault Refusal :=
  issueSys x (fun s =>
    withSrc x.b s fun m s => withSrc x.c s fun k s =>
      if bits k.toNat 56 8 ≠ 0 ∨ bits k.toNat 13 3 ≠ 0 then .ill 0xE5#8 0xD
      else
        withDest x.a s
          (let (n, s1) := State.onCores (State.clearCf k) (s.bandCores (bits k.toNat 8 5) m) s
           .done (s1.writeX x.a.rix (statusWord 0 n)))) s

/-! ### psw (R360, R369) -/

/-- What keeps a partition switch from happening on a core (R369). -/
def State.pswFails (s : State) (n : Nat) : Option Nat :=
  let c := s.core n
  if !c.halted then some 4
  else if bits c.cmpart.toNat 16 4 < bits c.cmpart.toNat 12 4 + 3 then some 5
  else if c.copies ≠ [] then some 6
  else none

/-- The parts of an incoming thread: one that waited on draught repeats its sends (R369). -/
def Thread.incoming (t : Thread) : Thread :=
  match t.wait with
  | .on r => if r.isDraught then { t with wait := .ready } else t
  | _ => t

/-- Exchanges a core's live set with its saved set (R360, R369); a lease that the core holds is saved, and a saved one comes back
once every core of the partition has saved its own (R268). The record cache is emptied (R294). -/
def State.swapSet (n : Nat) (s : State) : State :=
  let c := s.core n
  let now := s.now n
  let k := s.coreCluster n
  let pos := s.panPos n
  let mine (t : Thread) : Bool := t.core == n && !t.isWalker
  let wake := (c.saved.threads.filter fun t => t.incoming != t).map fun t => ({ cxa := t.ctx.cxa, org := 2#2 } : RqEntry)
  let l := (s.cluster k).lease
  let out : SavedSet :=
    { threads := (s.attached n).filter fun t => !t.isWalker
      runq := c.runq, joins := c.joins
      streamQ := c.streamQ.filter fun q => !q.fin
      panQ := c.panQ.filter fun q => q.st == .queued
      accs := (s.cluster k).accs.filter fun a => a.pos == pos
      lease := if l.holder = some n then some { l with start := now - l.start, active := now - l.active } else none }
  let s0 := s.dropRecs n
  let s1 := { s0 with
    thr := if mine s0.thr then {} else s0.thr
    pool := (s0.pool.filter fun t => !mine t) ++ c.saved.threads.map Thread.incoming }
  let s2 := s1.setCore n fun c =>
    { c with
      runq := c.saved.runq ++ wake
      joins := c.saved.joins
      streamQ := (c.streamQ.filter (·.fin)) ++ c.saved.streamQ
      panQ := (c.panQ.filter fun q => q.st != .queued) ++ c.saved.panQ
      saved := out }
  s2.setCluster k fun e =>
    { e with
      accs := (e.accs.filter fun a => a.pos != pos) ++ c.saved.accs.map fun a => { a with shadow := a.val }
      lease := if e.lease.holder = some n then { e.lease with holder := none, opened := false } else e.lease }

/-- A lease of a saved set is the cluster's again (R268). -/
def State.restoreLease (saved : Option Lease) (n : Nat) (s : State) : State :=
  match saved with
  | some l => s.setCluster (s.coreCluster n) fun e => { e with lease := { l with start := s.now n - l.start, active := s.now n - l.active } }
  | none => s

/-- Exchanges the sets of the cores of a partition (R369). -/
def State.swapSets (l : List Nat) (s : State) : State :=
  l.foldl (fun s1 n => s1.restoreLease (s.core n).saved.lease n) (l.foldl (fun s1 n => s1.swapSet n) s)

/-- `psw` (R369). -/
def execPsw (x : Args) (s : State) : Host.Outcome State Fault Refusal :=
  issueSys x (fun s =>
    withSrc x.b s fun p s =>
      if 8 ≤ p.toNat then .ill 0xE6#8 0xD
      else
        withDest x.a s
          (let l := s.partCores p.toNat
           match l.find? fun n => (s.pswFails n).isSome with
           | some n => .done (s.writeX x.a.rix (statusWord ((s.pswFails n).getD 0) n))
           | none =>
             if s.partBusy p.toNat then .park (.part p.toNat)
             else .done ((s.swapSets l).writeX x.a.rix (statusWord 0 0)))) s

/-! ### Saving and pre-empting (R371-R373) -/

/-- Saves an unbound thread to its record as `evict` does: the status (R371). -/
def State.evictThr (core : Nat) (cxa : Word) (s : State) : Nat × State :=
  match s.findThr core cxa with
  | none => (1, s)
  | some t =>
    if t.slot.isSome then (2, s)
    else if t.pinC || t.pinG then (3, s)
    else if t.place = .record then (0, s)
    else
      let r := s.toRecord t
      (if r.1 then 0 else 7, r.2)

/-- `evict` (R371). -/
def execEvict (x : Args) (s : State) : Host.Outcome State Fault Refusal :=
  issueSys x (fun s =>
    withSrc x.b s fun n s => withSrc x.c s fun cxa s =>
      if nCores ≤ n.toNat then .ill 0xE9#8 0xD
      else
        withDest x.a s
          (withRecords s fun s => let r := s.evictThr n.toNat cxa
           .done (r.2.writeX x.a.rix (statusWord r.1 0)))) s

/-- Unbinds a thread, which joins the tail of the run queue with ORG 11 (R373). -/
def State.unbindAt (core : Nat) (cxa : Word) (s : State) : State :=
  (s.updThr core cxa fun t => { t.unbind with wait := .ready, fillTo := none }).enqueue core cxa 3#2

/-- The forms of `prh` (R373). -/
inductive PrhForm where
  | unb | evc | hold
  deriving DecidableEq, Repr

/-- `prh.hold`: the thread is dropped and saved as `evict` saves it (R373). -/
def State.holdThr (core : Nat) (cxa : Word) (s : State) : Nat × State :=
  (s.updThr core cxa fun t => { t.unbind with wait := .dropped ⟨cHOLD, cxa⟩, fillTo := none }).evictThr core cxa

/-- Unbinds a slot's thread in one of the forms (R373): the status and the state. A write-back that finds no room waits for it (R76). -/
def State.preempt (f : PrhForm) (t : Thread) (s : State) : Nat × State :=
  let core := t.core
  let cxa := t.ctx.cxa
  if f = .unb then (0, s.unbindAt core cxa)
  else if t.pinG then (3, s.unbindAt core cxa)
  else if f = .hold then s.holdThr core cxa
  else
    let s1 := s.unbindAt core cxa
    match s1.findThr core cxa with
    | some t => (0, match t.place with
        | .line _ =>
          let r := s1.toEmber t
          if r.1 then r.2 else r.2.updThr core cxa fun t => { t with backDue := true }
        | _ => s1)
    | none => (0, s1)

/-- `prh`: a slot's thread is unbound after its instruction has left the issue stage (R372, R373). -/
def prh (f : PrhForm) (x : Args) (s : State) : Host.Outcome State Fault Refusal :=
  issueSys x (fun s =>
    withSrc x.b s fun n s => withSrc x.c s fun k s =>
      if nCores ≤ n.toNat ∨ 7 ≤ k.toNat then .ill 0xEA#8 0xD
      else
        withDest x.a s
          (match (s.attached n.toNat).find? fun t => decide (t.slot = some k.toNat) with
          | none => .done (s.writeX x.a.rix (statusWord 1 0))
          | some t =>
            withRecords s fun s => let r := (s.preempt f t).1
            doneThen (fun s => (s.preempt f t).2) (s.writeX x.a.rix (field r 0 ||| cxaBits t.ctx.cxa)))) s

/-- `prh.unb` (R373). -/
def execPrhUnb (x : Args) (s : State) : Host.Outcome State Fault Refusal := prh .unb x s

/-- `prh.evc` (R373). -/
def execPrhEvc (x : Args) (s : State) : Host.Outcome State Fault Refusal := prh .evc x s

/-- `prh.hold` (R373). -/
def execPrhHold (x : Args) (s : State) : Host.Outcome State Fault Refusal := prh .hold x s

/-! ### Finishing a walk (R356, R359, R374) -/

/-- Threads of a core that wait for a mailbox entry. -/
def State.walkers (s : State) (core idx : Nat) : List Thread := (s.attached core).filter fun t => decide (t.wait = .walk idx)

/-- Drops a waiting thread with a page event (R346, R356). -/
def State.walkEvent (cause : BitVec 8) (why : Nat) (t : Thread) (w : WalkReq) (s : State) : State :=
  s.asThr t.core t.ctx.cxa fun s =>
    (s.mapRes fun r => { r with walk := none }).pageEvent cause { kind := w.kind } why w.gva

/-- A waiting `pgq` gets what the walk found, and reads it when it goes on (R164). -/
def State.answerQuery (t : Thread) (w : WalkReq) (v : Word) (s : State) : State :=
  (s.updThr t.core t.ctx.cxa fun t => { t with res := { t.res with walk := some { w with answer := some v } } }).makeReady t.core t.ctx.cxa

/-- The port checks a delivered leaf for one waiting request (R356). -/
def State.deliverLeaf (leaf : Word) (large : Bool) (t : Thread) (s : State) : State :=
  match t.res.walk with
  | none => s.makeReady t.core t.ctx.cxa
  | some w =>
    let who : Who := ⟨t.core, t.ctx.st.extractLsb' 16 16, t.ctx.st.toNat % 4 == 3⟩
    if w.query then s.answerQuery t w (if lfV leaf && lfP leaf then s.pageInfo who w.gva leaf large else 0#64)
    else
      match checkLeaf leaf who { kind := w.kind, write := w.write, x := w.fetch } with
      | some (.pgf why) => s.walkEvent cPGF why t w
      | some .rev => s.walkEvent cREV 6 t w
      | _ => (s.updThr t.core t.ctx.cxa fun t => { t with res := { t.res with walk := none } }).makeReady t.core t.ctx.cxa

/-- The walk of one waiting request has failed (R374). -/
def State.deliverFail (t : Thread) (s : State) : State :=
  match t.res.walk with
  | none => s.makeReady t.core t.ctx.cxa
  | some w =>
    if w.query then s.answerQuery t w 0#64 else s.walkEvent cWLK 5 t w

/-- Removes a mailbox entry. -/
def State.closeMiss (core idx : Nat) (s : State) : State :=
  s.setCore core fun c => { c with mbox := c.mbox.filter fun e => e.idx != idx }

/-- A failed walk: every waiting request is dropped with WLK (R374). -/
def State.failWalk (core idx : Nat) (s : State) : State :=
  (s.walkers core idx).foldl (fun s t => s.deliverFail t) ((s.closeMiss core idx).answerAsks core idx (some 5))

/-- A leaf that answers a mailbox entry (R356, R359, R374): an entry that a later generation matches is posted again. -/
def State.fillWalk (core idx : Nat) (leaf : Word) (large : Bool) (s : State) : State :=
  match (s.core core).mbox.find? fun e => e.idx == idx with
  | none => s
  | some e =>
    if !wellFormedLeaf leaf large then s.failWalk core idx
    else if e.stale || (large && e.staleL) then
      s.setCore core fun c =>
        { c with mbox := mapFirst (fun e => e.idx == idx) (fun e => { e with stale := false, staleL := false, taken := false }) c.mbox }
    else
      let s1 := (s.closeMiss core idx).answerAsks core idx (if !lfV leaf then some 0 else if !lfP leaf then some 1 else none)
      let s2 := if lfV leaf && lfP leaf then
          s1.setCluster (s.coreCluster core) (ClusterSt.install e.task (e.page * 2 ^ 16) leaf large)
        else s1
      let s3 := (s.asks.filter fun a => a.2.waits core idx).foldl (fun s a => match a.1 with
        | .prefetch g cp => if lfV leaf then s.bringLine ⟨a.2.core, a.2.task, a.2.lvlH⟩ g cp leaf large else s
        | _ => s) s2
      (s3.walkers core idx).foldl (fun s t => s.deliverLeaf leaf large t) s3

/-- `pgd.fill`, to the mailbox of the core the thread runs on (R374). -/
def execPgdFill (x : Args) (s : State) : Host.Outcome State Fault Refusal :=
  issueSys x (fun s =>
    withSrc x.b s fun e s => withSrc x.c s fun leaf s =>
      if e &&& 0xFFFFFFFFFFFFFEF0#64 ≠ 0#64 then .ill 0xEB#8 0xD
      else .done (s.fillWalk s.thr.core (bits e.toNat 0 4) leaf (bit e.toNat 8))) s

/-- `pgd.fail` (R374). -/
def execPgdFail (x : Args) (s : State) : Host.Outcome State Fault Refusal :=
  issueSys x (fun s =>
    withSrc x.b s fun e s =>
      if 16 ≤ e.toNat then .ill 0xEB#8 0xD
      else if (s.core s.thr.core).mbox.any fun m => m.idx == e.toNat then .done (s.failWalk s.thr.core e.toNat)
      else .done s) s

/-! ### Halting (R375) -/

/-- The threads bound to slots 0 to 6 of a core. -/
def State.slotThreads (s : State) (n : Nat) : List Thread :=
  (s.attached n).filter fun t => match t.slot with
    | some k => decide (k < 7)
    | none => false

/-- Stops slots 0 to 6 of a core: each bound thread is unbound as `prh.unb` unbinds it (R375). -/
def State.haltCore (s : State) (n : Nat) : State :=
  ((s.slotThreads n).foldl (fun s t => s.unbindAt n t.ctx.cxa) s).setCore n fun c => { c with halted := true }

/-- Lets a core bind threads again (R375). -/
def State.runCore (s : State) (n : Nat) : State := s.setCore n fun c => { c with halted := false }

/-- A form of `halt` on one core; a hearth core gives REFUSED (R375). -/
def haltOne (f : State → Nat → State) (x : Args) (s : State) : Host.Outcome State Fault Refusal :=
  issueSys x (fun s =>
    withSrc x.b s fun n s =>
      if nCores ≤ n.toNat then .ill 0xEC#8 0xD
      else
        withDest x.a s
          (if isHearth n.toNat then .done (s.writeX x.a.rix (statusWord 7 0))
           else
             doneThen (fun s => f s n.toNat) (s.writeX x.a.rix (statusWord 0 0)))) s

/-- A form of `halt` on every core of a partition (R375). -/
def haltAll (f : State → Nat → State) (x : Args) (s : State) : Host.Outcome State Fault Refusal :=
  issueSys x (fun s =>
    withSrc x.b s fun p s =>
      if 8 ≤ p.toNat then .ill 0xEC#8 0xD
      else
        withDest x.a s
          (let l := s.partCores p.toNat
           doneThen (fun s => l.foldl f s) (s.writeX x.a.rix (statusWord 0 0)))) s

/-- `halt.core` (R375). -/
def execHaltCore (x : Args) (s : State) : Host.Outcome State Fault Refusal := haltOne State.haltCore x s

/-- `halt.run` (R375). -/
def execHaltRun (x : Args) (s : State) : Host.Outcome State Fault Refusal := haltOne State.runCore x s

/-- `halt.part` (R375). -/
def execHaltPart (x : Args) (s : State) : Host.Outcome State Fault Refusal := haltAll State.haltCore x s

/-- `halt.prun` (R375). -/
def execHaltPrun (x : Args) (s : State) : Host.Outcome State Fault Refusal := haltAll State.runCore x s

end Sys2Proof.Machine
end

