-- ==== Sys2Proof/Machine/SysRegs.lean ====
section
/-! DEFINITION. The system registers (R361, R370): what `srd` reads, `swr`, and the steps in which a write takes effect:
table bases (R361), the miss mailbox (R355), CMPART (R146), IBXSZ (R90), RFPWR (R79), KLS (R205), the measurements (R421)
and the attestation unit (R423). -/

namespace Sys2Proof.Machine

open Config

/-! ### Reading -/

/-- RDYD, whose PORT bits follow the ports (R415, R416). -/
def State.rdydWord (s : State) : Word :=
  s.rdyd ||| BitVec.ofNat 64 (maskOf (((List.range 16).filter fun p => (s.port p).st == 2#3).map (· + 8)))

/-- KLS of a port (R205). -/
def Port.kls (p : Port) : Word :=
  field p.malf.toNat 48 ||| field p.rply.toNat 32 ||| field p.sgen.toNat 16 ||| field p.twid.toNat 6 ||| field p.cwid.toNat 4
    ||| field p.st.toNat 0

/-- Bits of a set of numbers from 64k on, as a word of a readiness bitmap (R415). -/
def bitmapWord (l : List Nat) (k : Nat) : Word := BitVec.ofNat 64 (maskOf ((l.filter fun n => n / 64 == k).map (· % 64)))

/-- A system register as `srd` reads it (R361, R415, R421-R424); MBOX apart. -/
def State.sysRead (s : State) (index locus : Nat) : Word :=
  let d := s.die (s.coreDie locus)
  let c := s.core locus
  if index = 0x000 then s.tskb
  else if index = 0x001 then s.hmtb
  else if index = 0x002 then s.pwtb
  else if index = 0x003 then s.partb
  else if index = 0x004 then s.bgen.setWidth 64
  else if index = 0x010 then (s.cluster (s.coreCluster locus)).tgen.setWidth 64
  else if index = 0x020 then d.frb
  else if index = 0x021 then d.frw
  else if index = 0x022 then d.frr
  else if index = 0x023 then d.ecnt
  else if index = 0x040 then c.rfpwr
  else if index = 0x041 then c.cmpart
  else if index = 0x042 then c.ibxsz
  else if 0x080 ≤ index ∧ index ≤ 0x08F then (s.port (index - 0x080)).kls
  else if index = 0x0C0 then s.rdydWord
  else if 0x0C1 ≤ index ∧ index ≤ 0x0C8 then bitmapWord s.rdyc (index - 0x0C1)
  else if 0x0C9 ≤ index ∧ index ≤ 0x0CA then bitmapWord s.rdym (index - 0x0C9)
  else if 0x0CB ≤ index ∧ index ≤ 0x0CC then bitmapWord s.flm (index - 0x0CB)
  else if 0x0D0 ≤ index ∧ index ≤ 0x0DF then
    (d.mr.getD ((index - 0x0D0) / 4) 0#256).extractLsb' (64 * ((index - 0x0D0) % 4)) 64
  else if index = 0x0E1 then field s.attStat.toNat 1 ||| b2w s.attBusy
  else if 0x0E2 ≤ index ∧ index ≤ 0x0E9 then fuseWord index
  else if index = 0x0EA then fuseWord index &&& 0xFF#64
  else if index = 0x0EB then d.bst.setWidth 64
  else if index = 0x0F0 then s.pcap
  else if index = 0x0F1 then d.pwr.setWidth 64
  else if index = 0x0F2 then d.tmp.setWidth 64
  else if index = 0x0F3 then BitVec.ofNat 64 d.clk
  else 0#64

/-- The thread waits for an entry of a core's miss mailbox; the register is owed (R355, R370). -/
def State.awaitMbox (core : Nat) (r : BitVec 4) (s : State) : State :=
  let s1 := (s.oweX r).waitFor (.mailbox core r)
  { (s1.mapThr fun t => { t with stamp := s.serial }) with serial := s.serial + 1 }

/-- `srd` (R370); a read of MBOX parks until an entry is posted (R355). -/
def execSrd (x : Args) (s : State) : Host.Outcome State Fault Refusal :=
  issueSys x (fun s =>
    withSrc x.b s fun n s => withSrc x.c s fun k s =>
      if nCores ≤ n.toNat ∨ !sysRegAssigned k.toNat then .ill 0xE7#8 0xD
      else
        withDest x.a s
          (if k.toNat = 0x011 then .stay (s.awaitMbox n.toNat x.a.rix)
           else .done (s.writeX x.a.rix (s.sysRead k.toNat n.toNat)))) s

/-! ### Writing -/

/-- A write to the register takes effect in a step of its own. -/
def slowReg (k : Nat) : Bool :=
  decide (k ≤ 3) || decide (0x40 ≤ k ∧ k ≤ 0x42) || decide (0x80 ≤ k ∧ k ≤ 0x8F) || k == 0xE0 || k == 0xE1

/-- A write to FRB, FRR, ECNT or PCAP (R403, R424). -/
def State.sysWrite (index locus : Nat) (v : Word) (s : State) : State :=
  let d := s.coreDie locus
  if index = 0x020 then s.setDie d fun e => { e with frb := v &&& ~~~0x3FFF#64 }
  else if index = 0x022 then s.setDie d fun e => { e with frr := v }
  else if index = 0x023 then s.setDie d fun e => { e with ecnt := v }
  else if index = 0x0F0 then (if 400 ≤ v.toNat ∧ v.toNat ≤ 1250 then { s with pcap := v } else s)
  else s

/-- `swr`: the instruction completes when its write has taken effect (R370). -/
def execSwr (x : Args) (s : State) : Host.Outcome State Fault Refusal :=
  issueSys x (fun s =>
    withSrc x.a s fun v s => withSrc x.b s fun n s => withSrc x.c s fun k s =>
      if nCores ≤ n.toNat ∨ !sysRegWritable k.toNat then .ill 0xE8#8 0xD
      else if slowReg k.toNat then
        .stay (({ s with sysWrites := s.sysWrites ++ [(⟨s.thr.core, s.thr.ctx.cxa, k.toNat, n.toNat, v⟩ : SysWrite)] }).waitFor .sys)
      else .done (s.sysWrite k.toNat n.toNat v)) s

/-- A thread that waits past its instruction goes on with its registers changed. -/
def State.resumePast (core : Nat) (cxa : Word) (f : Ctx → Ctx) (s : State) : State :=
  match s.findOwed core cxa with
  | none => s
  | some _ =>
    (s.updImage core cxa fun t => { t with waitOn := none, ctx := { f t.ctx with pc := t.ctx.pc + 12#64 } }).makeReady core cxa

/-- The write that a step performs: the oldest that satisfies `p` takes effect as `f` says, and its `swr` completes; nothing
happens when there is none, or when `f` says that it still waits. -/
def State.takeEffect (p : SysWrite → Bool) (f : SysWrite → State → Bool × State) (s : State) : State :=
  match s.sysWrites.find? p with
  | none => s
  | some w =>
    let r := f w s
    if r.1 then ({ r.2 with sysWrites := dropFirst p r.2.sysWrites }).resumePast w.core w.cxa fun c => c
    else r.2

/-- Drops every cached copy of a table and installs its base (R361); the one a hearth writes makes its die's stokers ready (R416), unless
the die has become fatal (R418). -/
def State.setBase (w : SysWrite) (s : State) : State :=
  match w.index with
  | 0 =>
    let s1 := { s with
      tskb := w.val &&& ~~~0xFFFF#64
      cores := s.cores.map fun (c : Nat × CoreSt) => (c.1, { c.2 with sets := [] }) }
    if isHearth w.core && !s1.dieFatal (s1.coreDie w.core) then { s1 with rdyd := s1.rdyd ||| field 1 (4 + s1.coreDie w.core) } else s1
  | 1 => { s with hmtb := w.val, masks := [] }
  | 2 => { s with pwtb := w.val, peers1 := [], peers2 := [] }
  | _ => { s with partb := w.val }

/-- `TABLE_BASE_WRITE` (R361): a write that a core of the die has issued. -/
def execTableBaseWrite (index die : Nat) (val : Word) (s : State) : Host.Outcome State Fault Refusal :=
  .next (s.takeEffect (fun w => w.index == index && decide (index ≤ 3) && s.coreDie w.core == die && w.val == val)
    fun w s => (true, s.setBase w))

/-! ### The miss mailbox (R355) -/

/-- A mailbox entry as the walker reads it (R355). -/
def MboxEntry.word (e : MboxEntry) : Word :=
  field e.task.toNat 48 ||| field e.idx 44 ||| field (b2n e.user) 43 ||| field e.kind 40 ||| BitVec.ofNat 64 (e.page % 2 ^ 39)

/-- The longest-waiting read of a core's mailbox. -/
def State.mboxReader (s : State) (core : Nat) : Option (Thread × BitVec 4) :=
  let reg (t : Thread) : Option (BitVec 4) :=
    match t.wait with
    | .mailbox n r => if n = core then some r else none
    | _ => none
  s.threads.foldl (fun o t => match reg t, o with
    | some r, none => some (t, r)
    | some r, some (u, q) => if t.stamp < u.stamp then some (t, r) else some (u, q)
    | none, o => o) none

/-- `MBOX_READ` (R355): the oldest entry that no walker has read goes to the thread that reads the mailbox. -/
def execMboxRead (core : Nat) (s : State) : Host.Outcome State Fault Refusal :=
  .next
    (match s.mboxReader core, (s.core core).mbox.find? fun e => !e.taken with
    | some (t, r), some e =>
      (s.setCore core fun c => { c with mbox := mapFirst (fun m => m.idx == e.idx) (fun m => { m with taken := true }) c.mbox }).resumePast
        t.core t.ctx.cxa fun c => (c.writeX r e.word).clearOwe [r]
    | _, _ => s)

/-! ### CMPART, IBXSZ and RFPWR (R79, R90, R145, R146) -/

/-- The partition a unit of core memory belongs to: 0 scratchpad, 1 L2, 2 near cache, 3 ember cache, 4 shadow (R145). -/
def unitPart (cm : Word) (u : Nat) : Nat :=
  let sp := bits cm.toNat 0 4
  let l2 := sp + bits cm.toNat 4 4
  let nc := l2 + bits cm.toNat 8 4
  let ec := nc + bits cm.toNat 12 4
  if u < sp then 0 else if u < l2 then 1 else if u < nc then 2 else if u < ec then 3 else 4

/-- A value of CMPART whose fields lie in their ranges and sum to 16 (R145). -/
def cmpartOk (v : Word) : Bool :=
  let f (lo : Nat) := bits v.toNat lo 4
  f 0 + f 4 + f 8 + f 12 + f 16 == 16 && decide (1 ≤ f 0) && decide (1 ≤ f 4) && decide (1 ≤ f 12) && decide (1 ≤ f 16)

/-- Writes every ember image of a core back to its record; false while one waits for an owed result or for a record page
(R76, R78, R146). -/
def State.flushEmber (core : Nat) (s : State) : Bool × State :=
  let l := (s.attached core).filter fun t => decide (t.place = .ember)
  if l.any fun t => t.ctx.owe != 0#16 || t.ctx.rld || t.wbHeld then (false, s)
  else l.foldl (fun r t => let q := r.2.toRecord t; (r.1 && q.1, q.2)) (true, s)

/-- A write to CMPART (R145, R146, R294): ignored, or performed once the caches are empty. A saved set is lost when the shadow's or
the ember cache's size changes (DEDUCED, log 35). -/
def State.setCmpart (n : Nat) (val : Word) (s : State) : Bool × State :=
  let c := s.core n
  let v := val &&& 0xFFFFF#64
  if !c.halted || !cmpartOk v || decide (bits v.toNat 0 4 * 0x10000 < 512 * c.ibEntries) then (true, s)
  else
    let r := s.flushEmber n
    if !r.1 then r
    else
      let moved := (List.range 16).filter fun u => unitPart c.cmpart u != unitPart v u
      let s1 := moved.foldl (fun s u => s.zeroRange (coreAddr n (0x10000 * u)) 0x10000) (r.2.dropRecs n)
      (true, s1.setCore n fun c =>
        { c with
          cmpart := v, l2 := [], near := [], inbox := List.replicate 8 (0, 0)
          saved := if bits v.toNat 12 8 = bits c.cmpart.toNat 12 8 then c.saved else {} })

/-- `CMPART_WRITE` (R146). -/
def execCmpartWrite (core : Nat) (val : Word) (s : State) : Host.Outcome State Fault Refusal :=
  .next (s.atPort (.record core)
    (State.takeEffect (fun w => w.index == 0x41 && w.locus == core && w.val == val) fun w s => s.setCmpart w.locus w.val))

/-- A write to IBXSZ (R90): only on a halted core with empty channels, and an inbox area of at most half the scratchpad. -/
def State.setIbxsz (n : Nat) (val : Word) (s : State) : State :=
  let c := s.core n
  let v := val &&& 3#64
  if c.halted && c.inbox.all (fun q => q.2 == 0) && v != 3#64 && decide (512 * (64 * 2 ^ v.toNat) ≤ c.spBytes) then
    s.setCore n fun c => { c with ibxsz := v, inbox := List.replicate 8 (0, 0) }
  else s

/-- `IBXSZ_WRITE` (R90). -/
def execIbxszWrite (core : Nat) (val : Word) (s : State) : Host.Outcome State Fault Refusal :=
  .next (s.takeEffect (fun w => w.index == 0x42 && w.locus == core && w.val == val)
    fun w s => (true, s.setIbxsz w.locus w.val))

/-- RFPWR after a write: a field of 11 is unchanged, and so is bank 0 (R79). -/
def rfpwrNext (old val : Word) : Word :=
  let f (b : Nat) : Nat := let v := bits val.toNat (2 * b) 2; if v = 3 then bits old.toNat (2 * b) 2 else v
  field (f 1) 2 ||| field (f 2) 4 ||| field (f 3) 6

/-- A write to RFPWR (R79): a bank enters OFF once none of its lines is pinned, its bound threads are unbound and its lines
written back. -/
def State.setRfpwr (n : Nat) (val : Word) (s : State) : Bool × State :=
  let v := rfpwrNext (s.core n).rfpwr val
  let off (l : Nat) : Bool := bits v.toNat (2 * (l / 16)) 2 == 2
  let hit (t : Thread) : Bool := t.lineOf.any off
  let l := (s.attached n).filter hit
  if l.any fun t => t.pinC || t.pinG then (false, s)
  else
    let s1 := (l.filter fun t => t.slot.isSome).foldl (fun s t => s.unbindAt n t.ctx.cxa) s
    let s2 := ((s1.attached n).filter hit).foldl (fun s t => (s.toEmber t).2) s1
    if (s2.attached n).any hit then (false, s2) else (true, s2.setCore n fun c => { c with rfpwr := v })

/-- `RFPWR_WRITE` (R79). -/
def execRfpwrWrite (core : Nat) (val : Word) (s : State) : Host.Outcome State Fault Refusal :=
  .next (s.atPort (.record core)
    (State.takeEffect (fun w => w.index == 0x40 && w.locus == core && w.val == val) fun w s => s.setRfpwr w.locus w.val))

/-! ### KLS (R203, R205) -/

/-- The largest width, by its code, whose logical lanes are all good (R203). -/
def Port.goodWidth (p : Port) : Nat :=
  if p.lanes == 0xFF#8 then 0 else if p.lanes.toNat % 16 = 15 then 1 else if p.lanes.toNat % 4 = 3 then 2 else 3

/-- The port takes its target width, or the largest good one below it (R203). -/
def Port.rewidth (p : Port) : Port := p.takeWidth (BitVec.ofNat 2 (max p.twid.toNat p.goodWidth))

/-- A write to KLS (R205): the three counters and TWID; a port's width follows its target. -/
def Port.setKls (v : Word) (p : Port) : Port :=
  Port.rewidth { p with
    malf := v.extractLsb' 48 16, rply := v.extractLsb' 32 16, sgen := v.extractLsb' 16 16, twid := v.extractLsb' 6 2 }

/-- `KLS_WRITE` (R205). -/
def execKlsWrite (port : Nat) (val : Word) (s : State) : Host.Outcome State Fault Refusal :=
  .next (s.takeEffect (fun w => w.index == 0x80 + port && decide (port < 16) && w.val == val)
    fun w s => (true, s.setPort (w.index - 0x80) (Port.setKls w.val)))

/-! ### The firmware image (R419, R420) -/

/-- The 8-byte little-endian field at an offset of an image (DEDUCED, log 61). -/
def imageWord (img off : Nat) : Nat := leNat ((List.range 8).map fun i => flashByte img (off + i))

/-- The security version of an image, 0 to 255. -/
def imageSvn (img : Nat) : Nat := imageWord img 0x08 % 256

/-- LEN of an image. -/
def imageLen (img : Nat) : Nat := imageWord img 0x10

/-- What the signature and MR1 cover. -/
def imageBody (img : Nat) : List Byte := (List.range (0x40 + imageLen img)).map (flashByte img)

/-- The signature of an image. -/
def imageSignature (img : Nat) : List Byte := (List.range 16224).map fun i => flashByte img (0x40 + imageLen img + i)

/-- The first check of an image that fails on a die, as BST.CODE names it (R420, R423). -/
def bootFails (img d : Nat) : Option (BitVec 3) :=
  if imageWord img 0 ≠ 0x47524834 then some 1#3
  else if (List.range 0x28).any (fun i => flashByte img (0x18 + i) != 0#8) ∨ imageLen img % 4 ≠ 0 ∨ 0x800000 < imageLen img then some 2#3
  else if sha256 (embeddedKey d) ≠ keyFuse d then some 3#3
  else if !signatureOk (embeddedKey d) (imageBody img) (imageSignature img) then some 4#3
  else if imageSvn img < (fuseWord 0xEA).toNat % 256 then some 5#3
  else none

/-- A measurement register extended with bytes (R420, R421). -/
def extended (mr : BitVec 256) (bs : List Byte) : BitVec 256 := BitVec.ofNat 256 (leNat (sha256 (leBytes 32 mr.toNat ++ bs)))

/-! ### Measurements and attestation (R421, R423) -/

/-- Bytes whose values are free (DESIGN CHOICE, log 9). -/
def freeBytes (serial n : Nat) : List Byte := (List.range n).map fun i => (freeWord (serial + i)).setWidth 8

/-- Bytes at a physical address; where there is no DRAM, or none that can be read, they are free (DESIGN CHOICE, log 9). -/
def State.physBytes (s : State) (a n : Nat) : List Byte :=
  if physEnd < a + n ∨ s.poisoned a n then freeBytes s.serial n else s.readMem a n

/-- A write to MRX (R421): MR0 and MR1 are not extended. -/
def State.extendMr (die : Nat) (v : Word) (s : State) : State :=
  let m := bits v.toNat 0 2
  let a := bits v.toNat 6 50 * 64
  if m < 2 then s
  else
    let v := extended ((s.die die).mr.getD m 0#256) (s.physBytes a 64)
    { (s.setDie die fun d => { d with mr := d.mr.set m v }) with serial := s.serial + 64 }

/-- `MRX_WRITE` (R421). -/
def execMrxWrite (die : Nat) (val : Word) (s : State) : Host.Outcome State Fault Refusal :=
  .next (s.takeEffect (fun w => w.index == 0xE0 && s.coreDie w.locus == die && w.val == val)
    fun w s => (true, s.extendMr (s.coreDie w.locus) w.val))

/-- `ATTS_WRITE` (R423): ignored while BUSY. -/
def execAttsWrite (val : Word) (s : State) : Host.Outcome State Fault Refusal :=
  .next (s.takeEffect (fun w => w.index == 0xE1 && w.val == val)
    fun w s => (true, if s.attBusy then s else { s with attBusy := true, attAddr := w.val }))

/-- The body of an attestation report: bytes 0x00 to 0xBF of its buffer (R423). -/
def State.reportBody (s : State) (a : Nat) : List Byte :=
  s.readMem a 32 ++ ((s.die 0).mr.map fun m => leBytes 32 m.toNat).flatten ++ leBytes 8 (fuseWord 0xE8).toNat
    ++ leBytes 8 (fuseWord 0xE9).toNat ++ leBytes 8 (imageSvn s.flash) ++ List.replicate 8 0#8

/-- `ATTEST_DONE` (R423): the body and its signature are written, or STATUS tells of a bad address. -/
def execAttestDone (s : State) : Host.Outcome State Fault Refusal :=
  .next
    (let a := s.attAddr.toNat
     if !s.attBusy then s
     else if a % 2 ^ 15 ≠ 0 ∨ physEnd < a + 2 ^ 15 then { s with attBusy := false, attStat := 1#3 }
     else
       let body := s.reportBody a
       let s1 := (s.homeWrite a body).homeWrite (a + 0x100) ((List.range 16224).map (signByte body))
       { s1 with attBusy := false, attStat := 0#3 })

end Sys2Proof.Machine
end

