-- ==== Sys2Proof/Machine/Queues.lean ====
section
/-! DEFINITION. Queues (R376-R396): the stoker's slots and commands, deadlines, MSI-X vectors, and the instructions of row
0xF. -/

namespace Sys2Proof.Machine

open Config

/-! ### MSI-X (R381) -/

/-- Raises a vector for a hearth core or its stoker: its message follows every earlier store of that core to the host (R381). -/
def State.msixRaise (core v : Nat) (s : State) : State :=
  if s.flight.any fun r => r.src == core && r.home == hostHome then
    { s with
      flight := s.flight ++ [{
        id := s.serial, src := core, cxa := noCxa, home := hostHome, op := .msix v, addr := 0, ea := 0#64, port := 0, gen := 0#32
        paged := false, pol := 0, cp := 0#2, counted := false, tag := 0#16, short := false, delta := 0#16, page := 0, stage := 0, inj := 0
        resend := false }]
      serial := s.serial + 1 }
  else s.msixDo v

/-- Pending vectors whose masks have cleared send their messages (R381). -/
def State.msixFlush (s : State) : State := (s.pba.filter fun v => !s.msixMasked v).foldl (fun s v => s.msixSend v) s

/-! ### Queue slots (R377-R379) -/

/-- The QID of a slot. -/
def QSlot.qid (q : QSlot) : Nat := bits q.word8.toNat 8 12
/-- QTASK. -/
def QSlot.task (q : QSlot) : BitVec 16 := q.word8.extractLsb' 20 16
/-- QPRI. -/
def QSlot.pri (q : QSlot) : Nat := bits q.word8.toNat 4 4
/-- Entries of the ring. -/
def QSlot.size (q : QSlot) : Nat := 2 ^ bits q.word8.toNat 0 4
/-- MISSV. -/
def QSlot.missv (q : QSlot) : Nat := bits q.word8.toNat 36 11
/-- ERRV. -/
def QSlot.errv (q : QSlot) : Nat := bits q.word8.toNat 48 11
/-- The GVA of a ring entry (R377). -/
def QSlot.entryAt (q : QSlot) (i : Nat) : Nat := q.rbase.toNat + 64 * (i % q.size)

/-- TAIL of a queue: its entry of the doorbell array (R379). -/
def State.tail (s : State) (qid : Nat) : Nat := ((look qid s.bells).getD 0#64).toNat

/-- A slot of a die. -/
def State.qslot (s : State) (die slot : Nat) : Option QSlot := (s.die die).slots.find? fun q => q.slot == slot

/-- Replaces a slot of a die. -/
def State.putQ (die : Nat) (q : QSlot) (s : State) : State :=
  s.setDie die fun d => { d with slots := mapFirst (fun r => r.slot == q.slot) (fun _ => q) d.slots }

/-- STATE of a slot (R395). -/
def QState.code : QState → Nat
  | .idle => 1 | .run => 2 | .block => 3 | .error => 4

/-- The queue status word (R395). -/
def State.qword (s : State) (q : QSlot) : Word :=
  field q.qid 40 ||| field q.err 36 ||| field (b2n q.miss) 35 ||| field (b2n q.dl.isSome) 34
    ||| field ((s.tail q.qid - q.head) % 2 ^ 17) 3 ||| field q.st.code 0

/-- A message of the stoker to its hearth (R390). -/
def State.stokerSays (die : Nat) (q : QSlot) (code : Nat) (d2 : Word) (s : State) : State :=
  let h := hearthOf die
  s.sendMsg h 7 ⟨BitVec.ofNat 32 q.qid, kstat 7 code, BitVec.ofNat 16 h, BitVec.ofNat 64 q.slot, BitVec.ofNat 64 q.head, d2⟩ none 0#64

/-- The head command is to be read afresh. -/
def QSlot.reread (ser : Nat) (q : QSlot) : QSlot :=
  { q with words := [], asked := false, started := false, sent := false, ser := ser, wt := none, met := false }

/-- The queue goes into ERROR (R389): its hearth is told, and ERRV is raised. -/
def State.failQ (die : Nat) (q : QSlot) (err : Nat) (addr : Word) (s : State) : State :=
  let q1 := { q with st := .error, err := err, started := false, sent := false }
  ((s.putQ die q1).stokerSays die q1 1 (field err 0 ||| (if err = 3 then addr &&& ~~~0xFF#64 else 0#64))).msixRaise (hearthOf die) q1.errv

/-- TAIL lies below HEAD, or more than the ring above it (R379). -/
def State.badTail (s : State) (q : QSlot) : Bool :=
  decide (s.tail q.qid < q.head) || decide (q.head + q.size < s.tail q.qid)

/-- A queue that is not in ERROR or BLOCK has the state its TAIL gives it (R378, R379). -/
def State.tune (die : Nat) (q : QSlot) (s : State) : State :=
  if s.badTail q then s.failQ die q 2 0#64
  else s.putQ die { q with st := if q.head < s.tail q.qid then .run else .idle }

/-- OP of the head command. -/
def QSlot.op (q : QSlot) : Nat := bits (q.words.getD 0 0#64).toNat 0 8

/-- Entries the head command takes. -/
def QSlot.span (q : QSlot) : Nat := if q.op = 1 then 2 else 1

/-- The head command has completed: HEAD moves past it, and its vector is raised (R378, R382). -/
def State.doneQ (die : Nat) (q : QSlot) (s : State) : State :=
  let w := (q.words.getD 0 0#64).toNat
  let q1 := { (q.reread s.serial) with head := q.head + q.span, wave := none }
  let s1 := ({ s with serial := s.serial + 1 } : State).tune die q1
  if bit w 8 then s1.msixRaise (hearthOf die) (bits w 16 11) else s1

/-! ### Reading and starting the head command (R378, R380, R382) -/

/-- Bytes of a task-0 GVA: none where they cannot be read. -/
def State.task0Bytes (s : State) (g n : Nat) : Option (List Byte) :=
  if physEnd < g + n ∨ s.homeDead (home0 g) ∨ s.poisoned g n then none else some (s.readMem g n)

/-- The words of a list of bytes. -/
def wordsOfBytes (n : Nat) (bs : List Byte) : List Word := (List.range n).map fun i => wordAt bs (8 * i)

/-- How many words the head command has, as far as its first word tells. -/
def QSlot.need (q : QSlot) : Nat := if q.words ≠ [] ∧ q.op = 1 then 16 else 8

/-- The slot's queue runs, and the next entry of its head command can be read now: its doorbell has come, and its DRAM channel is ready
(R380, R417). -/
def State.canRead (s : State) (q : QSlot) : Bool :=
  q.st == .run && !q.asked && !s.chanWaits (q.entryAt (q.head + q.words.length / 8)) && decide (q.words.length < q.need) && decide (q.head + q.words.length / 8 < s.tail q.qid)

/-- Reads one entry of the head command: from the host it is asked for, from the device it comes at once (R380). -/
def State.readEntry (die : Nat) (q : QSlot) (s : State) : State :=
  let g := q.entryAt (q.head + q.words.length / 8)
  if hostBase ≤ g then
    (s.putQ die { q with asked := true }).askHost (.queue q.ser) 64 (.memRead · (g - hostBase) 64)
  else match s.task0Bytes g 64 with
    | some bs => s.putQ die { q with words := q.words ++ wordsOfBytes 8 bs }
    | none => s.failQ die q 3 (BitVec.ofNat 64 g)

/-- The head command stands in the stoker whole and is not under way. -/
def QSlot.startable (q : QSlot) : Bool := q.st == .run && !q.started && decide (8 ≤ q.words.length) && decide (q.need ≤ q.words.length)

/-- The priority the stoker serves a slot at (R378). -/
def QSlot.prio (q : QSlot) : Nat :=
  let p := bits (q.words.getD 0 0#64).toNat 52 4
  if q.op = 1 ∧ p ≠ 0 then p else q.pri

/-- A command's fields that R382 reserves, and for LAUNCH R384, are 0, and its OP and CYCLES are in range. -/
def QSlot.cmdOk (q : QSlot) : Bool :=
  let w := (q.words.getD 0 0#64).toNat
  let z (i : Nat) : Bool := q.words.getD i 0#64 == 0#64
  if q.op = 1 then
    bits w 9 7 == 0 && bits w 27 5 == 0 && bits w 56 8 == 0 && z 7 && z 12 && z 13 && z 14 && z 15
      && bits (q.words.getD 2 0#64).toNat 56 8 == 0 && bits (q.words.getD 6 0#64).toNat 40 24 == 0
  else
    decide (2 ≤ q.op) && decide (q.op ≤ 6) && bits w 9 7 == 0 && bits w 27 37 == 0 && z 4 && z 5 && z 6 && z 7
      && (q.op != 4 || (decide (0 < (q.words.getD 3 0#64).toNat) && decide ((q.words.getD 3 0#64).toNat < 2 ^ 40)))

/-- The slots of a die in round-robin order, by their numbers, after the one served last (R378). -/
def DieSt.roundRobin (d : DieSt) : List QSlot :=
  (List.range 64).filterMap fun i => d.slots.find? fun q => q.slot == (d.rr + 1 + i) % 64

/-- The slot whose head command has the highest priority, the first among equals (R378). -/
def bestSlot (l : List QSlot) : Option QSlot :=
  (l.filter QSlot.startable).foldl (fun o q => match o with
    | none => some q
    | some r => if r.prio < q.prio then some q else some r) none

/-- The stoker of a die serves queues (R22, R415). -/
def State.stokes (s : State) (die : Nat) : Bool := s.rdyd.getLsbD (4 + die)

/-- `QUEUE_DISPATCH` (R22, R378): the stoker reads the next entry it lacks, else starts the head command of the highest
priority. -/
def execQueueDispatch (die : Nat) (s : State) : Host.Outcome State Fault Refusal :=
  .next
    (let l := if s.stokes die then (s.die die).roundRobin else []
     match l.find? s.canRead with
     | some q => s.readEntry die q
     | none =>
       match bestSlot l with
       | none => s
       | some q =>
         if !q.cmdOk then s.failQ die q 1 0#64
         else (s.putQ die { q with started := true }).setDie die fun d => { d with rr := q.slot })

/-- A step of a head command, whose accesses go through the hearth's port, and those to a LAUNCH's records through the port of each
placement core (R77, R355). -/
def State.headStep (die : Nat) (q : QSlot) (f : State → State) (s : State) : State := s.atPort (.queue die q.slot) f

/-- A step of a slot's head command: the slot runs a started command with that OP. -/
def onHead (op die slot : Nat) (f : QSlot → State → State) (s : State) : Host.Outcome State Fault Refusal :=
  .next
    (match s.qslot die slot with
    | some q => if s.stokes die ∧ q.st = .run ∧ q.started ∧ q.op = op then s.headStep die q (f q) else s
    | none => s)

/-- The queue waits with its command at the head (R378). -/
def State.blockQ (die : Nat) (q : QSlot) (s : State) : State := s.putQ die { q with st := .block }

/-! ### Addresses of commands (R382) -/

/-- On whose behalf a queue's command acts (R382). -/
def QSlot.who (die : Nat) (q : QSlot) : Who := ⟨hearthOf die, q.task, q.task == 0#16⟩

/-- The place of a command's word; none where the address fails (R382, R389). -/
def State.qplace (die : Nat) (q : QSlot) (nd : Need) (addr : Word) (s : State) : Option (Loc × State) :=
  let who := q.who die
  let g := if q.task = 0#16 then some addr.toNat else (s.taskSet who.core q.task).gva nd addr 8
  match g with
  | none => none
  | some g =>
    if addr.toNat % 8 ≠ 0 ∨ s.area who.lvlH nd g 8 = .none then none
    else match s.locateEng who nd g 8 with
      | .loc l s => some (l, s)
      | .miss s => some (.mem 0 noHome false 0#64, s)
      | _ => none

/-- ADDR of a command. -/
def QSlot.addr (q : QSlot) : Word := q.words.getD 1 0#64
/-- VALUE of a command. -/
def QSlot.value (q : QSlot) : Word := q.words.getD 2 0#64

/-- Sends the head command's request to a peer; the answer completes it. -/
def State.askPeer (die : Nat) (q : QSlot) (p w o opc sub : Nat) (data : List Byte) (s : State) : State :=
  (s.sendEngine (.queue q.ser) (hearthOf die) q.addr p w o [(opc, sub, 8, data)]).putQ die { q with sent := true }

/-- The counter's home adds VALUE (R383). -/
def State.signalQ (die : Nat) (q : QSlot) (s : State) : State :=
  match s.qplace die q (nAmo false) q.addr with
  | some (.mem a home _ _, s1) =>
    if s1.chanWaits a then s
    else if s1.homeDead home || s1.poisoned a 8 then s1.failQ die q 3 q.addr
    else let s2 := (s1.homeAmo 0 a q.value).2.2; s2.doneQ die ((s2.qslot die q.slot).getD q)
  | some (.peer p w o, s1) => if q.sent then s else s1.askPeer die q p w o 0x03 0 (leBytes 8 q.value.toNat)
  | _ => s.failQ die q 3 q.addr

/-- `SIGNAL` (R383). -/
def execSignal (die slot : Nat) (s : State) : Host.Outcome State Fault Refusal := onHead 2 die slot (State.signalQ die) s

/-- WAIT examines its counter (R383): it completes, or the queue waits in BLOCK, with an entry at the counter's home which is served
when a write brings it there, whatever the counter holds later (R186). -/
def State.waitQ (die : Nat) (q : QSlot) (s : State) : State :=
  if q.met then s.doneQ die q else
  match s.qplace die q nWtw q.addr with
  | some (.mem a home _ _, s1) =>
    if s1.chanWaits a then s1.blockQ die q
    else if s1.homeDead home || s1.poisoned a 8 then s1.failQ die q 3 q.addr
    else if q.value.toNat ≤ (s1.readWord a).toNat then s1.doneQ die q
    else s1.blockQ die { q with wt := some (a, home, q.value) }
  | some (.zeros, s1) => if q.value = 0#64 then s1.doneQ die q else s1.blockQ die q
  | some (.peer p w o, s1) =>
    if q.sent then s1.blockQ die q else (s1.askPeer die { q with st := .block } p w o 0x01 5 (leBytes 8 q.value.toNat))
  | _ => s.failQ die q 3 q.addr

/-- `WAIT` (R383). -/
def execWait (die slot : Nat) (s : State) : Host.Outcome State Fault Refusal := onHead 3 die slot (State.waitQ die) s

/-- MARK stores VALUE with FE full (R383). -/
def State.markQ (die : Nat) (q : QSlot) (s : State) : State :=
  match s.qplace die q nStore q.addr with
  | some (.mem a home _ _, s1) =>
    if s1.chanWaits a then s
    else if s1.homeDead home || s1.chanFailed a then s1.failQ die q 3 q.addr
    else let s2 := s1.homeWrite a (leBytes 8 q.value.toNat); s2.doneQ die ((s2.qslot die q.slot).getD q)
  | some (.host o, s1) => (s1.emit (.memWrite o (leBytes 8 q.value.toNat))).doneQ die q
  | some (.peer p w o, s1) => if q.sent then s else s1.askPeer die q p w o 0x02 4 (leBytes 8 q.value.toNat)
  | _ => s.failQ die q 3 q.addr

/-- `MARK` (R383). -/
def execMark (die slot : Nat) (s : State) : Host.Outcome State Fault Refusal := onHead 5 die slot (State.markQ die) s

/-- Every population launched from the queue has completed (R383). -/
def State.fenceClear (s : State) (q : QSlot) : Bool := s.pops.all fun p => p.queue != some q.qid || p.complete

/-- FENCE (R383). -/
def State.fenceQ (die : Nat) (q : QSlot) (s : State) : State := if s.fenceClear q then s.doneQ die q else s.blockQ die q

/-- `FENCE` (R383). -/
def execQueueFence (die slot : Nat) (s : State) : Host.Outcome State Fault Refusal := onHead 6 die slot (State.fenceQ die) s

/-! ### Deadlines (R387, R388) -/

/-- A deadline is missed (R387): MISS is set, reported and MISSV raised, and the unit disarms. -/
def State.missQ (die : Nat) (q : QSlot) (addr : Word) (s : State) : State :=
  let q1 := { q with miss := true, dl := none }
  ((s.putQ die q1).stokerSays die q1 2 addr).msixRaise (hearthOf die) q1.missv

/-- Arms a slot's unit; none where the address fails. A counter on a peer is watched there (R387). -/
def State.armQ (die : Nat) (q : QSlot) (addr val : Word) (count : Nat) (s : State) : Option (Deadline × State) :=
  let u : Deadline := { addr := addr, val := val, count := count, base := (s.die die).cyc, place := none, ser := s.serial }
  match s.qplace die q nWtw addr with
  | some (.mem a home paged _, s1) => some ({ u with place := some (a, home), paged := paged }, { s1 with serial := s1.serial + 1 })
  | some (.zeros, s1) => some (u, { s1 with serial := s1.serial + 1 })
  | some (.peer p w o, s1) =>
    some (u, ({ s1 with serial := s1.serial + 1 } : State).sendEngine (.watch s.serial) (hearthOf die) addr p w o
      [(0x01, 5, 8, leBytes 8 val.toNat)])
  | _ => none

/-- The unit keeps its word under watch only while the word has not reached its target. -/
def State.holdDeadline (s : State) (u : Deadline) : Option Deadline := if s.deadlineMet u then none else some u

/-- DEADLINE (R383, R387). -/
def State.deadlineQ (die : Nat) (q : QSlot) (s : State) : State :=
  if q.dl.isSome then s.blockQ die q
  else match s.armQ die q q.addr q.value (q.words.getD 3 0#64).toNat with
    | some (u, s1) => s1.doneQ die { q with dl := s1.holdDeadline u }
    | none => s.failQ die q 3 q.addr

/-- `DEADLINE` (R383). -/
def execDeadline (die slot : Nat) (s : State) : Host.Outcome State Fault Refusal := onHead 4 die slot (State.deadlineQ die) s

/-- The watch of a unit is sent: a restored one (R388), or one that its home has refused since its port has adopted a generation
(R358, R387). -/
def State.rearmQ (die : Nat) (q : QSlot) (u : Deadline) (s : State) : State :=
  s.atPort (.queue die q.slot) fun s =>
    match s.armQ die q u.addr u.val (u.left (s.die die).cyc) with
    | some (v, s1) => s1.putQ die { q with dl := s1.holdDeadline v }
    | none => s

/-- `DEADLINE_EXPIRE` (R387). -/
def execDeadlineExpire (die slot : Nat) (s : State) : Host.Outcome State Fault Refusal :=
  .next
    (match s.qslot die slot with
    | none => s
    | some q =>
      match q.dl with
      | none => s
      | some u =>
        if u.left (s.die die).cyc = 0 then s.missQ die q u.addr
        else if s.deadlineMet u then s.putQ die { q with dl := none }
        else if u.anew then s.rearmQ die q u
        else s)

/-! ### LAUNCH (R384-R386) -/

/-- A LAUNCH image (R384). -/
structure Launch where
  task : BitVec 16
  shape : Nat
  desc : SpawnDesc
  tixb : Nat
  named : List Nat                            -- the cores it names, less the hearth cores and the spares
  bad : Bool
  deriving DecidableEq, Repr

/-- The cores PLACE names, in ascending order; none where it breaks its limits (R384). -/
def State.launchCores (s : State) (plk : Nat) (place : Nat) : Option (List Nat) :=
  let usable (l : List Nat) : List Nat := l.filter fun n => !isHearth n && !isSpare n
  match plk with
  | 0 =>
    let first := bits place 0 11
    let n := bits place 16 12
    if bits place 11 5 ≠ 0 ∨ bits place 28 36 ≠ 0 ∨ n = 0 ∨ nCores < first + n then none
    else some (usable ((List.range n).map (· + first)))
  | 1 => if 256 ≤ place then none else some (usable (maskCores (s.homeMask place)))
  | _ => none

/-- A LAUNCH image from its 16 words (R384). -/
def State.launchOf (s : State) (ws : List Word) : Launch :=
  let w (i : Nat) : Word := ws.getD i 0#64
  let c := (w 0).toNat
  let n := (w 2).toNat
  let shape := bits c 48 2
  let cores := s.launchCores (bits c 50 2) (w 3).toNat
  let d : SpawnDesc :=
    { pc := w 1, seeds := [w 8, w 9, w 10, w 11], count := countOf n, quota := bits n 40 16, place := w 3, arena := w 4
      done := w 5, task := BitVec.ofNat 16 (bits c 32 16), shape := shape, bad := false }
  let l := cores.getD []
  { task := d.task, shape := shape, desc := d, tixb := bits (w 6).toNat 0 40, named := l
    bad := decide ((w 1).toNat % 4 ≠ 0) || decide (d.quota = 0) || decide (4096 < d.quota) || decide ((w 4).toNat % 2 ^ 16 ≠ 0)
      || shape == 3 || decide (2 ^ 40 < bits (w 6).toNat 0 40 + d.count) || l.isEmpty
      || (shape == 1 && decide (64 < d.count))
      || (shape == 2 && decide (64 * (s.workCores (s.coreCluster (l.headD 0))).length < d.count)) }

/-- The cores a LAUNCH places threads on: a crew and a gang have the first core that PLACE names (R95). -/
def Launch.cores (l : Launch) : List Nat := if l.shape = 0 then l.named else l.named.take 1

/-- Continues the first wave of a population where it stopped (R384): how far it is, and whether a core that is full of
attached threads stops it. -/
def State.waveOn (p : Pop) : Nat → Nat → State → Nat × Bool × State
  | 0, i, s => (i, true, s)
  | n + 1, i, s =>
    if p.waveSize ≤ i then (i, true, s)
    else if 4096 ≤ (s.attached (p.waveCore i)).length then (i, false, s)
    else State.waveOn p n (i + 1) (s.materialiseNext p i)

/-- The core of each member of a crew or a gang, by TIX (R95). -/
def State.memberCores (s : State) (p : Pop) : List Nat :=
  let c := p.cores.headD 0
  let l := s.workCores (s.coreCluster c)
  if p.shape = 1 then List.replicate p.count c
  else
    let w := (l.filter fun n => decide (c ≤ n)) ++ l.filter fun n => decide (n < c)
    (List.range p.count).map fun t => w.getD (t % w.length) c

/-- A core that members of a crew or a gang are to run on would exceed 4,096 attached threads (R81, R384). -/
def State.membersFull (s : State) (p : Pop) : Bool :=
  let cores := s.memberCores p
  cores.any fun n => decide (4096 < (s.attached n).length + cores.countP fun m => m == n)

/-- A LAUNCH that has its population goes on: the first wave, or the admission of a crew or a gang. -/
def State.launchMore (die : Nat) (q : QSlot) (ix i : Nat) (s : State) : State :=
  match s.findPop ix with
  | none => s.doneQ die q
  | some p =>
    if p.shape ≠ 0 then
      if s.clusters.any fun c => c.2.admits.contains ix then
        (if s.membersFull p then s.blockQ die q else s.putQ die { q with st := .run })
      else s.doneQ die q
    else
      let r := State.waveOn p (p.waveSize + 1 - i) i s
      if r.2.1 then r.2.2.doneQ die q else r.2.2.blockQ die { q with wave := some (ix, r.1) }

/-- A population is created for a LAUNCH, and no core that can run it keeps data lines older than it (R385); a crew or a gang joins its cluster's admissions (R85, R95). -/
def State.launchPop (l : Launch) (queue : Option Nat) (s : State) : Pop × State :=
  let r := s.newPop l.task l.desc l.cores l.tixb
  let s1 := r.2.updPop r.1.ix fun p => { p with queue := queue }
  let on := if l.shape = 0 then l.cores else s.workCores (s.coreCluster (l.cores.headD 0))
  let s2 := on.foldl (fun s n => s.dropNear n) s1
  (r.1, if l.shape = 0 then s2
    else s2.setCluster (s2.coreCluster (l.cores.headD 0)) fun c => { c with admits := c.admits ++ [r.1.ix] })

/-- LAUNCH (R384, R386, R417): its checks, then the first wave. -/
def State.launchQ (die : Nat) (q : QSlot) (s : State) : State :=
  match q.wave with
  | some (ix, i) => s.launchMore die q ix i
  | none =>
    let l := s.launchOf q.words
    if q.task ≠ 0#16 ∧ l.task ≠ q.task then s.failQ die q 4 0#64
    else if l.bad then s.failQ die q 5 0#64
    else if l.named.any fun n => bootDie n != die then
      if q.st = .block then s
      else (s.blockQ die q).stokerSays die q 3 (BitVec.ofNat 64 (q.entryAt q.head))
    else if l.named.any s.homeDead then s.failQ die q 5 0#64
    else match s.doneTrap l.task (hearthOf die) l.desc.done with
      | some _ => s.failQ die q 3 l.desc.done
      | none =>
        if l.named.any fun n => !s.rdyc.contains (s.coreCluster n) then s.blockQ die q
        else
          let r := s.launchPop l (some q.qid)
          r.2.launchMore die { q with wave := some (r.1.ix, 0) } r.1.ix 0

/-- `LAUNCH` (R384). -/
def execLaunch (die slot : Nat) (s : State) : Host.Outcome State Fault Refusal := onHead 1 die slot (State.launchQ die) s

/-- `QUEUE_UNBLOCK` (R378): a blocked head command is examined again, and completes when its condition has cleared. -/
def execQueueUnblock (die slot : Nat) (s : State) : Host.Outcome State Fault Refusal :=
  .next
    (match s.qslot die slot with
    | none => s
    | some q =>
      if q.st ≠ .block ∨ !s.stokes die then s
      else s.headStep die q fun s => match q.op with
        | 1 => s.launchQ die q
        | 3 => s.waitQ die q
        | 4 => s.deadlineQ die q
        | 6 => s.fenceQ die q
        | _ => s)

/-- A peer has answered a head command: it completes, or fails with FAULT (R383, R389). -/
def State.queueAnswer (ser : Nat) (ok : Bool) (s : State) : State :=
  match [0, 1, 2, 3].findSome? fun d => ((s.die d).slots.find? fun q => q.ser == ser && q.sent).map fun q => (d, q) with
  | some (d, q) => if ok then s.doneQ d q else s.failQ d q 3 q.addr
  | none =>
    match s.lateVecs.find? fun v => v.1 == ser with
    | some (_, d, v) =>
      let s1 : State := { s with lateVecs := dropFirst (fun v => v.1 == ser) s.lateVecs }
      if ok then s1.msixRaise (hearthOf d) v else s1
    | none => s

/-- A peer has answered a deadline's watch: a met one disarms its unit (R387). -/
def State.watchAnswer (ser : Nat) (ok : Bool) (s : State) : State :=
  let f (cyc : Word) (q : QSlot) : QSlot := if q.dl.any (fun u => u.ser == ser && u.left cyc != 0) && ok then { q with dl := none } else q
  { s with dies := s.dies.map fun (d : Nat × DieSt) => (d.1, { d.2 with slots := d.2.slots.map (f d.2.cyc) }) }

/-- Words of a ring entry arrive from the host (R380). -/
def State.queueWords (ser : Nat) (bs : List Byte) (s : State) : State :=
  match [0, 1, 2, 3].findSome? fun d => ((s.die d).slots.find? fun q => q.ser == ser && q.asked).map fun q => (d, q) with
  | some (d, q) => s.putQ d { q with words := q.words ++ wordsOfBytes 8 bs, asked := false }
  | none => s

/-- Words of a ring entry arrive from the host as poison: the read has failed (R389, R401). -/
def State.queueLost (ser : Nat) (s : State) : State :=
  match [0, 1, 2, 3].findSome? fun d => ((s.die d).slots.find? fun q => q.ser == ser && q.asked).map fun q => (d, q) with
  | some (d, q) => s.failQ d { q with asked := false } 3 (BitVec.ofNat 64 (q.entryAt (q.head + q.words.length / 8)))
  | none => s

/-! ### qmap, qunm and qsw (R388, R392) -/

/-- The word of a descriptor that breaks R377, by its offset; a queue with DLA set is mapped only where it was saved. -/
def descFault (die : Nat) (w : List Word) : Option Nat :=
  let r := (w.getD 0 0#64).toNat
  let c := (w.getD 1 0#64).toNat
  let st := (w.getD 3 0#64).toNat
  if r % 4096 ≠ 0 ∨ ¬(r < physEnd ∨ (hostBase ≤ r ∧ r < hostBase + 2 ^ 48)) then some 0x00
  else if bits c 59 5 ≠ 0 ∨ bits c 47 1 ≠ 0 ∨ bits c 0 4 < 6 then some 0x08
  else if bits st 11 53 ≠ 0 ∨ 4 < bits st 0 3 ∨ (bit st 8 ∧ bits st 9 2 ≠ die) then some 0x18
  else none

/-- A queue's slot as its descriptor gives it; the deadline is restored afterwards. -/
def slotOf (slot ser : Nat) (desc : Word) (w : List Word) : QSlot :=
  { slot := slot, desc := desc, rbase := w.getD 0 0#64, word8 := w.getD 1 0#64, head := (w.getD 2 0#64).toNat, st := .idle
    err := bits (w.getD 3 0#64).toNat 4 4, miss := bit (w.getD 3 0#64).toNat 3, ser := ser }

/-- Restores a saved deadline (R388): the cycles elapsed since the save are taken off, and none left is a miss; else its watch is
sent next. -/
def State.restoreDeadline (die : Nat) (q : QSlot) (w : List Word) (s : State) : State :=
  if !bit (w.getD 3 0#64).toNat 8 then s
  else
    let gone := ((s.die die).cyc - w.getD 5 0#64).toNat
    let left := (w.getD 4 0#64).toNat - gone
    if left = 0 then s.missQ die q (w.getD 6 0#64)
    else
      s.putQ die
        { q with
          dl := some { addr := w.getD 6 0#64, val := w.getD 7 0#64, count := left, base := (s.die die).cyc, place := none, ser := s.serial
                       anew := true } }

/-- Maps a descriptor into a slot, or the lowest FREE one (R392): the status and its VAL. -/
def State.mapQ (die : Nat) (want : Option Nat) (desc : Word) (w : List Word) (s : State) : Nat × Nat × State :=
  match descFault die w with
  | some off => (7, off, s)
  | none =>
    let qid := bits (w.getD 1 0#64).toNat 8 12
    if [0, 1, 2, 3].any fun d => (s.die d).slots.any fun q => q.qid == qid then (6, 0, s)
    else
      let used := (s.die die).slots.map (·.slot)
      match (match want with
        | some k => if used.contains k then none else some k
        | none => freshFrom used 0 64) with
      | none => (5, 0, s)
      | some k =>
        let q := slotOf k s.serial desc w
        let s1 := ({ s with serial := s.serial + 1 } : State).setDie die fun d => { d with slots := d.slots ++ [q] }
        let s2 := s1.restoreDeadline die q w
        (0, k, s2.tune die ((s2.qslot die k).getD q))

/-- Reads 64 bytes of a descriptor under task 0 (R392). -/
def withTask0 (g : Word) (n : Nat) (s : State) (k : List Byte → Eff) : Eff :=
  let a := g.toNat
  if physEnd < a + n then .again (s.pageEvent cPGF nLoad 0 a)
  else if s.chanWaits a then .park (.channel (chanOf a))
  else if s.homeDead (home0 a) then .trap tPOI pDEAD g
  else if s.poisoned a n then .trap tPOI pUNCORR g
  else k (s.readMem a n)

/-- The die whose stoker a thread of the hearth acts on. -/
def State.myDie (s : State) : Nat := s.coreDie s.thr.core

/-- `qmap` (R392). -/
def execQmap (x : Args) (s : State) : Host.Outcome State Fault Refusal :=
  issueSys x (fun s =>
    withSrc x.b s fun g s =>
      if g.toNat % 64 ≠ 0 then .ill 0xF0#8 0xD
      else
        withDest x.a s
          (withTask0 g 64 s fun bs =>
            let r := s.mapQ s.myDie none g (wordsOfBytes 8 bs)
            .done (r.2.2.writeX x.a.rix (statusWord r.1 r.2.1)))) s

/-- The five words `qunm` writes back, from offset 0x10 on: HEAD, QSTAT, DLREM, DLCYC, DLADR and DLVAL (R377, R392); a
SIGNAL or MARK that has been sent counts as consumed. -/
def State.savedWords (s : State) (die : Nat) (q : QSlot) : List Word :=
  let now := (s.die die).cyc
  let head := if q.sent ∧ (q.op = 2 ∨ q.op = 5) then q.head + 1 else q.head
  let stat := field q.st.code 0 ||| field (b2n q.miss) 3 ||| field q.err 4 ||| field (b2n q.dl.isSome) 8 ||| field die 9
  [BitVec.ofNat 64 head, stat] ++
    (match q.dl with
    | some u => [BitVec.ofNat 64 (u.left now), now, u.addr, u.val]
    | none => [0#64, now, 0#64, 0#64])

/-- Unmaps a slot: its descriptor is written back and the slot is FREE (R392); the vector of a SIGNAL or MARK that has been sent is raised
when it is performed (R382). -/
def State.unmapQ (die : Nat) (q : QSlot) (s : State) : State :=
  let w := (q.words.getD 0 0#64).toNat
  let s := if q.sent && (q.op == 2 || q.op == 5) && bit w 8 then { s with lateVecs := s.lateVecs ++ [(q.ser, die, bits w 16 11)] } else s
  let bs := ((s.savedWords die q).map fun w => leBytes 8 w.toNat).flatten
  (s.homeWrite (q.desc.toNat + 0x10) bs).setDie die fun d => { d with slots := d.slots.filter fun r => r.slot != q.slot }

/-- A LAUNCH in progress finishes its first wave before its queue is unmapped (R392); it waits for a core that is full. -/
def withWave (die : Nat) (q : QSlot) (s : State) (k : QSlot → State → Eff) : Eff :=
  match q.wave with
  | none => k q s
  | some (ix, i) =>
    let s1 := s.launchMore die q ix i
    match s1.qslot die q.slot with
    | none => k q s1
    | some q1 =>
      match q1.wave, s1.findPop ix with
      | some (_, j), some p => .park (if p.shape = 0 then .attach (p.waveCore j) else .attach (p.cores.headD 0))
      | _, _ => k q1 s1

/-- Unmaps a slot, or gives NONE (R392). -/
def withUnmap (x : Args) (slot : Nat) (s : State) (k : Nat → State → Eff) : Eff :=
  match s.qslot s.myDie slot with
  | none => .done (s.writeX x.a.rix (statusWord 1 0))
  | some q =>
    withTask0 q.desc 64 s fun _ =>
      withWave s.myDie q s fun q s => k q.qid (s.unmapQ s.myDie q)

/-- `qunm` (R392). -/
def execQunm (x : Args) (s : State) : Host.Outcome State Fault Refusal :=
  issueSys x (fun s =>
    withSrc x.b s fun k s =>
      if 64 ≤ k.toNat then .ill 0xF1#8 0xD
      else withDest x.a s (withUnmap x k.toNat s fun qid s => .done (s.writeX x.a.rix (statusWord 0 qid)))) s

/-- `qsw` (R392). -/
def execQsw (x : Args) (s : State) : Host.Outcome State Fault Refusal :=
  issueSys x (fun s =>
    withSrc x.b s fun k s => withSrc x.c s fun g s =>
      if 64 ≤ k.toNat ∨ g.toNat % 64 ≠ 0 then .ill 0xF2#8 0xD
      else
        withDest x.a s
          (withTask0 g 64 s fun _ =>
            withUnmap x k.toNat s fun _ s =>
              let r := s.mapQ s.myDie (some k.toNat) g (wordsOfBytes 8 (s.readMem g.toNat 64))
              .done (r.2.2.writeX x.a.rix (statusWord r.1 r.2.1)))) s

/-! ### qlch, qdl, qst and qsig (R393-R396) -/

/-- The status of a `qlch` and the population's handle (R393). -/
def Eff.launched (x : Args) (code : Nat) (h : Word) (s : State) : Eff := .done (s.writeRegs [statusWord code 0, h] x.a.rix)

/-- The first wave of a `qlch` goes on from index `i`; at a core that is full of attached threads it waits for room there (R384,
R393; DESIGN CHOICE, log 58). -/
def State.launchHere (x : Args) (ix i : Nat) (s : State) : Eff :=
  match s.findPop ix with
  | none => .launched x 0 0#64 s
  | some p =>
    let r := State.waveOn p (p.waveSize + 1 - i) i s
    if r.2.1 then .launched x 0 p.handle (r.2.2.mapRes fun q => { q with launch := none })
    else .again ((r.2.2.mapRes fun q => { q with launch := some (ix, r.1) }).parkOn (.attach (p.waveCore r.1)))

/-- `qlch` (R393): the image is read under task 0; its status and the population's handle. -/
def execQlch (x : Args) (s : State) : Host.Outcome State Fault Refusal :=
  issueSys x (fun s =>
    withEa x.b x.c s fun ea s =>
      withDest x.a s <| withDests 1 (x.a.rix + 1#4) s
        (match s.thr.res.launch with
        | some (ix, i) => withRecords s (State.launchHere x ix i)
        | none =>
          if ea.toNat % 128 ≠ 0 then .trap tALN 0#8 ea else
          withTask0 ea 128 s fun bs =>
          let l := s.launchOf (wordsOfBytes 16 bs)
          let q : QSlot := { (slotOf 0 0 0#64 []) with words := wordsOfBytes 16 bs }
          let fin (code : Nat) (h : Word) (s : State) : Eff := .launched x code h s
          if q.op ≠ 1 ∨ !q.cmdOk ∨ l.bad then fin 2 0#64 s
          else if l.named.any fun n => bootDie n != s.myDie then fin 7 0#64 s
          else if l.named.any s.homeDead then fin 2 0#64 s
          else if (s.doneTrap l.task s.thr.core l.desc.done).isSome then fin 2 0#64 s
          else match l.named.find? fun n => !s.rdyc.contains (s.coreCluster n) with
            | some n => .park (.ready (s.coreCluster n))
            | none =>
              withRecords s fun s =>
                let r := s.launchPop l none
                if l.shape ≠ 0 then fin 0 r.1.handle r.2 else r.2.launchHere x r.1.ix 0)) s

/-- A form of `qdl` or `qst` on a slot: what it writes, and what it does (R394, R395). -/
def onSlot (op : BitVec 8) (x : Args) (f : Option QSlot → State → Word × State) (s : State) : Host.Outcome State Fault Refusal :=
  issueSys x (fun s =>
    withSrc x.b s fun k s =>
      if 64 ≤ k.toNat then .ill op 0xD
      else
        withDest x.a s
          (let r := f (s.qslot s.myDie k.toNat) s
           .done (r.2.writeX x.a.rix r.1))) s

/-- The cycles left on the unit of a slot; 0 when it is unarmed (R394). -/
def State.leftOf (s : State) (q : Option QSlot) : Nat :=
  match q.bind (·.dl) with
  | some u => u.left (s.die s.myDie).cyc
  | none => 0

/-- `qdl.rd` (R394). -/
def execQdlRd (x : Args) (s : State) : Host.Outcome State Fault Refusal :=
  onSlot 0xF4#8 x (fun q s => (BitVec.ofNat 64 (s.leftOf q), s)) s

/-- `qdl.add` (R394). -/
def execQdlAdd (x : Args) (s : State) : Host.Outcome State Fault Refusal :=
  issueSys x (fun s =>
    withSrc x.b s fun k s => withSrc x.c s fun v s =>
      if 64 ≤ k.toNat then .ill 0xF4#8 0xD
      else
        withDest x.a s
          (match s.qslot s.myDie k.toNat with
          | none => .done (s.writeX x.a.rix 0#64)
          | some q =>
            match q.dl with
            | none => .done (s.writeX x.a.rix 0#64)
            | some u =>
              let now := (s.die s.myDie).cyc
              let n := (max 1 ((u.left now : Int) + v.toInt)).toNat
              .done ((s.putQ s.myDie { q with dl := some { u with count := n, base := now } }).writeX x.a.rix (BitVec.ofNat 64 n)))) s

/-- `qdl.stop` (R394). -/
def execQdlStop (x : Args) (s : State) : Host.Outcome State Fault Refusal :=
  onSlot 0xF4#8 x (fun q s =>
    (BitVec.ofNat 64 (s.leftOf q), match q with
      | some q => s.putQ s.myDie { q with dl := none }
      | none => s)) s

/-- The status word of a slot; STATE 0 when it is FREE (R395). -/
def State.slotWord (s : State) (q : Option QSlot) : Word := (q.map s.qword).getD 0#64

/-- `qst.slot` (R395). -/
def execQstSlot (x : Args) (s : State) : Host.Outcome State Fault Refusal := onSlot 0xF5#8 x (fun q s => (s.slotWord q, s)) s

/-- `qst.bell` (R395). -/
def execQstBell (x : Args) (s : State) : Host.Outcome State Fault Refusal :=
  issueSys x (fun s =>
    withSrc x.b s fun k s =>
      if 4096 ≤ k.toNat then .ill 0xF5#8 0xD
      else withDest x.a s (.done (s.writeX x.a.rix ((look k.toNat s.bells).getD 0#64)))) s

/-- Clears MISS and ERR; a queue in ERROR or BLOCK retries its head command, or goes past it (R395). -/
def State.clearQ (skip : Bool) (q : Option QSlot) (s : State) : Word × State :=
  match q with
  | none => (0#64, s)
  | some q =>
    let q1 := { q with miss := false, err := 0 }
    let held := q.st == .error || q.st == .block
    let q2 := if !held then q1
      else if skip then { (q1.reread s.serial) with head := q1.head + q1.span, wave := none }
      else if q1.wave.isSome then { q1 with st := .run, started := true }
      else q1.reread s.serial
    let s1 : State := { s with serial := s.serial + 1 }
    (s.qword q, if held then s1.tune s.myDie q2 else s1.putQ s.myDie q2)

/-- `qst.clr` (R395). -/
def execQstClr (x : Args) (s : State) : Host.Outcome State Fault Refusal := onSlot 0xF5#8 x (State.clearQ false) s

/-- `qst.skip` (R395). -/
def execQstSkip (x : Args) (s : State) : Host.Outcome State Fault Refusal := onSlot 0xF5#8 x (State.clearQ true) s

/-- `qsig.ctr` (R396): the add at the counter's home, or REFUSED. -/
def execQsigCtr (x : Args) (s : State) : Host.Outcome State Fault Refusal :=
  issueSys x (fun s =>
    withSrc x.b s fun g s => withSrc x.c s fun v s =>
      withDest x.a s
        (withRelease .dev none s
          (let a := g.toNat
           let fin (code val : Nat) (s : State) : Eff := .done (s.writeX x.a.rix (statusWord code val))
           let who : Who := ⟨s.thr.core, 0#16, true⟩
           if a % 8 ≠ 0 then fin 7 0 s
           else match s.locate who (nAmo false) a 8 with
             | .loc (.mem p home _ _) s1 =>
               if s1.chanWaits p then .park (.channel (chanOf p))
               else if s1.homeDead home then fin 7 3 s
               else if s1.poisoned p 8 then fin 7 5 s
               else fin 0 0 (s1.homeAmo 0 p v).2.2
             | .loc (.peer p w o) s1 =>
               .done ((s1.sendEngine (.signal s.thr.core s.thr.ctx.cxa x.a.rix) s.thr.core g p w o
                 [(0x03, 0, 8, leBytes 8 v.toNat)]).oweX x.a.rix)
             | .deadPeer _ => fin 7 3 s
             | _ => fin 7 0 s))) s

/-- `qsig.irq` (R396). -/
def execQsigIrq (x : Args) (s : State) : Host.Outcome State Fault Refusal :=
  issueSys x (fun s =>
    withSrc x.b s fun v s =>
      if 2048 ≤ v.toNat then .ill 0xF6#8 0xD
      else withDest x.a s (.done ((s.msixRaise s.thr.core v.toNat).writeX x.a.rix (statusWord 0 0)))) s

end Sys2Proof.Machine
end

