-- ==== Sys2Proof/Machine/HostPort.lean ====
section
/-! DEFINITION. The host port: doorbells (R379), BAR2 (R179, R381), the management mailbox, W2BASE and the MSI-X table
(R381), and completions from the host (R179). -/

namespace Sys2Proof.Machine

open Config

/-- The PCIe port does not respond while die 0 is fatal (R418). -/
def hostStep (s s1 : State) : Host.Outcome State Fault Refusal := .next (if s.dieFatal 0 then s else s1)

/-- A mapped queue sees its new TAIL at once (R379). -/
def State.ringQueue (die : Nat) (q : QSlot) (s : State) : State :=
  match q.st with
  | .idle => s.tune die q
  | .run | .block => if s.badTail q then s.failQ die q 2 0#64 else s
  | .error => s

/-- An 8-byte write at offset 0 of a doorbell page reaches its queue; any other BAR0 write is ignored (R379). -/
def State.ringBell (off size : Nat) (val : Word) (s : State) : State :=
  if size ≠ 8 ∨ off % 4096 ≠ 0 ∨ 2 ^ 24 ≤ off then s
  else
    let qid := off / 4096
    let s1 := { s with bells := put qid val s.bells }
    match [0, 1, 2, 3].findSome? fun d => ((s1.die d).slots.find? fun q => q.qid == qid).map fun q => (d, q) with
    | some (d, q) => s1.ringQueue d q
    | none => s1

/-- The host port answers with Unsupported Request (R381). -/
def State.hostRefuse (off : Nat) (s : State) : State := s.emit (.unsupported off)

/-- The host port performs what has arrived, at its home (R179, R380, R381). -/
def State.hostDo (o : HostIn) (s : State) : State :=
  match o with
  | .write a home off bs _ => if s.homeDead home || s.chanFailed a then s.hostRefuse off else s.homeWrite a bs
  | .read a home off size tag =>
    if s.homeDead home || s.poisoned a size then s.hostRefuse off
    else s.emit (.complete tag (s.readMem a size))
  | .bell off size val => s.ringBell off size val

/-- A BAR2 access waits for its DRAM channel (R417). -/
def State.hostWaits (s : State) (o : HostIn) : Bool :=
  match o with
  | .write a .. => s.chanWaits a
  | .read a .. => s.chanWaits a
  | .bell .. => false

/-- A write with Relaxed Ordering, which need not wait for earlier ones (R179). -/
def HostIn.relaxed (o : HostIn) : Bool :=
  match o with
  | .write _ _ _ _ ro => ro
  | _ => false

/-- The host port performs what it can of a list in arrival order; `kept` is what stays (R179, R380). -/
def State.hostDrain : List HostIn → List HostIn → State → State
  | [], kept, s => { s with hostIn := kept }
  | o :: l, kept, s =>
    if !s.hostWaits o && (kept.isEmpty || o.relaxed) then State.hostDrain l kept (s.hostDo o) else State.hostDrain l (kept ++ [o]) s

/-- Something arrives at the host port. -/
def State.hostTake (o : HostIn) (s : State) : State := State.hostDrain (s.hostIn ++ [o]) [] s

/-- `DOORBELL_WRITE` (R379), after every BAR2 write that arrived before it (R380). -/
def execDoorbellWrite (off size : Nat) (val : Word) (s : State) : Host.Outcome State Fault Refusal :=
  hostStep s (s.hostTake (.bell off size val))

/-- What an access through BAR2 reaches: memory or a scratchpad (R381). A PCIe request crosses no 4 KiB boundary, so that it has one
home. -/
def State.bar2Place (s : State) (off size : Nat) : Option (Nat × Nat) :=
  let g := s.w2base.toNat + off
  if 2 ^ 36 < off + size ∨ size = 0 ∨ g / 4096 ≠ (g + size - 1) / 4096 then none
  else if g + size ≤ physEnd then some (g, home0 g)
  else match s.area true nLoad g size with
    | .window k o => some (coreAddr k o, k)
    | _ => none

/-- `BAR2_WRITE` (R179, R381): performed at the home, in arrival order unless it carries Relaxed Ordering; it waits for its DRAM
channel (R417). -/
def execBar2Write (off : Nat) (bytes : List Byte) (relaxed : Bool) (s : State) : Host.Outcome State Fault Refusal :=
  hostStep s
    (match s.bar2Place off bytes.length with
    | none => s.hostRefuse off
    | some (a, home) => s.hostTake (.write a home off bytes relaxed))

/-- `BAR2_READ` (R179, R381): after every write that arrived before it. -/
def execBar2Read (off size tag : Nat) (s : State) : Host.Outcome State Fault Refusal :=
  hostStep s
    (match s.bar2Place off size with
    | none => s.hostRefuse off
    | some (a, home) => s.hostTake (.read a home off size tag))

/-- `MBELL` (R381): MBOX goes into channel 6 of core 0, with KIND 0 and SRC 0xFFFF; a full channel drops it. -/
def execMbell (_val : Word) (s : State) : Host.Outcome State Fault Refusal :=
  hostStep s
    (if s.roomOf 0 6 = 0 then s
     else
       let w (i : Nat) : Word := s.mboxRegs.getD i 0#64
       s.putMsg 0 6 ⟨(w 0).setWidth 32, (w 0).extractLsb' 32 16 &&& 0xFF00#16, 0xFFFF#16, w 1, w 2, w 3⟩)

/-- Bytes of a word replaced by a write of `size` bytes at a byte offset. -/
def spliceWord (w : Word) (off size : Nat) (v : Word) : Word :=
  let bs := leBytes 8 w.toNat
  BitVec.ofNat 64 (leNat (bs.take off ++ leBytes size v.toNat ++ bs.drop (off + size)))

/-- The values W2BASE takes (R381). -/
def w2baseOk (v : Word) : Bool := v.toNat % 2 ^ 36 == 0 && (decide (v.toNat < physEnd) || v == 0x0080000000000000#64)

/-- `HOST_REGISTER_WRITE` (R381): MBOX, W2BASE and the MSI-X table; the other registers of BAR4 are read only. The offset behind the 128
KiB of BAR4 stands for Message Control in the configuration space, whose bit 14 is the function mask (DESIGN CHOICE, log 36). -/
def execHostRegisterWrite (off size : Nat) (val : Word) (s : State) : Host.Outcome State Fault Refusal :=
  hostStep s
    (if size = 0 ∨ 8 < off % 8 + size then s
     else if off < 0x20 then
       { s with mboxRegs := s.mboxRegs.set (off / 8) (spliceWord (s.mboxRegs.getD (off / 8) 0#64) (off % 8) size val) }
     else if off / 8 * 8 = 0x100 then
       let v := spliceWord s.w2base (off % 8) size val
       if w2baseOk v then { s with w2base := v } else s
     else if 0x10000 ≤ off ∧ off < 0x18000 then
       let i := (off - 0x10000) / 16
       let e := s.msixEntry i
       let e1 := if off % 16 < 8 then (spliceWord e.1 (off % 8) size val, e.2)
         else (e.1, spliceWord e.2 (off % 8) size val &&& 0x1FFFFFFFF#64)
       ({ s with msix := put i e1 s.msix } : State).msixFlush
     else if off = 0x20000 then ({ s with fmask := val.getLsbD 14 } : State).msixFlush
     else s)

/-- A request to the host is complete: the bytes go to who waits for them (R179, R380, R430), or as poison where they arrive uncorrectable
(R400, R401). -/
def State.hostAnswer (r : HostRead) (bs : List Byte) (s : State) : State :=
  let lost := s.path.answer
  match r.owner with
  | .thread core cxa => if lost then s.landTrap core cxa pUNCORR else s.landReply core cxa bs
  | .queue ser => if lost then s.queueLost ser else s.queueWords ser bs
  | .copy core slot gen =>
    match s.copySlot core slot with
    | some c => if c.gen = gen then s.copyAnswer core slot c.next 0 (if lost then .error pUNCORR else .ok bs) else s
    | none => s
  | .pop ix => s.closePop ix
  | .brine id => if lost then s.brineLost id bs.length true else s.brineRead id bs false
  | .gset core cxa fn v addr =>
    let c := gclass bs none
    let s1 : State := { s with hostHold := none, hostQ := [] }
    let s2 := match gsetBytes fn c v bs with
      | some (o, w) => if c == GBlock.bad || c == GBlock.poisoned then s1 else s1.emit (.memWrite (addr + o) w)
      | none => s1
    let s3 := s.hostQ.foldl (fun (s : State) t => s.emit t) s2
    if lost then s3.landTrap core cxa pUNCORR else s3.landReply core cxa bs

/-- `PCIE_COMPLETION` (R179): up to 8 bytes of a request; an unsuccessful completion brings free bytes (DEDUCED, log 37). -/
def execPcieCompletion (tag status : Nat) (data : Word) (s : State) : Host.Outcome State Fault Refusal :=
  hostStep s
    (match s.hostReads.find? fun r => r.tag == tag with
    | none => s
    | some r =>
      let v := if status = 0 then data else freeWord s.serial
      let r1 := { r with got := r.got ++ leBytes (min 8 r.left) v.toNat, left := r.left - 8 }
      let s1 := { s with serial := s.serial + 1 }
      if r1.left = 0 then
        ({ s1 with hostReads := dropFirst (fun r => r.tag == tag) s1.hostReads } : State).hostAnswer r1 r1.got
      else { s1 with hostReads := mapFirst (fun r => r.tag == tag) (fun _ => r1) s1.hostReads })

end Sys2Proof.Machine
end

