-- ==== Sys2Proof/Machine/Turns.lean ====
section
/-! DEFINITION. The scheduler's own steps (R47-R52, R73-R86, R97-R99, R140, R428, R430): binding and filling, the quantum,
results that land, admissions, migrations, wakes and messages that arrive. -/

namespace Sys2Proof.Machine

open Config

/-! ### Results (R48, R80, R128) -/

/-- The word a thread waits for has arrived: the cycles it has waited pass for its results (R39), and the own turns in them, 8 cycles
apart, count towards its quantum (R47, R82, R428). -/
def Thread.wordCame (now : Word) (t : Thread) : Thread :=
  let n := (now - t.fetchAt).toNat
  { t.age (n - t.fetchAhead) with wait := .ready, turns := t.turns + n / 8 }

/-- `FETCH_READY` (R428): the word at the thread's new PC has arrived. -/
def execFetchReady (core : Nat) (cxa : Word) (s : State) : Host.Outcome State Fault Refusal :=
  .next
    (match s.findThr core cxa with
    | some t => if t.wait = .fetch then s.updThr core cxa (Thread.wordCame (s.now core)) else s
    | none => s)

/-- What an owed result does to its thread (R80, R230). -/
def Owed.land (o : Owed) (t : Thread) : Thread :=
  let c := { t.ctx with st := t.ctx.st ||| (o.flags.setWidth 64 <<< 4) }
  match o.dest with
  | .xreg r => { t with ctx := (c.writeX r o.val).clearOwe [r] }
  | .pred p =>
    { t with
      ctx := c.writeP p (o.val.getLsbD 0)
      res := if p = 0#3 then { t.res with owedZero := t.res.owedZero - 1 }
        else { t.res with owedPred := t.res.owedPred &&& ~~~BitVec.ofNat 8 (2 ^ p.toNat) } }
  | .reply _ => t

/-- `RESULT_LAND` (R80): an owed result, or the answer to a blocking access, is applied to its thread's image, wherever it is; one
for a core that has halted is discarded (R413). A write-back that has waited for it goes on (R76). -/
def execResultLand (k : Nat) (s : State) : Host.Outcome State Fault Refusal :=
  .next
    (match s.owed[k]? with
    | none => s
    | some o =>
      let n := s.issuerAt o.core o.cxa
      let off (s : State) : State := { s with owed := dropAt k s.owed }
      if (s.core n).dead then off s
      else s.atPort (.record n) fun s =>
        (match o.dest with
        | .reply bs => (off s).landReply o.core o.cxa bs
        | _ => (((off s).touchImage n o.cxa).updImage n o.cxa o.land)).backAll n)

/-- The cycles until the fixed-latency result that is due first is written back. -/
def nextBack (l : List FixedPend) : Nat :=
  match l.map (·.left) with
  | [] => 0
  | n :: ns => ns.foldl min n

/-- `WRITE_BACK` (R48, R128): the fixed-latency results of a thread that are due first are written back. -/
def execWriteBack (core : Nat) (cxa : Word) (s : State) : Host.Outcome State Fault Refusal :=
  .next (s.updThr core cxa fun t => t.age (nextBack t.res.fixed))

/-- The thread bound to a slot. -/
def State.inSlot (s : State) (core slot : Nat) : Option Thread := (s.attached core).find? fun t => decide (t.slot = some slot)

/-- `SKIPPED_TURN` (R49, R51): an own turn of a ready thread with a skip count above 0. -/
def execSkippedTurn (core slot : Nat) (s : State) : Host.Outcome State Fault Refusal :=
  .next
    (match s.inSlot core slot with
    | some t =>
      if t.skip = 0 ∨ t.wait ≠ .ready then s else s.updThr core t.ctx.cxa fun t => { t with skip := t.skip - 1, turns := t.turns + 1 }
    | none => s)

/-! ### Binding (R74, R75, R78, R82) -/

/-- The thread of a run-queue entry holds a line. -/
def State.resident (s : State) (core : Nat) (e : RqEntry) : Bool :=
  (s.findThr core e.cxa).any fun t => match t.place with
    | .line _ | .walker => true
    | _ => false

/-- The entry that a free slot binds (R82): its place in the run queue. -/
def State.chosen (s : State) (core : Nat) : Option Nat :=
  let l := (s.core core).runq
  let first (p : RqEntry → Bool) : Option Nat :=
    let k := l.findIdx fun e => s.canTake core e && p e
    if k < l.length then some k else none
  match first fun _ => true with
  | none => none
  | some k =>
    let e := l.getD k ⟨0#64, 0#2, false, 0⟩
    if !s.resident core e && decide (3 ≤ e.passed) then some k
    else match first (s.resident core) with
      | some j => some j
      | none => some k

/-- Takes an entry out of the run queue; the non-resident entries before it have been passed over once more. -/
def CoreSt.takeEntry (k : Nat) (res : RqEntry → Bool) (c : CoreSt) : CoreSt :=
  { c with runq := ((c.runq.take k).map fun e => if e.cf || res e then e else { e with passed := e.passed + 1 }) ++ c.runq.drop (k + 1) }

/-- A thread that has its slot and its image waits for the word at its PC, unless that word is at hand (R24, R428). -/
def Thread.atSlot (now : Word) (t : Thread) : Thread :=
  if t.res.fetched.length = 12 then { t with wait := .ready } else t.awaitWord now 0

/-- Binds the thread of an entry to a slot: at once when it holds a line, else through a fill (R74, R75, R82). A record
that cannot be translated raises CXF and leaves the entry marked (R77, R78). -/
def State.bindEntry (core slot k : Nat) (t : Thread) (s : State) : State :=
  let cxa := t.ctx.cxa
  let out (s1 : State) : State :=
    s1.setCore core fun c => (c.takeEntry k (s.resident core)).touchSet (t.ctx.st.extractLsb' 16 16)
  let run (t : Thread) : Thread := t.atSlot (s.now core)
  let up (f : Thread → Thread) (s : State) : State :=
    ({ s with serial := s.serial + 1 } : State).updThr core cxa fun t =>
      f { t with slot := some slot, turns := 0, skip := 0, bound := s.serial }
  match t.place with
  | .line n => up (fun t => if (s.core core).bank (n / 16) = 1 then { t with wait := .bank (n / 16) } else run t) (out s)
  | .walker => up run (out s)
  | _ =>
    let s := if t.place = .record ∧ t.abroad = [] then s.reachRecord core (t.ctx.st.extractLsb' 16 16) cxa false else s
    if t.place = .record ∧ t.abroad = [] ∧ (s.recordOf t).isNone then
      (s.markCf core cxa).cxfEvent core cxa (if t.raw then 0 else 1)
    else match s.takeLine core with
      | (none, s1) => s1
      | (some n, s1) => up (fun t => { t with wait := .fill, fillTo := some n }) (out s1)

/-- `THREAD_BIND` (R82). -/
def execThreadBind (core : Nat) (s : State) : Host.Outcome State Fault Refusal :=
  .next
    (if !s.canBind core then s
     else s.atPort (.record core) fun s => match s.chosen core with
       | some k =>
         let e := (s.core core).runq.getD k ⟨0#64, 0#2, false, 0⟩
         match s.findThr core e.cxa, s.slotFor core e with
         | some t, some slot => s.bindEntry core slot k t
         | _, _ => s.setCore core (CoreSt.takeEntry k fun _ => true)
       | none => s)

/-- A context image that failed is discarded: the thread is dropped with MCK (R347, R408); an answer that still comes does not wake it
(R346). -/
def State.mckThr (core : Nat) (cxa : Word) (part : Nat) (s : State) : State :=
  let drop (t : Thread) : Thread :=
    let t := t.unbind
    { t with wait := .dropped ⟨cMCK, cxa⟩, place := .record, fillTo := none, raw := false, res := { t.res with reply := none } }
  (((s.dropAnswers core cxa).updThr core cxa drop).sendFlue core cMCK cxa (field part 0)).setCore core fun c =>
    { c with runq := c.runq.filter fun e => e.cxa != cxa }

/-- `LINE_FILL_DONE` (R74, R99): the image has arrived, from the ember cache, its record or another device; or its record's page has
been lost (R78), or its record cannot be read (R400). -/
def execLineFillDone (core : Nat) (cxa : Word) (s : State) : Host.Outcome State Fault Refusal :=
  .next
    (match s.findThr core cxa with
    | none => s
    | some t =>
      match (if t.wait = .fill then t.fillTo else none) with
      | none => s
      | some n =>
        let fin (t1 : Thread) (s : State) : State :=
          (s.touchBank core t).updThr core cxa fun _ =>
            { t1 with place := .line n, fillTo := none, raw := false }.atSlot (s.now core)
        if t.place = .ember ∨ t.abroad ≠ [] then fin t s
        else s.atPort (.record core) fun s =>
          let s := s.reachRecord core (t.ctx.st.extractLsb' 16 16) cxa false
          match s.recordPlace core (t.ctx.st.extractLsb' 16 16) cxa with
          | none =>
            ((s.updThr core cxa fun t => { t.unbind with wait := .ready, fillTo := none }).setCore core fun c =>
              { c with runq := { cxa := cxa, org := 2#2, cf := true } :: c.runq }).cxfEvent core cxa (if t.raw then 0 else 1)
          | some (a, home) =>
            if t.raw then fin t s
            else if s.chanWaits a then s
            else if s.homeDead home || s.poisoned a 256 then s.mckThr core cxa 2
            else fin (s.loadRecord a t) s)

/-- `BANK_WAKE` (R79): the bank is ON, and the slots that waited for it are usable. -/
def execBankWake (core bank : Nat) (s : State) : Host.Outcome State Fault Refusal :=
  .next
    (if (s.core core).bank bank ≠ 1 then s
     else
       let s1 := s.setCore core fun c => { c with rfpwr := c.rfpwr &&& ~~~field 3 (2 * bank) }
       ((s1.attached core).filter fun t => decide (t.wait = .bank bank)).foldl
         (fun s t => s.updThr core t.ctx.cxa (Thread.atSlot (s.now core))) s1)

/-- `QUANTUM_END` (R82): 256 own turns, and another entry waits. -/
def execQuantumEnd (core slot : Nat) (s : State) : Host.Outcome State Fault Refusal :=
  .next
    (match s.inSlot core slot with
    | some t => if 256 ≤ t.turns ∧ (s.core core).runq.any (fun e => !e.cf) then s.unbindAt core t.ctx.cxa else s
    | none => s)

/-! ### Segment sets (R140) -/

/-- Installs a set among a core's 16; the least recently used of a task with no bound thread makes room. -/
def State.installSet (core : Nat) (ts : TaskSet) (s : State) : State :=
  let bound (task : BitVec 16) : Bool := (s.attached core).any fun t => t.slot.isSome && t.ctx.st.extractLsb' 16 16 == task
  s.setCore core fun c =>
    let l := c.sets.filter fun e => e.task != ts.task
    { c with sets := (if l.length < 16 then l else dropFirst (fun e => !bound e.task) l) ++ [ts] }

/-- `SEGMENT_SET_FILL` (R140): a set that a thread waits for arrives. -/
def execSegmentSetFill (core task : Nat) (s : State) : Host.Outcome State Fault Refusal :=
  .next
    (let tk := BitVec.ofNat 16 task
     let l := (s.attached core).filter fun t => decide (t.wait = .segset) && t.ctx.st.extractLsb' 16 16 == tk
     if l = [] then s
     else if s.chanWaits (s.tskb.toNat + 256 * task) then s
     else l.foldl (fun s t => s.makeReady core t.ctx.cxa) (s.installSet core (s.descriptor tk)))

/-! ### Crews, gangs and populations (R85, R86, R95, R430) -/

/-- FREE lines of a core. -/
def State.freeCount (s : State) (core : Nat) : Nat :=
  let c := s.core core
  let used := s.usedLines core
  ((List.range 64).filter fun n => !used.contains n && !c.badLines.contains n && c.bank (n / 16) != 2).length

/-- Frees lines of a core until `need` are FREE: whether they are. -/
def State.freeUp (core need : Nat) : Nat → State → Bool × State
  | 0, s => (decide (need ≤ s.freeCount core), s)
  | fuel + 1, s =>
    if need ≤ s.freeCount core then (true, s)
    else match oldestOf Thread.evictable (s.attached core) with
      | some t => let r := s.toEmber t; if r.1 then State.freeUp core need fuel r.2 else r
      | none => (false, s)

/-- Frees the lines that a list of members needs: whether they are free. -/
def State.reserve (cores : List Nat) : List Nat → State → Bool × State
  | [], s => (true, s)
  | n :: l, s => let r := s.freeUp n (cores.countP fun m => m == n) 64; if r.1 then State.reserve cores l r.2 else r

/-- An id for an admitted group: unique among the cluster's, not 0, and otherwise free (R85). -/
def State.groupId (s : State) (k : Nat) : BitVec 16 :=
  let used := (s.cluster k).groups.map (·.id.toNat)
  let v := (freeWord s.serial).toNat % 2 ^ 16
  BitVec.ofNat 16 (if v = 0 ∨ used.contains v then (freshFrom used 1 65536).getD 1 else v)

/-- Materialises the members of a crew or a gang, from TIX `i` on (R95). -/
def State.materialiseAll (p : Pop) (grp : BitVec 16) : Nat → List Nat → State → State
  | _, [], s => s
  | i, n :: l, s => State.materialiseAll p grp (i + 1) l (s.materialise p n i (p.record i) grp)

/-- `GROUP_ADMIT` (R85): the oldest waiting crew or gang, once its lines and a barrier unit can be reserved. -/
def execGroupAdmit (cluster : Nat) (s : State) : Host.Outcome State Fault Refusal :=
  .next
    (match (s.cluster cluster).admits with
    | [] => s
    | ix :: rest =>
      match s.findPop ix with
      | none => s.setCluster cluster fun c => { c with admits := rest }
      | some p =>
        let cores := s.memberCores p
        if 32 ≤ (s.cluster cluster).groups.length ∨ cores.any s.homeDead || s.membersFull p then s
        else s.atPort (.pop ix) fun s => match State.reserve cores cores.eraseDups s with
          | (false, s1) => s1
          | (true, s1) =>
            let id := s1.groupId cluster
            let g : Group := ⟨id, p.shape == 1, p.count, [], false, ix⟩
            let s2 := ({ s1 with serial := s1.serial + 1 } : State).setCluster cluster fun c =>
              { c with admits := rest, groups := c.groups ++ [g] }
            State.materialiseAll p id 0 cores s2)

/-- `DONE_ADD_RETRY` (R430): a held completion add is tried again every 4,096 cycles. -/
def execDoneAddRetry (k : Nat) (s : State) : Host.Outcome State Fault Refusal :=
  .next
    (match s.pops[k]? with
    | some p =>
      match p.heldAt with
      | some (at', _) => if 4096 ≤ (s.now p.lastCore - at').toNat then s.doneAdd p else s
      | none => s
    | none => s)

/-! ### Arrivals (R89, R97, R99) -/

/-- The image of a migrating thread whose target has died is back at its core, in a line or the ember cache, and its `hop` raises POI
(R99, R193). -/
def State.hopBack (src : Nat) (t : Thread) (s : State) : State :=
  let t1 := { t with core := src, wait := .home, ctx := { t.ctx with pc := t.ctx.pc - 12#64 } }
  (({ s with pool := s.pool ++ [t1], serial := s.serial + 1 } : State).seat src t1.ctx.cxa).asThr src t1.ctx.cxa
    (State.trapWaiting tPOI pDEAD (freeWord s.serial))

/-- An image that cannot be taken in, because its core has died, goes back: its `hop` raises POI (R99, R193). -/
def State.hopRefused (h : Hop) (s : State) : State :=
  if h.pkt ≠ [] then s.nakPeer h.pkt pDEAD
  else if s.homeDead h.src then s
  else (s.ackTo h.src h.t.core).hopBack h.src h.t

/-- An image that has been taken in is acknowledged at its core's level (R99, R195). -/
def State.hopTaken (h : Hop) (s : State) : State :=
  if h.pkt ≠ [] then s.answerPeer h.pkt 0x11 (s.level h.t.core) [] else s.ackTo h.src h.t.core

/-- Earlier packets of a core to another stand before its wake or image of that number (R167). -/
def State.mailOrder (s : State) (src home ser : Nat) : Bool :=
  s.mailBefore src home ser
    || s.flight.any fun r => r.src == src && r.home == home && decide (r.id < ser) && !s.heldBack r

/-- The core that an image on its way enters: its target, or, where that has died, the core it left. -/
def State.hopCore (s : State) (h : Hop) : Nat := if s.homeDead h.t.core then h.src else h.t.core

/-- `HOP_ARRIVE` (R99): the image enters a FREE line or the ember cache, and joins the run queue with ORG 01; a core that is
full of attached threads, or has room in neither, makes it wait. -/
def execHopArrive (k : Nat) (s : State) : Host.Outcome State Fault Refusal :=
  .next
    (match s.hops[k]? with
    | none => s
    | some h =>
      let n := h.t.core
      let off (s : State) : State := { s with hops := dropAt k s.hops }
      if h.pkt = [] && s.mailOrder h.src n h.ser then s
      else if s.homeDead (s.hopCore h) || decide (nCores ≤ s.hopCore h) then (off s).hopRefused h
      else if !s.homeDead n && decide (4096 ≤ (s.attached n).length) then s
      else s.atPort (.record (s.hopCore h)) fun s =>
        let r := s.seatRoom (s.hopCore h)
        if !r.1 then r.2
        else if s.homeDead n then (off r.2).hopRefused h
        else
          let s1 := { off r.2 with pool := r.2.pool ++ [{ h.t with wait := .ready, place := .record }] }
          ((s1.seat n h.t.ctx.cxa).enqueue n h.t.ctx.cxa 1#2).hopTaken h)

/-- `WAKE_RECEIVE` (R97); where the target has died the waker takes POI (R193, R413). -/
def execWakeReceive (k : Nat) (s : State) : Host.Outcome State Fault Refusal :=
  .next
    (match s.wakeReqs[k]? with
    | none => s
    | some w =>
      let s1 := ({ s with wakeReqs := dropAt k s.wakeReqs } : State).ackTo w.src w.target
      if s.mailOrder w.src w.target w.ser then s
      else if s.homeDead w.target then
        { s1 with naks := s1.naks ++ [⟨w.src, w.srcCxa, false, pDEAD, 0#64, false, .core w.target⟩] }
      else
        let r := s1.wakeThread w.target w.cxa
        { r.2 with owed := r.2.owed ++ [⟨w.src, w.srcCxa, .reply (leBytes 8 r.1.toNat), 0#64, 0#5⟩] })

/-- Two messages to one inbox channel come from one source, and keep its order (R89, R167). -/
def InMsg.sameSource (a b : InMsg) : Bool :=
  a.join.isNone && b.join.isNone && a.core == b.core && a.chan == b.chan && a.msg.src == b.msg.src
    && a.msg.kstat.toNat % 256 == b.msg.kstat.toNat % 256
    && ((a.pkt == [] && b.pkt == []) || (a.pkt != [] && b.pkt != [] && (Pkt.ofBytes a.pkt).score == (Pkt.ofBytes b.pkt).score
      && (Pkt.ofBytes a.pkt).rb == (Pkt.ofBytes b.pkt).rb))

/-- `INBOX_ENQUEUE` (R89, R104): a message or a completion takes effect; a full channel makes it wait, and one for a dead
core is discarded (R413). -/
def execInboxEnqueue (k : Nat) (s : State) : Host.Outcome State Fault Refusal :=
  .next
    (match s.msgs[k]? with
    | none => s
    | some m =>
      if (s.msgs.take k).any m.sameSource then s else
      match s.finishCmd m.core m.cxa m.chan m.msg m.join with
      | some s1 =>
        let s2 := { s1 with msgs := dropAt k s1.msgs }
        if m.pkt = [] then s2
        else if s.homeDead m.core then s2.answerPeer m.pkt 0x12 pDEAD.toNat []
        else s2.answerPeer m.pkt 0x11 (s2.levelOf m.core m.chan) []
      | none => s)

/-- `WAKE_ARRIVE` (R351): a system WAKE acts on its core, and its `wkx` has its result once every core has acted (R368). -/
def execWakeArrive (k : Nat) (s : State) : Host.Outcome State Fault Refusal :=
  .next
    (match s.sysWakes[k]? with
    | none => s
    | some w => s.atPort (.record w.core) fun s =>
      let s0 : State := { s with sysWakes := dropAt k s.sysWakes }
      let r := if w.ends then s0.endDropped w.core w.key.val else s0.wakeDropped w.core w.key
      match r.2.wkxs.find? fun o => o.id == w.wkx with
      | none => r.2
      | some o =>
        if o.left ≤ 1 then
          ({ r.2 with wkxs := dropFirst (fun o => o.id == w.wkx) r.2.wkxs } : State).oweWord o.core o.cxa o.reg
            (statusWord (if w.ends ∧ r.1 = 0 then 1 else 0) (o.count + r.1))
        else
          { r.2 with wkxs := mapFirst (fun o => o.id == w.wkx) (fun o => { o with left := o.left - 1, count := o.count + r.1 }) r.2.wkxs })

end Sys2Proof.Machine
end

