-- ==== Sys2Proof/Machine/Plane.lean ====
section
/-! DEFINITION. The data plane (R188-R193, R429), the flue plane (R199, R200, R431), the homes' input queues (R195, R198), draught (R194-R196) and NAKs
(R156, R211). Posted accesses travel in flits, or in one step from their core to their home; what else crosses the plane
takes one step, and its packets stand on the plane as the agenda says (DESIGN CHOICE, log 38). -/

namespace Sys2Proof.Machine

open Config

/-! ### Routers (R190, R191, R429) -/

/-- The flits of a posted request's packet: a header of 16 bytes, or 8, then its data (R189, R197). -/
def Req.nFlits (r : Req) : Nat :=
  let data := match r.op with
    | .store bs => bs.length
    | .stp _ => 8
    | .msix _ => 4
    | .sfe _ | .close _ => 0
  ceilDiv ((if r.short then 8 else 16) + data) 64

/-- The position at which a scale-up port is attached (R429). -/
def portPos (p : Nat) : Nat × Nat := (32 * (p / 4 % 2) + 8 * (p % 4) + 4, 16 * (p / 8) + 8)

/-- The number is that of an external port, as a home: the host port, or a scale-up port. -/
def isPort (h : Nat) : Bool := h == hostHome || (decide (farHome 0 ≤ h) && decide (h < farHome 16))

/-- The position of a home (R8, R429). -/
def State.homePos (s : State) (h : Nat) : Nat × Nat :=
  if h = hostHome then (16, 8) else if isPort h then portPos (h - farHome 0) else s.pos h

/-- The external port attached at a position, as a home (R429). -/
def portAt (x y : Nat) : Option Nat :=
  if (x, y) = (16, 8) then some hostHome else ((List.range 16).find? fun p => portPos p == (x, y)).map farHome

/-- Productive ports of one ring of `n` positions, and the distance that remains: `up` and `down` are its two ports. -/
def productive1 (n a b up down : Nat) : List Nat × Nat :=
  let d := (b + n - a) % n
  if d = 0 then ([], 0) else if 2 * d < n then ([up], d) else if 2 * d = n then ([up, down], d) else ([down], n - d)

/-- Productive ports, the preferred dimension first: 0 +x, 1 +y, 2 −x, 3 −y (R190). -/
def productive (x y dx dy : Nat) : List Nat :=
  let px := productive1 64 x dx 0 2
  let py := productive1 32 y dy 1 3
  if px.2 < py.2 then py.1 ++ px.1 else px.1 ++ py.1

/-- The position behind a port. -/
def hopFrom (port x y : Nat) : Nat × Nat :=
  match port with
  | 0 => ((x + 1) % 64, y)
  | 1 => (x, (y + 1) % 32)
  | 2 => ((x + 63) % 64, y)
  | _ => (x, (y + 31) % 32)

/-- A flit goes before another at a router (R190). -/
def Trip.before (a b : Trip) : Bool :=
  decide (b.age < a.age) || (a.age == b.age && (decide (a.src < b.src) || (a.src == b.src && decide (a.seq < b.seq))))

/-- Puts a flit into a list in order of rank. -/
def insertFlit {α : Type} (trip : α → Trip) (f : α) : List α → List α
  | [] => [f]
  | g :: l => if (trip f).before (trip g) then f :: g :: l else g :: insertFlit trip f l

/-- Flits in order of rank. -/
def byRank {α : Type} (trip : α → Trip) (l : List α) : List α := l.foldl (fun l f => insertFlit trip f l) []

/-- The ingress a flit is bound for: the core at its destination, or the port there (R188, R429). -/
def State.flitHome (s : State) (f : DFlit) : Nat :=
  (if f.prt then portAt f.dx f.dy else s.coreAtPos f.dx f.dy).getD noHome

/-- Nothing takes what comes to a home: a port takes all (R193, R429). -/
def State.ingressDead (s : State) (h : Nat) : Bool := !isPort h && s.homeDead h

/-- How far a flit's SEQ is ahead of the number its ingress expects (R192). -/
def State.ahead (s : State) (h : Nat) (f : DFlit) : Nat :=
  (f.seq + 1024 - (look (f.src, f.ch) (s.core h).expect).getD 0) % 1024

/-- A packet whose last flit passes finds an entry in its home's input queue (R195); a port has none. -/
def State.queueTakes (s : State) (h : Nat) : Bool := isPort h || decide (s.homeQueue h < 128)

/-- The ingress accepts a flit (R192), beside those it has accepted and not seen yet; a full input queue refuses it (R195); a dead
position takes all (R193). -/
def State.ingressTakes (s : State) (f : DFlit) : Bool :=
  let h := s.flitHome f
  let coming := s.flits.countP fun g => g.out && s.flitHome g == h
  s.ingressDead h
    || (if s.ahead h f = 0 then isPort h || decide (s.homeQueue h + coming < 128)
        else decide (511 < s.ahead h f) || decide ((s.core h).reorder.length + coming < 1024))

/-- A flit takes a port (R190): AGE rises by 1, and it arrives on the next router's port that faces this one. -/
def Trip.move (port : Nat) (f : Trip) : Trip :=
  let p := hopFrom port f.atX f.atY
  { f with atX := p.1, atY := p.2, age := min 4095 (f.age + 1), via := (port + 2) % 4 }

/-- The flit is in transit at a router: it has arrived over a link, and has not left the plane. -/
def Trip.moving (f : Trip) : Bool := !f.out && decide (f.via < 4)

/-- The transit flits of a router act in rank order (R190): `takes` says whether the ingress accepts one; `free` ports, and the
ejection ports of its core and of the port attached there. At most four arrive at a router in a cycle, one a link, so that each finds a
port. What they become, and the ports left. -/
def routeAll {α : Type} (trip : α → Trip) (upd : (Trip → Trip) → α → α) (takes : α → Bool) :
    List α → List Nat → Bool → Bool → List α × List Nat
  | [], free, _, _ => ([], free)
  | f :: fs, free, ejC, ejP =>
    let t := trip f
    let here := t.dx == t.atX && t.dy == t.atY
    if here && (if t.prt then ejP else ejC) && takes f then
      let r := routeAll trip upd takes fs free (ejC && t.prt) (ejP && !t.prt)
      (upd (fun t => { t with out := true }) f :: r.1, r.2)
    else match ((if here then [] else productive t.atX t.atY t.dx t.dy) ++ [0, 1, 2, 3]).find? free.contains with
      | some p =>
        let r := routeAll trip upd takes fs (free.filter (· ≠ p)) ejC ejP
        (upd (Trip.move p) f :: r.1, r.2)
      | none =>
        let r := routeAll trip upd takes fs free ejC ejP
        (f :: r.1, r.2)

/-- The transit flits at a position (R190); `prep` is what is done with them before they are ranked. -/
def routerAt {α : Type} (trip : α → Trip) (upd : (Trip → Trip) → α → α) (takes : α → Bool) (prep : List α → List α) (l : List α)
    (p : Nat × Nat) : List α × List Nat :=
  routeAll trip upd takes (byRank trip (prep (l.filter fun f => (trip f).moving && (trip f).atX == p.1 && (trip f).atY == p.2)))
    [0, 1, 2, 3] true true

/-- One cycle of a plane: the transit flits of every router act at once (R190). -/
def planeCycle {α : Type} (trip : α → Trip) (upd : (Trip → Trip) → α → α) (takes : α → Bool) (prep : List α → List α)
    (l : List α) : List α :=
  let busy := ((l.filter fun f => (trip f).moving).map fun f => ((trip f).atX, (trip f).atY)).eraseDups
  (l.filter fun f => !(trip f).moving) ++ (busy.map fun p => (routerAt trip upd takes prep l p).1).flatten

/-- The ports of a router on which it may inject: those its transit flits leave free, and none in a cycle in which it forwards a flit whose
AGE is 2,048 or more (R190). -/
def freePorts {α : Type} (trip : α → Trip) (r : List α × List Nat) : List Nat :=
  if r.1.any fun f => !(trip f).out && decide (2048 < (trip f).age) then [] else r.2

/-- Changes the trip of a data-plane flit. -/
def DFlit.onTrip (g : Trip → Trip) (f : DFlit) : DFlit := { f with toTrip := g f.toTrip }

/-- Changes the trip of a flue flit. -/
def FlueFlit.onTrip (g : Trip → Trip) (f : FlueFlit) : FlueFlit := { f with toTrip := g f.toTrip }

/-- A packet that injects: its name, its source and destination, its channel, its flits and those it has injected. -/
structure Sender where
  id : Nat
  src : Nat
  dst : Nat
  ch : Bool
  n : Nat
  inj : Nat
  deriving DecidableEq, Repr

/-- The posted request whose next flit the core at a position injects: its oldest that is not held back by one turned away. -/
def State.injectable (s : State) (x y : Nat) : Option Sender :=
  (s.flight.find? fun r =>
    decide (s.pos r.src = (x, y)) && r.home != r.src && (decide (r.home < nCores) || r.home == hostHome)
      && ((r.stage == 1 && decide (r.inj < r.nFlits))
        || (r.stage == 0 && !s.flight.any fun q => q.src == r.src && q.home == r.home && q.stage == 3))).map fun r =>
    ⟨r.id, r.src, r.home, false, r.nFlits, r.inj⟩

/-- The packet of an access performed in one step whose next flit enters at a position, from the core there or from the port. -/
def State.drifting (s : State) (fromPort : Bool) (x y : Nat) : Option Sender :=
  (s.drifts.find? fun d => isPort d.src == fromPort && decide (s.homePos d.src = (x, y)) && decide (d.stage ≤ 1) && decide (d.inj < d.n)).map
    fun d => ⟨d.id, d.src, d.dst, d.ch, d.n, d.inj⟩

/-- What the core at a position injects next: a packet that is under way first. -/
def State.coreSender (s : State) (x y : Nat) : Option Sender :=
  match s.injectable x y, s.drifting false x y with
  | some r, some d => some (if r.inj = 0 ∧ d.inj ≠ 0 then d else r)
  | some r, none => some r
  | none, d => d

/-- A packet injects one flit on a productive port that is free (R190, R429): the ports left. -/
def State.injectFlit (x y : Nat) (free : List Nat) (k : Sender) (s : State) : List Nat × State :=
  let d := s.homePos k.dst
  let pr := productive x y d.1 d.2
  let seq := (look (k.dst, k.ch) (s.core k.src).sendSeq).getD 0
  let f : DFlit :=
    { atX := x, atY := y, dx := d.1, dy := d.2, src := k.src, ch := k.ch, seq := seq, hd := k.inj == 0
      tl := k.inj + 1 == k.n, prt := isPort k.dst, pkt := k.id }
  let put' (f : DFlit) : State :=
    ({ s with
        flits := s.flits ++ [f]
        flight := mapFirst (fun q => q.id == k.id) (fun q => { q with inj := q.inj + 1, stage := 1 }) s.flight
        drifts := mapFirst (fun q => q.id == k.id) (fun q => { q with inj := q.inj + 1, stage := 1 }) s.drifts } : State).setCore k.src
      fun c => { c with sendSeq := put (k.dst, k.ch) ((seq + 1) % 1024) c.sendSeq }
  if pr = [] then (free, if s.ingressTakes f then put' (f.onTrip fun t => { t with out := true }) else s)
  else match pr.find? free.contains with
    | some p => (free.filter (· ≠ p), put' (f.onTrip (Trip.move p)))
    | none => (free, s)

/-- The core and the port at a position inject; where both want the same free port they take it in alternate cycles (R429). -/
def State.injectAt (x y : Nat) (free : List Nat) (s : State) : State :=
  match s.coreSender x y, s.drifting true x y with
  | none, none => s
  | some k, none | none, some k => (s.injectFlit x y free k).2
  | some c, some p =>
    let both (a b : Sender) (s : State) : State := let r := s.injectFlit x y free a; (r.2.injectFlit x y r.1 b).2
    if s.portLast.contains (x, y) then both c p { s with portLast := s.portLast.filter (· ≠ (x, y)) }
    else both p c { s with portLast := (x, y) :: s.portLast }

/-- A packet of an access that the model performs in one step enters the data plane: from a core or a port to another that lives, of at
most 4 flits, within the 16 of a draught entry or the 64 of an engine (R189, R194; DESIGN CHOICE, log 38). -/
def State.launch (p : Option (Nat × Nat × Bool × Nat)) (s : State) : State :=
  match p with
  | none => s
  | some (src, dst, ch, n) =>
    if s.ingressDead src || s.ingressDead dst || src == dst || n == 0 || decide (4 < n)
        || decide ((if ch then 64 else 16) ≤ s.drifts.countP fun d => d.src == src && d.dst == dst && d.ch == ch) then s
    else { s with drifts := s.drifts ++ [⟨s.serial, src, dst, ch, n, 0, 0⟩], serial := s.serial + 1 }

/-! ### The flue plane (R199, R200, R431) -/

/-- Causes whose flits merge (R199). -/
def mergesCause (c : BitVec 8) : Bool := c == cPGF || c == cCXF || c == cREV || c == cWLK || c == cHBT

/-- The lowest set bit of a bitmap. -/
def lowBit (w : Word) : Nat := ((List.range 64).find? fun i => w.getLsbD i).getD 64

/-- Two flits merge where they meet (R200): a cause that merges, one band and D1, and one way to go. -/
def FlueFlit.meets (a b : FlueFlit) : Bool :=
  mergesCause a.cause && a.cause == b.cause && a.band == b.band && a.d1 == b.d1 && a.goal == b.goal && a.dx == b.dx && a.dy == b.dy

/-- Two flits merged, the first of which has come first, or in the same cycle on the earlier port (R200, R411). -/
def FlueFlit.merge (a b : FlueFlit) : FlueFlit :=
  let low := if lowBit b.d0 < lowBit a.d0 then b else a
  { low with
    age := max a.age b.age
    d0 := a.d0 ||| b.d0
    d2 := if a.d2 = b.d2 then a.d2 else low.d2 ||| 0x8000000000000000#64 }

/-- Puts a flit into a list in the order of the ports on which they have arrived: +x, +y, −x, −y (R411). -/
def insertVia (f : FlueFlit) : List FlueFlit → List FlueFlit
  | [] => [f]
  | g :: l => if f.via < g.via then f :: g :: l else g :: insertVia f l

/-- The flits at one router, merged (R200). -/
def mergeAll : List FlueFlit → List FlueFlit → List FlueFlit
  | [], l => l
  | f :: fs, l => mergeAll fs (if l.any f.meets then mapFirst f.meets (fun g => g.merge f) l else l ++ [f])

/-- The entries of a band's collector. -/
def DieSt.collector (b : Nat) (d : DieSt) : List (Word × FlueFlit) := (look b d.collect).getD []

/-- The entry of a collector that a flit merges into (R200). -/
def sameEntry (f : FlueFlit) (e : Word × FlueFlit) : Bool := e.2.cause == f.cause && e.2.d1 == f.d1

/-- Where a flue flit is bound for takes it (R200, R431), beside those it has taken and not seen yet: a collector with room in its table,
a hearth with room in channel 7, and any core that a WAKE names. -/
def State.flueTakes (s : State) (f : FlueFlit) : Bool :=
  match f.goal with
  | .collector =>
    let l := (s.die (bandDie f.band)).collector f.band
    let coming := s.flue.countP fun g => g.out && g.goal == .collector && g.band == f.band && mergesCause g.cause
    !mergesCause f.cause || l.any (sameEntry f) || decide (l.length + coming < 16)
  | .hearth =>
    let h := hearthOf (bandDie f.band)
    let coming := s.flue.countP fun g => g.out && g.goal == .hearth && hearthOf (bandDie g.band) == h
    s.homeDead h || decide (coming < s.roomOf h 7)
  | .wake .. => true

/-- A WAKE that has left the plane is at its core (R351). -/
def FlueFlit.asWake (f : FlueFlit) : Option SysWake :=
  match f.goal with
  | .wake n key id ends => if f.out then some ⟨n, key, id, ends⟩ else none
  | _ => none

/-- The flits that have reached one router in a cycle, merged in the order of their ports (R200, R411). -/
def mergeAt (l : List FlueFlit) : List FlueFlit := mergeAll (l.foldl (fun l f => insertVia f l) []) []

/-- What waits at a position injects one flue flit, on a productive port that is free; one that is bound for its own position leaves the
plane there (R190, R199). -/
def State.injectFlue (x y : Nat) (free : List Nat) (s : State) : State :=
  let waits (f : FlueFlit) : Bool := f.via == 4 && !f.out && f.atX == x && f.atY == y
  match s.flue.find? waits with
  | none => s
  | some f =>
    let go (f : FlueFlit) : State := { s with flue := dropFirst waits s.flue ++ [f] }
    match productive x y f.dx f.dy with
    | [] => if s.flueTakes f && !free.isEmpty then go (f.onTrip fun t => { t with out := true }) else s
    | pr => match pr.find? free.contains with
      | some p => go (f.onTrip (Trip.move p))
      | none => s

/-- There is room now for what has left the plane (R200). -/
def State.flueHas (s : State) (f : FlueFlit) : Bool :=
  match f.goal with
  | .collector =>
    let l := (s.die (bandDie f.band)).collector f.band
    !mergesCause f.cause || l.any (sameEntry f) || decide (l.length < 16)
  | .hearth => s.homeDead (hearthOf (bandDie f.band)) || decide (0 < s.roomOf (hearthOf (bandDie f.band)) 7)
  | .wake .. => true

/-- The WAKEs that have left the plane are at their cores (R351). -/
def State.landWakes (s : State) : State :=
  { s with flue := s.flue.filter fun f => f.asWake.isNone, sysWakes := s.sysWakes ++ s.flue.filterMap FlueFlit.asWake }

/-- One cycle of the flue plane, in which what waits at a position injects (R190, R199). -/
def State.flueCycle (x y : Nat) (s : State) : State :=
  let route := routerAt FlueFlit.toTrip FlueFlit.onTrip s.flueTakes mergeAt s.flue (x, y)
  let s1 : State := { s with flue := planeCycle FlueFlit.toTrip FlueFlit.onTrip s.flueTakes mergeAt s.flue }
  (s1.injectFlue x y (freePorts FlueFlit.toTrip route)).landWakes

/-- `ROUTER_CYCLE` (R190, R199): one cycle of both planes, in which the routers of every position act at once, and the core, the port and
the flue's sender at the position named may inject. -/
def execRouterCycle (x y : Nat) (s : State) : Host.Outcome State Fault Refusal :=
  .next
    (let route := routerAt DFlit.toTrip DFlit.onTrip s.ingressTakes id s.flits (x, y)
     let s1 : State := { s with flits := planeCycle DFlit.toTrip DFlit.onTrip s.ingressTakes id s.flits }
     (s1.injectAt x y (freePorts DFlit.toTrip route)).flueCycle x y)

/-! ### The ingress (R192, R193) -/

/-- An ingress passes the expected flit; a packet whose last flit has passed is in the home's queue, or at the port (R192, R195,
R429). -/
def State.passFlit (h : Nat) (f : DFlit) (s : State) : State :=
  let s1 := s.setCore h fun c => { c with expect := put (f.src, f.ch) ((f.seq + 1) % 1024) c.expect }
  if f.tl then
    { s1 with
      flight := mapFirst (fun r => r.id == f.pkt) (fun r => { r with stage := 2 }) s1.flight
      drifts := if isPort h then s1.drifts.filter fun d => d.id != f.pkt
        else mapFirst (fun d => d.id == f.pkt) (fun d => { d with stage := 2 }) s1.drifts }
  else s1

/-- The waiting flits that follow in order are released, while the home's queue takes their packets (R192, R195). -/
def State.releaseFlits (h : Nat) : Nat → State → State
  | 0, s => s
  | fuel + 1, s =>
    match (s.core h).reorder.find? fun f => s.ahead h f == 0 && (!f.tl || s.queueTakes h) with
    | none => s
    | some f =>
      let s1 := s.setCore h fun c => { c with reorder := dropFirst (fun g => decide (g = f)) c.reorder }
      State.releaseFlits h fuel (s1.passFlit h f)

/-- Releases what the reorder memory of a home holds and its queue takes. -/
def State.drainIngress (h : Nat) (s : State) : State := s.releaseFlits h (s.core h).reorder.length

/-- `FLIT_ARRIVE` (R192, R193). At a dead core a packet's HD flit becomes its NAK and its other flits go; of a packet whose HD flit has
passed already, or whose flits wait in the reorder memory, the rest goes and no answer comes (DESIGN CHOICE, log 56). -/
def execFlitArrive (k : Nat) (s : State) : Host.Outcome State Fault Refusal :=
  .next
    (match s.flits[k]? with
    | none => s
    | some f =>
      if !f.out then s
      else
        let h := s.flitHome f
        let s1 := { s with flits := dropAt k s.flits }
        if s.ingressDead h then
          let s2 := { s1 with drifts := s1.drifts.filter fun d => d.id != f.pkt }
          match (if f.hd then s2.flight.find? fun r => r.id == f.pkt else none) with
          | some r => ({ s2 with flight := s2.flight.filter fun q => q.id != r.id } : State).nakReq r pDEAD
          | none => s2
        else if s.ahead h f = 0 then (if !f.tl || s.queueTakes h then (s1.passFlit h f).drainIngress h else s)
        else if 511 < s.ahead h f then s1.setCore h fun c => { c with dropped := c.dropped + 1 }
        else if (s.core h).reorder.length < 1024 then s1.setCore h fun c => { c with reorder := c.reorder ++ [f] }
        else s)

/-! ### The home (R166, R167, R195, R198) -/

/-- What stands before a posted request (R153, R167, R168): an earlier packet of its core to its home that may still pass, a wake
or an image sent before it, or an `stp` of its thread that waits at the home. -/
def State.reqBehind (s : State) (k : Nat) (r : Req) : Bool :=
  (s.flight.take k).any (fun q => q.src == r.src && q.home == r.home && q.stage != 3 && !s.heldBack q)
    || s.mailBefore r.src r.home r.id || s.heldBack r

/-- A home starts a request: one in its queue, or one still at its core that makes its way in this step, is performed, or turned away
with STREAM (R195, R198). -/
def State.startReq (k : Nat) (r : Req) (s : State) : State :=
  if r.stage = 1 || r.stage = 3 || s.reqBehind k r || s.reqWaits r then s
  else
    let turned := (s.core r.home).nakSrc.contains r.src
    if !s.homeDead r.home && (s.streamMiss r || (turned && !r.resend)) then
      ({ s with flight := mapFirst (fun q => q.id == r.id) (fun q => { q with stage := 3 }) s.flight } : State).setCore r.home
        fun c => { c with nakSrc := insertNat r.src c.nakSrc }
    else
      let s1 := if turned then s.setCore r.home fun c => { c with nakSrc := c.nakSrc.filter (· ≠ r.src) } else s
      ({ s1 with flight := s1.flight.filter fun q => q.id != r.id } : State).performReq r

/-- A home starts the packet of an access that the model performs in one step: the oldest of its source and channel in the queue. -/
def State.startDrift (d : Drift) (s : State) : State :=
  let same (e : Drift) : Bool := e.src == d.src && e.dst == d.dst && e.ch == d.ch && e.stage == 2
  if d.stage = 2 ∧ (s.drifts.find? same).map (·.id) = some d.id then { s with drifts := dropFirst same s.drifts } else s

/-- `HOME_REQUEST_START` (R195): the request of that number among the posted ones, or, counted on from them, among the packets of accesses
that the model performs in one step; what waits at the ingress for its entry follows. -/
def execHomeRequestStart (k : Nat) (s : State) : Host.Outcome State Fault Refusal :=
  .next
    (match s.flight[k]? with
    | some r => if r.stage = 2 then (s.startReq k r).drainIngress r.home else s.startReq k r
    | none =>
      match s.drifts[k - s.flight.length]? with
      | some d => (s.startDrift d).drainIngress d.dst
      | none => s)

/-- The packets turned away go again: full headers, and RESEND on the first (R198). -/
def resendAll (p : Req → Bool) (first : Bool) : List Req → List Req
  | [] => []
  | r :: l =>
    if p r then { r with stage := 0, inj := 0, short := false, resend := first } :: resendAll p false l
    else r :: resendAll p first l

/-- `STREAM_NAK` (R198): the core resends every packet that the home has turned away, once all it had sent have been. -/
def execStreamNak (core tag : Nat) (s : State) : Host.Outcome State Fault Refusal :=
  .next
    (match s.flight.find? fun r => r.src == core && r.stage == 3 && r.tag.toNat == tag with
    | none => s
    | some r =>
      let mine (q : Req) : Bool := q.src == core && q.home == r.home
      if s.flight.any fun q => mine q && (q.stage == 1 || q.stage == 2) then s
      else { s with flight := resendAll (fun q => mine q && q.stage == 3) true s.flight })

/-! ### Draught and NAKs (R194, R195, R211) -/

/-- `DRAUGHT_ACK` (R195). -/
def execDraughtAck (k : Nat) (s : State) : Host.Outcome State Fault Refusal :=
  .next
    (match s.acks[k]? with
    | none => s
    | some a => ({ s with acks := dropAt k s.acks } : State).setCore a.core (CoreSt.ack a.dn a.level))

/-- `CEIL_RECOVER` (R194): every 256 cycles, an entry with OUT 0 and CEIL below 16. -/
def execCeilRecover (core dn : Nat) (s : State) : Host.Outcome State Fault Refusal :=
  .next
    (s.setCore core fun c =>
      { c with draught := c.draught.map fun e => if e.dn = dn ∧ e.out = 0 ∧ e.ceil < 16 then { e with ceil := e.ceil + 1 } else e })

/-- `NAK_RECEIVE` (R156, R211): the fault of a posted access is recorded; a blocking one traps. -/
def execNakReceive (k : Nat) (s : State) : Host.Outcome State Fault Refusal :=
  .next
    (match s.naks[k]? with
    | none => s
    | some n =>
      let s1 := { s with naks := dropAt k s.naks }
      if n.posted then
        let s2 := s1.recordFault n.core n.cxa n.reason n.ea
        if n.counted then s2.storeDone n.core n.cxa else s2
      else s1.landTrap n.core n.cxa n.reason)

end Sys2Proof.Machine
end

