-- ==== Sys2Proof/Machine/Reliability.lean ====
section
/-! DEFINITION. Errors and what they lead to (R398-R409, R418): fault reports, the retry of a read, cores that halt, dies
that become fatal; the flue's collectors and the heartbeat (R199, R200, R405, R431). -/

namespace Sys2Proof.Machine

open Config

/-! ### Fault reports (R402, R403) -/

/-- A fault report: which die, core, OUTCOME and KIND, its PA and PLEN, UNIT and SYN, and the GVA and the task of the access that met the
fault, if a program address was involved. -/
structure Report where
  die : Nat
  core : Nat
  outcome : Nat
  kind : Nat
  pa : Word
  plen : Nat
  unit : Nat
  syn : BitVec 16
  va : Option (Word × BitVec 16)
  deriving DecidableEq, Repr

/-- The GVA and the task of an access of a thread at an ea (R141, R402). -/
def State.vaOf (s : State) (core : Nat) (task : BitVec 16) (ea : Word) : Option (Word × BitVec 16) :=
  some ((((s.taskSet core task).seg (bits ea.toNat 61 3)).1 &&& 0x00FFFFFFFFFFFFFF#64) + (ea &&& 0x1FFFFFFFFFFFFFFF#64), task)

/-- The 64 bytes of a report (R402): NVA, VA1 and VA2 are 0. -/
def Report.toBytes (r : Report) (seq : BitVec 16) (cyc : Word) : List Byte :=
  let w0 := field seq.toNat 48 ||| field r.die 27 ||| field r.core 16 ||| field r.outcome 8 ||| field r.kind 0
  let w7 := field (bits cyc.toNat 0 32) 32 ||| field r.unit 16 ||| field r.syn.toNat 0
  let va0 := match r.va with
    | some (g, t) => (t.setWidth 64, 0x8000000000000000#64 ||| (g &&& 0x00FFFFFFFFFFFFFF#64))
    | none => (0#64, 0#64)
  ([w0, r.pa, field r.plen 0, va0.1, va0.2, 0#64, 0#64, w7].map fun w => leBytes 8 w.toNat).flatten

/-- FLT goes to a die's hearth (R199, R347): from the core of the report, or, when that is on another die, from the
hearth's position (DEDUCED, log 39). -/
def State.sendFlt (r : Report) (at' : Word) (s : State) : State :=
  s.sendFlue (if s.coreDie r.core = r.die then r.core else hearthOf r.die) cFLT at' 0#64

/-- Writes a report into its die's ring; without a ring, or when it is full, only FLT is sent (R403). -/
def State.report (r : Report) (s : State) : State :=
  let d := s.die r.die
  if d.frb = 0#64 ∨ (d.frw - d.frr).toNat = 256 then s.sendFlt r 0#64
  else
    let a := d.frb.toNat + 64 * (d.frw.toNat % 256)
    let bs := r.toBytes d.seq d.cyc
    let s1 := s.setDie r.die fun d => { d with frw := d.frw + 1#64, seq := d.seq + 1#16 }
    (s1.homeWrite a bs).sendFlt r (BitVec.ofNat 64 a)

/-- ECNT with one more transient fault, saturating (R403). -/
def DieSt.countTrn (d : DieSt) : DieSt :=
  if d.ecnt.toNat / 2 ^ 32 = 2 ^ 32 - 1 then d else { d with ecnt := d.ecnt + 0x100000000#64 }

/-- ECNT with one more corrected error, saturating (R403). -/
def DieSt.countCor (d : DieSt) : DieSt :=
  if d.ecnt.toNat % 2 ^ 32 = 2 ^ 32 - 1 then d else { d with ecnt := d.ecnt + 1#64 }

/-! ### Cores that halt, dies that become fatal (R404, R409, R418) -/

/-- The cores of a die that hold anything. -/
def State.dieCores (s : State) (d : Nat) : List Nat :=
  ((s.cores.map (·.1) ++ s.threads.map (·.core) ++ s.waiters.map (·.home)).eraseDups).filter fun n =>
    decide (n < nCores) && s.coreDie n == d

/-- A die becomes fatal, unless it is (R418): FTL or BFL sets, DIE and STK clear, its cores stop, and the failure is reported: an
in-band interrupt (R426) and, unless die 0 is fatal, MSI-X vector 0. -/
def State.failDie (d : Nat) (boot : Bool) (s : State) : State :=
  if s.dieFatal d then s else
  let clear := field 0x11 d
  let set := field 1 ((if boot then 32 else 24) + d)
  let s1 := (s.dieCores d).foldl (fun s n => (s.loseCore n).setCore n fun c => { c with panQ := [] }) s
  let s2 := { s1 with rdyd := (s1.rdyd &&& ~~~clear) ||| set, hostTx := s1.hostTx ++ [.inBand 0x01#8] }
  if s2.dieFatal 0 then s2 else s2.msixRaise (hearthOf 0) 0

/-- A core halts for a lasting fault (R404): its threads issue nothing more, and what waits at its home is turned away; a
hearth core takes its die with it (R409). -/
def State.killCore (core : Nat) (s : State) : State :=
  if isHearth core then s.failDie (s.coreDie core) false
  else
    let stop (s : State) (t : Thread) : State := s.updThr core t.ctx.cxa Thread.unbind
    (((s.attached core).foldl stop s).setCore core fun c => { c with dead := true }).nakWaiters core

/-! ### The retry of a read (R399, R400) -/

/-- The report of a read of a granule of DRAM, or of a word of core memory. -/
def readReport (s : State) (core addr outcome : Nat) (syn : BitVec 16) (va : Option (Word × BitVec 16)) : Report :=
  if addr < physEnd then
    ⟨addr / dieBytes, core, outcome, 1, BitVec.ofNat 64 (addr / 64 * 64), 64, bits (addr % dieBytes) 8 6, syn, va⟩
  else
    ⟨s.coreDie core, core, outcome, 2, BitVec.ofNat 64 (addr / 8 * 8), 8, (addr - winBase) % 0x100000 / 0x10000, syn, va⟩

/-- `MISS_FILL` (R195, R399): the line arrives in the home's L2 slice; a transient fault is counted and reported, a lasting one
leaves poison, and in core memory halts the core. A word that is poisoned already is not retried and gives no new report (R400). -/
def execMissFill (core addr : Nat) (outcome : ReadOutcome) (s : State) : Host.Outcome State Fault Refusal :=
  .next
    (let fill (s : State) : State := if addr < physEnd then s.touchL2 core addr 2 false else s
     let owner := if addr < physEnd then core else (addr - winBase) / 0x100000
     if physEnd ≤ addr ∧ (addr < winBase ∨ nCores ≤ owner) then s
     else if s.poison.contains (addr / 8) then fill s
     else match outcome with
       | .clean => fill s
       | .transient syn va =>
         let r := readReport s owner addr 1 syn va
         fill ((s.setDie r.die DieSt.countTrn).report r)
       | .lasting syn va =>
         let r := readReport s owner addr 2 syn va
         let ws := if addr < physEnd then (List.range 8).map fun i => addr / 64 * 64 + 8 * i else [addr]
         let s1 := (ws.foldl (fun s a => s.addPoison a) s).report r
         if addr < physEnd then fill s1 else s1.killCore owner)

/-! ### Faults the hardware meets elsewhere (R398, R401, R408, R409) -/

/-- A report about the register file of a core (DEDUCED, log 39). -/
def fileReport (s : State) (core : Nat) : Report := ⟨s.coreDie core, core, 2, 3, freeWord (s.serial + 2), 8, 0, 0#16, none⟩

/-- A report of words that a core has received over the torus with data that cannot be corrected (R401). -/
def pathReport (s : State) (core : Nat) (pa : Word) (va : Option (Word × BitVec 16)) : Report :=
  ⟨s.coreDie core, core, 3, 4, pa, 8, if winBase ≤ pa.toNat then (pa.toNat - winBase) % 0x100000 / 0x10000 else bits (pa.toNat % dieBytes) 8 6,
    0#16, va⟩

/-- A posted access arrives at its home, where those of its payload words that cannot be corrected are written poisoned (R401); the
word of an `stp` that waits there is written so when it is. -/
def State.glitchStore (k : Nat) (ws : List Nat) (s : State) : State :=
  match s.flight[k]? with
  | none => s
  | some r =>
    let data := match r.op with
      | .store bs => bs
      | .stp v => leBytes 8 v.toNat
      | _ => []
    let bad := ((wordsOf r.addr data.length).zipIdx.filter fun w => ws.contains w.2).map (·.1)
    if bad = [] || r.home = r.src || nCores ≤ r.home || s.reqBehind k r || s.reqWaits r || s.homeDead r.home || s.streamMiss r || s.reqFailed r then s
    else
      let s1 := ({ s with flight := s.flight.filter fun q => q.id != r.id } : State).report
        (pathReport s r.home (BitVec.ofNat 64 (8 * bad.headD 0)) (s.vaOf r.src r.task r.ea))
      if r.isStp && s.isFull r.addr then
        s1.addWaiter ⟨r.id, r.home, .stp, r.addr, wordAt data 0, r.src, r.cxa, true, 0#4, r.ea, r.port, r.gen, r.paged, s.now r.home, none,
          r.cp, false, false, none, r.task, r.lvlH, true⟩
      else
        let s2 := if r.paged then s1.touchL2 r.home r.addr r.pol true else s1
        let s3 := if r.tag = 0#16 then s2 else s2.setCore r.home (CoreSt.noteStream r.src r.tag r.addr r.page)
        let s4 := (bad.foldl (fun s w => s.addPoison (8 * w)) (s3.writeMem r.addr data)).afterWrite r.addr data.length
        (if r.counted then s4.storeDone r.src r.cxa else s4).ackTo r.src r.home

/-- The answer of a home to a blocking access arrives with data that cannot be corrected (R401): it is delivered as poison, and the
thread takes POI with UNCORR (R400); the stored word is as before. -/
def State.glitchReply (k : Nat) (s : State) : State :=
  match s.owed[k]? with
  | some ⟨core, cxa, .reply _, _, _⟩ =>
    let s1 : State := { s with owed := dropAt k s.owed, naks := s.naks ++ [⟨core, cxa, false, pUNCORR, 0#64, false, .core core⟩] }
    let va := (s.findThr core cxa).bind fun t => t.res.reply.bind fun b => s.vaOf core (t.ctx.st.extractLsb' 16 16) b.ea
    let s2 : State := { s1 with serial := s1.serial + 1 }
    let pa := match va with
      | some (g, _) => if winBase ≤ g.toNat then g else freeWord s.serial
      | none => freeWord s.serial
    s2.report (pathReport s core pa va)
  | _ => s

/-- An ember image that fails (R399, R404, R408): its word is lost, its core halts once the report is written, and its thread is
dropped. -/
def State.glitchEmber (core : Nat) (cxa : Word) (s : State) : State :=
  match s.findThr core cxa with
  | some t =>
    if t.place = .ember then
      let a := coreAddr core ((freeWord s.serial).toNat % 0x20000 * 8)
      let s1 := ({ s with serial := s.serial + 1 } : State).addPoison a
      ((s1.report (readReport s core a 2 (0#16) none)).mckThr core cxa 1).killCore core
    else s
  | none => s

/-- A fault of storage or of a path (R398). -/
def State.glitch (g : Glitch) (s : State) : State :=
  match g with
  | .corrected d => s.setDie d DieSt.countCor
  | .line core n =>
    match (s.attached core).find? fun t => decide (t.place = .line n) with
    | some t =>
      ((s.mckThr core t.ctx.cxa 0).report (fileReport s core)).setCore core fun c => { c with badLines := insertNat n c.badLines }
    | none => s
  | .ember core cxa => s.glitchEmber core cxa
  | .walker core => (s.report (fileReport s core)).killCore core
  | .near core addr => s.setCore core fun c => { c with near := c.near.filter (·.addr != addr) }
  | .store k ws => s.glitchStore k ws
  | .reply k => s.glitchReply k
  | .read core w va =>
    ({ s with path := { s.path with reads := w :: s.path.reads } } : State).report (pathReport s core (BitVec.ofNat 64 (8 * w)) va)
  | .write core w va =>
    ({ s with path := { s.path with writes := w :: s.path.writes } } : State).report (pathReport s core (BitVec.ofNat 64 (8 * w)) va)
  | .answer core pa va => ({ s with path := { s.path with answer := true } } : State).report (pathReport s core pa va)
  | .sideband d => s.failDie d false

/-! ### The flue's collectors (R199, R200, R431) -/

/-- The message a flit becomes (R199): KSTAT KIND 5, the cause and the band in TAG. -/
def FlueFlit.message (f : FlueFlit) : Msg :=
  ⟨f.cause.setWidth 32 ||| BitVec.ofNat 32 (256 * f.band), kstat 5 0, BitVec.ofNat 16 f.src, f.d0, f.d1, f.d2⟩

/-- Changes the entries of a band's collector. -/
def State.setCollector (b : Nat) (l : List (Word × FlueFlit)) (s : State) : State :=
  s.setDie (bandDie b) fun d => { d with collect := put b l d.collect }

/-- A flit goes on from its band's collector to the hearth core of its die, over the same plane (R431). -/
def State.toHearth (f : FlueFlit) (s : State) : FlueFlit :=
  let c := collectorPos f.band
  let h := s.pos (hearthOf (bandDie f.band))
  { f with atX := c.1, atY := c.2, dx := h.1, dy := h.2, goal := .hearth, via := 4, out := false }

/-- `FLUE_ARRIVE` (R200, R431): at its band's collector a flit that merges is held in the table, and any other goes on to the
hearth core, where it becomes a message of channel 7; a WAKE acts on its core (R351). -/
def execFlueArrive (k : Nat) (s : State) : Host.Outcome State Fault Refusal :=
  .next
    (match s.flue[k]? with
    | none => s
    | some f =>
      let h := hearthOf (bandDie f.band)
      let s1 := { s with flue := dropAt k s.flue }
      if !f.out then s
      else if !s.flueHas f then s
      else match f.goal with
        | .wake .. => { s1 with sysWakes := s1.sysWakes ++ f.asWake.toList }
        | .collector =>
          if mergesCause f.cause then
            let l := (s.die (bandDie f.band)).collector f.band
            if l.any (sameEntry f) then
              s1.setCollector f.band (mapFirst (sameEntry f) (fun (e : Word × FlueFlit) => (e.1, e.2.merge f)) l)
            else s1.setCollector f.band (l ++ [((s.die (bandDie f.band)).cyc, f)])
          else { s1 with flue := s1.flue ++ [s.toHearth f] }
        | .hearth => if s.homeDead h then s1 else s1.putMsg h 7 f.message)

/-- `COLLECTOR_DELIVER` (R200, R431): an entry held for 64 cycles leaves for the hearth core, while channel 7 has room. -/
def execCollectorDeliver (band k : Nat) (s : State) : Host.Outcome State Fault Refusal :=
  .next
    (let d := s.die (bandDie band)
     match (d.collector band)[k]? with
     | none => s
     | some e =>
       if (d.cyc - e.1).toNat < 64 || s.roomOf (hearthOf (bandDie band)) 7 = 0 then s
       else
         let s1 := s.setCollector band (dropAt k (d.collector band))
         { s1 with flue := s1.flue ++ [s.toHearth { e.2 with age := 0 }] })

/-! ### The heartbeat (R405) -/

/-- `HEARTBEAT` (R405): the heartbeat of a cycle in which CYC bits 15:0 of the die are 0; as the next cycle passes it is sent anyway. -/
def execHeartbeat (die : Nat) (s : State) : Host.Outcome State Fault Refusal :=
  .next (if (s.die die).beatDue then s.dieBeat die else s)

end Sys2Proof.Machine
end

