-- ==== Sys2Proof/Machine/Peer.lean ====
section
/-! DEFINITION. Packets from other devices (R206-R208, R218, R219): what a request does here, what an answer does to who
waits for it (R211, R212, R217, R300, R430), parts of brine and membership messages (R327), and the timers (R212, R220). -/

namespace Sys2Proof.Machine

open Config

/-! ### Answers (R211, R212) -/

/-- What a request is answered with. -/
inductive PortAns where
  | data (bs : List Byte)
  | ack
  | nak (reason : BitVec 8)
  | recall (applied : Bool)
  deriving DecidableEq, Repr

/-- The bytes of an answer. -/
def PortAns.bytes : PortAns → List Byte
  | .data bs => bs
  | _ => []

/-- The reason of a NAK, or 0. -/
def PortAns.reason : PortAns → BitVec 8
  | .nak r => r
  | _ => 0#8

/-- STAT of a ping: the first reason that is not 0, in HOP order (R217). -/
def Ping.stat (g : Ping) : Nat :=
  let bad := g.stats.filter fun p => p.2 != 0
  let low := (bad.map (·.1)).foldl min 1000
  ((bad.find? fun p => p.1 == low).map (·.2)).getD 0

/-- The boot generation that a reply to a ping's packet reports, if that packet's PROBEs reach the peer (R217): bits 63:56 of the data
word of the PROBE that the peer performed (DESIGN CHOICE, log 27). -/
def Ping.reported (g : Ping) (hop : Nat) (a : PortAns) : Option (BitVec 8) :=
  if hop ≤ g.hops ∧ g.hops < hop + 4 ∧ a.reason = 0#8 then some (BitVec.ofNat 8 (at' a.bytes (8 * (g.hops - hop) + 7) 1)) else none

/-- A reply to a packet of a ping: X[A] is on its way once the last has arrived (R217). -/
def State.pingAnswer (id hop : Nat) (a : PortAns) (s : State) : State :=
  match s.pings.find? fun g => g.id == id with
  | none => s
  | some g0 =>
    let g := { g0 with
      left := g0.left - 1, rgen := (g0.reported hop a).getD g0.rgen
      stats := g0.stats ++ [(hop, a.reason.toNat)] }
    if g.left = 0 then
      let rtt := min (2 ^ 32 - 1) (s.now g.core - g.issued).toNat
      let v := field rtt 32 ||| field g.rgen.toNat 24 ||| field (g.hops % 8) 8 ||| field g.stat 0
      ({ s with pings := s.pings.filter fun g => g.id != id } : State).oweWord g.core g.cxa g.reg v
    else { s with pings := mapFirst (fun g => g.id == id) (fun _ => g) s.pings }

/-- A write of a brine command to a peer has been answered (R329); which block a NAK concerns is free (DEDUCED, log 31). -/
def State.brineWritten (id : Nat) (a : PortAns) (s : State) : State :=
  match s.brineQ.find? fun q => q.id == id with
  | none => s
  | some q =>
    let q1 := { q with pend := q.pend - 1 }
    let q2 := if a.reason = 0#8 ∨ q.code ≠ 0 then q1
      else { q1 with code := 2, d1 := freeWord s.serial, d2 := freeWord (s.serial + 1) }
    (({ s with serial := s.serial + 2 } : State).putBrine q2).brineGo

/-- A request that a port waits on is answered: who waits for it goes on; data that arrive uncorrectable are delivered as poison (R400,
R401). -/
def State.portAnswer (q : PortReq) (ans : PortAns) (s : State) : State :=
  let a := match ans with
    | .data bs => if s.path.answer then .nak pUNCORR else .data bs
    | a => a
  match q.owner with
  | .thread =>
    match a, q.posted with
    | .nak r, true => (s.recordFault q.core q.cxa r q.ea).storeDone q.core q.cxa
    | _, true => s.storeDone q.core q.cxa
    | .nak r, false => s.landTrap q.core q.cxa r
    | a, false => s.landReply q.core q.cxa a.bytes
  | .probe id hop => s.pingAnswer id hop a
  | .copy slot gen =>
    match s.copySlot q.core slot with
    | some c =>
      if c.gen = gen then
        s.copyAnswer q.core slot q.ea.toNat q.peer (match a with
          | .nak r => .error r
          | a => .ok a.bytes)
      else s
    | none => s
  | .pop ix =>
    match a, s.findPop ix with
    | .nak r, some p => s.doneFailed p 6 r.toNat
    | _, _ => s.closePop ix
  | .half rid cluster target seq ser =>
    { s with
      answers := s.answers ++ [⟨rid, cluster, target, seq, (match a with
        | .nak r => .nak r.toNat
        | _ => .ack), ser⟩] }
  | .recall rid cluster target seq ser =>
    { s with
      answers := s.answers ++ [⟨rid, cluster, target, seq, (match a with
        | .nak r => if r = pSTALE then .stale else .nak r.toNat
        | .recall applied => if applied then .applied else .void
        | _ => .ack), ser⟩] }
  | .bcopy id => (s.brineEnd id (if a.reason = 0#8 then 0 else 11) 0).brineGo
  | .brine id =>
    if s.brineQ.any fun c => c.id == id && c.asked then
      (if a.reason = 0#8 then s.brineRead id a.bytes false else s.brineLost id q.ea.toNat (a.reason == pUNCORR))
    else s.brineWritten id a
  | .queue ser => s.queueAnswer ser (a.reason = 0#8)
  | .watch ser => s.watchAnswer ser (a.reason = 0#8)
  | .signal core cxa r =>
    s.oweWord core cxa r (if a.reason = 0#8 then statusWord 0 0 else statusWord 7 a.reason.toNat)
  | .quiet => s

/-- Takes the first request of a port that satisfies `p` off its list and answers it; an answer that nothing waits for is
dropped (R212). -/
def State.answerReq (port : Nat) (p : PortReq → Bool) (a : PortAns) (s : State) : State :=
  match (s.port port).reqs.find? p with
  | none => s
  | some q => (s.setPort port fun t => { t with reqs := dropFirst p t.reqs }).portAnswer q a

/-- The request that an answer or a refused packet is about: by CTAG, and where that is 0 by core, window and offset. -/
def Pkt.isFor (k : Pkt) (q : PortReq) : Bool :=
  q.ctag == k.ctag
    && (k.ctag != 0 || (q.core == k.score && q.win == k.win && k.ops.any fun o => o.off == q.off))

/-- The answer that an operation of a packet carries. -/
def POp.answer (o : POp) (data : List Byte) : Option PortAns :=
  match o.opc with
  | 0x10 => some (.data (data.take o.len))
  | 0x11 => some .ack
  | 0x12 => some (.nak (BitVec.ofNat 8 o.sub))
  | 0x08 => if o.sub = 2 then some (.recall true) else if o.sub = 3 then some (.recall false) else none
  | _ => none

/-- A request is of a ping. -/
def PortReq.isProbe (q : PortReq) : Bool :=
  match q.owner with
  | .probe .. => true
  | _ => false

/-- Each operation of an answer answers a request (R219), with its own data. -/
def State.takeAnswers (port : Nat) (k : Pkt) : List POp → List Byte → State → State
  | [], _, s => s
  | o :: os, d, s =>
    State.takeAnswers port k os (d.drop o.reqData)
      (match o.answer d with
      | some a => s.answerReq port (fun q => !q.isProbe && { k with ops := [o] }.isFor q) a
      | none => s)

/-- An answer arrives: the PROBE replies of one packet are one answer (R217); in any other packet each operation is one. -/
def State.takeAnswer (port : Nat) (k : Pkt) (s : State) : State :=
  if (s.port port).reqs.any fun q => q.isProbe && k.isFor q then
    match k.ops.head?.bind fun o => { o with len := k.data.length }.answer k.data with
    | some a => s.answerReq port (fun q => q.isProbe && k.isFor q) a
    | none => s
  else s.takeAnswers port k k.ops k.data

/-! ### Checks (R207, R208) -/

/-- Every operation code of R206. -/
def opcOk (n : Nat) : Bool := (decide (1 ≤ n) && decide (n ≤ 0x0A)) || n == 0x10 || n == 0x11 || n == 0x12

/-- Bytes of data that the operations of a packet need (R219). -/
def Pkt.dataBytes (k : Pkt) : Nat := (k.ops.map POp.reqData).foldl (· + ·) 0

/-- The packet, of `n` bytes, is malformed at a device (R208). -/
def Pkt.malformed (k : Pkt) (n : Nat) : Bool :=
  k.hver != 1 || k.rsvd || k.ops.any (fun o => !opcOk o.opc) || k.nop == 0 || decide (4 < k.nop) || decide (6 < k.nrt)
    || decide (6 < k.nrb) || k.nfl != nflOf k.dataBytes || n != 64 * k.nfl
    || k.ops.any (fun o => o.opc != 0x0A && decide (o.hop < k.hix + 1 + k.nrt))

/-- A packet that asks for nothing. -/
def Pkt.isAnswer (k : Pkt) : Bool := k.resp || k.ops.any fun o => decide (0x10 ≤ o.opc ∧ o.opc ≤ 0x12)

/-- Adds 1 to a counter of a port, saturating (R205). -/
def sat16 (v : BitVec 16) : BitVec 16 := if v = 0xFFFF#16 then v else v + 1#16

/-- A packet of one operation. -/
def Pkt.only (k : Pkt) (o : POp) (data : List Byte) : Pkt :=
  { k with nop := 1, ops := [o], data := data, nfl := nflOf data.length }

/-- PROBEs whose HOP is HIX add the device's cycle count to their data words (R207). -/
def probeData (cyc : Word) (hix : Nat) : List POp → List Byte → List Byte
  | [], d => d
  | o :: os, d =>
    let n := o.reqData
    (if o.opc = 0x0A ∧ o.hop = hix then leBytes 8 (wordAt d 0 + cyc).toNat ++ (d.drop 8).take (n - 8) else d.take n)
      ++ probeData cyc hix os (d.drop n)

/-! ### Requests performed here (R207, R219) -/

/-- The right of RGT that an operation needs (R207): bit 0 R, 1 W, 3 A. -/
def POp.right (o : POp) : Option Nat :=
  match o.opc with
  | 0x01 => some 0
  | 0x02 | 0x05 | 0x06 => some 1
  | 0x03 | 0x04 => some 3
  | _ => none

/-- What an operation needs of the pages it reaches. -/
def POp.need (o : POp) : Need :=
  match o.opc, o.sub with
  | 0x01, 1 => { nLdc with host := false, far := false }
  | 0x01, 4 | 0x01, 5 => { nWtw with host := false, far := false }
  | 0x01, _ | 0x06, _ => { nLoad with host := false, far := false }
  | 0x02, 5 | 0x02, 6 | 0x02, 7 => { nGset with host := false, far := false }
  | 0x02, _ => { nStore with host := false, far := false }
  | _, _ => { (nAmo false) with far := false }

/-- The places of the line parts of an access from another device; none where a page or a region turns it away. -/
def State.farParts (who : Who) (nd : Need) : List Nat → Nat → State → Option (List (Loc × Nat) × State)
  | [], _, s => some ([], s)
  | n :: ns, g, s =>
    match s.locateEng who nd g n with
    | .loc (.mem a h p l) s1 => (State.farParts who nd ns (g + n) s1).map fun r => ((.mem a h p l, n) :: r.1, r.2)
    | .loc .zeros s1 | .miss s1 => (State.farParts who nd ns (g + n) s1).map fun r => ((.zeros, n) :: r.1, r.2)
    | _ => none

/-- What stands in the way of an access at its homes. -/
def State.partsBad (s : State) (reads : Bool) : List (Loc × Nat) → Option (BitVec 8)
  | [] => none
  | (.mem a h _ _, n) :: ls =>
    if s.homeDead h then some pDEAD
    else if (if reads then s.spoiled a n else s.chanFailed a) then some pUNCORR else s.partsBad reads ls
  | _ :: ls => s.partsBad reads ls

/-- A DRAM channel that an access waits for (R417). -/
def State.partsWait (s : State) (ls : List (Loc × Nat)) : Bool :=
  ls.any fun p => match p.1 with
    | .mem a _ _ _ => s.chanWaits a
    | _ => false

/-- A request of another device enters its home's waiter table (R152). -/
def State.waitFar (port : Nat) (pkt : List Byte) (kind : WaitKind) (a home : Nat) (paged : Bool) (v : Word) (who : Who)
    (s : State) : State :=
  let cl := s.coreCluster who.core
  ({ s with serial := s.serial + 1 } : State).addWaiter ⟨s.serial, home, kind, a, v, who.core, noCxa, false, 0#4, 0#64, cl,
    (s.cluster cl).tgen, paged, s.now home, some (port, pkt), 0#2, false, false, none, who.task, who.lvlH, kind == .stp && s.path.writes.contains (a / 8)⟩

/-- A request of another device whose page or channel is not at hand waits to be performed, in its place among those of its source
(R167, R355, R417). -/
def State.setAside (port ser : Nat) (pkt : List Byte) (s : State) : State :=
  let h := hearthOf (port / 4)
  let w : Waiter := ⟨ser, h, .aside, 0, 0#64, h, noCxa, false, 0#4, 0#64, s.coreCluster h, 0#32, false, s.now h, some (port, pkt), 0#2,
    true, false, none, 0#16, false, false⟩
  let before (v : Waiter) : Bool := v.kind != .aside || decide (v.id ≤ ser)
  { s with waiters := s.waiters.takeWhile before ++ w :: s.waiters.dropWhile before }

/-- Two packets come from one core of one device. -/
def Pkt.sameSource (a b : Pkt) : Bool := a.score == b.score && a.rb == b.rb

/-- An earlier request of the packet's source has been set aside (R167). -/
def State.asideBefore (s : State) (port ser : Nat) (k : Pkt) : Bool :=
  s.waiters.any fun w => w.kind == .aside && decide (w.id < ser) && w.remote.any fun r => r.1 == port && (Pkt.ofBytes r.2).sameSource k

/-- Writes the parts of a store. -/
def State.writeParts : List (Loc × Nat) → List Byte → State → State
  | [], _, s => s
  | (.mem a h paged leaf, n) :: ls, bs, s =>
    State.writeParts ls (bs.drop n) ((if paged then s.touchL2 h a (effPolicy leaf 0#2) true else s).engWrite a (bs.take n) false)
  | (_, n) :: ls, bs, s => State.writeParts ls (bs.drop n) s

/-- Reads the parts of a load. -/
def State.readParts : List (Loc × Nat) → State → List Byte × State
  | [], s => ([], s)
  | (.mem a h paged leaf, n) :: ls, s =>
    let r := State.readParts ls (if paged then s.touchL2 h a (effPolicy leaf 0#2) false else s)
    (s.readMem a n ++ r.1, r.2)
  | (_, n) :: ls, s => let r := State.readParts ls s; (List.replicate n 0#8 ++ r.1, r.2)

/-- An access of another device, checked and translated, is performed at its homes (R207, R219); with `pair` the word it stores is
left empty (R307). -/
def State.performFar (port : Nat) (pkt : List Byte) (o : POp) (pair : Bool) (data : List Byte) (who : Who) (ls : List (Loc × Nat))
    (s : State) : State :=
  let p := Pkt.ofBytes pkt
  let lost := ls.any fun p => match p.1 with
    | .mem a _ _ _ => s.lostRead a p.2
    | _ => false
  let resp (bs : List Byte) (s : State) : State :=
    if lost then s.nakPeer pkt pUNCORR else s.answerPeer pkt 0x10 0 (padTo (up8 bs.length) bs)
  let first : Nat × Nat × Bool := match ls with
    | (.mem a h paged _, _) :: _ => (a, h, paged)
    | _ => (0, 0, false)
  let (a, h, paged) := first
  let ack (s : State) : State := p.ops.foldl (fun s o => s.answerPeer (p.only o []).toBytes 0x11 (s.level h) []) s
  let v := wordAt data 0
  let zeros := ls.any fun p => p.1 == .zeros
  match o.opc, o.sub with
  | 0x01, 1 =>
    if s.isFull a then let v := s.readWord a; resp (leBytes 8 v.toNat) (s.homeSetFull a false)
    else s.waitFar port pkt .ldc a h paged 0#64 who
  | 0x01, 2 => resp (leBytes 8 (b2n (zeros || s.isFull a))) s
  | 0x01, 4 =>
    if s.readWord a ≠ v then resp (leBytes 8 (s.readWord a).toNat) s else s.waitFar port pkt .wtwNe a h paged v who
  | 0x01, 5 =>
    if v.toNat ≤ (s.readWord a).toNat then resp (leBytes 8 (s.readWord a).toNat) s
    else s.waitFar port pkt .wtwGe a h paged v who
  | 0x01, _ => let r := State.readParts ls s; resp r.1 r.2
  | 0x02, 1 =>
    if s.isFull a then s.waitFar port pkt .stp a h paged v who else ack (s.engWrite a (leBytes 8 v.toNat) false)
  | 0x02, 2 => ack (s.homeSetFull a false)
  | 0x02, 3 => ack (s.homeSetFull a true)
  | 0x02, 5 | 0x02, 6 | 0x02, 7 =>
    let bs := s.readMem a 64
    let c := gclass bs none
    resp bs (if c == .bad || c == .poisoned then s else s.homeGset (o.sub - 5) v.toNat a c bs)
  | 0x02, _ => ack (if pair then (((s.writeMem a (data.take 8)).tear a 8).setFullBit a false).afterWrite a 8 else State.writeParts ls data s)
  | 0x03, fn =>
    let r := s.homeAmo fn a v
    resp (leBytes o.len r.1) r.2.2
  | _, _ =>
    let r := s.homeCas o.len a (BitVec.ofNat 64 (leNat (data.take o.len))) (BitVec.ofNat 64 (leNat ((data.drop o.len).take o.len)))
    resp (leBytes o.len r.1) r.2

/-- Who accesses memory for a packet that came in on a port: the hearth's position of its die, for the window's task. -/
def farWho (port : Nat) (task : BitVec 16) : Who := ⟨hearthOf (port / 4), task, false⟩

/-- An access from another device (R207): its window's base and task (DESIGN CHOICE, log 40), the rights of its pages, then its homes. A
read of a discarded page counts in no DSCRD (DESIGN CHOICE, log 66). -/
def State.accessFar (port ser : Nat) (k : Pkt) (o : POp) (s : State) : State :=
  let pkt := k.toBytes
  let data := k.data.take o.reqData
  let win := inboundWindow k.rb k.win
  let who := farWho port win.2
  let g := win.1 + o.off
  let nak (r : BitVec 8) (s : State) : State := s.nakPeer pkt r
  let n := if o.opc = 0x06 then 1 else o.len
  if s.area false o.need g n = .none then nak pRIGHTS s
  else match s.farParts who o.need (lineParts 40 g n) g with
    | none => nak pRIGHTS s
    | some (ls, s1) =>
      if o.opc = 0x06 then
        match placeHome s1 g (((ls.map (·.1)).head?).getD .zeros) with
        | some h =>
          let c := Ctx.ofBytes data
          let t : Thread := { ctx := { c with rld := false, owe := 0#16, stc := 0#16 }, core := h, wait := .ready, abroad := k.rb.reverse }
          { s1 with hops := s1.hops ++ [{ src := nCores, t := t, pkt := pkt }] }
        | none => nak pDEAD s1
      else
        match s1.partsBad (decide ((o.opc ≠ 0x02 ∨ 5 ≤ o.sub) ∧ ¬(o.opc = 0x01 ∧ o.sub = 2))) ls with
        | some r => nak r s1
        | none =>
          if s1.partsWait ls then s1.setAside port ser pkt else s1.performFar port pkt o (decide (1 < k.ops.length)) data who ls

/-! ### Parts (R327) -/

/-- The values of a half or a copy (R325). -/
def halfVals (f32 sparse : Bool) (pairs : Nat) (bs : List Byte) : List Word :=
  let z := if f32 then 4 else 8
  let n := if f32 then 1024 else 512
  if sparse then
    (List.range pairs).foldl (fun l i =>
      let a := i * (4 + z)
      l.set (at' bs a 4) (BitVec.ofNat 64 (at' bs (a + 4) z))) (List.replicate n 0#64)
  else (List.range n).map fun i => BitVec.ofNat 64 (at' bs (z * i) z)

/-- A message of another device is whole (R327). -/
def State.wholeMessage (r : Reasm) (pkt : List Byte) (s : State) : State :=
  let b := r.bytes
  let fl := at' b 20 1
  let pairs := at' b 21 2
  let id := at' b 0 2 % 4096
  let rid := at' b 8 1 % 64
  if r.opc = 0x09 then
    let ps := (List.range pairs).map fun i => { Proposal.ofBytes id (at' b 2 1) rid (b.drop (32 + 40 * i)) with pkt := pkt }
    if r.sub = 0 then { s with proposals := s.proposals ++ ps } else { s with states := s.states ++ [(rid, ps)] }
  else if r.sub = 1 then
    { s with recalls := s.recalls ++ [⟨id, at' b 2 1, at' b 4 4, at' b 3 1 % 64, 0, rid, 0, at' b 9 3, r.cluster, r.seq, some pkt, 0⟩] }
  else
    { s with
      halves := s.halves ++ [⟨id, at' b 2 1, at' b 3 1 % 64, 0, at' b 4 4, rid, 0, at' b 9 3, r.seq, r.cluster, at' b 12 8, r.sub == 4,
        halfVals (bit fl 1) (bit fl 0) pairs (b.drop 32), some pkt, none, 0⟩] }

/-- A part of a brine or membership message (R327): part 0 takes one of the engine's 32 buffers, or is dropped; the last one
completes the message. -/
def State.takePart (port : Nat) (k : Pkt) (o : POp) (data : List Byte) (s : State) : State :=
  let w := at' data 0 8
  let seq := bits w 0 32
  let cl := bits w 32 9
  let ix := bits w 41 6
  let bs := (data.take o.len).drop 8
  let mine (r : Reasm) : Bool := r.port == port && r.src == k.rb && r.cluster == cl && r.seq == seq && r.opc == o.opc && r.sub == o.sub
  let rest := s.reasms.filter fun r => !mine r
  let start : Option Reasm :=
    if ix = 0 then
      (if ({ s with reasms := rest } : State).buffersFull (s.engineOf bs) then none
       else some ⟨port, k.rb, cl, seq, o.opc, o.sub, 1, bs⟩)
    else (s.reasms.find? fun r => mine r && r.next == ix).map fun r => { r with next := ix + 1, bytes := r.bytes ++ bs }
  match start with
  | none => s
  | some r =>
    if bit w 47 then ({ s with reasms := rest } : State).wholeMessage r (k.only o data).toBytes
    else { s with reasms := rest ++ [r] }

/-! ### The destination (R207) -/

/-- The device that a packet comes from, as this one numbers it: the peer whose route is the return route (R89, R102, DESIGN CHOICE,
log 40); else a free number. -/
def State.peerOf (s : State) (k : Pkt) : Nat :=
  let back := k.rb.reverse
  let is (p : Nat) : Bool :=
    let e := s.peer1 p
    p1State e != 0 && p1Nrt e == back.length && (List.range back.length).all fun i => p1Route e i % 16 == back.getD i 0 % 16
  ((List.range 1024).find? is).getD ((freeWord s.serial).toNat % 1024)

/-- Performs a request at this device: one operation, or a pair (R307). One whose page or channel is not at hand is set aside, and so
are the later ones of its source, which keeps their order (R167). -/
def State.performUnit (port ser : Nat) (k : Pkt) (o : POp) (s : State) : State :=
  let pkt := k.toBytes
  if o.opc = 0x08 ∨ o.opc = 0x09 then s.takePart port k o k.data
  else if o.right.any fun b => !bit k.rgt b then s.nakPeer pkt pRIGHTS
  else if s.asideBefore port ser k then s.setAside port ser pkt
  else if o.opc = 0x05 ∨ o.opc = 0x07 then
    let n := o.off % 2048
    if s.homeDead n then s.nakPeer pkt pDEAD
    else if o.opc = 0x07 then let r := s.wakeThread n (wordAt k.data 0); r.2.answerPeer pkt 0x10 0 (leBytes 8 r.1.toNat)
    else
      let m : Msg := ⟨BitVec.ofNat 32 (at' k.data 0 4), BitVec.ofNat 16 (at' k.data 4 2), BitVec.ofNat 16 (0x8000 + s.peerOf k),
        wordAt k.data 8, wordAt k.data 16, wordAt k.data 24⟩
      { s with msgs := s.msgs ++ [⟨n, o.sub % 8, m, none, noCxa, pkt⟩], serial := s.serial + 1 }
  else match s.tryPort (.peer port) (State.accessFar port ser k o) with
    | .ok u => u
    | .error u => u.setAside port ser pkt

/-- A store of a word that the next operation of its packet empties: the two are one (R307, DEDUCED, log 30). -/
def POp.pairs (o p : POp) : Bool :=
  o.opc == 2 && o.sub == 0 && o.len == 8 && p.opc == 2 && p.sub == 2 && p.off == o.off && p.hop == o.hop

/-- The request operations of a packet whose HOP is HIX, in entry order, each with its own data, and a pair as one (R207, R219, R307);
the flag says that the operation before has taken the next one with it. -/
def Pkt.units (k : Pkt) : List POp → List Byte → Bool → List Pkt
  | [], _, _ => []
  | o :: os, d, taken =>
    let with' := (os.take 1).filter o.pairs
    let rest := Pkt.units k os (d.drop o.reqData) (!with'.isEmpty && !taken)
    if taken || o.hop != k.hix || o.opc == 0x0A then rest
    else { k.only o (d.take o.reqData) with nop := 1 + with'.length, ops := o :: with' } :: rest

/-- Performs the operations of a request (R207, R219), each of which is answered in a packet of its own (DESIGN CHOICE, log 68). -/
def State.performOps (port : Nat) (k : Pkt) (s : State) : State :=
  (k.units k.ops k.data false).foldl (fun s u => match u.ops with
    | [] => s
    | o :: _ => State.performUnit port s.serial u o { s with serial := s.serial + 1 }) s

/-- The data words of PROBEs, with the boot generation in bits 63:56 of those that this device has performed (R217, DESIGN CHOICE, log
27). -/
def probeReport (gen : BitVec 8) (hix : Nat) : List POp → List Byte → List Byte
  | [], d => d
  | o :: os, d => (if o.hop = hix then d.take 7 ++ [gen] else d.take 8) ++ probeReport gen hix os (d.drop 8)

/-- PROBEs are answered together: a RESP with their data words (R217, R218). -/
def State.answerProbes (k : Pkt) (s : State) : State :=
  if k.ops.all fun o => o.opc == 0x0A then
    let back := k.rb.reverse
    s.sendPkt (back.headD 0 % 16) none
      { nrt := back.length - 1, nop := k.nop, rt := back.drop 1, resp := true, score := k.score, win := k.win, nfl := k.nfl
        ctag := k.ctag, ops := k.ops.map fun o => ⟨0x10, back.length, 0, o.len, o.off, false⟩, data := probeReport s.bgen k.hix k.ops (k.data.take k.dataBytes) }
  else s

/-- A packet arrives at this device (R207, R208); a request whose return route has no entry left is dropped (DESIGN CHOICE, log 40). -/
def State.receivePkt (port : Nat) (bytes : List Byte) (s : State) : State :=
  let k := Pkt.ofBytes bytes
  let here := { k with hix := (k.hix + 1) % 8, nrb := k.nrb + 1, rb := k.rb ++ [port] }
  if k.malformed bytes.length then
    let s1 := s.setPort port fun t => { t with malf := sat16 t.malf }
    if k.isAnswer || decide (5 < k.nrb) || (List.range 6).any fun i => decide (16 ≤ at' bytes (9 + i) 1) then s1
    else s1.nakPeer here.toBytes pMALF
  else if !k.isAnswer && decide (5 < k.nrb) then s
  else
    let cyc := (s.die (port / 4)).cyc
    let probed := { here with data := probeData cyc here.hix here.ops here.data }
    if 0 < k.nrt then
      s.sendPkt (k.rt.headD 0 % 16) none { probed with nrt := k.nrt - 1, rt := k.rt.drop 1 }
    else if k.resp then s.takeAnswer port k
    else if k.ops.all fun o => o.opc == 0x0A then s.answerProbes probed
    else if BitVec.ofNat 8 k.gen ≠ s.bgen then
      (s.setPort port fun t => { t with sgen := sat16 t.sgen }).nakPeer here.toBytes pSTALE
    else s.performOps port probed

/-- `PEER_PACKET_RECEIVE` (R207). -/
def execPeerPacketReceive (port : Nat) (bytes : List Byte) (s : State) : Host.Outcome State Fault Refusal :=
  .next (if 16 ≤ port then s else s.receivePkt port bytes)

/-! ### Timers (R212, R220) and requests sent again (R152, R358) -/

/-- Every request a port waits on, with its port. -/
def State.portReqs (s : State) : List (Nat × PortReq) := (s.ports.map fun p => p.2.reqs.map fun q => (p.1, q)).flatten

/-- `PORT_TIMEOUT` (R212): 2^20 cycles of the port's die without an answer. -/
def execPortTimeout (k : Nat) (s : State) : Host.Outcome State Fault Refusal :=
  .next
    (match s.portReqs[k]? with
    | none => s
    | some (p, q) =>
      if ((s.die (p / 4)).cyc - q.since).toNat < 2 ^ 20 then s
      else s.answerReq p (fun r => decide (r = q)) (.nak pDEAD))

/-- `REMOTE_WAIT_TIMEOUT` (R220): 2^19 cycles of the home's die. -/
def execRemoteWaitTimeout (k : Nat) (s : State) : Host.Outcome State Fault Refusal :=
  .next
    (match s.waiters[k]? with
    | none => s
    | some w =>
      if w.remote.isNone || w.kind == .aside || decide ((s.now w.home - w.since).toNat < 2 ^ 19) then s
      else w.nak pDEAD { s with waiters := dropAt k s.waiters })

/-- The thread named is dropped with a key: at once, or when its present wait ends (R346, R358). -/
def State.dropOn (core : Nat) (cxa : Word) (key : DropKey) (s : State) : State :=
  match s.findThr core cxa with
  | none => s
  | some t =>
    if t.wait = .ready ∨ t.wait = .fetch then
      (s.updThr core cxa fun t => { t.unbind with wait := .dropped key }).setCore core fun c =>
        { c with runq := c.runq.filter fun e => e.cxa != cxa }
    else s.updThr core cxa fun t => { t with dropNext := some key }

/-- A blocking access of a parked thread whose page has turned it away after all: the thread is dropped with its instruction
unperformed, and issues it again on the wake (R358). -/
def State.unwait (core : Nat) (cxa : Word) (key : DropKey) (s : State) : State :=
  s.updImage core cxa fun t =>
    let c := match t.res.reply with
      | none => t.ctx
      | some b =>
        let c := (t.ctx.clearOwe b.dest.regs).fillAll b.dest.regs
        { c with rld := false, fe := c.fe ||| b.emptied }
    { t with ctx := c, res := { t.res with reply := none }, waitOn := none, wait := .dropped key }

/-- The request of a waiter-table entry arrives at its home once more: it is performed, or waits there again (R152). -/
def Waiter.again (w : Waiter) (s : State) : State :=
  if s.homeDead w.home then w.nak pDEAD s
  else if w.holds s then w.perform s
  else s.addWaiter { w with since := s.now w.home }

/-- A posted request goes back among those of its core, in program order (R153, R168). -/
def insertReq (r : Req) : List Req → List Req
  | [] => [r]
  | q :: l => if q.src = r.src ∧ r.id < q.id then r :: q :: l else q :: insertReq r l

/-- A request that was refused because of a generation is translated again (R358): it is on its way to its new home, in its old place
among the requests of its core, or its page turns it away: the event is raised and the thread dropped; an `stp`, which its thread has
passed, is sent again on the wake. -/
def State.retranslate (w : Waiter) (s : State) : State :=
  let who : Who := ⟨w.src, w.task, w.lvlH⟩
  let nd : Need := match w.kind with
    | .ldc => nLdc
    | .stp => nStp
    | _ => nWtw
  let stay (s : State) : State := { s with waiters := s.waiters ++ [{ w with since := s.now w.home }] }
  match (s.taskSet w.src who.task).gva nd w.ea 8 with
  | none => stay s
  | some g =>
    let event (cause : BitVec 8) (why : Nat) : State :=
      let key : DropKey := ⟨cause, pageOf g⟩
      let s1 := s.sendFlue w.src cause (pageOf g) (pageWord who nd.kind why)
      if w.posted then ({ s1 with waiters := s1.waiters ++ [{ w with woken := some key }] } : State).dropOn w.src w.cxa key
      else (s1.ackTo w.src w.home).unwait w.src w.cxa key
    match s.locateEng who nd g 8 with
    | .loc (.mem a home paged leaf) s1 =>
      let s2 := s1.ackTo w.src w.home
      let s3 := match chargeDn w.src home with
        | some dn => s2.setCore w.src fun c => (c.charge dn).getD c
        | none => s2
      let cl := s.coreCluster w.src
      let w1 := { w with home := home, addr := a, port := cl, gen := (s.cluster cl).tgen, paged := paged, anew := false }
      if w.posted then
        { s3 with
          flight := insertReq {
            id := w.id, src := w.src, cxa := w.cxa, home := home, op := .stp w.val, addr := a, ea := w.ea, port := cl
            gen := w1.gen, paged := paged, pol := if paged then effPolicy leaf w.cp else 0, cp := w.cp, counted := true, tag := 0#16
            short := false, delta := 0#16, page := 0, stage := 0, inj := 0, resend := false, task := w.task, lvlH := w.lvlH } s3.flight }
      else if s3.chanWaits a then stay s
      else w1.again (if paged then s3.touchL2 home a (effPolicy leaf w.cp) false else s3)
    | .loc .zeros s1 =>
      let met : Bool := match w.kind with
        | .wtwNe => w.val != 0#64
        | _ => decide (w.val = 0#64)
      if met then w.reply 0#64 s1 else stay s
    | .fail .rev => event cREV 6
    | .fail (.pgf why) => event (if why = 5 then cWLK else cPGF) why
    | .miss s => s
    | _ => stay s

/-- `WAITER_RESEND` (R152, R358): 256 cycles after a request was refused it is sent again, its thread still parked; another device's
is performed anew, the oldest of its source first (R167). -/
def execWaiterResend (k : Nat) (s : State) : Host.Outcome State Fault Refusal :=
  .next
    (match s.waiters[k]? with
    | none => s
    | some w =>
      if !w.refused || w.woken.isSome || decide ((s.now w.home - w.since).toNat < 256) then s
      else
        let s1 := { s with waiters := dropAt k s.waiters }
        match w.remote with
        | some (port, pkt) =>
          let p := Pkt.ofBytes pkt
          match p.ops with
          | [] => s1
          | o :: _ => if s.asideBefore port w.id p then s else s1.performUnit port w.id p o
        | none =>
          if w.anew then
            match s1.tryPort (.waiter w.src w.cxa) (State.retranslate w) with
            | .ok u => u
            | .error u => { u with waiters := u.waiters ++ [{ w with since := s.now w.home }] }
          else w.again s1)

end Sys2Proof.Machine
end

