-- ==== Sys2Proof/Machine/Link.lean ====
section
/-! DEFINITION. Kornar links (R201-R205): the flits a port receives, its replay buffer, its width, training, and what goes
with a port that goes DOWN. -/

namespace Sys2Proof.Machine

open Config

/-- The pressure level of a port's transmit queue (R195, R196). -/
def Port.level (p : Port) : Nat :=
  let n := p.txq.length
  if n < 512 then 0 else if n < 768 then 1 else if n < 896 then 2 else 3

/-- A LACK covers a flit of the replay buffer: sequence numbers wrap at 4,096 (R201, R202). -/
def lackCovers (lack seq : Nat) : Bool := decide ((lack + 4096 - seq) % 4096 < 1024)

/-- The draught of a port's DN comes back for flits that end a packet (R196). -/
def State.linkAcks (port level : Nat) (l : List LinkFlit) (s : State) : State :=
  { s with acks := s.acks ++ l.filterMap fun f => f.ack.map fun c => ⟨c, 0x800 + port, level⟩ }

/-- The flits that a LACK covers leave the replay buffer (R196, R202). -/
def State.freeReplay (port lack : Nat) (s : State) : State :=
  let p := s.port port
  let done := p.replay.filter fun e => lackCovers lack e.1
  (s.linkAcks port p.level (done.map (·.2))).setPort port fun p => { p with replay := p.replay.filter fun e => !lackCovers lack e.1 }

/-- A port sends what its queue holds and its replay buffer takes. -/
def Port.pumpAll (p : Port) : Port := p.pump p.txq.length

/-- A LACK arrives: more can be sent. -/
def State.takeLack (port lack : Nat) (s : State) : State := (s.freeReplay port lack).setPort port Port.pumpAll

/-- A change of a port's STATE raises LNK to its die's hearth (R199, R204, R347); the port stands at its position (R429). -/
def State.setLink (port : Nat) (st : BitVec 3) (s : State) : State :=
  let (x, y) := portPos port
  let s1 := s.setPort port fun p => { p with st := st }
  { s1 with flue := s1.flue ++ [flueFrom x y (64 * y + x) cLNK (field st.toNat 8 ||| field port 0) 0#64] }

/-- A packet still in the buffers of a port that goes DOWN (R204): an answer is dropped, one in transit is refused along
its return route, a request of this device is refused here. -/
def State.dropPacket (port : Nat) (header : List Byte) (s : State) : State :=
  let k := Pkt.ofBytes header
  if k.isAnswer then s
  else if k.nrb ≠ 0 then s.answerPeer header 0x12 pDEAD.toNat []
  else s.answerReq port k.isFor (.nak pDEAD)

/-- A port goes DOWN (R204). -/
def State.linkDown (port : Nat) (s : State) : State :=
  let p := s.port port
  let l := p.replay.map (·.2) ++ p.txq
  let s1 := (s.setPort port fun p => { p with replay := [], txq := [], partials := [], retries := 0 }).setLink port 0#3
  (l.filterMap (·.header)).foldl (fun s h => s.dropPacket port h) (s1.linkAcks port 0 l)

/-- RETRY arrives (R202, R204): the transmitter goes back to LACK + 1; the sixteenth for one LSEQ without progress takes the
port DOWN. What its replay buffer holds goes again, in order, before anything new. -/
def State.takeRetry (port lack : Nat) (s : State) : State :=
  let s1 := s.freeReplay port lack
  let p := s1.port port
  let next := (lack + 1) % 4096
  let n := if p.retryFor = next then p.retries + 1 else 1
  if 16 ≤ n then s1.linkDown port else s1.setPort port fun p => ({ p with retries := n, retryFor := next } : Port).resend.pumpAll

/-- A DATA flit is taken in order; the last of a packet completes it (R202, R206). -/
def State.takeData (port : Nat) (payload : List Byte) (s : State) : State :=
  let l := (s.port port).partials ++ [payload]
  let n := max 1 (min 6 (at' (l.headD []) 21 1))
  let s1 := s.setPort port fun p => { p with want := (p.want + 1) % 4096, partials := if l.length < n then l else [] }
  if l.length < n then s1 else s1.receivePkt port l.flatten

/-- A flit is none: its length, its CRC, its LTYPE or a reserved bit (R201, R202). -/
def noFlit (bs : List Byte) : Bool :=
  let h := at' bs 0 4
  bs.length != 72 || at' bs 68 4 != (crc32 (bs.take 68)).toNat || decide (3 < bits h 28 4) || bits h 0 2 != 0

/-- The receiver discards a flit (R202). -/
def Port.badFlit (p : Port) (bs : List Byte) : Bool := noFlit bs || bits (at' bs 0 4) 16 12 != p.want

/-- A valid flit has arrived at a port (R204). -/
def State.hear (port : Nat) (s : State) : State := s.setPort port fun p => { p with heard := (s.die (port / 4)).cyc }

/-- `LINK_FLIT_RECEIVE` (R201, R202): a flit that is discarded is answered with RETRY; one that reaches a port in TRAINING shows that the
link is not silent (R204). -/
def execLinkFlitReceive (port : Nat) (bytes : List Byte) (s : State) : Host.Outcome State Fault Refusal :=
  .next
    (if 16 ≤ port ∨ (s.port port).st = 0#3 then s
     else if (s.port port).st ≠ 2#3 then (if noFlit bytes then s else s.hear port)
     else if (s.port port).badFlit bytes then s.setPort port fun p => ({ p with rply := sat16 p.rply } : Port).sendRetry
     else
       let h := at' bytes 0 4
       let lack := bits h 4 12
       let s1 := (s.hear port).setPort port fun p => { p with rwid := BitVec.ofNat 2 (bits h 2 2) }
       match bits h 28 4 with
       | 0 => (s1.takeLack port lack).takeData port ((bytes.drop 4).take 64)
       | 2 => s1.takeRetry port lack
       | _ => s1.takeLack port lack)

/-- `LINK_RETRY_RECEIVE` (R202, R204). -/
def execLinkRetryReceive (port lack : Nat) (s : State) : Host.Outcome State Fault Refusal :=
  .next (if 16 ≤ port ∨ (s.port port).st ≠ 2#3 then s else (s.hear port).takeRetry port lack)

/-- `LANE_FAIL` (R203): the port takes the largest width whose lanes are all good. -/
def execLaneFail (port lane : Nat) (s : State) : Host.Outcome State Fault Refusal :=
  .next
    (if 16 ≤ port then s
     else s.setPort port fun p => ({ p with lanes := p.lanes &&& ~~~BitVec.ofNat 8 (2 ^ lane) } : Port).rewidth)

/-- `LINK_SILENCE_DOWN` (R204): 65,536 cycles without a valid flit. -/
def execLinkSilenceDown (port : Nat) (s : State) : Host.Outcome State Fault Refusal :=
  .next
    (if 16 ≤ port ∨ (s.port port).st = 0#3 ∨ ((s.die (port / 4)).cyc - (s.port port).heard).toNat < 65536 then s
     else s.linkDown port)

/-- `LINK_TRAIN` (R205): from DOWN to TRAINING, and from there to UP, where both ends number their flits from 0 (DEDUCED, log 42). -/
def execLinkTrain (port : Nat) (s : State) : Host.Outcome State Fault Refusal :=
  .next
    (if 16 ≤ port then s
     else
       let start (p : Port) : Port :=
         let p := { p with
           st := 2#3, lseq := 0, want := 0, replay := [], partials := [], rwid := 0, retries := 0, retryFor := 0, heard := (s.die (port / 4)).cyc }
         p.pumpAll
       match (s.port port).st.toNat with
       | 0 => (s.hear port).setLink port 1#3
       | 1 => (s.setPort port start).setLink port 2#3
       | _ => s)

end Sys2Proof.Machine
end

