-- ==== Sys2Proof/Machine/Bringup.lean ====
section
/-! DEFINITION. Bring-up, power and the management sideband (R207, R415-R426). -/

namespace Sys2Proof.Machine

open Config

/-! ### Device reset (R207, R416, R420) -/

/-- The next boot generation: it skips 0 (R207). -/
def nextBootGen (g : BitVec 8) : BitVec 8 := if g = 0xFF#8 then 1#8 else g + 1#8

/-- The thread that a boot ROM starts on the hearth core of a die, at level H (R420). Where code offset 0 lies and what its
registers hold is not said: its PC and CXA are free, its other registers those of a new thread (DESIGN CHOICE, log 43). -/
def bootThread (d n : Nat) : Thread :=
  { ctx := { pc := freeWord n &&& ~~~3#64, st := 3#64, cxa := freeWord (n + 1) &&& 0x00FFFFFFFFFFFF00#64 }
    core := hearthOf d, slot := some 0, place := .line 0, wait := .ready }

/-- A die's boot ROM judges the image in the flash (R416, R420): on success it measures itself and the image and starts the hearth, on failure the
die is fatal. -/
def State.bootDie (d : Nat) (s : State) : State :=
  match bootFails s.flash d with
  | none =>
    let s1 := s.setDie d fun e => { e with mr := [extended 0 (romVersion d), extended 0 (imageBody s.flash), 0, 0] }
    { s1 with rdyd := s1.rdyd ||| field 1 d, pool := s1.pool ++ [bootThread d s.serial], serial := s.serial + 2 }
  | some step => (s.setDie d fun e => { e with bst := step }).failDie d true

/-- `DEVICE_RESET` (R207, R420): everything takes its reset value, die 0's boot ROM advances the boot generation, and each
die's boot ROM judges the image that the flash holds then. What has left the device, and the sideband's address, stay (R426). -/
def execDeviceReset (image : Nat) (s : State) : Host.Outcome State Fault Refusal :=
  .next
    (let g := nextBootGen s.flashGen
     let s1 : State :=
      { agenda := s.agenda, serial := s.serial, flash := image, flashGen := g, bgen := g, hostTx := s.hostTx, i3cAddr := s.i3cAddr }
     [0, 1, 2, 3].foldl (fun s d => s.bootDie d) s1)

/-! ### Readiness (R416, R417) -/

/-- `CLUSTER_READY` (R416): its core memories read zero since reset (R146), and its cores run their walkers (R13; DESIGN CHOICE, log
43). -/
def execClusterReady (cluster : Nat) (s : State) : Host.Outcome State Fault Refusal :=
  .next
    (if cluster < 512 ∧ !s.rdyc.contains cluster then
       (s.clusterCores cluster).foldl (fun s n => s.startWalker n) { s with rdyc := insertNat cluster s.rdyc }
     else s)

/-- `DRAM_TRAIN_DONE` (R416). -/
def execDramTrainDone (chan : Nat) (s : State) : Host.Outcome State Fault Refusal :=
  .next (if chan < 128 ∧ !s.flm.contains chan then State.hostDrain s.hostIn [] { s with rdym := insertNat chan s.rdym } else s)

/-- `DRAM_TRAIN_FAIL` (R417). -/
def execDramTrainFail (chan : Nat) (s : State) : Host.Outcome State Fault Refusal :=
  .next (if chan < 128 ∧ !s.rdym.contains chan then State.hostDrain s.hostIn [] { s with flm := insertNat chan s.flm } else s)

/-! ### Power and temperature (R418, R424, R425) -/

/-- `THERMAL_FATAL` (R418): a junction temperature at or above 115 °C. -/
def execThermalFatal (die : Nat) (s : State) : Host.Outcome State Fault Refusal :=
  .next (if die < 4 ∧ !s.dieFatal die then State.hostDrain s.hostIn [] (s.failDie die false) else s)

/-- Package power: the sum over the dies (R424, R426). -/
def State.power (s : State) : Nat := ([0, 1, 2, 3].map fun d => (s.die d).pwr.toNat).foldl (· + ·) 0

/-- `CLOCK_ADJUST` (R424): with the present power and temperature of its die; a die that begins to throttle raises an in-band
interrupt (R426), and one at or above 115 °C becomes fatal (R418). -/
def execClockAdjust (die : Nat) (power : BitVec 16) (temp : BitVec 8) (s : State) : Host.Outcome State Fault Refusal :=
  .next
    (if 4 ≤ die then s
     else
       let s1 := s.setDie die fun e => { e with pwr := power, tmp := temp }
       let hot := decide (100 ≤ temp.toNat) || decide (s1.pcap.toNat < s1.power)
       let s2 := s1.setDie die fun e =>
         { e with clk := if hot then max 500 (e.clk - 50) else min 1000 (e.clk + 50), throttled := hot }
       let s3 := if hot && !(s.die die).throttled then { s2 with hostTx := s2.hostTx ++ [.inBand 0x02#8] } else s2
       if 115 ≤ temp.toNat ∧ !s.dieFatal die then State.hostDrain s3.hostIn [] (s3.failDie die false) else s3)

/-- An engine of a cluster has nothing to do: 0 pan, 1 stream unit, 2 brine engine (R425). -/
def State.unitIdle (s : State) (k unit : Nat) : Bool :=
  match unit with
  | 0 => (s.panCores k).all fun n => (s.core n).panQ.all fun q => q.st == .committed
  | 1 => (s.clusterCores k).all fun n => (s.core n).streamQ.all (·.fin)
  | _ => (s.cluster k).custody.isEmpty && s.brineQ.all fun q => s.coreCluster q.core != k

/-- `UNIT_GATE` (R425): an idle engine gates its clock; it loses nothing. -/
def execUnitGate (cluster unit : Nat) (s : State) : Host.Outcome State Fault Refusal :=
  .next
    (if cluster < 512 ∧ unit < 3 ∧ s.unitIdle cluster unit then
       s.setCluster cluster fun c => { c with gated := insertNat unit c.gated }
     else s)

/-! ### The management sideband (R426) -/

/-- The 64-byte register space. -/
def State.i3cSpace (s : State) : List Byte :=
  let tmp := ([0, 1, 2, 3].map fun d => (s.die d).tmp.toNat).foldl max 0
  leBytes 8 s.rdydWord.toNat ++ leBytes 8 s.power ++ leBytes 8 tmp
    ++ padTo 8 ([0, 1, 2, 3].map fun d => byteOf (s.die d).bst.toNat) ++ leBytes 8 (s.die 0).frw.toNat ++ List.replicate 24 0#8

/-- A dynamic address is assigned to a target that has none. -/
def State.giveAddr (addr : BitVec 7) (s : State) : State := if s.i3cAddr.isNone then { s with i3cAddr := some addr } else s

/-- `I3C_ENTDAA` (R426). -/
def execI3cEntdaa (addr : BitVec 7) (s : State) : Host.Outcome State Fault Refusal := .next (s.giveAddr addr)

/-- `I3C_SETDASA` (R426): from the static address 0x52. -/
def execI3cSetdasa (addr : BitVec 7) (s : State) : Host.Outcome State Fault Refusal := .next (s.giveAddr addr)

/-- `I3C_PRIVATE_READ` (R426): of a target with an address; past its 64 bytes it reads 0 (DEDUCED, log 44). -/
def execI3cPrivateRead (off len : Nat) (s : State) : Host.Outcome State Fault Refusal :=
  .next
    (if s.i3cAddr.isNone then s
     else { s with hostTx := s.hostTx ++ [.i3c (padTo (min len 64) ((s.i3cSpace.drop off).take (min len 64)))] })

/-- `I3C_PRIVATE_WRITE` (R426): every register of the space is read only, so it changes nothing (DEDUCED, log 44). -/
def execI3cPrivateWrite (_off : Nat) (_bytes : List Byte) (s : State) : Host.Outcome State Fault Refusal := .next s

end Sys2Proof.Machine
end

