-- ==== Sys2Proof/Machine/Control.lean ====
section
/-! DEFINITION. The control and predicate instructions (R59-R70). -/

namespace Sys2Proof.Machine

/-- The target of a relative transfer: the address of the branch plus imm21 × 4 (R34). -/
def State.branchTo (s : State) (o : Opnd) : Word := s.pc + (o.immW <<< 2)

/-- `nop` (R61). -/
def execNop (x : Args) (s : State) : Host.Outcome State Fault Refusal := issue x.h (fun s => .done s) s

/-- `br` (R62). -/
def execBr (x : Args) (s : State) : Host.Outcome State Fault Refusal := issue x.h (fun s => .jump s (s.branchTo x.a)) s

/-- `jmp` (R63). -/
def execJmp (x : Args) (s : State) : Host.Outcome State Fault Refusal :=
  issue x.h (fun s => withSrc x.a s fun v s => .jump s v) s

/-- A call writes the return address to x15 and transfers (R64). -/
def callTo (dst : Word) (s : State) : Eff := withDestReg 15#4 false s (.jump (s.writeX 15#4 (s.pc + 12#64)) dst)

/-- `call` (R64). -/
def execCall (x : Args) (s : State) : Host.Outcome State Fault Refusal :=
  issue x.h (fun s => callTo (s.branchTo x.a) s) s

/-- `callr`: A is read first (R64). -/
def execCallr (x : Args) (s : State) : Host.Outcome State Fault Refusal :=
  issue x.h (fun s => withSrc x.a s fun v s => callTo v s) s

/-- `loop` (R65). -/
def execLoop (x : Args) (s : State) : Host.Outcome State Fault Refusal :=
  issue x.h (fun s =>
    withSrc x.a s fun v s =>
      let w := v - 1#64
      let t := s.writeX x.a.rix w
      if w = 0#64 then .done t else .jump t (s.branchTo x.b)) s

/-- The latency of a compare or of a floating-point operation: by whether a type it names is 64 bits wide (R39, R131). -/
def cmpLatency (t : Ty) : Nat :=
  match t with
  | .f64 => 12 | .f32 => 8 | _ => 4

/-- `cmp` (R55, R66). -/
def execCmp (t : Ty) (x : Args) (s : State) : Host.Outcome State Fault Refusal :=
  issue x.h (fun s =>
    withSrc x.b s fun b s => withSrc x.c s fun c s =>
      let r := condTy t x.a.cond (x.b.atTy t b) (x.c.atTy t c)
      withDest x.a s (.done (s.writePFixed x.a.pix r.1 (cmpLatency t) r.2 x.h))) s

/-- The predicate instructions: both sources are read, waiting for pending writes, and P[A] is written (R67). -/
def plog (f : Bool → Bool → Bool) (x : Args) (s : State) : Host.Outcome State Fault Refusal :=
  issue x.h (fun s =>
    withPred x.b.pix s fun b => withPred x.c.pix s fun c => withDest x.a s (.done (s.writeP x.a.pix (f b c)))) s

/-- A predicate instruction of one source; C is absent (R67). -/
def plog1 (f : Bool → Bool) (x : Args) (s : State) : Host.Outcome State Fault Refusal :=
  issue x.h (fun s => withPred x.b.pix s fun b => withDest x.a s (.done (s.writeP x.a.pix (f b)))) s

/-- `plog.and` (R67). -/
def execPlogAnd (x : Args) (s : State) : Host.Outcome State Fault Refusal := plog (fun b c => b && c) x s

/-- `plog.or` (R67). -/
def execPlogOr (x : Args) (s : State) : Host.Outcome State Fault Refusal := plog (fun b c => b || c) x s

/-- `plog.xor` (R67). -/
def execPlogXor (x : Args) (s : State) : Host.Outcome State Fault Refusal := plog (fun b c => b != c) x s

/-- `plog.andn` (R67). -/
def execPlogAndn (x : Args) (s : State) : Host.Outcome State Fault Refusal := plog (fun b c => b && !c) x s

/-- `plog.orn` (R67). -/
def execPlogOrn (x : Args) (s : State) : Host.Outcome State Fault Refusal := plog (fun b c => b || !c) x s

/-- `plog.xnor` (R67). -/
def execPlogXnor (x : Args) (s : State) : Host.Outcome State Fault Refusal := plog (fun b c => b == c) x s

/-- `plog.mov` (R67). -/
def execPlogMov (x : Args) (s : State) : Host.Outcome State Fault Refusal := plog1 (fun b => b) x s

/-- `plog.not` (R67). -/
def execPlogNot (x : Args) (s : State) : Host.Outcome State Fault Refusal := plog1 (fun b => !b) x s

/-- `trap`: SWT, or its escalation (R68). -/
def execTrap (x : Args) (s : State) : Host.Outcome State Fault Refusal :=
  issue x.h (fun _ => .trap tSWT 0#8 x.a.immW) s

/-- Leaving a handler for an address; ILL with WHY 0xB when no handler runs (R69). -/
def tretTo (back : Word → Word) (s : State) : Eff :=
  if s.trin then .jump s.leaveTrap (back s.thr.ctx.tra) else .ill 0x0A#8 0xB

/-- `tret.retry` (R69). -/
def execTretRetry (x : Args) (s : State) : Host.Outcome State Fault Refusal := issue x.h (tretTo fun a => a) s

/-- `tret.next` (R69). -/
def execTretNext (x : Args) (s : State) : Host.Outcome State Fault Refusal := issue x.h (tretTo fun a => a + 12#64) s

/-- `brk`: PC advances, then the thread is dropped with DBG, which carries the immediate (R70, R347). -/
def execBrk (x : Args) (s : State) : Host.Outcome State Fault Refusal :=
  issue x.h (fun s =>
    let t := (s.setPc (s.pc + 12#64)).dropThr cDBG s.thr.ctx.cxa
    .stay (t.sendFlue s.thr.core cDBG s.thr.ctx.cxa x.a.immW)) s

end Sys2Proof.Machine
end

