-- ==== Sys2Proof/Machine/Dispatch.lean ====
section
/-! DEFINITION. The dispatch: one arm per constructor of Instr, each one direct call of that instruction's meaning. -/

namespace Sys2Proof.Machine

/-- What an instruction, or a step of the machine that no word encodes, does. -/
def exec (i : Instr) (s : State) : Host.Outcome State Fault Refusal :=
  match i with
  | .nop x => Sys2Proof.Machine.execNop x s
  | .br x => Sys2Proof.Machine.execBr x s
  | .jmp x => Sys2Proof.Machine.execJmp x s
  | .call x => Sys2Proof.Machine.execCall x s
  | .callr x => Sys2Proof.Machine.execCallr x s
  | .loop x => Sys2Proof.Machine.execLoop x s
  | .cmp t x => Sys2Proof.Machine.execCmp t x s
  | .plogAnd x => Sys2Proof.Machine.execPlogAnd x s
  | .plogOr x => Sys2Proof.Machine.execPlogOr x s
  | .plogXor x => Sys2Proof.Machine.execPlogXor x s
  | .plogAndn x => Sys2Proof.Machine.execPlogAndn x s
  | .plogOrn x => Sys2Proof.Machine.execPlogOrn x s
  | .plogXnor x => Sys2Proof.Machine.execPlogXnor x s
  | .plogMov x => Sys2Proof.Machine.execPlogMov x s
  | .plogNot x => Sys2Proof.Machine.execPlogNot x s
  | .trap x => Sys2Proof.Machine.execTrap x s
  | .tretRetry x => Sys2Proof.Machine.execTretRetry x s
  | .tretNext x => Sys2Proof.Machine.execTretNext x s
  | .brk x => Sys2Proof.Machine.execBrk x s
  | .spawn sc x => Sys2Proof.Machine.execSpawn sc x s
  | .exit x => Sys2Proof.Machine.execExit x s
  | .park x => Sys2Proof.Machine.execPark x s
  | .wake x => Sys2Proof.Machine.execWake x s
  | .yield x => Sys2Proof.Machine.execYield x s
  | .hop x => Sys2Proof.Machine.execHop x s
  | .cbar x => Sys2Proof.Machine.execCbar x s
  | .gbar x => Sys2Proof.Machine.execGbar x s
  | .ibx x => Sys2Proof.Machine.execIbx x s
  | .ibs x => Sys2Proof.Machine.execIbs x s
  | .ntc x => Sys2Proof.Machine.execNtc x s
  | .fork x => Sys2Proof.Machine.execFork x s
  | .rdv x => Sys2Proof.Machine.execRdv x s
  | .cpinOn x => Sys2Proof.Machine.execCpinOn x s
  | .cpinOff x => Sys2Proof.Machine.execCpinOff x s
  | .drq x => Sys2Proof.Machine.execDrq x s
  | .jdr n x => Sys2Proof.Machine.execJdr n x s
  | .add t x => Sys2Proof.Machine.execAdd t x s
  | .sub t x => Sys2Proof.Machine.execSub t x s
  | .mul t x => Sys2Proof.Machine.execMul t x s
  | .mulh t x => Sys2Proof.Machine.execMulh t x s
  | .div t x => Sys2Proof.Machine.execDiv t x s
  | .rem t x => Sys2Proof.Machine.execRem t x s
  | .and t x => Sys2Proof.Machine.execAnd t x s
  | .or t x => Sys2Proof.Machine.execOr t x s
  | .xor t x => Sys2Proof.Machine.execXor t x s
  | .andn t x => Sys2Proof.Machine.execAndn t x s
  | .min t x => Sys2Proof.Machine.execMin t x s
  | .max t x => Sys2Proof.Machine.execMax t x s
  | .shl t x => Sys2Proof.Machine.execShl t x s
  | .shr t x => Sys2Proof.Machine.execShr t x s
  | .sar t x => Sys2Proof.Machine.execSar t x s
  | .rot t x => Sys2Proof.Machine.execRot t x s
  | .clz t x => Sys2Proof.Machine.execClz t x s
  | .ctz t x => Sys2Proof.Machine.execCtz t x s
  | .popc t x => Sys2Proof.Machine.execPopc t x s
  | .bswap t x => Sys2Proof.Machine.execBswap t x s
  | .bext t x => Sys2Proof.Machine.execBext t x s
  | .bins t x => Sys2Proof.Machine.execBins t x s
  | .cvi t x => Sys2Proof.Machine.execCvi t x s
  | .mov t x => Sys2Proof.Machine.execMov t x s
  | .movl x => Sys2Proof.Machine.execMovl x s
  | .mvs x => Sys2Proof.Machine.execMvs x s
  | .msv x => Sys2Proof.Machine.execMsv x s
  | .leaAdd x => Sys2Proof.Machine.execLeaAdd x s
  | .leaOff x => Sys2Proof.Machine.execLeaOff x s
  | .leaGva x => Sys2Proof.Machine.execLeaGva x s
  | .leaSeg n x => Sys2Proof.Machine.execLeaSeg n x s
  | .mad t x => Sys2Proof.Machine.execMad t x s
  | .fadd t x => Sys2Proof.Machine.execFadd t x s
  | .fsub t x => Sys2Proof.Machine.execFsub t x s
  | .fmul t x => Sys2Proof.Machine.execFmul t x s
  | .fma t x => Sys2Proof.Machine.execFma t x s
  | .fdiv t x => Sys2Proof.Machine.execFdiv t x s
  | .fsqrt t x => Sys2Proof.Machine.execFsqrt t x s
  | .fmin t x => Sys2Proof.Machine.execFmin t x s
  | .fmax t x => Sys2Proof.Machine.execFmax t x s
  | .fcvt t x => Sys2Proof.Machine.execFcvt t x s
  | .fcvti t x => Sys2Proof.Machine.execFcvti t x s
  | .icvtf t x => Sys2Proof.Machine.execIcvtf t x s
  | .frnd t x => Sys2Proof.Machine.execFrnd t x s
  | .fcls t x => Sys2Proof.Machine.execFcls t x s
  | .ld t x => Sys2Proof.Machine.execLd t x s
  | .st t x => Sys2Proof.Machine.execSt t x s
  | .ldc x => Sys2Proof.Machine.execLdc x s
  | .stp x => Sys2Proof.Machine.execStp x s
  | .lfe x => Sys2Proof.Machine.execLfe x s
  | .sfeEmpty x => Sys2Proof.Machine.execSfeEmpty x s
  | .sfeFull x => Sys2Proof.Machine.execSfeFull x s
  | .ldm n x => Sys2Proof.Machine.execLdm n x s
  | .stm n x => Sys2Proof.Machine.execStm n x s
  | .pfch x => Sys2Proof.Machine.execPfch x s
  | .sgp x => Sys2Proof.Machine.execSgp x s
  | .pgq x => Sys2Proof.Machine.execPgq x s
  | .dsc x => Sys2Proof.Machine.execDsc x s
  | .amoAdd x => Sys2Proof.Machine.execAmoAdd x s
  | .amoAnd x => Sys2Proof.Machine.execAmoAnd x s
  | .amoOr x => Sys2Proof.Machine.execAmoOr x s
  | .amoXor x => Sys2Proof.Machine.execAmoXor x s
  | .amoMin x => Sys2Proof.Machine.execAmoMin x s
  | .amoMax x => Sys2Proof.Machine.execAmoMax x s
  | .amoNmin x => Sys2Proof.Machine.execAmoNmin x s
  | .amoNmax x => Sys2Proof.Machine.execAmoNmax x s
  | .amoSwap x => Sys2Proof.Machine.execAmoSwap x s
  | .amoFadd32 x => Sys2Proof.Machine.execAmoFadd32 x s
  | .amoFmax32 x => Sys2Proof.Machine.execAmoFmax32 x s
  | .amoFadd64 x => Sys2Proof.Machine.execAmoFadd64 x s
  | .cas f x => Sys2Proof.Machine.execCas f x s
  | .lda sc x => Sys2Proof.Machine.execLda sc x s
  | .stl sc x => Sys2Proof.Machine.execStl sc x s
  | .fence sc x => Sys2Proof.Machine.execFence sc x s
  | .wtwNe x => Sys2Proof.Machine.execWtwNe x s
  | .wtwGe x => Sys2Proof.Machine.execWtwGe x s
  | .sopn x => Sys2Proof.Machine.execSopn x s
  | .scls x => Sys2Proof.Machine.execScls x s
  | .sput n x => Sys2Proof.Machine.execSput n x s
  | .drn x => Sys2Proof.Machine.execDrn x s
  | .pprbTab x => Sys2Proof.Machine.execPprbTab x s
  | .pprbPing x => Sys2Proof.Machine.execPprbPing x s
  | .vadd t x => Sys2Proof.Machine.execVadd t x s
  | .vsub t x => Sys2Proof.Machine.execVsub t x s
  | .vmul t x => Sys2Proof.Machine.execVmul t x s
  | .vfma t x => Sys2Proof.Machine.execVfma t x s
  | .vmin t x => Sys2Proof.Machine.execVmin t x s
  | .vmax t x => Sys2Proof.Machine.execVmax t x s
  | .vexp t x => Sys2Proof.Machine.execVexp t x s
  | .vlog t x => Sys2Proof.Machine.execVlog t x s
  | .vrcp t x => Sys2Proof.Machine.execVrcp t x s
  | .vrsq t x => Sys2Proof.Machine.execVrsq t x s
  | .vsqrt t x => Sys2Proof.Machine.execVsqrt t x s
  | .vcvt t x => Sys2Proof.Machine.execVcvt t x s
  | .vsum t x => Sys2Proof.Machine.execVsum t x s
  | .vrmax t x => Sys2Proof.Machine.execVrmax t x s
  | .vdot t x => Sys2Proof.Machine.execVdot t x s
  | .vscan t x => Sys2Proof.Machine.execVscan t x s
  | .vgat t x => Sys2Proof.Machine.execVgat t x s
  | .vsct t x => Sys2Proof.Machine.execVsct t x s
  | .vsel t x => Sys2Proof.Machine.execVsel t x s
  | .vcmp t x => Sys2Proof.Machine.execVcmp t x s
  | .vfill t x => Sys2Proof.Machine.execVfill t x s
  | .vand t x => Sys2Proof.Machine.execVand t x s
  | .vor t x => Sys2Proof.Machine.execVor t x s
  | .vxor t x => Sys2Proof.Machine.execVxor t x s
  | .vshl t x => Sys2Proof.Machine.execVshl t x s
  | .vshr t x => Sys2Proof.Machine.execVshr t x s
  | .vsmx t x => Sys2Proof.Machine.execVsmx t x s
  | .vlnm t x => Sys2Proof.Machine.execVlnm t x s
  | .gpk t x => Sys2Proof.Machine.execGpk t x s
  | .gupk t x => Sys2Proof.Machine.execGupk t x s
  | .grq x => Sys2Proof.Machine.execGrq x s
  | .gamx x => Sys2Proof.Machine.execGamx x s
  | .ghdr x => Sys2Proof.Machine.execGhdr x s
  | .gsetBe x => Sys2Proof.Machine.execGsetBe x s
  | .gsetZero x => Sys2Proof.Machine.execGsetZero x s
  | .gsetNan x => Sys2Proof.Machine.execGsetNan x s
  | .gchk x => Sys2Proof.Machine.execGchk x s
  | .gcvt t x => Sys2Proof.Machine.execGcvt t x s
  | .lse x => Sys2Proof.Machine.execLse x s
  | .lsr x => Sys2Proof.Machine.execLsr x s
  | .mz x => Sys2Proof.Machine.execMz x s
  | .mmac t x => Sys2Proof.Machine.execMmac t x s
  | .mld x => Sys2Proof.Machine.execMld x s
  | .mst t x => Sys2Proof.Machine.execMst t x s
  | .cpy x => Sys2Proof.Machine.execCpy x s
  | .cpl x => Sys2Proof.Machine.execCpl x s
  | .rcfAll x => Sys2Proof.Machine.execRcfAll x s
  | .rcfOne x => Sys2Proof.Machine.execRcfOne x s
  | .cpstH x => Sys2Proof.Machine.execCpstH x s
  | .cpstN x => Sys2Proof.Machine.execCpstN x s
  | .cpxH x => Sys2Proof.Machine.execCpxH x s
  | .cpxAll x => Sys2Proof.Machine.execCpxAll x s
  | .cpfFull x => Sys2Proof.Machine.execCpfFull x s
  | .cpfEmpty x => Sys2Proof.Machine.execCpfEmpty x s
  | .cpfMke x => Sys2Proof.Machine.execCpfMke x s
  | .cpfMkf x => Sys2Proof.Machine.execCpfMkf x s
  | .bregNew x => Sys2Proof.Machine.execBregNew x s
  | .bregJoin x => Sys2Proof.Machine.execBregJoin x s
  | .bdrg x => Sys2Proof.Machine.execBdrg x s
  | .badd x => Sys2Proof.Machine.execBadd x s
  | .brd t x => Sys2Proof.Machine.execBrd t x s
  | .bqryRd x => Sys2Proof.Machine.execBqryRd x s
  | .bqryClr x => Sys2Proof.Machine.execBqryClr x s
  | .bgrpAdd x => Sys2Proof.Machine.execBgrpAdd x s
  | .bgrpRm x => Sys2Proof.Machine.execBgrpRm x s
  | .bgrpDrop x => Sys2Proof.Machine.execBgrpDrop x s
  | .bholdOn x => Sys2Proof.Machine.execBholdOn x s
  | .bholdOff x => Sys2Proof.Machine.execBholdOff x s
  | .bstep x => Sys2Proof.Machine.execBstep x s
  | .sret x => Sys2Proof.Machine.execSret x s
  | .tlbi sc x => Sys2Proof.Machine.execTlbi sc x s
  | .tlbw sc x => Sys2Proof.Machine.execTlbw sc x s
  | .cmapMap x => Sys2Proof.Machine.execCmapMap x s
  | .cmapDead x => Sys2Proof.Machine.execCmapDead x s
  | .cmapRd x => Sys2Proof.Machine.execCmapRd x s
  | .wkxPage x => Sys2Proof.Machine.execWkxPage x s
  | .wkxThr x => Sys2Proof.Machine.execWkxThr x s
  | .wkxEnd x => Sys2Proof.Machine.execWkxEnd x s
  | .cxf x => Sys2Proof.Machine.execCxf x s
  | .psw x => Sys2Proof.Machine.execPsw x s
  | .srd x => Sys2Proof.Machine.execSrd x s
  | .swr x => Sys2Proof.Machine.execSwr x s
  | .evict x => Sys2Proof.Machine.execEvict x s
  | .prhUnb x => Sys2Proof.Machine.execPrhUnb x s
  | .prhEvc x => Sys2Proof.Machine.execPrhEvc x s
  | .prhHold x => Sys2Proof.Machine.execPrhHold x s
  | .pgdFill x => Sys2Proof.Machine.execPgdFill x s
  | .pgdFail x => Sys2Proof.Machine.execPgdFail x s
  | .haltCore x => Sys2Proof.Machine.execHaltCore x s
  | .haltRun x => Sys2Proof.Machine.execHaltRun x s
  | .haltPart x => Sys2Proof.Machine.execHaltPart x s
  | .haltPrun x => Sys2Proof.Machine.execHaltPrun x s
  | .qmap x => Sys2Proof.Machine.execQmap x s
  | .qunm x => Sys2Proof.Machine.execQunm x s
  | .qsw x => Sys2Proof.Machine.execQsw x s
  | .qlch x => Sys2Proof.Machine.execQlch x s
  | .qdlRd x => Sys2Proof.Machine.execQdlRd x s
  | .qdlAdd x => Sys2Proof.Machine.execQdlAdd x s
  | .qdlStop x => Sys2Proof.Machine.execQdlStop x s
  | .qstSlot x => Sys2Proof.Machine.execQstSlot x s
  | .qstBell x => Sys2Proof.Machine.execQstBell x s
  | .qstClr x => Sys2Proof.Machine.execQstClr x s
  | .qstSkip x => Sys2Proof.Machine.execQstSkip x s
  | .qsigCtr x => Sys2Proof.Machine.execQsigCtr x s
  | .qsigIrq x => Sys2Proof.Machine.execQsigIrq x s
  | .launch die slot => Sys2Proof.Machine.execLaunch die slot s
  | .signal die slot => Sys2Proof.Machine.execSignal die slot s
  | .wait die slot => Sys2Proof.Machine.execWait die slot s
  | .deadline die slot => Sys2Proof.Machine.execDeadline die slot s
  | .mark die slot => Sys2Proof.Machine.execMark die slot s
  | .queueFence die slot => Sys2Proof.Machine.execQueueFence die slot s
  | .queueDispatch die => Sys2Proof.Machine.execQueueDispatch die s
  | .queueUnblock die slot => Sys2Proof.Machine.execQueueUnblock die slot s
  | .deadlineExpire die slot => Sys2Proof.Machine.execDeadlineExpire die slot s
  | .doorbellWrite off size val => Sys2Proof.Machine.execDoorbellWrite off size val s
  | .bar2Write off bytes relaxed => Sys2Proof.Machine.execBar2Write off bytes relaxed s
  | .bar2Read off size tag => Sys2Proof.Machine.execBar2Read off size tag s
  | .mbell val => Sys2Proof.Machine.execMbell val s
  | .hostRegisterWrite off size val => Sys2Proof.Machine.execHostRegisterWrite off size val s
  | .fetchReady core cxa => Sys2Proof.Machine.execFetchReady core cxa s
  | .resultLand k => Sys2Proof.Machine.execResultLand k s
  | .threadBind core => Sys2Proof.Machine.execThreadBind core s
  | .lineFillDone core cxa => Sys2Proof.Machine.execLineFillDone core cxa s
  | .quantumEnd core slot => Sys2Proof.Machine.execQuantumEnd core slot s
  | .groupAdmit cluster => Sys2Proof.Machine.execGroupAdmit cluster s
  | .doneAddRetry k => Sys2Proof.Machine.execDoneAddRetry k s
  | .hopArrive k => Sys2Proof.Machine.execHopArrive k s
  | .wakeReceive k => Sys2Proof.Machine.execWakeReceive k s
  | .inboxEnqueue k => Sys2Proof.Machine.execInboxEnqueue k s
  | .flitArrive k => Sys2Proof.Machine.execFlitArrive k s
  | .homeRequestStart k => Sys2Proof.Machine.execHomeRequestStart k s
  | .missFill core addr outcome => Sys2Proof.Machine.execMissFill core addr outcome s
  | .waiterResend k => Sys2Proof.Machine.execWaiterResend k s
  | .draughtAck k => Sys2Proof.Machine.execDraughtAck k s
  | .ceilRecover core dn => Sys2Proof.Machine.execCeilRecover core dn s
  | .nakReceive k => Sys2Proof.Machine.execNakReceive k s
  | .streamNak core tag => Sys2Proof.Machine.execStreamNak core tag s
  | .flueArrive k => Sys2Proof.Machine.execFlueArrive k s
  | .collectorDeliver band k => Sys2Proof.Machine.execCollectorDeliver band k s
  | .heartbeat die => Sys2Proof.Machine.execHeartbeat die s
  | .wakeArrive k => Sys2Proof.Machine.execWakeArrive k s
  | .linkFlitReceive port bytes => Sys2Proof.Machine.execLinkFlitReceive port bytes s
  | .linkRetryReceive port lack => Sys2Proof.Machine.execLinkRetryReceive port lack s
  | .laneFail port lane => Sys2Proof.Machine.execLaneFail port lane s
  | .linkSilenceDown port => Sys2Proof.Machine.execLinkSilenceDown port s
  | .peerPacketReceive port bytes => Sys2Proof.Machine.execPeerPacketReceive port bytes s
  | .portTimeout k => Sys2Proof.Machine.execPortTimeout k s
  | .remoteWaitTimeout k => Sys2Proof.Machine.execRemoteWaitTimeout k s
  | .streamStrip cluster => Sys2Proof.Machine.execStreamStrip cluster s
  | .grainBlock cluster => Sys2Proof.Machine.execGrainBlock cluster s
  | .streamCompletion cluster => Sys2Proof.Machine.execStreamCompletion cluster s
  | .leaseGrant cluster => Sys2Proof.Machine.execLeaseGrant cluster s
  | .leaseTermExpire cluster => Sys2Proof.Machine.execLeaseTermExpire cluster s
  | .leaseIdleClose cluster => Sys2Proof.Machine.execLeaseIdleClose cluster s
  | .panStart cluster => Sys2Proof.Machine.execPanStart cluster s
  | .panCommit cluster => Sys2Proof.Machine.execPanCommit cluster s
  | .panCompletion cluster => Sys2Proof.Machine.execPanCompletion cluster s
  | .recordFill core cxa => Sys2Proof.Machine.execRecordFill core cxa s
  | .copyStart core => Sys2Proof.Machine.execCopyStart core s
  | .copyElement core slot => Sys2Proof.Machine.execCopyElement core slot s
  | .copyHoldRetry core slot => Sys2Proof.Machine.execCopyHoldRetry core slot s
  | .copyFlag core slot => Sys2Proof.Machine.execCopyFlag core slot s
  | .copyCompletion core slot => Sys2Proof.Machine.execCopyCompletion core slot s
  | .brineSweepStep rid => Sys2Proof.Machine.execBrineSweepStep rid s
  | .brineHalfArrive k => Sys2Proof.Machine.execBrineHalfArrive k s
  | .brineAnswer k => Sys2Proof.Machine.execBrineAnswer k s
  | .brineSlotTimeout cluster slot => Sys2Proof.Machine.execBrineSlotTimeout cluster slot s
  | .brineRecallReceive k => Sys2Proof.Machine.execBrineRecallReceive k s
  | .brineRecallAnswer k => Sys2Proof.Machine.execBrineRecallAnswer k s
  | .brineProposeReceive k => Sys2Proof.Machine.execBrineProposeReceive k s
  | .brineStateReceive k => Sys2Proof.Machine.execBrineStateReceive k s
  | .brineProposeResend rid => Sys2Proof.Machine.execBrineProposeResend rid s
  | .brineHoldRetry cluster => Sys2Proof.Machine.execBrineHoldRetry cluster s
  | .tableBaseWrite index die val => Sys2Proof.Machine.execTableBaseWrite index die val s
  | .mboxRead core => Sys2Proof.Machine.execMboxRead core s
  | .cmpartWrite core val => Sys2Proof.Machine.execCmpartWrite core val s
  | .ibxszWrite core val => Sys2Proof.Machine.execIbxszWrite core val s
  | .rfpwrWrite core val => Sys2Proof.Machine.execRfpwrWrite core val s
  | .klsWrite port val => Sys2Proof.Machine.execKlsWrite port val s
  | .mrxWrite die val => Sys2Proof.Machine.execMrxWrite die val s
  | .attsWrite val => Sys2Proof.Machine.execAttsWrite val s
  | .attestDone => Sys2Proof.Machine.execAttestDone s
  | .deviceReset image => Sys2Proof.Machine.execDeviceReset image s
  | .clusterReady cluster => Sys2Proof.Machine.execClusterReady cluster s
  | .dramTrainDone chan => Sys2Proof.Machine.execDramTrainDone chan s
  | .dramTrainFail chan => Sys2Proof.Machine.execDramTrainFail chan s
  | .thermalFatal die => Sys2Proof.Machine.execThermalFatal die s
  | .clockAdjust die power temp => Sys2Proof.Machine.execClockAdjust die power temp s
  | .unitGate cluster unit => Sys2Proof.Machine.execUnitGate cluster unit s
  | .i3cEntdaa addr => Sys2Proof.Machine.execI3cEntdaa addr s
  | .i3cSetdasa addr => Sys2Proof.Machine.execI3cSetdasa addr s
  | .i3cPrivateRead off len => Sys2Proof.Machine.execI3cPrivateRead off len s
  | .i3cPrivateWrite off bytes => Sys2Proof.Machine.execI3cPrivateWrite off bytes s
  | .writeBack core cxa => Sys2Proof.Machine.execWriteBack core cxa s
  | .skippedTurn core slot => Sys2Proof.Machine.execSkippedTurn core slot s
  | .bankWake core bank => Sys2Proof.Machine.execBankWake core bank s
  | .segmentSetFill core task => Sys2Proof.Machine.execSegmentSetFill core task s
  | .routerCycle x y => Sys2Proof.Machine.execRouterCycle x y s
  | .linkTrain port => Sys2Proof.Machine.execLinkTrain port s
  | .pcieCompletion tag status data => Sys2Proof.Machine.execPcieCompletion tag status data s

end Sys2Proof.Machine
end

