-- ==== Sys2Proof/WellFormed.lean ====
section
/-! DEFINITION. Which terms of `Instr` are words of the machine: the checks of R37 rows 6 to 13, on the typed operands. -/

namespace Sys2Proof

/-- The KIND of an operand (R29). -/
def Opnd.kind : Opnd → Kind
  | .reg .. => .reg | .pred .. => .pred | .spec .. => .spec | .imm .. => .imm | .chan .. => .chan | .lit .. => .lit
  | .absent => .absent

/-- The operand's KIND is permitted (R37 row 10). -/
def FieldSpec.kindOk (f : FieldSpec) (o : Opnd) : Bool := decide (o.kind ∈ f.kinds)

/-- The condition is permitted and the special-register index assigned (R37 row 11). -/
def FieldSpec.valueOk (f : FieldSpec) : Opnd → Bool
  | .pred _ c => decide (c.toNat < f.conds)
  | .spec i => specAssigned i
  | _ => true

/-- The modifiers are permitted (R37 row 12). -/
def FieldSpec.modsOk (f : FieldSpec) : Opnd → Bool
  | .reg _ s n v => (!s || f.sync) && (!n || f.neg) && (!v || f.val) && (v || !f.needVal)
  | _ => true

/-- B and C name one register, both with SYNC (R30). -/
def syncClash : Opnd → Opnd → Bool
  | .reg r true _ _, .reg q true _ _ => r == q
  | _, _ => false

/-- A long literal stands in B only, where it takes the C field (R29). -/
def Opnd.notLit : Opnd → Bool
  | .lit _ => false
  | _ => true

/-- The term is a word: it has operands (it is no step of the machine that no word encodes). -/
def Instr.isWord (i : Instr) : Bool := i.args.isSome

/-- The operands of a word are as its entry permits (R37 rows 8 to 12). -/
def Args.wf (x : Args) (op : Nat) (sh : Shape) : Bool :=
  (opCpOk op || x.h.cp == 0#2)
    && sh.a.kindOk x.a && sh.b.kindOk x.b && sh.c.kindOk x.c
    && x.a.notLit && x.c.notLit && (x.b.notLit || x.c == .absent)
    && sh.a.valueOk x.a && sh.b.valueOk x.b && sh.c.valueOk x.c
    && sh.a.modsOk x.a && sh.b.modsOk x.b && sh.c.modsOk x.c && !syncClash x.b x.c

/-- The instruction is a word of the machine (R23 to R37). -/
def Instr.wf (i : Instr) : Bool :=
  match i.args with
  | some x => i.fnOk && x.wf i.op.toNat i.shape && i.limit.isNone
  | none => false

end Sys2Proof
end

