-- ==== Sys2Proof/Decode.lean ====
section
/-! DEFINITION. The decoder of the 96-bit word, total on any bytes and rejecting by name in the order of R37, and after
it the encoder, written from the same encoding tables. -/

namespace Sys2Proof

/-- Why a word is not an instruction: an ILL with its WHY and FLD of R38, or PRIV (R37 row 5). `short`: fewer than the 12
bytes of a word were given (a fetch gives 12). -/
inductive Reject where
  | ill (why : BitVec 4) (fld : BitVec 2)
  | priv
  | short
  deriving DecidableEq, Repr

/-- TRD.FLD (R38). -/
def Fld.code : Fld → BitVec 2
  | .a => 1#2 | .b => 2#2 | .c => 3#2

/-- The KIND bits of a field (R29). -/
def rawKind (f : Field) : Nat := (f.extractLsb' 21 3).toNat

/-- The reserved bits of a field are clear, and an absent field reads 0xE0_0000 (R29, R37 row 11). -/
def rawClean (f : Field) : Bool :=
  match rawKind f with
  | 0 => f.extractLsb' 4 14 == 0#14
  | 1 => f.extractLsb' 12 9 == 0#9 && f.extractLsb' 3 5 == 0#5
  | 2 => f.extractLsb' 8 13 == 0#13
  | 4 => f.extractLsb' 3 18 == 0#18
  | 7 => f == 0xE00000#24
  | _ => true

/-- The operand a field holds, its reserved bits ignored. -/
def readOpnd (f : Field) : Opnd :=
  match rawKind f with
  | 0 => .reg (f.extractLsb' 0 4) (f.getLsbD 20) (f.getLsbD 19) (f.getLsbD 18)
  | 1 => .pred (f.extractLsb' 0 3) (f.extractLsb' 8 4)
  | 2 => .spec (f.extractLsb' 0 8)
  | 3 => .imm (f.extractLsb' 0 21)
  | 4 => .chan (f.extractLsb' 0 3)
  | _ => .absent

/-- Bits 83:73 of a word (R23). -/
def readHead (w : IWord) : Head :=
  { gn := w.getLsbD 83, gp := w.extractLsb' 80 3, stall := w.extractLsb' 76 4, cp := w.extractLsb' 74 2,
    yl := w.getLsbD 73 }

/-- The operand fields of a word; KIND 110 in B takes C with it (R29). -/
def readArgs (w : IWord) : Args :=
  let fb : Field := w.extractLsb' 24 24
  let fc : Field := w.extractLsb' 0 24
  if rawKind fb = 6 then
    { h := readHead w, a := readOpnd (w.extractLsb' 48 24), b := .lit (fb.extractLsb' 0 21 ++ fc), c := .absent }
  else { h := readHead w, a := readOpnd (w.extractLsb' 48 24), b := readOpnd fb, c := readOpnd fc }

/-- The instruction OP and FN name (R36 and the entries). -/
def Instr.build (op fn : Nat) (x : Args) : Option Instr :=
  match op with
  | 0x01 =>
    match fn with
    | 0 => some (.nop x)
    | _ => none
  | 0x02 =>
    match fn with
    | 0 => some (.br x)
    | _ => none
  | 0x03 =>
    match fn with
    | 0 => some (.jmp x)
    | _ => none
  | 0x04 =>
    match fn with
    | 0 => some (.call x)
    | _ => none
  | 0x05 =>
    match fn with
    | 0 => some (.callr x)
    | _ => none
  | 0x06 =>
    match fn with
    | 0 => some (.loop x)
    | _ => none
  | 0x07 =>
    match Ty.ofCode fn with | some t => some (.cmp t x) | none => none
  | 0x08 =>
    match fn with
    | 0 => some (.plogAnd x)
    | 1 => some (.plogOr x)
    | 2 => some (.plogXor x)
    | 3 => some (.plogAndn x)
    | 4 => some (.plogOrn x)
    | 5 => some (.plogXnor x)
    | 6 => some (.plogMov x)
    | 7 => some (.plogNot x)
    | _ => none
  | 0x09 =>
    match fn with
    | 0 => some (.trap x)
    | _ => none
  | 0x0A =>
    match fn with
    | 0 => some (.tretRetry x)
    | 1 => some (.tretNext x)
    | _ => none
  | 0x0B =>
    match fn with
    | 0 => some (.brk x)
    | _ => none
  | 0x10 =>
    match Placement.ofCode fn with | some k => some (.spawn k x) | none => none
  | 0x11 =>
    match fn with
    | 0 => some (.exit x)
    | _ => none
  | 0x12 =>
    match fn with
    | 0 => some (.park x)
    | _ => none
  | 0x13 =>
    match fn with
    | 0 => some (.wake x)
    | _ => none
  | 0x14 =>
    match fn with
    | 0 => some (.yield x)
    | _ => none
  | 0x15 =>
    match fn with
    | 0 => some (.hop x)
    | _ => none
  | 0x16 =>
    match fn with
    | 0 => some (.cbar x)
    | _ => none
  | 0x17 =>
    match fn with
    | 0 => some (.gbar x)
    | _ => none
  | 0x18 =>
    match fn with
    | 0 => some (.ibx x)
    | _ => none
  | 0x19 =>
    match fn with
    | 0 => some (.ibs x)
    | _ => none
  | 0x1A =>
    match fn with
    | 0 => some (.fork x)
    | _ => none
  | 0x1B =>
    match fn with
    | 0 => some (.rdv x)
    | _ => none
  | 0x1C =>
    match fn with
    | 1 => some (.cpinOn x)
    | 0 => some (.cpinOff x)
    | _ => none
  | 0x1D =>
    match fn with
    | 0 => some (.drq x)
    | _ => none
  | 0x1E =>
    some (.jdr (BitVec.ofNat 4 fn) x)
  | 0x1F =>
    match fn with
    | 0 => some (.ntc x)
    | _ => none
  | 0x20 =>
    match Ty.ofCode fn with | some t => some (.add t x) | none => none
  | 0x21 =>
    match Ty.ofCode fn with | some t => some (.sub t x) | none => none
  | 0x22 =>
    match Ty.ofCode fn with | some t => some (.mul t x) | none => none
  | 0x23 =>
    match Ty.ofCode fn with | some t => some (.mulh t x) | none => none
  | 0x24 =>
    match Ty.ofCode fn with | some t => some (.div t x) | none => none
  | 0x25 =>
    match Ty.ofCode fn with | some t => some (.rem t x) | none => none
  | 0x26 =>
    match Ty.ofCode fn with | some t => some (.and t x) | none => none
  | 0x27 =>
    match Ty.ofCode fn with | some t => some (.or t x) | none => none
  | 0x28 =>
    match Ty.ofCode fn with | some t => some (.xor t x) | none => none
  | 0x29 =>
    match Ty.ofCode fn with | some t => some (.andn t x) | none => none
  | 0x2A =>
    match Ty.ofCode fn with | some t => some (.shl t x) | none => none
  | 0x2B =>
    match Ty.ofCode fn with | some t => some (.shr t x) | none => none
  | 0x2C =>
    match Ty.ofCode fn with | some t => some (.sar t x) | none => none
  | 0x2D =>
    match Ty.ofCode fn with | some t => some (.rot t x) | none => none
  | 0x2E =>
    match Ty.ofCode fn with | some t => some (.min t x) | none => none
  | 0x2F =>
    match Ty.ofCode fn with | some t => some (.max t x) | none => none
  | 0x30 =>
    match Ty.ofCode fn with | some t => some (.clz t x) | none => none
  | 0x31 =>
    match Ty.ofCode fn with | some t => some (.ctz t x) | none => none
  | 0x32 =>
    match Ty.ofCode fn with | some t => some (.popc t x) | none => none
  | 0x33 =>
    match Ty.ofCode fn with | some t => some (.bext t x) | none => none
  | 0x34 =>
    match Ty.ofCode fn with | some t => some (.bins t x) | none => none
  | 0x35 =>
    match Ty.ofCode fn with | some t => some (.cvi t x) | none => none
  | 0x36 =>
    match Ty.ofCode fn with | some t => some (.mov t x) | none => none
  | 0x37 =>
    match fn with
    | 0 => some (.movl x)
    | _ => none
  | 0x38 =>
    match fn with
    | 0 => some (.mvs x)
    | _ => none
  | 0x39 =>
    match fn with
    | 0 => some (.msv x)
    | _ => none
  | 0x3A =>
    match fn with
    | 0 => some (.leaAdd x)
    | 1 => some (.leaOff x)
    | 2 => some (.leaGva x)
    | n => if 8 ≤ n then some (.leaSeg (BitVec.ofNat 3 n) x) else none
  | 0x3B =>
    match Ty.ofCode fn with | some t => some (.mad t x) | none => none
  | 0x3C =>
    match Ty.ofCode fn with | some t => some (.bswap t x) | none => none
  | 0x40 =>
    match Ty.ofCode fn with | some t => some (.fadd t x) | none => none
  | 0x41 =>
    match Ty.ofCode fn with | some t => some (.fsub t x) | none => none
  | 0x42 =>
    match Ty.ofCode fn with | some t => some (.fmul t x) | none => none
  | 0x43 =>
    match Ty.ofCode fn with | some t => some (.fma t x) | none => none
  | 0x44 =>
    match Ty.ofCode fn with | some t => some (.fdiv t x) | none => none
  | 0x45 =>
    match Ty.ofCode fn with | some t => some (.fsqrt t x) | none => none
  | 0x46 =>
    match Ty.ofCode fn with | some t => some (.fmin t x) | none => none
  | 0x47 =>
    match Ty.ofCode fn with | some t => some (.fmax t x) | none => none
  | 0x48 =>
    match Ty.ofCode fn with | some t => some (.fcvt t x) | none => none
  | 0x49 =>
    match Ty.ofCode fn with | some t => some (.fcvti t x) | none => none
  | 0x4A =>
    match Ty.ofCode fn with | some t => some (.icvtf t x) | none => none
  | 0x4B =>
    match Ty.ofCode fn with | some t => some (.frnd t x) | none => none
  | 0x4C =>
    match Ty.ofCode fn with | some t => some (.fcls t x) | none => none
  | 0x50 =>
    match Ty.ofCode fn with | some t => some (.ld t x) | none => none
  | 0x51 =>
    match Ty.ofCode fn with | some t => some (.st t x) | none => none
  | 0x52 =>
    match fn with
    | 0 => some (.ldc x)
    | _ => none
  | 0x53 =>
    match fn with
    | 0 => some (.stp x)
    | _ => none
  | 0x54 =>
    match fn with
    | 0 => some (.lfe x)
    | _ => none
  | 0x55 =>
    match fn with
    | 0 => some (.sfeEmpty x)
    | 1 => some (.sfeFull x)
    | _ => none
  | 0x56 =>
    some (.ldm (BitVec.ofNat 4 fn) x)
  | 0x57 =>
    some (.stm (BitVec.ofNat 4 fn) x)
  | 0x58 =>
    match fn with
    | 0 => some (.pfch x)
    | _ => none
  | 0x59 =>
    match fn with
    | 0 => some (.sgp x)
    | _ => none
  | 0x5A =>
    match fn with
    | 0 => some (.pgq x)
    | _ => none
  | 0x5B =>
    match fn with
    | 0 => some (.dsc x)
    | _ => none
  | 0x60 =>
    match fn with
    | 0 => some (.amoAdd x)
    | 1 => some (.amoAnd x)
    | 2 => some (.amoOr x)
    | 3 => some (.amoXor x)
    | 4 => some (.amoMin x)
    | 5 => some (.amoMax x)
    | 6 => some (.amoNmin x)
    | 7 => some (.amoNmax x)
    | 8 => some (.amoSwap x)
    | 9 => some (.amoFadd32 x)
    | 10 => some (.amoFmax32 x)
    | 11 => some (.amoFadd64 x)
    | _ => none
  | 0x61 =>
    match CasFn.ofCode fn with | some k => some (.cas k x) | none => none
  | 0x62 =>
    match Scope.ofCode fn with | some k => some (.lda k x) | none => none
  | 0x63 =>
    match Scope.ofCode fn with | some k => some (.stl k x) | none => none
  | 0x64 =>
    match Scope.ofCode fn with | some k => some (.fence k x) | none => none
  | 0x65 =>
    match fn with
    | 0 => some (.wtwNe x)
    | 1 => some (.wtwGe x)
    | _ => none
  | 0x70 =>
    match fn with
    | 0 => some (.sopn x)
    | _ => none
  | 0x71 =>
    match fn with
    | 0 => some (.scls x)
    | _ => none
  | 0x72 =>
    some (.sput (BitVec.ofNat 4 fn) x)
  | 0x73 =>
    match fn with
    | 0 => some (.drn x)
    | _ => none
  | 0x74 =>
    match fn with
    | 0 => some (.pprbTab x)
    | 1 => some (.pprbPing x)
    | _ => none
  | 0x80 =>
    match Ty.ofCode fn with | some t => some (.vadd t x) | none => none
  | 0x81 =>
    match Ty.ofCode fn with | some t => some (.vsub t x) | none => none
  | 0x82 =>
    match Ty.ofCode fn with | some t => some (.vmul t x) | none => none
  | 0x83 =>
    match Ty.ofCode fn with | some t => some (.vfma t x) | none => none
  | 0x84 =>
    match Ty.ofCode fn with | some t => some (.vmin t x) | none => none
  | 0x85 =>
    match Ty.ofCode fn with | some t => some (.vmax t x) | none => none
  | 0x86 =>
    match Ty.ofCode fn with | some t => some (.vexp t x) | none => none
  | 0x87 =>
    match Ty.ofCode fn with | some t => some (.vlog t x) | none => none
  | 0x88 =>
    match Ty.ofCode fn with | some t => some (.vrcp t x) | none => none
  | 0x89 =>
    match Ty.ofCode fn with | some t => some (.vrsq t x) | none => none
  | 0x8A =>
    match Ty.ofCode fn with | some t => some (.vsqrt t x) | none => none
  | 0x8B =>
    match Ty.ofCode fn with | some t => some (.vcvt t x) | none => none
  | 0x8C =>
    match Ty.ofCode fn with | some t => some (.vsum t x) | none => none
  | 0x8D =>
    match Ty.ofCode fn with | some t => some (.vrmax t x) | none => none
  | 0x8E =>
    match Ty.ofCode fn with | some t => some (.vdot t x) | none => none
  | 0x8F =>
    match Ty.ofCode fn with | some t => some (.vscan t x) | none => none
  | 0x90 =>
    match Ty.ofCode fn with | some t => some (.vgat t x) | none => none
  | 0x91 =>
    match Ty.ofCode fn with | some t => some (.vsct t x) | none => none
  | 0x92 =>
    match Ty.ofCode fn with | some t => some (.vsel t x) | none => none
  | 0x93 =>
    match Ty.ofCode fn with | some t => some (.vcmp t x) | none => none
  | 0x94 =>
    match Ty.ofCode fn with | some t => some (.vfill t x) | none => none
  | 0x95 =>
    match Ty.ofCode fn with | some t => some (.vand t x) | none => none
  | 0x96 =>
    match Ty.ofCode fn with | some t => some (.vor t x) | none => none
  | 0x97 =>
    match Ty.ofCode fn with | some t => some (.vxor t x) | none => none
  | 0x98 =>
    match Ty.ofCode fn with | some t => some (.vshl t x) | none => none
  | 0x99 =>
    match Ty.ofCode fn with | some t => some (.vshr t x) | none => none
  | 0x9A =>
    match Ty.ofCode fn with | some t => some (.vsmx t x) | none => none
  | 0x9B =>
    match Ty.ofCode fn with | some t => some (.vlnm t x) | none => none
  | 0xA0 =>
    match Ty.ofCode fn with | some t => some (.gpk t x) | none => none
  | 0xA1 =>
    match Ty.ofCode fn with | some t => some (.gupk t x) | none => none
  | 0xA2 =>
    match fn with
    | 0 => some (.grq x)
    | _ => none
  | 0xA3 =>
    match fn with
    | 0 => some (.gamx x)
    | _ => none
  | 0xA4 =>
    match fn with
    | 0 => some (.ghdr x)
    | _ => none
  | 0xA5 =>
    match fn with
    | 0 => some (.gsetBe x)
    | 1 => some (.gsetZero x)
    | 2 => some (.gsetNan x)
    | _ => none
  | 0xA6 =>
    match fn with
    | 0 => some (.gchk x)
    | _ => none
  | 0xA7 =>
    match Ty.ofCode fn with | some t => some (.gcvt t x) | none => none
  | 0xB0 =>
    match fn with
    | 0 => some (.lse x)
    | _ => none
  | 0xB1 =>
    match fn with
    | 0 => some (.lsr x)
    | _ => none
  | 0xB2 =>
    match fn with
    | 0 => some (.mz x)
    | _ => none
  | 0xB3 =>
    match Ty.ofCode fn with | some t => some (.mmac t x) | none => none
  | 0xB4 =>
    match fn with
    | 0 => some (.mld x)
    | _ => none
  | 0xB5 =>
    match Ty.ofCode fn with | some t => some (.mst t x) | none => none
  | 0xC0 =>
    match fn with
    | 0 => some (.cpy x)
    | _ => none
  | 0xC1 =>
    match fn with
    | 0 => some (.cpl x)
    | _ => none
  | 0xC2 =>
    match fn with
    | 0 => some (.rcfAll x)
    | 1 => some (.rcfOne x)
    | _ => none
  | 0xC3 =>
    match fn with
    | 0 => some (.cpstH x)
    | 1 => some (.cpstN x)
    | _ => none
  | 0xC4 =>
    match fn with
    | 0 => some (.cpxH x)
    | 1 => some (.cpxAll x)
    | _ => none
  | 0xC5 =>
    match fn with
    | 0 => some (.cpfFull x)
    | 1 => some (.cpfEmpty x)
    | 2 => some (.cpfMke x)
    | 3 => some (.cpfMkf x)
    | _ => none
  | 0xC8 =>
    match fn with
    | 0 => some (.bregNew x)
    | 1 => some (.bregJoin x)
    | _ => none
  | 0xC9 =>
    match fn with
    | 0 => some (.bdrg x)
    | _ => none
  | 0xCA =>
    match fn with
    | 0 => some (.badd x)
    | _ => none
  | 0xCB =>
    match Ty.ofCode fn with | some t => some (.brd t x) | none => none
  | 0xCC =>
    match fn with
    | 0 => some (.bqryRd x)
    | 1 => some (.bqryClr x)
    | _ => none
  | 0xCD =>
    match fn with
    | 0 => some (.bgrpAdd x)
    | 1 => some (.bgrpRm x)
    | 2 => some (.bgrpDrop x)
    | _ => none
  | 0xCE =>
    match fn with
    | 0 => some (.bholdOn x)
    | 1 => some (.bholdOff x)
    | _ => none
  | 0xCF =>
    match fn with
    | 0 => some (.bstep x)
    | _ => none
  | 0xE0 =>
    match fn with
    | 0 => some (.sret x)
    | _ => none
  | 0xE1 =>
    match TlbScope.ofCode fn with | some k => some (.tlbi k x) | none => none
  | 0xE2 =>
    match TlbScope.ofCode fn with | some k => some (.tlbw k x) | none => none
  | 0xE3 =>
    match fn with
    | 0 => some (.cmapMap x)
    | 1 => some (.cmapDead x)
    | 2 => some (.cmapRd x)
    | _ => none
  | 0xE4 =>
    match fn with
    | 0 => some (.wkxPage x)
    | 1 => some (.wkxThr x)
    | 2 => some (.wkxEnd x)
    | _ => none
  | 0xE5 =>
    match fn with
    | 0 => some (.cxf x)
    | _ => none
  | 0xE6 =>
    match fn with
    | 0 => some (.psw x)
    | _ => none
  | 0xE7 =>
    match fn with
    | 0 => some (.srd x)
    | _ => none
  | 0xE8 =>
    match fn with
    | 0 => some (.swr x)
    | _ => none
  | 0xE9 =>
    match fn with
    | 0 => some (.evict x)
    | _ => none
  | 0xEA =>
    match fn with
    | 0 => some (.prhUnb x)
    | 1 => some (.prhEvc x)
    | 2 => some (.prhHold x)
    | _ => none
  | 0xEB =>
    match fn with
    | 0 => some (.pgdFill x)
    | 1 => some (.pgdFail x)
    | _ => none
  | 0xEC =>
    match fn with
    | 0 => some (.haltCore x)
    | 1 => some (.haltRun x)
    | 2 => some (.haltPart x)
    | 3 => some (.haltPrun x)
    | _ => none
  | 0xF0 =>
    match fn with
    | 0 => some (.qmap x)
    | _ => none
  | 0xF1 =>
    match fn with
    | 0 => some (.qunm x)
    | _ => none
  | 0xF2 =>
    match fn with
    | 0 => some (.qsw x)
    | _ => none
  | 0xF3 =>
    match fn with
    | 0 => some (.qlch x)
    | _ => none
  | 0xF4 =>
    match fn with
    | 0 => some (.qdlRd x)
    | 1 => some (.qdlAdd x)
    | 2 => some (.qdlStop x)
    | _ => none
  | 0xF5 =>
    match fn with
    | 0 => some (.qstSlot x)
    | 1 => some (.qstBell x)
    | 2 => some (.qstClr x)
    | 3 => some (.qstSkip x)
    | _ => none
  | 0xF6 =>
    match fn with
    | 0 => some (.qsigCtr x)
    | 1 => some (.qsigIrq x)
    | _ => none
  | _ => none

/-- MOVL alone leaves the KIND of C to row 11 (R108). -/
def Instr.isMovl (i : Instr) : Bool := i.op == 0x37#8

/-- The first field, in the order A, B, C, whose check fails, as TRD.FLD (DESIGN CHOICE, log 65: R38 names no order). -/
def badFld (a b c : Bool) : Option (BitVec 2) := (firstBad a b c).map Fld.code

/-- Rows 9 to 13 of R37 on a word whose instruction `i` has operands `x`. -/
def checkFields (w : IWord) (i : Instr) (x : Args) : Except Reject Instr :=
  let fa : Field := w.extractLsb' 48 24
  let fb : Field := w.extractLsb' 24 24
  let fc : Field := w.extractLsb' 0 24
  let lit := rawKind fb == 6
  let sh := i.shape
  match badFld (rawKind fa != 5 && rawKind fa != 6) (rawKind fb != 5) (lit || (rawKind fc != 5 && rawKind fc != 6)) with
  | some f => .error (.ill 0x6#4 f)
  | none =>
  match badFld (sh.a.kindOk x.a) (sh.b.kindOk x.b) (i.isMovl || sh.c.kindOk x.c) with
  | some f => .error (.ill 0x7#4 f)
  | none =>
  match badFld (rawClean fa && sh.a.valueOk x.a) (rawClean fb && sh.b.valueOk x.b)
      (lit || (rawClean fc && sh.c.kindOk x.c && sh.c.valueOk x.c)) with
  | some f => .error (.ill 0x8#4 f)
  | none =>
  match badFld (sh.a.modsOk x.a) (sh.b.modsOk x.b) (sh.c.modsOk x.c && !syncClash x.b x.c) with
  | some f => .error (.ill 0x9#4 f)
  | none =>
  match i.limit with
  | some f => .error (.ill 0xA#4 f.code)
  | none => .ok i

/-- The instruction a word is at a level, or the first condition of R37 (rows 3 to 13) that applies to it. -/
def decodeAt (levelH : Bool) (w : IWord) : Except Reject Instr :=
  let op := (w.extractLsb' 88 8).toNat
  let fn := (w.extractLsb' 84 4).toNat
  let x := readArgs w
  if w = 0#96 then .error (.ill 0x1#4 0#2)
  else if opAssigned op = false then .error (.ill 0x2#4 0#2)
  else if opHOnly op && !levelH then .error .priv
  else match Instr.build op fn x with
    | none => .error (.ill 0x3#4 0#2)
    | some i =>
      if i.fnOk = false then .error (.ill 0x3#4 0#2)
      else if w.getLsbD 72 then .error (.ill 0x4#4 0#2)
      else if x.h.cp != 0#2 && !opCpOk op then .error (.ill 0x5#4 0#2)
      else checkFields w i x

/-- The instruction a word is, for a thread that may execute every major. -/
def decode (w : IWord) : Except Reject Instr := decodeAt true w

/-- The word 12 bytes hold, the first byte lowest (R23). -/
def wordOfBytes : List Byte → Option IWord
  | [b0, b1, b2, b3, b4, b5, b6, b7, b8, b9, b10, b11] =>
    some (b11 ++ b10 ++ b9 ++ b8 ++ b7 ++ b6 ++ b5 ++ b4 ++ b3 ++ b2 ++ b1 ++ b0)
  | _ => none

/-- The 12 bytes of a word, the lowest first (R23). -/
def bytesOfWord (w : IWord) : List Byte := (List.range 12).map fun k => w.extractLsb' (8 * k) 8

/-- The instruction the first 12 of the bytes hold, with the bytes that follow it. -/
def decodeBytes (levelH : Bool) (bs : List Byte) : Except Reject (Instr × List Byte) :=
  match wordOfBytes (bs.take 12) with
  | some w => match decodeAt levelH w with
    | .ok i => .ok (i, bs.drop 12)
    | .error e => .error e
  | none => .error .short

/-- The instruction the decoder reads from a word numbered as the opcode table numbers it. -/
def decodeTableWord (_nbits w : Nat) : Option Instr :=
  match decodeBytes true (bytesOfWord (BitVec.ofNat 96 w)) with
  | .ok (i, _) => some i
  | .error _ => none

/-- The field an operand is written as (R29). -/
def Opnd.encode : Opnd → Field
  | .reg r s n v => 0#3 ++ BitVec.ofBool s ++ BitVec.ofBool n ++ BitVec.ofBool v ++ 0#14 ++ r
  | .pred p c => 1#3 ++ 0#9 ++ c ++ 0#5 ++ p
  | .spec i => 2#3 ++ 0#13 ++ i
  | .imm v => 3#3 ++ v
  | .chan c => 4#3 ++ 0#18 ++ c
  | .lit v => 6#3 ++ v.extractLsb' 24 21
  | .absent => 0xE00000#24

/-- The low 24 bits a long literal in B puts into the C field; otherwise C's own field (R29). -/
def encodeC (b c : Opnd) : Field :=
  match b with
  | .lit v => v.extractLsb' 0 24
  | _ => c.encode

/-- Bits 95:72 of a word (R23). -/
def encodeTop (op : BitVec 8) (fn : BitVec 4) (h : Head) : BitVec 24 :=
  op ++ fn ++ BitVec.ofBool h.gn ++ h.gp ++ h.stall ++ h.cp ++ BitVec.ofBool h.yl ++ 0#1

/-- The word of an instruction. A step that no word encodes gives the all-zero word, which is no instruction. -/
def encode (i : Instr) : IWord :=
  match i.args with
  | some x => encodeTop i.op i.fn x.h ++ x.a.encode ++ x.b.encode ++ encodeC x.b x.c
  | none => 0#96

end Sys2Proof
end

