-- ==== Sys2Proof/Machine/Fetch.lean ====
section
/-! DEFINITION. Fetching the word at PC (R23, R24, R37 rows 1 and 2), and what a word that is no instruction raises
(R37, R38). -/

namespace Sys2Proof.Machine

/-- How the fetch of one part of a word ends; `far`: its home served it, not the near cache or the core's own scratchpad (R428). -/
inductive FetchPart where
  | got (bs : List Byte) (far : Bool) (s : State)
  | stop (e : Eff)

/-- A part of a word is read at its home as a plain load is: ordered behind the core's earlier packets to that home, charged,
and brought into the near cache where the page is executable and not writable (R24, R148, R167, R196, R400). The packets of its core to
that home that stand before it are performed first, so that it sees the bytes they store (DESIGN CHOICE, log 66). -/
def State.fetchHome (ea : Word) (a home : Nat) (paged : Bool) (leaf : Word) (n : Nat) (s : State) : FetchPart :=
  if s.fetchBusy s.thr.core s.thr.ctx.cxa home a n then .stop (.lend (.fetched home a n))
  else
    let s1 := s.performPrior s.thr.core home
    if s1.chanWaits a then .stop (.lend (.channel (chanOf a)))
    else
      let go (s : State) : FetchPart :=
        match s.readBad a home n with
        | some reason => .stop (.trap tPOI reason ea)
        | none => .got (s.readMem a n) (home != s.thr.core || paged) ((s.noteRead (some true) 0#2 a home paged leaf).ackTo s.thr.core home)
      match chargeDn s.thr.core home with
      | none => go s1
      | some dn =>
        match s1.takeDraught dn with
        | .ok s2 => go s2
        | .error r => .stop (.park r)

/-- The part of a word within one line (R24); a fetch from a discarded page reads zeros and is not counted in DSCRD (DESIGN CHOICE, log
66). -/
def State.fetchPart (s : State) (ea : Word) (g n : Nat) : FetchPart :=
  match s.locate s.me nFetch g n with
  | .fail f => .stop (pageFails f nFetch ea g s)
  | .miss s1 => .stop (walkWait nFetch g s1)
  | .deadPeer _ => .stop (.trap tPOI pDEAD ea)
  | .loc l s =>
    match s.nearBytes true 0#2 l n with
    | some bs => .got bs false s
    | none =>
      match l with
      | .mem a home paged leaf => s.fetchHome ea a home paged leaf n
      | .zeros => .got (List.replicate n 0#8) true s
      | .peer p w o => .stop (.stay ((s.sendPeer false 0#4 ea p w o 0x01 0 n []).awaitReply .fetch ea false 0#16))
      | .host o => .stop (.stay ((s.hostRead o n).awaitReply .fetch ea false 0#16))

/-- The parts of a word, in order; each line is a separate access (R24). -/
def State.fetchParts (ea : Word) : List Nat → Nat → List Byte → Bool → State → FetchPart
  | [], _, acc, far, s => .got acc far s
  | n :: ns, g, acc, far, s =>
    match s.fetchPart ea g n with
    | .got bs f s => State.fetchParts ea ns (g + n) (acc ++ bs) (far || f) s
    | .stop e => .stop e

/-- A word in a peer's window or in the host window comes as one access. -/
def oneAccess (a : Area) : Bool :=
  match a with
  | .peer .. | .host .. => true
  | _ => false

/-- The context line a thread runs from is in a bank that must first come back to ON (R79). -/
def State.bankAsleep (s : State) : Option Nat :=
  match s.thr.place with
  | .line n => if (s.core s.thr.core).bank (n / 16) = 1 then some (n / 16) else none
  | _ => none

/-- Fetches the 12 bytes at PC (R24): its context line's bank wakes first (R79); then misalignment (R37 row 1, MODEL's choice of
its detail: log 51), the segment (row 2), and each part. A word that comes from its home makes the thread wait for it (R428); one
that has come so is at hand. -/
def State.fetch (s : State) : FetchPart :=
  match s.bankAsleep with
  | some b => .stop (.again (s.lend (.bank b)))
  | none =>
    if s.thr.res.fetched.length = 12 then .got s.thr.res.fetched false (s.mapRes fun r => { r with fetched := [] })
    else if s.pc.toNat % 4 ≠ 0 then .stop (.trap tALN 0#8 s.thr.res.setter)
    else match s.cachedSet s.thr.core s.task with
      | none => .stop (.again (s.lend .segset))
      | some ts =>
        let s := s.setCore s.thr.core (CoreSt.touchSet s.task)
        match ts.gva nFetch s.pc 12 with
        | none => .stop (.trap tSEG 0#8 s.pc)
        | some g =>
          match s.area s.levelH nFetch g 12 with
          | .none => .stop (.trap tSEG 0#8 s.pc)
          | a =>
            match State.fetchParts s.pc (if oneAccess a then [12] else lineParts 2 g 12) g [] false s with
            | .got bs true s =>
              .stop (.again ((s.mapRes fun r => { r with fetched := bs }).mapThr (Thread.awaitWord (s.now s.thr.core) 0)))
            | r => r

/-- What a word that is no instruction raises (R37, R38); the guard does not suppress it. -/
def raiseReject (w : IWord) (r : Reject) : Eff :=
  let op : BitVec 8 := w.extractLsb' 88 8
  match r with
  | .ill why fld => .trap tILL 0#8 (illDetail op why.toNat fld.toNat)
  | .priv => .trap tPRIV 0#8 (illDetail op 0 0)
  | .short => .trap tSEG 0#8 0#64

/-- The hint bits of a word that does not issue: none of them acts (R26, R28). -/
def issueless : Head := ⟨false, 0#3, 0#4, 0#2, false⟩

/-! ### A placed instruction (DESIGN CHOICE, log 3) -/

/-- Where a placed instruction stands: in the scratchpad of core 0. -/
def placedPc : Nat := Config.winBase + 0x1000

/-- The segment set of the hearth's task that a placed instruction runs under: segment 0 with every right over the whole
of task 0's physical memory and beyond it the windows. -/
def placedSet : TaskSet :=
  { task := 0#16, segs := [(0x1F00000000000000#64, 0x1000000000000#64 * 0x100#64)], tvec := 0x2000#64 }

/-- The thread that runs a placed instruction: task 0, level H, every register full and 0. -/
def placedThread : Thread :=
  { ctx := { pc := BitVec.ofNat 64 placedPc, st := 3#64, cxa := 0x10000#64, pop := 1#64 }
    core := 0, slot := some 0, place := .line 0, wait := .ready }

end Sys2Proof.Machine
end

