-- ==== Sys2Proof/Machine/Own.lean ====
section
/-! DEFINITION. The machine's own steps when the agenda is empty (DESIGN CHOICE, logs 1 and 2): what is pending, and which of it comes next.
Steps that only the outside world or a fault brings are the agenda's alone. -/

namespace Sys2Proof.Machine

/-- A step of the machine. -/
abbrev Move := State → Host.Outcome State Fault Refusal

/-- A step that is pending when a condition holds. -/
def whenDue (b : Bool) (m : Move) : List Move := if b then [m] else []

/-- One step for each index of a list in flight. -/
def eachOf {α : Type} (l : List α) (m : Nat → Move) : List Move := (List.range l.length).map m

/-- What a thread waits for the machine to do. -/
def State.threadMoves (s : State) (t : Thread) : List Move :=
  match t.wait with
  | .fetch => [execFetchReady t.core t.ctx.cxa]
  | .segset => [execSegmentSetFill t.core (t.ctx.st.extractLsb' 16 16).toNat]
  | .fill => [execLineFillDone t.core t.ctx.cxa]
  | .bank b => [execBankWake t.core b]
  | .mailbox n _ => whenDue ((s.core n).mbox.any fun e => !e.taken) (execMboxRead n)
  | .home => whenDue (t.res.fill.isSome && t.res.reply.isNone) (execRecordFill t.core t.ctx.cxa)
  | .on (.ready k) => [execClusterReady k]
  | .on (.channel ch) => [execDramTrainDone ch]
  | .on (.draught dn) => whenDue ((s.core t.core).draught.any fun e => e.dn == dn && e.out == 0) (execCeilRecover t.core dn)
  | .ready =>
    match t.slot with
    | some k =>
      whenDue (decide (0 < t.skip)) (execSkippedTurn t.core k)
        ++ whenDue (decide (256 ≤ t.turns) && (s.core t.core).runq.any fun e => !e.cf) (execQuantumEnd t.core k)
    | none => []
  | _ => []

/-- What a core's copy engine can do next. -/
def State.copyMoves (s : State) (n : Nat) (c : CopySlot) : List Move :=
  match c.st with
  | .queued => [execCopyStart n]
  | .run => [execCopyElement n c.slot]
  | .flag => whenDue (c.pend == 0 && !c.flagSent) (execCopyFlag n c.slot)
  | .close => whenDue (c.pend == 0) (execCopyCompletion n c.slot)
  | .hold => whenDue (decide (4096 ≤ (s.now n - c.heldAt).toNat)) (execCopyHoldRetry n c.slot)
  | .wait => []

/-- What a core can do next. -/
def State.coreMoves (s : State) (n : Nat) : List Move :=
  whenDue (s.canBind n) (execThreadBind n) ++ ((s.core n).copies.map fun c => s.copyMoves n c).flatten

/-- What the engines of a cluster can do next. -/
def State.clusterMoves (s : State) (k : Nat) : List Move :=
  let cs := s.clusterCores k
  let l := (s.cluster k).lease
  let pan (st : PanState) : Bool := (s.panCores k).any fun n => (s.core n).panQ.any fun q => q.st == st
  (match (s.nextStream k).bind fun n => (s.core n).streamHead with
    | some q => if (vopOf q.ins).isSome then [execStreamStrip k] else [execGrainBlock k]
    | none => [])
    ++ whenDue (cs.any fun n => (s.core n).streamQ.any (·.fin)) (execStreamCompletion k)
    ++ whenDue (cs.any s.requesting) (execLeaseGrant k) ++ whenDue (l.holder.isSome && l.opened) (execLeaseTermExpire k)
    ++ whenDue (l.holder.isSome && cs.any s.requesting) (execLeaseIdleClose k)
    ++ whenDue (pan .queued) (execPanStart k) ++ whenDue (pan .running) (execPanCommit k)
    ++ whenDue (pan .committed) (execPanCompletion k) ++ whenDue (!(s.cluster k).admits.isEmpty) (execGroupAdmit k)
    ++ (List.range (s.cluster k).custody.length).map (execBrineSlotTimeout k)
    ++ whenDue (s.brineQ.any (fun q => q.held.isSome && s.coreCluster q.core == k) || s.regions.any (s.massWaits k)) (execBrineHoldRetry k)

/-- What a queue slot can do next. -/
def State.slotMoves (s : State) (die : Nat) (q : QSlot) : List Move :=
  (match q.st with
    | .run =>
      if !q.started || q.sent then []
      else match q.op with
        | 1 => [execLaunch die q.slot]
        | 2 => [execSignal die q.slot]
        | 3 => [execWait die q.slot]
        | 4 => [execDeadline die q.slot]
        | 5 => [execMark die q.slot]
        | 6 => [execQueueFence die q.slot]
        | _ => []
    | .block => [execQueueUnblock die q.slot]
    | _ => [])
    ++ whenDue (q.dl.any fun u => u.anew || s.deadlineMet u || u.left (s.die die).cyc == 0) (execDeadlineExpire die q.slot)

/-- What a die can do next: its queues and its collectors. -/
def State.dieMoves (s : State) (die : Nat) : List Move :=
  let d := s.die die
  whenDue (d.slots.any fun q => s.canRead q || q.startable) (execQueueDispatch die) ++ whenDue d.beatDue (execHeartbeat die) ++ (d.slots.map (s.slotMoves die)).flatten
    ++ (d.collect.map fun b => whenDue (b.2.any fun e => decide (64 ≤ (d.cyc - e.1).toNat)) (execCollectorDeliver b.1 0)).flatten

/-- A write of a system register that waits to take effect. -/
def State.writeMoves (s : State) (w : SysWrite) : List Move :=
  if w.index ≤ 3 then [execTableBaseWrite w.index (s.coreDie w.core) w.val]
  else if w.index = 0x40 then [execRfpwrWrite w.locus w.val]
  else if w.index = 0x41 then [execCmpartWrite w.locus w.val]
  else if w.index = 0x42 then [execIbxszWrite w.locus w.val]
  else if w.index = 0xE0 then [execMrxWrite (s.coreDie w.locus) w.val]
  else if w.index = 0xE1 then [execAttsWrite w.val]
  else [execKlsWrite (w.index - 0x80) w.val]

/-- Posted requests that can start at their home, and those turned away with STREAM. -/
def State.flightMoves (s : State) : List Move :=
  ((List.range s.flight.length).map fun k =>
    match s.flight[k]? with
    | none => []
    | some r =>
      if r.stage = 3 then [execStreamNak r.src r.tag.toNat]
      else if r.stage = 1 then whenDue (decide (r.inj < r.nFlits)) (execRouterCycle (s.pos r.src).1 (s.pos r.src).2)
      else whenDue (!s.reqBehind k r && !s.reqWaits r) (execHomeRequestStart k)).flatten
    ++ (List.range s.drifts.length).flatMap fun k =>
      match s.drifts[k]? with
      | some d =>
        whenDue (decide (d.stage ≤ 1) && decide (d.inj < d.n)) (execRouterCycle (s.homePos d.src).1 (s.homePos d.src).2)
          ++ whenDue (d.stage == 2) (execHomeRequestStart (s.flight.length + k))
      | none => []

/-- Waiting requests whose time has come. -/
def State.waiterMoves (s : State) : List Move :=
  ((List.range s.waiters.length).map fun k =>
    match s.waiters[k]? with
    | none => []
    | some w =>
      let age := (s.now w.home - w.since).toNat
      whenDue (w.refused && decide (256 ≤ age)) (execWaiterResend k)
        ++ whenDue (w.remote.isSome && w.kind != .aside && decide (2 ^ 19 ≤ age)) (execRemoteWaitTimeout k)).flatten

/-- Requests to other devices whose time is up. -/
def State.portMoves (s : State) : List Move :=
  let l := s.portReqs
  ((List.range l.length).map fun k =>
    match l[k]? with
    | some (p, q) => whenDue (decide (2 ^ 20 ≤ ((s.die (p / 4)).cyc - q.since).toNat)) (execPortTimeout k)
    | none => []).flatten

/-- Everything that is pending. -/
def State.moves (s : State) : List Move :=
  let cores := s.cores.map (·.1)
  let clusters := ((cores.map s.coreCluster) ++ s.clusters.map (·.1)).eraseDups
  (s.threads.map s.threadMoves).flatten ++ (cores.map s.coreMoves).flatten ++ (clusters.map s.clusterMoves).flatten
    ++ ([0, 1, 2, 3].map s.dieMoves).flatten ++ (s.sysWrites.map s.writeMoves).flatten ++ s.flightMoves
    ++ (s.flits.map fun f => if f.out then [] else [execRouterCycle f.atX f.atY]).flatten
    ++ ((List.range s.flits.length).map fun k => whenDue ((s.flits[k]?).any (·.out)) (execFlitArrive k)).flatten
    ++ s.waiterMoves ++ s.portMoves ++ eachOf s.owed execResultLand ++ eachOf s.acks execDraughtAck
    ++ eachOf s.naks execNakReceive ++ eachOf s.hops execHopArrive ++ eachOf s.wakeReqs execWakeReceive
    ++ eachOf s.sysWakes execWakeArrive ++ eachOf s.msgs execInboxEnqueue
    ++ (s.flue.map fun f => if f.out then [] else [execRouterCycle f.atX f.atY]).flatten
    ++ ((List.range s.flue.length).map fun k => whenDue ((s.flue[k]?).any (·.out)) (execFlueArrive k)).flatten
    ++ eachOf s.halves execBrineHalfArrive ++ eachOf s.recalls execBrineRecallReceive
    ++ eachOf s.answers execBrineAnswer
    ++ ((List.range s.answers.length).map fun k =>
      whenDue ((s.answers[k]?).any fun a => a.ans == .applied || a.ans == .void) (execBrineRecallAnswer k)).flatten
    ++ eachOf s.proposals execBrineProposeReceive ++ eachOf s.states execBrineStateReceive
    ++ (s.rounds.map fun r => execBrineProposeResend r.rid)
    ++ (s.regions.map fun r => whenDue (r.committed && r.sper != 0) (execBrineSweepStep r.rid)).flatten
    ++ ((List.range s.pops.length).map fun k => whenDue ((s.pops[k]?).any fun p => p.heldAt.isSome) (execDoneAddRetry k)).flatten
    ++ whenDue s.attBusy execAttestDone

/-- The next of the pending steps, in turn; with none, time passes. -/
def ownStep (s : State) : Host.Outcome State Fault Refusal :=
  let l := s.moves
  match l[s.pick % max 1 l.length]? with
  | some m => m { s with pick := s.pick + 1 }
  | none => .next s

end Sys2Proof.Machine
end

