-- ==== Sys2Proof/Machine/Step.lean ====
section
/-! DEFINITION. One step of the machine, and where its next instruction is fetched from. -/

namespace Sys2Proof.Machine

/-- The thread in the issue stage fetches, decodes and issues the word at PC, at a turn of its own or a lent one (R23, R24, R37,
R49, R82). -/
def runThread (gap : Nat) (s : State) : Host.Outcome State Fault Refusal :=
  match (s.takeTurn gap).fetch with
  | .stop e => .next (Eff.finish issueless (s.takeTurn gap) e)
  | .got bs _ s1 =>
    match wordOfBytes bs with
    | none => .next s1
    | some w =>
      match decodeAt s1.levelH w with
      | .ok i => exec i s1
      | .error r => .next (Eff.finish issueless s1 (raiseReject w r))

/-- The thread in the issue stage issues, else another that can, else the machine takes a step of its own. -/
def runAny (s : State) : Host.Outcome State Fault Refusal :=
  if s.thr.canIssue then runThread 0 s
  else if s.pool.any Thread.canIssue then runThread 0 (s.switchTo Thread.canIssue)
  else ownStep s

/-- A step that the machine takes by itself (DESIGN CHOICE, log 2): seven of eight let threads issue, the fourth another one than before
where one can; the eighth is a step of the machine's own when one is pending. -/
def runDefault (s : State) : Host.Outcome State Fault Refusal :=
  let s1 := { s with beat := (s.beat + 1) % 8 }
  if s.beat = 7 then (if s.moves.isEmpty then runAny s1 else ownStep s1)
  else if s.beat = 3 then runAny (if s.pool.any Thread.canIssue then s1.switchTo Thread.canIssue else s1)
  else runAny s1

/-- A step that the agenda names: a step of the machine that no word encodes, or the issue of a thread that can issue, at its own
turn or at a lent one (R49). -/
def runTurn (t : Turn) (s : State) : Host.Outcome State Fault Refusal :=
  match t.ev with
  | some i => if i.isWord then .next s else exec i s
  | none => if s.thr.canTake t.gap then runThread t.gap s else .next s

/-- The fault that an agenda entry names, if any (R398). -/
def State.meet (g : Option Glitch) (s : State) : State :=
  match g with
  | none => s
  | some g => s.glitch g

/-- One step. -/
def step (s : State) : Host.Outcome State Fault Refusal :=
  match s.agenda with
  | [] => afterStep (runDefault (s.pass fun _ => defaultCycles))
  | t :: ts => afterStep (runTurn t ((((({ s with agenda := ts }).pass t.cycles).launch t.sent).meet t.glitch).select t.sel))

/-- The instruction whose bits are `w` is the next that step fetches: a thread of the hearth's task at level H, bound to
slot 0 of core 0, with its task's first segment over task 0's memory (DESIGN CHOICE, log 3); its code lies in the scratchpad of core 0. -/
def State.withFetchWord (s : State) (_nbits w : Nat) : State :=
  let t := placedThread
  let s1 := { s with agenda := [], beat := 0, thr := t, rdym := List.range 128 }
  (s1.setCore 0 fun c => { c with sets := [placedSet] }).writeMem placedPc (bytesOfWord (BitVec.ofNat 96 w))

end Sys2Proof.Machine
end

