-- ==== Sys2Proof/Safety.lean ====
section
/-! DEFINITION. The terms the statements use: the invariant, when the operands of a word can be read and written (R25, R30,
R52), what an operand's value is (R29, R30), and what it means that an instruction leaves the rest of the machine alone. -/

namespace Sys2Proof.Machine

/-- ST.PRIV is 00 or 11; 01 and 10 do not occur (R53). -/
def levelOk (st : Word) : Bool := bits st.toNat 0 2 == 0 || bits st.toNat 0 2 == 3

/-- The invariant of the machine: memory is in its canonical form. -/
def State.Inv (s : State) : Prop := Memory.wf s.mem = true

/-! ### Readiness -/

/-- No write of the register is outstanding and FE is full (R30, R52). -/
def State.regReady (s : State) (r : BitVec 4) : Bool := (s.fixedOf false r).isNone && s.full r

/-- No write of the predicate is outstanding; p0 has none (R25, R52). -/
def State.predReady (s : State) (p : BitVec 3) : Bool :=
  p == 0#3 || ((s.fixedOf true (p.setWidth 4)).isNone && !s.thr.res.owedPred.getLsbD p.toNat)

/-- The register can be written: no write is outstanding or owed and, with SYNC, it is empty (R30, R52). -/
def State.destFree (s : State) (r : BitVec 4) (sync : Bool) : Bool :=
  (s.fixedOf false r).isNone && !s.thr.ctx.owe.getLsbD r.toNat && !(sync && s.full r)

/-- The guard can be read and enables the word (R25). -/
def State.enabled (s : State) (h : Head) : Bool := s.predReady h.gp && s.p h.gp != h.gn

/-- The guard can be read and disables the word (R25). -/
def State.disabled (s : State) (h : Head) : Bool := s.predReady h.gp && s.p h.gp == h.gn

end Sys2Proof.Machine

namespace Sys2Proof

open Machine

/-- The operand can be read now (R25, R30). -/
def Opnd.ready (o : Opnd) (s : State) : Bool :=
  match o with
  | .reg r _ _ _ => s.regReady r
  | .pred p _ => s.predReady p
  | _ => true

/-- The value of an operand before its modifiers: a register, or an immediate sign-extended to 64 bits (R29, R107). -/
def Opnd.val (o : Opnd) (s : State) : Word :=
  match o with
  | .reg r _ _ _ => s.x r
  | .imm v => v.signExtend 64
  | .lit v => v.signExtend 64
  | .chan c => c.setWidth 64
  | .pred p _ => b2w (s.p p)
  | .spec i => i.setWidth 64
  | .absent => 0#64

/-- The state after an operand is read: SYNC empties the register (R30). -/
def Opnd.after (o : Opnd) (s : State) : State :=
  match o with
  | .reg r true _ _ => s.mapCtx (Ctx.drain r)
  | _ => s

/-- The destination operand can be written now (R30, R52). -/
def Opnd.free (o : Opnd) (s : State) : Bool :=
  match o with
  | .reg r sync _ _ => s.destFree r sync
  | .pred p _ => s.predReady p
  | _ => true

/-- B, then C, can be read (R30). -/
def Args.readyBC (x : Args) (s : State) : Bool := x.b.ready s && x.c.ready (x.b.after s)

/-- The state after B and C are read. -/
def Args.afterBC (x : Args) (s : State) : State := x.c.after (x.b.after s)

/-- A word of two sources and one destination can issue. -/
def Args.go (x : Args) (s : State) : Bool := s.enabled x.h && x.readyBC s && x.a.free (x.afterBC s)

/-- A word of the sources A, B and C, A also the destination, can issue: A is read first. -/
def Args.goABC (x : Args) (s : State) : Bool :=
  s.enabled x.h && x.a.ready s && x.readyBC (x.a.after s)

/-- The state after A, B and C are read. -/
def Args.afterABC (x : Args) (s : State) : State := x.afterBC (x.a.after s)

/-- A word that reads B only and writes A can issue. -/
def Args.goB (x : Args) (s : State) : Bool := s.enabled x.h && x.b.ready s && x.a.free (x.b.after s)

/-- The effective address: X[B] plus X[C] or the displacement (R33). -/
def Args.ea (x : Args) (s : State) : Word := x.b.val s + x.c.val (x.b.after s)

end Sys2Proof

namespace Sys2Proof.Machine

/-! ### What is left alone -/

/-- Every byte of storage reads as before, and so does the full/empty bit and the poison of every word. -/
def MemKept (s u : State) : Prop :=
  (∀ a, Memory.readByte u.mem a = Memory.readByte s.mem a) ∧ (∀ a, u.isFull a = s.isFull a) ∧ u.poison = s.poison

/-- A thread's context once every outstanding fixed-latency result has been written back, its flags with it (R52, R128). -/
def Thread.final (t : Thread) : Ctx := t.ctx.orFlags (flagsOf t.res.fixed)

/-- The thread that issued is left with the context `c`, and with the flags of the results that were outstanding before it, once
all of them have been written back (R128). -/
def Leaves (s u : State) (c : Ctx) : Prop := u.thr.final = c.orFlags (flagsOf s.thr.res.fixed)

/-- Outside the thread that issues nothing changes but the run queue of a core, which YL appends to (R28). -/
def OnlyThread (s u : State) : Prop :=
  u = { s with thr := u.thr, cores := u.cores, serial := u.serial } ∧ (∀ n, u.core n = { s.core n with runq := (u.core n).runq }) ∧ MemKept s u

/-- The thread is still the one that issued: its core, its place, its pin. -/
def SameThread (s u : State) : Prop :=
  u.thr.core = s.thr.core ∧ u.thr.place = s.thr.place ∧ u.thr.pinC = s.thr.pinC

/-- A word completed with the context `c` but for PC, which stands at the next word; nothing else changed. -/
def Completed (s u : State) (c : Ctx) : Prop :=
  Leaves s u { c with pc := s.pc + 12#64 } ∧ SameThread s u ∧ OnlyThread s u

/-- A word completed and transferred to `pc`. -/
def Transferred (s u : State) (c : Ctx) (pc : Word) : Prop :=
  Leaves s u { c with pc := pc } ∧ u.thr.res.setter = s.pc ∧ SameThread s u ∧ OnlyThread s u

/-- A word raised a user trap at level U outside a handler: TRC, TRA, TRD, TRIN and PC (R57); nothing else changed. -/
def Trapped (s u : State) (code sub : BitVec 8) (detail : Word) : Prop :=
  Leaves s u { s.thr.ctx with
    trc := (sub.setWidth 64 <<< 8) ||| code.setWidth 64, tra := s.pc, trd := detail, st := s.st ||| 0x400#64, pc := s.tvec }
    ∧ SameThread s u ∧ u = { s with thr := u.thr, serial := u.serial } ∧ MemKept s u

/-! ### Where an access lands -/

/-- The place of an access of `n` bytes that passes R141 steps 1 to 4 and translation, with the state in which what it
looked up is cached; a request that has waited on draught keeps its translation (R357); none where it traps or waits. -/
def State.reaches (s : State) (nd : Need) (ea : Word) (n align : Nat) : Option (Loc × State) :=
  match s.cachedSet s.thr.core s.task with
  | none => none
  | some ts =>
    if ea.toNat % align ≠ 0 then none
    else match ts.gva nd ea n with
      | none => none
      | some g => match s.heldAt g with
        | some h => some (h.loc, s.useHeld h)
        | none => match s.locate s.me nd g n with
          | .loc l t => some (l, t)
          | _ => none

/-- The same for an access of several words whose bytes lie in one line of 128 bytes and in one region (R161). -/
def State.reachesLine (s : State) (nd : Need) (ea : Word) (n align : Nat) : Option (Loc × State) :=
  match s.cachedSet s.thr.core s.task with
  | none => none
  | some ts =>
    match ts.gva nd ea n with
    | none => none
    | some g => if 0 < n ∧ g % 128 + n ≤ 128 ∧ s.area s.levelH nd g n ≠ .none then s.reaches nd ea n align else none

/-- The packet of an access to a home can be charged (R87, R194): the core itself and the host port take no charge. -/
def State.canCharge (s : State) (home : Nat) : Bool :=
  match chargeDn s.thr.core home with
  | none => true
  | some dn => match s.takeDraught dn with
    | .ok _ => true
    | .error _ => false

/-- `n` packets to a home, one after another, can be charged (R87, R196). -/
def State.canChargeAll (s : State) (home : Nat) : Nat → Bool
  | 0 => true
  | n + 1 => match chargeDn s.thr.core home with
    | none => true
    | some dn => match s.takeDraught dn with
      | .ok t => t.canChargeAll home n
      | .error _ => false

/-- Nothing stands between the thread that issues and the home of an address: no earlier packet of its core to that home
is unperformed or on its way, no earlier `stp` of the thread waits there, the DRAM channel is ready, the home is live, and the core can
charge the packet (R153, R167, R168, R193, R417). -/
def State.homeOpen (s : State) (a home : Nat) : Bool :=
  !(s.flight.any fun r => r.src == s.thr.core && r.home == home) && !s.orderBusy s.thr.core s.thr.ctx.cxa home && !s.chanWaits a && !s.homeDead home && s.canCharge home

/-- No thread, request or deadline unit waits on a word that `n` bytes at an address touch (R152, R387). -/
def State.unwatched (s : State) (a n : Nat) : Bool :=
  !s.anyDeadline && !s.waiters.any fun w => (wordsOf a n).contains (w.addr / 8) && !w.refused

/-- The thread has nothing outstanding that a release waits for, and no recorded fault (R156, R173). -/
def State.settled (s : State) (sc : Scope) (dst : Option Nat) : Bool :=
  s.thr.res.fault.isNone && !s.releaseBusy s.thr.core s.thr.ctx.cxa sc dst true s.grpNow

/-- Outside the thread that issues, nothing changes but caches, draught and the run queue of cores, what translation has cached,
and the answers and acknowledgments on their way. -/
def CachesOnly (s u : State) : Prop :=
  u = { s with
    thr := u.thr, cores := u.cores, masks := u.masks, peers1 := u.peers1, peers2 := u.peers2, owed := u.owed, acks := u.acks
    serial := u.serial } ∧
    (∀ n, u.core n = { s.core n with
      runq := (u.core n).runq, l2 := (u.core n).l2, near := (u.core n).near, draught := (u.core n).draught }) ∧ MemKept s u

/-- The context of a thread that waits for the answer of a blocking access: the registers it writes are empty and owed (R39, R72). -/
def Ctx.awaiting (l : List (BitVec 4)) (c : Ctx) : Ctx :=
  { l.foldl (fun c r => c.drain r) c with rld := true, owe := l.foldl (fun w r => w ||| BitVec.ofNat 16 (2 ^ r.toNat)) c.owe }

/-- The home has performed a blocking access at issue: its answer of the bytes `bs` for the registers `l` is on its way, and the
thread, without a slot, waits for it at its PC (R83, R168). `c`: the context after the sources are read. -/
def Asked (s u : State) (l : List (BitVec 4)) (c : Ctx) (bs : List Byte) : Prop :=
  u.owed = s.owed ++ [⟨s.thr.core, s.thr.ctx.cxa, .reply bs, 0#64, 0#5⟩] ∧ Leaves s u (c.awaiting l) ∧ u.thr.wait = .home ∧
    u.thr.slot = none ∧ SameThread s u

/-- The answer lands (R80): the thread has the context `c`, its PC stands at the next word, and memory is as the access left it. -/
def Answered (s u : State) (c : Ctx) : Prop :=
  ∃ v t, exec (.resultLand s.owed.length) u = .next v ∧ v.findThr s.thr.core s.thr.ctx.cxa = some t ∧
    t.final = ({ c with pc := s.pc + 12#64, rld := false } : Ctx).orFlags (flagsOf s.thr.res.fixed) ∧ t.wait ≠ .home ∧ MemKept u v

/-- The thread that issues has its image in its core: an issuing thread holds a context line (R73), or is the walker. -/
def State.inLine (s : State) : Bool := decide (s.thr.place ≠ .record)

/-- A word that read memory completed with the context `c` but for PC; no byte of memory changed. -/
def LoadDone (s u : State) (c : Ctx) : Prop :=
  Leaves s u { c with pc := s.pc + 12#64 } ∧ SameThread s u ∧ CachesOnly s u

/-- Every byte outside the `n` bytes at `a` reads as before, and so does the full/empty bit of every word they do not
touch. -/
def OutsideKept (s u : State) (a n : Nat) : Prop :=
  (∀ b, b < a ∨ a + n ≤ b → Memory.readByte u.mem b = Memory.readByte s.mem b) ∧
    (∀ b, b / 8 < a / 8 ∨ (a + n - 1) / 8 < b / 8 → u.isFull b = s.isFull b)

/-- A word completed with the context `c` but for PC; no byte of memory, full/empty bit or poison changed. -/
def Advanced (s u : State) (c : Ctx) : Prop := Leaves s u { c with pc := s.pc + 12#64 } ∧ SameThread s u ∧ MemKept s u

/-- Registers from `r` on receive words, each full. -/
def Ctx.writeAll (r : BitVec 4) (vs : List Word) (c : Ctx) : Ctx :=
  (List.range vs.length).foldl (fun c i => c.writeX (r + BitVec.ofNat 4 i) (vs.getD i 0#64)) c

/-- Registers r to r + n − 1 can be written. -/
def State.destsFree (s : State) (r : BitVec 4) (n : Nat) : Prop := ∀ i, i < n → s.destFree (r + BitVec.ofNat 4 i) false = true

/-- Registers r to r + n − 1 can be read. -/
def State.regsReady (s : State) (r : BitVec 4) (n : Nat) : Prop := ∀ i, i < n → s.regReady (r + BitVec.ofNat 4 i) = true

/-- The thread has nothing pending at all (R72, R96): PEND = 0, no owed predicate, no recorded fault. -/
def State.idle (s : State) : Bool := s.thr.ctx.pendZero && !s.thr.res.owesPred && s.thr.res.fault.isNone

/-- A cluster port has the page of a GVA, so that an access through it waits for no walk (R355). -/
def State.pageNear (s : State) (who : Who) (g : Nat) : Bool :=
  !decide (g < Config.winBase) || s.lookup (s.coreCluster who.core) who.task g != .miss

/-- A core's port has the page of a context record; task 0 has no page tables (R77, R355). -/
def State.recordNear (s : State) (core : Nat) (task : BitVec 16) (cxa : Word) : Bool :=
  task == 0#16 || s.pageNear ⟨core, task, true⟩ cxa.toNat

/-- A core's port has the pages of the records of its threads. -/
def State.recordsNear (s : State) (n : Nat) : Bool :=
  (s.attached n).all fun t => s.recordNear n (t.ctx.st.extractLsb' 16 16) t.ctx.cxa

/-- The thread that issues is attached to a core. -/
def State.isThere (s : State) : Bool := decide (s.thr.wait ≠ .ended)

/-! ### Operands of engine commands -/

/-- The storage address of an array operand that passes R225: `len` elements of `z` bytes, `step` bytes apart. -/
def State.arrayAt (s : State) (nd : Need) (a : Word) (z len : Nat) (step : Int) : Option Nat :=
  if len = 0 then some 0
  else match s.cachedSet s.thr.core s.task with
    | none => none
    | some ts =>
      let sg := ts.seg (bits a.toNat 61 3)
      let off : Int := bits a.toNat 0 61
      let span := ((len : Int) - 1) * step
      let lo := off + min 0 span
      let hi := off + max 0 span
      let base : Int := bits sg.1.toNat 0 56
      if a.toNat % z = 0 ∧ segGrants sg.1 nd = true ∧ 0 ≤ lo ∧ hi + z ≤ (bits sg.2.toNat 0 61 : Int) then
        match s.clusterWindow s.me (base + lo) z with
        | none => none
        | some w => if s.clusterWindow s.me (base + hi) z = some w ∧ s.homeDead w = false then some (base + off).toNat else none
      else none

/-- The GVA of the base of a span of a copy that passes R296. -/
def State.spanAt (s : State) (nd : Need) (base : Word) (lo hi : Int) (z n : Nat) : Option Nat :=
  if n = 0 then some 0
  else match s.cachedSet s.thr.core s.task with
    | none => none
    | some ts =>
      match s.span ts nd base lo hi z with
      | .ok g => some g
      | .bad .. => none

end Sys2Proof.Machine

namespace Sys2Proof

open Machine

/-- A field of a stream command can be captured (R222): a scalar or an address is read, a result register is not. -/
def Opnd.captureReady (o : Opnd) (r : Role) (s : State) : Bool :=
  match o with
  | .reg _ _ _ v => (r == .none && !v) || o.ready s
  | _ => true

/-- What is captured. -/
def Opnd.captured (o : Opnd) (r : Role) (s : State) : Word :=
  match o with
  | .reg _ _ _ v => if r == .none && !v then 0#64 else o.val s
  | .pred .. => 0#64
  | o => o.val s

/-- The state after the capture. -/
def Opnd.afterCapture (o : Opnd) (r : Role) (s : State) : State :=
  match o with
  | .reg _ _ _ v => if r == .none && !v then s else o.after s
  | _ => s

end Sys2Proof

namespace Sys2Proof.Machine

/-- What a stream command holds for a field (R222, R225): the storage address of an array, or the pattern of a scalar. -/
def State.fieldOf (s : State) (op : VOp) (t : Ty) (x : Args) (o : Opnd) (r : Role) (f : Nat) (v : Word) : Option (Word × FFlags) :=
  if isArr o r then
    let z := op.width t x f
    let n := slenN s.thr.ctx.slen
    let table := r == .tabR || r == .tabW
    (s.arrayAt r.need v z (if table then min n 1 else n) (if table then 0 else sstrOf s.thr.ctx.sstr f * z)).map
      fun a => (BitVec.ofNat 64 a, 0#5)
  else some (BitVec.ofNat 64 (scalarOf o (op.scalarTy t) v).1, (scalarOf o (op.scalarTy t) v).2)

/-- The core's stream queue takes the next command of the thread (R221). -/
def State.streamRoom (s : State) : Bool :=
  decide ((s.core s.thr.core).streamQ.countP (fun q => !q.fin) + s.aheadOf .streamQ < 16)

/-- PEND.STC = 0 and no recorded fault: an engine command may issue (R156, R177). -/
def State.noStores (s : State) : Bool := s.thr.ctx.stc == 0#16 && s.thr.res.fault.isNone

end Sys2Proof.Machine

namespace Sys2Proof.Machine

/-! ### Brine commands -/

/-- No request waits at a home and no deadline unit is armed: a write wakes nothing. -/
def State.quiet (s : State) : Bool := s.waiters.isEmpty && !s.anyDeadline

/-- The register is empty and its result is owed (R30, R80). -/
def Ctx.owing (r : BitVec 4) (c : Ctx) : Ctx := { (c.drain r) with owe := c.owe ||| BitVec.ofNat 16 (2 ^ r.toNat) }

/-- A command stands with its engine, and no engine has moved yet. -/
def State.queued (q : BrineCmd) (s : State) : State :=
  ({ s with serial := s.serial + 1, brineQ := s.brineQ ++ [q] } : State).ungate (s.coreCluster q.core) 2

/-- The GVA of a span of an operand that passes R141; none where it traps. -/
def State.opSpan (s : State) (nd : Need) (ea : Word) (n align : Nat) : Option Nat :=
  if n = 0 then some 0
  else match s.cachedSet s.thr.core s.task with
    | none => none
    | some ts =>
      if ea.toNat % align ≠ 0 then none
      else match ts.gva nd ea n with
        | none => none
        | some g => if s.area s.levelH nd g n = .none then none else some g

/-- The serving engine of each of `n` blocks from block `b` on, when each can be located (R317). -/
def State.blocksFrom (g : Nat) : Nat → Nat → State → Option (List RBlock × State)
  | 0, _, s => some ([], s)
  | n + 1, b, s =>
    match s.locate s.me nEngWrite (g + 4096 * b) 1 with
    | .loc (.mem _ h _ _) s1 =>
      if h < Config.nCores ∧ s1.homeDead h = false then
        (State.blocksFrom g n (b + 1) s1).map fun r => (⟨s1.coreCluster h, 0, false⟩ :: r.1, r.2)
      else none
    | _ => none

/-- No command and no round is with any brine engine. -/
def State.brineIdle (s : State) : Bool := s.brineQ.isEmpty && s.rounds.isEmpty

/-- The ports of a region's engines have the pages of its blocks, masses and custody slots. -/
def State.regionNear (s : State) (r : Region) : Bool :=
  let block (b : Nat) : Bool :=
    let who := r.who s (r.block b).cl
    s.pageNear who (r.vbase + 4096 * b) && s.pageNear who (r.mbase + 8 * b)
      && (List.range r.custn).all fun i => s.pageNear who (r.slotAt (r.block b).cl i)
  (List.range r.nblk).all block
    && (s.custOf r.rid).all fun p => block p.2.blk && s.pageNear (r.who s p.1) (r.slotAt p.1 p.2.slot)

/-- A result is on its way to a register of the thread that issues. -/
def State.owes (s u : State) (r : BitVec 4) (w : Word) : Prop :=
  (⟨s.thr.core, s.thr.ctx.cxa, .xreg r, w, 0#5⟩ : Owed) ∈ u.owed

/-! ### Queues -/

/-- The ports of the cores of a LAUNCH have the pages of the records of their threads, and of those of its first wave (R77, R355). -/
def State.waveNear (s : State) (l : Launch) : Bool :=
  l.cores.all s.recordsNear && (List.range (min l.desc.count (l.cores.length * l.desc.quota))).all fun i =>
    s.recordNear (l.cores.getD (i / l.desc.quota) 0) l.task (l.desc.arena + BitVec.ofNat 64 (256 * i))

/-- A command image as a head command of a queue. -/
def commandOf (ws : List Word) : QSlot := { (slotOf 0 0 0#64 []) with words := ws }

/-! ### Engines and rings -/

/-- A ring of a live core takes one more message, and no notice thread is woken by it (R89, R103). -/
def State.ringOpen (s : State) (core chan : Nat) : Bool :=
  decide (0 < s.roomOf core chan) && decide (chan < (s.core core).inbox.length) && ((s.core core).notice.getD chan none).isNone
    && !s.homeDead core

/-- A message stands in the entry of a ring that was next, its 32 bytes are all that changed in memory, and the ring holds
one more (R89). -/
def Entered (s u : State) (core chan : Nat) (m : Msg) : Prop :=
  let q := (s.core core).inbox.getD chan (0, 0)
  let a := coreAddr core ((s.core core).ibEntryAt chan (q.1 + q.2))
  u.readMem a 32 = m.toBytes ∧ OutsideKept s u a 32 ∧ (u.core core).ibCount chan = q.2 + 1

/-- The pan command of a cluster that starts next (R273). -/
def State.panNext (s : State) (k : Nat) : Option PanCmd :=
  (s.panCores k).findSome? fun n => ((s.core n).panQ.find? fun q => q.st != .committed).filter fun q => q.st == .queued

/-- The pan command of a cluster that runs. -/
def State.panRuns (s : State) (k : Nat) : Option PanCmd :=
  (s.panCores k).findSome? fun n => (s.core n).panQ.find? fun q => q.st == .running

/-- The pan command of a cluster that reports next (R278). -/
def State.panEnds (s : State) (k : Nat) : Option PanCmd :=
  (s.panCores k).findSome? fun n => (s.core n).panQ.head?.filter fun q => q.st == .committed

/-- An operand of an element of a stream command (R227): from its array, or the captured scalar. -/
def State.elemOf (s : State) (q : StreamCmd) (o : Opnd) (r : Role) (f i z : Nat) : Nat :=
  if isArr o r then s.readNat (q.at f i z) z else q.val f

/-- The element that an operand names, when it is one of an array, is not poisoned. -/
def State.elemGood (s : State) (q : StreamCmd) (o : Opnd) (r : Role) (f i z : Nat) : Bool :=
  !isArr o r || !s.poisoned (q.at f i z) z

end Sys2Proof.Machine
end

