-- ==== Sys2Proof/Certificates/Slice0/Obligations.lean ====
section
/-! DEFINITION. The statements for the provers. -/

namespace Sys2Proof.Machine


end Sys2Proof.Machine

open Sys2Proof Sys2Proof.Machine Sys2Proof.Config

/-- add, sub, mul, mulh, min, max: result, wrapped to the type, and nothing else changes (R107, R112). It rests on the model's own choices or readings of log 48. -/
def Obligations.IntegerArithmeticResults : Prop :=
  ∀ (t : Ty) (x : Args) (s : State), x.go s = true →
    let b := t.intVal (x.b.atInt t.width (x.b.val s))
    let c := t.intVal (x.c.atInt t.width (x.c.val s))
    ∀ p ∈ ([(.add t x, b + c), (.sub t x, b - c), (.mul t x, b * c), (.mulh t x, b * c / (2 ^ t.width : Nat)),
        (.min t x, if b ≤ c then b else c), (.max t x, if b ≤ c then c else b)] : List (Instr × Int)),
      ∃ u, exec p.1 s = .next u ∧
        Completed s u ((x.afterBC s).thr.ctx.writeX x.a.rix (extend t.width t.signed (p.2 % (2 ^ t.width : Nat)).toNat))

/-- and, or, xor, andn, shl, shr, sar, rot: result and frame (R107, R112, R115). It rests on the model's own choices or readings of log 48. -/
def Obligations.BitwiseAndShiftResults : Prop :=
  ∀ (t : Ty) (x : Args) (s : State), x.go s = true →
    let w := t.width
    let b := x.b.atInt w (x.b.val s)
    let c := x.c.atInt w (x.c.val s)
    let k := (x.c.val s).toNat
    ∀ p ∈ ([(.and t x, b &&& c), (.or t x, b ||| c), (.xor t x, b ^^^ c), (.andn t x, b &&& (2 ^ w - 1 - c)),
        (.shl t x, if k < w then b * 2 ^ k % 2 ^ w else 0), (.shr t x, if k < w then b / 2 ^ k else 0),
        (.sar t x, ((sintOf w b / 2 ^ (if k ≤ w then k else w)) % (2 ^ w : Nat)).toNat),
        (.rot t x, b / 2 ^ (k % w) + b * 2 ^ (w - k % w) % 2 ^ w)] : List (Instr × Nat)),
      ∃ u, exec p.1 s = .next u ∧
        Completed s u ((x.afterBC s).thr.ctx.writeX x.a.rix (extend w t.signed p.2))

/-- clz, ctz, popc, bswap, cvi, mov, movl: result and frame (R107, R116, R118, R119). It rests on the model's own choices or readings of log 48. -/
def Obligations.OneSourceIntegerResults : Prop :=
  ∀ (t : Ty) (x : Args) (s : State),
    let w := t.width
    let b := x.b.atInt w (x.b.val s)
    let q := srcTy x.c
    let v := q.intVal (x.b.atInt q.width (x.b.val s))
    (x.goB s = true → ∀ p ∈ ([(.clz t x, BitVec.ofNat 64 (clzBits w b)), (.ctz t x, BitVec.ofNat 64 (ctzBits w b)),
        (.popc t x, BitVec.ofNat 64 (popBits w b)),
        (.bswap t x, extend w t.signed (leNat (leBytes (w / 8) b).reverse)), (.mov t x, extend w t.signed b),
        (.cvi t x, extend w t.signed ((max (minInt w t.signed) (min (maxInt w t.signed) v)) % (2 ^ w : Nat)).toNat)]
        : List (Instr × Word)),
      ∃ u, exec p.1 s = .next u ∧ Completed s u ((x.b.after s).thr.ctx.writeX x.a.rix p.2)) ∧
    (s.enabled x.h = true → x.a.free s = true → ∃ u, exec (.movl x) s = .next u ∧
        Completed s u (s.thr.ctx.writeX x.a.rix x.b.immW))

/-- bext, bins, mad: result and frame (R113, R117). It rests on the model's own choices or readings of logs 6, 48. -/
def Obligations.BitfieldAndMultiplyAddResults : Prop :=
  ∀ (t : Ty) (x : Args) (s : State),
    let c := (x.c.val s).toNat
    let pos := c % 64
    let len := if c / 64 % 128 ≤ 64 - pos then c / 64 % 128 else 64 - pos
    let m := (2 ^ len - 1) * 2 ^ pos
    let b := x.b.atInt 64 (x.b.val s)
    let f := (b &&& m) / 2 ^ pos
    (x.go s = true → ∃ u, exec (.bext t x) s = .next u ∧ Completed s u ((x.afterBC s).thr.ctx.writeX x.a.rix
      (if t.signed = true ∧ len ≠ 0 then extend len true f else BitVec.ofNat 64 f))) ∧
    (x.goABC s = true → ∃ u, exec (.bins t x) s = .next u ∧ Completed s u ((x.afterABC s).thr.ctx.writeX x.a.rix
      (BitVec.ofNat 64 (((x.a.val s).toNat &&& (2 ^ 64 - 1 - m)) ||| (b * 2 ^ pos &&& m))))) ∧
    (x.goABC s = true → ∃ u, exec (.mad t x) s = .next u ∧ Completed s u ((x.afterABC s).thr.ctx.writeX x.a.rix
      (extend t.width t.signed ((t.intVal (x.a.val s).toNat + t.intVal (x.b.atInt t.width (x.b.val s))
        * t.intVal (x.c.atInt t.width (x.c.val s))) % (2 ^ t.width : Nat)).toNat)))

/-- div and rem: quotient, remainder, and ARI on a zero divisor (R114, R57). It rests on the model's own choices or readings of logs 48, 57. -/
def Obligations.DivisionOrArithmeticTrap : Prop :=
  ∀ (t : Ty) (x : Args) (s : State), s.enabled x.h = true → x.readyBC s = true →
    let n := t.intVal (x.b.atInt t.width (x.b.val s))
    let d := t.intVal (x.c.atInt t.width (x.c.val s))
    ∀ p ∈ ([(.div t x, Int.tdiv n d), (.rem t x, Int.tmod n d)] : List (Instr × Int)),
      (d ≠ 0 → x.a.free (x.afterBC s) = true → ∃ u, exec p.1 s = .next u ∧
        Completed s u ((x.afterBC s).thr.ctx.writeX x.a.rix (extend t.width t.signed (p.2 % (2 ^ t.width : Nat)).toNat))) ∧
      (d = 0 → s.levelH = false → s.trin = false → ∃ u, exec p.1 s = .next u ∧ Trapped s u tARI 0#8 0#64)

/-- fadd, fsub, fmul, fdiv, fmin, fmax, fma, fsqrt: result, sticky flags and frame (R124, R128, R132, R133). It rests on the model's own choices or readings of logs 6, 48. -/
def Obligations.FloatArithmeticResults : Prop :=
  ∀ (t : Ty) (x : Args) (s : State),
    let m := fmtOf t
    let b := x.b.atFloat m (x.b.val s)
    let c := x.c.atFloat m (x.c.val s)
    let out (c0 : Ctx) (r : Nat × FFlags) : Ctx :=
      { (c0.writeX x.a.rix (BitVec.ofNat 64 r.1)) with st := c0.st ||| (r.2.setWidth 64 <<< 4) }
    (x.go s = true →
      ∀ p ∈ ([(.fadd t x, m.add s.rm b c), (.fsub t x, m.sub s.rm b c), (.fmul t x, m.mul s.rm b c),
          (.fdiv t x, m.div s.rm b c), (.fmin t x, m.minmax false b c), (.fmax t x, m.minmax true b c)]
          : List (Instr × (Nat × FFlags))),
        ∃ u, exec p.1 s = .next u ∧ Completed s u (out (x.afterBC s).thr.ctx p.2)) ∧
    (x.goB s = true → ∃ u, exec (.fsqrt t x) s = .next u ∧ Completed s u (out (x.b.after s).thr.ctx (m.sqrt s.rm b))) ∧
    (x.goABC s = true → ∃ u, exec (.fma t x) s = .next u ∧
      Completed s u (out (x.afterABC s).thr.ctx (m.fma s.rm b c ((x.a.val s).toNat % 2 ^ m.width))))

/-- fcvt, fcvti, icvtf, frnd, fcls: result, sticky flags and frame (R134, R135, R136, R137, R138). It rests on the model's own choices or readings of log 48. -/
def Obligations.FloatConversionResults : Prop :=
  ∀ (t : Ty) (x : Args) (s : State), x.goB s = true →
    let m := fmtOf t
    let q := srcTy x.c
    let qm := fmtOf q
    let k := x.c.immW.toNat
    let v := x.b.val s
    let out (r : Nat × FFlags) : Ctx :=
      let c0 := (x.b.after s).thr.ctx
      { (c0.writeX x.a.rix (BitVec.ofNat 64 r.1)) with st := c0.st ||| (r.2.setWidth 64 <<< 4) }
    let toInt := fToInt qm t.width t.signed (if x.c.immW.getLsbD 4 = true then .rtz else s.rm) (x.b.atFloat qm v)
    ∀ p ∈ ([(.fcvt t x, fcvt qm m (if m.width < 32 then .rne else s.rm) (x.b.atFloat qm v)),
        (.fcvti t x, ((extend t.width t.signed (toInt.1 % (2 ^ t.width : Nat)).toNat).toNat, toInt.2)),
        (.icvtf t x, m.ofInt s.rm (q.intVal (v.toNat % 2 ^ q.width))),
        (.frnd t x, m.integral (if bits k 0 3 = 4 then s.rm else RMode.ofCode (bits k 0 3)) (bit k 3) (x.b.atFloat m v)),
        (.fcls t x, (2 ^ m.classOf (x.b.atFloat m v), 0#5))] : List (Instr × (Nat × FFlags))),
      ∃ u, exec p.1 s = .next u ∧ Completed s u (out p.2)

/-- lea.add, lea.off, lea.s0 to lea.s7, lea.gva: result and frame; SEG at or above the limit (R123). It rests on the model's own choices or readings of logs 48, 57. -/
def Obligations.AddressFormation : Prop :=
  ∀ (x : Args) (s : State), s.enabled x.h = true → x.readyBC s = true →
    let b := x.b.val s
    let v := b + x.c.val s
    let off := v.toNat % 2 ^ 61
    (x.a.free (x.afterBC s) = true →
      (∃ u, exec (.leaAdd x) s = .next u ∧ Completed s u ((x.afterBC s).thr.ctx.writeX x.a.rix v)) ∧
      (∃ u, exec (.leaOff x) s = .next u ∧ Completed s u ((x.afterBC s).thr.ctx.writeX x.a.rix
        (BitVec.ofNat 64 (b.toNat / 2 ^ 61 * 2 ^ 61 + off)))) ∧
      (∀ n : BitVec 3, ∃ u, exec (.leaSeg n x) s = .next u ∧ Completed s u ((x.afterBC s).thr.ctx.writeX x.a.rix
        (BitVec.ofNat 64 (n.toNat * 2 ^ 61 + off))))) ∧
    (∀ ts, s.cachedSet s.thr.core s.task = some ts →
      let sg := ts.seg (v.toNat / 2 ^ 61)
      (off < sg.2.toNat % 2 ^ 61 → x.a.free (x.afterBC s) = true → ∃ u, exec (.leaGva x) s = .next u ∧
        Completed s u ((x.afterBC s).thr.ctx.writeX x.a.rix (BitVec.ofNat 64 ((sg.1.toNat % 2 ^ 56 + off) % 2 ^ 56)))) ∧
      (sg.2.toNat % 2 ^ 61 ≤ off → s.levelH = false → s.trin = false →
        ∃ u, exec (.leaGva x) s = .next u ∧ Trapped s u tSEG 0#8 v))

/-- mvs and msv: what they read and write (R32, R120, R121, R122). It rests on the model's own choices or readings of logs 48, 57. -/
def Obligations.SpecialRegisterAccess : Prop :=
  ∀ (x : Args) (s : State), s.enabled x.h = true →
    (x.a.free s = true → (specOf x.b ≠ 0 ∨ s.thr.res.fixed = []) →
      ∃ u, exec (.mvs x) s = .next u ∧ Completed s u (s.thr.ctx.writeX x.a.rix (s.spec (specOf x.b)))) ∧
    (s.thr.res.fixed = [] → x.b.ready s = true →
      let v := x.b.val s
      let c := (x.b.after s).thr.ctx
      (∀ p ∈ ([(0x00, { c with st := (c.st &&& ~~~0x3FC#64) ||| (v &&& 0x3FC#64) }),
          (0x09, { c with slen := v &&& 0xFFFFFFFF07FFFFFF#64 }), (0x0A, { c with sstr := v &&& 0x0000FFFFFFFFFFFF#64 }),
          (0x0B, { c with trc := v &&& 0xFFFF#64 }), (0x0C, { c with tra := v }), (0x0D, { c with trd := v })]
          : List (Nat × Ctx)),
        specOf x.a = p.1 → ∃ u, exec (.msv x) s = .next u ∧ Completed s u p.2) ∧
      (specOf x.a = 0x0E → s.levelH = false → s.trin = false →
        ∃ u, exec (.msv x) s = .next u ∧ Trapped s u tPRIV 0#8 (0x39#64 <<< 16)))

/-- nop, jmp, call, callr, loop: where PC goes and what is written (R34, R60, R61, R63, R64, R65). -/
def Obligations.JumpsAndCalls : Prop :=
  ∀ (x : Args) (s : State), s.enabled x.h = true →
    (∃ u, exec (.nop x) s = .next u ∧ Completed s u s.thr.ctx ∧ (x.h.yl = false → u.thr.skip = x.h.stall.toNat) ∧
      (x.h.yl = true → s.thr.parked = false →
        if s.thr.slot.isSome ∧ (s.core s.thr.core).runq.all (·.cf) then
          u.thr.slot = s.thr.slot ∧ (u.core s.thr.core).runq = (s.core s.thr.core).runq
        else (u.core s.thr.core).runq = (s.core s.thr.core).runq ++ [{ cxa := s.thr.ctx.cxa, org := 3#2 }] ∧ u.thr.slot = none)) ∧
    (x.a.ready s = true → ∃ u, exec (.jmp x) s = .next u ∧ Transferred s u (x.a.after s).thr.ctx (x.a.val s)) ∧
    (s.destFree 15#4 false = true → ∃ u, exec (.call x) s = .next u ∧
      Transferred s u (s.thr.ctx.writeX 15#4 (s.pc + 12#64)) (s.pc + 4#64 * x.a.immW)) ∧
    (x.a.ready s = true → (x.a.after s).destFree 15#4 false = true → ∃ u, exec (.callr x) s = .next u ∧
      Transferred s u ((x.a.after s).thr.ctx.writeX 15#4 (s.pc + 12#64)) (x.a.val s)) ∧
    (x.a.ready s = true →
      let v := x.a.val s - 1#64
      let c := (x.a.after s).thr.ctx.writeX x.a.rix v
      (v = 0#64 → ∃ u, exec (.loop x) s = .next u ∧ Completed s u c) ∧
      (v ≠ 0#64 → ∃ u, exec (.loop x) s = .next u ∧ Transferred s u c (s.pc + 4#64 * x.b.immW)))

/-- cmp and the eight plog forms: the predicate written, and nothing else (R31, R55, R66, R67). -/
def Obligations.PredicateResults : Prop :=
  ∀ (x : Args) (s : State), s.enabled x.h = true →
    (s.predReady x.b.pix = true → s.predReady x.c.pix = true → x.a.free s = true →
      let b := s.p x.b.pix
      let c := s.p x.c.pix
      ∀ p ∈ ([(.plogAnd x, b && c), (.plogOr x, b || c), (.plogXor x, xor b c), (.plogAndn x, b && !c),
          (.plogOrn x, b || !c), (.plogXnor x, !xor b c)] : List (Instr × Bool)),
        ∃ u, exec p.1 s = .next u ∧ Completed s u (s.thr.ctx.writeP x.a.pix p.2)) ∧
    (s.predReady x.b.pix = true → x.a.free s = true →
      ∀ p ∈ ([(.plogMov x, s.p x.b.pix), (.plogNot x, !s.p x.b.pix)] : List (Instr × Bool)),
        ∃ u, exec p.1 s = .next u ∧ Completed s u (s.thr.ctx.writeP x.a.pix p.2)) ∧
    (∀ t : Ty, x.readyBC s = true → x.a.free (x.afterBC s) = true →
      let r := condTy t x.a.cond (x.b.atTy t (x.b.val s)) (x.c.atTy t (x.c.val s))
      let c := (x.afterBC s).thr.ctx
      ∃ u, exec (.cmp t x) s = .next u ∧ Completed s u { (c.writeP x.a.pix r.1) with st := c.st ||| (r.2.setWidth 64 <<< 4) })

/-- trap: SWT with the immediate, escalation inside a handler, nothing when disabled (R68). -/
def Obligations.SoftwareTrapEntry : Prop :=
  ∀ (x : Args) (s : State),
    (s.enabled x.h = true → s.levelH = false → s.trin = false →
      ∃ u, exec (.trap x) s = .next u ∧ Trapped s u 9#8 0#8 x.a.immW) ∧
    (s.enabled x.h = true → (s.trin = true ∨ s.levelH = true) →
      ∃ u, exec (.trap x) s = .next u ∧ Leaves s u s.thr.ctx ∧ SameThread s u ∧
        u.thr.wait = .dropped ⟨0x08#8, s.thr.ctx.cxa⟩ ∧ u = { s with thr := u.thr, flue := u.flue, serial := u.serial } ∧
        ∃ f, u.flue = s.flue ++ [f] ∧ f.cause = 0x08#8 ∧ f.d1 = (s.thr.ctx.cxa &&& 0x00FFFFFFFFFFFF00#64) ||| 9#64 ∧
          f.d2 = x.a.immW) ∧
    (s.disabled x.h = true → ∃ u, exec (.trap x) s = .next u ∧ Completed s u s.thr.ctx)

/-- tret.retry and tret.next leave the handler; brk drops the thread with DBG (R69, R70, R347). -/
def Obligations.HandlerReturnAndBreak : Prop :=
  ∀ (x : Args) (s : State), s.enabled x.h = true →
    (s.trin = true →
      let c := { s.thr.ctx with st := s.st &&& ~~~0x400#64 }
      (∃ u, exec (.tretRetry x) s = .next u ∧ Transferred s u c s.thr.ctx.tra) ∧
      (∃ u, exec (.tretNext x) s = .next u ∧ Transferred s u c (s.thr.ctx.tra + 12#64))) ∧
    (∃ u, exec (.brk x) s = .next u ∧ Leaves s u { s.thr.ctx with pc := s.pc + 12#64 } ∧ SameThread s u ∧
      u.thr.wait = .dropped ⟨0x05#8, s.thr.ctx.cxa⟩ ∧ u = { s with thr := u.thr, flue := u.flue } ∧
      ∃ f, u.flue = s.flue ++ [f] ∧ f.cause = 0x05#8 ∧ f.d1 = s.thr.ctx.cxa ∧ f.d2 = x.a.immW)

/-- br: to its own address plus four times the offset when enabled, else past it; no trap (R62). -/
def Obligations.RelativeBranch : Prop :=
  ∀ (x : Args) (s : State),
    (s.enabled x.h = true → ∃ u, exec (.br x) s = .next u ∧ Transferred s u s.thr.ctx (s.pc + 4#64 * x.a.immW)) ∧
    (s.disabled x.h = true → ∃ u, exec (.br x) s = .next u ∧ Completed s u s.thr.ctx)

/-- A word whose guard disables it advances PC by 12 and does nothing else, whichever instruction it is (R25). -/
def Obligations.DisabledWordOnlyAdvances : Prop :=
  ∀ (i : Instr) (x : Args) (s : State), i.args = some x → s.disabled x.h = true →
    ∃ u, exec i s = .next u ∧ Completed s u s.thr.ctx

/-- tret outside a handler, undefined words, and H-only majors at level U: ILL or PRIV, and nothing but what the trap writes (R37, R38, R57, R69). It rests on the model's own choices or readings of log 65. -/
def Obligations.IllegalAndPrivilegedWords : Prop :=
  (∀ (x : Args) (s : State), s.enabled x.h = true → s.levelH = false → s.trin = false →
      ∀ i ∈ [Instr.tretRetry x, Instr.tretNext x], ∃ u, exec i s = .next u ∧ Trapped s u 1#8 0#8 0xA000B#64) ∧
    (∀ lvl, decodeAt lvl 0#96 = .error (.ill 1#4 0#2)) ∧
    (∀ (w : IWord) (lvl : Bool), w ≠ 0#96 → opAssigned (w.extractLsb' 88 8).toNat = false → decodeAt lvl w = .error (.ill 2#4 0#2)) ∧
    (∀ w : IWord, let op := (w.extractLsb' 88 8).toNat
      (0xE0 ≤ op ∧ op ≤ 0xEC) ∨ (0xF0 ≤ op ∧ op ≤ 0xF6) → decodeAt false w = .error .priv) ∧
    (∀ (s : State) (w : IWord), s.levelH = false → s.trin = false →
      let op := w.extractLsb' 88 8
      Trapped s (Eff.finish issueless s (raiseReject w .priv)) 2#8 0#8 (op.setWidth 64 <<< 16) ∧
      ∀ why fld, Trapped s (Eff.finish issueless s (raiseReject w (.ill why fld))) 1#8 0#8
        ((op.setWidth 64 <<< 16) ||| (fld.setWidth 64 <<< 6) ||| why.setWidth 64))

/-- ld, lda, lfe, ldm: the bytes at the place of the address reach the registers; memory is unchanged (R39, R72, R80, R141, R158, R160, R161, R184). It rests on the model's own choices or readings of log 4. -/
def Obligations.LoadsReadTheirHome : Prop :=
  ∀ (x : Args) (s s2 : State) (a home : Nat) (paged : Bool) (leaf : Word),
    s.enabled x.h = true → x.readyBC s = true → s.inLine = true →
    let s1 := x.afterBC s
    let ea := x.ea s
    let open1 (n : Nat) : Prop := s2.homeOpen a home = true ∧ s2.poisoned a n = false
    let noNear : Prop := (s2.core s2.thr.core).nearLine a false = none
    let lands (i : Instr) (l : List (BitVec 4)) (bs : List Byte) (c : Ctx) : Prop :=
      ∃ u, exec i s = .next u ∧ Asked s u l s1.thr.ctx bs ∧ CachesOnly s u ∧ Answered s u c
    (∀ t : Ty, s1.reaches nLoad ea (t.width / 8) (t.width / 8) = some (.mem a home paged leaf, s2) →
      x.a.free s2 = true → open1 (t.width / 8) → noNear →
      let bs := s.readMem a (t.width / 8)
      let c := s1.thr.ctx.writeX x.a.rix (extend (8 * (t.width / 8)) t.signed (leNat bs))
      if home = s.thr.core ∧ paged = false then ∃ u, exec (.ld t x) s = .next u ∧ LoadDone s u c
      else lands (.ld t x) [x.a.rix] bs c) ∧
    (∀ sc : Scope, s1.reaches nLoad ea 8 8 = some (.mem a home paged leaf, s2) → x.a.free s2 = true → open1 8 →
      lands (.lda sc x) [x.a.rix] (s.readMem a 8) (s1.thr.ctx.writeX x.a.rix (s.readWord a))) ∧
    (s1.reaches nLfe ea 8 8 = some (.mem a home paged leaf, s2) → x.a.free s2 = true → open1 8 →
      lands (.lfe x) [x.a.rix] (leBytes 8 (b2n (s.isFull a))) (s1.thr.ctx.writeX x.a.rix (b2w (s.isFull a)))) ∧
    (∀ n : BitVec 4, let m := n.toNat + 1
      s1.reachesLine nLoad ea (8 * m) 8 = some (.mem a home paged leaf, s2) →
      s2.destsFree x.a.rix m → open1 (8 * m) → noNear →
      lands (.ldm n x) ((List.range m).map fun i => x.a.rix + BitVec.ofNat 4 i) (s.readMem a (8 * m))
        (s1.thr.ctx.writeAll x.a.rix ((List.range m).map fun i => s.readWord (a + 8 * i))))

/-- ldc on a full word empties it; wtw.ne and wtw.ge read the word when their condition holds (R72, R80, R152, R159, R186). It rests on the model's own choices or readings of logs 4, 6, 25, 59. -/
def Obligations.WaitingReadsProceed : Prop :=
  ∀ (x : Args) (s s2 : State) (a home : Nat) (paged : Bool) (leaf : Word),
    s.enabled x.h = true → x.readyBC s = true → s.inLine = true →
    let s1 := x.afterBC s
    let ea := x.ea s
    (s1.reaches nLdc ea 8 8 = some (.mem a home paged leaf, s2) → x.a.free s2 = true → s2.homeOpen a home = true →
      s2.poisoned a 8 = false → s.isFull a = true → s.unwatched a 8 = true →
      ∃ u, exec (.ldc x) s = .next u ∧ Asked s u [x.a.rix] s1.thr.ctx (s.readMem a 8) ∧
        (∀ b, Memory.readByte u.mem b = Memory.readByte s.mem b) ∧
        (∀ b, u.isFull b = if b / 8 = a / 8 then false else s.isFull b) ∧
        Answered s u (s1.thr.ctx.writeX x.a.rix (s.readWord a))) ∧
    (x.a.ready s1 = true →
      let s3 := x.a.after s1
      let e := x.a.val s
      let v := s.readWord a
      s3.reaches nWtw ea 8 8 = some (.mem a home paged leaf, s2) → x.a.free s2 = true → s2.homeOpen a home = true →
      s2.poisoned a 8 = false →
      let lands (i : Instr) : Prop := ∃ u, exec i s = .next u ∧ Asked s u [x.a.rix] s3.thr.ctx (s.readMem a 8) ∧ CachesOnly s u ∧
        Answered s u (s3.thr.ctx.writeX x.a.rix v)
      (v ≠ e → lands (.wtwNe x)) ∧ (e.toNat ≤ v.toNat → lands (.wtwGe x)))

/-- st to the scratchpad of the own core writes its bytes at issue, and every other byte stays (R151, R158, R168). It rests on the model's own choices or readings of log 6. -/
def Obligations.StoreToOwnScratchpad : Prop :=
  ∀ (t : Ty) (x : Args) (s s2 : State) (a : Nat) (leaf : Word), s.Inv → 8 ≤ t.width →
    s.enabled x.h = true → x.readyBC s = true → x.a.ready (x.afterBC s) = true →
    let s1 := x.a.after (x.afterBC s)
    let n := t.width / 8
    s1.reaches nStore (x.ea s) n n = some (.mem a s.thr.core false leaf, s2) → s2.homeOpen a s.thr.core = true →
    s.unwatched a n = true →
    ∃ u, exec (.st t x) s = .next u ∧ SameThread s u ∧ Leaves s u { s1.thr.ctx with pc := s.pc + 12#64 } ∧
      u.readMem a n = leBytes n (x.a.val s).toNat ∧ u.isFull a = true ∧ OutsideKept s u a n

/-- st, stm, stl, stp, sfe.empty, sfe.full to another place: one request is posted, PEND.STC rises, memory is unchanged (R153, R155, R158, R159, R160, R161, R184). It rests on the model's own choices or readings of logs 6, 38, 50, 59. -/
def Obligations.StoresArePosted : Prop :=
  ∀ (x : Args) (s s2 : State) (a home : Nat) (paged : Bool) (leaf : Word),
    s.enabled x.h = true → x.readyBC s = true →
    let s0 := x.afterBC s
    let s1 := x.a.after s0
    let ea := x.ea s
    let v := x.a.val s
    let posted (u : State) (c : Ctx) (op : ReqOp) : Prop :=
      Leaves s u { c with pc := s.pc + 12#64, stc := c.stc + 1#16 } ∧ SameThread s u ∧ MemKept s u ∧
        ∃ r, u.flight = s.flight ++ [r] ∧ r.src = s.thr.core ∧ r.cxa = s.thr.ctx.cxa ∧ r.home = home ∧ r.addr = a ∧ r.op = op ∧
          r.ea = ea ∧ r.counted = true ∧ r.stage = 0
    s.thr.ctx.stc ≠ 0xFFFF#16 → s2.canCharge home = true →
    (∀ t : Ty, let n := t.width / 8
      x.a.ready s0 = true → s1.reaches nStore ea n n = some (.mem a home paged leaf, s2) →
      (home ≠ s.thr.core ∨ paged = true) →
      ∃ u, exec (.st t x) s = .next u ∧ posted u s1.thr.ctx (.store (leBytes n v.toNat))) ∧
    (∀ sc : Scope, x.a.ready s0 = true → s1.reaches nStore ea 8 8 = some (.mem a home paged leaf, s2) →
      s.thr.res.fault = none → s2.settled sc none = true →
      ∃ u, exec (.stl sc x) s = .next u ∧ posted u s1.thr.ctx (.store (leBytes 8 v.toNat))) ∧
    (x.a.ready s0 = true → s1.reaches nStp ea 8 8 = some (.mem a home paged leaf, s2) →
      s2.settled (s2.homeScope s2.thr.core (.mem a home paged leaf)).1 none = true →
      ∃ u, exec (.stp x) s = .next u ∧ posted u s1.thr.ctx (.stp v)) ∧
    (s0.reaches nStp ea 8 8 = some (.mem a home paged leaf, s2) →
      (∃ u, exec (.sfeEmpty x) s = .next u ∧ posted u s0.thr.ctx (.sfe false)) ∧
      (∃ u, exec (.sfeFull x) s = .next u ∧ posted u s0.thr.ctx (.sfe true))) ∧
    (∀ n : BitVec 4, let m := n.toNat + 1
      s0.regsReady x.a.rix m →
      s0.reachesLine nStore ea (8 * m) 8 = some (.mem a home paged leaf, s2) →
      ∃ u, exec (.stm n x) s = .next u ∧ posted u s0.thr.ctx
        (.store ((List.range m).map fun i => leBytes 8 (s.x (x.a.rix + BitVec.ofNat 4 i)).toNat).flatten))

/-- The twelve amo functions and cas: old value to A, new value at the place, everything else kept (R53, R72, R80, R181, R182, R183). It rests on the model's own choices or readings of logs 4, 6, 48, 50. -/
def Obligations.AtomicsAtTheirHome : Prop :=
  ∀ (x : Args) (s s2 : State) (a home : Nat) (paged : Bool) (leaf : Word), s.Inv →
    s.enabled x.h = true → x.readyBC s = true → x.a.ready (x.afterBC s) = true → s.inLine = true →
    let s1 := x.a.after (x.afterBC s)
    let ea := x.ea s
    let v := (x.a.val s).toNat
    x.a.free s2 = true → s2.homeOpen a home = true → s.unwatched a 8 = true →
    (∀ p ∈ ([(.amoAdd x, 0), (.amoAnd x, 1), (.amoOr x, 2), (.amoXor x, 3), (.amoMin x, 4), (.amoMax x, 5), (.amoNmin x, 6),
        (.amoNmax x, 7), (.amoSwap x, 8), (.amoFadd32 x, 9), (.amoFmax32 x, 10), (.amoFadd64 x, 11)] : List (Instr × Nat)),
      let n := amoSize p.2
      let old := s.readNat a n
      let r := amoValue p.2 old (v % 2 ^ (8 * n))
      s1.reaches (nAmo (p.2 == 0 || p.2 == 8)) ea n n = some (.mem a home paged leaf, s2) → s2.poisoned a n = false →
      ∃ u, exec p.1 s = .next u ∧ Asked s u [x.a.rix] s1.thr.ctx (leBytes n old) ∧
        Answered s u { (s1.thr.ctx.writeX x.a.rix (BitVec.ofNat 64 old)) with st := s1.st ||| (r.2.setWidth 64 <<< 4) } ∧
        u.readMem a n = leBytes n r.1 ∧ u.isFull a = true ∧ OutsideKept s u a n) ∧
    (∀ f : CasFn, let n := if f.wide then 8 else 4
      let old := s.readNat a n
      let hit := old = v % 2 ^ (8 * n)
      s1.regReady (x.a.rix + 1#4) = true → s1.reaches (nAmo true) ea n n = some (.mem a home paged leaf, s2) →
      s2.poisoned a n = false →
      (f.rel = true → s2.settled (s2.homeScope s2.thr.core (.mem a home paged leaf)).1 none = true) →
      ∃ u, exec (.cas f x) s = .next u ∧ Asked s u [x.a.rix] s1.thr.ctx (leBytes n old) ∧
        Answered s u (s1.thr.ctx.writeX x.a.rix (BitVec.ofNat 64 old)) ∧
        (hit → u.readMem a n = leBytes n (s.x (x.a.rix + 1#4)).toNat ∧ u.isFull a = true ∧ OutsideKept s u a n) ∧
        (¬ hit → MemKept s u))

/-- An access is checked for alignment, segment rights, limit and region in this order; a failure traps precisely (R57, R141). -/
def Obligations.AccessChecksInOrder : Prop :=
  ∀ (t : Ty) (x : Args) (s : State) (ts : TaskSet),
    s.enabled x.h = true → s.levelH = false → s.trin = false → x.readyBC s = true → x.a.ready (x.afterBC s) = true →
    (x.a.after (x.afterBC s)).regReady (x.a.rix + 1#4) = true → s.cachedSet s.thr.core s.task = some ts →
    let ea := x.ea s
    let sg := ts.seg (ea.toNat / 2 ^ 61)
    let off := ea.toNat % 2 ^ 61
    let base := sg.1.toNat % 2 ^ 56
    ∀ p ∈ ([(.ld t x, nLoad, t.width / 8), (.st t x, nStore, t.width / 8), (.lfe x, nLfe, 8), (.ldc x, nLdc, 8),
        (.sfeEmpty x, nStp, 8), (.sfeFull x, nStp, 8), (.stp x, nStp, 8), (.amoAdd x, nAmo true, 8),
        (.cas ⟨true, false, false⟩ x, nAmo true, 8), (.wtwNe x, nWtw, 8), (.wtwGe x, nWtw, 8)]
        : List (Instr × (Need × Nat))),
      let nd := p.2.1
      let n := p.2.2
      (ea.toNat % n ≠ 0 → ∃ u, exec p.1 s = .next u ∧ Trapped s u tALN 0#8 ea) ∧
      (ea.toNat % n = 0 →
        (segGrants sg.1 nd = false ∨ sg.2.toNat % 2 ^ 61 < off + n ∨ 2 ^ 56 < base + off + n ∨
          s.area s.levelH nd (base + off) n = .none) →
        ∃ u, exec p.1 s = .next u ∧ Trapped s u tSEG 0#8 ea)

/-- park, yield, wake, exit: what each does to the thread (R72, R96, R97, R98, R172, R173). It rests on the model's own choices or readings of logs 20, 23, 50. -/
def Obligations.ThreadWaitsAndYields : Prop :=
  ∀ (x : Args) (s : State), s.enabled x.h = true →
    (s.thr.ctx.wk = true → ∃ u, exec (.park x) s = .next u ∧ Completed (s.dropNear s.thr.core) u { s.thr.ctx with wk := false }) ∧
    (s.thr.ctx.wk = false → ∃ u, exec (.park x) s = .next u ∧ Advanced s u { s.thr.ctx with pk := true } ∧ u.thr.wait = .park) ∧
    (∃ u, exec (.yield x) s = .next u ∧ Advanced s u s.thr.ctx ∧
      (if s.thr.slot.isSome ∧ (s.core s.thr.core).runq.all (·.cf) then
        u.thr.slot = s.thr.slot ∧ u.thr.wait = s.thr.wait ∧ (u.core s.thr.core).runq = (s.core s.thr.core).runq
      else u.thr.slot = none ∧ u.thr.wait = .ready ∧
        (u.core s.thr.core).runq = (s.core s.thr.core).runq ++ [{ cxa := s.thr.ctx.cxa, org := 3#2 }])) ∧
    (x.readyBC s = true → (x.b.val s).toNat < 2048 → x.a.free (x.afterBC s) = true →
      let n := (x.b.val s).toNat
      let s1 := x.afterBC s
      s1.settled (s1.scopeOf s.thr.core n) none = true → s1.homeDead n = false → s.canCharge n = true →
      ∃ u k, exec (.wake x) s = .next u ∧
        u.wakeReqs = s.wakeReqs ++ [⟨n, x.c.val (x.b.after s), s.thr.core, s.thr.ctx.cxa, k⟩] ∧
        Leaves s u (s1.thr.ctx.awaiting [x.a.rix]) ∧ u.thr.wait = .home ∧ u.thr.slot = none ∧ SameThread s u ∧ MemKept s u) ∧
    (s.idle = true → s.isThere = true → s.grp = 0#16 → s.findPop s.thr.popIx = none →
      ∃ u, exec (.exit x) s = .next u ∧ u.thr = {} ∧ u.pool = s.pool ∧ MemKept s u ∧
        (u.core s.thr.core).runq = (s.core s.thr.core).runq.filter fun e => e.cxa != s.thr.ctx.cxa)

/-- hop: nothing to do at the own core; else the context leaves for the home of the address (R99). It rests on the model's own choices or readings of log 46. -/
def Obligations.HopLeavesForTheHome : Prop :=
  ∀ (x : Args) (s s2 : State) (a home : Nat) (paged : Bool) (leaf : Word),
    s.enabled x.h = true → x.readyBC s = true →
    let s1 := x.afterBC s
    s1.reaches nLoad (x.ea s) 1 1 = some (.mem a home paged leaf, s2) →
    s.grp = 0#16 → s.thr.res.join = none → s.idle = true → s.isThere = true →
    (home = s.thr.core → ∃ u, exec (.hop x) s = .next u ∧ Advanced s u s1.thr.ctx) ∧
    (home ≠ s.thr.core → s2.homeDead home = false → (s.attached home).length < 4096 → s2.canCharge home = true →
      ∃ u, exec (.hop x) s = .next u ∧ u.thr = {} ∧ MemKept s u ∧ ∃ h, u.hops = s.hops ++ [h] ∧ h.src = s.thr.core ∧
        h.t.core = home ∧ h.t.pinC = false ∧ h.t.final = ({ s1.thr.ctx with pc := s.pc + 12#64 } : Ctx).orFlags (flagsOf s.thr.res.fixed))

/-- spawn.loc and spawn.core: a population with a non-zero handle as the descriptor says (R77, R86, R94, R95, R355, R417, R430). It rests on the model's own choices or readings of logs 9, 14, 15. -/
def Obligations.SpawnCreatesAPopulation : Prop :=
  ∀ (pl : Placement) (x : Args) (s s2 : State) (a home : Nat) (paged : Bool) (leaf : Word),
    s.enabled x.h = true → x.readyBC s = true → s.levelH = false → s.thr.res.record = none →
    let s1 := x.afterBC s
    let d := SpawnDesc.ofBytes (s.readMem a 128)
    let n := if pl = .core then d.place.toNat else s.thr.core
    pl = .loc ∨ pl = .core → x.a.free s1 = true → s1.noStores = true →
    s1.reachesLine nLoad (x.ea s) 128 128 = some (.mem a home paged leaf, s2) → s2.homeOpen a home = true →
    s2.poisoned a 128 = false → d.bad = false → d.shape = 0 → d.done = 0#64 → n < 2048 → isHearth n = false → isSpare n = false →
    s.homeDead n = false → s.rdyc.contains (s.coreCluster n) = true →
    (s.attached n).length + min d.quota d.count ≤ 4096 → s.recordsNear n = true →
    (∀ i, i < min d.quota d.count → s.recordNear n s.task (d.arena + BitVec.ofNat 64 (256 * i)) = true) →
    ∃ u h, exec (.spawn pl x) s = .next u ∧ h ≠ 0#64 ∧
      Leaves s u { (s1.thr.ctx.writeX x.a.rix h) with pc := s.pc + 12#64 } ∧
      ∃ p ∈ u.pops, p.handle = h ∧ p.pc = d.pc ∧ p.seeds = d.seeds ∧ p.count = d.count ∧ p.quota = d.quota ∧ p.cores = [n] ∧
        p.task = s.task

/-- cbar and gbar: a member waits past the barrier until the last one arrives, and the last one goes on (R100). It rests on the model's own choices or readings of logs 23, 50. -/
def Obligations.BarriersHoldAndRelease : Prop :=
  ∀ (x : Args) (s : State) (g : Group), s.enabled x.h = true → s.grp ≠ 0#16 → s.findGroup s.myCluster s.grp = some g →
    ∀ p ∈ ([(.cbar x, true, .core), (.gbar x, false, .clu)] : List (Instr × (Bool × Scope))),
      g.crew = p.2.1 → s.settled p.2.2 none = true →
      (g.arrived.length + 1 ≠ g.live → ∃ u, exec p.1 s = .next u ∧ Advanced s u s.thr.ctx ∧ u.thr.wait = .barrier ∧
        u.findGroup s.myCluster s.grp = some { g with arrived := g.arrived ++ [(s.thr.core, s.thr.ctx.cxa)] }) ∧
      (g.arrived.length + 1 = g.live → ∃ u, exec p.1 s = .next u ∧ Advanced s u s.thr.ctx ∧
        u.findGroup s.myCluster s.grp = some { g with arrived := [], phase := !g.phase } ∧
        ∀ m ∈ g.arrived, m ≠ (s.thr.core, s.thr.ctx.cxa) → ∀ t, s.findThr m.1 m.2 = some t → t.dropNext = none →
          u.findThr m.1 m.2 = some { t with wait := .ready } ∧
            (t.slot = none → ∃ e ∈ (u.core m.1).runq, e.cxa = m.2 ∧ e.org = 2#2))

/-- ibx takes the oldest message, ibs writes one into its ring, ntc names the notice thread (R89, R101, R102, R103). It rests on the model's own choices or readings of logs 4, 45, 68. -/
def Obligations.InboxInstructions : Prop :=
  ∀ (x : Args) (s : State), s.enabled x.h = true →
    (let ch := chanOfOpnd x.b
     let c := s.core s.thr.core
     let q := c.inbox.getD ch (0, 0)
     let a := coreAddr s.thr.core (c.ibEntryAt ch q.1)
     ch < c.inbox.length → s.destsFree x.a.rix 4 → s.aheadOf (.inbox ch) < q.2 → s.poisoned a 32 = false →
      ∃ u, exec (.ibx x) s = .next u ∧
        Advanced s u (s.thr.ctx.writeAll x.a.rix [s.readWord a, s.readWord (a + 8), s.readWord (a + 16), s.readWord (a + 24)]) ∧
        (u.core s.thr.core).inbox.getD ch (0, 0) = ((q.1 + 1) % c.ibEntries, q.2 - 1)) ∧
    (let s1 := x.b.after s
     let n := (x.b.val s).toNat
     let ch := chanOfOpnd x.a
     let c := s.core n
     let q := c.inbox.getD ch (0, 0)
     let a := coreAddr n (c.ibEntryAt ch (q.1 + q.2))
     let v (i : Nat) : Word := s.x (x.c.rix + BitVec.ofNat 4 i)
     s.Inv → x.b.ready s = true → s1.regsReady x.c.rix 4 → n < 2048 → ch < c.inbox.length → s1.noStores = true →
      s.aheadOf (.room n ch) < c.ibEntries - q.2 → s.homeOpen a n = true → c.notice.getD ch none = none →
      ∃ u, exec (.ibs x) s = .next u ∧ Leaves s u { s1.thr.ctx with pc := s.pc + 12#64 } ∧ SameThread s u ∧
        u.readMem a 32 = leBytes 4 (v 0).toNat ++ leBytes 2 0 ++ leBytes 2 s.thr.core ++ leBytes 8 (v 1).toNat
          ++ leBytes 8 (v 2).toNat ++ leBytes 8 (v 3).toNat ∧
        OutsideKept s u a 32 ∧ (u.core n).inbox.getD ch (0, 0) = (q.1, q.2 + 1)) ∧
    (let ch := chanOfOpnd x.a
     let v := x.b.val s
     x.b.ready s = true → ch < (s.core s.thr.core).notice.length → (v = 0#64 ∨ (s.findThr s.thr.core v).isSome) →
      ∃ u, exec (.ntc x) s = .next u ∧ Advanced s u (x.b.after s).thr.ctx ∧
        (u.core s.thr.core).notice.getD ch none = if v = 0#64 then none else some v)

/-- fork opens a join record, rdv closes it, cpin.on and cpin.off pin the context line (R104, R105). It rests on the model's own choices or readings of log 54. -/
def Obligations.JoinRecordsAndPins : Prop :=
  ∀ (x : Args) (s : State), s.enabled x.h = true →
    (let v := (x.b.val s).toNat
     let l := (s.core s.thr.core).joins
     ∀ i, x.b.ready s = true → s.thr.res.join = none → 1 ≤ v → v ≤ 255 → x.a.free (x.b.after s) = true →
      freshFrom (l.map (·.idx)) 0 256 = some i → s.aheadOf .joinFree < 256 - l.length →
      ∃ u, exec (.fork x) s = .next u ∧ u.thr.res.join = some i ∧
        Advanced s u ((x.b.after s).thr.ctx.writeX x.a.rix (field s.thr.core 8 ||| field i 0)) ∧
        (u.core s.thr.core).joins = l ++ [⟨i, v, 0, 0, 0#64, s.thr.ctx.cxa⟩]) ∧
    (∀ i j, s.thr.res.join = some i → (s.core s.thr.core).joins.find? (fun j => j.idx == i) = some j → j.completed = j.n →
      x.a.free s = true →
      ∃ u, exec (.rdv x) s = .next u ∧ u.thr.res.join = none ∧ Advanced s u (s.thr.ctx.writeX x.a.rix j.status) ∧
        (u.core s.thr.core).joins = (s.core s.thr.core).joins.filter fun j => j.idx != i) ∧
    (x.a.free s = true →
      let room := s.thr.pinC = true ∨ (s.attached s.thr.core).countP (fun t => t.pinC) < 16
      (room → ∃ u, exec (.cpinOn x) s = .next u ∧ u.thr.pinC = true ∧ u.thr.core = s.thr.core ∧ u.thr.place = s.thr.place ∧
        Leaves s u { (s.thr.ctx.writeX x.a.rix 1#64) with pc := s.pc + 12#64 } ∧
        OnlyThread s u) ∧
      (¬ room → ∃ u, exec (.cpinOn x) s = .next u ∧ Completed s u (s.thr.ctx.writeX x.a.rix 0#64)) ∧
      (∃ u, exec (.cpinOff x) s = .next u ∧ u.thr.pinC = false ∧ u.thr.core = s.thr.core ∧ u.thr.place = s.thr.place ∧
        Leaves s u { (s.thr.ctx.writeX x.a.rix 0#64) with pc := s.pc + 12#64 } ∧
        OnlyThread s u))

/-- drq, jdr, drn, fence: allowances read, branched on, waited for; a satisfied fence goes on (R106, R185, R216). It rests on the model's own choices or readings of log 50. -/
def Obligations.DraughtAndFences : Prop :=
  ∀ (x : Args) (s : State), s.enabled x.h = true →
    (x.b.ready s = true → (x.b.val s).toNat < 0x810 → x.a.free (x.b.after s) = true →
      let s1 := x.b.after s
      let d := (x.b.val s).toNat
      let al := (s.core s.thr.core).allowance d
      (∃ u, exec (.drq x) s = .next u ∧ Completed s u (s1.thr.ctx.writeX x.a.rix (BitVec.ofNat 64 al))) ∧
      (∀ n : BitVec 4,
        let t := condInt x.a.cond (al : Nat) (n.toNat : Nat)
        (t = true → ∃ u, exec (.jdr n x) s = .next u ∧
          Transferred s u (s1.thr.ctx.writeP x.a.pix true) (s.pc + 4#64 * x.c.immW)) ∧
        (t = false → ∃ u, exec (.jdr n x) s = .next u ∧ Completed s u (s1.thr.ctx.writeP x.a.pix false))) ∧
      (s.thr.res.fault = none → (∀ e ∈ (s.core s.thr.core).draught, e.dn = d → e.out = 0) →
        ∃ u, exec (.drn x) s = .next u ∧ Completed s u (s1.thr.ctx.writeX x.a.rix (BitVec.ofNat 64 al)))) ∧
    (∀ sc : Scope,
      let m := x.a.immW.toNat
      (bit m 1 = true → s.thr.res.fault = none ∧ s.releaseBusy s.thr.core s.thr.ctx.cxa sc none (bit m 4) s.grpNow = false) →
      (bit m 3 = true → s.thr.res.cmds = 0) →
      ∃ u, exec (.fence sc x) s = .next u ∧ Advanced s u s.thr.ctx)

/-- pfch, sgp, pgq, dsc: what they report, and what they leave alone (R162, R163, R164, R165). It rests on the model's own choices or readings of logs 4, 6, 52, 53. -/
def Obligations.PageQueriesAndPrefetch : Prop :=
  ∀ (x : Args) (s : State), s.enabled x.h = true →
    (∀ ts, x.readyBC s = true → s.cachedSet s.thr.core s.task = some ts →
      (∃ u, exec (.pfch x) s = .next u ∧ Advanced s u (x.afterBC s).thr.ctx ∧ u.flue = s.flue) ∧
      ((∀ g, ts.gva nLoad (x.ea s) 1 = some g → s.area s.levelH nLoad g 1 = .paged → s.lookup s.myCluster s.task g ≠ .miss) →
        ∃ u, exec (.pfch x) s = .next u ∧ LoadDone s u (x.afterBC s).thr.ctx)) ∧
    (∀ ts, s.cachedSet s.thr.core s.task = some ts → s.destsFree x.a.rix 2 →
      let g := ts.seg x.b.immW.toNat
      ∃ u, exec (.sgp x) s = .next u ∧ Completed s u (s.thr.ctx.writeAll x.a.rix [g.1, g.2])) ∧
    (∀ ts g, x.readyBC s = true → s.cachedSet s.thr.core s.task = some ts → ts.gva {} (x.ea s) 1 = some g →
      x.a.free (x.afterBC s) = true →
      let c := (x.afterBC s).thr.ctx
      (∀ k o, s.area s.levelH {} g 1 = .window k o →
        ∃ u, exec (.pgq x) s = .next u ∧ Completed s u (c.writeX x.a.rix (field k 16 ||| 0x90B#64 ||| field 2 7))) ∧
      (∀ v, s.area s.levelH {} g 1 = .paged → s.queryAnswer g = some v →
        ∃ u, exec (.pgq x) s = .next u ∧ Completed s u (c.writeX x.a.rix v)) ∧
      (s.area s.levelH {} g 1 = .paged → s.queryAnswer g = none → s.lookup s.myCluster s.task g = .notValid →
        ∃ u, exec (.pgq x) s = .next u ∧ Completed s u (c.writeX x.a.rix 0#64)) ∧
      (∀ l large, s.area s.levelH {} g 1 = .paged → s.queryAnswer g = none → s.lookup s.myCluster s.task g = .leaf l large →
        ∃ u, exec (.pgq x) s = .next u ∧ Completed s u (c.writeX x.a.rix (s.pageInfo s.me g l large)))) ∧
    (∀ ts g, x.readyBC s = true → x.a.ready (x.afterBC s) = true → s.cachedSet s.thr.core s.task = some ts →
      let s1 := x.a.after (x.afterBC s)
      let v := (x.a.val s).toNat
      0 < v → v ≤ 65536 → (x.ea s).toNat % 0x10000 = 0 → ts.gva nStore (x.ea s) (v * 0x10000) = some g →
      s.area s.levelH nStore g (v * 0x10000) = .paged → s1.noStores = true → s.thr.res.phase = none → s.flight = [] →
      s.waiters = [] → (∀ t ∈ s.threads ++ (s.cores.map (·.2.saved.threads)).flatten, t.res.held = []) →
      ∃ u, exec (.dsc x) s = .next u ∧ SameThread s u ∧ u.tgen = s.tgen + 1#32 ∧
        Leaves s u { (s1.thr.ctx.writeX x.a.rix
          (BitVec.ofNat 64 (if s.task = 0#16 then 0 else (discardPages s.task v g 0 s1).1))) with pc := s.pc + 12#64 })

/-- sopn, scls, sput: the sender table and what is posted (R197, R213, R214, R215). It rests on the model's own choices or readings of log 38. -/
def Obligations.StreamTagInstructions : Prop :=
  ∀ (x : Args) (s : State), s.enabled x.h = true →
    (∀ ts g, x.readyBC s = true → s.cachedSet s.thr.core s.task = some ts → (x.ea s).toNat % 8 = 0 →
      ts.gva nStore (x.ea s) 8 = some g → s.area s.levelH nStore g 8 = .paged → x.a.free (x.afterBC s) = true →
      let l := (s.core s.thr.core).send
      let c := (x.afterBC s).thr.ctx
      let used := (l.filter (·.opened)).map (·.idx)
      (freshFrom used 0 32 = none → ∃ u, exec (.sopn x) s = .next u ∧ Completed s u (c.writeX x.a.rix 0#64)) ∧
      (∀ i, freshFrom used 0 32 = some i →
        ∃ u e, exec (.sopn x) s = .next u ∧ Advanced s u (c.writeX x.a.rix (e.tag.setWidth 64)) ∧ e.idx = i ∧ e.opened = true ∧
          e.task = s.task ∧ e.cursor = x.ea s ∧ e.full = false ∧
          e.gen = nextGen (((l.find? fun e => e.idx == i).map (·.gen)).getD 0) ∧ e ∈ (u.core s.thr.core).send)) ∧
    (∀ e : SendStream, x.b.ready s = true → (x.b.val s).toNat < 0x10000 → e.full = false →
      (s.core s.thr.core).send.find? (fun e => e.opened && e.tag.setWidth 64 == x.b.val s && e.task == s.task) = some e →
      ∃ u, exec (.scls x) s = .next u ∧ Advanced s u (x.b.after s).thr.ctx ∧
        (u.core s.thr.core).send = mapFirst (fun f => f.idx == e.idx) (fun f => { f with opened := false }) (s.core s.thr.core).send) ∧
    (∀ (n : BitVec 4) (e : SendStream) (s2 : State) (ts : TaskSet) (g a home : Nat) (paged : Bool) (leaf : Word),
      let m := n.toNat + 1
      let s1 := x.afterBC s
      let at1 := e.cursor + x.c.val s
      x.readyBC s = true → s1.regsReady x.a.rix m → (x.b.val s).toNat < 0x10000 → s.thr.ctx.stc ≠ 0xFFFF#16 →
      (s.core s.thr.core).send.find? (fun e => e.opened && e.tag.setWidth 64 == x.b.val s && e.task == s.task) = some e →
      s1.cachedSet s.thr.core s.task = some ts → ts.gva nStore at1 (8 * m) = some g →
      s1.reachesLine nStore at1 (8 * m) 8 = some (.mem a home paged leaf, s2) → s2.canCharge home = true →
      ∃ u r, exec (.sput n x) s = .next u ∧ u.flight = s.flight ++ [r] ∧ r.home = home ∧ r.addr = a ∧ r.tag = e.tag ∧
        r.op = .store ((List.range m).map fun i => leBytes 8 (s.x (x.a.rix + BitVec.ofNat 4 i)).toNat).flatten ∧
        Advanced s u { s1.thr.ctx with stc := s1.thr.ctx.stc + 1#16 } ∧
        (u.core s.thr.core).send = mapFirst (fun f => f.idx == e.idx)
          (fun _ => { e with last := BitVec.ofNat 64 g, lastHome := home, full := true, cursor := at1 + BitVec.ofNat 64 (8 * m) })
          (s.core s.thr.core).send)

/-- pprb.tab writes the peer entry; pprb.ping reports a peer that is not UP, or sends its probes (R209, R217). It rests on the model's own choices or readings of logs 9, 27, 68. -/
def Obligations.PeerProbes : Prop :=
  ∀ (x : Args) (s : State), s.enabled x.h = true → x.b.ready s = true → (x.b.val s).toNat < 1024 →
    x.a.free (x.b.after s) = true →
    let p := (x.b.val s).toNat
    let c := (x.b.after s).thr.ctx
    (∃ u, exec (.pprbTab x) s = .next u ∧ Advanced s u (c.writeX x.a.rix (s.peer1 p &&& 0xFFFCFFFFFFFFFFFF#64))) ∧
    (p1State (s.peer1 p) ≠ 1 → ∃ u v, exec (.pprbPing x) s = .next u ∧ Advanced s u (c.writeX x.a.rix v) ∧ v.toNat % 2 ^ 24 = 3) ∧
    (p1State (s.peer1 p) = 1 → s.canChargeAll (farHome (s.peerPort p)) (ceilDiv (p1Nrt (s.peer1 p)) 4) = true →
      ∃ u g, exec (.pprbPing x) s = .next u ∧ u.pings = s.pings ++ [g] ∧ g.core = s.thr.core ∧ g.cxa = s.thr.ctx.cxa ∧
        Advanced s u { (c.drain x.a.rix) with owe := c.owe ||| BitVec.ofNat 16 (2 ^ x.a.rix.toNat) } ∧
        (u.port (s.peerPort p)).reqs.length = (s.port (s.peerPort p)).reqs.length + ceilDiv (p1Nrt (s.peer1 p)) 4)

/-- The 28 stream instructions enqueue one command with what they captured (R177, R221, R222, R223, R224, R225, R226). It rests on the model's own choices or readings of log 6. -/
def Obligations.StreamCommandsAreQueued : Prop :=
  ∀ (t : Ty) (x : Args) (s : State), s.enabled x.h = true →
    ∀ p ∈ ([(.vadd t x, .add), (.vsub t x, .sub), (.vmul t x, .mul), (.vfma t x, .fma), (.vmin t x, .min), (.vmax t x, .max),
        (.vexp t x, .exp), (.vlog t x, .log), (.vrcp t x, .rcp), (.vrsq t x, .rsq), (.vsqrt t x, .sqrt), (.vcvt t x, .cvt),
        (.vsum t x, .sum), (.vrmax t x, .rmax), (.vdot t x, .dot), (.vscan t x, .scan), (.vgat t x, .gat), (.vsct t x, .sct),
        (.vsel t x, .sel), (.vcmp t x, .cmp), (.vfill t x, .fill), (.vand t x, .and), (.vor t x, .or), (.vxor t x, .xor),
        (.vshl t x, .shl), (.vshr t x, .shr), (.vsmx t x, .smx), (.vlnm t x, .lnm)] : List (Instr × VOp)),
      let ra := p.2.roles.1
      let rb := p.2.roles.2.1
      let rc := p.2.roles.2.2
      let s1 := x.a.afterCapture ra s
      let s2 := x.b.afterCapture rb s1
      let s3 := x.c.afterCapture rc s2
      x.a.captureReady ra s = true → x.b.captureReady rb s1 = true → x.c.captureReady rc s2 = true →
      ((p.2.scalar = true ∨ p.2 = .cmp) → x.a.free s3 = true) → s3.noStores = true → s.streamRoom = true →
      ∀ a b c, s3.fieldOf p.2 t x x.a ra 0 (x.a.captured ra s) = some a →
        s3.fieldOf p.2 t x x.b rb 1 (x.b.captured rb s1) = some b →
        s3.fieldOf p.2 t x x.c rc 2 (x.c.captured rc s2) = some c →
        ∃ u q, exec p.1 s = .next u ∧ (u.core s.thr.core).streamQ = (s.core s.thr.core).streamQ ++ [q] ∧
          q.ins = p.1 ∧ q.core = s.thr.core ∧ q.cxa = s.thr.ctx.cxa ∧ q.a = a.1 ∧ q.b = b.1 ∧ q.c = c.1 ∧
          q.slen = s.thr.ctx.slen ∧ q.sstr = s.thr.ctx.sstr ∧ q.task = s.task ∧ q.next = 0 ∧ q.fin = false ∧
          u.thr.res.cmds = s.thr.res.cmds + 1 ∧
          (p.2.scalar = true → Advanced s u
            { (s3.thr.ctx.drain x.a.rix) with owe := s3.thr.ctx.owe ||| BitVec.ofNat 16 (2 ^ x.a.rix.toNat) }) ∧
          (p.2.scalar = false → Advanced s u s3.thr.ctx) ∧
          (p.2 = .cmp → x.a.pix ≠ 0#3 → u.thr.res.owedPred.getLsbD x.a.pix.toNat = true) ∧
          (p.2 = .cmp → x.a.pix = 0#3 → u.thr.res.owedZero = s.thr.res.owedZero + 1)

/-- gpk, gupk, grq, gamx, gchk, gcvt enqueue one bulk command (R177, R222, R252, R258, R259, R260, R261, R264, R265). It rests on the model's own choices or readings of log 6. -/
def Obligations.GrainCommandsAreQueued : Prop :=
  ∀ (t : Ty) (x : Args) (s : State), s.enabled x.h = true →
    (∀ p ∈ ([(.gpk t x, .pk, t), (.gupk t x, .upk, t), (.grq x, .rq, .f8), (.gcvt t x, .cvt, t)] : List (Instr × (GOp × Ty))),
      let s1 := x.a.after s
      let s2 := x.b.after s1
      let s3 := if p.2.1 = .rq then x.c.after s2 else s2
      let sh := p.2.1.shape p.2.2 x (slenN s.thr.ctx.slen)
      x.a.ready s = true → x.b.ready s1 = true →
      (p.2.1 = .rq → x.c.ready s2 = true ∧ (x.c.val s).toNat ≠ 0 ∧ (x.c.val s).toNat ≤ 254) → s3.noStores = true →
      s.streamRoom = true →
      ∀ a b, s3.arrayAt Role.wr.need (x.a.val s) sh.1.1 sh.1.2 sh.1.1 = some a →
        s3.arrayAt Role.rd.need (x.b.val s) sh.2.1 sh.2.2 sh.2.1 = some b →
        ∃ u q, exec p.1 s = .next u ∧ (u.core s.thr.core).streamQ = (s.core s.thr.core).streamQ ++ [q] ∧ q.ins = p.1 ∧
          q.a = BitVec.ofNat 64 a ∧ q.b = BitVec.ofNat 64 b ∧ q.slen = s.thr.ctx.slen ∧ q.next = 0 ∧
          u.thr.res.cmds = s.thr.res.cmds + 1 ∧ Advanced s u s3.thr.ctx) ∧
    (∀ p ∈ ([(.gamx x, .amx, .f32), (.gchk x, .chk, .f8)] : List (Instr × (GOp × Ty))),
      let s1 := x.b.after s
      let sh := p.2.1.shape p.2.2 x (slenN s.thr.ctx.slen)
      x.b.ready s = true → x.a.free s1 = true → s1.noStores = true → s.streamRoom = true →
      ∀ b, s1.arrayAt Role.rd.need (x.b.val s) sh.2.1 sh.2.2 sh.2.1 = some b →
        ∃ u q, exec p.1 s = .next u ∧ (u.core s.thr.core).streamQ = (s.core s.thr.core).streamQ ++ [q] ∧ q.ins = p.1 ∧
          q.b = BitVec.ofNat 64 b ∧ q.slen = s.thr.ctx.slen ∧ q.next = 0 ∧ u.thr.res.cmds = s.thr.res.cmds + 1 ∧
          Advanced s u { (s1.thr.ctx.drain x.a.rix) with owe := s1.thr.ctx.owe ||| BitVec.ofNat 16 (2 ^ x.a.rix.toNat) })

/-- ghdr reads the header of a good block; gset.be, gset.zero and gset.nan change it at its home (R72, R80, R249, R262, R263). It rests on the model's own choices or readings of logs 4, 6, 28. -/
def Obligations.SingleBlockInstructions : Prop :=
  ∀ (x : Args) (s s2 : State) (a home : Nat) (paged : Bool) (leaf : Word), s.Inv →
    s.enabled x.h = true → x.readyBC s = true → s.inLine = true →
    let s1 := x.afterBC s
    let ea := x.ea s
    let bs := s.readMem a 64
    let k := gclass bs none
    k ≠ .bad → k ≠ .poisoned → s2.homeOpen a home = true → s2.poisoned a 64 = false →
    (x.a.free s1 = true → s1.noStores = true → s.thr.res.record = none →
      s1.reachesLine nLoad ea 64 64 = some (.mem a home paged leaf, s2) →
      ∃ u, exec (.ghdr x) s = .next u ∧ Advanced s u (s1.thr.ctx.writeX x.a.rix (headerOf k bs))) ∧
    (s.thr.res.record = none → s1.noStores = true → s.unwatched a 64 = true → s1.reaches nGset ea 64 64 = some (.mem a home paged leaf, s2) →
      (∃ u, exec (.gsetZero x) s = .next u ∧ Asked s u [] s1.thr.ctx [] ∧ Answered s u s1.thr.ctx ∧
        u.readMem a 64 = zeroBlock ∧ OutsideKept s u a 64) ∧
      (∀ f, k = .data f ∨ k = .nan f → ∃ u, exec (.gsetNan x) s = .next u ∧ Asked s u [] s1.thr.ctx [] ∧
        Answered s u s1.thr.ctx ∧
        u.readMem a 64 = BitVec.ofNat 8 f.code :: 0xFF#8 :: List.replicate 62 0#8 ∧ OutsideKept s u a 64)) ∧
    (s.thr.res.record = none → x.a.ready s1 = true → (x.a.after s1).noStores = true → s.unwatched a 64 = true →
      (x.a.after s1).reaches nGset ea 64 64 = some (.mem a home paged leaf, s2) →
      1 ≤ (x.a.val s).toNat → (x.a.val s).toNat ≤ 254 →
      ∀ f, k = .data f → ∃ u, exec (.gsetBe x) s = .next u ∧ Asked s u [] (x.a.after s1).thr.ctx [] ∧
        Answered s u (x.a.after s1).thr.ctx ∧
        u.readMem (a + 1) 1 = [BitVec.ofNat 8 (x.a.val s).toNat] ∧ OutsideKept s u (a + 1) 1)

/-- lse, lsr, mz, mmac, mld, mst: the open term, and the command that is admitted (R269, R270, R272, R273, R283, R284). It rests on the model's own choices or readings of logs 6, 29. -/
def Obligations.PanInstructions : Prop :=
  ∀ (x : Args) (s : State), s.enabled x.h = true →
    let n := s.thr.core
    let k := s.myCluster
    (x.a.free s = true → s.noStores = true → s.termOpen n = true →
      ∃ u, exec (.lse x) s = .next u ∧
        Advanced s u (s.thr.ctx.writeX x.a.rix ((s.cluster k).lease.word (s.now n) s.thr.res.newTerm.isSome)) ∧
        (u.cluster k).accs = (s.cluster k).accs) ∧
    (s.noStores = true → s.termOpen n = true → ∃ u, exec (.lsr x) s = .next u ∧ Advanced s u s.thr.ctx ∧
      (u.cluster k).lease.opened = false ∧ (u.cluster k).accs = (s.cluster k).accs) ∧
    (s.noStores = true → s.termOpen n = false → ∃ u, exec (.lsr x) s = .next u ∧ Completed s u s.thr.ctx) ∧
    (∀ t : Ty, ∀ p ∈ ([(.mz x, .mz, .x64), (.mmac t x, .mmac, t), (.mld x, .mld, .i32), (.mst t x, .mst, t)]
        : List (Instr × (POpr × Ty))),
      let ctl := x.a.val s
      let s3 := x.afterABC s
      let ext := p.2.1.extent p.2.2 ctl
      x.a.ready s = true → x.readyBC (x.a.after s) = true → s3.noStores = true →
      ctlOk (p.2.1 == .mmac) (p.2.1 == .mmac) (p.2.1 == .mz) ctl = true → s.aheadOf .panQ < s.panRoom n →
      ∀ b c, (if x.b.isReg then s3.arrayAt ext.1 (x.b.val s) 64 ext.2 64 else some 0) = some b →
        (if x.c.isReg then s3.arrayAt ext.1 (x.c.val s) 64 ext.2 64 else some 0) = some c →
        ∃ u q, exec p.1 s = .next u ∧ (u.core n).panQ = (s.core n).panQ ++ [q] ∧ q.ins = p.1 ∧ q.ctl = ctl ∧
          q.b = BitVec.ofNat 64 b ∧ q.c = BitVec.ofNat 64 c ∧ q.st = .queued ∧ q.cxa = s.thr.ctx.cxa ∧
          (u.cluster k).lease.cmds = (s.cluster k).lease.cmds + 1 ∧ (u.cluster k).accs = (s.cluster k).accs ∧
          u.thr.res.cmds = s.thr.res.cmds + 1 ∧ Advanced s u s3.thr.ctx)

/-- cpy (record in the cache), cpl and the four cpf forms: one slot is taken with what was captured (R289, R293, R294, R296, R305, R306, R307). It rests on the model's own choices or readings of logs 4, 6, 15. -/
def Obligations.CopiesTakeASlot : Prop :=
  ∀ (x : Args) (s : State) (i : Nat), s.enabled x.h = true →
    let cs := (s.core s.thr.core).copies
    let gen := nextCopyGen ((look i (s.core s.thr.core).copyGens).getD 0)
    freshFrom (cs.map (·.slot)) 0 1024 = some i → s.aheadOf .copySlot < 1024 - cs.length →
    let taken (u : State) (q : CopySlot) (c : Ctx) : Prop :=
      (u.core s.thr.core).copies = cs ++ [q] ∧ q.slot = i ∧ q.gen = gen ∧ q.st = .queued ∧ q.next = 0 ∧ q.task = s.task ∧
        q.cxa = s.thr.ctx.cxa ∧ u.thr.res.cmds = s.thr.res.cmds + 1 ∧ Advanced s u c
    (x.a.ready s = true → x.readyBC (x.a.after s) = true → (x.afterABC s).noStores = true →
      let s3 := x.afterABC s
      let d := x.a.val s
      (let n := (x.c.val s).toNat
       n < 2 ^ 40 → ∀ src dst, s3.spanAt nCopySrc (x.b.val s) 0 ((n : Int) - 1) 1 n = some src →
        s3.spanAt (nCopyDst true) d 0 ((n : Int) - 1) 1 n = some dst →
        ∃ u q, exec (.cpl x) s = .next u ∧ taken u q s3.thr.ctx ∧ q.kind = CopyKind.linear ∧ q.count = n ∧
          q.src = BitVec.ofNat 64 src ∧ q.dst = BitVec.ofNat 64 dst) ∧
      (let n := (x.b.val s).toNat
       n < 2 ^ 40 → n % 8 = 0 → (n = 0 ∨ d.toNat % 8 = 0) →
        ∀ p ∈ ([(.cpfFull x, .fillFull), (.cpfEmpty x, .fillEmpty), (.cpfMke x, .mke), (.cpfMkf x, .mkf)] : List (Instr × CopyKind)),
          ∀ dst, s3.spanAt (nCopyDst (p.2 == .fillFull)) d 0 ((n : Int) - 8) 8 n = some dst →
            ∃ u q, exec p.1 s = .next u ∧ taken u q s3.thr.ctx ∧ q.kind = p.2 ∧ q.count = n ∧ q.dst = BitVec.ofNat 64 dst ∧
              q.pattern = x.c.val s)) ∧
    (∀ (ts : TaskSet) (g : Nat) (r : RecEntry), x.readyBC s = true → x.a.free (x.afterBC s) = true →
      (x.afterBC s).noStores = true → s.thr.res.record = none → s.cachedSet s.thr.core s.task = some ts →
      (x.ea s).toNat % 256 = 0 → ts.gva nLoad (x.ea s) 256 = some g → s.area s.levelH nLoad g 256 ≠ .none →
      (s.core s.thr.core).recs.find? (fun e => e.task == s.task && e.gva == g) = some r → recBad r.image = false →
      let s1 := x.afterBC s
      let dims := recDims r.image
      let n := dimsCount dims
      let z : Nat := 2 ^ bits (at' r.image 0x10 8) 0 3
      let sr := dimsReach (fun d => d.2.1) dims
      let dr := dimsReach (fun d => d.2.2) dims
      wordAt r.image 0x18 = 0#64 →
      ∀ src dst, s1.spanAt nCopySrc (wordAt r.image 0) (sr.1 * z) (sr.2 * z) z n = some src →
        s1.spanAt (nCopyDst true) (wordAt r.image 8) (dr.1 * z) (dr.2 * z) z n = some dst →
        ∃ u q, exec (.cpy x) s = .next u ∧ taken u q (s1.thr.ctx.writeX x.a.rix (copyHandle i gen)) ∧ q.kind = CopyKind.shape ∧
          q.dims = dims ∧ q.count = n ∧ q.src = BitVec.ofNat 64 src ∧ q.dst = BitVec.ofNat 64 dst)

/-- rcf.all, rcf.one, cpst.h, cpst.n, cpx.h, cpx.all: record cache, states and cancellation (R294, R308, R309, R310). It rests on the model's own choices or readings of log 30. -/
def Obligations.CopyControlInstructions : Prop :=
  ∀ (x : Args) (s : State), s.enabled x.h = true →
    let n := s.thr.core
    let cs := (s.core n).copies
    (s.noStores = true → ∃ u, exec (.rcfAll x) s = .next u ∧ Advanced s u s.thr.ctx ∧ (u.core n).recs = []) ∧
    (∀ ts g, x.readyBC s = true → (x.afterBC s).noStores = true → s.cachedSet n s.task = some ts → ts.gva {} (x.ea s) 8 = some g →
      s.area s.levelH {} g 8 ≠ .none →
      ∃ u, exec (.rcfOne x) s = .next u ∧ Advanced s u (x.afterBC s).thr.ctx ∧
        (u.core n).recs = (s.core n).recs.filter fun e => !(e.task == s.task && e.gva == g)) ∧
    (x.a.free s = true → s.noStores = true →
      (∃ u, exec (.cpstN x) s = .next u ∧
        Completed s u (s.thr.ctx.writeX x.a.rix (field (cs.countP fun c => c.st == .hold) 16 ||| field cs.length 0))) ∧
      (∃ u, exec (.cpxAll x) s = .next u ∧
        Advanced s u (s.thr.ctx.writeX x.a.rix (BitVec.ofNat 64 (cs.countP fun c => c.live && c.task == s.task))) ∧
        (u.core n).copies = cs.map fun c => if c.live && c.task == s.task then c.cancel else c)) ∧
    (x.b.ready s = true → x.a.free (x.b.after s) = true → (x.b.after s).noStores = true →
      let v := x.b.val s
      let c1 := (x.b.after s).thr.ctx
      v.toNat < 2 ^ 32 → bits v.toNat 10 22 ≠ 0 →
      (∃ u, exec (.cpstH x) s = .next u ∧ Completed s u (c1.writeX x.a.rix
        (match cs.find? fun c => c.handle == v && c.task == s.task with
         | some c => field c.next 8 ||| field c.st.code 0
         | none => 0#64))) ∧
      (∃ u, exec (.cpxH x) s = .next u ∧
        Advanced s u (c1.writeX x.a.rix (BitVec.ofNat 64 (cs.countP fun c => c.live && (c.handle == v && c.task == s.task)))) ∧
        (u.core n).copies = cs.map fun c => if c.live && (c.handle == v && c.task == s.task) then c.cancel else c))

/-- bhold, bqry, bdrg and bgrp: the result that is owed and what the region holds after (R331, R332, R334, R338, R339, R340, R342). It rests on the model's own choices or readings of logs 31, 62. -/
def Obligations.BrineRegionCommands : Prop :=
  ∀ (x : Args) (s : State), s.enabled x.h = true → s.brineIdle = true →
    let v := x.b.val s
    let rid := bits v.toNat 0 6
    (∀ r, x.b.ready s = true → x.a.free (x.b.after s) = true → (x.b.after s).noStores = true → v.toNat < 64 →
      s.roundRegion rid = some r → r.committed = true →
      let c := (x.b.after s).thr.ctx.owing x.a.rix
      (s.bcust rid = 0 → ∃ u, exec (.bholdOn x) s = .next u ∧ Advanced s u c ∧ s.owes u x.a.rix (field r.ver 32) ∧
        u.roundRegion rid = some { r with hold := true } ∧ u.brineIdle = true) ∧
      (∃ u, exec (.bholdOff x) s = .next u ∧ Advanced s u c ∧ s.owes u x.a.rix (field r.ver 32) ∧
        u.roundRegion rid = some { r with hold := false } ∧ u.brineIdle = true) ∧
      ((∀ i ∈ r.members, i = r.self) → s.bcust rid = 0 → s.quiet = true → s.regionNear r = true →
        ∃ u, exec (.bdrg x) s = .next u ∧ Leaves s u { c with pc := s.pc + 12#64 } ∧ SameThread s u ∧
          s.owes u x.a.rix 0#64 ∧ u.roundRegion rid = none ∧ u.brineIdle = true)) ∧
    (x.readyBC s = true → (x.afterBC s).destsFree x.a.rix 2 → (x.afterBC s).noStores = true → selBad v = false →
      let code := (x.c.val (x.b.after s)).toNat
      let c := ((x.afterBC s).thr.ctx.owing x.a.rix).owing (x.a.rix + 1#4)
      let w := match s.region rid with
        | some r => r.register (s.bcust rid) (bits v.toNat 16 24) code
        | none => (0, 0)
      let b := bits v.toNat 16 24
      (∀ r, code = 0 → s.region rid = some r → b < r.nblk → (r.block b).bad = false →
        s.regionNear r = true ∧ (s.blockAt r b).isSome = true) →
      (∃ u, exec (.bqryRd x) s = .next u ∧ Advanced s u c ∧ s.owes u x.a.rix (BitVec.ofNat 64 w.1) ∧
        s.owes u (x.a.rix + 1#4) (BitVec.ofNat 64 w.2) ∧ u.regions = s.regions ∧ u.brineIdle = true) ∧
      (∃ u, exec (.bqryClr x) s = .next u ∧ Advanced s u c ∧ s.owes u x.a.rix (BitVec.ofNat 64 w.1) ∧
        s.owes u (x.a.rix + 1#4) (BitVec.ofNat 64 w.2) ∧ u.brineIdle = true ∧ (code ≠ 8 → u.regions = s.regions) ∧
        (∀ r, code = 8 → s.roundRegion rid = some r → r.committed = true → u.roundRegion rid =
          some { r with ovf := false, uw := false, nan := false, pblk := false, stale := 0 }))) ∧
    (∀ r, x.readyBC s = true → x.a.free (x.afterBC s) = true → (x.afterBC s).noStores = true → v.toNat < 64 → s.quiet = true →
      s.roundRegion rid = some r → r.committed = true →
      let g := x.c.val (x.b.after s)
      g &&& 0x0000FFFE0000FFC0#64 = 0#64 →
      let idx := bits g.toNat 0 6
      let c := (x.afterBC s).thr.ctx.owing x.a.rix
      ∀ p ∈ ([(.bgrpAdd x, .add), (.bgrpRm x, .rm), (.bgrpDrop x, .drop)] : List (Instr × RoundOp)),
        r.valid idx = (p.2 != .add) → (p.2 = .drop → idx ≠ r.self) →
        (p.2 ≠ .add → ∃ i ∈ r.members, i ≠ r.self ∧ (p.2 = .drop → i ≠ idx)) → (p.2 = .add → idx ≠ r.self) →
        (p.2 ≠ .add → s.regionNear r = true) →
        ∃ u d, exec p.1 s = .next u ∧ Leaves s u { c with pc := s.pc + 12#64 } ∧ SameThread s u ∧ u.round rid = some d ∧
          d.op = p.2 ∧ d.idx = idx ∧ d.cseq = bits g.toNat 48 16 ∧ (u.roundRegion rid).any (·.roundHold) = true)

/-- breg registers a region; badd updates a block; brd writes estimates; bstep sends half of a block (R315, R316, R317, R320, R326, R331, R332, R333, R335, R336, R343). It rests on the model's own choices or readings of logs 4, 6, 15, 31, 62, 63. -/
def Obligations.BrineDataCommands : Prop :=
  ∀ (x : Args) (s : State), s.Inv → s.enabled x.h = true → s.brineIdle = true → s.quiet = true →
    (∀ bs v m bl s2 ts, x.readyBC s = true → x.a.free (x.afterBC s) = true → (x.afterBC s).noStores = true →
      let s1 := x.afterBC s
      let d := bs.take 128
      let rl := bits (at' d 0x38 8) 8 7
      let r0 := regionOf d ((bs.drop 128).take 512) ((bs.drop 640).take rl) s1
      let nd : Need := { r := true, w := true, e := true, write := true, kind := 1 }
      let ndp : Need := { nd with host := false, far := false }
      s.thr.res.record = some bs → 640 + rl ≤ bs.length → bregBad d = false → r0.tablesBad = false →
      s1.opSpan ndp (wordAt d 0) (r0.nblk * 4096) 1 = some v → s1.opSpan nd (wordAt d 8) (r0.nblk * 8) 1 = some m →
      v % 4096 = 0 → s1.area s1.levelH ndp v (r0.nblk * 4096) = .paged → s1.blocksFrom v r0.nblk 0 = some (bl, s2) →
      (∀ k ∈ bl.map (·.cl), (s2.opSpan nd (wordAt d 0x30 + BitVec.ofNat 64 (k * r0.custn * 4096)) (r0.custn * 4096) 1).isSome = true) →
      s2.cachedSet s2.thr.core s2.task = some ts →
      let cg := bits (ts.seg (bits (wordAt d 0x30).toNat 61 3)).1.toNat 0 56 + bits (wordAt d 0x30).toNat 0 61
      cg % 4096 = 0 →
      let r := { r0 with vbase := v, mbase := m, cbase := cg, blocks := bl }
      s.regions.any (fun e => e.rid == r.rid || (e.id == r.id && e.gen != r.gen)) = false →
      (look r.id s.groupGens).any (fun g => g != 0 && g != r.gen) = false →
      (∀ k, ((r :: s.regions).map fun e => e.blocks.countP fun b => b.cl == k).foldl (· + ·) 0 ≤ 16384) →
      let ok (u : State) : Prop := Leaves s u { s1.thr.ctx.owing x.a.rix with pc := s.pc + 12#64 } ∧ SameThread s u ∧
        ∃ e ∈ u.regions, e.rid = r.rid ∧ e.id = r.id ∧ e.gen = r.gen ∧ e.vbase = v ∧ e.mbase = m ∧ e.cbase = cg ∧
          e.nblk = r.nblk ∧ e.self = r.self ∧ e.table = r.table
      (s.regionNear r = true → ∃ u, exec (.bregJoin x) s = .next u ∧ ok u) ∧
      (let t := (s2.mapRes fun q => { q with record := none }).oweX x.a.rix
       let q := { (t.brineCmd (.bregNew x) r.rid 0#64 0#64 (BitVec.ofNat 64 (bits (at' d 0x18 8) 32 16))) with cand := some r }
       (r.maxMode = true ∨ ∃ p t2, State.gather q.who {} true (List.replicate r.nblk 8) r.mbase 0 q ((t.queued q).asTried (.brine q.id)) = .ok p t2 ∧
          t2.trying = some (.brine q.id, []) ∧
          ∀ w ∈ numsOf 8 r.nblk p.got, w ≤ 2 ^ 57) → ∃ u, exec (.bregNew x) s = .next u ∧ ok u)) ∧
    (∀ r g p t2 a t4,
      let v := x.a.val s
      let rid := bits v.toNat 0 6
      let b := bits v.toNat 16 24
      let s1 := x.afterABC s
      x.a.ready s = true → x.readyBC (x.a.after s) = true → s1.noStores = true → selBad v = false →
      s.region rid = some r → b < r.nblk → (r.block b).bad = false →
      s1.opSpan { r := true, e := true } (x.b.val (x.a.after s) + x.c.val (x.b.after (x.a.after s))) (max 4 (4 * r.elems)) 4 = some g →
      let j := s1.joinTag
      let q := { (j.2.brineCmd (.badd x) rid v (BitVec.ofNat 64 g) 0#64) with join := j.1 }
      State.gather q.who {} false (lineParts 40 q.b.toNat (4 * r.elems)) q.b.toNat 0 q ((j.2.queued q).asTried (.brine q.id)) = .ok p t2 →
      t2.trying = some (.brine q.id, []) → s.regionNear r = true → p.gotBad = false →
      t2.blockAt r b = some (a, t4) → t4.poisoned a 4096 = false →
      let l := List.zipWith (r.addDelta (r.block b).w) (t4.blockVals r a) (numsOf 4 r.elems p.got)
      ∃ u, exec (.badd x) s = .next u ∧ Leaves s u { s1.thr.ctx with pc := s.pc + 12#64 } ∧ SameThread s u ∧
        u.thr.res.cmds = s.thr.res.cmds + 1 ∧ u.readMem a 4096 = (l.map fun z => leBytes r.width z.1).flatten ∧
        (∀ w, w < a ∨ a + 4096 ≤ w → Memory.readByte u.mem w = Memory.readByte s.mem w) ∧
        ∃ k ∈ u.msgs, k.core = s.thr.core ∧ k.chan = slenCh s.thr.ctx.slen ∧ k.msg.kstat = kstat 4 0) ∧
    (∀ t, let v := x.b.val (x.a.after s)
      let rid := bits v.toNat 0 6
      let b := bits v.toNat 16 24
      let s1 := x.afterABC s
      let n := (x.c.val (x.b.after (x.a.after s))).toNat
      x.a.ready s = true → x.readyBC (x.a.after s) = true → s1.noStores = true → selBad v = false → n < 2 ^ 24 →
      ∀ g, s1.opSpan { w := true, e := true, write := true, kind := 1 } (x.a.val s) (n * brdSize t (s1.elemsAt rid)) (if t = .f32 then 4 else if t = .b16 then 2 else 64) = some g →
        let j := s1.joinTag
        let q := { (j.2.brineCmd (.brd t x) rid (BitVec.ofNat 64 g) v (BitVec.ofNat 64 n)) with join := j.1 }
        ∃ u, exec (.brd t x) s = .next u ∧ Leaves s u { s1.thr.ctx with pc := s.pc + 12#64 } ∧ SameThread s u ∧
          u.thr.res.cmds = s.thr.res.cmds + 1 ∧
          ∀ r ls t2 a t3 fl uw bs t4, n = 1 → s.region rid = some r → b < r.nblk → (r.block b).bad = false →
            State.findSpan q.who nEngWrite (lineParts 80 q.a.toNat (brdSize t r.elems)) q.a.toNat ((j.2.queued q).asTried (.brine q.id)) = .ok ls t2 →
            t2.trying = some (.brine q.id, []) → s.regionNear r = true →
            (∀ p ∈ ls, ∃ a h pg lf, p.1 = .mem a h pg lf ∧ t2.chanWaits a = false) → t2.blockAt r b = some (a, t3) →
            t3.poisoned a 4096 = false → r.estimates t (r.block b).w (t3.blockVals r a) = (bs, fl, uw) →
            State.writeSpan q.id q.core false ls bs t3 = (0, t4) →
            u.mem = t4.mem ∧ ∃ k ∈ u.msgs, k.core = s.thr.core ∧ k.chan = slenCh s.thr.ctx.slen ∧ k.msg.kstat = kstat 4 0 ∧
              k.msg.d0 = (fl.setWidth 64 ||| (if uw then 0x20#64 else 0#64))) ∧
    (let v := x.b.val s
      let rid := bits v.toNat 0 6
      let b := bits v.toNat 16 24
      let tg := (x.c.val (x.b.after s)).toNat
      let s1 := x.afterBC s
      let t := (s1.oweX x.a.rix).queued (s1.brineCmd (.bstep x) rid 0#64 v (x.c.val (x.b.after s)))
      x.readyBC s = true → x.a.free s1 = true → s1.noStores = true → selBad v = false → tg < 64 →
      ∀ r a t2, s.region rid = some r → b < r.nblk → tg ≠ r.self → r.valid tg = true → r.roundHold = false →
        s.regionNear r = true → (r.block b).bad = false → t.blockAt r b = some (a, t2) → t2.poisoned a 4096 = false →
        entLocal (r.table.getD tg 0#64) = true → (r.maxMode = true ∨ (t2.freeCust r (r.block b).cl tg).isSome = true) →
        let vs := t2.blockVals r a
        ∃ u h, exec (.bstep x) s = .next u ∧ Leaves s u { s1.thr.ctx.owing x.a.rix with pc := s.pc + 12#64 } ∧ SameThread s u ∧
          u.halves = s.halves ++ [h] ∧ h.target = tg ∧ h.blk = b ∧ h.copy = r.maxMode ∧
          h.vals = (if r.maxMode then vs else vs.map fun w => (halve r.f32 w).1).map (BitVec.ofNat 64) ∧
          h.w = (if r.maxMode then 0 else (r.block b).w / 2) ∧ ∃ q ∈ u.brineQ, q.started = true ∧ q.core = s.thr.core ∧ q.cxa = s.thr.ctx.cxa)

/-- sret, tlbi, tlbw, cmap.rd, cmap.map, cmap.dead, srd and swr: their results and what they write (R361, R363, R364, R365, R366, R367, R370, R403, R424). It rests on the model's own choices or readings of logs 6, 13, 14, 19, 43. -/
def Obligations.SystemTablesAndMap : Prop :=
  ∀ (x : Args) (s : State), s.isThere = true → s.enabled x.h = true → x.readyBC s = true → (x.afterBC s).noStores = true →
    let b := x.b.val s
    let c := x.c.val (x.b.after s)
    let s1 := x.afterBC s
    let c1 := s1.thr.ctx
    (b.toNat % 4 = 0 → c.toNat % 4 = 0 → ∃ u, exec (.sret x) s = .next u ∧
      Transferred s u { c1 with st := (c &&& 0x00000000FFFF07FF#64) ||| (s.st &&& 0x0000FFFF00000000#64) } b) ∧
    (x.a.free s1 = true → b.toNat < 512 → ∀ sc,
      (∀ sel, tlbSel c = some sel → ∃ u, exec (.tlbi sc x) s = .next u ∧ u.tgen = s.tgen + 1#32 ∧
        Advanced s u (c1.writeX x.a.rix ((s.tgen + 1#32).setWidth 64))) ∧
      (c.toNat ≤ s.tgen.toNat → s.genBusy (scopeClusters sc b.toNat) c.toNat = false → ∃ u, exec (.tlbw sc x) s = .next u ∧
        Completed s u (c1.writeX x.a.rix 0#64))) ∧
    (x.a.free s1 = true → c.toNat < 0x800 → ∀ m, Config.nCores > b.toNat → (s.mapEntry b.toNat).1 = .dead →
      s.spareAt (posDie (s.mapEntry b.toNat).2.1 (s.mapEntry b.toNat).2.2) (bits c.toNat 5 6) (bits c.toNat 0 5) = some m →
      ∃ u, exec (.cmapMap x) s = .next u ∧ Leaves s u { c1.writeX x.a.rix 0#64 with pc := s.pc + 12#64 } ∧ SameThread s u ∧
        u.mapEntry b.toNat = (.live, bits c.toNat 5 6, bits c.toNat 0 5) ∧ (u.mapEntry m).1 = .unmapped ∧
        (∀ n, n ≠ b.toNat → n ≠ m → u.mapEntry n = s.mapEntry n) ∧
        ∀ i, i < 0x100000 → Memory.readByte u.mem (coreAddr b.toNat 0 + i) = 0#8) ∧
    (let s1 := x.b.after s
     s1.noStores = true → x.a.free s1 = true → b.toNat < Config.nCores →
      (∃ u, exec (.cmapRd x) s = .next u ∧ Completed s u (s1.thr.ctx.writeX x.a.rix (mapWord (s.mapEntry b.toNat)))) ∧
      (isHearth b.toNat = true → ∃ u, exec (.cmapDead x) s = .next u ∧ Completed s u (s1.thr.ctx.writeX x.a.rix 7#64)) ∧
      (isHearth b.toNat = false → ∃ u, exec (.cmapDead x) s = .next u ∧ (u.mapEntry b.toNat).1 = .dead ∧
        (u.mapEntry b.toNat).2 = (s.mapEntry b.toNat).2 ∧ (u.core b.toNat).l2 = [] ∧ (u.core b.toNat).runq = [] ∧
        (u.core b.toNat).copies = [] ∧ (u.core b.toNat).streamQ = [] ∧ (u.core b.toNat).panQ = [] ∧
        (s.thr.core ≠ b.toNat → s.waiters = [] → s.attached b.toNat = [] →
          Leaves s u { s1.thr.ctx.writeX x.a.rix 0#64 with pc := s.pc + 12#64 } ∧ SameThread s u))) ∧
    (b.toNat < Config.nCores → sysRegAssigned c.toNat = true → x.a.free s1 = true →
      (c.toNat ≠ 0x011 → ∃ u, exec (.srd x) s = .next u ∧
        Completed s u (c1.writeX x.a.rix (s.sysRead c.toNat b.toNat))) ∧
      (c.toNat = 0x011 → ∃ u, exec (.srd x) s = .next u ∧ u.thr.wait = .mailbox b.toNat x.a.rix ∧ Leaves s u (c1.owing x.a.rix) ∧
        MemKept s u)) ∧
    (let a := x.a.val s
      let b := x.b.val (x.a.after s)
      let k := (x.c.val (x.b.after (x.a.after s))).toNat
      let s3 := x.afterABC s
      x.a.ready s = true → x.readyBC (x.a.after s) = true → s3.noStores = true → b.toNat < Config.nCores → sysRegWritable k = true →
      let d := s.coreDie b.toNat
      (slowReg k = false → ∃ u, exec (.swr x) s = .next u ∧ Advanced s u s3.thr.ctx ∧
        (k = 0x020 → (u.die d).frb = a &&& ~~~0x3FFF#64) ∧ (k = 0x022 → (u.die d).frr = a) ∧
        (k = 0x023 → (u.die d).ecnt = a) ∧ (k = 0x0F0 → 400 ≤ a.toNat → a.toNat ≤ 1250 → u.pcap = a) ∧
        ∀ n, n ≠ d → u.die n = s.die n) ∧
      (slowReg k = true → ∃ u, exec (.swr x) s = .next u ∧ u.thr.wait = .sys ∧ Leaves s u s3.thr.ctx ∧ MemKept s u ∧
        u.sysWrites = s.sysWrites ++ [⟨s.thr.core, s.thr.ctx.cxa, k, b.toNat, a⟩]))

/-- wkx, cxf, psw, evict, prh, pgd and halt act on threads, partitions, walks and cores (R347, R351, R355, R356, R363, R368, R369, R371, R372, R373, R374, R375). It rests on the model's own choices or readings of logs 16, 34, 60. -/
def Obligations.SystemThreadsAndWalks : Prop :=
  ∀ (x : Args) (s : State), s.isThere = true → s.enabled x.h = true → x.readyBC s = true → (x.afterBC s).noStores = true →
    let b := x.b.val s
    let c := x.c.val (x.b.after s)
    let s1 := x.afterBC s
    let s2 := x.b.after s
    let c1 := s1.thr.ctx
    let st (u : State) (w : Word) : Prop := Leaves s u { c1.writeX x.a.rix w with pc := s.pc + 12#64 } ∧ SameThread s u
    let st1 (u : State) (w : Word) : Prop := Leaves s u { s2.thr.ctx.writeX x.a.rix w with pc := s.pc + 12#64 } ∧ SameThread s u
    let cause : BitVec 8 := c.extractLsb' 0 8
    let page : Word := BitVec.ofNat 64 (bits c.toNat 16 40 * 2 ^ 16)
    let band := s.bandCores (bits c.toNat 8 5) b
    let sent (i : Instr) (l : List Nat) (w : WakeOf) : Prop := ∃ u, exec i s = .next u ∧
      u.flue = s.flue ++ l.map (s.wakeFlit w) ∧ (l = [] → Advanced s u (c1.writeX x.a.rix 0#64)) ∧
      (l ≠ [] → Advanced s u (c1.owing x.a.rix))
    (x.a.free s1 = true → bits c.toNat 56 8 = 0 →
      (bits c.toNat 13 3 = 0 → (cause = cPGF ∨ cause = cREV ∨ cause = cWLK) → sent (.wkxPage x) band ⟨⟨cause, page⟩, c, 0#64, false⟩) ∧
      (b.toNat < Config.nCores → (cause = cMCK ∨ cause = cDBG ∨ cause = cESC ∨ cause = cHOLD) →
        sent (.wkxThr x) [b.toNat] ⟨⟨cause, cxaBits c⟩, c, cxaBits c, false⟩) ∧
      (bits c.toNat 13 3 = 0 → ∃ u n, exec (.cxf x) s = .next u ∧ Advanced s u (c1.writeX x.a.rix (field n 32)) ∧
        (∀ k ∈ band, ∀ e ∈ (u.core k).runq, inPage e.cxa c = true → e.cf = false))) ∧
    (x.a.free s1 = true → b.toNat < Config.nCores →
      sent (.wkxEnd x) [b.toNat] ⟨⟨0#8, c⟩, c, c, true⟩ ∧
      (s.findThr b.toNat c = none → ∃ u, exec (.evict x) s = .next u ∧ Completed s u (c1.writeX x.a.rix 1#64)) ∧
      (∀ t a, s.findThr b.toNat c = some t → s.thr.isAt b.toNat c = false → t.slot = none → t.pinC = false → t.pinG = false →
        t.place ≠ .record → s1.recordHome t = some a → s.recordNear t.core (t.ctx.st.extractLsb' 16 16) t.ctx.cxa = true →
        ∃ u, exec (.evict x) s = .next u ∧ st u 0#64 ∧ (u.findThr b.toNat c).map (·.place) = some .record ∧
          ∀ w, w < a ∨ a + 256 ≤ w → Memory.readByte u.mem w = Memory.readByte s.mem w)) ∧
    (x.a.free s1 = true → b.toNat < Config.nCores → c.toNat < 7 → s.thr.core ≠ b.toNat →
      let at7 := (s.attached b.toNat).find? fun t => decide (t.slot = some c.toNat)
      ∀ p ∈ ([(.prhUnb x, .unb), (.prhEvc x, .evc), (.prhHold x, .hold)] : List (Instr × PrhForm)),
        (at7 = none → ∃ u, exec p.1 s = .next u ∧ Completed s u (c1.writeX x.a.rix 1#64)) ∧
        (∀ t, at7 = some t → s.attached b.toNat = [t] → s.recordsNear b.toNat = true → ∃ u q, exec p.1 s = .next u ∧ st u (field (s1.preempt p.2 t).1 0 ||| cxaBits t.ctx.cxa) ∧
          u.findThr b.toNat t.ctx.cxa = some q ∧ q.slot = none ∧ (p.2 = .hold → t.pinG = false → q.wait = .dropped ⟨cHOLD, t.ctx.cxa⟩) ∧
          (p.2 = .unb → (u.core b.toNat).runq = (s.core b.toNat).runq ++ [{ cxa := t.ctx.cxa, org := 3#2 }]))) ∧
    (∀ e, (s.core s.thr.core).mbox.find? (fun m => m.idx == bits b.toNat 0 4) = some e → s.walkers s.thr.core e.idx = [] →
      (b &&& 0xFFFFFFFFFFFFFEF0#64 = 0#64 → wellFormedLeaf c (bit b.toNat 8) = true → e.stale = false →
        ∃ u, exec (.pgdFill x) s = .next u ∧ Advanced s u c1 ∧ (∀ m ∈ (u.core s.thr.core).mbox, m.idx ≠ e.idx) ∧
          (lfV c = true → lfP c = true → u.cluster s.myCluster =
            ClusterSt.install e.task (e.page * 2 ^ 16) c (bit b.toNat 8) (s.cluster s.myCluster))) ∧
      (b.toNat < 16 → s2.noStores = true → ∃ u, exec (.pgdFail x) s = .next u ∧ Advanced s u s2.thr.ctx ∧
        ∀ m ∈ (u.core s.thr.core).mbox, m.idx ≠ e.idx)) ∧
    (s2.noStores = true → x.a.free s2 = true →
      (b.toNat < Config.nCores →
        (isHearth b.toNat = true → ∃ u, exec (.haltCore x) s = .next u ∧ Completed s u (s2.thr.ctx.writeX x.a.rix 7#64)) ∧
        (isHearth b.toNat = false → (∃ u, exec (.haltCore x) s = .next u ∧ (u.core b.toNat).halted = true ∧
            (s.thr.core ≠ b.toNat → st1 u 0#64)) ∧
          ∃ u, exec (.haltRun x) s = .next u ∧ (u.core b.toNat).halted = false ∧ st1 u 0#64)) ∧
      (b.toNat < 8 →
        let l := s.partCores b.toNat
        (∃ u, exec (.haltPart x) s = .next u ∧ (∀ n ∈ l, (u.core n).halted = true) ∧ (s.thr.core ∉ l → st1 u 0#64)) ∧
        (∃ u, exec (.haltPrun x) s = .next u ∧ (∀ n ∈ l, (u.core n).halted = false) ∧ st1 u 0#64) ∧
        (l.Nodup → l.find? (fun n => (s.pswFails n).isSome) = none → s.partBusy b.toNat = false → s.thr.core ∉ l →
          ∃ u, exec (.psw x) s = .next u ∧ st1 u 0#64 ∧ ∀ n ∈ l, (u.core n).joins = (s.core n).saved.joins ∧
            (u.core n).saved.joins = (s.core n).joins ∧ (u.core n).saved.runq = (s.core n).runq ∧
            (l = [n] → (u.core n).saved.threads = (s.attached n).filter fun t => !t.isWalker))))

/-- qmap, qunm, qsw, qlch, qdl, qst and qsig: the status in A and what the slot, memory or vector holds after (R377, R381, R384, R388, R391, R392, R393, R394, R395, R396). It rests on the model's own choices or readings of logs 4, 15, 36, 58. -/
def Obligations.QueueInstructions : Prop :=
  ∀ (x : Args) (s : State), s.Inv → s.isThere = true → s.enabled x.h = true → x.b.ready s = true → (x.b.after s).noStores = true →
    let b := x.b.val s
    let s1 := x.b.after s
    let c1 := s1.thr.ctx
    let d := s.myDie
    let can (g : Word) (t : State) : Prop := g.toNat + 64 ≤ Config.physEnd ∧ t.chanWaits g.toNat = false ∧
      t.homeDead (home0 g.toNat) = false ∧ t.poisoned g.toNat 64 = false
    let fits (t : State) (w : List Word) : Prop := descFault d w = none ∧
      ∀ e ∈ [0, 1, 2, 3], ∀ q ∈ (t.die e).slots, q.qid ≠ bits (w.getD 1 0#64).toNat 8 12
    let has (u : State) (k : Nat) (w : List Word) : Prop := ∃ q, u.qslot d k = some q ∧ q.rbase = w.getD 0 0#64 ∧
      q.word8 = w.getD 1 0#64 ∧ q.head = (w.getD 2 0#64).toNat ∧
      q.st = (if s.badTail q then .error else if q.head < s.tail q.qid then .run else .idle)
    (x.a.free s1 = true →
      (∀ k, let w := wordsOfBytes 8 (s.readMem b.toNat 64)
        b.toNat % 64 = 0 → can b s → fits s w → freshFrom ((s.die d).slots.map (·.slot)) 0 64 = some k →
        ∃ u, exec (.qmap x) s = .next u ∧ Advanced s u (c1.writeX x.a.rix (field k 32)) ∧ has u k w) ∧
      (∀ q, b.toNat < 64 → s.qslot d b.toNat = some q → q.wave = none → can q.desc s → s.quiet = true →
        ∃ u, exec (.qunm x) s = .next u ∧ Leaves s u { c1.writeX x.a.rix (field q.qid 32) with pc := s.pc + 12#64 } ∧
          SameThread s u ∧ u.qslot d b.toNat = none ∧ OutsideKept s u (q.desc.toNat + 16) 48 ∧
          u.readMem (q.desc.toNat + 16) 48 = ((s.savedWords d q).map fun w => leBytes 8 w.toNat).flatten) ∧
      (b.toNat < 64 → ∀ o : Option QSlot, s.qslot d b.toNat = o →
        (o = none → ∃ u, exec (.qunm x) s = .next u ∧ Completed s u (c1.writeX x.a.rix 1#64)) ∧
        (∃ u, exec (.qdlRd x) s = .next u ∧ Completed s u (c1.writeX x.a.rix (BitVec.ofNat 64 (s.leftOf o)))) ∧
        (∃ u, exec (.qdlStop x) s = .next u ∧ Advanced s u (c1.writeX x.a.rix (BitVec.ofNat 64 (s.leftOf o))) ∧
          u.qslot d b.toNat = o.map fun q => { q with dl := none }) ∧
        (∃ u, exec (.qstSlot x) s = .next u ∧ Completed s u (c1.writeX x.a.rix (s.slotWord o))) ∧
        (∃ u, exec (.qstClr x) s = .next u ∧ Advanced s u (c1.writeX x.a.rix (s.slotWord o)) ∧
          ∀ q, o = some q → s.badTail q = false → ∃ r, u.qslot d b.toNat = some r ∧ r.miss = false ∧ r.err = 0 ∧ r.head = q.head ∧
            (q.st = .run ∨ q.st = .idle → r.st = q.st) ∧
            (q.st = .error ∨ q.st = .block → r.st = if q.head < s.tail q.qid then .run else .idle)) ∧
        (∃ u, exec (.qstSkip x) s = .next u ∧ Advanced s u (c1.writeX x.a.rix (s.slotWord o)) ∧
          ∀ q, o = some q → (q.st = .error ∨ q.st = .block) → ∃ r, u.qslot d b.toNat = some r ∧ r.miss = false ∧
            r.head = q.head + q.span)) ∧
      (b.toNat < 4096 → ∃ u, exec (.qstBell x) s = .next u ∧
        Completed s u (c1.writeX x.a.rix ((look b.toNat s.bells).getD 0#64))) ∧
      (b.toNat < 2048 → ∃ u, exec (.qsigIrq x) s = .next u ∧ Advanced s u (c1.writeX x.a.rix 0#64) ∧
        ((∀ r ∈ s.flight, r.src ≠ s.thr.core ∨ r.home ≠ hostHome) →
          (s.msixMasked b.toNat = true → b.toNat ∈ u.pba ∧ u.hostTx = s.hostTx) ∧
          (s.msixMasked b.toNat = false → s.hostHold = none → u.hostTx = s.hostTx ++
            [.msix b.toNat (s.msixEntry b.toNat).1 ((s.msixEntry b.toNat).2 &&& 0xFFFFFFFF#64)])))) ∧
    (x.c.ready s1 = true → x.a.free (x.afterBC s) = true →
      let c := x.c.val s1
      let c2 := (x.afterBC s).thr.ctx
      (∀ o : Option QSlot, b.toNat < 64 → s.qslot d b.toNat = o →
        let n (u : Deadline) := (max 1 ((u.left (s.die d).cyc : Int) + c.toInt)).toNat
        ∃ u, exec (.qdlAdd x) s = .next u ∧
          Advanced s u (c2.writeX x.a.rix (BitVec.ofNat 64 (((o.bind (·.dl)).map n).getD 0))) ∧
          u.qslot d b.toNat = o.map fun q => { q with dl := q.dl.map fun v => { v with count := n v, base := (s.die d).cyc } }) ∧
      (∀ q, b.toNat < 64 → c.toNat % 64 = 0 → can c s → s.qslot d b.toNat = some q → q.wave = none → can q.desc s → s.quiet = true →
        let s2 := s.unmapQ d q
        let w := wordsOfBytes 8 (s2.readMem c.toNat 64)
        fits s2 w → ∃ u, exec (.qsw x) s = .next u ∧
          Leaves s u { c2.writeX x.a.rix (field b.toNat 32) with pc := s.pc + 12#64 } ∧ SameThread s u ∧ has u b.toNat w ∧
          u.readMem (q.desc.toNat + 16) 48 = s2.readMem (q.desc.toNat + 16) 48) ∧
      (∀ a home pg lf t, b.toNat % 8 = 0 → (x.afterBC s).settled .dev none = true →
        (x.afterBC s).locate ⟨s.thr.core, 0#16, true⟩ (nAmo false) b.toNat 8 = .loc (.mem a home pg lf) t →
        t.chanWaits a = false → t.homeDead home = false → t.poisoned a 8 = false → s.unwatched a 8 = true →
        ∃ u, exec (.qsigCtr x) s = .next u ∧ Leaves s u { c2.writeX x.a.rix 0#64 with pc := s.pc + 12#64 } ∧ SameThread s u ∧
          u.readWord a = s.readWord a + c ∧ OutsideKept s u a 8)) ∧
    (let a := (x.ea s).toNat;
      x.readyBC s = true → (x.afterBC s).noStores = true → x.a.free (x.afterBC s) = true → (x.afterBC s).destsFree (x.a.rix + 1#4) 1 →
      s.thr.res.launch = none → a % 128 = 0 → a + 128 ≤ Config.physEnd → s.chanWaits a = false → s.homeDead (home0 a) = false →
      s.poisoned a 128 = false →
      let w := wordsOfBytes 16 (s.readMem a 128)
      let l := s.launchOf w
      let c2 := (x.afterBC s).thr.ctx
      (w.getD 0 0#64).toNat % 256 = 1 → (commandOf w).cmdOk = true → l.bad = false →
      (∀ n ∈ l.named, bootDie n = d ∧ s.homeDead n = false ∧ s.rdyc.contains (s.coreCluster n) = true) →
      s.doneTrap l.task s.thr.core l.desc.done = none →
      (l.shape = 0 → s.waveNear l = true ∧ ∀ n ∈ l.cores, (s.attached n).length + l.desc.quota ≤ 4096) →
      ∃ u h, exec (.qlch x) s = .next u ∧ h ≠ 0#64 ∧
        Leaves s u { (c2.writeX x.a.rix 0#64).writeX (x.a.rix + 1#4) h with pc := s.pc + 12#64 } ∧
        ∃ p ∈ u.pops, p.handle = h ∧ p.task = l.task ∧ p.pc = l.desc.pc ∧ p.count = l.desc.count ∧ p.quota = l.desc.quota ∧
          p.cores = l.cores ∧ p.tixb = l.tixb)

/-- LAUNCH, SIGNAL, WAIT, DEADLINE, MARK and FENCE at the head of a queue; dispatch, unblocking, expiry (R378, R379, R380, R382, R383, R384, R387). It rests on the model's own choices or readings of log 36. -/
def Obligations.QueueCommands : Prop :=
  ∀ (die slot : Nat) (s : State) (q : QSlot), s.Inv → s.qslot die slot = some q →
    let past (u : State) (n : Nat) : Prop := u.thr = s.thr ∧ ∃ r, u.qslot die slot = some r ∧ r.head = q.head + n ∧ r.words = [] ∧
      r.started = false ∧ r.wave = none
    let held (u : State) : Prop := u.thr = s.thr ∧ (u.qslot die slot).map (·.st) = some .block ∧ u.mem = s.mem
    let v := q.value
    let z := s.asTried (.queue die slot)
    (s.stokes die = false → exec (.queueDispatch die) s = .next s) ∧
    (s.stokes die = true → q.st = .run → q.started = true →
      (∀ a home pg lf t, q.op = 2 → z.qplace die q (nAmo false) q.addr = some (.mem a home pg lf, t) → t.chanWaits a = false →
        t.homeDead home = false → t.poisoned a 8 = false → s.quiet = true →
        ∃ u, exec (.signal die slot) s = .next u ∧ past u 1 ∧ u.readWord a = s.readWord a + v ∧ OutsideKept s u a 8) ∧
      (∀ a home pg lf t, q.op = 5 → z.qplace die q nStore q.addr = some (.mem a home pg lf, t) → t.chanWaits a = false →
        t.homeDead home = false → t.chanFailed a = false → s.quiet = true →
        ∃ u, exec (.mark die slot) s = .next u ∧ past u 1 ∧ u.readWord a = v ∧ u.isFull a = true ∧ OutsideKept s u a 8) ∧
      (∀ o t, q.op = 5 → z.qplace die q nStore q.addr = some (.host o, t) → s.hostHold = none →
        ∃ u, exec (.mark die slot) s = .next u ∧ past u 1 ∧ .memWrite o (leBytes 8 v.toNat) ∈ u.hostTx ∧ u.mem = s.mem) ∧
      (∀ a home pg lf t, q.op = 3 → z.qplace die q nWtw q.addr = some (.mem a home pg lf, t) → t.chanWaits a = false →
        t.homeDead home = false → t.poisoned a 8 = false → q.met = false → ∃ u, exec (.wait die slot) s = .next u ∧
          (v.toNat ≤ (s.readWord a).toNat → past u 1 ∧ u.mem = s.mem) ∧ ((s.readWord a).toNat < v.toNat → held u)) ∧
      (q.op = 6 → ∃ u, exec (.queueFence die slot) s = .next u ∧ (s.fenceClear q = true → past u 1 ∧ u.mem = s.mem) ∧
        (s.fenceClear q = false → held u)) ∧
      (q.op = 4 → q.dl.isSome = true → ∃ u, exec (.deadline die slot) s = .next u ∧ held u) ∧
      (∀ n t, q.op = 4 → q.dl = none → z.armQ die q q.addr v (q.words.getD 3 0#64).toNat = some (n, t) → t.trying = z.trying →
        ∃ u, exec (.deadline die slot) s = .next u ∧ past u 1 ∧ u.mem = s.mem ∧
          (u.qslot die slot).bind (·.dl) = if t.deadlineMet n then none else some n) ∧
      (let l := s.launchOf q.words
       q.op = 1 → q.wave = none → (q.task = 0#16 ∨ l.task = q.task) → l.bad = false →
       (∀ n ∈ l.named, bootDie n = die ∧ s.homeDead n = false ∧ s.rdyc.contains (s.coreCluster n) = true) → (l.shape = 0 → s.waveNear l = true) →
       s.doneTrap l.task (hearthOf die) l.desc.done = none → (∀ p ∈ s.pops, p.ix ≠ s.serial + 1) →
       ∃ u p, exec (.launch die slot) s = .next u ∧ p ∈ u.pops ∧ p.queue = some q.qid ∧ p.task = l.task ∧ p.pc = l.desc.pc ∧
         p.count = l.desc.count ∧ p.quota = l.desc.quota ∧ p.cores = l.cores ∧ p.tixb = l.tixb)) ∧
    (s.stokes die = true → q.st = .block → q.op = 6 → s.fenceClear q = true → ∃ u, exec (.queueUnblock die slot) s = .next u ∧ past u 1 ∧ u.mem = s.mem) ∧
    (∀ u, q.dl = some u → ∃ t, exec (.deadlineExpire die slot) s = .next t ∧ t.thr = s.thr ∧ t.mem = s.mem ∧
      (s.deadlineMet u = true → 0 < u.left (s.die die).cyc → t.qslot die slot = some { q with dl := none }) ∧
      (u.left (s.die die).cyc = 0 → t.qslot die slot = some { q with miss := true, dl := none } ∧
        ∃ m ∈ t.msgs, m.core = hearthOf die ∧ m.chan = 7 ∧ m.msg.kstat = kstat 7 2 ∧ m.msg.d2 = u.addr) ∧
      (s.deadlineMet u = false → 0 < u.left (s.die die).cyc → u.anew = false → t = s)) ∧
    (s.stokes die = true → ((s.die die).roundRobin.find? s.canRead = some q) → let g := q.entryAt (q.head + q.words.length / 8)
      s.chanWaits g = false → g + 64 ≤ Config.physEnd → s.homeDead (home0 g) = false → s.poisoned g 64 = false →
      ∃ u, exec (.queueDispatch die) s = .next u ∧ u.thr = s.thr ∧ u.mem = s.mem ∧
        u.qslot die slot = some { q with words := q.words ++ wordsOfBytes 8 (s.readMem g 64) }) ∧
    (s.stokes die = true → (s.die die).roundRobin.find? s.canRead = none → bestSlot (s.die die).roundRobin = some q → q.cmdOk = true →
      ∃ u, exec (.queueDispatch die) s = .next u ∧ u.thr = s.thr ∧ u.mem = s.mem ∧
        u.qslot die slot = some { q with started := true } ∧ (u.die die).rr = q.slot)

/-- Doorbell, BAR2, MBELL, BAR4 and completion events: what the host writes, reads and answers (R179, R379, R380, R381, R430). It rests on the model's own choices or readings of logs 28, 36, 37. -/
def Obligations.HostPortEvents : Prop :=
  ∀ (s : State), s.Inv → s.dieFatal 0 = false →
    (∀ off size val o, s.hostIn = [o] → s.hostWaits o = true →
      exec (.doorbellWrite off size val) s = .next { s with hostIn := [o, .bell off size val] }) ∧
    (s.hostIn = [] → ∀ off val, off % 4096 = 0 → off < 2 ^ 24 → ∃ u, exec (.doorbellWrite off 8 val) s = .next u ∧ u.thr = s.thr ∧ u.mem = s.mem ∧
      u.tail (off / 4096) = val.toNat ∧ (∀ n, n ≠ off / 4096 → u.tail n = s.tail n) ∧
      ∀ q, (s.die 0).slots.find? (fun q => q.qid == off / 4096) = some q → q.st = .idle → q.head ≤ val.toNat →
        val.toNat ≤ q.head + q.size → (u.qslot 0 q.slot).map (·.st) = some (if q.head < val.toNat then .run else .idle)) ∧
    (s.hostIn = [] → ∀ off size val, (size ≠ 8 ∨ off % 4096 ≠ 0) → exec (.doorbellWrite off size val) s = .next s) ∧
    (∀ off (bs : List Byte) (ro : Bool) a home, s.bar2Place off bs.length = some (a, home) → s.hostIn = [] → s.chanWaits a = false →
      s.chanFailed a = false → s.homeDead home = false → s.quiet = true → ∃ u, exec (.bar2Write off bs ro) s = .next u ∧ u.thr = s.thr ∧
        u.readMem a bs.length = bs ∧ OutsideKept s u a bs.length) ∧
    (∀ off size tag a home, s.bar2Place off size = some (a, home) → s.hostIn = [] → s.chanWaits a = false → s.homeDead home = false →
      s.hostHold = none → s.poisoned a size = false → exec (.bar2Read off size tag) s =
        .next { s with hostTx := s.hostTx ++ [.complete tag (s.readMem a size)] }) ∧
    (∀ val, let w (i : Nat) : Word := s.mboxRegs.getD i 0#64
      s.ringOpen 0 6 = true → ∃ u, exec (.mbell val) s = .next u ∧ u.thr = s.thr ∧
        Entered s u 0 6 ⟨(w 0).setWidth 32, BitVec.ofNat 16 ((w 0).toNat / 2 ^ 40 % 256 * 256), 0xFFFF#16, w 1, w 2, w 3⟩) ∧
    (∀ off size val, 0 < size → off % 8 + size ≤ 8 →
      (off < 0x20 → off / 8 < s.mboxRegs.length → ∃ u, exec (.hostRegisterWrite off size val) s = .next u ∧
        u = { s with mboxRegs := u.mboxRegs } ∧
        u.mboxRegs.getD (off / 8) 0#64 = spliceWord (s.mboxRegs.getD (off / 8) 0#64) (off % 8) size val ∧
        ∀ i, i ≠ off / 8 → u.mboxRegs.getD i 0#64 = s.mboxRegs.getD i 0#64) ∧
      (off / 8 * 8 = 0x100 → w2baseOk (spliceWord s.w2base (off % 8) size val) = true →
        exec (.hostRegisterWrite off size val) s = .next { s with w2base := spliceWord s.w2base (off % 8) size val }) ∧
      (0x10000 ≤ off → off < 0x18000 → ∃ u, exec (.hostRegisterWrite off size val) s = .next u ∧ u.thr = s.thr ∧ u.mem = s.mem ∧
        let e := s.msixEntry ((off - 0x10000) / 16)
        u.msixEntry ((off - 0x10000) / 16) = (if off % 16 < 8 then (spliceWord e.1 (off % 8) size val, e.2)
          else (e.1, spliceWord e.2 (off % 8) size val &&& 0x1FFFFFFFF#64))) ∧
      (off = 0x20000 → ∃ u, exec (.hostRegisterWrite off size val) s = .next u ∧ u.thr = s.thr ∧ u.mem = s.mem ∧
        u.fmask = val.getLsbD 14)) ∧
    (∀ tag data r, s.hostReads.find? (fun r => r.tag == tag) = some r →
      (8 < r.left → ∃ u, exec (.pcieCompletion tag 0 data) s = .next u ∧ u.thr = s.thr ∧ u.mem = s.mem ∧
        u.hostReads.find? (fun r => r.tag == tag) = some { r with got := r.got ++ leBytes 8 data.toNat, left := r.left - 8 }) ∧
      (∀ ix p, r.left ≤ 8 → r.owner = .pop ix → s.findPop ix = some p → ∃ u, exec (.pcieCompletion tag 0 data) s = .next u ∧
        u.thr = s.thr ∧ u.hostReads.length + 1 = s.hostReads.length ∧ u.findPop ix = some { p with complete := true, heldAt := none }))

/-- Scheduler steps: results that land, binding, filling, quanta, admissions, arrivals, completion adds (R48, R51, R74, R79, R80, R82, R85, R97, R99, R140, R428, R430). It rests on the model's own choices or readings of logs 5, 11, 12, 15, 20, 24, 49, 55, 64. -/
def Obligations.ThreadEvents : Prop :=
  ∀ (s : State), (∀ (core : Nat) (cxa : Word) (t : Thread), s.findThr core cxa = some t →
    (t.wait = .fetch → ∃ u, exec (.fetchReady core cxa) s = .next u ∧ u.mem = s.mem ∧
      let n := (s.now core - t.fetchAt).toNat
      u.findThr core cxa = some { t.age (n - t.fetchAhead) with wait := .ready, turns := t.turns + n / 8 }) ∧
    (∃ u, exec (.writeBack core cxa) s = .next u ∧ u.mem = s.mem ∧ u.findThr core cxa = some (t.age (nextBack t.res.fixed))) ∧
    (∀ k, t.slot = some k → s.inSlot core k = some t →
      (0 < t.skip → t.wait = .ready → ∃ u, exec (.skippedTurn core k) s = .next u ∧ u.mem = s.mem ∧
        u.findThr core cxa = some { t with skip := t.skip - 1, turns := t.turns + 1 }) ∧
      (256 ≤ t.turns → (s.core core).runq.any (fun e => !e.cf) = true → ∃ u, exec (.quantumEnd core k) s = .next u ∧ u.mem = s.mem ∧
        (u.findThr core cxa).map (fun v => (v.slot, v.wait, v.ctx)) = some (none, .ready, t.final) ∧
        (u.core core).runq = (s.core core).runq ++ [{ cxa := cxa, org := 3#2 }])) ∧
    (∀ k o, s.owed[k]? = some o → o.core = core → o.cxa = cxa → (∀ bs, o.dest ≠ .reply bs) → (∀ v ∈ s.attached core, v.backDue = false) →
      ((s.core core).dead = true → exec (.resultLand k) s = .next { s with owed := dropAt k s.owed }) ∧
      ((s.core core).dead = false →
        (t.place ≠ .record → ∃ u, exec (.resultLand k) s = .next u ∧ u.owed = dropAt k s.owed ∧
          u.findThr core cxa = some (o.land t) ∧ u.mem = s.mem) ∧
        (∀ a, t.place = .record → t.raw = false → t.abroad = [] → s.recordHome t = some a →
          s.recordNear core (t.ctx.st.extractLsb' 16 16) cxa = true → ∃ u, exec (.resultLand k) s = .next u ∧ u.owed = dropAt k s.owed ∧
            u.findThr core cxa = some (o.land (s.loadRecord a t)) ∧
            u.readMem a 0xE0 = (o.land (s.loadRecord a t)).ctx.toBytes ∧ OutsideKept s u a 256))) ∧
    (∀ slot k e, s.canBind core = true → s.chosen core = some k → (s.core core).runq[k]? = some e → e.cxa = cxa →
      s.slotFor core e = some slot →
      let v := { t with slot := some slot, turns := 0, skip := 0, bound := s.serial }
      (∀ n, t.place = .line n → ∃ u, exec (.threadBind core) s = .next u ∧ u.mem = s.mem ∧ u.findThr core cxa =
          some (if (s.core core).bank (n / 16) = 1 then { v with wait := .bank (n / 16) } else v.atSlot (s.now core)) ∧
        (u.core core).runq.length + 1 = (s.core core).runq.length) ∧
      (∀ n s1, t.place = .ember → (s.asTried (.record core)).takeLine core = (some n, s1) →
        s1.trying = some (.record core, []) → ∃ u, exec (.threadBind core) s = .next u ∧
        (u.findThr core cxa).map (fun v => (v.slot, v.wait, v.fillTo)) = some (some slot, .fill, some n))) ∧
    (∀ n, t.wait = .fill → t.fillTo = some n →
      (t.place = .ember → ∃ u, exec (.lineFillDone core cxa) s = .next u ∧ u.mem = s.mem ∧
        u.findThr core cxa = some (({ t with place := .line n, fillTo := none, raw := false } : Thread).atSlot (s.now core))) ∧
      (∀ a home, t.place = .record → t.abroad = [] → t.raw = false → s.recordPlace core (t.ctx.st.extractLsb' 16 16) cxa = some (a, home) →
        s.recordNear core (t.ctx.st.extractLsb' 16 16) cxa = true → s.chanWaits a = false → s.homeDead home = false →
        s.poisoned a 256 = false → ∃ u, exec (.lineFillDone core cxa) s = .next u ∧ u.mem = s.mem ∧ (u.findThr core cxa).map (fun v => (v.place, v.wait, v.ctx)) =
          some (.line n, if (s.loadRecord a t).res.fetched.length = 12 then .ready else .fetch, { Ctx.ofBytes (s.readMem a 0xE0) with cxa := cxa }))) ∧
    (∀ b, t.wait = .bank b → (s.core core).bank b = 1 → ∃ u, exec (.bankWake core b) s = .next u ∧ u.mem = s.mem ∧
      (u.core core).bank b = 0 ∧ u.findThr core cxa = some (t.atSlot (s.now core))) ∧
    (let tk := t.ctx.st.extractLsb' 16 16
     t.wait = .segset → t.dropNext = none → s.chanWaits (s.tskb.toNat + 256 * tk.toNat) = false →
     ∃ u, exec (.segmentSetFill core tk.toNat) s = .next u ∧ u.mem = s.mem ∧ u.cachedSet core tk = some (s.descriptor tk) ∧
       u.findThr core cxa = some { t with wait := .ready })) ∧
    (∀ k ix rest p s1, (s.cluster k).admits = ix :: rest → s.findPop ix = some p → (s.cluster k).groups.length < 32 →
      (∀ n ∈ s.memberCores p, s.homeDead n = false ∧ (s.attached n).length + (s.memberCores p).countP (fun m => m == n) ≤ 4096) →
      State.reserve (s.memberCores p) (s.memberCores p).eraseDups (s.asTried (.pop ix)) = (true, s1) → s1.trying = some (.pop ix, []) →
      (∀ i n, (s.memberCores p)[i]? = some n → s.recordNear n p.task (p.record i) = true) → ∃ u g, exec (.groupAdmit k) s = .next u ∧
        (u.cluster k).admits = rest ∧ (u.cluster k).groups = (s.cluster k).groups ++ [g] ∧ g.popIx = ix ∧ g.live = p.count ∧
        g.crew = (p.shape == 1) ∧ g.arrived = []) ∧
    (∀ k h s1, s.hops[k]? = some h → h.pkt = [] → s.mailOrder h.src h.t.core h.ser = false → h.t.core < Config.nCores → s.homeDead h.t.core = false →
      (s.attached h.t.core).length < 4096 → s.findThr h.t.core h.t.ctx.cxa = none →
      (s.asTried (.record h.t.core)).seatRoom h.t.core = (true, s1) → s1.trying = some (.record h.t.core, []) → ∃ u, exec (.hopArrive k) s = .next u ∧ u.hops = dropAt k s.hops ∧
        (u.findThr h.t.core h.t.ctx.cxa).map (fun v => (v.ctx, v.wait)) = some (h.t.ctx, .ready) ∧
        (u.core h.t.core).runq = (s.core h.t.core).runq ++ [{ cxa := h.t.ctx.cxa, org := 1#2 }]) ∧
    (∀ k w, s.wakeReqs[k]? = some w → s.mailOrder w.src w.target w.ser = false → ∃ u, exec (.wakeReceive k) s = .next u ∧
      u.wakeReqs = dropAt k s.wakeReqs ∧
      (s.homeDead w.target = true → u.owed = s.owed ∧ u.naks = s.naks ++ [⟨w.src, w.srcCxa, false, pDEAD, 0#64, false, .core w.target⟩]) ∧
      (s.homeDead w.target = false → u.naks = s.naks ∧ u.owed = s.owed ++ [⟨w.src, w.srcCxa,
        .reply (leBytes 8 (if (s.findThr w.target w.cxa).isSome then 1 else 0)), 0#64, 0#5⟩]) ∧
      (∀ t, s.homeDead w.target = false → s.findThr w.target w.cxa = some t → t.place ≠ .record → t.dropNext = none → u.findThr w.target w.cxa = some (if t.wait = .park then
        { t with wait := .ready, ctx := { t.ctx with pk := false } } else { t with ctx := { t.ctx with wk := true } }))) ∧
    (∀ k m, s.Inv → s.msgs[k]? = some m → (s.msgs.take k).any m.sameSource = false → m.pkt = [] → m.join = none → s.ringOpen m.core m.chan = true →
      ∃ u, exec (.inboxEnqueue k) s = .next u ∧ u.msgs = dropAt k s.msgs ∧ Entered s u m.core m.chan m.msg) ∧
    (∀ k p h e g a home pg lf s1, s.Inv → s.quiet = true → s.pops[k]? = some p → s.findPop p.ix = some p → p.heldAt = some (h, e) →
      4096 ≤ (s.now p.lastCore - h).toNat → p.done ≠ 0#64 →
      (s.taskSet p.lastCore p.task).gva (nAmo true) p.done 8 = some g →
      (s.asTried (.pop p.ix)).locateEng ⟨p.lastCore, p.task, false⟩ (nAmo true) g 8 = .loc (.mem a home pg lf) s1 → s.chanWaits a = false →
      s.homeDead home = false → s.poisoned a 8 = false → ∃ u, exec (.doneAddRetry k) s = .next u ∧
        u.readWord a = s.readWord a + 1#64 ∧ OutsideKept s u a 8 ∧ u.findPop p.ix = some { p with complete := true, heldAt := none })

/-- Routers, ingress, home requests, misses, draught, NAKs and stream NAKs (R152, R156, R166, R190, R192, R194, R195, R198, R211, R399, R400, R429). It rests on the model's own choices or readings of logs 5, 25, 38, 39, 41, 56. -/
def Obligations.PlaneEvents : Prop :=
  ∀ (s : State),
    (∀ x y f p ps, (s.flits.filter fun f => f.moving) = [f] → (f.dx ≠ f.atX ∨ f.dy ≠ f.atY) → s.flue = [] →
      productive f.atX f.atY f.dx f.dy = p :: ps → p < 4 → s.coreSender x y = none → s.drifting true x y = none →
      ∃ u, exec (.routerCycle x y) s = .next u ∧ u = { s with flits := u.flits } ∧ u.flits = (s.flits.filter fun f => !f.moving) ++
          [{ f with
            atX := (hopFrom p f.atX f.atY).1, atY := (hopFrom p f.atX f.atY).2, age := min 4095 (f.age + 1), via := (p + 2) % 4 }]) ∧
    (∀ x y k p ps, (s.flits.filter fun f => f.moving && f.atX == x && f.atY == y) = [] → s.coreSender x y = some k →
      s.drifting true x y = none → productive x y (s.homePos k.dst).1 (s.homePos k.dst).2 = p :: ps → p < 4 →
      ∃ u, exec (.routerCycle x y) s = .next u ∧ u.mem = s.mem ∧ u.thr = s.thr ∧ ∃ f, u.flits.getLast? = some f ∧ f.pkt = k.id ∧
        f.src = k.src ∧ (f.atX, f.atY) = hopFrom p x y ∧ f.age = 1 ∧ f.hd = (k.inj == 0) ∧ f.tl = (k.inj + 1 == k.n)) ∧
    (∀ k f, s.flits[k]? = some f → f.out = true → s.ingressDead (s.flitHome f) = false →
      let h := s.flitHome f
      (s.ahead h f = 0 → (s.core h).reorder = [] → (f.tl = true → s.queueTakes h = true) → ∃ u, exec (.flitArrive k) s = .next u ∧ u.flits = dropAt k s.flits ∧
        look (f.src, f.ch) (u.core h).expect = some ((f.seq + 1) % 1024) ∧ u.mem = s.mem ∧ u.thr = s.thr ∧
        (f.tl = true → ∀ r ∈ s.flight, r.id = f.pkt → ∃ q ∈ u.flight, q.id = f.pkt ∧ q.stage = 2)) ∧
      (0 < s.ahead h f → s.ahead h f ≤ 511 → (s.core h).reorder.length < 1024 → ∃ u, exec (.flitArrive k) s = .next u ∧
        u.flits = dropAt k s.flits ∧ (u.core h).reorder = (s.core h).reorder ++ [f] ∧ u.mem = s.mem ∧ u.thr = s.thr)) ∧
    (∀ k r bs, s.flight[k]? = some r → (r.stage = 0 ∨ r.stage = 2) → r.op = .store bs → r.short = false →
      s.reqBehind k r = false → s.reqWaits r = false → s.reqFailed r = false →
      s.homeDead r.home = false → (s.core r.home).nakSrc.contains r.src = false →
      (∀ t, s.findOwed r.src r.cxa = some t → t.place ≠ .record) →
      (r.home = hostHome → s.hostHold = none → ∃ u, exec (.homeRequestStart k) s = .next u ∧ u.hostTx = s.hostTx ++ [.memWrite r.addr bs] ∧
        u.mem = s.mem ∧ ∀ q ∈ u.flight, q.id ≠ r.id) ∧
      (r.home ≠ hostHome → s.Inv → s.quiet = true → ∃ u, exec (.homeRequestStart k) s = .next u ∧ u.readMem r.addr bs.length = bs ∧
        OutsideKept s u r.addr bs.length ∧ ∀ q ∈ u.flight, q.id ≠ r.id)) ∧
    (∀ core a syn va, a < Config.physEnd →
      (∀ o ∈ [ReadOutcome.clean, .transient syn va, .lasting syn va], (o = .clean ∨ s.poison.contains (a / 8) = true) →
        ∃ u, exec (.missFill core a o) s = .next u ∧ MemKept s u ∧ u.thr = s.thr) ∧
      (s.poison.contains (a / 8) = false → (s.die (a / Config.dieBytes)).frb = 0#64 →
        ∃ u, exec (.missFill core a (.lasting syn va)) s = .next u ∧ u.mem = s.mem ∧ u.thr = s.thr ∧
          (∀ i, i < 8 → a / 64 * 8 + i ∈ u.poison) ∧ ∀ w ∈ s.poison, w ∈ u.poison)) ∧
    (∀ k a, s.acks[k]? = some a → ∃ u, exec (.draughtAck k) s = .next u ∧ u.acks = dropAt k s.acks ∧
      u.core a.core = CoreSt.ack a.dn a.level (s.core a.core) ∧ u.mem = s.mem ∧ u.thr = s.thr) ∧
    (∀ core dn, ∃ u, exec (.ceilRecover core dn) s = .next u ∧ u.mem = s.mem ∧ u.thr = s.thr ∧ (u.core core).draught =
      (s.core core).draught.map fun e => if e.dn = dn ∧ e.out = 0 ∧ e.ceil < 16 then { e with ceil := e.ceil + 1 } else e) ∧
    (∀ k n t, s.naks[k]? = some n → n.posted = true → s.findThr n.core n.cxa = some t → t.place ≠ .record →
      ∃ u, exec (.nakReceive k) s = .next u ∧ u.naks = dropAt k s.naks ∧ u.mem = s.mem ∧
        (u.findThr n.core n.cxa).map (fun v => (v.res.fault, v.ctx.stc)) =
          some (if t.res.fault.isNone && !t.res.faultShut then some (n.reason, n.ea) else t.res.fault,
            if n.counted then t.ctx.stc - 1#16 else t.ctx.stc)) ∧
    (∀ core tag r, s.flight.find? (fun r => r.src == core && r.stage == 3 && r.tag.toNat == tag) = some r →
      (∀ q ∈ s.flight, q.src = core → q.home = r.home → q.stage = 0 ∨ q.stage = 3) →
      ∃ u, exec (.streamNak core tag) s = .next u ∧ u = { s with flight := u.flight } ∧ u.flight.length = s.flight.length ∧
        ∀ (i : Nat) (q : Req), s.flight[i]? = some q → ∃ v : Req, u.flight[i]? = some v ∧ v.id = q.id ∧ v.op = q.op ∧
          (q.src = core → q.home = r.home → v.stage = 0) ∧ (q.src ≠ core ∨ q.home ≠ r.home → v = q)) ∧
    (∀ k w, s.waiters[k]? = some w → w.refused = true → w.anew = false → w.woken = none → w.remote = none → w.posted = false →
      256 ≤ (s.now w.home - w.since).toNat → s.homeDead w.home = false →
        (w.holds s = false → ∃ u, exec (.waiterResend k) s = .next u ∧ u.thr = s.thr ∧ u.pool = s.pool ∧ u.mem = s.mem ∧
          u.waiters = (({ s with waiters := dropAt k s.waiters } : State).addWaiter { w with since := s.now w.home }).waiters) ∧
        (w.holds s = true → w.kind ≠ .stp → s.poisoned w.addr 8 = false → ∃ u, exec (.waiterResend k) s = .next u ∧ u.thr = s.thr ∧
          u.pool = s.pool ∧ u.mem = s.mem ∧ u.waiters = dropAt k s.waiters ∧
          u.owed = s.owed ++ [⟨w.src, w.cxa, .reply (leBytes 8 (s.readWord w.addr).toNat), 0#64, 0#5⟩]))

/-- Flue flits, collectors, heartbeats and system wakes (R199, R200, R351, R368, R405, R431). It rests on the model's own choices or readings of logs 2, 34, 38, 49, 60. -/
def Obligations.FlueEvents : Prop :=
  ∀ (s : State), s.Inv →
    (∀ k f, s.flue[k]? = some f → f.out = true →
      let l := (s.die (bandDie f.band)).collector f.band
      let rest := dropAt k s.flue
      (f.goal = .collector → mergesCause f.cause = true → (∀ e ∈ l, e.2.cause ≠ f.cause ∨ e.2.d1 ≠ f.d1) → l.length < 16 →
        ∃ u, exec (.flueArrive k) s = .next u ∧ u.flue = rest ∧ u.mem = s.mem ∧ u.thr = s.thr ∧
          (u.die (bandDie f.band)).collector f.band = l ++ [((s.die (bandDie f.band)).cyc, f)]) ∧
      (∀ e es, f.goal = .collector → mergesCause f.cause = true → l = e :: es → e.2.cause = f.cause → e.2.d1 = f.d1 →
        ∃ u, exec (.flueArrive k) s = .next u ∧ u.flue = rest ∧ u.mem = s.mem ∧ u.thr = s.thr ∧
          (u.die (bandDie f.band)).collector f.band = (e.1, e.2.merge f) :: es) ∧
      (f.goal = .collector → mergesCause f.cause = false → exec (.flueArrive k) s = .next { s with flue := rest ++ [s.toHearth f] }) ∧
      (s.flueHas f = false → exec (.flueArrive k) s = .next s) ∧
      (f.goal = .hearth → s.ringOpen (hearthOf (bandDie f.band)) 7 = true → ∃ u, exec (.flueArrive k) s = .next u ∧
        u.flue = rest ∧ u.thr = s.thr ∧ Entered s u (hearthOf (bandDie f.band)) 7 f.message)) ∧
    (∀ band k e, ((s.die (bandDie band)).collector band)[k]? = some e → 64 ≤ ((s.die (bandDie band)).cyc - e.1).toNat →
      0 < s.roomOf (hearthOf (bandDie band)) 7 → ∃ u, exec (.collectorDeliver band k) s = .next u ∧ u.thr = s.thr ∧ u.mem = s.mem ∧
        (u.die (bandDie band)).collector band = dropAt k ((s.die (bandDie band)).collector band) ∧
        u.flue = s.flue ++ [s.toHearth { e.2 with age := 0 }]) ∧
    (∀ die, (s.die die).beatDue = true → ∃ u l, exec (.heartbeat die) s = .next u ∧
      u = (({ s with flue := s.flue ++ l } : State).setDie die fun e => { e with beatDue := false }) ∧
      (∀ f ∈ l, ∃ x y n, s.beats x y = some n ∧ posDie x y = die ∧ f = flueFrom x y n cHBT 0#64 0#64) ∧
      ∀ x y n, x < 64 → y < 32 → posDie x y = die → s.beats x y = some n → flueFrom x y n cHBT 0#64 0#64 ∈ l ∧
        ∀ c, 0 < c → flueFrom x y n cHBT 0#64 0#64 ∈ (s.passDie die c).flue) ∧
    (∀ die c, 0 < c → ((s.passDie die c).die die).cyc = (s.die die).cyc + BitVec.ofNat 64 c ∧
      ((s.passDie die c).die die).beatDue = decide (65536 ≤ (s.die die).cyc.toNat % 65536 + c)) ∧
    (∀ k w, s.sysWakes[k]? = some w → ∃ u, exec (.wakeArrive k) s = .next u ∧ u.sysWakes = dropAt k s.sysWakes ∧ u.mem = s.mem ∧
      let last (r : Nat) : Prop := ∀ o, s.wkxs.find? (fun o => o.id == w.wkx) = some o → o.left ≤ 1 →
        u.owed = s.owed ++ [⟨o.core, o.cxa, .xreg o.reg, statusWord (if w.ends ∧ r = 0 then 1 else 0) (o.count + r), 0#5⟩]
      (w.ends = false → (∀ t, s.findThr w.core t.ctx.cxa = some t → t.wait = .dropped w.key → t.dropNext = none →
          (u.findThr w.core t.ctx.cxa).map (·.wait) = some .ready) ∧
        last (((s.attached w.core).filter fun t => decide (t.wait = .dropped w.key)).length
          + ((s.attached w.core).filter fun t => t.dropNext == some w.key).length)) ∧
      (w.ends = true → (∀ t, s.findThr w.core w.key.val = some t → t.isDropped = true → s.threads.countP (Thread.isAt w.core w.key.val) = 1 →
          t.ctx.st.extractLsb' 32 16 = 0#16 → s.findPop t.popIx = none → u.findThr w.core w.key.val = none ∧ last 1) ∧
        ((s.findThr w.core w.key.val).any (·.isDropped) = false → last 0)))

/-- Link flits, RETRY, lanes, silence, training; packets of other devices; the timers of requests and waits (R201, R202, R203, R204, R205, R206, R207, R208, R211, R212, R219, R220). It rests on the model's own choices or readings of logs 9, 27, 32, 40, 42, 68. -/
def Obligations.LinkAndPeerEvents : Prop :=
  ∀ (s : State) (port : Nat), port < 16 →
    let p := s.port port
    let cyc := (s.die (port / 4)).cyc
    (p.st = 2#3 →
      (∀ bs, p.badFlit bs = true → ∃ u, exec (.linkFlitReceive port bs) s = .next u ∧ u = { s with ports := u.ports } ∧
        u.port port = ({ p with rply := sat16 p.rply } : Port).sendRetry ∧ ∀ n, n ≠ port → u.port n = s.port n) ∧
      (∀ bs, p.badFlit bs = false → bits (at' bs 0 4) 28 4 = 0 →
        let l := p.partials ++ [(bs.drop 4).take 64]
        l.length < at' (l.headD []) 21 1 → l.length < 6 → ∃ u, exec (.linkFlitReceive port bs) s = .next u ∧ u.thr = s.thr ∧
          u.mem = s.mem ∧ (u.port port).partials = l ∧ (u.port port).want = (p.want + 1) % 4096 ∧ (u.port port).heard = cyc) ∧
      (∀ lack, let n := if p.retryFor = (lack + 1) % 4096 then p.retries + 1 else 1
        ∃ u, exec (.linkRetryReceive port lack) s = .next u ∧
          (n < 16 → u.thr = s.thr ∧ u.mem = s.mem ∧ (u.port port).retries = n ∧ (u.port port).retryFor = (lack + 1) % 4096 ∧
            (u.port port).st = 2#3) ∧ (16 ≤ n → (u.port port).st = 0#3))) ∧
    (p.st ≠ 0#3 → p.st ≠ 2#3 → ∀ bs, noFlit bs = false → ∃ u, exec (.linkFlitReceive port bs) s = .next u ∧
      u = { s with ports := u.ports } ∧ (u.port port).heard = cyc) ∧
    (∀ lane, ∃ u, exec (.laneFail port lane) s = .next u ∧ u = { s with ports := u.ports } ∧ (∀ n, n ≠ port → u.port n = s.port n) ∧
      (u.port port).lanes = p.lanes &&& ~~~BitVec.ofNat 8 (2 ^ lane) ∧
      (u.port port).cwid = BitVec.ofNat 2 (max p.twid.toNat (u.port port).goodWidth)) ∧
    (p.st ≠ 0#3 → 65536 ≤ (cyc - p.heard).toNat → ∃ u, exec (.linkSilenceDown port) s = .next u ∧ (u.port port).st = 0#3 ∧
      (p.replay = [] → p.txq = [] → u.thr = s.thr ∧ u.mem = s.mem ∧ ∃ f, u.flue = s.flue ++ [f] ∧ f.cause = cLNK ∧
        f.d1 = BitVec.ofNat 64 port)) ∧
    (p.st = 0#3 → ∃ u f, exec (.linkTrain port) s = .next u ∧ u.thr = s.thr ∧ u.mem = s.mem ∧ (u.port port).st = 1#3 ∧
      u.flue = s.flue ++ [f] ∧ f.cause = cLNK) ∧
    (p.st = 1#3 → ∃ u f, exec (.linkTrain port) s = .next u ∧ u.thr = s.thr ∧ u.mem = s.mem ∧ (u.port port).st = 2#3 ∧
      (u.port port).want = 0 ∧ (u.port port).partials = [] ∧ (u.port port).heard = cyc ∧ u.flue = s.flue ++ [f] ∧ f.cause = cLNK) ∧
    (∀ bs, let k := Pkt.ofBytes bs
      (k.malformed bs.length = true → ∃ u, exec (.peerPacketReceive port bs) s = .next u ∧ u.thr = s.thr ∧ u.mem = s.mem ∧
        (u.port port).malf = sat16 p.malf) ∧
      (k.malformed bs.length = false → k.isAnswer = false → 5 < k.nrb → exec (.peerPacketReceive port bs) s = .next s) ∧
      (k.malformed bs.length = false → (k.isAnswer = true ∨ k.nrb ≤ 5) → 0 < k.nrt → ∃ q,
        exec (.peerPacketReceive port bs) s = .next (s.sendPkt (k.rt.headD 0 % 16) none q) ∧
          q = { k with nrt := k.nrt - 1, rt := k.rt.drop 1, hix := (k.hix + 1) % 8, nrb := k.nrb + 1, rb := k.rb ++ [port], data := q.data } ∧
          ((k.ops.any fun o => o.opc == 0x0A && o.hop == (k.hix + 1) % 8) = false → q.data.take k.dataBytes = k.data.take k.dataBytes)) ∧
      (k.malformed bs.length = false → k.nrt = 0 → k.nrb ≤ 5 → k.resp = false → (k.ops.all fun o => o.opc == 0x0A) = false →
        BitVec.ofNat 8 k.gen ≠ s.bgen → ∃ u, exec (.peerPacketReceive port bs) s = .next u ∧ u.thr = s.thr ∧ u.mem = s.mem ∧
          (u.port port).sgen = sat16 p.sgen) ∧
      (∀ o a h pg lf s1, k.malformed bs.length = false → k.nrt = 0 → k.nrb ≤ 5 → k.resp = false → k.ops = [o] → o.opc = 0x02 → o.sub = 0 →
        BitVec.ofNat 8 k.gen = s.bgen → o.hop = (k.hix + 1) % 8 → bit k.rgt 1 = true → s.Inv → s.quiet = true →
        let w := Config.inboundWindow (k.rb ++ [port]) k.win
        let g := w.1 + o.off
        s.area false o.need g o.len ≠ .none →
        (s.asTried (.peer port)).farParts (farWho port w.2) o.need (lineParts 40 g o.len) g = some ([(.mem a h pg lf, o.len)], s1) →
        s.homeDead h = false → s.chanWaits a = false → s.chanFailed a = false → ∃ u, exec (.peerPacketReceive port bs) s = .next u ∧ u.thr = s.thr ∧
          u.readMem a ((k.data.take o.len).length) = k.data.take o.len ∧ OutsideKept s u a o.len) ∧
      (∀ o q t, k.malformed bs.length = false → k.nrt = 0 → k.resp = true → k.ops = [o] → o.opc = 0x11 →
        (∀ r ∈ p.reqs, r.isProbe = false) → p.reqs.find? k.isFor = some q → q.owner = .thread → q.posted = true → s.findThr q.core q.cxa = some t → t.place ≠ .record →
        ∃ u, exec (.peerPacketReceive port bs) s = .next u ∧ u.mem = s.mem ∧ (u.port port).reqs = dropFirst k.isFor p.reqs ∧
          (u.findThr q.core q.cxa).map (·.ctx.stc) = some (t.ctx.stc - 1#16))) ∧
    (∀ k q t, s.portReqs[k]? = some (port, q) → q ∈ p.reqs → 2 ^ 20 ≤ (cyc - q.since).toNat → q.owner = .thread → q.posted = true →
      s.findThr q.core q.cxa = some t → t.place ≠ .record → ∃ u, exec (.portTimeout k) s = .next u ∧ u.mem = s.mem ∧
        (u.port port).reqs.length + 1 = p.reqs.length ∧ (u.findThr q.core q.cxa).map (fun v => (v.ctx.stc, v.res.fault)) =
          some (t.ctx.stc - 1#16, if t.res.fault.isNone && !t.res.faultShut then some (pDEAD, q.ea) else t.res.fault)) ∧
    (∀ k w src pk, s.waiters[k]? = some w → w.remote = some (src, pk) → w.kind ≠ .aside → 2 ^ 19 ≤ (s.now w.home - w.since).toNat →
      exec (.remoteWaitTimeout k) s = .next (({ s with waiters := dropAt k s.waiters } : State).nakPeer pk pDEAD))

/-- Stream strips, grain blocks, leases and pan commands: what each engine step computes and where it lands (R221, R227, R230, R231, R252, R258, R264, R267, R269, R273, R274, R278). It rests on the model's own choices or readings of logs 9, 15, 29. -/
def Obligations.EngineEvents : Prop :=
  ∀ (s : State) (k : Nat), s.Inv → s.quiet = true →
    (∀ n q op t x, s.nextStream k = some n → (s.core n).streamHead = some q → q.core = n → vopOf q.ins = some (op, t, x) →
      q.deadWindow op x s = false →
      let z := t.width / 8
      (∃ u q', exec (.streamStrip k) s = .next u ∧ u.thr = s.thr ∧ q' ∈ (u.core n).streamQ ∧ q'.ins = q.ins ∧ (u.cluster k).rr = n ∧
        (q.next + 64 < slenN q.slen → q'.next = q.next + 64 ∧ q'.fin = false) ∧
        (slenN q.slen ≤ q.next + 64 → op ≠ .smx → op ≠ .lnm → q'.fin = true ∧ (op.scalar = true →
          ∃ o, u.owed = s.owed ++ [o] ∧ o.core = q.core ∧ o.cxa = q.cxa ∧ o.dest = .xreg x.a.rix))) ∧
      (slenN q.slen = 1 → q.next = 0 → op ∈ [VOp.add, .sub, .mul, .min, .max, .and, .or, .xor, .shl, .shr] →
        s.elemGood q x.b op.roles.2.1 1 0 (op.width t x 1) = true → s.elemGood q x.c op.roles.2.2 2 0 (op.width t x 2) = true →
        ∃ u, exec (.streamStrip k) s = .next u ∧ u.mem = Memory.write s.mem (q.at 0 0 z) (leBytes z
          (elemBin op t (s.elemOf q x.b op.roles.2.1 1 0 (op.width t x 1)) (s.elemOf q x.c op.roles.2.2 2 0 (op.width t x 2))).1)) ∧
      (slenN q.slen = 1 → q.next = 0 → op = .fill → ∃ u, exec (.streamStrip k) s = .next u ∧
        u.mem = Memory.write s.mem (q.at 0 0 z) (leBytes z q.b.toNat))) ∧
    (∀ n q op t x, s.nextStream k = some n → (s.core n).streamHead = some q → q.core = n → gopOf q.ins = some (op, t, x) →
      q.deadGrain op s = false → q.next < op.blocks t x (slenN q.slen) →
      (∀ vs, op = .pk → s.packSource (vSrcTy x) (q.b.toNat + q.next * (gfmtOf t).elems * ((vSrcTy x).width / 8)) (gfmtOf t).elems = (vs, none) →
        ∃ u, exec (.grainBlock k) s = .next u ∧ u.thr = s.thr ∧
          u.mem = Memory.write s.mem (q.a.toNat + 64 * q.next) (packBlock (gfmtOf t) vs).1) ∧
      (op = .chk → q.next + 1 < op.blocks t x (slenN q.slen) → (s.readBlock (q.b.toNat + 64 * q.next) none).1 = .bad →
        ∃ u, exec (.grainBlock k) s = .next u ∧ u.mem = s.mem ∧ u.thr = s.thr ∧
          (u.core n).streamHead = some { q with next := q.next + 1, acc := q.acc + 1#64 })) ∧
    (∀ n q, let ends (q : StreamCmd) : Bool := q.fin && !s.owesTo q.core q.cxa
      (s.clusterCores k).find? (fun n => (s.core n).streamQ.any ends) = some n → (s.core n).streamQ.find? ends = some q → q.join = none →
      s.ringOpen n (slenCh q.slen) = true → ∃ u, exec (.streamCompletion k) s = .next u ∧
        Entered s u n (slenCh q.slen) q.message ∧ (u.core n).streamQ.length + 1 = (s.core n).streamQ.length) ∧
    (∀ n, (s.cluster k).lease.holder = none → (roundRobin (s.cluster k).lease.last (s.clusterCores k)).find? s.requesting = some n →
      ∃ u, exec (.leaseGrant k) s = .next u ∧ (u.cluster k).lease =
        { holder := some n, opened := true, cmds := 0, start := s.now n, active := s.now n, last := n }) ∧
    (∀ n, (s.cluster k).lease.holder = some n → s.coreCluster n = k →
      ((s.cluster k).lease.opened = true → s.termOpen n = false → ∃ u, exec (.leaseTermExpire k) s = .next u ∧
        (u.cluster k).lease = { (s.cluster k).lease with opened := false } ∧ u.mem = s.mem ∧ u.thr = s.thr) ∧
      (s.termOpen n = true → (s.core n).panBusy = false → (∀ t ∈ s.attached n, t.wait ≠ .on .panQ) →
        1024 ≤ (s.now n - (s.cluster k).lease.active).toNat → (∃ m ∈ s.clusterCores k, m ≠ n ∧ s.requesting m = true) →
        ∃ u, exec (.leaseIdleClose k) s = .next u ∧ (u.cluster k).lease = { (s.cluster k).lease with opened := false } ∧
          u.mem = s.mem ∧ u.thr = s.thr)) ∧
    (∀ q op t x, s.panNext k = some q → poprOf q.ins = some (op, t, x) →
      let i := ctlAcc q.ctl % 4
      let v := (s.accOf q.core i).val
      ∃ u, exec (.panStart k) s = .next u ∧ u.thr = s.thr ∧
        (op = .mz → u.mem = s.mem ∧ ∀ j, j < 4 → (u.accOf q.core j).shadow = (s.accOf q.core j).shadow ∧
          (u.accOf q.core j).val = if bit (ctlAcc q.ctl) j then [] else (s.accOf q.core j).val) ∧
        (op = .mmac → (List.range (ctlKb q.ctl)).findSome? (s.mmacFault t (ctlKb q.ctl) q.b.toNat q.c.toNat) = none →
          u.mem = s.mem ∧ (u.accOf q.core i).shadow = (s.accOf q.core i).shadow ∧ (u.accOf q.core i).val = (s.mmacValue t (ctlKb q.ctl)
            q.b.toNat q.c.toNat (if ctlZ q.ctl then List.replicate 4096 0#32 else accWords v)).1) ∧
        (op = .mld → s.homeDead (windowOf q.b.toNat) = false →
          (∀ j, j < 256 → s.unitPoisoned false (q.b.toNat + 64 * j) = false) → u.mem = s.mem ∧
          (u.accOf q.core i).val = (List.range 4096).map fun j => BitVec.ofNat 32 (s.readNat (q.b.toNat + 4 * j) 4)) ∧
        (op = .mst → s.homeDead (windowOf q.b.toNat) = false →
          u.mem = Memory.write s.mem q.b.toNat (mstBytes t (accWords v)).1 ∧ (u.cluster k).accs = (s.cluster k).accs)) ∧
    (∀ q op t x, s.panRuns k = some q → poprOf q.ins = some (op, t, x) →
      let i := ctlAcc q.ctl % 4
      ∃ u, exec (.panCommit k) s = .next u ∧ u.thr = s.thr ∧ u.mem = s.mem ∧
        ((op = .mmac ∨ op = .mld) → (u.accOf q.core i).val = (s.accOf q.core i).val ∧
          (u.accOf q.core i).shadow = (s.accOf q.core i).val) ∧
        ((s.core q.core).panQ.find? (fun q => q.st != .committed) = some q →
          (u.core q.core).panQ.countP (fun q => q.st != .committed) + 1 = (s.core q.core).panQ.countP fun q => q.st != .committed)) ∧
    (∀ q, s.panEnds k = some q → q.join = none → s.ringOpen q.core (ctlCh q.ctl) = true →
      ∃ u, exec (.panCompletion k) s = .next u ∧ Entered s u q.core (ctlCh q.ctl) q.message ∧
        (u.core q.core).panQ = (s.core q.core).panQ.drop 1)

/-- The copy engine: a record arrives, a copy starts, moves one element, is held and tries again, flags and reports (R289, R294, R297, R299, R301, R302, R306, R307). It rests on the model's own choices or readings of logs 15, 30, 62. -/
def Obligations.CopyEvents : Prop :=
  ∀ (s : State) (core slot : Nat), s.Inv → s.quiet = true → (s.core core).dead = false →
    let z := s.asTried (.copy core slot)
    let after (c : CopySlot) (n : Nat) : CopyState :=
      if n < c.count ∨ c.pend ≠ 0 then .run else if c.code = 0 ∧ c.flag ≠ 0#64 then .flag else .close
    let tries (c : CopySlot) (i : Instr) : Prop := (i = .copyElement core slot ∧ c.st = .run ∧ c.next < c.count) ∨
      (i = .copyHoldRetry core slot ∧ c.st = .hold ∧ c.next < c.count ∧ 4096 ≤ (s.now core - c.heldAt).toNat)
    let stands (u : State) (c : CopySlot) (n : Nat) : Prop :=
      (u.copySlot core slot).map (fun d => (d.next, d.st, d.code, d.pend)) = some (n, after c n, c.code, c.pend)
    (∀ cxa t f bs, s.findThr core cxa = some t → t.wait = .home → t.res.reply = none → t.dropNext = none → t.res.fill = some f →
      s.fillRest f.rest = some (.ok bs) → ∃ u, exec (.recordFill core cxa) s = .next u ∧ u.mem = s.mem ∧
        (u.findThr core cxa).map (fun v => (v.wait, v.res.record, v.res.fill)) = some (.ready, some (f.first ++ bs), none) ∧
        (f.install = true → (⟨t.ctx.st.extractLsb' 16 16, f.gva, f.first ++ bs⟩ : RecEntry) ∈ (u.core core).recs)) ∧
    (∀ c, (s.core core).copies.find? (fun c => c.st == .queued) = some c → ∃ u, exec (.copyStart core) s = .next u ∧
      u = { s with cores := u.cores } ∧ { c with st := after c c.next } ∈ (u.core core).copies) ∧
    (∀ c, s.copySlot core slot = some c →
      (∀ i a h pg lf t, tries c i → c.kind = .fillFull ∨ c.kind = .fillEmpty ∨ c.kind = .mke ∨ c.kind = .mkf →
        z.locateEng (c.who core) (nCopyDst (c.kind == .fillFull)) (c.dst.toNat + c.next) 8 = .loc (.mem a h pg lf) t →
        t.chanWaits a = false → t.homeDead h = false → ∃ u, exec i s = .next u ∧ u.thr = s.thr ∧ stands u c (c.next + 8) ∧
          u.mem = (if c.kind = .mke ∨ c.kind = .mkf then s.mem else Memory.write s.mem a (leBytes 8 c.pattern.toNat)) ∧
          u.isFull a = decide (c.kind = .fillFull ∨ c.kind = .mkf)) ∧
      (∀ i a h pg lf t b g pg' lf' v, tries c i → c.kind = .shape ∨ c.kind = CopyKind.linear →
        z.locateEng (c.who core) nCopySrc c.places.1 c.size = .loc (.mem a h pg lf) t →
        t.chanWaits a = false → t.homeDead h = false → t.poisoned a c.size = false →
        let t1 := if pg then t.touchL2 h a (effPolicy lf c.cp) false else t
        ({ t1 with serial := t.serial + c.size } : State).locateEng (c.who core) (nCopyDst true) c.places.2 c.size = .loc (.mem b g pg' lf') v →
        v.chanWaits b = false → v.homeDead g = false → ∃ u, exec i s = .next u ∧ u.thr = s.thr ∧ stands u c (c.next + c.stride) ∧
          u.mem = Memory.write s.mem b (s.readMem a c.size)) ∧
      (∀ i w, tries c i → c.kind = .fillFull ∨ c.kind = .fillEmpty ∨ c.kind = .mke ∨ c.kind = .mkf →
        z.locateEng (c.who core) (nCopyDst (c.kind == .fillFull)) (c.dst.toNat + c.next) 8 = .fail (.pgf w) →
        ∃ u, exec i s = .next u ∧ u = { s with cores := u.cores, flue := u.flue, asks := u.asks } ∧
          (u.copySlot core slot).map (fun d => (d.st, d.next, d.heldAt)) = some (.hold, c.next, s.now core) ∧
          (c.st = .hold → c.heldAs = some (true, pageOf (c.dst.toNat + c.next)) → (s.now core - c.raisedAt).toNat < 2 ^ 20 → u.flue = s.flue) ∧
          (c.st = .run → ∃ f, u.flue = s.flue ++ [f] ∧ f.cause = if w = 5 then cWLK else cPGF)) ∧
      (∀ i t j v, tries c i → c.kind = .fillFull ∨ c.kind = .fillEmpty ∨ c.kind = .mke ∨ c.kind = .mkf →
        let g := c.dst.toNat + c.next
        z.locateEng (c.who core) (nCopyDst (c.kind == .fillFull)) g 8 = .miss t → s.postMiss (c.who core) 1 g = some (j, v) →
        ∃ u, exec i s = .next u ∧ u = { v with asks := u.asks } ∧
          ∃ m, (.copy core slot, m) ∈ u.asks ∧ m.core = core ∧ m.page = g / 2 ^ 16 ∧ m.idx = j ∧ m.why = none) ∧
      (∀ a h pg lf t, c.st = .flag → c.pend = 0 → c.flagSent = false →
        z.locateEng (c.who core) (nCopyDst true) (bits c.flag.toNat 0 63) 8 = .loc (.mem a h pg lf) t →
        t.chanWaits a = false → t.homeDead h = false → (c.flgop = true → t.poisoned a 8 = false) → ∃ u, exec (.copyFlag core slot) s = .next u ∧
          u.thr = s.thr ∧ (u.copySlot core slot).map (·.st) = some .close ∧
          u.mem = Memory.write s.mem a (leBytes 8 (if c.flgop then s.readWord a + c.flgv else c.flgv).toNat)) ∧
      (c.st = .close → c.pend = 0 → c.join = none → s.ringOpen core c.chan.toNat = true →
        ∃ u, exec (.copyCompletion core slot) s = .next u ∧ Entered s u core c.chan.toNat (c.message core) ∧
          u.copySlot core slot = none))

/-- Sweeps, halves, answers, RECALL, rounds and held commands of the brine engines, one event each (R319, R320, R321, R322, R326, R329, R339, R343). It rests on the model's own choices or readings of logs 9, 31, 33, 62. -/
def Obligations.BrineEvents : Prop :=
  ∀ (s : State) (k rid : Nat), s.Inv → s.quiet = true →
    let only (d : Round) : Prop := s.rounds = [d] ∧ s.brineQ = []
    (∀ r, s.brineIdle = true → s.roundRegion rid = some r → s.regionNear r = true → r.committed = true → r.sper ≠ 0 →
      r.sper * 1024 ≤ (s.now r.core - r.stepped).toNat → (∀ c ∈ s.custOf rid, c.2.sweep = false) →
      ((r.hold || r.roundHold) = true → ∃ u, exec (.brineSweepStep rid) s = .next u ∧
        u = { s with regions := u.regions, asks := u.asks } ∧
        u.region rid = some { r with bdis := r.bdisc, bdisc := 0#32, stepped := s.now r.core, k := r.k + 1 }) ∧
      (∀ a i s1, (r.hold || r.roundHold) = false → r.nblk = 1 → r.maxMode = false → r.rotaAt 0 ≠ r.self →
        r.valid (r.rotaAt 0) = true → (r.block 0).bad = false → entLocal (r.table.getD (r.rotaAt 0) 0#64) = true →
        s.blockAt r 0 = some (a, s1) → s.poisoned a 4096 = false → s.freeCust r (r.block 0).cl (r.rotaAt 0) = some i →
        ∃ u, exec (.brineSweepStep rid) s = .next u ∧ (u.region rid).map (·.k) = some (r.k + 1) ∧ u.halves = s.halves ++
          [⟨r.id, r.gen, r.self, r.rid, r.ver, entRid (r.table.getD (r.rotaAt 0) 0#64), r.rotaAt 0, 0,
            s.nextSeq (r.block 0).cl r.rid (r.rotaAt 0), (r.block 0).cl, (r.block 0).w / 2, false,
            (s.blockVals r a).map (fun v => BitVec.ofNat 64 (halve r.f32 v).1), none, none, s1.serial⟩])) ∧
    (∀ (h : Half) (r : Region), s.brineIdle = true → s.halves[k]? = some h → s.roundRegion h.rid = some r → s.regionNear r = true → r.committed = true →
      r.id = h.id → r.gen = h.gen → r.ver = h.ver → r.valid h.frm = true → h.blk < r.nblk → h.copy = false → r.maxMode = false →
      h.remote = none → s.buffersFull (r.block h.blk).cl = false →
      let win := s.window (r.block h.blk).cl r.rid h.frm h.cluster (r.epoch h.frm h.ver)
      let w := (r.block h.blk).w
      let ack : BAnswer := ⟨h.frmRid, h.cluster, h.target, h.seq, .ack, h.ser⟩
      (win.has h.seq = true → ∃ u, exec (.brineHalfArrive k) s = .next u ∧
        u.answers = s.answers ++ [ack] ∧ u.halves = dropAt k s.halves ∧ u.mem = s.mem ∧ u.regions = s.regions) ∧
      (∀ a s1, win.has h.seq = false → (r.block h.blk).bad = false →
        h.blk < r.blocks.length → s.blockAt r h.blk = some (a, s1) → s.poisoned a 4096 = false →
        let sum := List.zipWith (fun v x => (addHalf r.f32 v x).1) (s.blockVals r a) (h.vals.map (·.toNat))
        ∃ u, exec (.brineHalfArrive k) s = .next u ∧ u.answers = s.answers ++ [ack] ∧ u.halves = dropAt k s.halves ∧
          (u.region h.rid).map (fun v => (v.block h.blk).w) = some (w + h.w) ∧
          u.mem = ((s1.putVals r a sum).setMass r h.blk (w + h.w)).mem)) ∧
    (∀ (a : BAnswer) (c : CustSlot) (r : Region), s.brineIdle = true → s.answers[k]? = some a → s.answerAhead k a = false →
      s.custFor a = some c → s.roundRegion a.rid = some r → s.regionNear r = true →
      let freed (u : State) : Prop := u.answers = dropAt k s.answers ∧ u.thr = s.thr ∧
        u.slotsOf a.cluster a.rid = (s.slotsOf a.cluster a.rid).filter fun d => d.slot != c.slot
      let back (u : State) : Prop := c.blk < r.blocks.length → r.maxMode = false →
        (u.roundRegion a.rid).map (fun v => (v.block c.blk).w) = some ((r.block c.blk).w + c.sentW)
      (a.ans = .ack → ∃ u, exec (.brineAnswer k) s = .next u ∧ freed u ∧ u.mem = s.mem ∧ u.regions = s.regions) ∧
      (∀ e, a.ans = .nak e → c.rcl = false → e ≠ pDEAD.toNat → ∃ u, exec (.brineAnswer k) s = .next u ∧ freed u ∧ back u) ∧
      (a.ans = .nak pDEAD.toNat → c.rcl = false → entLocal (r.table.getD c.target 0#64) = true →
        ∃ u, exec (.brineAnswer k) s = .next u ∧ u.answers = dropAt k s.answers ∧ u.mem = s.mem ∧
          u.recalls = s.recalls ++ [⟨r.id, r.gen, r.ver, r.self, r.rid, entRid (r.table.getD c.target 0#64), c.target, c.blk,
            a.cluster, c.seq, none, c.ser⟩]) ∧
      (a.ans = .applied → ∃ u, exec (.brineRecallAnswer k) s = .next u ∧ freed u ∧ u.mem = s.mem ∧ u.regions = s.regions) ∧
      (a.ans = .void → ∃ u, exec (.brineRecallAnswer k) s = .next u ∧ freed u ∧ back u)) ∧
    (∀ (cl : Nat) (c : CustSlot) (r : Region), (s.cluster cl).custody[k]? = some c → s.roundRegion c.rid = some r → s.regionNear r = true →
      r.tout * 1024 ≤ (s.nowAt cl - c.since).toNat → entLocal (r.table.getD c.target 0#64) = true →
      ∃ u, exec (.brineSlotTimeout cl k) s = .next u ∧ u.mem = s.mem ∧ u.thr = s.thr ∧
        (c.rcl = false → c.resends < r.retry → (∃ h, u.halves = s.halves ++ [h] ∧ h.seq = c.seq ∧ h.w = c.sentW ∧ h.blk = c.blk ∧
          h.target = c.target ∧ h.cluster = cl) ∧ { c with resends := c.resends + 1, since := s.nowAt cl } ∈ (u.cluster cl).custody) ∧
        (c.rcl = true ∨ r.retry ≤ c.resends → u.recalls = s.recalls ++
          [⟨r.id, r.gen, r.ver, r.self, r.rid, entRid (r.table.getD c.target 0#64), c.target, c.blk, cl, c.seq, none, c.ser⟩] ∧
          { c with rcl := true, since := s.nowAt cl } ∈ (u.cluster cl).custody)) ∧
    (∀ (q : Recall) (r : Region), s.recalls[k]? = some q → q.remote = none → s.region q.rid = some r → s.buffersFull (r.block q.blk).cl = false →
      let w := s.window (r.block q.blk).cl r.rid q.frm q.cluster (r.epoch q.frm q.ver)
      ∃ u, exec (.brineRecallReceive k) s = .next u ∧ u.mem = s.mem ∧ u.recalls = dropAt k s.recalls ∧
        (r.id = q.id → r.gen = q.gen →
          u.answers = s.answers ++ [⟨q.frmRid, q.cluster, q.target, q.seq, if w.has q.seq then .applied else .void, q.ser⟩] ∧
          (0 < sintOf 32 (q.seq + 2 ^ 32 - w.high) → (u.window (r.block q.blk).cl r.rid q.frm q.cluster (r.epoch q.frm q.ver)).has q.seq = true)) ∧
        (r.id ≠ q.id ∨ r.gen ≠ q.gen → u.clusters = s.clusters ∧
          u.answers = s.answers ++ [⟨q.frmRid, q.cluster, q.target, q.seq, .stale, q.ser⟩])) ∧
    (∀ (p : Proposal) (r : Region), s.proposals[k]? = some p → s.roundRegion p.rid = some r → r.id = p.id → r.gen = p.gen →
      (∀ d, only d → d.rid = p.rid → d.cseq = p.cseq → d.sent = true → (∀ e ∈ d.held, e.frm ≠ p.frm) →
        let held := d.held ++ [p]
        let ps := held.filter fun e => (d.parts r).contains e.frm
        ((∃ i ∈ d.parts r, ∀ e ∈ held, e.frm ≠ i) → ∃ u, exec (.brineProposeReceive k) s = .next u ∧
          u = { s with proposals := dropAt k s.proposals, rounds := [{ d with held := held }], asks := u.asks }) ∧
        ((∀ i ∈ d.parts r, ∃ e ∈ held, e.frm = i) → d.op = .create → d.agree ps = true →
          ∃ u v, exec (.brineProposeReceive k) s = .next u ∧ u.rounds = [] ∧ u.mem = s.mem ∧ u.roundRegion p.rid = some v ∧
            v.committed = true ∧ v.roundHold = false ∧ v.ver = (ps.head?.map (·.ver)).getD r.ver + 1)) ∧
      (∀ e, s.round p.rid = none → s.done.find? (fun e => e.1 == p.rid && e.2.1 == p.cseq) = some e →
        entLocal (r.table.getD p.frm 0#64) = true → ∃ u, exec (.brineProposeReceive k) s = .next u ∧
          u = { s with proposals := dropAt k s.proposals, states := s.states ++ [(entRid (r.table.getD p.frm 0#64), e.2.2)] })) ∧
    (∀ ps d r, s.states[k]? = some (rid, ps) → only d → d.rid = rid → some d.cseq = ps.head?.map (·.cseq) → d.op = .create →
      s.roundRegion rid = some r →
      let known := ps.all fun p => p.id == r.id && p.gen == r.gen
      (known = true → ∃ u v, exec (.brineStateReceive k) s = .next u ∧ u.rounds = [] ∧ u.mem = s.mem ∧
        u.states = dropAt k s.states ∧ u.roundRegion rid = some v ∧ v.committed = true ∧
        v.ver = (ps.head?.map (·.ver)).getD r.ver + 1) ∧
      (∀ p, ps.head? = some p → p.pkt = [] →
        ((∃ e ∈ ps, e.id ≠ r.id) → exec (.brineStateReceive k) s = .next { s with states := dropAt k s.states }) ∧
        ((∀ e ∈ ps, e.id = r.id) → known = false → ∃ u, exec (.brineStateReceive k) s = .next u ∧
          u = { s with states := dropAt k s.states, regions := u.regions } ∧
          (u.roundRegion rid).map (·.stale) = some (min (r.stale + 1) (2 ^ 32 - 1))))) ∧
    (∀ d r, s.round rid = some d → s.roundRegion rid = some r → d.sent = true → r.tout * 1024 ≤ (s.now r.core - d.since).toNat →
      let own := (d.held.find? fun p => p.frm == r.self).getD (s.proposal d r)
      ∃ u, exec (.brineProposeResend rid) s = .next u ∧ u.mem = s.mem ∧ (u.round rid).map (·.since) = some (s.now r.core) ∧
        ∀ i ∈ d.parts r, i ≠ r.self → (∀ e ∈ d.held, e.frm ≠ i) → entLocal (d.entryOf r i) = true →
          { own with rid := entRid (d.entryOf r i) } ∈ u.proposals) ∧
    (∀ (q : BrineCmd) (x : Args) t l cl, s.brineQ = [q] → s.rounds = [] → q.ins = .badd x → q.held = some (t, l) →
      s.coreCluster q.core = cl → 4096 ≤ (s.now q.core - t).toNat → ∀ r, s.region q.rid = some r → r.elems = q.elems → s.regions.any (s.massWaits cl) = false →
      bits q.a.toNat 16 24 < r.nblk →
      let z := s.asTried (.brine q.id)
      let got := State.gather q.who {} false (lineParts 40 q.b.toNat (4 * r.elems)) q.b.toNat q.got.length q z
      (∀ p v f g, got = .hold p v f g → p.heldAs = some (false, pageOf g) → (s.now q.core - l).toNat < 2 ^ 20 → ∃ u, exec (.brineHoldRetry cl) s = .next u ∧
        u = { v with brineQ := [{ p with held := some (s.now q.core, l), moved := false }], trying := s.trying, asks := u.asks }) ∧
      (∀ p s1, got = .ok p s1 → s1.trying = z.trying → s.regionNear r = true → q.pend = 0 → ∃ u, exec (.brineHoldRetry cl) s = .next u ∧ u.brineQ = []))

/-- Writes of system registers take effect: bases, CMPART, IBXSZ, RFPWR, KLS, MRX, ATTS; the mailbox is read; the report is signed (R79, R90, R145, R146, R203, R205, R355, R361, R370, R416, R421, R423). It rests on the model's own choices or readings of logs 9, 13, 17, 18, 35. -/
def Obligations.SystemRegisterWrites : Prop :=
  ∀ (s : State) (n : Nat) (v : Word) (w : SysWrite), s.Inv →
    let oldest (p : SysWrite → Bool) : Prop := s.sysWrites.find? p = some w ∧ w.val = v
    let goes (p : SysWrite → Bool) (u : State) : Prop := u.sysWrites = dropFirst p s.sysWrites ∧
      ∀ t, s.findThr w.core w.cxa = some t → t.place ≠ .record → t.place ≠ .ember → t.dropNext = none →
        (u.findThr w.core w.cxa).map (fun t => (t.wait, t.ctx.pc)) = some (.ready, t.ctx.pc + 12#64)
    let near : Prop := ∃ t, s.findThr w.core w.cxa = some t ∧ t.place ≠ .record
    (∀ k, let p := fun (w : SysWrite) => w.index == k && decide (k ≤ 3) && s.coreDie w.core == n && w.val == v;
      oldest p → ∃ u, exec (.tableBaseWrite k n v) s = .next u ∧ goes p u ∧
        (k = 0 → u.tskb = v &&& 0xFFFFFFFFFFFF0000#64 ∧ (∀ m, (u.core m).sets = []) ∧
          u.rdyd = if isHearth w.core then s.rdyd ||| field 1 (4 + s.coreDie w.core) else s.rdyd) ∧
        (k = 1 → u.hmtb = v ∧ u.masks = []) ∧ (k = 2 → u.pwtb = v ∧ u.peers1 = [] ∧ u.peers2 = []) ∧ (k = 3 → u.partb = v)) ∧
    (∀ t r e, s.mboxReader n = some (t, r) → (s.core n).mbox.find? (fun e => !e.taken) = some e →
      s.findThr t.core t.ctx.cxa = some t → t.place ≠ .record → t.dropNext = none → ∃ u, exec (.mboxRead n) s = .next u ∧
        (u.core n).mbox = mapFirst (fun m => m.idx == e.idx) (fun m => { m with taken := true }) (s.core n).mbox ∧
        (u.findThr t.core t.ctx.cxa).map (fun v => (v.wait, v.ctx)) =
          some (.ready, { (t.ctx.writeX r e.word).clearOwe [r] with pc := t.ctx.pc + 12#64 })) ∧
    (let p := fun (w : SysWrite) => w.index == 0x41 && w.locus == n && w.val == v;
      let o := (s.core n).cmpart;
      oldest p → near → (∀ t ∈ s.attached n, t.place ≠ .ember) → ∃ u, exec (.cmpartWrite n v) s = .next u ∧ goes p u ∧
        ((s.core n).halted = false ∨ cmpartOk (v &&& 0xFFFFF#64) = false →
          (u.core n).cmpart = o ∧ u.mem = s.mem ∧ (u.core n).inbox = (s.core n).inbox) ∧
        ((s.core n).halted = true → cmpartOk (v &&& 0xFFFFF#64) = true → 512 * (s.core n).ibEntries ≤ bits v.toNat 0 4 * 0x10000 →
          (u.core n).cmpart = v &&& 0xFFFFF#64 ∧ (u.core n).l2 = [] ∧ (u.core n).near = [] ∧
          (u.core n).inbox = List.replicate 8 (0, 0) ∧ ∀ a, Memory.readByte u.mem a =
            if coreAddr n 0 ≤ a ∧ a < coreAddr n 0x100000 ∧
              unitPart o ((a - coreAddr n 0) / 0x10000) ≠ unitPart (v &&& 0xFFFFF#64) ((a - coreAddr n 0) / 0x10000) then 0#8
            else Memory.readByte s.mem a)) ∧
    (let p := fun (w : SysWrite) => w.index == 0x42 && w.locus == n && w.val == v;
      let ok := (s.core n).halted = true ∧ (∀ q ∈ (s.core n).inbox, q.2 = 0) ∧ v.toNat % 4 ≠ 3 ∧
        512 * (64 * 2 ^ (v.toNat % 4)) ≤ (s.core n).spBytes;
      oldest p → ∃ u, exec (.ibxszWrite n v) s = .next u ∧ goes p u ∧ (ok → (u.core n).ibxsz = v &&& 3#64) ∧
        (¬ok → (u.core n).ibxsz = (s.core n).ibxsz)) ∧
    (let p := fun (w : SysWrite) => w.index == 0x40 && w.locus == n && w.val == v;
      let off (l : Nat) : Bool := bits (rfpwrNext (s.core n).rfpwr v).toNat (2 * (l / 16)) 2 == 2;
      oldest p → ((∀ t ∈ s.attached n, t.lineOf.any off = false) → ∃ u, exec (.rfpwrWrite n v) s = .next u ∧ goes p u ∧
          bits (u.core n).rfpwr.toNat 0 2 = 0 ∧ ∀ b, 1 ≤ b → b ≤ 3 → bits (u.core n).rfpwr.toNat (2 * b) 2 =
            if bits v.toNat (2 * b) 2 = 3 then bits (s.core n).rfpwr.toNat (2 * b) 2 else bits v.toNat (2 * b) 2) ∧
        ((∃ t ∈ s.attached n, t.lineOf.any off = true ∧ (t.pinC = true ∨ t.pinG = true)) → exec (.rfpwrWrite n v) s = .next s)) ∧
    (let p := fun (w : SysWrite) => w.index == 0x80 + n && decide (n < 16) && w.val == v;
      oldest p → ∃ u, exec (.klsWrite n v) s = .next u ∧ goes p u ∧ (u.port n).malf = v.extractLsb' 48 16 ∧
        (u.port n).rply = v.extractLsb' 32 16 ∧ (u.port n).sgen = v.extractLsb' 16 16 ∧ (u.port n).twid = v.extractLsb' 6 2 ∧
        (u.port n).st = (s.port n).st ∧ (u.port n).cwid = BitVec.ofNat 2 (max (bits v.toNat 6 2) (s.port n).goodWidth)) ∧
    (let p := fun (w : SysWrite) => w.index == 0xE0 && s.coreDie w.locus == n && w.val == v;
      oldest p → ∃ u, exec (.mrxWrite n v) s = .next u ∧ goes p u ∧ ∀ m, m < (s.die n).mr.length →
        (u.die n).mr.getD m 0#256 =
          if m = v.toNat % 4 ∧ 2 ≤ m then
            BitVec.ofNat 256 (leNat (sha256 (leBytes 32 ((s.die n).mr.getD m 0#256).toNat ++ s.physBytes (bits v.toNat 6 50 * 64) 64)))
          else (s.die n).mr.getD m 0#256) ∧
    (let p := fun (w : SysWrite) => w.index == 0xE1 && w.val == v;
      oldest p → ∃ u, exec (.attsWrite v) s = .next u ∧ goes p u ∧ u.attBusy = true ∧
        u.attAddr = if s.attBusy then s.attAddr else v) ∧
    (let a := s.attAddr.toNat;
      s.attBusy = true → ∃ u, exec .attestDone s = .next u ∧ u.attBusy = false ∧
        (a % 2 ^ 15 ≠ 0 ∨ Config.physEnd < a + 2 ^ 15 → u.attStat = 1#3 ∧ u.mem = s.mem) ∧
        (a % 2 ^ 15 = 0 → a + 2 ^ 15 ≤ Config.physEnd → s.quiet = true → (s.die 0).mr.length = 4 →
          u.attStat = 0#3 ∧ u.readMem a 0xC0 = s.reportBody a ∧
          u.readMem (a + 0x100) 16224 = (List.range 16224).map (Config.signByte (s.reportBody a)) ∧
          ∀ b, b < a ∨ a + 2 ^ 15 ≤ b → Memory.readByte u.mem b = Memory.readByte s.mem b))

/-- Device reset, readiness bits, fatal temperature, clocks, gating and the management sideband (R207, R415, R416, R417, R418, R420, R421, R424, R425, R426). It rests on the model's own choices or readings of logs 8, 9, 43, 44, 61. -/
def Obligations.BringUpAndPower : Prop :=
  ∀ (s : State),
    (∀ image, ∃ u, exec (.deviceReset image) s = .next u ∧ u.mem = [] ∧ u.flight = [] ∧
      u.bgen = (if s.flashGen = 0xFF#8 then 1#8 else s.flashGen + 1#8) ∧ u.flashGen = u.bgen ∧ u.flash = image ∧
      u.hostTx.take s.hostTx.length = s.hostTx ∧ u.i3cAddr = s.i3cAddr ∧ u.thr.wait = .ended ∧
      u.pool.map (fun t => (t.core, t.wait)) =
        ([0, 1, 2, 3].filter fun d => (bootFails image d).isNone).map (fun d => (hearthOf d, Wait.ready)) ∧
      (∀ t ∈ u.pool, t.ctx.st = 3#64) ∧ ∀ d, d < 4 → u.dieFatal d = (bootFails image d).isSome ∧ u.rdyd.getLsbD d = (bootFails image d).isNone ∧
        (u.die d).bst = (bootFails image d).getD 0#3 ∧ (u.die d).mr =
          if (bootFails image d).isNone then [extended 0 (Config.romVersion d), extended 0 (imageBody image), 0#256, 0#256] else List.replicate 4 0#256) ∧
    (∀ k, k < 512 → ∃ u, exec (.clusterReady k) s = .next u ∧ u = { s with rdyc := u.rdyc, pool := u.pool, serial := u.serial } ∧
      (∀ j, j ∈ u.rdyc ↔ j = k ∨ j ∈ s.rdyc) ∧ (∀ t ∈ s.pool, t ∈ u.pool) ∧
      (k ∉ s.rdyc → ∀ n ∈ s.clusterCores k, (u.attached n).any Thread.isWalker = true)) ∧
    (s.hostIn = [] → ∀ c, c < 128 → (c ∉ s.flm → ∃ u, exec (.dramTrainDone c) s = .next u ∧ u = { s with rdym := u.rdym } ∧
        ∀ j, j ∈ u.rdym ↔ j = c ∨ j ∈ s.rdym) ∧
      (c ∉ s.rdym → ∃ u, exec (.dramTrainFail c) s = .next u ∧ u = { s with flm := u.flm } ∧
        ∀ j, j ∈ u.flm ↔ j = c ∨ j ∈ s.flm)) ∧
    (∀ d, s.hostIn = [] → d < 4 → s.dieFatal d = false → ∃ u, exec (.thermalFatal d) s = .next u ∧ u.dieFatal d = true ∧
      u.rdyd.getLsbD d = false ∧ u.rdyd.getLsbD (4 + d) = false ∧ HostTx.inBand 1#8 ∈ u.hostTx ∧
      (d ≠ 0 → s.dieFatal 0 = false → 0 ∈ u.pba ∨ ∃ a v, HostTx.msix 0 a v ∈ u.hostTx) ∧
      ∀ n, n < Config.nCores → s.coreDie n = d → u.homeDead n = true) ∧
    (∀ d power temp, s.hostIn = [] → d < 4 → 115 ≤ temp.toNat → s.dieFatal d = false →
      ∃ u, exec (.clockAdjust d power temp) s = .next u ∧ (u.die d).tmp = temp ∧ u.dieFatal d = true ∧ HostTx.inBand 1#8 ∈ u.hostTx) ∧
    (∀ d power temp, d < 4 → temp.toNat < 115 ∨ s.dieFatal d = true → ∃ u, exec (.clockAdjust d power temp) s = .next u ∧
      u = { s with dies := u.dies, hostTx := u.hostTx } ∧ (u.die d).pwr = power ∧ (u.die d).tmp = temp ∧
      (∀ e, e ≠ d → u.die e = s.die e) ∧
      let hot : Prop := 100 ≤ temp.toNat ∨ s.pcap.toNat < u.power
      (hot → (u.die d).clk = max 500 ((s.die d).clk - 50) ∧
        u.hostTx = if (s.die d).throttled then s.hostTx else s.hostTx ++ [.inBand 2#8]) ∧
      (¬hot → (u.die d).clk = min 1000 ((s.die d).clk + 50) ∧ u.hostTx = s.hostTx)) ∧
    (∀ k unit, k < 512 → unit < 3 → s.unitIdle k unit = true → ∃ u, exec (.unitGate k unit) s = .next u ∧
      u = { s with clusters := u.clusters } ∧ unit ∈ (u.cluster k).gated) ∧
    (∀ a, s.i3cAddr = none → exec (.i3cEntdaa a) s = .next { s with i3cAddr := some a } ∧
      exec (.i3cSetdasa a) s = .next { s with i3cAddr := some a }) ∧
    (∀ off len, s.i3cAddr ≠ none → off + len ≤ 64 → exec (.i3cPrivateRead off len) s =
      .next { s with hostTx := s.hostTx ++ [.i3c ((s.i3cSpace.drop off).take len)] }) ∧
    (∀ off bs, ∃ u, exec (.i3cPrivateWrite off bs) s = .next u ∧ u = s)

/-- Twelve-byte words written out from the encoding tables decode to the instructions they stand for (R23, R29, R36). -/
def Obligations.WordsOfTheEncodingTables : Prop :=
  let h : Head := ⟨false, 0#3, 0#4, 0#2, false⟩
    let r (n : BitVec 4) : Opnd := .reg n false false false
    decodeBytes true [0x00, 0x00, 0xE0, 0x00, 0x00, 0xE0, 0xF1, 0xFF, 0x7F, 0x00, 0x00, 0x02] = .ok (.br ⟨h, .imm (-15), .absent, .absent⟩, []) ∧
    decodeBytes true [0x00, 0x00, 0xE0, 0x00, 0x00, 0xE0, 0x09, 0x00, 0x60, 0x00, 0x01, 0x02] =
      .ok (.br ⟨{ h with gp := 1#3 }, .imm 9, .absent, .absent⟩, []) ∧
    decodeBytes true [0x00, 0x00, 0x60, 0x04, 0x00, 0x00, 0x06, 0x00, 0x00, 0x00, 0x00, 0x52] = .ok (.ldc ⟨h, r 6, r 4, .imm 0⟩, []) ∧
    decodeBytes true [0x00, 0x00, 0x60, 0x04, 0x00, 0x00, 0x0B, 0x00, 0x00, 0x00, 0x00, 0xC0] = .ok (.cpy ⟨h, r 11, r 4, .imm 0⟩, []) ∧
    decodeBytes true [0x03, 0x00, 0x60, 0x02, 0x00, 0x00, 0x06, 0x00, 0x00, 0x00, 0x00, 0xCF] = .ok (.bstep ⟨h, r 6, r 2, .imm 3⟩, []) ∧
    decodeBytes true [0x00, 0x00, 0xE0, 0x04, 0x00, 0x00, 0x00, 0x00, 0x00, 0x00, 0x00, 0xF0] = .ok (.qmap ⟨h, r 0, r 4, .absent⟩, []) ∧
    decodeBytes true [0x08, 0x00, 0x00, 0x00, 0x00, 0x60, 0x07, 0x00, 0x00, 0x00, 0x30, 0xE1] = .ok (.tlbi .dev ⟨h, r 7, .imm 0, r 8⟩, []) ∧
    decodeBytes true [0x05, 0x00, 0x00, 0x04, 0x00, 0x00, 0xA0, 0x01, 0x60, 0x00, 0x90, 0xB3] =
      .ok (.mmac .b16 ⟨h, .imm 416, r 4, r 5⟩, []) ∧
    decodeBytes true [0x06, 0x00, 0x04, 0x04, 0x00, 0x00, 0x05, 0x00, 0x00, 0x00, 0xA0, 0x83] =
      .ok (.vfma .f32 ⟨h, r 5, r 4, .reg 6 false false true⟩, []) ∧
    decodeBytes true (List.replicate 12 0x00) = .error (.ill 1#4 0#2) ∧
    decodeBytes true (List.replicate 11 0x00 ++ [0x0C]) = .error (.ill 2#4 0#2) ∧
    decodeBytes false (List.replicate 11 0x00 ++ [0xE1]) = .error .priv ∧
    decodeBytes true [0x00, 0x00, 0xE0, 0x00, 0x00, 0xE0, 0x00, 0x00, 0xE0, 0x01, 0x00, 0x01] = .error (.ill 4#4 0#2)

/-- For every well-formed instruction word, decoding its encoding gives it back, with every operand, type and modifier (R23, R25, R26, R27, R28, R29, R30, R35, R36, R37). -/
def Obligations.DecodeOfEncodeIsTheInstruction : Prop :=
  (∀ i : Instr, i.wf = true → decode (encode i) = .ok i ∧ wordOfBytes (bytesOfWord (encode i)) = some (encode i) ∧
      decodeAt false (encode i) = (if opHOnly i.op.toNat then .error .priv else .ok i)) ∧
    (∀ i j : Instr, i.wf = true → j.wf = true → encode i = encode j → i = j)

/-- A step fetches the word at PC, and is exec of the instruction that the word decodes to (R20, R23, R24, R37, R148, R428). It rests on the model's own choices or readings of logs 1, 2, 3, 4, 66. -/
def Obligations.StepRunsTheDecodedWord : Prop :=
  (∀ (s0 s1 : State) (gap : Nat) bs far w, (s0.takeTurn gap).fetch = .got bs far s1 → wordOfBytes bs = some w →
      (∀ i, decodeAt s1.levelH w = .ok i → runThread gap s0 = exec i s1) ∧
      (∀ r, decodeAt s1.levelH w = .error r → runThread gap s0 = .next (Eff.finish issueless s1 (raiseReject w r)))) ∧
    (∀ (s : State) (t : Turn) (ts : List Turn), s.agenda = t :: ts → t.ev = none →
      let s0 := (((({ s with agenda := ts } : State).pass t.cycles).launch t.sent).meet t.glitch).select t.sel
      s0.thr.canTake t.gap = true → step s = afterStep (runThread t.gap s0)) ∧
    (∀ s : State, s.agenda = [] → s.beat ≠ 3 → s.beat ≠ 7 → s.thr.canIssue = true →
      step s = afterStep (runThread 0 { s.pass (fun _ => 8) with beat := (s.beat + 1) % 8 })) ∧
    (∀ s : State, s.bankAsleep = none →
      (s.thr.res.fetched.length = 12 → s.fetch = .got s.thr.res.fetched false (s.mapRes fun r => { r with fetched := [] })) ∧
      (∀ ts g, s.thr.res.fetched = [] → s.pc.toNat % 4 = 0 → s.cachedSet s.thr.core s.task = some ts → ts.gva nFetch s.pc 12 = some g →
        let v := s.setCore s.thr.core (CoreSt.touchSet s.task)
        v.area v.levelH nFetch g 12 ≠ .none → oneAccess (v.area v.levelH nFetch g 12) = false →
        let waits (bs : List Byte) (t u : State) : Prop := u = { t with thr := u.thr } ∧
          u.thr = { t.thr with wait := .fetch, fetchAt := s.now s.thr.core, fetchAhead := 0, res := { t.thr.res with fetched := bs } }
        (∀ bs far t, g % 128 + 12 ≤ 128 → v.fetchPart s.pc g 12 = .got bs far t →
          (far = false → s.fetch = .got bs false t) ∧ (far = true → ∃ u, s.fetch = .stop (.again u) ∧ waits bs t u)) ∧
        (∀ b1 f1 t1 b2 f2 t, 128 < g % 128 + 12 → v.fetchPart s.pc g (128 - g % 128) = .got b1 f1 t1 →
          t1.fetchPart s.pc (g + (128 - g % 128)) (12 - (128 - g % 128)) = .got b2 f2 t →
          ((f1 || f2) = false → s.fetch = .got (b1 ++ b2) false t) ∧
          ((f1 || f2) = true → ∃ u, s.fetch = .stop (.again u) ∧ waits (b1 ++ b2) t u)))) ∧
    (∀ (s s1 : State) ea g n a h pg lf, s.locate s.me nFetch g n = .loc (.mem a h pg lf) s1 →
      (∀ bs, s1.nearBytes true 0#2 (.mem a h pg lf) n = some bs → s.fetchPart ea g n = .got bs false s1) ∧
      (s1.nearBytes true 0#2 (.mem a h pg lf) n = none → s1.homeOpen a h = true → s1.poisoned a n = false →
        ∃ u, s.fetchPart ea g n = .got (s1.readMem a n) (h != s.thr.core || pg) u ∧ u.thr = s.thr ∧ MemKept s u))

/-- Right after reset nothing runs, memory lists nothing, and registers hold the values the rules give (R8, R79, R90, R145, R146, R205, R357, R403, R415, R421, R424). It rests on the model's own choices or readings of logs 3, 7, 8. -/
def Obligations.StateAfterReset : Prop :=
  let s := State.reset;
    s.Inv ∧ s.threads = [] ∧ (∀ a, Memory.readByte s.mem a = 0#8) ∧ (∀ a, s.isFull a = true) ∧ s.poison = [] ∧
    (∀ n, s.mapEntry n = (.live, n % 64, n / 64)) ∧
    (∀ n, (s.core n).cmpart = 0x11176#64 ∧ (s.core n).rfpwr = 0#64 ∧ (s.core n).ibxsz = 0#64 ∧ (∀ c, (s.core n).ibCount c = 0) ∧
      (s.core n).halted = false) ∧ (∀ k, (s.cluster k).tgen = 1#32) ∧
    (∀ d, (s.die d).frb = 0#64 ∧ ∀ m, (s.die d).mr.getD m 0#256 = 0#256) ∧ (∀ p, (s.port p).kls = 0#64) ∧
    s.rdydWord = 0#64 ∧ s.rdyc = [] ∧ s.rdym = [] ∧ s.flm = [] ∧ s.pcap = 1250#64 ∧ s.attBusy = false

/-- A write is read back byte by byte, leaves every other byte alone, and keeps the one canonical form of memory (R3, R151, R166). It rests on the model's own choices or readings of log 7. -/
def Obligations.MemoryHoldsWhatWasWritten : Prop :=
  (∀ (m : List Host.Cell) (a : Nat) (bs : List Byte), Memory.wf m = true → Memory.wf (Memory.write m a bs) = true ∧
      Memory.read (Memory.write m a bs) a bs.length = bs ∧
      ∀ b, b < a ∨ a + bs.length ≤ b → Memory.readByte (Memory.write m a bs) b = Memory.readByte m b) ∧
    (∀ m n : List Host.Cell, Memory.wf m = true → Memory.wf n = true → (∀ a, Memory.readByte m a = Memory.readByte n a) → m = n) ∧
    (∀ (s : State) (a : Nat) (v : Word), s.Inv → (s.writeWord a v).Inv ∧ (s.writeWord a v).readWord a = v ∧
      (s.writeWord a v).isFull a = true)

/-- From every state with canonical memory, every instruction and every step answers a next state whose memory is canonical (R3, R23, R37). -/
def Obligations.EveryStepKeepsTheInvariant : Prop :=
  ∀ s : State, s.Inv → (∀ i : Instr, ∃ u, exec i s = .next u ∧ u.Inv) ∧ ∃ u, step s = .next u ∧ u.Inv
end

