-- ==== Sys2Proof/Laws/State.lean ====
section
/-! SUPPORT. What each plain update of the state does to each field: true by unfolding. -/

namespace Sys2Proof.Machine

@[simp] theorem State.mapThr_agenda (f : Thread → Thread) (s : State) : (s.mapThr f).agenda = s.agenda := rfl
@[simp] theorem State.mapThr_serial (f : Thread → Thread) (s : State) : (s.mapThr f).serial = s.serial := rfl
@[simp] theorem State.mapThr_beat (f : Thread → Thread) (s : State) : (s.mapThr f).beat = s.beat := rfl
@[simp] theorem State.mapThr_pick (f : Thread → Thread) (s : State) : (s.mapThr f).pick = s.pick := rfl
@[simp] theorem State.mapThr_thr (f : Thread → Thread) (s : State) : (s.mapThr f).thr = f s.thr := rfl
@[simp] theorem State.mapThr_pool (f : Thread → Thread) (s : State) : (s.mapThr f).pool = s.pool := rfl
@[simp] theorem State.mapThr_cores (f : Thread → Thread) (s : State) : (s.mapThr f).cores = s.cores := rfl
@[simp] theorem State.mapThr_clusters (f : Thread → Thread) (s : State) : (s.mapThr f).clusters = s.clusters := rfl
@[simp] theorem State.mapThr_dies (f : Thread → Thread) (s : State) : (s.mapThr f).dies = s.dies := rfl
@[simp] theorem State.mapThr_ports (f : Thread → Thread) (s : State) : (s.mapThr f).ports = s.ports := rfl
@[simp] theorem State.mapThr_coreMap (f : Thread → Thread) (s : State) : (s.mapThr f).coreMap = s.coreMap := rfl
@[simp] theorem State.mapThr_mem (f : Thread → Thread) (s : State) : (s.mapThr f).mem = s.mem := rfl
@[simp] theorem State.mapThr_asks (f : Thread → Thread) (s : State) : (s.mapThr f).asks = s.asks := rfl
@[simp] theorem State.mapThr_trying (f : Thread → Thread) (s : State) : (s.mapThr f).trying = s.trying := rfl
@[simp] theorem State.mapThr_empties (f : Thread → Thread) (s : State) : (s.mapThr f).empties = s.empties := rfl
@[simp] theorem State.mapThr_poison (f : Thread → Thread) (s : State) : (s.mapThr f).poison = s.poison := rfl
@[simp] theorem State.mapThr_path (f : Thread → Thread) (s : State) : (s.mapThr f).path = s.path := rfl
@[simp] theorem State.mapThr_tskb (f : Thread → Thread) (s : State) : (s.mapThr f).tskb = s.tskb := rfl
@[simp] theorem State.mapThr_hmtb (f : Thread → Thread) (s : State) : (s.mapThr f).hmtb = s.hmtb := rfl
@[simp] theorem State.mapThr_pwtb (f : Thread → Thread) (s : State) : (s.mapThr f).pwtb = s.pwtb := rfl
@[simp] theorem State.mapThr_partb (f : Thread → Thread) (s : State) : (s.mapThr f).partb = s.partb := rfl
@[simp] theorem State.mapThr_masks (f : Thread → Thread) (s : State) : (s.mapThr f).masks = s.masks := rfl
@[simp] theorem State.mapThr_peers1 (f : Thread → Thread) (s : State) : (s.mapThr f).peers1 = s.peers1 := rfl
@[simp] theorem State.mapThr_peers2 (f : Thread → Thread) (s : State) : (s.mapThr f).peers2 = s.peers2 := rfl
@[simp] theorem State.mapThr_bgen (f : Thread → Thread) (s : State) : (s.mapThr f).bgen = s.bgen := rfl
@[simp] theorem State.mapThr_flash (f : Thread → Thread) (s : State) : (s.mapThr f).flash = s.flash := rfl
@[simp] theorem State.mapThr_flashGen (f : Thread → Thread) (s : State) : (s.mapThr f).flashGen = s.flashGen := rfl
@[simp] theorem State.mapThr_tgen (f : Thread → Thread) (s : State) : (s.mapThr f).tgen = s.tgen := rfl
@[simp] theorem State.mapThr_pops (f : Thread → Thread) (s : State) : (s.mapThr f).pops = s.pops := rfl
@[simp] theorem State.mapThr_flight (f : Thread → Thread) (s : State) : (s.mapThr f).flight = s.flight := rfl
@[simp] theorem State.mapThr_waiters (f : Thread → Thread) (s : State) : (s.mapThr f).waiters = s.waiters := rfl
@[simp] theorem State.mapThr_owed (f : Thread → Thread) (s : State) : (s.mapThr f).owed = s.owed := rfl
@[simp] theorem State.mapThr_acks (f : Thread → Thread) (s : State) : (s.mapThr f).acks = s.acks := rfl
@[simp] theorem State.mapThr_naks (f : Thread → Thread) (s : State) : (s.mapThr f).naks = s.naks := rfl
@[simp] theorem State.mapThr_hops (f : Thread → Thread) (s : State) : (s.mapThr f).hops = s.hops := rfl
@[simp] theorem State.mapThr_pings (f : Thread → Thread) (s : State) : (s.mapThr f).pings = s.pings := rfl
@[simp] theorem State.mapThr_wakeReqs (f : Thread → Thread) (s : State) : (s.mapThr f).wakeReqs = s.wakeReqs := rfl
@[simp] theorem State.mapThr_sysWakes (f : Thread → Thread) (s : State) : (s.mapThr f).sysWakes = s.sysWakes := rfl
@[simp] theorem State.mapThr_wkxs (f : Thread → Thread) (s : State) : (s.mapThr f).wkxs = s.wkxs := rfl
@[simp] theorem State.mapThr_sysWrites (f : Thread → Thread) (s : State) : (s.mapThr f).sysWrites = s.sysWrites := rfl
@[simp] theorem State.mapThr_msgs (f : Thread → Thread) (s : State) : (s.mapThr f).msgs = s.msgs := rfl
@[simp] theorem State.mapThr_flue (f : Thread → Thread) (s : State) : (s.mapThr f).flue = s.flue := rfl
@[simp] theorem State.mapThr_flits (f : Thread → Thread) (s : State) : (s.mapThr f).flits = s.flits := rfl
@[simp] theorem State.mapThr_drifts (f : Thread → Thread) (s : State) : (s.mapThr f).drifts = s.drifts := rfl
@[simp] theorem State.mapThr_portLast (f : Thread → Thread) (s : State) : (s.mapThr f).portLast = s.portLast := rfl
@[simp] theorem State.mapThr_hostTx (f : Thread → Thread) (s : State) : (s.mapThr f).hostTx = s.hostTx := rfl
@[simp] theorem State.mapThr_hostReads (f : Thread → Thread) (s : State) : (s.mapThr f).hostReads = s.hostReads := rfl
@[simp] theorem State.mapThr_hostHold (f : Thread → Thread) (s : State) : (s.mapThr f).hostHold = s.hostHold := rfl
@[simp] theorem State.mapThr_hostQ (f : Thread → Thread) (s : State) : (s.mapThr f).hostQ = s.hostQ := rfl
@[simp] theorem State.mapThr_hostIn (f : Thread → Thread) (s : State) : (s.mapThr f).hostIn = s.hostIn := rfl
@[simp] theorem State.mapThr_regions (f : Thread → Thread) (s : State) : (s.mapThr f).regions = s.regions := rfl
@[simp] theorem State.mapThr_groupGens (f : Thread → Thread) (s : State) : (s.mapThr f).groupGens = s.groupGens := rfl
@[simp] theorem State.mapThr_seqs (f : Thread → Thread) (s : State) : (s.mapThr f).seqs = s.seqs := rfl
@[simp] theorem State.mapThr_halves (f : Thread → Thread) (s : State) : (s.mapThr f).halves = s.halves := rfl
@[simp] theorem State.mapThr_answers (f : Thread → Thread) (s : State) : (s.mapThr f).answers = s.answers := rfl
@[simp] theorem State.mapThr_recalls (f : Thread → Thread) (s : State) : (s.mapThr f).recalls = s.recalls := rfl
@[simp] theorem State.mapThr_reasms (f : Thread → Thread) (s : State) : (s.mapThr f).reasms = s.reasms := rfl
@[simp] theorem State.mapThr_brineQ (f : Thread → Thread) (s : State) : (s.mapThr f).brineQ = s.brineQ := rfl
@[simp] theorem State.mapThr_rounds (f : Thread → Thread) (s : State) : (s.mapThr f).rounds = s.rounds := rfl
@[simp] theorem State.mapThr_abandoned (f : Thread → Thread) (s : State) : (s.mapThr f).abandoned = s.abandoned := rfl
@[simp] theorem State.mapThr_proposals (f : Thread → Thread) (s : State) : (s.mapThr f).proposals = s.proposals := rfl
@[simp] theorem State.mapThr_states (f : Thread → Thread) (s : State) : (s.mapThr f).states = s.states := rfl
@[simp] theorem State.mapThr_done (f : Thread → Thread) (s : State) : (s.mapThr f).done = s.done := rfl
@[simp] theorem State.mapThr_bells (f : Thread → Thread) (s : State) : (s.mapThr f).bells = s.bells := rfl
@[simp] theorem State.mapThr_mboxRegs (f : Thread → Thread) (s : State) : (s.mapThr f).mboxRegs = s.mboxRegs := rfl
@[simp] theorem State.mapThr_w2base (f : Thread → Thread) (s : State) : (s.mapThr f).w2base = s.w2base := rfl
@[simp] theorem State.mapThr_msix (f : Thread → Thread) (s : State) : (s.mapThr f).msix = s.msix := rfl
@[simp] theorem State.mapThr_fmask (f : Thread → Thread) (s : State) : (s.mapThr f).fmask = s.fmask := rfl
@[simp] theorem State.mapThr_lateVecs (f : Thread → Thread) (s : State) : (s.mapThr f).lateVecs = s.lateVecs := rfl
@[simp] theorem State.mapThr_pba (f : Thread → Thread) (s : State) : (s.mapThr f).pba = s.pba := rfl
@[simp] theorem State.mapThr_rdyd (f : Thread → Thread) (s : State) : (s.mapThr f).rdyd = s.rdyd := rfl
@[simp] theorem State.mapThr_rdyc (f : Thread → Thread) (s : State) : (s.mapThr f).rdyc = s.rdyc := rfl
@[simp] theorem State.mapThr_rdym (f : Thread → Thread) (s : State) : (s.mapThr f).rdym = s.rdym := rfl
@[simp] theorem State.mapThr_flm (f : Thread → Thread) (s : State) : (s.mapThr f).flm = s.flm := rfl
@[simp] theorem State.mapThr_pcap (f : Thread → Thread) (s : State) : (s.mapThr f).pcap = s.pcap := rfl
@[simp] theorem State.mapThr_attBusy (f : Thread → Thread) (s : State) : (s.mapThr f).attBusy = s.attBusy := rfl
@[simp] theorem State.mapThr_attStat (f : Thread → Thread) (s : State) : (s.mapThr f).attStat = s.attStat := rfl
@[simp] theorem State.mapThr_attAddr (f : Thread → Thread) (s : State) : (s.mapThr f).attAddr = s.attAddr := rfl
@[simp] theorem State.mapThr_i3cAddr (f : Thread → Thread) (s : State) : (s.mapThr f).i3cAddr = s.i3cAddr := rfl

@[simp] theorem State.mapCtx_agenda (f : Ctx → Ctx) (s : State) : (s.mapCtx f).agenda = s.agenda := rfl
@[simp] theorem State.mapCtx_serial (f : Ctx → Ctx) (s : State) : (s.mapCtx f).serial = s.serial := rfl
@[simp] theorem State.mapCtx_beat (f : Ctx → Ctx) (s : State) : (s.mapCtx f).beat = s.beat := rfl
@[simp] theorem State.mapCtx_pick (f : Ctx → Ctx) (s : State) : (s.mapCtx f).pick = s.pick := rfl
@[simp] theorem State.mapCtx_thr (f : Ctx → Ctx) (s : State) : (s.mapCtx f).thr = { s.thr with ctx := f s.thr.ctx } := rfl
@[simp] theorem State.mapCtx_pool (f : Ctx → Ctx) (s : State) : (s.mapCtx f).pool = s.pool := rfl
@[simp] theorem State.mapCtx_cores (f : Ctx → Ctx) (s : State) : (s.mapCtx f).cores = s.cores := rfl
@[simp] theorem State.mapCtx_clusters (f : Ctx → Ctx) (s : State) : (s.mapCtx f).clusters = s.clusters := rfl
@[simp] theorem State.mapCtx_dies (f : Ctx → Ctx) (s : State) : (s.mapCtx f).dies = s.dies := rfl
@[simp] theorem State.mapCtx_ports (f : Ctx → Ctx) (s : State) : (s.mapCtx f).ports = s.ports := rfl
@[simp] theorem State.mapCtx_coreMap (f : Ctx → Ctx) (s : State) : (s.mapCtx f).coreMap = s.coreMap := rfl
@[simp] theorem State.mapCtx_mem (f : Ctx → Ctx) (s : State) : (s.mapCtx f).mem = s.mem := rfl
@[simp] theorem State.mapCtx_asks (f : Ctx → Ctx) (s : State) : (s.mapCtx f).asks = s.asks := rfl
@[simp] theorem State.mapCtx_trying (f : Ctx → Ctx) (s : State) : (s.mapCtx f).trying = s.trying := rfl
@[simp] theorem State.mapCtx_empties (f : Ctx → Ctx) (s : State) : (s.mapCtx f).empties = s.empties := rfl
@[simp] theorem State.mapCtx_poison (f : Ctx → Ctx) (s : State) : (s.mapCtx f).poison = s.poison := rfl
@[simp] theorem State.mapCtx_path (f : Ctx → Ctx) (s : State) : (s.mapCtx f).path = s.path := rfl
@[simp] theorem State.mapCtx_tskb (f : Ctx → Ctx) (s : State) : (s.mapCtx f).tskb = s.tskb := rfl
@[simp] theorem State.mapCtx_hmtb (f : Ctx → Ctx) (s : State) : (s.mapCtx f).hmtb = s.hmtb := rfl
@[simp] theorem State.mapCtx_pwtb (f : Ctx → Ctx) (s : State) : (s.mapCtx f).pwtb = s.pwtb := rfl
@[simp] theorem State.mapCtx_partb (f : Ctx → Ctx) (s : State) : (s.mapCtx f).partb = s.partb := rfl
@[simp] theorem State.mapCtx_masks (f : Ctx → Ctx) (s : State) : (s.mapCtx f).masks = s.masks := rfl
@[simp] theorem State.mapCtx_peers1 (f : Ctx → Ctx) (s : State) : (s.mapCtx f).peers1 = s.peers1 := rfl
@[simp] theorem State.mapCtx_peers2 (f : Ctx → Ctx) (s : State) : (s.mapCtx f).peers2 = s.peers2 := rfl
@[simp] theorem State.mapCtx_bgen (f : Ctx → Ctx) (s : State) : (s.mapCtx f).bgen = s.bgen := rfl
@[simp] theorem State.mapCtx_flash (f : Ctx → Ctx) (s : State) : (s.mapCtx f).flash = s.flash := rfl
@[simp] theorem State.mapCtx_flashGen (f : Ctx → Ctx) (s : State) : (s.mapCtx f).flashGen = s.flashGen := rfl
@[simp] theorem State.mapCtx_tgen (f : Ctx → Ctx) (s : State) : (s.mapCtx f).tgen = s.tgen := rfl
@[simp] theorem State.mapCtx_pops (f : Ctx → Ctx) (s : State) : (s.mapCtx f).pops = s.pops := rfl
@[simp] theorem State.mapCtx_flight (f : Ctx → Ctx) (s : State) : (s.mapCtx f).flight = s.flight := rfl
@[simp] theorem State.mapCtx_waiters (f : Ctx → Ctx) (s : State) : (s.mapCtx f).waiters = s.waiters := rfl
@[simp] theorem State.mapCtx_owed (f : Ctx → Ctx) (s : State) : (s.mapCtx f).owed = s.owed := rfl
@[simp] theorem State.mapCtx_acks (f : Ctx → Ctx) (s : State) : (s.mapCtx f).acks = s.acks := rfl
@[simp] theorem State.mapCtx_naks (f : Ctx → Ctx) (s : State) : (s.mapCtx f).naks = s.naks := rfl
@[simp] theorem State.mapCtx_hops (f : Ctx → Ctx) (s : State) : (s.mapCtx f).hops = s.hops := rfl
@[simp] theorem State.mapCtx_pings (f : Ctx → Ctx) (s : State) : (s.mapCtx f).pings = s.pings := rfl
@[simp] theorem State.mapCtx_wakeReqs (f : Ctx → Ctx) (s : State) : (s.mapCtx f).wakeReqs = s.wakeReqs := rfl
@[simp] theorem State.mapCtx_sysWakes (f : Ctx → Ctx) (s : State) : (s.mapCtx f).sysWakes = s.sysWakes := rfl
@[simp] theorem State.mapCtx_wkxs (f : Ctx → Ctx) (s : State) : (s.mapCtx f).wkxs = s.wkxs := rfl
@[simp] theorem State.mapCtx_sysWrites (f : Ctx → Ctx) (s : State) : (s.mapCtx f).sysWrites = s.sysWrites := rfl
@[simp] theorem State.mapCtx_msgs (f : Ctx → Ctx) (s : State) : (s.mapCtx f).msgs = s.msgs := rfl
@[simp] theorem State.mapCtx_flue (f : Ctx → Ctx) (s : State) : (s.mapCtx f).flue = s.flue := rfl
@[simp] theorem State.mapCtx_flits (f : Ctx → Ctx) (s : State) : (s.mapCtx f).flits = s.flits := rfl
@[simp] theorem State.mapCtx_drifts (f : Ctx → Ctx) (s : State) : (s.mapCtx f).drifts = s.drifts := rfl
@[simp] theorem State.mapCtx_portLast (f : Ctx → Ctx) (s : State) : (s.mapCtx f).portLast = s.portLast := rfl
@[simp] theorem State.mapCtx_hostTx (f : Ctx → Ctx) (s : State) : (s.mapCtx f).hostTx = s.hostTx := rfl
@[simp] theorem State.mapCtx_hostReads (f : Ctx → Ctx) (s : State) : (s.mapCtx f).hostReads = s.hostReads := rfl
@[simp] theorem State.mapCtx_hostHold (f : Ctx → Ctx) (s : State) : (s.mapCtx f).hostHold = s.hostHold := rfl
@[simp] theorem State.mapCtx_hostQ (f : Ctx → Ctx) (s : State) : (s.mapCtx f).hostQ = s.hostQ := rfl
@[simp] theorem State.mapCtx_hostIn (f : Ctx → Ctx) (s : State) : (s.mapCtx f).hostIn = s.hostIn := rfl
@[simp] theorem State.mapCtx_regions (f : Ctx → Ctx) (s : State) : (s.mapCtx f).regions = s.regions := rfl
@[simp] theorem State.mapCtx_groupGens (f : Ctx → Ctx) (s : State) : (s.mapCtx f).groupGens = s.groupGens := rfl
@[simp] theorem State.mapCtx_seqs (f : Ctx → Ctx) (s : State) : (s.mapCtx f).seqs = s.seqs := rfl
@[simp] theorem State.mapCtx_halves (f : Ctx → Ctx) (s : State) : (s.mapCtx f).halves = s.halves := rfl
@[simp] theorem State.mapCtx_answers (f : Ctx → Ctx) (s : State) : (s.mapCtx f).answers = s.answers := rfl
@[simp] theorem State.mapCtx_recalls (f : Ctx → Ctx) (s : State) : (s.mapCtx f).recalls = s.recalls := rfl
@[simp] theorem State.mapCtx_reasms (f : Ctx → Ctx) (s : State) : (s.mapCtx f).reasms = s.reasms := rfl
@[simp] theorem State.mapCtx_brineQ (f : Ctx → Ctx) (s : State) : (s.mapCtx f).brineQ = s.brineQ := rfl
@[simp] theorem State.mapCtx_rounds (f : Ctx → Ctx) (s : State) : (s.mapCtx f).rounds = s.rounds := rfl
@[simp] theorem State.mapCtx_abandoned (f : Ctx → Ctx) (s : State) : (s.mapCtx f).abandoned = s.abandoned := rfl
@[simp] theorem State.mapCtx_proposals (f : Ctx → Ctx) (s : State) : (s.mapCtx f).proposals = s.proposals := rfl
@[simp] theorem State.mapCtx_states (f : Ctx → Ctx) (s : State) : (s.mapCtx f).states = s.states := rfl
@[simp] theorem State.mapCtx_done (f : Ctx → Ctx) (s : State) : (s.mapCtx f).done = s.done := rfl
@[simp] theorem State.mapCtx_bells (f : Ctx → Ctx) (s : State) : (s.mapCtx f).bells = s.bells := rfl
@[simp] theorem State.mapCtx_mboxRegs (f : Ctx → Ctx) (s : State) : (s.mapCtx f).mboxRegs = s.mboxRegs := rfl
@[simp] theorem State.mapCtx_w2base (f : Ctx → Ctx) (s : State) : (s.mapCtx f).w2base = s.w2base := rfl
@[simp] theorem State.mapCtx_msix (f : Ctx → Ctx) (s : State) : (s.mapCtx f).msix = s.msix := rfl
@[simp] theorem State.mapCtx_fmask (f : Ctx → Ctx) (s : State) : (s.mapCtx f).fmask = s.fmask := rfl
@[simp] theorem State.mapCtx_lateVecs (f : Ctx → Ctx) (s : State) : (s.mapCtx f).lateVecs = s.lateVecs := rfl
@[simp] theorem State.mapCtx_pba (f : Ctx → Ctx) (s : State) : (s.mapCtx f).pba = s.pba := rfl
@[simp] theorem State.mapCtx_rdyd (f : Ctx → Ctx) (s : State) : (s.mapCtx f).rdyd = s.rdyd := rfl
@[simp] theorem State.mapCtx_rdyc (f : Ctx → Ctx) (s : State) : (s.mapCtx f).rdyc = s.rdyc := rfl
@[simp] theorem State.mapCtx_rdym (f : Ctx → Ctx) (s : State) : (s.mapCtx f).rdym = s.rdym := rfl
@[simp] theorem State.mapCtx_flm (f : Ctx → Ctx) (s : State) : (s.mapCtx f).flm = s.flm := rfl
@[simp] theorem State.mapCtx_pcap (f : Ctx → Ctx) (s : State) : (s.mapCtx f).pcap = s.pcap := rfl
@[simp] theorem State.mapCtx_attBusy (f : Ctx → Ctx) (s : State) : (s.mapCtx f).attBusy = s.attBusy := rfl
@[simp] theorem State.mapCtx_attStat (f : Ctx → Ctx) (s : State) : (s.mapCtx f).attStat = s.attStat := rfl
@[simp] theorem State.mapCtx_attAddr (f : Ctx → Ctx) (s : State) : (s.mapCtx f).attAddr = s.attAddr := rfl
@[simp] theorem State.mapCtx_i3cAddr (f : Ctx → Ctx) (s : State) : (s.mapCtx f).i3cAddr = s.i3cAddr := rfl

@[simp] theorem State.mapRes_agenda (f : Resume → Resume) (s : State) : (s.mapRes f).agenda = s.agenda := rfl
@[simp] theorem State.mapRes_serial (f : Resume → Resume) (s : State) : (s.mapRes f).serial = s.serial := rfl
@[simp] theorem State.mapRes_beat (f : Resume → Resume) (s : State) : (s.mapRes f).beat = s.beat := rfl
@[simp] theorem State.mapRes_pick (f : Resume → Resume) (s : State) : (s.mapRes f).pick = s.pick := rfl
@[simp] theorem State.mapRes_thr (f : Resume → Resume) (s : State) : (s.mapRes f).thr = { s.thr with res := f s.thr.res } := rfl
@[simp] theorem State.mapRes_pool (f : Resume → Resume) (s : State) : (s.mapRes f).pool = s.pool := rfl
@[simp] theorem State.mapRes_cores (f : Resume → Resume) (s : State) : (s.mapRes f).cores = s.cores := rfl
@[simp] theorem State.mapRes_clusters (f : Resume → Resume) (s : State) : (s.mapRes f).clusters = s.clusters := rfl
@[simp] theorem State.mapRes_dies (f : Resume → Resume) (s : State) : (s.mapRes f).dies = s.dies := rfl
@[simp] theorem State.mapRes_ports (f : Resume → Resume) (s : State) : (s.mapRes f).ports = s.ports := rfl
@[simp] theorem State.mapRes_coreMap (f : Resume → Resume) (s : State) : (s.mapRes f).coreMap = s.coreMap := rfl
@[simp] theorem State.mapRes_mem (f : Resume → Resume) (s : State) : (s.mapRes f).mem = s.mem := rfl
@[simp] theorem State.mapRes_asks (f : Resume → Resume) (s : State) : (s.mapRes f).asks = s.asks := rfl
@[simp] theorem State.mapRes_trying (f : Resume → Resume) (s : State) : (s.mapRes f).trying = s.trying := rfl
@[simp] theorem State.mapRes_empties (f : Resume → Resume) (s : State) : (s.mapRes f).empties = s.empties := rfl
@[simp] theorem State.mapRes_poison (f : Resume → Resume) (s : State) : (s.mapRes f).poison = s.poison := rfl
@[simp] theorem State.mapRes_path (f : Resume → Resume) (s : State) : (s.mapRes f).path = s.path := rfl
@[simp] theorem State.mapRes_tskb (f : Resume → Resume) (s : State) : (s.mapRes f).tskb = s.tskb := rfl
@[simp] theorem State.mapRes_hmtb (f : Resume → Resume) (s : State) : (s.mapRes f).hmtb = s.hmtb := rfl
@[simp] theorem State.mapRes_pwtb (f : Resume → Resume) (s : State) : (s.mapRes f).pwtb = s.pwtb := rfl
@[simp] theorem State.mapRes_partb (f : Resume → Resume) (s : State) : (s.mapRes f).partb = s.partb := rfl
@[simp] theorem State.mapRes_masks (f : Resume → Resume) (s : State) : (s.mapRes f).masks = s.masks := rfl
@[simp] theorem State.mapRes_peers1 (f : Resume → Resume) (s : State) : (s.mapRes f).peers1 = s.peers1 := rfl
@[simp] theorem State.mapRes_peers2 (f : Resume → Resume) (s : State) : (s.mapRes f).peers2 = s.peers2 := rfl
@[simp] theorem State.mapRes_bgen (f : Resume → Resume) (s : State) : (s.mapRes f).bgen = s.bgen := rfl
@[simp] theorem State.mapRes_flash (f : Resume → Resume) (s : State) : (s.mapRes f).flash = s.flash := rfl
@[simp] theorem State.mapRes_flashGen (f : Resume → Resume) (s : State) : (s.mapRes f).flashGen = s.flashGen := rfl
@[simp] theorem State.mapRes_tgen (f : Resume → Resume) (s : State) : (s.mapRes f).tgen = s.tgen := rfl
@[simp] theorem State.mapRes_pops (f : Resume → Resume) (s : State) : (s.mapRes f).pops = s.pops := rfl
@[simp] theorem State.mapRes_flight (f : Resume → Resume) (s : State) : (s.mapRes f).flight = s.flight := rfl
@[simp] theorem State.mapRes_waiters (f : Resume → Resume) (s : State) : (s.mapRes f).waiters = s.waiters := rfl
@[simp] theorem State.mapRes_owed (f : Resume → Resume) (s : State) : (s.mapRes f).owed = s.owed := rfl
@[simp] theorem State.mapRes_acks (f : Resume → Resume) (s : State) : (s.mapRes f).acks = s.acks := rfl
@[simp] theorem State.mapRes_naks (f : Resume → Resume) (s : State) : (s.mapRes f).naks = s.naks := rfl
@[simp] theorem State.mapRes_hops (f : Resume → Resume) (s : State) : (s.mapRes f).hops = s.hops := rfl
@[simp] theorem State.mapRes_pings (f : Resume → Resume) (s : State) : (s.mapRes f).pings = s.pings := rfl
@[simp] theorem State.mapRes_wakeReqs (f : Resume → Resume) (s : State) : (s.mapRes f).wakeReqs = s.wakeReqs := rfl
@[simp] theorem State.mapRes_sysWakes (f : Resume → Resume) (s : State) : (s.mapRes f).sysWakes = s.sysWakes := rfl
@[simp] theorem State.mapRes_wkxs (f : Resume → Resume) (s : State) : (s.mapRes f).wkxs = s.wkxs := rfl
@[simp] theorem State.mapRes_sysWrites (f : Resume → Resume) (s : State) : (s.mapRes f).sysWrites = s.sysWrites := rfl
@[simp] theorem State.mapRes_msgs (f : Resume → Resume) (s : State) : (s.mapRes f).msgs = s.msgs := rfl
@[simp] theorem State.mapRes_flue (f : Resume → Resume) (s : State) : (s.mapRes f).flue = s.flue := rfl
@[simp] theorem State.mapRes_flits (f : Resume → Resume) (s : State) : (s.mapRes f).flits = s.flits := rfl
@[simp] theorem State.mapRes_drifts (f : Resume → Resume) (s : State) : (s.mapRes f).drifts = s.drifts := rfl
@[simp] theorem State.mapRes_portLast (f : Resume → Resume) (s : State) : (s.mapRes f).portLast = s.portLast := rfl
@[simp] theorem State.mapRes_hostTx (f : Resume → Resume) (s : State) : (s.mapRes f).hostTx = s.hostTx := rfl
@[simp] theorem State.mapRes_hostReads (f : Resume → Resume) (s : State) : (s.mapRes f).hostReads = s.hostReads := rfl
@[simp] theorem State.mapRes_hostHold (f : Resume → Resume) (s : State) : (s.mapRes f).hostHold = s.hostHold := rfl
@[simp] theorem State.mapRes_hostQ (f : Resume → Resume) (s : State) : (s.mapRes f).hostQ = s.hostQ := rfl
@[simp] theorem State.mapRes_hostIn (f : Resume → Resume) (s : State) : (s.mapRes f).hostIn = s.hostIn := rfl
@[simp] theorem State.mapRes_regions (f : Resume → Resume) (s : State) : (s.mapRes f).regions = s.regions := rfl
@[simp] theorem State.mapRes_groupGens (f : Resume → Resume) (s : State) : (s.mapRes f).groupGens = s.groupGens := rfl
@[simp] theorem State.mapRes_seqs (f : Resume → Resume) (s : State) : (s.mapRes f).seqs = s.seqs := rfl
@[simp] theorem State.mapRes_halves (f : Resume → Resume) (s : State) : (s.mapRes f).halves = s.halves := rfl
@[simp] theorem State.mapRes_answers (f : Resume → Resume) (s : State) : (s.mapRes f).answers = s.answers := rfl
@[simp] theorem State.mapRes_recalls (f : Resume → Resume) (s : State) : (s.mapRes f).recalls = s.recalls := rfl
@[simp] theorem State.mapRes_reasms (f : Resume → Resume) (s : State) : (s.mapRes f).reasms = s.reasms := rfl
@[simp] theorem State.mapRes_brineQ (f : Resume → Resume) (s : State) : (s.mapRes f).brineQ = s.brineQ := rfl
@[simp] theorem State.mapRes_rounds (f : Resume → Resume) (s : State) : (s.mapRes f).rounds = s.rounds := rfl
@[simp] theorem State.mapRes_abandoned (f : Resume → Resume) (s : State) : (s.mapRes f).abandoned = s.abandoned := rfl
@[simp] theorem State.mapRes_proposals (f : Resume → Resume) (s : State) : (s.mapRes f).proposals = s.proposals := rfl
@[simp] theorem State.mapRes_states (f : Resume → Resume) (s : State) : (s.mapRes f).states = s.states := rfl
@[simp] theorem State.mapRes_done (f : Resume → Resume) (s : State) : (s.mapRes f).done = s.done := rfl
@[simp] theorem State.mapRes_bells (f : Resume → Resume) (s : State) : (s.mapRes f).bells = s.bells := rfl
@[simp] theorem State.mapRes_mboxRegs (f : Resume → Resume) (s : State) : (s.mapRes f).mboxRegs = s.mboxRegs := rfl
@[simp] theorem State.mapRes_w2base (f : Resume → Resume) (s : State) : (s.mapRes f).w2base = s.w2base := rfl
@[simp] theorem State.mapRes_msix (f : Resume → Resume) (s : State) : (s.mapRes f).msix = s.msix := rfl
@[simp] theorem State.mapRes_fmask (f : Resume → Resume) (s : State) : (s.mapRes f).fmask = s.fmask := rfl
@[simp] theorem State.mapRes_lateVecs (f : Resume → Resume) (s : State) : (s.mapRes f).lateVecs = s.lateVecs := rfl
@[simp] theorem State.mapRes_pba (f : Resume → Resume) (s : State) : (s.mapRes f).pba = s.pba := rfl
@[simp] theorem State.mapRes_rdyd (f : Resume → Resume) (s : State) : (s.mapRes f).rdyd = s.rdyd := rfl
@[simp] theorem State.mapRes_rdyc (f : Resume → Resume) (s : State) : (s.mapRes f).rdyc = s.rdyc := rfl
@[simp] theorem State.mapRes_rdym (f : Resume → Resume) (s : State) : (s.mapRes f).rdym = s.rdym := rfl
@[simp] theorem State.mapRes_flm (f : Resume → Resume) (s : State) : (s.mapRes f).flm = s.flm := rfl
@[simp] theorem State.mapRes_pcap (f : Resume → Resume) (s : State) : (s.mapRes f).pcap = s.pcap := rfl
@[simp] theorem State.mapRes_attBusy (f : Resume → Resume) (s : State) : (s.mapRes f).attBusy = s.attBusy := rfl
@[simp] theorem State.mapRes_attStat (f : Resume → Resume) (s : State) : (s.mapRes f).attStat = s.attStat := rfl
@[simp] theorem State.mapRes_attAddr (f : Resume → Resume) (s : State) : (s.mapRes f).attAddr = s.attAddr := rfl
@[simp] theorem State.mapRes_i3cAddr (f : Resume → Resume) (s : State) : (s.mapRes f).i3cAddr = s.i3cAddr := rfl

@[simp] theorem State.setPc_agenda (v : Word) (s : State) : (s.setPc v).agenda = s.agenda := rfl
@[simp] theorem State.setPc_serial (v : Word) (s : State) : (s.setPc v).serial = s.serial := rfl
@[simp] theorem State.setPc_beat (v : Word) (s : State) : (s.setPc v).beat = s.beat := rfl
@[simp] theorem State.setPc_pick (v : Word) (s : State) : (s.setPc v).pick = s.pick := rfl
@[simp] theorem State.setPc_thr (v : Word) (s : State) : (s.setPc v).thr = { s.thr with ctx := { s.thr.ctx with pc := v } } := rfl
@[simp] theorem State.setPc_pool (v : Word) (s : State) : (s.setPc v).pool = s.pool := rfl
@[simp] theorem State.setPc_cores (v : Word) (s : State) : (s.setPc v).cores = s.cores := rfl
@[simp] theorem State.setPc_clusters (v : Word) (s : State) : (s.setPc v).clusters = s.clusters := rfl
@[simp] theorem State.setPc_dies (v : Word) (s : State) : (s.setPc v).dies = s.dies := rfl
@[simp] theorem State.setPc_ports (v : Word) (s : State) : (s.setPc v).ports = s.ports := rfl
@[simp] theorem State.setPc_coreMap (v : Word) (s : State) : (s.setPc v).coreMap = s.coreMap := rfl
@[simp] theorem State.setPc_mem (v : Word) (s : State) : (s.setPc v).mem = s.mem := rfl
@[simp] theorem State.setPc_asks (v : Word) (s : State) : (s.setPc v).asks = s.asks := rfl
@[simp] theorem State.setPc_trying (v : Word) (s : State) : (s.setPc v).trying = s.trying := rfl
@[simp] theorem State.setPc_empties (v : Word) (s : State) : (s.setPc v).empties = s.empties := rfl
@[simp] theorem State.setPc_poison (v : Word) (s : State) : (s.setPc v).poison = s.poison := rfl
@[simp] theorem State.setPc_path (v : Word) (s : State) : (s.setPc v).path = s.path := rfl
@[simp] theorem State.setPc_tskb (v : Word) (s : State) : (s.setPc v).tskb = s.tskb := rfl
@[simp] theorem State.setPc_hmtb (v : Word) (s : State) : (s.setPc v).hmtb = s.hmtb := rfl
@[simp] theorem State.setPc_pwtb (v : Word) (s : State) : (s.setPc v).pwtb = s.pwtb := rfl
@[simp] theorem State.setPc_partb (v : Word) (s : State) : (s.setPc v).partb = s.partb := rfl
@[simp] theorem State.setPc_masks (v : Word) (s : State) : (s.setPc v).masks = s.masks := rfl
@[simp] theorem State.setPc_peers1 (v : Word) (s : State) : (s.setPc v).peers1 = s.peers1 := rfl
@[simp] theorem State.setPc_peers2 (v : Word) (s : State) : (s.setPc v).peers2 = s.peers2 := rfl
@[simp] theorem State.setPc_bgen (v : Word) (s : State) : (s.setPc v).bgen = s.bgen := rfl
@[simp] theorem State.setPc_flash (v : Word) (s : State) : (s.setPc v).flash = s.flash := rfl
@[simp] theorem State.setPc_flashGen (v : Word) (s : State) : (s.setPc v).flashGen = s.flashGen := rfl
@[simp] theorem State.setPc_tgen (v : Word) (s : State) : (s.setPc v).tgen = s.tgen := rfl
@[simp] theorem State.setPc_pops (v : Word) (s : State) : (s.setPc v).pops = s.pops := rfl
@[simp] theorem State.setPc_flight (v : Word) (s : State) : (s.setPc v).flight = s.flight := rfl
@[simp] theorem State.setPc_waiters (v : Word) (s : State) : (s.setPc v).waiters = s.waiters := rfl
@[simp] theorem State.setPc_owed (v : Word) (s : State) : (s.setPc v).owed = s.owed := rfl
@[simp] theorem State.setPc_acks (v : Word) (s : State) : (s.setPc v).acks = s.acks := rfl
@[simp] theorem State.setPc_naks (v : Word) (s : State) : (s.setPc v).naks = s.naks := rfl
@[simp] theorem State.setPc_hops (v : Word) (s : State) : (s.setPc v).hops = s.hops := rfl
@[simp] theorem State.setPc_pings (v : Word) (s : State) : (s.setPc v).pings = s.pings := rfl
@[simp] theorem State.setPc_wakeReqs (v : Word) (s : State) : (s.setPc v).wakeReqs = s.wakeReqs := rfl
@[simp] theorem State.setPc_sysWakes (v : Word) (s : State) : (s.setPc v).sysWakes = s.sysWakes := rfl
@[simp] theorem State.setPc_wkxs (v : Word) (s : State) : (s.setPc v).wkxs = s.wkxs := rfl
@[simp] theorem State.setPc_sysWrites (v : Word) (s : State) : (s.setPc v).sysWrites = s.sysWrites := rfl
@[simp] theorem State.setPc_msgs (v : Word) (s : State) : (s.setPc v).msgs = s.msgs := rfl
@[simp] theorem State.setPc_flue (v : Word) (s : State) : (s.setPc v).flue = s.flue := rfl
@[simp] theorem State.setPc_flits (v : Word) (s : State) : (s.setPc v).flits = s.flits := rfl
@[simp] theorem State.setPc_drifts (v : Word) (s : State) : (s.setPc v).drifts = s.drifts := rfl
@[simp] theorem State.setPc_portLast (v : Word) (s : State) : (s.setPc v).portLast = s.portLast := rfl
@[simp] theorem State.setPc_hostTx (v : Word) (s : State) : (s.setPc v).hostTx = s.hostTx := rfl
@[simp] theorem State.setPc_hostReads (v : Word) (s : State) : (s.setPc v).hostReads = s.hostReads := rfl
@[simp] theorem State.setPc_hostHold (v : Word) (s : State) : (s.setPc v).hostHold = s.hostHold := rfl
@[simp] theorem State.setPc_hostQ (v : Word) (s : State) : (s.setPc v).hostQ = s.hostQ := rfl
@[simp] theorem State.setPc_hostIn (v : Word) (s : State) : (s.setPc v).hostIn = s.hostIn := rfl
@[simp] theorem State.setPc_regions (v : Word) (s : State) : (s.setPc v).regions = s.regions := rfl
@[simp] theorem State.setPc_groupGens (v : Word) (s : State) : (s.setPc v).groupGens = s.groupGens := rfl
@[simp] theorem State.setPc_seqs (v : Word) (s : State) : (s.setPc v).seqs = s.seqs := rfl
@[simp] theorem State.setPc_halves (v : Word) (s : State) : (s.setPc v).halves = s.halves := rfl
@[simp] theorem State.setPc_answers (v : Word) (s : State) : (s.setPc v).answers = s.answers := rfl
@[simp] theorem State.setPc_recalls (v : Word) (s : State) : (s.setPc v).recalls = s.recalls := rfl
@[simp] theorem State.setPc_reasms (v : Word) (s : State) : (s.setPc v).reasms = s.reasms := rfl
@[simp] theorem State.setPc_brineQ (v : Word) (s : State) : (s.setPc v).brineQ = s.brineQ := rfl
@[simp] theorem State.setPc_rounds (v : Word) (s : State) : (s.setPc v).rounds = s.rounds := rfl
@[simp] theorem State.setPc_abandoned (v : Word) (s : State) : (s.setPc v).abandoned = s.abandoned := rfl
@[simp] theorem State.setPc_proposals (v : Word) (s : State) : (s.setPc v).proposals = s.proposals := rfl
@[simp] theorem State.setPc_states (v : Word) (s : State) : (s.setPc v).states = s.states := rfl
@[simp] theorem State.setPc_done (v : Word) (s : State) : (s.setPc v).done = s.done := rfl
@[simp] theorem State.setPc_bells (v : Word) (s : State) : (s.setPc v).bells = s.bells := rfl
@[simp] theorem State.setPc_mboxRegs (v : Word) (s : State) : (s.setPc v).mboxRegs = s.mboxRegs := rfl
@[simp] theorem State.setPc_w2base (v : Word) (s : State) : (s.setPc v).w2base = s.w2base := rfl
@[simp] theorem State.setPc_msix (v : Word) (s : State) : (s.setPc v).msix = s.msix := rfl
@[simp] theorem State.setPc_fmask (v : Word) (s : State) : (s.setPc v).fmask = s.fmask := rfl
@[simp] theorem State.setPc_lateVecs (v : Word) (s : State) : (s.setPc v).lateVecs = s.lateVecs := rfl
@[simp] theorem State.setPc_pba (v : Word) (s : State) : (s.setPc v).pba = s.pba := rfl
@[simp] theorem State.setPc_rdyd (v : Word) (s : State) : (s.setPc v).rdyd = s.rdyd := rfl
@[simp] theorem State.setPc_rdyc (v : Word) (s : State) : (s.setPc v).rdyc = s.rdyc := rfl
@[simp] theorem State.setPc_rdym (v : Word) (s : State) : (s.setPc v).rdym = s.rdym := rfl
@[simp] theorem State.setPc_flm (v : Word) (s : State) : (s.setPc v).flm = s.flm := rfl
@[simp] theorem State.setPc_pcap (v : Word) (s : State) : (s.setPc v).pcap = s.pcap := rfl
@[simp] theorem State.setPc_attBusy (v : Word) (s : State) : (s.setPc v).attBusy = s.attBusy := rfl
@[simp] theorem State.setPc_attStat (v : Word) (s : State) : (s.setPc v).attStat = s.attStat := rfl
@[simp] theorem State.setPc_attAddr (v : Word) (s : State) : (s.setPc v).attAddr = s.attAddr := rfl
@[simp] theorem State.setPc_i3cAddr (v : Word) (s : State) : (s.setPc v).i3cAddr = s.i3cAddr := rfl

@[simp] theorem State.setSt_agenda (v : Word) (s : State) : (s.setSt v).agenda = s.agenda := rfl
@[simp] theorem State.setSt_serial (v : Word) (s : State) : (s.setSt v).serial = s.serial := rfl
@[simp] theorem State.setSt_beat (v : Word) (s : State) : (s.setSt v).beat = s.beat := rfl
@[simp] theorem State.setSt_pick (v : Word) (s : State) : (s.setSt v).pick = s.pick := rfl
@[simp] theorem State.setSt_thr (v : Word) (s : State) : (s.setSt v).thr = { s.thr with ctx := { s.thr.ctx with st := v } } := rfl
@[simp] theorem State.setSt_pool (v : Word) (s : State) : (s.setSt v).pool = s.pool := rfl
@[simp] theorem State.setSt_cores (v : Word) (s : State) : (s.setSt v).cores = s.cores := rfl
@[simp] theorem State.setSt_clusters (v : Word) (s : State) : (s.setSt v).clusters = s.clusters := rfl
@[simp] theorem State.setSt_dies (v : Word) (s : State) : (s.setSt v).dies = s.dies := rfl
@[simp] theorem State.setSt_ports (v : Word) (s : State) : (s.setSt v).ports = s.ports := rfl
@[simp] theorem State.setSt_coreMap (v : Word) (s : State) : (s.setSt v).coreMap = s.coreMap := rfl
@[simp] theorem State.setSt_mem (v : Word) (s : State) : (s.setSt v).mem = s.mem := rfl
@[simp] theorem State.setSt_asks (v : Word) (s : State) : (s.setSt v).asks = s.asks := rfl
@[simp] theorem State.setSt_trying (v : Word) (s : State) : (s.setSt v).trying = s.trying := rfl
@[simp] theorem State.setSt_empties (v : Word) (s : State) : (s.setSt v).empties = s.empties := rfl
@[simp] theorem State.setSt_poison (v : Word) (s : State) : (s.setSt v).poison = s.poison := rfl
@[simp] theorem State.setSt_path (v : Word) (s : State) : (s.setSt v).path = s.path := rfl
@[simp] theorem State.setSt_tskb (v : Word) (s : State) : (s.setSt v).tskb = s.tskb := rfl
@[simp] theorem State.setSt_hmtb (v : Word) (s : State) : (s.setSt v).hmtb = s.hmtb := rfl
@[simp] theorem State.setSt_pwtb (v : Word) (s : State) : (s.setSt v).pwtb = s.pwtb := rfl
@[simp] theorem State.setSt_partb (v : Word) (s : State) : (s.setSt v).partb = s.partb := rfl
@[simp] theorem State.setSt_masks (v : Word) (s : State) : (s.setSt v).masks = s.masks := rfl
@[simp] theorem State.setSt_peers1 (v : Word) (s : State) : (s.setSt v).peers1 = s.peers1 := rfl
@[simp] theorem State.setSt_peers2 (v : Word) (s : State) : (s.setSt v).peers2 = s.peers2 := rfl
@[simp] theorem State.setSt_bgen (v : Word) (s : State) : (s.setSt v).bgen = s.bgen := rfl
@[simp] theorem State.setSt_flash (v : Word) (s : State) : (s.setSt v).flash = s.flash := rfl
@[simp] theorem State.setSt_flashGen (v : Word) (s : State) : (s.setSt v).flashGen = s.flashGen := rfl
@[simp] theorem State.setSt_tgen (v : Word) (s : State) : (s.setSt v).tgen = s.tgen := rfl
@[simp] theorem State.setSt_pops (v : Word) (s : State) : (s.setSt v).pops = s.pops := rfl
@[simp] theorem State.setSt_flight (v : Word) (s : State) : (s.setSt v).flight = s.flight := rfl
@[simp] theorem State.setSt_waiters (v : Word) (s : State) : (s.setSt v).waiters = s.waiters := rfl
@[simp] theorem State.setSt_owed (v : Word) (s : State) : (s.setSt v).owed = s.owed := rfl
@[simp] theorem State.setSt_acks (v : Word) (s : State) : (s.setSt v).acks = s.acks := rfl
@[simp] theorem State.setSt_naks (v : Word) (s : State) : (s.setSt v).naks = s.naks := rfl
@[simp] theorem State.setSt_hops (v : Word) (s : State) : (s.setSt v).hops = s.hops := rfl
@[simp] theorem State.setSt_pings (v : Word) (s : State) : (s.setSt v).pings = s.pings := rfl
@[simp] theorem State.setSt_wakeReqs (v : Word) (s : State) : (s.setSt v).wakeReqs = s.wakeReqs := rfl
@[simp] theorem State.setSt_sysWakes (v : Word) (s : State) : (s.setSt v).sysWakes = s.sysWakes := rfl
@[simp] theorem State.setSt_wkxs (v : Word) (s : State) : (s.setSt v).wkxs = s.wkxs := rfl
@[simp] theorem State.setSt_sysWrites (v : Word) (s : State) : (s.setSt v).sysWrites = s.sysWrites := rfl
@[simp] theorem State.setSt_msgs (v : Word) (s : State) : (s.setSt v).msgs = s.msgs := rfl
@[simp] theorem State.setSt_flue (v : Word) (s : State) : (s.setSt v).flue = s.flue := rfl
@[simp] theorem State.setSt_flits (v : Word) (s : State) : (s.setSt v).flits = s.flits := rfl
@[simp] theorem State.setSt_drifts (v : Word) (s : State) : (s.setSt v).drifts = s.drifts := rfl
@[simp] theorem State.setSt_portLast (v : Word) (s : State) : (s.setSt v).portLast = s.portLast := rfl
@[simp] theorem State.setSt_hostTx (v : Word) (s : State) : (s.setSt v).hostTx = s.hostTx := rfl
@[simp] theorem State.setSt_hostReads (v : Word) (s : State) : (s.setSt v).hostReads = s.hostReads := rfl
@[simp] theorem State.setSt_hostHold (v : Word) (s : State) : (s.setSt v).hostHold = s.hostHold := rfl
@[simp] theorem State.setSt_hostQ (v : Word) (s : State) : (s.setSt v).hostQ = s.hostQ := rfl
@[simp] theorem State.setSt_hostIn (v : Word) (s : State) : (s.setSt v).hostIn = s.hostIn := rfl
@[simp] theorem State.setSt_regions (v : Word) (s : State) : (s.setSt v).regions = s.regions := rfl
@[simp] theorem State.setSt_groupGens (v : Word) (s : State) : (s.setSt v).groupGens = s.groupGens := rfl
@[simp] theorem State.setSt_seqs (v : Word) (s : State) : (s.setSt v).seqs = s.seqs := rfl
@[simp] theorem State.setSt_halves (v : Word) (s : State) : (s.setSt v).halves = s.halves := rfl
@[simp] theorem State.setSt_answers (v : Word) (s : State) : (s.setSt v).answers = s.answers := rfl
@[simp] theorem State.setSt_recalls (v : Word) (s : State) : (s.setSt v).recalls = s.recalls := rfl
@[simp] theorem State.setSt_reasms (v : Word) (s : State) : (s.setSt v).reasms = s.reasms := rfl
@[simp] theorem State.setSt_brineQ (v : Word) (s : State) : (s.setSt v).brineQ = s.brineQ := rfl
@[simp] theorem State.setSt_rounds (v : Word) (s : State) : (s.setSt v).rounds = s.rounds := rfl
@[simp] theorem State.setSt_abandoned (v : Word) (s : State) : (s.setSt v).abandoned = s.abandoned := rfl
@[simp] theorem State.setSt_proposals (v : Word) (s : State) : (s.setSt v).proposals = s.proposals := rfl
@[simp] theorem State.setSt_states (v : Word) (s : State) : (s.setSt v).states = s.states := rfl
@[simp] theorem State.setSt_done (v : Word) (s : State) : (s.setSt v).done = s.done := rfl
@[simp] theorem State.setSt_bells (v : Word) (s : State) : (s.setSt v).bells = s.bells := rfl
@[simp] theorem State.setSt_mboxRegs (v : Word) (s : State) : (s.setSt v).mboxRegs = s.mboxRegs := rfl
@[simp] theorem State.setSt_w2base (v : Word) (s : State) : (s.setSt v).w2base = s.w2base := rfl
@[simp] theorem State.setSt_msix (v : Word) (s : State) : (s.setSt v).msix = s.msix := rfl
@[simp] theorem State.setSt_fmask (v : Word) (s : State) : (s.setSt v).fmask = s.fmask := rfl
@[simp] theorem State.setSt_lateVecs (v : Word) (s : State) : (s.setSt v).lateVecs = s.lateVecs := rfl
@[simp] theorem State.setSt_pba (v : Word) (s : State) : (s.setSt v).pba = s.pba := rfl
@[simp] theorem State.setSt_rdyd (v : Word) (s : State) : (s.setSt v).rdyd = s.rdyd := rfl
@[simp] theorem State.setSt_rdyc (v : Word) (s : State) : (s.setSt v).rdyc = s.rdyc := rfl
@[simp] theorem State.setSt_rdym (v : Word) (s : State) : (s.setSt v).rdym = s.rdym := rfl
@[simp] theorem State.setSt_flm (v : Word) (s : State) : (s.setSt v).flm = s.flm := rfl
@[simp] theorem State.setSt_pcap (v : Word) (s : State) : (s.setSt v).pcap = s.pcap := rfl
@[simp] theorem State.setSt_attBusy (v : Word) (s : State) : (s.setSt v).attBusy = s.attBusy := rfl
@[simp] theorem State.setSt_attStat (v : Word) (s : State) : (s.setSt v).attStat = s.attStat := rfl
@[simp] theorem State.setSt_attAddr (v : Word) (s : State) : (s.setSt v).attAddr = s.attAddr := rfl
@[simp] theorem State.setSt_i3cAddr (v : Word) (s : State) : (s.setSt v).i3cAddr = s.i3cAddr := rfl

@[simp] theorem State.writeX_agenda (r : BitVec 4) (v : Word) (s : State) : (s.writeX r v).agenda = s.agenda := rfl
@[simp] theorem State.writeX_serial (r : BitVec 4) (v : Word) (s : State) : (s.writeX r v).serial = s.serial := rfl
@[simp] theorem State.writeX_beat (r : BitVec 4) (v : Word) (s : State) : (s.writeX r v).beat = s.beat := rfl
@[simp] theorem State.writeX_pick (r : BitVec 4) (v : Word) (s : State) : (s.writeX r v).pick = s.pick := rfl
@[simp] theorem State.writeX_thr (r : BitVec 4) (v : Word) (s : State) : (s.writeX r v).thr = { s.thr with ctx := s.thr.ctx.writeX r v } := rfl
@[simp] theorem State.writeX_pool (r : BitVec 4) (v : Word) (s : State) : (s.writeX r v).pool = s.pool := rfl
@[simp] theorem State.writeX_cores (r : BitVec 4) (v : Word) (s : State) : (s.writeX r v).cores = s.cores := rfl
@[simp] theorem State.writeX_clusters (r : BitVec 4) (v : Word) (s : State) : (s.writeX r v).clusters = s.clusters := rfl
@[simp] theorem State.writeX_dies (r : BitVec 4) (v : Word) (s : State) : (s.writeX r v).dies = s.dies := rfl
@[simp] theorem State.writeX_ports (r : BitVec 4) (v : Word) (s : State) : (s.writeX r v).ports = s.ports := rfl
@[simp] theorem State.writeX_coreMap (r : BitVec 4) (v : Word) (s : State) : (s.writeX r v).coreMap = s.coreMap := rfl
@[simp] theorem State.writeX_mem (r : BitVec 4) (v : Word) (s : State) : (s.writeX r v).mem = s.mem := rfl
@[simp] theorem State.writeX_asks (r : BitVec 4) (v : Word) (s : State) : (s.writeX r v).asks = s.asks := rfl
@[simp] theorem State.writeX_trying (r : BitVec 4) (v : Word) (s : State) : (s.writeX r v).trying = s.trying := rfl
@[simp] theorem State.writeX_empties (r : BitVec 4) (v : Word) (s : State) : (s.writeX r v).empties = s.empties := rfl
@[simp] theorem State.writeX_poison (r : BitVec 4) (v : Word) (s : State) : (s.writeX r v).poison = s.poison := rfl
@[simp] theorem State.writeX_path (r : BitVec 4) (v : Word) (s : State) : (s.writeX r v).path = s.path := rfl
@[simp] theorem State.writeX_tskb (r : BitVec 4) (v : Word) (s : State) : (s.writeX r v).tskb = s.tskb := rfl
@[simp] theorem State.writeX_hmtb (r : BitVec 4) (v : Word) (s : State) : (s.writeX r v).hmtb = s.hmtb := rfl
@[simp] theorem State.writeX_pwtb (r : BitVec 4) (v : Word) (s : State) : (s.writeX r v).pwtb = s.pwtb := rfl
@[simp] theorem State.writeX_partb (r : BitVec 4) (v : Word) (s : State) : (s.writeX r v).partb = s.partb := rfl
@[simp] theorem State.writeX_masks (r : BitVec 4) (v : Word) (s : State) : (s.writeX r v).masks = s.masks := rfl
@[simp] theorem State.writeX_peers1 (r : BitVec 4) (v : Word) (s : State) : (s.writeX r v).peers1 = s.peers1 := rfl
@[simp] theorem State.writeX_peers2 (r : BitVec 4) (v : Word) (s : State) : (s.writeX r v).peers2 = s.peers2 := rfl
@[simp] theorem State.writeX_bgen (r : BitVec 4) (v : Word) (s : State) : (s.writeX r v).bgen = s.bgen := rfl
@[simp] theorem State.writeX_flash (r : BitVec 4) (v : Word) (s : State) : (s.writeX r v).flash = s.flash := rfl
@[simp] theorem State.writeX_flashGen (r : BitVec 4) (v : Word) (s : State) : (s.writeX r v).flashGen = s.flashGen := rfl
@[simp] theorem State.writeX_tgen (r : BitVec 4) (v : Word) (s : State) : (s.writeX r v).tgen = s.tgen := rfl
@[simp] theorem State.writeX_pops (r : BitVec 4) (v : Word) (s : State) : (s.writeX r v).pops = s.pops := rfl
@[simp] theorem State.writeX_flight (r : BitVec 4) (v : Word) (s : State) : (s.writeX r v).flight = s.flight := rfl
@[simp] theorem State.writeX_waiters (r : BitVec 4) (v : Word) (s : State) : (s.writeX r v).waiters = s.waiters := rfl
@[simp] theorem State.writeX_owed (r : BitVec 4) (v : Word) (s : State) : (s.writeX r v).owed = s.owed := rfl
@[simp] theorem State.writeX_acks (r : BitVec 4) (v : Word) (s : State) : (s.writeX r v).acks = s.acks := rfl
@[simp] theorem State.writeX_naks (r : BitVec 4) (v : Word) (s : State) : (s.writeX r v).naks = s.naks := rfl
@[simp] theorem State.writeX_hops (r : BitVec 4) (v : Word) (s : State) : (s.writeX r v).hops = s.hops := rfl
@[simp] theorem State.writeX_pings (r : BitVec 4) (v : Word) (s : State) : (s.writeX r v).pings = s.pings := rfl
@[simp] theorem State.writeX_wakeReqs (r : BitVec 4) (v : Word) (s : State) : (s.writeX r v).wakeReqs = s.wakeReqs := rfl
@[simp] theorem State.writeX_sysWakes (r : BitVec 4) (v : Word) (s : State) : (s.writeX r v).sysWakes = s.sysWakes := rfl
@[simp] theorem State.writeX_wkxs (r : BitVec 4) (v : Word) (s : State) : (s.writeX r v).wkxs = s.wkxs := rfl
@[simp] theorem State.writeX_sysWrites (r : BitVec 4) (v : Word) (s : State) : (s.writeX r v).sysWrites = s.sysWrites := rfl
@[simp] theorem State.writeX_msgs (r : BitVec 4) (v : Word) (s : State) : (s.writeX r v).msgs = s.msgs := rfl
@[simp] theorem State.writeX_flue (r : BitVec 4) (v : Word) (s : State) : (s.writeX r v).flue = s.flue := rfl
@[simp] theorem State.writeX_flits (r : BitVec 4) (v : Word) (s : State) : (s.writeX r v).flits = s.flits := rfl
@[simp] theorem State.writeX_drifts (r : BitVec 4) (v : Word) (s : State) : (s.writeX r v).drifts = s.drifts := rfl
@[simp] theorem State.writeX_portLast (r : BitVec 4) (v : Word) (s : State) : (s.writeX r v).portLast = s.portLast := rfl
@[simp] theorem State.writeX_hostTx (r : BitVec 4) (v : Word) (s : State) : (s.writeX r v).hostTx = s.hostTx := rfl
@[simp] theorem State.writeX_hostReads (r : BitVec 4) (v : Word) (s : State) : (s.writeX r v).hostReads = s.hostReads := rfl
@[simp] theorem State.writeX_hostHold (r : BitVec 4) (v : Word) (s : State) : (s.writeX r v).hostHold = s.hostHold := rfl
@[simp] theorem State.writeX_hostQ (r : BitVec 4) (v : Word) (s : State) : (s.writeX r v).hostQ = s.hostQ := rfl
@[simp] theorem State.writeX_hostIn (r : BitVec 4) (v : Word) (s : State) : (s.writeX r v).hostIn = s.hostIn := rfl
@[simp] theorem State.writeX_regions (r : BitVec 4) (v : Word) (s : State) : (s.writeX r v).regions = s.regions := rfl
@[simp] theorem State.writeX_groupGens (r : BitVec 4) (v : Word) (s : State) : (s.writeX r v).groupGens = s.groupGens := rfl
@[simp] theorem State.writeX_seqs (r : BitVec 4) (v : Word) (s : State) : (s.writeX r v).seqs = s.seqs := rfl
@[simp] theorem State.writeX_halves (r : BitVec 4) (v : Word) (s : State) : (s.writeX r v).halves = s.halves := rfl
@[simp] theorem State.writeX_answers (r : BitVec 4) (v : Word) (s : State) : (s.writeX r v).answers = s.answers := rfl
@[simp] theorem State.writeX_recalls (r : BitVec 4) (v : Word) (s : State) : (s.writeX r v).recalls = s.recalls := rfl
@[simp] theorem State.writeX_reasms (r : BitVec 4) (v : Word) (s : State) : (s.writeX r v).reasms = s.reasms := rfl
@[simp] theorem State.writeX_brineQ (r : BitVec 4) (v : Word) (s : State) : (s.writeX r v).brineQ = s.brineQ := rfl
@[simp] theorem State.writeX_rounds (r : BitVec 4) (v : Word) (s : State) : (s.writeX r v).rounds = s.rounds := rfl
@[simp] theorem State.writeX_abandoned (r : BitVec 4) (v : Word) (s : State) : (s.writeX r v).abandoned = s.abandoned := rfl
@[simp] theorem State.writeX_proposals (r : BitVec 4) (v : Word) (s : State) : (s.writeX r v).proposals = s.proposals := rfl
@[simp] theorem State.writeX_states (r : BitVec 4) (v : Word) (s : State) : (s.writeX r v).states = s.states := rfl
@[simp] theorem State.writeX_done (r : BitVec 4) (v : Word) (s : State) : (s.writeX r v).done = s.done := rfl
@[simp] theorem State.writeX_bells (r : BitVec 4) (v : Word) (s : State) : (s.writeX r v).bells = s.bells := rfl
@[simp] theorem State.writeX_mboxRegs (r : BitVec 4) (v : Word) (s : State) : (s.writeX r v).mboxRegs = s.mboxRegs := rfl
@[simp] theorem State.writeX_w2base (r : BitVec 4) (v : Word) (s : State) : (s.writeX r v).w2base = s.w2base := rfl
@[simp] theorem State.writeX_msix (r : BitVec 4) (v : Word) (s : State) : (s.writeX r v).msix = s.msix := rfl
@[simp] theorem State.writeX_fmask (r : BitVec 4) (v : Word) (s : State) : (s.writeX r v).fmask = s.fmask := rfl
@[simp] theorem State.writeX_lateVecs (r : BitVec 4) (v : Word) (s : State) : (s.writeX r v).lateVecs = s.lateVecs := rfl
@[simp] theorem State.writeX_pba (r : BitVec 4) (v : Word) (s : State) : (s.writeX r v).pba = s.pba := rfl
@[simp] theorem State.writeX_rdyd (r : BitVec 4) (v : Word) (s : State) : (s.writeX r v).rdyd = s.rdyd := rfl
@[simp] theorem State.writeX_rdyc (r : BitVec 4) (v : Word) (s : State) : (s.writeX r v).rdyc = s.rdyc := rfl
@[simp] theorem State.writeX_rdym (r : BitVec 4) (v : Word) (s : State) : (s.writeX r v).rdym = s.rdym := rfl
@[simp] theorem State.writeX_flm (r : BitVec 4) (v : Word) (s : State) : (s.writeX r v).flm = s.flm := rfl
@[simp] theorem State.writeX_pcap (r : BitVec 4) (v : Word) (s : State) : (s.writeX r v).pcap = s.pcap := rfl
@[simp] theorem State.writeX_attBusy (r : BitVec 4) (v : Word) (s : State) : (s.writeX r v).attBusy = s.attBusy := rfl
@[simp] theorem State.writeX_attStat (r : BitVec 4) (v : Word) (s : State) : (s.writeX r v).attStat = s.attStat := rfl
@[simp] theorem State.writeX_attAddr (r : BitVec 4) (v : Word) (s : State) : (s.writeX r v).attAddr = s.attAddr := rfl
@[simp] theorem State.writeX_i3cAddr (r : BitVec 4) (v : Word) (s : State) : (s.writeX r v).i3cAddr = s.i3cAddr := rfl

@[simp] theorem State.writeP_agenda (p : BitVec 3) (v : Bool) (s : State) : (s.writeP p v).agenda = s.agenda := rfl
@[simp] theorem State.writeP_serial (p : BitVec 3) (v : Bool) (s : State) : (s.writeP p v).serial = s.serial := rfl
@[simp] theorem State.writeP_beat (p : BitVec 3) (v : Bool) (s : State) : (s.writeP p v).beat = s.beat := rfl
@[simp] theorem State.writeP_pick (p : BitVec 3) (v : Bool) (s : State) : (s.writeP p v).pick = s.pick := rfl
@[simp] theorem State.writeP_thr (p : BitVec 3) (v : Bool) (s : State) : (s.writeP p v).thr = { s.thr with ctx := s.thr.ctx.writeP p v } := rfl
@[simp] theorem State.writeP_pool (p : BitVec 3) (v : Bool) (s : State) : (s.writeP p v).pool = s.pool := rfl
@[simp] theorem State.writeP_cores (p : BitVec 3) (v : Bool) (s : State) : (s.writeP p v).cores = s.cores := rfl
@[simp] theorem State.writeP_clusters (p : BitVec 3) (v : Bool) (s : State) : (s.writeP p v).clusters = s.clusters := rfl
@[simp] theorem State.writeP_dies (p : BitVec 3) (v : Bool) (s : State) : (s.writeP p v).dies = s.dies := rfl
@[simp] theorem State.writeP_ports (p : BitVec 3) (v : Bool) (s : State) : (s.writeP p v).ports = s.ports := rfl
@[simp] theorem State.writeP_coreMap (p : BitVec 3) (v : Bool) (s : State) : (s.writeP p v).coreMap = s.coreMap := rfl
@[simp] theorem State.writeP_mem (p : BitVec 3) (v : Bool) (s : State) : (s.writeP p v).mem = s.mem := rfl
@[simp] theorem State.writeP_asks (p : BitVec 3) (v : Bool) (s : State) : (s.writeP p v).asks = s.asks := rfl
@[simp] theorem State.writeP_trying (p : BitVec 3) (v : Bool) (s : State) : (s.writeP p v).trying = s.trying := rfl
@[simp] theorem State.writeP_empties (p : BitVec 3) (v : Bool) (s : State) : (s.writeP p v).empties = s.empties := rfl
@[simp] theorem State.writeP_poison (p : BitVec 3) (v : Bool) (s : State) : (s.writeP p v).poison = s.poison := rfl
@[simp] theorem State.writeP_path (p : BitVec 3) (v : Bool) (s : State) : (s.writeP p v).path = s.path := rfl
@[simp] theorem State.writeP_tskb (p : BitVec 3) (v : Bool) (s : State) : (s.writeP p v).tskb = s.tskb := rfl
@[simp] theorem State.writeP_hmtb (p : BitVec 3) (v : Bool) (s : State) : (s.writeP p v).hmtb = s.hmtb := rfl
@[simp] theorem State.writeP_pwtb (p : BitVec 3) (v : Bool) (s : State) : (s.writeP p v).pwtb = s.pwtb := rfl
@[simp] theorem State.writeP_partb (p : BitVec 3) (v : Bool) (s : State) : (s.writeP p v).partb = s.partb := rfl
@[simp] theorem State.writeP_masks (p : BitVec 3) (v : Bool) (s : State) : (s.writeP p v).masks = s.masks := rfl
@[simp] theorem State.writeP_peers1 (p : BitVec 3) (v : Bool) (s : State) : (s.writeP p v).peers1 = s.peers1 := rfl
@[simp] theorem State.writeP_peers2 (p : BitVec 3) (v : Bool) (s : State) : (s.writeP p v).peers2 = s.peers2 := rfl
@[simp] theorem State.writeP_bgen (p : BitVec 3) (v : Bool) (s : State) : (s.writeP p v).bgen = s.bgen := rfl
@[simp] theorem State.writeP_flash (p : BitVec 3) (v : Bool) (s : State) : (s.writeP p v).flash = s.flash := rfl
@[simp] theorem State.writeP_flashGen (p : BitVec 3) (v : Bool) (s : State) : (s.writeP p v).flashGen = s.flashGen := rfl
@[simp] theorem State.writeP_tgen (p : BitVec 3) (v : Bool) (s : State) : (s.writeP p v).tgen = s.tgen := rfl
@[simp] theorem State.writeP_pops (p : BitVec 3) (v : Bool) (s : State) : (s.writeP p v).pops = s.pops := rfl
@[simp] theorem State.writeP_flight (p : BitVec 3) (v : Bool) (s : State) : (s.writeP p v).flight = s.flight := rfl
@[simp] theorem State.writeP_waiters (p : BitVec 3) (v : Bool) (s : State) : (s.writeP p v).waiters = s.waiters := rfl
@[simp] theorem State.writeP_owed (p : BitVec 3) (v : Bool) (s : State) : (s.writeP p v).owed = s.owed := rfl
@[simp] theorem State.writeP_acks (p : BitVec 3) (v : Bool) (s : State) : (s.writeP p v).acks = s.acks := rfl
@[simp] theorem State.writeP_naks (p : BitVec 3) (v : Bool) (s : State) : (s.writeP p v).naks = s.naks := rfl
@[simp] theorem State.writeP_hops (p : BitVec 3) (v : Bool) (s : State) : (s.writeP p v).hops = s.hops := rfl
@[simp] theorem State.writeP_pings (p : BitVec 3) (v : Bool) (s : State) : (s.writeP p v).pings = s.pings := rfl
@[simp] theorem State.writeP_wakeReqs (p : BitVec 3) (v : Bool) (s : State) : (s.writeP p v).wakeReqs = s.wakeReqs := rfl
@[simp] theorem State.writeP_sysWakes (p : BitVec 3) (v : Bool) (s : State) : (s.writeP p v).sysWakes = s.sysWakes := rfl
@[simp] theorem State.writeP_wkxs (p : BitVec 3) (v : Bool) (s : State) : (s.writeP p v).wkxs = s.wkxs := rfl
@[simp] theorem State.writeP_sysWrites (p : BitVec 3) (v : Bool) (s : State) : (s.writeP p v).sysWrites = s.sysWrites := rfl
@[simp] theorem State.writeP_msgs (p : BitVec 3) (v : Bool) (s : State) : (s.writeP p v).msgs = s.msgs := rfl
@[simp] theorem State.writeP_flue (p : BitVec 3) (v : Bool) (s : State) : (s.writeP p v).flue = s.flue := rfl
@[simp] theorem State.writeP_flits (p : BitVec 3) (v : Bool) (s : State) : (s.writeP p v).flits = s.flits := rfl
@[simp] theorem State.writeP_drifts (p : BitVec 3) (v : Bool) (s : State) : (s.writeP p v).drifts = s.drifts := rfl
@[simp] theorem State.writeP_portLast (p : BitVec 3) (v : Bool) (s : State) : (s.writeP p v).portLast = s.portLast := rfl
@[simp] theorem State.writeP_hostTx (p : BitVec 3) (v : Bool) (s : State) : (s.writeP p v).hostTx = s.hostTx := rfl
@[simp] theorem State.writeP_hostReads (p : BitVec 3) (v : Bool) (s : State) : (s.writeP p v).hostReads = s.hostReads := rfl
@[simp] theorem State.writeP_hostHold (p : BitVec 3) (v : Bool) (s : State) : (s.writeP p v).hostHold = s.hostHold := rfl
@[simp] theorem State.writeP_hostQ (p : BitVec 3) (v : Bool) (s : State) : (s.writeP p v).hostQ = s.hostQ := rfl
@[simp] theorem State.writeP_hostIn (p : BitVec 3) (v : Bool) (s : State) : (s.writeP p v).hostIn = s.hostIn := rfl
@[simp] theorem State.writeP_regions (p : BitVec 3) (v : Bool) (s : State) : (s.writeP p v).regions = s.regions := rfl
@[simp] theorem State.writeP_groupGens (p : BitVec 3) (v : Bool) (s : State) : (s.writeP p v).groupGens = s.groupGens := rfl
@[simp] theorem State.writeP_seqs (p : BitVec 3) (v : Bool) (s : State) : (s.writeP p v).seqs = s.seqs := rfl
@[simp] theorem State.writeP_halves (p : BitVec 3) (v : Bool) (s : State) : (s.writeP p v).halves = s.halves := rfl
@[simp] theorem State.writeP_answers (p : BitVec 3) (v : Bool) (s : State) : (s.writeP p v).answers = s.answers := rfl
@[simp] theorem State.writeP_recalls (p : BitVec 3) (v : Bool) (s : State) : (s.writeP p v).recalls = s.recalls := rfl
@[simp] theorem State.writeP_reasms (p : BitVec 3) (v : Bool) (s : State) : (s.writeP p v).reasms = s.reasms := rfl
@[simp] theorem State.writeP_brineQ (p : BitVec 3) (v : Bool) (s : State) : (s.writeP p v).brineQ = s.brineQ := rfl
@[simp] theorem State.writeP_rounds (p : BitVec 3) (v : Bool) (s : State) : (s.writeP p v).rounds = s.rounds := rfl
@[simp] theorem State.writeP_abandoned (p : BitVec 3) (v : Bool) (s : State) : (s.writeP p v).abandoned = s.abandoned := rfl
@[simp] theorem State.writeP_proposals (p : BitVec 3) (v : Bool) (s : State) : (s.writeP p v).proposals = s.proposals := rfl
@[simp] theorem State.writeP_states (p : BitVec 3) (v : Bool) (s : State) : (s.writeP p v).states = s.states := rfl
@[simp] theorem State.writeP_done (p : BitVec 3) (v : Bool) (s : State) : (s.writeP p v).done = s.done := rfl
@[simp] theorem State.writeP_bells (p : BitVec 3) (v : Bool) (s : State) : (s.writeP p v).bells = s.bells := rfl
@[simp] theorem State.writeP_mboxRegs (p : BitVec 3) (v : Bool) (s : State) : (s.writeP p v).mboxRegs = s.mboxRegs := rfl
@[simp] theorem State.writeP_w2base (p : BitVec 3) (v : Bool) (s : State) : (s.writeP p v).w2base = s.w2base := rfl
@[simp] theorem State.writeP_msix (p : BitVec 3) (v : Bool) (s : State) : (s.writeP p v).msix = s.msix := rfl
@[simp] theorem State.writeP_fmask (p : BitVec 3) (v : Bool) (s : State) : (s.writeP p v).fmask = s.fmask := rfl
@[simp] theorem State.writeP_lateVecs (p : BitVec 3) (v : Bool) (s : State) : (s.writeP p v).lateVecs = s.lateVecs := rfl
@[simp] theorem State.writeP_pba (p : BitVec 3) (v : Bool) (s : State) : (s.writeP p v).pba = s.pba := rfl
@[simp] theorem State.writeP_rdyd (p : BitVec 3) (v : Bool) (s : State) : (s.writeP p v).rdyd = s.rdyd := rfl
@[simp] theorem State.writeP_rdyc (p : BitVec 3) (v : Bool) (s : State) : (s.writeP p v).rdyc = s.rdyc := rfl
@[simp] theorem State.writeP_rdym (p : BitVec 3) (v : Bool) (s : State) : (s.writeP p v).rdym = s.rdym := rfl
@[simp] theorem State.writeP_flm (p : BitVec 3) (v : Bool) (s : State) : (s.writeP p v).flm = s.flm := rfl
@[simp] theorem State.writeP_pcap (p : BitVec 3) (v : Bool) (s : State) : (s.writeP p v).pcap = s.pcap := rfl
@[simp] theorem State.writeP_attBusy (p : BitVec 3) (v : Bool) (s : State) : (s.writeP p v).attBusy = s.attBusy := rfl
@[simp] theorem State.writeP_attStat (p : BitVec 3) (v : Bool) (s : State) : (s.writeP p v).attStat = s.attStat := rfl
@[simp] theorem State.writeP_attAddr (p : BitVec 3) (v : Bool) (s : State) : (s.writeP p v).attAddr = s.attAddr := rfl
@[simp] theorem State.writeP_i3cAddr (p : BitVec 3) (v : Bool) (s : State) : (s.writeP p v).i3cAddr = s.i3cAddr := rfl

@[simp] theorem State.orFlags_agenda (f : BitVec 5) (s : State) : (s.orFlags f).agenda = s.agenda := rfl
@[simp] theorem State.orFlags_serial (f : BitVec 5) (s : State) : (s.orFlags f).serial = s.serial := rfl
@[simp] theorem State.orFlags_beat (f : BitVec 5) (s : State) : (s.orFlags f).beat = s.beat := rfl
@[simp] theorem State.orFlags_pick (f : BitVec 5) (s : State) : (s.orFlags f).pick = s.pick := rfl
@[simp] theorem State.orFlags_thr (f : BitVec 5) (s : State) : (s.orFlags f).thr = { s.thr with ctx := { s.thr.ctx with st := s.st ||| (f.setWidth 64 <<< 4) } } := rfl
@[simp] theorem State.orFlags_pool (f : BitVec 5) (s : State) : (s.orFlags f).pool = s.pool := rfl
@[simp] theorem State.orFlags_cores (f : BitVec 5) (s : State) : (s.orFlags f).cores = s.cores := rfl
@[simp] theorem State.orFlags_clusters (f : BitVec 5) (s : State) : (s.orFlags f).clusters = s.clusters := rfl
@[simp] theorem State.orFlags_dies (f : BitVec 5) (s : State) : (s.orFlags f).dies = s.dies := rfl
@[simp] theorem State.orFlags_ports (f : BitVec 5) (s : State) : (s.orFlags f).ports = s.ports := rfl
@[simp] theorem State.orFlags_coreMap (f : BitVec 5) (s : State) : (s.orFlags f).coreMap = s.coreMap := rfl
@[simp] theorem State.orFlags_mem (f : BitVec 5) (s : State) : (s.orFlags f).mem = s.mem := rfl
@[simp] theorem State.orFlags_asks (f : BitVec 5) (s : State) : (s.orFlags f).asks = s.asks := rfl
@[simp] theorem State.orFlags_trying (f : BitVec 5) (s : State) : (s.orFlags f).trying = s.trying := rfl
@[simp] theorem State.orFlags_empties (f : BitVec 5) (s : State) : (s.orFlags f).empties = s.empties := rfl
@[simp] theorem State.orFlags_poison (f : BitVec 5) (s : State) : (s.orFlags f).poison = s.poison := rfl
@[simp] theorem State.orFlags_path (f : BitVec 5) (s : State) : (s.orFlags f).path = s.path := rfl
@[simp] theorem State.orFlags_tskb (f : BitVec 5) (s : State) : (s.orFlags f).tskb = s.tskb := rfl
@[simp] theorem State.orFlags_hmtb (f : BitVec 5) (s : State) : (s.orFlags f).hmtb = s.hmtb := rfl
@[simp] theorem State.orFlags_pwtb (f : BitVec 5) (s : State) : (s.orFlags f).pwtb = s.pwtb := rfl
@[simp] theorem State.orFlags_partb (f : BitVec 5) (s : State) : (s.orFlags f).partb = s.partb := rfl
@[simp] theorem State.orFlags_masks (f : BitVec 5) (s : State) : (s.orFlags f).masks = s.masks := rfl
@[simp] theorem State.orFlags_peers1 (f : BitVec 5) (s : State) : (s.orFlags f).peers1 = s.peers1 := rfl
@[simp] theorem State.orFlags_peers2 (f : BitVec 5) (s : State) : (s.orFlags f).peers2 = s.peers2 := rfl
@[simp] theorem State.orFlags_bgen (f : BitVec 5) (s : State) : (s.orFlags f).bgen = s.bgen := rfl
@[simp] theorem State.orFlags_flash (f : BitVec 5) (s : State) : (s.orFlags f).flash = s.flash := rfl
@[simp] theorem State.orFlags_flashGen (f : BitVec 5) (s : State) : (s.orFlags f).flashGen = s.flashGen := rfl
@[simp] theorem State.orFlags_tgen (f : BitVec 5) (s : State) : (s.orFlags f).tgen = s.tgen := rfl
@[simp] theorem State.orFlags_pops (f : BitVec 5) (s : State) : (s.orFlags f).pops = s.pops := rfl
@[simp] theorem State.orFlags_flight (f : BitVec 5) (s : State) : (s.orFlags f).flight = s.flight := rfl
@[simp] theorem State.orFlags_waiters (f : BitVec 5) (s : State) : (s.orFlags f).waiters = s.waiters := rfl
@[simp] theorem State.orFlags_owed (f : BitVec 5) (s : State) : (s.orFlags f).owed = s.owed := rfl
@[simp] theorem State.orFlags_acks (f : BitVec 5) (s : State) : (s.orFlags f).acks = s.acks := rfl
@[simp] theorem State.orFlags_naks (f : BitVec 5) (s : State) : (s.orFlags f).naks = s.naks := rfl
@[simp] theorem State.orFlags_hops (f : BitVec 5) (s : State) : (s.orFlags f).hops = s.hops := rfl
@[simp] theorem State.orFlags_pings (f : BitVec 5) (s : State) : (s.orFlags f).pings = s.pings := rfl
@[simp] theorem State.orFlags_wakeReqs (f : BitVec 5) (s : State) : (s.orFlags f).wakeReqs = s.wakeReqs := rfl
@[simp] theorem State.orFlags_sysWakes (f : BitVec 5) (s : State) : (s.orFlags f).sysWakes = s.sysWakes := rfl
@[simp] theorem State.orFlags_wkxs (f : BitVec 5) (s : State) : (s.orFlags f).wkxs = s.wkxs := rfl
@[simp] theorem State.orFlags_sysWrites (f : BitVec 5) (s : State) : (s.orFlags f).sysWrites = s.sysWrites := rfl
@[simp] theorem State.orFlags_msgs (f : BitVec 5) (s : State) : (s.orFlags f).msgs = s.msgs := rfl
@[simp] theorem State.orFlags_flue (f : BitVec 5) (s : State) : (s.orFlags f).flue = s.flue := rfl
@[simp] theorem State.orFlags_flits (f : BitVec 5) (s : State) : (s.orFlags f).flits = s.flits := rfl
@[simp] theorem State.orFlags_drifts (f : BitVec 5) (s : State) : (s.orFlags f).drifts = s.drifts := rfl
@[simp] theorem State.orFlags_portLast (f : BitVec 5) (s : State) : (s.orFlags f).portLast = s.portLast := rfl
@[simp] theorem State.orFlags_hostTx (f : BitVec 5) (s : State) : (s.orFlags f).hostTx = s.hostTx := rfl
@[simp] theorem State.orFlags_hostReads (f : BitVec 5) (s : State) : (s.orFlags f).hostReads = s.hostReads := rfl
@[simp] theorem State.orFlags_hostHold (f : BitVec 5) (s : State) : (s.orFlags f).hostHold = s.hostHold := rfl
@[simp] theorem State.orFlags_hostQ (f : BitVec 5) (s : State) : (s.orFlags f).hostQ = s.hostQ := rfl
@[simp] theorem State.orFlags_hostIn (f : BitVec 5) (s : State) : (s.orFlags f).hostIn = s.hostIn := rfl
@[simp] theorem State.orFlags_regions (f : BitVec 5) (s : State) : (s.orFlags f).regions = s.regions := rfl
@[simp] theorem State.orFlags_groupGens (f : BitVec 5) (s : State) : (s.orFlags f).groupGens = s.groupGens := rfl
@[simp] theorem State.orFlags_seqs (f : BitVec 5) (s : State) : (s.orFlags f).seqs = s.seqs := rfl
@[simp] theorem State.orFlags_halves (f : BitVec 5) (s : State) : (s.orFlags f).halves = s.halves := rfl
@[simp] theorem State.orFlags_answers (f : BitVec 5) (s : State) : (s.orFlags f).answers = s.answers := rfl
@[simp] theorem State.orFlags_recalls (f : BitVec 5) (s : State) : (s.orFlags f).recalls = s.recalls := rfl
@[simp] theorem State.orFlags_reasms (f : BitVec 5) (s : State) : (s.orFlags f).reasms = s.reasms := rfl
@[simp] theorem State.orFlags_brineQ (f : BitVec 5) (s : State) : (s.orFlags f).brineQ = s.brineQ := rfl
@[simp] theorem State.orFlags_rounds (f : BitVec 5) (s : State) : (s.orFlags f).rounds = s.rounds := rfl
@[simp] theorem State.orFlags_abandoned (f : BitVec 5) (s : State) : (s.orFlags f).abandoned = s.abandoned := rfl
@[simp] theorem State.orFlags_proposals (f : BitVec 5) (s : State) : (s.orFlags f).proposals = s.proposals := rfl
@[simp] theorem State.orFlags_states (f : BitVec 5) (s : State) : (s.orFlags f).states = s.states := rfl
@[simp] theorem State.orFlags_done (f : BitVec 5) (s : State) : (s.orFlags f).done = s.done := rfl
@[simp] theorem State.orFlags_bells (f : BitVec 5) (s : State) : (s.orFlags f).bells = s.bells := rfl
@[simp] theorem State.orFlags_mboxRegs (f : BitVec 5) (s : State) : (s.orFlags f).mboxRegs = s.mboxRegs := rfl
@[simp] theorem State.orFlags_w2base (f : BitVec 5) (s : State) : (s.orFlags f).w2base = s.w2base := rfl
@[simp] theorem State.orFlags_msix (f : BitVec 5) (s : State) : (s.orFlags f).msix = s.msix := rfl
@[simp] theorem State.orFlags_fmask (f : BitVec 5) (s : State) : (s.orFlags f).fmask = s.fmask := rfl
@[simp] theorem State.orFlags_lateVecs (f : BitVec 5) (s : State) : (s.orFlags f).lateVecs = s.lateVecs := rfl
@[simp] theorem State.orFlags_pba (f : BitVec 5) (s : State) : (s.orFlags f).pba = s.pba := rfl
@[simp] theorem State.orFlags_rdyd (f : BitVec 5) (s : State) : (s.orFlags f).rdyd = s.rdyd := rfl
@[simp] theorem State.orFlags_rdyc (f : BitVec 5) (s : State) : (s.orFlags f).rdyc = s.rdyc := rfl
@[simp] theorem State.orFlags_rdym (f : BitVec 5) (s : State) : (s.orFlags f).rdym = s.rdym := rfl
@[simp] theorem State.orFlags_flm (f : BitVec 5) (s : State) : (s.orFlags f).flm = s.flm := rfl
@[simp] theorem State.orFlags_pcap (f : BitVec 5) (s : State) : (s.orFlags f).pcap = s.pcap := rfl
@[simp] theorem State.orFlags_attBusy (f : BitVec 5) (s : State) : (s.orFlags f).attBusy = s.attBusy := rfl
@[simp] theorem State.orFlags_attStat (f : BitVec 5) (s : State) : (s.orFlags f).attStat = s.attStat := rfl
@[simp] theorem State.orFlags_attAddr (f : BitVec 5) (s : State) : (s.orFlags f).attAddr = s.attAddr := rfl
@[simp] theorem State.orFlags_i3cAddr (f : BitVec 5) (s : State) : (s.orFlags f).i3cAddr = s.i3cAddr := rfl

@[simp] theorem State.setCore_agenda (n : Nat) (f : CoreSt → CoreSt) (s : State) : (s.setCore n f).agenda = s.agenda := rfl
@[simp] theorem State.setCore_serial (n : Nat) (f : CoreSt → CoreSt) (s : State) : (s.setCore n f).serial = s.serial := rfl
@[simp] theorem State.setCore_beat (n : Nat) (f : CoreSt → CoreSt) (s : State) : (s.setCore n f).beat = s.beat := rfl
@[simp] theorem State.setCore_pick (n : Nat) (f : CoreSt → CoreSt) (s : State) : (s.setCore n f).pick = s.pick := rfl
@[simp] theorem State.setCore_thr (n : Nat) (f : CoreSt → CoreSt) (s : State) : (s.setCore n f).thr = s.thr := rfl
@[simp] theorem State.setCore_pool (n : Nat) (f : CoreSt → CoreSt) (s : State) : (s.setCore n f).pool = s.pool := rfl
@[simp] theorem State.setCore_cores (n : Nat) (f : CoreSt → CoreSt) (s : State) : (s.setCore n f).cores = put n (f (s.core n)) s.cores := rfl
@[simp] theorem State.setCore_clusters (n : Nat) (f : CoreSt → CoreSt) (s : State) : (s.setCore n f).clusters = s.clusters := rfl
@[simp] theorem State.setCore_dies (n : Nat) (f : CoreSt → CoreSt) (s : State) : (s.setCore n f).dies = s.dies := rfl
@[simp] theorem State.setCore_ports (n : Nat) (f : CoreSt → CoreSt) (s : State) : (s.setCore n f).ports = s.ports := rfl
@[simp] theorem State.setCore_coreMap (n : Nat) (f : CoreSt → CoreSt) (s : State) : (s.setCore n f).coreMap = s.coreMap := rfl
@[simp] theorem State.setCore_mem (n : Nat) (f : CoreSt → CoreSt) (s : State) : (s.setCore n f).mem = s.mem := rfl
@[simp] theorem State.setCore_asks (n : Nat) (f : CoreSt → CoreSt) (s : State) : (s.setCore n f).asks = s.asks := rfl
@[simp] theorem State.setCore_trying (n : Nat) (f : CoreSt → CoreSt) (s : State) : (s.setCore n f).trying = s.trying := rfl
@[simp] theorem State.setCore_empties (n : Nat) (f : CoreSt → CoreSt) (s : State) : (s.setCore n f).empties = s.empties := rfl
@[simp] theorem State.setCore_poison (n : Nat) (f : CoreSt → CoreSt) (s : State) : (s.setCore n f).poison = s.poison := rfl
@[simp] theorem State.setCore_path (n : Nat) (f : CoreSt → CoreSt) (s : State) : (s.setCore n f).path = s.path := rfl
@[simp] theorem State.setCore_tskb (n : Nat) (f : CoreSt → CoreSt) (s : State) : (s.setCore n f).tskb = s.tskb := rfl
@[simp] theorem State.setCore_hmtb (n : Nat) (f : CoreSt → CoreSt) (s : State) : (s.setCore n f).hmtb = s.hmtb := rfl
@[simp] theorem State.setCore_pwtb (n : Nat) (f : CoreSt → CoreSt) (s : State) : (s.setCore n f).pwtb = s.pwtb := rfl
@[simp] theorem State.setCore_partb (n : Nat) (f : CoreSt → CoreSt) (s : State) : (s.setCore n f).partb = s.partb := rfl
@[simp] theorem State.setCore_masks (n : Nat) (f : CoreSt → CoreSt) (s : State) : (s.setCore n f).masks = s.masks := rfl
@[simp] theorem State.setCore_peers1 (n : Nat) (f : CoreSt → CoreSt) (s : State) : (s.setCore n f).peers1 = s.peers1 := rfl
@[simp] theorem State.setCore_peers2 (n : Nat) (f : CoreSt → CoreSt) (s : State) : (s.setCore n f).peers2 = s.peers2 := rfl
@[simp] theorem State.setCore_bgen (n : Nat) (f : CoreSt → CoreSt) (s : State) : (s.setCore n f).bgen = s.bgen := rfl
@[simp] theorem State.setCore_flash (n : Nat) (f : CoreSt → CoreSt) (s : State) : (s.setCore n f).flash = s.flash := rfl
@[simp] theorem State.setCore_flashGen (n : Nat) (f : CoreSt → CoreSt) (s : State) : (s.setCore n f).flashGen = s.flashGen := rfl
@[simp] theorem State.setCore_tgen (n : Nat) (f : CoreSt → CoreSt) (s : State) : (s.setCore n f).tgen = s.tgen := rfl
@[simp] theorem State.setCore_pops (n : Nat) (f : CoreSt → CoreSt) (s : State) : (s.setCore n f).pops = s.pops := rfl
@[simp] theorem State.setCore_flight (n : Nat) (f : CoreSt → CoreSt) (s : State) : (s.setCore n f).flight = s.flight := rfl
@[simp] theorem State.setCore_waiters (n : Nat) (f : CoreSt → CoreSt) (s : State) : (s.setCore n f).waiters = s.waiters := rfl
@[simp] theorem State.setCore_owed (n : Nat) (f : CoreSt → CoreSt) (s : State) : (s.setCore n f).owed = s.owed := rfl
@[simp] theorem State.setCore_acks (n : Nat) (f : CoreSt → CoreSt) (s : State) : (s.setCore n f).acks = s.acks := rfl
@[simp] theorem State.setCore_naks (n : Nat) (f : CoreSt → CoreSt) (s : State) : (s.setCore n f).naks = s.naks := rfl
@[simp] theorem State.setCore_hops (n : Nat) (f : CoreSt → CoreSt) (s : State) : (s.setCore n f).hops = s.hops := rfl
@[simp] theorem State.setCore_pings (n : Nat) (f : CoreSt → CoreSt) (s : State) : (s.setCore n f).pings = s.pings := rfl
@[simp] theorem State.setCore_wakeReqs (n : Nat) (f : CoreSt → CoreSt) (s : State) : (s.setCore n f).wakeReqs = s.wakeReqs := rfl
@[simp] theorem State.setCore_sysWakes (n : Nat) (f : CoreSt → CoreSt) (s : State) : (s.setCore n f).sysWakes = s.sysWakes := rfl
@[simp] theorem State.setCore_wkxs (n : Nat) (f : CoreSt → CoreSt) (s : State) : (s.setCore n f).wkxs = s.wkxs := rfl
@[simp] theorem State.setCore_sysWrites (n : Nat) (f : CoreSt → CoreSt) (s : State) : (s.setCore n f).sysWrites = s.sysWrites := rfl
@[simp] theorem State.setCore_msgs (n : Nat) (f : CoreSt → CoreSt) (s : State) : (s.setCore n f).msgs = s.msgs := rfl
@[simp] theorem State.setCore_flue (n : Nat) (f : CoreSt → CoreSt) (s : State) : (s.setCore n f).flue = s.flue := rfl
@[simp] theorem State.setCore_flits (n : Nat) (f : CoreSt → CoreSt) (s : State) : (s.setCore n f).flits = s.flits := rfl
@[simp] theorem State.setCore_drifts (n : Nat) (f : CoreSt → CoreSt) (s : State) : (s.setCore n f).drifts = s.drifts := rfl
@[simp] theorem State.setCore_portLast (n : Nat) (f : CoreSt → CoreSt) (s : State) : (s.setCore n f).portLast = s.portLast := rfl
@[simp] theorem State.setCore_hostTx (n : Nat) (f : CoreSt → CoreSt) (s : State) : (s.setCore n f).hostTx = s.hostTx := rfl
@[simp] theorem State.setCore_hostReads (n : Nat) (f : CoreSt → CoreSt) (s : State) : (s.setCore n f).hostReads = s.hostReads := rfl
@[simp] theorem State.setCore_hostHold (n : Nat) (f : CoreSt → CoreSt) (s : State) : (s.setCore n f).hostHold = s.hostHold := rfl
@[simp] theorem State.setCore_hostQ (n : Nat) (f : CoreSt → CoreSt) (s : State) : (s.setCore n f).hostQ = s.hostQ := rfl
@[simp] theorem State.setCore_hostIn (n : Nat) (f : CoreSt → CoreSt) (s : State) : (s.setCore n f).hostIn = s.hostIn := rfl
@[simp] theorem State.setCore_regions (n : Nat) (f : CoreSt → CoreSt) (s : State) : (s.setCore n f).regions = s.regions := rfl
@[simp] theorem State.setCore_groupGens (n : Nat) (f : CoreSt → CoreSt) (s : State) : (s.setCore n f).groupGens = s.groupGens := rfl
@[simp] theorem State.setCore_seqs (n : Nat) (f : CoreSt → CoreSt) (s : State) : (s.setCore n f).seqs = s.seqs := rfl
@[simp] theorem State.setCore_halves (n : Nat) (f : CoreSt → CoreSt) (s : State) : (s.setCore n f).halves = s.halves := rfl
@[simp] theorem State.setCore_answers (n : Nat) (f : CoreSt → CoreSt) (s : State) : (s.setCore n f).answers = s.answers := rfl
@[simp] theorem State.setCore_recalls (n : Nat) (f : CoreSt → CoreSt) (s : State) : (s.setCore n f).recalls = s.recalls := rfl
@[simp] theorem State.setCore_reasms (n : Nat) (f : CoreSt → CoreSt) (s : State) : (s.setCore n f).reasms = s.reasms := rfl
@[simp] theorem State.setCore_brineQ (n : Nat) (f : CoreSt → CoreSt) (s : State) : (s.setCore n f).brineQ = s.brineQ := rfl
@[simp] theorem State.setCore_rounds (n : Nat) (f : CoreSt → CoreSt) (s : State) : (s.setCore n f).rounds = s.rounds := rfl
@[simp] theorem State.setCore_abandoned (n : Nat) (f : CoreSt → CoreSt) (s : State) : (s.setCore n f).abandoned = s.abandoned := rfl
@[simp] theorem State.setCore_proposals (n : Nat) (f : CoreSt → CoreSt) (s : State) : (s.setCore n f).proposals = s.proposals := rfl
@[simp] theorem State.setCore_states (n : Nat) (f : CoreSt → CoreSt) (s : State) : (s.setCore n f).states = s.states := rfl
@[simp] theorem State.setCore_done (n : Nat) (f : CoreSt → CoreSt) (s : State) : (s.setCore n f).done = s.done := rfl
@[simp] theorem State.setCore_bells (n : Nat) (f : CoreSt → CoreSt) (s : State) : (s.setCore n f).bells = s.bells := rfl
@[simp] theorem State.setCore_mboxRegs (n : Nat) (f : CoreSt → CoreSt) (s : State) : (s.setCore n f).mboxRegs = s.mboxRegs := rfl
@[simp] theorem State.setCore_w2base (n : Nat) (f : CoreSt → CoreSt) (s : State) : (s.setCore n f).w2base = s.w2base := rfl
@[simp] theorem State.setCore_msix (n : Nat) (f : CoreSt → CoreSt) (s : State) : (s.setCore n f).msix = s.msix := rfl
@[simp] theorem State.setCore_fmask (n : Nat) (f : CoreSt → CoreSt) (s : State) : (s.setCore n f).fmask = s.fmask := rfl
@[simp] theorem State.setCore_lateVecs (n : Nat) (f : CoreSt → CoreSt) (s : State) : (s.setCore n f).lateVecs = s.lateVecs := rfl
@[simp] theorem State.setCore_pba (n : Nat) (f : CoreSt → CoreSt) (s : State) : (s.setCore n f).pba = s.pba := rfl
@[simp] theorem State.setCore_rdyd (n : Nat) (f : CoreSt → CoreSt) (s : State) : (s.setCore n f).rdyd = s.rdyd := rfl
@[simp] theorem State.setCore_rdyc (n : Nat) (f : CoreSt → CoreSt) (s : State) : (s.setCore n f).rdyc = s.rdyc := rfl
@[simp] theorem State.setCore_rdym (n : Nat) (f : CoreSt → CoreSt) (s : State) : (s.setCore n f).rdym = s.rdym := rfl
@[simp] theorem State.setCore_flm (n : Nat) (f : CoreSt → CoreSt) (s : State) : (s.setCore n f).flm = s.flm := rfl
@[simp] theorem State.setCore_pcap (n : Nat) (f : CoreSt → CoreSt) (s : State) : (s.setCore n f).pcap = s.pcap := rfl
@[simp] theorem State.setCore_attBusy (n : Nat) (f : CoreSt → CoreSt) (s : State) : (s.setCore n f).attBusy = s.attBusy := rfl
@[simp] theorem State.setCore_attStat (n : Nat) (f : CoreSt → CoreSt) (s : State) : (s.setCore n f).attStat = s.attStat := rfl
@[simp] theorem State.setCore_attAddr (n : Nat) (f : CoreSt → CoreSt) (s : State) : (s.setCore n f).attAddr = s.attAddr := rfl
@[simp] theorem State.setCore_i3cAddr (n : Nat) (f : CoreSt → CoreSt) (s : State) : (s.setCore n f).i3cAddr = s.i3cAddr := rfl

@[simp] theorem State.setCluster_agenda (n : Nat) (f : ClusterSt → ClusterSt) (s : State) : (s.setCluster n f).agenda = s.agenda := rfl
@[simp] theorem State.setCluster_serial (n : Nat) (f : ClusterSt → ClusterSt) (s : State) : (s.setCluster n f).serial = s.serial := rfl
@[simp] theorem State.setCluster_beat (n : Nat) (f : ClusterSt → ClusterSt) (s : State) : (s.setCluster n f).beat = s.beat := rfl
@[simp] theorem State.setCluster_pick (n : Nat) (f : ClusterSt → ClusterSt) (s : State) : (s.setCluster n f).pick = s.pick := rfl
@[simp] theorem State.setCluster_thr (n : Nat) (f : ClusterSt → ClusterSt) (s : State) : (s.setCluster n f).thr = s.thr := rfl
@[simp] theorem State.setCluster_pool (n : Nat) (f : ClusterSt → ClusterSt) (s : State) : (s.setCluster n f).pool = s.pool := rfl
@[simp] theorem State.setCluster_cores (n : Nat) (f : ClusterSt → ClusterSt) (s : State) : (s.setCluster n f).cores = s.cores := rfl
@[simp] theorem State.setCluster_clusters (n : Nat) (f : ClusterSt → ClusterSt) (s : State) : (s.setCluster n f).clusters = put n (f (s.cluster n)) s.clusters := rfl
@[simp] theorem State.setCluster_dies (n : Nat) (f : ClusterSt → ClusterSt) (s : State) : (s.setCluster n f).dies = s.dies := rfl
@[simp] theorem State.setCluster_ports (n : Nat) (f : ClusterSt → ClusterSt) (s : State) : (s.setCluster n f).ports = s.ports := rfl
@[simp] theorem State.setCluster_coreMap (n : Nat) (f : ClusterSt → ClusterSt) (s : State) : (s.setCluster n f).coreMap = s.coreMap := rfl
@[simp] theorem State.setCluster_mem (n : Nat) (f : ClusterSt → ClusterSt) (s : State) : (s.setCluster n f).mem = s.mem := rfl
@[simp] theorem State.setCluster_asks (n : Nat) (f : ClusterSt → ClusterSt) (s : State) : (s.setCluster n f).asks = s.asks := rfl
@[simp] theorem State.setCluster_trying (n : Nat) (f : ClusterSt → ClusterSt) (s : State) : (s.setCluster n f).trying = s.trying := rfl
@[simp] theorem State.setCluster_empties (n : Nat) (f : ClusterSt → ClusterSt) (s : State) : (s.setCluster n f).empties = s.empties := rfl
@[simp] theorem State.setCluster_poison (n : Nat) (f : ClusterSt → ClusterSt) (s : State) : (s.setCluster n f).poison = s.poison := rfl
@[simp] theorem State.setCluster_path (n : Nat) (f : ClusterSt → ClusterSt) (s : State) : (s.setCluster n f).path = s.path := rfl
@[simp] theorem State.setCluster_tskb (n : Nat) (f : ClusterSt → ClusterSt) (s : State) : (s.setCluster n f).tskb = s.tskb := rfl
@[simp] theorem State.setCluster_hmtb (n : Nat) (f : ClusterSt → ClusterSt) (s : State) : (s.setCluster n f).hmtb = s.hmtb := rfl
@[simp] theorem State.setCluster_pwtb (n : Nat) (f : ClusterSt → ClusterSt) (s : State) : (s.setCluster n f).pwtb = s.pwtb := rfl
@[simp] theorem State.setCluster_partb (n : Nat) (f : ClusterSt → ClusterSt) (s : State) : (s.setCluster n f).partb = s.partb := rfl
@[simp] theorem State.setCluster_masks (n : Nat) (f : ClusterSt → ClusterSt) (s : State) : (s.setCluster n f).masks = s.masks := rfl
@[simp] theorem State.setCluster_peers1 (n : Nat) (f : ClusterSt → ClusterSt) (s : State) : (s.setCluster n f).peers1 = s.peers1 := rfl
@[simp] theorem State.setCluster_peers2 (n : Nat) (f : ClusterSt → ClusterSt) (s : State) : (s.setCluster n f).peers2 = s.peers2 := rfl
@[simp] theorem State.setCluster_bgen (n : Nat) (f : ClusterSt → ClusterSt) (s : State) : (s.setCluster n f).bgen = s.bgen := rfl
@[simp] theorem State.setCluster_flash (n : Nat) (f : ClusterSt → ClusterSt) (s : State) : (s.setCluster n f).flash = s.flash := rfl
@[simp] theorem State.setCluster_flashGen (n : Nat) (f : ClusterSt → ClusterSt) (s : State) : (s.setCluster n f).flashGen = s.flashGen := rfl
@[simp] theorem State.setCluster_tgen (n : Nat) (f : ClusterSt → ClusterSt) (s : State) : (s.setCluster n f).tgen = s.tgen := rfl
@[simp] theorem State.setCluster_pops (n : Nat) (f : ClusterSt → ClusterSt) (s : State) : (s.setCluster n f).pops = s.pops := rfl
@[simp] theorem State.setCluster_flight (n : Nat) (f : ClusterSt → ClusterSt) (s : State) : (s.setCluster n f).flight = s.flight := rfl
@[simp] theorem State.setCluster_waiters (n : Nat) (f : ClusterSt → ClusterSt) (s : State) : (s.setCluster n f).waiters = s.waiters := rfl
@[simp] theorem State.setCluster_owed (n : Nat) (f : ClusterSt → ClusterSt) (s : State) : (s.setCluster n f).owed = s.owed := rfl
@[simp] theorem State.setCluster_acks (n : Nat) (f : ClusterSt → ClusterSt) (s : State) : (s.setCluster n f).acks = s.acks := rfl
@[simp] theorem State.setCluster_naks (n : Nat) (f : ClusterSt → ClusterSt) (s : State) : (s.setCluster n f).naks = s.naks := rfl
@[simp] theorem State.setCluster_hops (n : Nat) (f : ClusterSt → ClusterSt) (s : State) : (s.setCluster n f).hops = s.hops := rfl
@[simp] theorem State.setCluster_pings (n : Nat) (f : ClusterSt → ClusterSt) (s : State) : (s.setCluster n f).pings = s.pings := rfl
@[simp] theorem State.setCluster_wakeReqs (n : Nat) (f : ClusterSt → ClusterSt) (s : State) : (s.setCluster n f).wakeReqs = s.wakeReqs := rfl
@[simp] theorem State.setCluster_sysWakes (n : Nat) (f : ClusterSt → ClusterSt) (s : State) : (s.setCluster n f).sysWakes = s.sysWakes := rfl
@[simp] theorem State.setCluster_wkxs (n : Nat) (f : ClusterSt → ClusterSt) (s : State) : (s.setCluster n f).wkxs = s.wkxs := rfl
@[simp] theorem State.setCluster_sysWrites (n : Nat) (f : ClusterSt → ClusterSt) (s : State) : (s.setCluster n f).sysWrites = s.sysWrites := rfl
@[simp] theorem State.setCluster_msgs (n : Nat) (f : ClusterSt → ClusterSt) (s : State) : (s.setCluster n f).msgs = s.msgs := rfl
@[simp] theorem State.setCluster_flue (n : Nat) (f : ClusterSt → ClusterSt) (s : State) : (s.setCluster n f).flue = s.flue := rfl
@[simp] theorem State.setCluster_flits (n : Nat) (f : ClusterSt → ClusterSt) (s : State) : (s.setCluster n f).flits = s.flits := rfl
@[simp] theorem State.setCluster_drifts (n : Nat) (f : ClusterSt → ClusterSt) (s : State) : (s.setCluster n f).drifts = s.drifts := rfl
@[simp] theorem State.setCluster_portLast (n : Nat) (f : ClusterSt → ClusterSt) (s : State) : (s.setCluster n f).portLast = s.portLast := rfl
@[simp] theorem State.setCluster_hostTx (n : Nat) (f : ClusterSt → ClusterSt) (s : State) : (s.setCluster n f).hostTx = s.hostTx := rfl
@[simp] theorem State.setCluster_hostReads (n : Nat) (f : ClusterSt → ClusterSt) (s : State) : (s.setCluster n f).hostReads = s.hostReads := rfl
@[simp] theorem State.setCluster_hostHold (n : Nat) (f : ClusterSt → ClusterSt) (s : State) : (s.setCluster n f).hostHold = s.hostHold := rfl
@[simp] theorem State.setCluster_hostQ (n : Nat) (f : ClusterSt → ClusterSt) (s : State) : (s.setCluster n f).hostQ = s.hostQ := rfl
@[simp] theorem State.setCluster_hostIn (n : Nat) (f : ClusterSt → ClusterSt) (s : State) : (s.setCluster n f).hostIn = s.hostIn := rfl
@[simp] theorem State.setCluster_regions (n : Nat) (f : ClusterSt → ClusterSt) (s : State) : (s.setCluster n f).regions = s.regions := rfl
@[simp] theorem State.setCluster_groupGens (n : Nat) (f : ClusterSt → ClusterSt) (s : State) : (s.setCluster n f).groupGens = s.groupGens := rfl
@[simp] theorem State.setCluster_seqs (n : Nat) (f : ClusterSt → ClusterSt) (s : State) : (s.setCluster n f).seqs = s.seqs := rfl
@[simp] theorem State.setCluster_halves (n : Nat) (f : ClusterSt → ClusterSt) (s : State) : (s.setCluster n f).halves = s.halves := rfl
@[simp] theorem State.setCluster_answers (n : Nat) (f : ClusterSt → ClusterSt) (s : State) : (s.setCluster n f).answers = s.answers := rfl
@[simp] theorem State.setCluster_recalls (n : Nat) (f : ClusterSt → ClusterSt) (s : State) : (s.setCluster n f).recalls = s.recalls := rfl
@[simp] theorem State.setCluster_reasms (n : Nat) (f : ClusterSt → ClusterSt) (s : State) : (s.setCluster n f).reasms = s.reasms := rfl
@[simp] theorem State.setCluster_brineQ (n : Nat) (f : ClusterSt → ClusterSt) (s : State) : (s.setCluster n f).brineQ = s.brineQ := rfl
@[simp] theorem State.setCluster_rounds (n : Nat) (f : ClusterSt → ClusterSt) (s : State) : (s.setCluster n f).rounds = s.rounds := rfl
@[simp] theorem State.setCluster_abandoned (n : Nat) (f : ClusterSt → ClusterSt) (s : State) : (s.setCluster n f).abandoned = s.abandoned := rfl
@[simp] theorem State.setCluster_proposals (n : Nat) (f : ClusterSt → ClusterSt) (s : State) : (s.setCluster n f).proposals = s.proposals := rfl
@[simp] theorem State.setCluster_states (n : Nat) (f : ClusterSt → ClusterSt) (s : State) : (s.setCluster n f).states = s.states := rfl
@[simp] theorem State.setCluster_done (n : Nat) (f : ClusterSt → ClusterSt) (s : State) : (s.setCluster n f).done = s.done := rfl
@[simp] theorem State.setCluster_bells (n : Nat) (f : ClusterSt → ClusterSt) (s : State) : (s.setCluster n f).bells = s.bells := rfl
@[simp] theorem State.setCluster_mboxRegs (n : Nat) (f : ClusterSt → ClusterSt) (s : State) : (s.setCluster n f).mboxRegs = s.mboxRegs := rfl
@[simp] theorem State.setCluster_w2base (n : Nat) (f : ClusterSt → ClusterSt) (s : State) : (s.setCluster n f).w2base = s.w2base := rfl
@[simp] theorem State.setCluster_msix (n : Nat) (f : ClusterSt → ClusterSt) (s : State) : (s.setCluster n f).msix = s.msix := rfl
@[simp] theorem State.setCluster_fmask (n : Nat) (f : ClusterSt → ClusterSt) (s : State) : (s.setCluster n f).fmask = s.fmask := rfl
@[simp] theorem State.setCluster_lateVecs (n : Nat) (f : ClusterSt → ClusterSt) (s : State) : (s.setCluster n f).lateVecs = s.lateVecs := rfl
@[simp] theorem State.setCluster_pba (n : Nat) (f : ClusterSt → ClusterSt) (s : State) : (s.setCluster n f).pba = s.pba := rfl
@[simp] theorem State.setCluster_rdyd (n : Nat) (f : ClusterSt → ClusterSt) (s : State) : (s.setCluster n f).rdyd = s.rdyd := rfl
@[simp] theorem State.setCluster_rdyc (n : Nat) (f : ClusterSt → ClusterSt) (s : State) : (s.setCluster n f).rdyc = s.rdyc := rfl
@[simp] theorem State.setCluster_rdym (n : Nat) (f : ClusterSt → ClusterSt) (s : State) : (s.setCluster n f).rdym = s.rdym := rfl
@[simp] theorem State.setCluster_flm (n : Nat) (f : ClusterSt → ClusterSt) (s : State) : (s.setCluster n f).flm = s.flm := rfl
@[simp] theorem State.setCluster_pcap (n : Nat) (f : ClusterSt → ClusterSt) (s : State) : (s.setCluster n f).pcap = s.pcap := rfl
@[simp] theorem State.setCluster_attBusy (n : Nat) (f : ClusterSt → ClusterSt) (s : State) : (s.setCluster n f).attBusy = s.attBusy := rfl
@[simp] theorem State.setCluster_attStat (n : Nat) (f : ClusterSt → ClusterSt) (s : State) : (s.setCluster n f).attStat = s.attStat := rfl
@[simp] theorem State.setCluster_attAddr (n : Nat) (f : ClusterSt → ClusterSt) (s : State) : (s.setCluster n f).attAddr = s.attAddr := rfl
@[simp] theorem State.setCluster_i3cAddr (n : Nat) (f : ClusterSt → ClusterSt) (s : State) : (s.setCluster n f).i3cAddr = s.i3cAddr := rfl

@[simp] theorem State.setDie_agenda (n : Nat) (f : DieSt → DieSt) (s : State) : (s.setDie n f).agenda = s.agenda := rfl
@[simp] theorem State.setDie_serial (n : Nat) (f : DieSt → DieSt) (s : State) : (s.setDie n f).serial = s.serial := rfl
@[simp] theorem State.setDie_beat (n : Nat) (f : DieSt → DieSt) (s : State) : (s.setDie n f).beat = s.beat := rfl
@[simp] theorem State.setDie_pick (n : Nat) (f : DieSt → DieSt) (s : State) : (s.setDie n f).pick = s.pick := rfl
@[simp] theorem State.setDie_thr (n : Nat) (f : DieSt → DieSt) (s : State) : (s.setDie n f).thr = s.thr := rfl
@[simp] theorem State.setDie_pool (n : Nat) (f : DieSt → DieSt) (s : State) : (s.setDie n f).pool = s.pool := rfl
@[simp] theorem State.setDie_cores (n : Nat) (f : DieSt → DieSt) (s : State) : (s.setDie n f).cores = s.cores := rfl
@[simp] theorem State.setDie_clusters (n : Nat) (f : DieSt → DieSt) (s : State) : (s.setDie n f).clusters = s.clusters := rfl
@[simp] theorem State.setDie_dies (n : Nat) (f : DieSt → DieSt) (s : State) : (s.setDie n f).dies = put n (f (s.die n)) s.dies := rfl
@[simp] theorem State.setDie_ports (n : Nat) (f : DieSt → DieSt) (s : State) : (s.setDie n f).ports = s.ports := rfl
@[simp] theorem State.setDie_coreMap (n : Nat) (f : DieSt → DieSt) (s : State) : (s.setDie n f).coreMap = s.coreMap := rfl
@[simp] theorem State.setDie_mem (n : Nat) (f : DieSt → DieSt) (s : State) : (s.setDie n f).mem = s.mem := rfl
@[simp] theorem State.setDie_asks (n : Nat) (f : DieSt → DieSt) (s : State) : (s.setDie n f).asks = s.asks := rfl
@[simp] theorem State.setDie_trying (n : Nat) (f : DieSt → DieSt) (s : State) : (s.setDie n f).trying = s.trying := rfl
@[simp] theorem State.setDie_empties (n : Nat) (f : DieSt → DieSt) (s : State) : (s.setDie n f).empties = s.empties := rfl
@[simp] theorem State.setDie_poison (n : Nat) (f : DieSt → DieSt) (s : State) : (s.setDie n f).poison = s.poison := rfl
@[simp] theorem State.setDie_path (n : Nat) (f : DieSt → DieSt) (s : State) : (s.setDie n f).path = s.path := rfl
@[simp] theorem State.setDie_tskb (n : Nat) (f : DieSt → DieSt) (s : State) : (s.setDie n f).tskb = s.tskb := rfl
@[simp] theorem State.setDie_hmtb (n : Nat) (f : DieSt → DieSt) (s : State) : (s.setDie n f).hmtb = s.hmtb := rfl
@[simp] theorem State.setDie_pwtb (n : Nat) (f : DieSt → DieSt) (s : State) : (s.setDie n f).pwtb = s.pwtb := rfl
@[simp] theorem State.setDie_partb (n : Nat) (f : DieSt → DieSt) (s : State) : (s.setDie n f).partb = s.partb := rfl
@[simp] theorem State.setDie_masks (n : Nat) (f : DieSt → DieSt) (s : State) : (s.setDie n f).masks = s.masks := rfl
@[simp] theorem State.setDie_peers1 (n : Nat) (f : DieSt → DieSt) (s : State) : (s.setDie n f).peers1 = s.peers1 := rfl
@[simp] theorem State.setDie_peers2 (n : Nat) (f : DieSt → DieSt) (s : State) : (s.setDie n f).peers2 = s.peers2 := rfl
@[simp] theorem State.setDie_bgen (n : Nat) (f : DieSt → DieSt) (s : State) : (s.setDie n f).bgen = s.bgen := rfl
@[simp] theorem State.setDie_flash (n : Nat) (f : DieSt → DieSt) (s : State) : (s.setDie n f).flash = s.flash := rfl
@[simp] theorem State.setDie_flashGen (n : Nat) (f : DieSt → DieSt) (s : State) : (s.setDie n f).flashGen = s.flashGen := rfl
@[simp] theorem State.setDie_tgen (n : Nat) (f : DieSt → DieSt) (s : State) : (s.setDie n f).tgen = s.tgen := rfl
@[simp] theorem State.setDie_pops (n : Nat) (f : DieSt → DieSt) (s : State) : (s.setDie n f).pops = s.pops := rfl
@[simp] theorem State.setDie_flight (n : Nat) (f : DieSt → DieSt) (s : State) : (s.setDie n f).flight = s.flight := rfl
@[simp] theorem State.setDie_waiters (n : Nat) (f : DieSt → DieSt) (s : State) : (s.setDie n f).waiters = s.waiters := rfl
@[simp] theorem State.setDie_owed (n : Nat) (f : DieSt → DieSt) (s : State) : (s.setDie n f).owed = s.owed := rfl
@[simp] theorem State.setDie_acks (n : Nat) (f : DieSt → DieSt) (s : State) : (s.setDie n f).acks = s.acks := rfl
@[simp] theorem State.setDie_naks (n : Nat) (f : DieSt → DieSt) (s : State) : (s.setDie n f).naks = s.naks := rfl
@[simp] theorem State.setDie_hops (n : Nat) (f : DieSt → DieSt) (s : State) : (s.setDie n f).hops = s.hops := rfl
@[simp] theorem State.setDie_pings (n : Nat) (f : DieSt → DieSt) (s : State) : (s.setDie n f).pings = s.pings := rfl
@[simp] theorem State.setDie_wakeReqs (n : Nat) (f : DieSt → DieSt) (s : State) : (s.setDie n f).wakeReqs = s.wakeReqs := rfl
@[simp] theorem State.setDie_sysWakes (n : Nat) (f : DieSt → DieSt) (s : State) : (s.setDie n f).sysWakes = s.sysWakes := rfl
@[simp] theorem State.setDie_wkxs (n : Nat) (f : DieSt → DieSt) (s : State) : (s.setDie n f).wkxs = s.wkxs := rfl
@[simp] theorem State.setDie_sysWrites (n : Nat) (f : DieSt → DieSt) (s : State) : (s.setDie n f).sysWrites = s.sysWrites := rfl
@[simp] theorem State.setDie_msgs (n : Nat) (f : DieSt → DieSt) (s : State) : (s.setDie n f).msgs = s.msgs := rfl
@[simp] theorem State.setDie_flue (n : Nat) (f : DieSt → DieSt) (s : State) : (s.setDie n f).flue = s.flue := rfl
@[simp] theorem State.setDie_flits (n : Nat) (f : DieSt → DieSt) (s : State) : (s.setDie n f).flits = s.flits := rfl
@[simp] theorem State.setDie_drifts (n : Nat) (f : DieSt → DieSt) (s : State) : (s.setDie n f).drifts = s.drifts := rfl
@[simp] theorem State.setDie_portLast (n : Nat) (f : DieSt → DieSt) (s : State) : (s.setDie n f).portLast = s.portLast := rfl
@[simp] theorem State.setDie_hostTx (n : Nat) (f : DieSt → DieSt) (s : State) : (s.setDie n f).hostTx = s.hostTx := rfl
@[simp] theorem State.setDie_hostReads (n : Nat) (f : DieSt → DieSt) (s : State) : (s.setDie n f).hostReads = s.hostReads := rfl
@[simp] theorem State.setDie_hostHold (n : Nat) (f : DieSt → DieSt) (s : State) : (s.setDie n f).hostHold = s.hostHold := rfl
@[simp] theorem State.setDie_hostQ (n : Nat) (f : DieSt → DieSt) (s : State) : (s.setDie n f).hostQ = s.hostQ := rfl
@[simp] theorem State.setDie_hostIn (n : Nat) (f : DieSt → DieSt) (s : State) : (s.setDie n f).hostIn = s.hostIn := rfl
@[simp] theorem State.setDie_regions (n : Nat) (f : DieSt → DieSt) (s : State) : (s.setDie n f).regions = s.regions := rfl
@[simp] theorem State.setDie_groupGens (n : Nat) (f : DieSt → DieSt) (s : State) : (s.setDie n f).groupGens = s.groupGens := rfl
@[simp] theorem State.setDie_seqs (n : Nat) (f : DieSt → DieSt) (s : State) : (s.setDie n f).seqs = s.seqs := rfl
@[simp] theorem State.setDie_halves (n : Nat) (f : DieSt → DieSt) (s : State) : (s.setDie n f).halves = s.halves := rfl
@[simp] theorem State.setDie_answers (n : Nat) (f : DieSt → DieSt) (s : State) : (s.setDie n f).answers = s.answers := rfl
@[simp] theorem State.setDie_recalls (n : Nat) (f : DieSt → DieSt) (s : State) : (s.setDie n f).recalls = s.recalls := rfl
@[simp] theorem State.setDie_reasms (n : Nat) (f : DieSt → DieSt) (s : State) : (s.setDie n f).reasms = s.reasms := rfl
@[simp] theorem State.setDie_brineQ (n : Nat) (f : DieSt → DieSt) (s : State) : (s.setDie n f).brineQ = s.brineQ := rfl
@[simp] theorem State.setDie_rounds (n : Nat) (f : DieSt → DieSt) (s : State) : (s.setDie n f).rounds = s.rounds := rfl
@[simp] theorem State.setDie_abandoned (n : Nat) (f : DieSt → DieSt) (s : State) : (s.setDie n f).abandoned = s.abandoned := rfl
@[simp] theorem State.setDie_proposals (n : Nat) (f : DieSt → DieSt) (s : State) : (s.setDie n f).proposals = s.proposals := rfl
@[simp] theorem State.setDie_states (n : Nat) (f : DieSt → DieSt) (s : State) : (s.setDie n f).states = s.states := rfl
@[simp] theorem State.setDie_done (n : Nat) (f : DieSt → DieSt) (s : State) : (s.setDie n f).done = s.done := rfl
@[simp] theorem State.setDie_bells (n : Nat) (f : DieSt → DieSt) (s : State) : (s.setDie n f).bells = s.bells := rfl
@[simp] theorem State.setDie_mboxRegs (n : Nat) (f : DieSt → DieSt) (s : State) : (s.setDie n f).mboxRegs = s.mboxRegs := rfl
@[simp] theorem State.setDie_w2base (n : Nat) (f : DieSt → DieSt) (s : State) : (s.setDie n f).w2base = s.w2base := rfl
@[simp] theorem State.setDie_msix (n : Nat) (f : DieSt → DieSt) (s : State) : (s.setDie n f).msix = s.msix := rfl
@[simp] theorem State.setDie_fmask (n : Nat) (f : DieSt → DieSt) (s : State) : (s.setDie n f).fmask = s.fmask := rfl
@[simp] theorem State.setDie_lateVecs (n : Nat) (f : DieSt → DieSt) (s : State) : (s.setDie n f).lateVecs = s.lateVecs := rfl
@[simp] theorem State.setDie_pba (n : Nat) (f : DieSt → DieSt) (s : State) : (s.setDie n f).pba = s.pba := rfl
@[simp] theorem State.setDie_rdyd (n : Nat) (f : DieSt → DieSt) (s : State) : (s.setDie n f).rdyd = s.rdyd := rfl
@[simp] theorem State.setDie_rdyc (n : Nat) (f : DieSt → DieSt) (s : State) : (s.setDie n f).rdyc = s.rdyc := rfl
@[simp] theorem State.setDie_rdym (n : Nat) (f : DieSt → DieSt) (s : State) : (s.setDie n f).rdym = s.rdym := rfl
@[simp] theorem State.setDie_flm (n : Nat) (f : DieSt → DieSt) (s : State) : (s.setDie n f).flm = s.flm := rfl
@[simp] theorem State.setDie_pcap (n : Nat) (f : DieSt → DieSt) (s : State) : (s.setDie n f).pcap = s.pcap := rfl
@[simp] theorem State.setDie_attBusy (n : Nat) (f : DieSt → DieSt) (s : State) : (s.setDie n f).attBusy = s.attBusy := rfl
@[simp] theorem State.setDie_attStat (n : Nat) (f : DieSt → DieSt) (s : State) : (s.setDie n f).attStat = s.attStat := rfl
@[simp] theorem State.setDie_attAddr (n : Nat) (f : DieSt → DieSt) (s : State) : (s.setDie n f).attAddr = s.attAddr := rfl
@[simp] theorem State.setDie_i3cAddr (n : Nat) (f : DieSt → DieSt) (s : State) : (s.setDie n f).i3cAddr = s.i3cAddr := rfl

@[simp] theorem State.setPort_agenda (n : Nat) (f : Port → Port) (s : State) : (s.setPort n f).agenda = s.agenda := rfl
@[simp] theorem State.setPort_serial (n : Nat) (f : Port → Port) (s : State) : (s.setPort n f).serial = s.serial := rfl
@[simp] theorem State.setPort_beat (n : Nat) (f : Port → Port) (s : State) : (s.setPort n f).beat = s.beat := rfl
@[simp] theorem State.setPort_pick (n : Nat) (f : Port → Port) (s : State) : (s.setPort n f).pick = s.pick := rfl
@[simp] theorem State.setPort_thr (n : Nat) (f : Port → Port) (s : State) : (s.setPort n f).thr = s.thr := rfl
@[simp] theorem State.setPort_pool (n : Nat) (f : Port → Port) (s : State) : (s.setPort n f).pool = s.pool := rfl
@[simp] theorem State.setPort_cores (n : Nat) (f : Port → Port) (s : State) : (s.setPort n f).cores = s.cores := rfl
@[simp] theorem State.setPort_clusters (n : Nat) (f : Port → Port) (s : State) : (s.setPort n f).clusters = s.clusters := rfl
@[simp] theorem State.setPort_dies (n : Nat) (f : Port → Port) (s : State) : (s.setPort n f).dies = s.dies := rfl
@[simp] theorem State.setPort_ports (n : Nat) (f : Port → Port) (s : State) : (s.setPort n f).ports = put n (f (s.port n)) s.ports := rfl
@[simp] theorem State.setPort_coreMap (n : Nat) (f : Port → Port) (s : State) : (s.setPort n f).coreMap = s.coreMap := rfl
@[simp] theorem State.setPort_mem (n : Nat) (f : Port → Port) (s : State) : (s.setPort n f).mem = s.mem := rfl
@[simp] theorem State.setPort_asks (n : Nat) (f : Port → Port) (s : State) : (s.setPort n f).asks = s.asks := rfl
@[simp] theorem State.setPort_trying (n : Nat) (f : Port → Port) (s : State) : (s.setPort n f).trying = s.trying := rfl
@[simp] theorem State.setPort_empties (n : Nat) (f : Port → Port) (s : State) : (s.setPort n f).empties = s.empties := rfl
@[simp] theorem State.setPort_poison (n : Nat) (f : Port → Port) (s : State) : (s.setPort n f).poison = s.poison := rfl
@[simp] theorem State.setPort_path (n : Nat) (f : Port → Port) (s : State) : (s.setPort n f).path = s.path := rfl
@[simp] theorem State.setPort_tskb (n : Nat) (f : Port → Port) (s : State) : (s.setPort n f).tskb = s.tskb := rfl
@[simp] theorem State.setPort_hmtb (n : Nat) (f : Port → Port) (s : State) : (s.setPort n f).hmtb = s.hmtb := rfl
@[simp] theorem State.setPort_pwtb (n : Nat) (f : Port → Port) (s : State) : (s.setPort n f).pwtb = s.pwtb := rfl
@[simp] theorem State.setPort_partb (n : Nat) (f : Port → Port) (s : State) : (s.setPort n f).partb = s.partb := rfl
@[simp] theorem State.setPort_masks (n : Nat) (f : Port → Port) (s : State) : (s.setPort n f).masks = s.masks := rfl
@[simp] theorem State.setPort_peers1 (n : Nat) (f : Port → Port) (s : State) : (s.setPort n f).peers1 = s.peers1 := rfl
@[simp] theorem State.setPort_peers2 (n : Nat) (f : Port → Port) (s : State) : (s.setPort n f).peers2 = s.peers2 := rfl
@[simp] theorem State.setPort_bgen (n : Nat) (f : Port → Port) (s : State) : (s.setPort n f).bgen = s.bgen := rfl
@[simp] theorem State.setPort_flash (n : Nat) (f : Port → Port) (s : State) : (s.setPort n f).flash = s.flash := rfl
@[simp] theorem State.setPort_flashGen (n : Nat) (f : Port → Port) (s : State) : (s.setPort n f).flashGen = s.flashGen := rfl
@[simp] theorem State.setPort_tgen (n : Nat) (f : Port → Port) (s : State) : (s.setPort n f).tgen = s.tgen := rfl
@[simp] theorem State.setPort_pops (n : Nat) (f : Port → Port) (s : State) : (s.setPort n f).pops = s.pops := rfl
@[simp] theorem State.setPort_flight (n : Nat) (f : Port → Port) (s : State) : (s.setPort n f).flight = s.flight := rfl
@[simp] theorem State.setPort_waiters (n : Nat) (f : Port → Port) (s : State) : (s.setPort n f).waiters = s.waiters := rfl
@[simp] theorem State.setPort_owed (n : Nat) (f : Port → Port) (s : State) : (s.setPort n f).owed = s.owed := rfl
@[simp] theorem State.setPort_acks (n : Nat) (f : Port → Port) (s : State) : (s.setPort n f).acks = s.acks := rfl
@[simp] theorem State.setPort_naks (n : Nat) (f : Port → Port) (s : State) : (s.setPort n f).naks = s.naks := rfl
@[simp] theorem State.setPort_hops (n : Nat) (f : Port → Port) (s : State) : (s.setPort n f).hops = s.hops := rfl
@[simp] theorem State.setPort_pings (n : Nat) (f : Port → Port) (s : State) : (s.setPort n f).pings = s.pings := rfl
@[simp] theorem State.setPort_wakeReqs (n : Nat) (f : Port → Port) (s : State) : (s.setPort n f).wakeReqs = s.wakeReqs := rfl
@[simp] theorem State.setPort_sysWakes (n : Nat) (f : Port → Port) (s : State) : (s.setPort n f).sysWakes = s.sysWakes := rfl
@[simp] theorem State.setPort_wkxs (n : Nat) (f : Port → Port) (s : State) : (s.setPort n f).wkxs = s.wkxs := rfl
@[simp] theorem State.setPort_sysWrites (n : Nat) (f : Port → Port) (s : State) : (s.setPort n f).sysWrites = s.sysWrites := rfl
@[simp] theorem State.setPort_msgs (n : Nat) (f : Port → Port) (s : State) : (s.setPort n f).msgs = s.msgs := rfl
@[simp] theorem State.setPort_flue (n : Nat) (f : Port → Port) (s : State) : (s.setPort n f).flue = s.flue := rfl
@[simp] theorem State.setPort_flits (n : Nat) (f : Port → Port) (s : State) : (s.setPort n f).flits = s.flits := rfl
@[simp] theorem State.setPort_drifts (n : Nat) (f : Port → Port) (s : State) : (s.setPort n f).drifts = s.drifts := rfl
@[simp] theorem State.setPort_portLast (n : Nat) (f : Port → Port) (s : State) : (s.setPort n f).portLast = s.portLast := rfl
@[simp] theorem State.setPort_hostTx (n : Nat) (f : Port → Port) (s : State) : (s.setPort n f).hostTx = s.hostTx := rfl
@[simp] theorem State.setPort_hostReads (n : Nat) (f : Port → Port) (s : State) : (s.setPort n f).hostReads = s.hostReads := rfl
@[simp] theorem State.setPort_hostHold (n : Nat) (f : Port → Port) (s : State) : (s.setPort n f).hostHold = s.hostHold := rfl
@[simp] theorem State.setPort_hostQ (n : Nat) (f : Port → Port) (s : State) : (s.setPort n f).hostQ = s.hostQ := rfl
@[simp] theorem State.setPort_hostIn (n : Nat) (f : Port → Port) (s : State) : (s.setPort n f).hostIn = s.hostIn := rfl
@[simp] theorem State.setPort_regions (n : Nat) (f : Port → Port) (s : State) : (s.setPort n f).regions = s.regions := rfl
@[simp] theorem State.setPort_groupGens (n : Nat) (f : Port → Port) (s : State) : (s.setPort n f).groupGens = s.groupGens := rfl
@[simp] theorem State.setPort_seqs (n : Nat) (f : Port → Port) (s : State) : (s.setPort n f).seqs = s.seqs := rfl
@[simp] theorem State.setPort_halves (n : Nat) (f : Port → Port) (s : State) : (s.setPort n f).halves = s.halves := rfl
@[simp] theorem State.setPort_answers (n : Nat) (f : Port → Port) (s : State) : (s.setPort n f).answers = s.answers := rfl
@[simp] theorem State.setPort_recalls (n : Nat) (f : Port → Port) (s : State) : (s.setPort n f).recalls = s.recalls := rfl
@[simp] theorem State.setPort_reasms (n : Nat) (f : Port → Port) (s : State) : (s.setPort n f).reasms = s.reasms := rfl
@[simp] theorem State.setPort_brineQ (n : Nat) (f : Port → Port) (s : State) : (s.setPort n f).brineQ = s.brineQ := rfl
@[simp] theorem State.setPort_rounds (n : Nat) (f : Port → Port) (s : State) : (s.setPort n f).rounds = s.rounds := rfl
@[simp] theorem State.setPort_abandoned (n : Nat) (f : Port → Port) (s : State) : (s.setPort n f).abandoned = s.abandoned := rfl
@[simp] theorem State.setPort_proposals (n : Nat) (f : Port → Port) (s : State) : (s.setPort n f).proposals = s.proposals := rfl
@[simp] theorem State.setPort_states (n : Nat) (f : Port → Port) (s : State) : (s.setPort n f).states = s.states := rfl
@[simp] theorem State.setPort_done (n : Nat) (f : Port → Port) (s : State) : (s.setPort n f).done = s.done := rfl
@[simp] theorem State.setPort_bells (n : Nat) (f : Port → Port) (s : State) : (s.setPort n f).bells = s.bells := rfl
@[simp] theorem State.setPort_mboxRegs (n : Nat) (f : Port → Port) (s : State) : (s.setPort n f).mboxRegs = s.mboxRegs := rfl
@[simp] theorem State.setPort_w2base (n : Nat) (f : Port → Port) (s : State) : (s.setPort n f).w2base = s.w2base := rfl
@[simp] theorem State.setPort_msix (n : Nat) (f : Port → Port) (s : State) : (s.setPort n f).msix = s.msix := rfl
@[simp] theorem State.setPort_fmask (n : Nat) (f : Port → Port) (s : State) : (s.setPort n f).fmask = s.fmask := rfl
@[simp] theorem State.setPort_lateVecs (n : Nat) (f : Port → Port) (s : State) : (s.setPort n f).lateVecs = s.lateVecs := rfl
@[simp] theorem State.setPort_pba (n : Nat) (f : Port → Port) (s : State) : (s.setPort n f).pba = s.pba := rfl
@[simp] theorem State.setPort_rdyd (n : Nat) (f : Port → Port) (s : State) : (s.setPort n f).rdyd = s.rdyd := rfl
@[simp] theorem State.setPort_rdyc (n : Nat) (f : Port → Port) (s : State) : (s.setPort n f).rdyc = s.rdyc := rfl
@[simp] theorem State.setPort_rdym (n : Nat) (f : Port → Port) (s : State) : (s.setPort n f).rdym = s.rdym := rfl
@[simp] theorem State.setPort_flm (n : Nat) (f : Port → Port) (s : State) : (s.setPort n f).flm = s.flm := rfl
@[simp] theorem State.setPort_pcap (n : Nat) (f : Port → Port) (s : State) : (s.setPort n f).pcap = s.pcap := rfl
@[simp] theorem State.setPort_attBusy (n : Nat) (f : Port → Port) (s : State) : (s.setPort n f).attBusy = s.attBusy := rfl
@[simp] theorem State.setPort_attStat (n : Nat) (f : Port → Port) (s : State) : (s.setPort n f).attStat = s.attStat := rfl
@[simp] theorem State.setPort_attAddr (n : Nat) (f : Port → Port) (s : State) : (s.setPort n f).attAddr = s.attAddr := rfl
@[simp] theorem State.setPort_i3cAddr (n : Nat) (f : Port → Port) (s : State) : (s.setPort n f).i3cAddr = s.i3cAddr := rfl

@[simp] theorem State.writeMem_agenda (a : Nat) (bs : List Byte) (s : State) : (s.writeMem a bs).agenda = s.agenda := rfl
@[simp] theorem State.writeMem_serial (a : Nat) (bs : List Byte) (s : State) : (s.writeMem a bs).serial = s.serial := rfl
@[simp] theorem State.writeMem_beat (a : Nat) (bs : List Byte) (s : State) : (s.writeMem a bs).beat = s.beat := rfl
@[simp] theorem State.writeMem_pick (a : Nat) (bs : List Byte) (s : State) : (s.writeMem a bs).pick = s.pick := rfl
@[simp] theorem State.writeMem_thr (a : Nat) (bs : List Byte) (s : State) : (s.writeMem a bs).thr = s.thr := rfl
@[simp] theorem State.writeMem_pool (a : Nat) (bs : List Byte) (s : State) : (s.writeMem a bs).pool = s.pool := rfl
@[simp] theorem State.writeMem_cores (a : Nat) (bs : List Byte) (s : State) : (s.writeMem a bs).cores = s.cores := rfl
@[simp] theorem State.writeMem_clusters (a : Nat) (bs : List Byte) (s : State) : (s.writeMem a bs).clusters = s.clusters := rfl
@[simp] theorem State.writeMem_dies (a : Nat) (bs : List Byte) (s : State) : (s.writeMem a bs).dies = s.dies := rfl
@[simp] theorem State.writeMem_ports (a : Nat) (bs : List Byte) (s : State) : (s.writeMem a bs).ports = s.ports := rfl
@[simp] theorem State.writeMem_coreMap (a : Nat) (bs : List Byte) (s : State) : (s.writeMem a bs).coreMap = s.coreMap := rfl
@[simp] theorem State.writeMem_asks (a : Nat) (bs : List Byte) (s : State) : (s.writeMem a bs).asks = s.asks := rfl
@[simp] theorem State.writeMem_trying (a : Nat) (bs : List Byte) (s : State) : (s.writeMem a bs).trying = s.trying := rfl
@[simp] theorem State.writeMem_path (a : Nat) (bs : List Byte) (s : State) : (s.writeMem a bs).path = s.path := rfl
@[simp] theorem State.writeMem_tskb (a : Nat) (bs : List Byte) (s : State) : (s.writeMem a bs).tskb = s.tskb := rfl
@[simp] theorem State.writeMem_hmtb (a : Nat) (bs : List Byte) (s : State) : (s.writeMem a bs).hmtb = s.hmtb := rfl
@[simp] theorem State.writeMem_pwtb (a : Nat) (bs : List Byte) (s : State) : (s.writeMem a bs).pwtb = s.pwtb := rfl
@[simp] theorem State.writeMem_partb (a : Nat) (bs : List Byte) (s : State) : (s.writeMem a bs).partb = s.partb := rfl
@[simp] theorem State.writeMem_masks (a : Nat) (bs : List Byte) (s : State) : (s.writeMem a bs).masks = s.masks := rfl
@[simp] theorem State.writeMem_peers1 (a : Nat) (bs : List Byte) (s : State) : (s.writeMem a bs).peers1 = s.peers1 := rfl
@[simp] theorem State.writeMem_peers2 (a : Nat) (bs : List Byte) (s : State) : (s.writeMem a bs).peers2 = s.peers2 := rfl
@[simp] theorem State.writeMem_bgen (a : Nat) (bs : List Byte) (s : State) : (s.writeMem a bs).bgen = s.bgen := rfl
@[simp] theorem State.writeMem_flash (a : Nat) (bs : List Byte) (s : State) : (s.writeMem a bs).flash = s.flash := rfl
@[simp] theorem State.writeMem_flashGen (a : Nat) (bs : List Byte) (s : State) : (s.writeMem a bs).flashGen = s.flashGen := rfl
@[simp] theorem State.writeMem_tgen (a : Nat) (bs : List Byte) (s : State) : (s.writeMem a bs).tgen = s.tgen := rfl
@[simp] theorem State.writeMem_pops (a : Nat) (bs : List Byte) (s : State) : (s.writeMem a bs).pops = s.pops := rfl
@[simp] theorem State.writeMem_flight (a : Nat) (bs : List Byte) (s : State) : (s.writeMem a bs).flight = s.flight := rfl
@[simp] theorem State.writeMem_waiters (a : Nat) (bs : List Byte) (s : State) : (s.writeMem a bs).waiters = s.waiters := rfl
@[simp] theorem State.writeMem_owed (a : Nat) (bs : List Byte) (s : State) : (s.writeMem a bs).owed = s.owed := rfl
@[simp] theorem State.writeMem_acks (a : Nat) (bs : List Byte) (s : State) : (s.writeMem a bs).acks = s.acks := rfl
@[simp] theorem State.writeMem_naks (a : Nat) (bs : List Byte) (s : State) : (s.writeMem a bs).naks = s.naks := rfl
@[simp] theorem State.writeMem_hops (a : Nat) (bs : List Byte) (s : State) : (s.writeMem a bs).hops = s.hops := rfl
@[simp] theorem State.writeMem_pings (a : Nat) (bs : List Byte) (s : State) : (s.writeMem a bs).pings = s.pings := rfl
@[simp] theorem State.writeMem_wakeReqs (a : Nat) (bs : List Byte) (s : State) : (s.writeMem a bs).wakeReqs = s.wakeReqs := rfl
@[simp] theorem State.writeMem_sysWakes (a : Nat) (bs : List Byte) (s : State) : (s.writeMem a bs).sysWakes = s.sysWakes := rfl
@[simp] theorem State.writeMem_wkxs (a : Nat) (bs : List Byte) (s : State) : (s.writeMem a bs).wkxs = s.wkxs := rfl
@[simp] theorem State.writeMem_sysWrites (a : Nat) (bs : List Byte) (s : State) : (s.writeMem a bs).sysWrites = s.sysWrites := rfl
@[simp] theorem State.writeMem_msgs (a : Nat) (bs : List Byte) (s : State) : (s.writeMem a bs).msgs = s.msgs := rfl
@[simp] theorem State.writeMem_flue (a : Nat) (bs : List Byte) (s : State) : (s.writeMem a bs).flue = s.flue := rfl
@[simp] theorem State.writeMem_flits (a : Nat) (bs : List Byte) (s : State) : (s.writeMem a bs).flits = s.flits := rfl
@[simp] theorem State.writeMem_drifts (a : Nat) (bs : List Byte) (s : State) : (s.writeMem a bs).drifts = s.drifts := rfl
@[simp] theorem State.writeMem_portLast (a : Nat) (bs : List Byte) (s : State) : (s.writeMem a bs).portLast = s.portLast := rfl
@[simp] theorem State.writeMem_hostTx (a : Nat) (bs : List Byte) (s : State) : (s.writeMem a bs).hostTx = s.hostTx := rfl
@[simp] theorem State.writeMem_hostReads (a : Nat) (bs : List Byte) (s : State) : (s.writeMem a bs).hostReads = s.hostReads := rfl
@[simp] theorem State.writeMem_hostHold (a : Nat) (bs : List Byte) (s : State) : (s.writeMem a bs).hostHold = s.hostHold := rfl
@[simp] theorem State.writeMem_hostQ (a : Nat) (bs : List Byte) (s : State) : (s.writeMem a bs).hostQ = s.hostQ := rfl
@[simp] theorem State.writeMem_hostIn (a : Nat) (bs : List Byte) (s : State) : (s.writeMem a bs).hostIn = s.hostIn := rfl
@[simp] theorem State.writeMem_regions (a : Nat) (bs : List Byte) (s : State) : (s.writeMem a bs).regions = s.regions := rfl
@[simp] theorem State.writeMem_groupGens (a : Nat) (bs : List Byte) (s : State) : (s.writeMem a bs).groupGens = s.groupGens := rfl
@[simp] theorem State.writeMem_seqs (a : Nat) (bs : List Byte) (s : State) : (s.writeMem a bs).seqs = s.seqs := rfl
@[simp] theorem State.writeMem_halves (a : Nat) (bs : List Byte) (s : State) : (s.writeMem a bs).halves = s.halves := rfl
@[simp] theorem State.writeMem_answers (a : Nat) (bs : List Byte) (s : State) : (s.writeMem a bs).answers = s.answers := rfl
@[simp] theorem State.writeMem_recalls (a : Nat) (bs : List Byte) (s : State) : (s.writeMem a bs).recalls = s.recalls := rfl
@[simp] theorem State.writeMem_reasms (a : Nat) (bs : List Byte) (s : State) : (s.writeMem a bs).reasms = s.reasms := rfl
@[simp] theorem State.writeMem_brineQ (a : Nat) (bs : List Byte) (s : State) : (s.writeMem a bs).brineQ = s.brineQ := rfl
@[simp] theorem State.writeMem_rounds (a : Nat) (bs : List Byte) (s : State) : (s.writeMem a bs).rounds = s.rounds := rfl
@[simp] theorem State.writeMem_abandoned (a : Nat) (bs : List Byte) (s : State) : (s.writeMem a bs).abandoned = s.abandoned := rfl
@[simp] theorem State.writeMem_proposals (a : Nat) (bs : List Byte) (s : State) : (s.writeMem a bs).proposals = s.proposals := rfl
@[simp] theorem State.writeMem_states (a : Nat) (bs : List Byte) (s : State) : (s.writeMem a bs).states = s.states := rfl
@[simp] theorem State.writeMem_done (a : Nat) (bs : List Byte) (s : State) : (s.writeMem a bs).done = s.done := rfl
@[simp] theorem State.writeMem_bells (a : Nat) (bs : List Byte) (s : State) : (s.writeMem a bs).bells = s.bells := rfl
@[simp] theorem State.writeMem_mboxRegs (a : Nat) (bs : List Byte) (s : State) : (s.writeMem a bs).mboxRegs = s.mboxRegs := rfl
@[simp] theorem State.writeMem_w2base (a : Nat) (bs : List Byte) (s : State) : (s.writeMem a bs).w2base = s.w2base := rfl
@[simp] theorem State.writeMem_msix (a : Nat) (bs : List Byte) (s : State) : (s.writeMem a bs).msix = s.msix := rfl
@[simp] theorem State.writeMem_fmask (a : Nat) (bs : List Byte) (s : State) : (s.writeMem a bs).fmask = s.fmask := rfl
@[simp] theorem State.writeMem_lateVecs (a : Nat) (bs : List Byte) (s : State) : (s.writeMem a bs).lateVecs = s.lateVecs := rfl
@[simp] theorem State.writeMem_pba (a : Nat) (bs : List Byte) (s : State) : (s.writeMem a bs).pba = s.pba := rfl
@[simp] theorem State.writeMem_rdyd (a : Nat) (bs : List Byte) (s : State) : (s.writeMem a bs).rdyd = s.rdyd := rfl
@[simp] theorem State.writeMem_rdyc (a : Nat) (bs : List Byte) (s : State) : (s.writeMem a bs).rdyc = s.rdyc := rfl
@[simp] theorem State.writeMem_rdym (a : Nat) (bs : List Byte) (s : State) : (s.writeMem a bs).rdym = s.rdym := rfl
@[simp] theorem State.writeMem_flm (a : Nat) (bs : List Byte) (s : State) : (s.writeMem a bs).flm = s.flm := rfl
@[simp] theorem State.writeMem_pcap (a : Nat) (bs : List Byte) (s : State) : (s.writeMem a bs).pcap = s.pcap := rfl
@[simp] theorem State.writeMem_attBusy (a : Nat) (bs : List Byte) (s : State) : (s.writeMem a bs).attBusy = s.attBusy := rfl
@[simp] theorem State.writeMem_attStat (a : Nat) (bs : List Byte) (s : State) : (s.writeMem a bs).attStat = s.attStat := rfl
@[simp] theorem State.writeMem_attAddr (a : Nat) (bs : List Byte) (s : State) : (s.writeMem a bs).attAddr = s.attAddr := rfl
@[simp] theorem State.writeMem_i3cAddr (a : Nat) (bs : List Byte) (s : State) : (s.writeMem a bs).i3cAddr = s.i3cAddr := rfl

@[simp] theorem State.setFullBit_agenda (a : Nat) (b : Bool) (s : State) : (s.setFullBit a b).agenda = s.agenda := rfl
@[simp] theorem State.setFullBit_serial (a : Nat) (b : Bool) (s : State) : (s.setFullBit a b).serial = s.serial := rfl
@[simp] theorem State.setFullBit_beat (a : Nat) (b : Bool) (s : State) : (s.setFullBit a b).beat = s.beat := rfl
@[simp] theorem State.setFullBit_pick (a : Nat) (b : Bool) (s : State) : (s.setFullBit a b).pick = s.pick := rfl
@[simp] theorem State.setFullBit_thr (a : Nat) (b : Bool) (s : State) : (s.setFullBit a b).thr = s.thr := rfl
@[simp] theorem State.setFullBit_pool (a : Nat) (b : Bool) (s : State) : (s.setFullBit a b).pool = s.pool := rfl
@[simp] theorem State.setFullBit_cores (a : Nat) (b : Bool) (s : State) : (s.setFullBit a b).cores = s.cores := rfl
@[simp] theorem State.setFullBit_clusters (a : Nat) (b : Bool) (s : State) : (s.setFullBit a b).clusters = s.clusters := rfl
@[simp] theorem State.setFullBit_dies (a : Nat) (b : Bool) (s : State) : (s.setFullBit a b).dies = s.dies := rfl
@[simp] theorem State.setFullBit_ports (a : Nat) (b : Bool) (s : State) : (s.setFullBit a b).ports = s.ports := rfl
@[simp] theorem State.setFullBit_coreMap (a : Nat) (b : Bool) (s : State) : (s.setFullBit a b).coreMap = s.coreMap := rfl
@[simp] theorem State.setFullBit_mem (a : Nat) (b : Bool) (s : State) : (s.setFullBit a b).mem = s.mem := rfl
@[simp] theorem State.setFullBit_asks (a : Nat) (b : Bool) (s : State) : (s.setFullBit a b).asks = s.asks := rfl
@[simp] theorem State.setFullBit_trying (a : Nat) (b : Bool) (s : State) : (s.setFullBit a b).trying = s.trying := rfl
@[simp] theorem State.setFullBit_poison (a : Nat) (b : Bool) (s : State) : (s.setFullBit a b).poison = s.poison := rfl
@[simp] theorem State.setFullBit_path (a : Nat) (b : Bool) (s : State) : (s.setFullBit a b).path = s.path := rfl
@[simp] theorem State.setFullBit_tskb (a : Nat) (b : Bool) (s : State) : (s.setFullBit a b).tskb = s.tskb := rfl
@[simp] theorem State.setFullBit_hmtb (a : Nat) (b : Bool) (s : State) : (s.setFullBit a b).hmtb = s.hmtb := rfl
@[simp] theorem State.setFullBit_pwtb (a : Nat) (b : Bool) (s : State) : (s.setFullBit a b).pwtb = s.pwtb := rfl
@[simp] theorem State.setFullBit_partb (a : Nat) (b : Bool) (s : State) : (s.setFullBit a b).partb = s.partb := rfl
@[simp] theorem State.setFullBit_masks (a : Nat) (b : Bool) (s : State) : (s.setFullBit a b).masks = s.masks := rfl
@[simp] theorem State.setFullBit_peers1 (a : Nat) (b : Bool) (s : State) : (s.setFullBit a b).peers1 = s.peers1 := rfl
@[simp] theorem State.setFullBit_peers2 (a : Nat) (b : Bool) (s : State) : (s.setFullBit a b).peers2 = s.peers2 := rfl
@[simp] theorem State.setFullBit_bgen (a : Nat) (b : Bool) (s : State) : (s.setFullBit a b).bgen = s.bgen := rfl
@[simp] theorem State.setFullBit_flash (a : Nat) (b : Bool) (s : State) : (s.setFullBit a b).flash = s.flash := rfl
@[simp] theorem State.setFullBit_flashGen (a : Nat) (b : Bool) (s : State) : (s.setFullBit a b).flashGen = s.flashGen := rfl
@[simp] theorem State.setFullBit_tgen (a : Nat) (b : Bool) (s : State) : (s.setFullBit a b).tgen = s.tgen := rfl
@[simp] theorem State.setFullBit_pops (a : Nat) (b : Bool) (s : State) : (s.setFullBit a b).pops = s.pops := rfl
@[simp] theorem State.setFullBit_flight (a : Nat) (b : Bool) (s : State) : (s.setFullBit a b).flight = s.flight := rfl
@[simp] theorem State.setFullBit_waiters (a : Nat) (b : Bool) (s : State) : (s.setFullBit a b).waiters = s.waiters := rfl
@[simp] theorem State.setFullBit_owed (a : Nat) (b : Bool) (s : State) : (s.setFullBit a b).owed = s.owed := rfl
@[simp] theorem State.setFullBit_acks (a : Nat) (b : Bool) (s : State) : (s.setFullBit a b).acks = s.acks := rfl
@[simp] theorem State.setFullBit_naks (a : Nat) (b : Bool) (s : State) : (s.setFullBit a b).naks = s.naks := rfl
@[simp] theorem State.setFullBit_hops (a : Nat) (b : Bool) (s : State) : (s.setFullBit a b).hops = s.hops := rfl
@[simp] theorem State.setFullBit_pings (a : Nat) (b : Bool) (s : State) : (s.setFullBit a b).pings = s.pings := rfl
@[simp] theorem State.setFullBit_wakeReqs (a : Nat) (b : Bool) (s : State) : (s.setFullBit a b).wakeReqs = s.wakeReqs := rfl
@[simp] theorem State.setFullBit_sysWakes (a : Nat) (b : Bool) (s : State) : (s.setFullBit a b).sysWakes = s.sysWakes := rfl
@[simp] theorem State.setFullBit_wkxs (a : Nat) (b : Bool) (s : State) : (s.setFullBit a b).wkxs = s.wkxs := rfl
@[simp] theorem State.setFullBit_sysWrites (a : Nat) (b : Bool) (s : State) : (s.setFullBit a b).sysWrites = s.sysWrites := rfl
@[simp] theorem State.setFullBit_msgs (a : Nat) (b : Bool) (s : State) : (s.setFullBit a b).msgs = s.msgs := rfl
@[simp] theorem State.setFullBit_flue (a : Nat) (b : Bool) (s : State) : (s.setFullBit a b).flue = s.flue := rfl
@[simp] theorem State.setFullBit_flits (a : Nat) (b : Bool) (s : State) : (s.setFullBit a b).flits = s.flits := rfl
@[simp] theorem State.setFullBit_drifts (a : Nat) (b : Bool) (s : State) : (s.setFullBit a b).drifts = s.drifts := rfl
@[simp] theorem State.setFullBit_portLast (a : Nat) (b : Bool) (s : State) : (s.setFullBit a b).portLast = s.portLast := rfl
@[simp] theorem State.setFullBit_hostTx (a : Nat) (b : Bool) (s : State) : (s.setFullBit a b).hostTx = s.hostTx := rfl
@[simp] theorem State.setFullBit_hostReads (a : Nat) (b : Bool) (s : State) : (s.setFullBit a b).hostReads = s.hostReads := rfl
@[simp] theorem State.setFullBit_hostHold (a : Nat) (b : Bool) (s : State) : (s.setFullBit a b).hostHold = s.hostHold := rfl
@[simp] theorem State.setFullBit_hostQ (a : Nat) (b : Bool) (s : State) : (s.setFullBit a b).hostQ = s.hostQ := rfl
@[simp] theorem State.setFullBit_hostIn (a : Nat) (b : Bool) (s : State) : (s.setFullBit a b).hostIn = s.hostIn := rfl
@[simp] theorem State.setFullBit_regions (a : Nat) (b : Bool) (s : State) : (s.setFullBit a b).regions = s.regions := rfl
@[simp] theorem State.setFullBit_groupGens (a : Nat) (b : Bool) (s : State) : (s.setFullBit a b).groupGens = s.groupGens := rfl
@[simp] theorem State.setFullBit_seqs (a : Nat) (b : Bool) (s : State) : (s.setFullBit a b).seqs = s.seqs := rfl
@[simp] theorem State.setFullBit_halves (a : Nat) (b : Bool) (s : State) : (s.setFullBit a b).halves = s.halves := rfl
@[simp] theorem State.setFullBit_answers (a : Nat) (b : Bool) (s : State) : (s.setFullBit a b).answers = s.answers := rfl
@[simp] theorem State.setFullBit_recalls (a : Nat) (b : Bool) (s : State) : (s.setFullBit a b).recalls = s.recalls := rfl
@[simp] theorem State.setFullBit_reasms (a : Nat) (b : Bool) (s : State) : (s.setFullBit a b).reasms = s.reasms := rfl
@[simp] theorem State.setFullBit_brineQ (a : Nat) (b : Bool) (s : State) : (s.setFullBit a b).brineQ = s.brineQ := rfl
@[simp] theorem State.setFullBit_rounds (a : Nat) (b : Bool) (s : State) : (s.setFullBit a b).rounds = s.rounds := rfl
@[simp] theorem State.setFullBit_abandoned (a : Nat) (b : Bool) (s : State) : (s.setFullBit a b).abandoned = s.abandoned := rfl
@[simp] theorem State.setFullBit_proposals (a : Nat) (b : Bool) (s : State) : (s.setFullBit a b).proposals = s.proposals := rfl
@[simp] theorem State.setFullBit_states (a : Nat) (b : Bool) (s : State) : (s.setFullBit a b).states = s.states := rfl
@[simp] theorem State.setFullBit_done (a : Nat) (b : Bool) (s : State) : (s.setFullBit a b).done = s.done := rfl
@[simp] theorem State.setFullBit_bells (a : Nat) (b : Bool) (s : State) : (s.setFullBit a b).bells = s.bells := rfl
@[simp] theorem State.setFullBit_mboxRegs (a : Nat) (b : Bool) (s : State) : (s.setFullBit a b).mboxRegs = s.mboxRegs := rfl
@[simp] theorem State.setFullBit_w2base (a : Nat) (b : Bool) (s : State) : (s.setFullBit a b).w2base = s.w2base := rfl
@[simp] theorem State.setFullBit_msix (a : Nat) (b : Bool) (s : State) : (s.setFullBit a b).msix = s.msix := rfl
@[simp] theorem State.setFullBit_fmask (a : Nat) (b : Bool) (s : State) : (s.setFullBit a b).fmask = s.fmask := rfl
@[simp] theorem State.setFullBit_lateVecs (a : Nat) (b : Bool) (s : State) : (s.setFullBit a b).lateVecs = s.lateVecs := rfl
@[simp] theorem State.setFullBit_pba (a : Nat) (b : Bool) (s : State) : (s.setFullBit a b).pba = s.pba := rfl
@[simp] theorem State.setFullBit_rdyd (a : Nat) (b : Bool) (s : State) : (s.setFullBit a b).rdyd = s.rdyd := rfl
@[simp] theorem State.setFullBit_rdyc (a : Nat) (b : Bool) (s : State) : (s.setFullBit a b).rdyc = s.rdyc := rfl
@[simp] theorem State.setFullBit_rdym (a : Nat) (b : Bool) (s : State) : (s.setFullBit a b).rdym = s.rdym := rfl
@[simp] theorem State.setFullBit_flm (a : Nat) (b : Bool) (s : State) : (s.setFullBit a b).flm = s.flm := rfl
@[simp] theorem State.setFullBit_pcap (a : Nat) (b : Bool) (s : State) : (s.setFullBit a b).pcap = s.pcap := rfl
@[simp] theorem State.setFullBit_attBusy (a : Nat) (b : Bool) (s : State) : (s.setFullBit a b).attBusy = s.attBusy := rfl
@[simp] theorem State.setFullBit_attStat (a : Nat) (b : Bool) (s : State) : (s.setFullBit a b).attStat = s.attStat := rfl
@[simp] theorem State.setFullBit_attAddr (a : Nat) (b : Bool) (s : State) : (s.setFullBit a b).attAddr = s.attAddr := rfl
@[simp] theorem State.setFullBit_i3cAddr (a : Nat) (b : Bool) (s : State) : (s.setFullBit a b).i3cAddr = s.i3cAddr := rfl

@[simp] theorem State.addPoison_agenda (a : Nat) (s : State) : (s.addPoison a).agenda = s.agenda := rfl
@[simp] theorem State.addPoison_serial (a : Nat) (s : State) : (s.addPoison a).serial = s.serial := rfl
@[simp] theorem State.addPoison_beat (a : Nat) (s : State) : (s.addPoison a).beat = s.beat := rfl
@[simp] theorem State.addPoison_pick (a : Nat) (s : State) : (s.addPoison a).pick = s.pick := rfl
@[simp] theorem State.addPoison_thr (a : Nat) (s : State) : (s.addPoison a).thr = s.thr := rfl
@[simp] theorem State.addPoison_pool (a : Nat) (s : State) : (s.addPoison a).pool = s.pool := rfl
@[simp] theorem State.addPoison_cores (a : Nat) (s : State) : (s.addPoison a).cores = s.cores := rfl
@[simp] theorem State.addPoison_clusters (a : Nat) (s : State) : (s.addPoison a).clusters = s.clusters := rfl
@[simp] theorem State.addPoison_dies (a : Nat) (s : State) : (s.addPoison a).dies = s.dies := rfl
@[simp] theorem State.addPoison_ports (a : Nat) (s : State) : (s.addPoison a).ports = s.ports := rfl
@[simp] theorem State.addPoison_coreMap (a : Nat) (s : State) : (s.addPoison a).coreMap = s.coreMap := rfl
@[simp] theorem State.addPoison_mem (a : Nat) (s : State) : (s.addPoison a).mem = s.mem := rfl
@[simp] theorem State.addPoison_asks (a : Nat) (s : State) : (s.addPoison a).asks = s.asks := rfl
@[simp] theorem State.addPoison_trying (a : Nat) (s : State) : (s.addPoison a).trying = s.trying := rfl
@[simp] theorem State.addPoison_empties (a : Nat) (s : State) : (s.addPoison a).empties = s.empties := rfl
@[simp] theorem State.addPoison_path (a : Nat) (s : State) : (s.addPoison a).path = s.path := rfl
@[simp] theorem State.addPoison_tskb (a : Nat) (s : State) : (s.addPoison a).tskb = s.tskb := rfl
@[simp] theorem State.addPoison_hmtb (a : Nat) (s : State) : (s.addPoison a).hmtb = s.hmtb := rfl
@[simp] theorem State.addPoison_pwtb (a : Nat) (s : State) : (s.addPoison a).pwtb = s.pwtb := rfl
@[simp] theorem State.addPoison_partb (a : Nat) (s : State) : (s.addPoison a).partb = s.partb := rfl
@[simp] theorem State.addPoison_masks (a : Nat) (s : State) : (s.addPoison a).masks = s.masks := rfl
@[simp] theorem State.addPoison_peers1 (a : Nat) (s : State) : (s.addPoison a).peers1 = s.peers1 := rfl
@[simp] theorem State.addPoison_peers2 (a : Nat) (s : State) : (s.addPoison a).peers2 = s.peers2 := rfl
@[simp] theorem State.addPoison_bgen (a : Nat) (s : State) : (s.addPoison a).bgen = s.bgen := rfl
@[simp] theorem State.addPoison_flash (a : Nat) (s : State) : (s.addPoison a).flash = s.flash := rfl
@[simp] theorem State.addPoison_flashGen (a : Nat) (s : State) : (s.addPoison a).flashGen = s.flashGen := rfl
@[simp] theorem State.addPoison_tgen (a : Nat) (s : State) : (s.addPoison a).tgen = s.tgen := rfl
@[simp] theorem State.addPoison_pops (a : Nat) (s : State) : (s.addPoison a).pops = s.pops := rfl
@[simp] theorem State.addPoison_flight (a : Nat) (s : State) : (s.addPoison a).flight = s.flight := rfl
@[simp] theorem State.addPoison_waiters (a : Nat) (s : State) : (s.addPoison a).waiters = s.waiters := rfl
@[simp] theorem State.addPoison_owed (a : Nat) (s : State) : (s.addPoison a).owed = s.owed := rfl
@[simp] theorem State.addPoison_acks (a : Nat) (s : State) : (s.addPoison a).acks = s.acks := rfl
@[simp] theorem State.addPoison_naks (a : Nat) (s : State) : (s.addPoison a).naks = s.naks := rfl
@[simp] theorem State.addPoison_hops (a : Nat) (s : State) : (s.addPoison a).hops = s.hops := rfl
@[simp] theorem State.addPoison_pings (a : Nat) (s : State) : (s.addPoison a).pings = s.pings := rfl
@[simp] theorem State.addPoison_wakeReqs (a : Nat) (s : State) : (s.addPoison a).wakeReqs = s.wakeReqs := rfl
@[simp] theorem State.addPoison_sysWakes (a : Nat) (s : State) : (s.addPoison a).sysWakes = s.sysWakes := rfl
@[simp] theorem State.addPoison_wkxs (a : Nat) (s : State) : (s.addPoison a).wkxs = s.wkxs := rfl
@[simp] theorem State.addPoison_sysWrites (a : Nat) (s : State) : (s.addPoison a).sysWrites = s.sysWrites := rfl
@[simp] theorem State.addPoison_msgs (a : Nat) (s : State) : (s.addPoison a).msgs = s.msgs := rfl
@[simp] theorem State.addPoison_flue (a : Nat) (s : State) : (s.addPoison a).flue = s.flue := rfl
@[simp] theorem State.addPoison_flits (a : Nat) (s : State) : (s.addPoison a).flits = s.flits := rfl
@[simp] theorem State.addPoison_drifts (a : Nat) (s : State) : (s.addPoison a).drifts = s.drifts := rfl
@[simp] theorem State.addPoison_portLast (a : Nat) (s : State) : (s.addPoison a).portLast = s.portLast := rfl
@[simp] theorem State.addPoison_hostTx (a : Nat) (s : State) : (s.addPoison a).hostTx = s.hostTx := rfl
@[simp] theorem State.addPoison_hostReads (a : Nat) (s : State) : (s.addPoison a).hostReads = s.hostReads := rfl
@[simp] theorem State.addPoison_hostHold (a : Nat) (s : State) : (s.addPoison a).hostHold = s.hostHold := rfl
@[simp] theorem State.addPoison_hostQ (a : Nat) (s : State) : (s.addPoison a).hostQ = s.hostQ := rfl
@[simp] theorem State.addPoison_hostIn (a : Nat) (s : State) : (s.addPoison a).hostIn = s.hostIn := rfl
@[simp] theorem State.addPoison_regions (a : Nat) (s : State) : (s.addPoison a).regions = s.regions := rfl
@[simp] theorem State.addPoison_groupGens (a : Nat) (s : State) : (s.addPoison a).groupGens = s.groupGens := rfl
@[simp] theorem State.addPoison_seqs (a : Nat) (s : State) : (s.addPoison a).seqs = s.seqs := rfl
@[simp] theorem State.addPoison_halves (a : Nat) (s : State) : (s.addPoison a).halves = s.halves := rfl
@[simp] theorem State.addPoison_answers (a : Nat) (s : State) : (s.addPoison a).answers = s.answers := rfl
@[simp] theorem State.addPoison_recalls (a : Nat) (s : State) : (s.addPoison a).recalls = s.recalls := rfl
@[simp] theorem State.addPoison_reasms (a : Nat) (s : State) : (s.addPoison a).reasms = s.reasms := rfl
@[simp] theorem State.addPoison_brineQ (a : Nat) (s : State) : (s.addPoison a).brineQ = s.brineQ := rfl
@[simp] theorem State.addPoison_rounds (a : Nat) (s : State) : (s.addPoison a).rounds = s.rounds := rfl
@[simp] theorem State.addPoison_abandoned (a : Nat) (s : State) : (s.addPoison a).abandoned = s.abandoned := rfl
@[simp] theorem State.addPoison_proposals (a : Nat) (s : State) : (s.addPoison a).proposals = s.proposals := rfl
@[simp] theorem State.addPoison_states (a : Nat) (s : State) : (s.addPoison a).states = s.states := rfl
@[simp] theorem State.addPoison_done (a : Nat) (s : State) : (s.addPoison a).done = s.done := rfl
@[simp] theorem State.addPoison_bells (a : Nat) (s : State) : (s.addPoison a).bells = s.bells := rfl
@[simp] theorem State.addPoison_mboxRegs (a : Nat) (s : State) : (s.addPoison a).mboxRegs = s.mboxRegs := rfl
@[simp] theorem State.addPoison_w2base (a : Nat) (s : State) : (s.addPoison a).w2base = s.w2base := rfl
@[simp] theorem State.addPoison_msix (a : Nat) (s : State) : (s.addPoison a).msix = s.msix := rfl
@[simp] theorem State.addPoison_fmask (a : Nat) (s : State) : (s.addPoison a).fmask = s.fmask := rfl
@[simp] theorem State.addPoison_lateVecs (a : Nat) (s : State) : (s.addPoison a).lateVecs = s.lateVecs := rfl
@[simp] theorem State.addPoison_pba (a : Nat) (s : State) : (s.addPoison a).pba = s.pba := rfl
@[simp] theorem State.addPoison_rdyd (a : Nat) (s : State) : (s.addPoison a).rdyd = s.rdyd := rfl
@[simp] theorem State.addPoison_rdyc (a : Nat) (s : State) : (s.addPoison a).rdyc = s.rdyc := rfl
@[simp] theorem State.addPoison_rdym (a : Nat) (s : State) : (s.addPoison a).rdym = s.rdym := rfl
@[simp] theorem State.addPoison_flm (a : Nat) (s : State) : (s.addPoison a).flm = s.flm := rfl
@[simp] theorem State.addPoison_pcap (a : Nat) (s : State) : (s.addPoison a).pcap = s.pcap := rfl
@[simp] theorem State.addPoison_attBusy (a : Nat) (s : State) : (s.addPoison a).attBusy = s.attBusy := rfl
@[simp] theorem State.addPoison_attStat (a : Nat) (s : State) : (s.addPoison a).attStat = s.attStat := rfl
@[simp] theorem State.addPoison_attAddr (a : Nat) (s : State) : (s.addPoison a).attAddr = s.attAddr := rfl
@[simp] theorem State.addPoison_i3cAddr (a : Nat) (s : State) : (s.addPoison a).i3cAddr = s.i3cAddr := rfl

@[simp] theorem State.writeMem_mem (a : Nat) (bs : List Byte) (s : State) :
    (s.writeMem a bs).mem = Memory.write s.mem a bs := rfl

/-! The context of a thread. -/

@[simp] theorem Ctx.writeX_pc (r : BitVec 4) (v : Word) (c : Ctx) : (c.writeX r v).pc = c.pc := rfl
@[simp] theorem Ctx.writeX_st (r : BitVec 4) (v : Word) (c : Ctx) : (c.writeX r v).st = c.st := rfl
@[simp] theorem Ctx.writeX_pred (r : BitVec 4) (v : Word) (c : Ctx) : (c.writeX r v).pred = c.pred := rfl
@[simp] theorem Ctx.writeX_x (r : BitVec 4) (v : Word) (c : Ctx) : (c.writeX r v).x = Regs.set c.x r v := rfl
@[simp] theorem Ctx.writeX_fe (r : BitVec 4) (v : Word) (c : Ctx) : (c.writeX r v).fe = (c.fill r).fe := rfl
@[simp] theorem Ctx.fill_x (r : BitVec 4) (c : Ctx) : (c.fill r).x = c.x := rfl
@[simp] theorem Ctx.drain_x (r : BitVec 4) (c : Ctx) : (c.drain r).x = c.x := rfl
@[simp] theorem Ctx.drain_pc (r : BitVec 4) (c : Ctx) : (c.drain r).pc = c.pc := rfl
@[simp] theorem Ctx.drain_st (r : BitVec 4) (c : Ctx) : (c.drain r).st = c.st := rfl
@[simp] theorem Ctx.drain_pred (r : BitVec 4) (c : Ctx) : (c.drain r).pred = c.pred := rfl

/-- A register that has been written reads as written. -/
@[simp] theorem Regs.get_set_same (v : Vector Word 16) (r : BitVec 4) (x : Word) : Regs.get (Regs.set v r x) r = x := by
  simp [Regs.get, Regs.set]

/-- Writing a register leaves the others alone. -/
theorem Regs.get_set_other (v : Vector Word 16) (r q : BitVec 4) (x : Word) (h : r ≠ q) :
    Regs.get (Regs.set v r x) q = Regs.get v q := by
  have : r.toNat ≠ q.toNat := fun e => h (BitVec.eq_of_toNat_eq e)
  simp [Regs.get, Regs.set, this]

/-! Association lists. -/

/-- What has been put under a key is found there. -/
@[simp] theorem look_put_same {α β : Type} [DecidableEq α] (k : α) (v : β) (l : List (α × β)) :
    look k (put k v l) = some v := by
  induction l with
  | nil => simp [put, look]
  | cons p l ih =>
    by_cases h : p.1 = k
    · simp [put, look, h]
    · simp [put, look, h, ih]

/-- Putting under a key leaves the other keys alone. -/
theorem look_put_other {α β : Type} [DecidableEq α] (k j : α) (v : β) (l : List (α × β)) (h : j ≠ k) :
    look j (put k v l) = look j l := by
  induction l with
  | nil => simp [put, look, Ne.symm h]
  | cons p l ih =>
    by_cases hp : p.1 = k
    · subst hp; simp [put, look, Ne.symm h]
    · by_cases hj : p.1 = j
      · subst hj; simp [put, look, h]
      · simp [put, look, hp, hj, ih]

@[simp] theorem State.core_setCore (n : Nat) (f : CoreSt → CoreSt) (s : State) : (s.setCore n f).core n = f (s.core n) := by
  simp [State.core, State.setCore]

theorem State.core_setCore_other (n m : Nat) (f : CoreSt → CoreSt) (s : State) (h : m ≠ n) :
    (s.setCore n f).core m = s.core m := by
  simp [State.core, State.setCore, look_put_other, h]

@[simp] theorem State.cluster_setCluster (n : Nat) (f : ClusterSt → ClusterSt) (s : State) :
    (s.setCluster n f).cluster n = f (s.cluster n) := by
  simp [State.cluster, State.setCluster]

@[simp] theorem State.die_setDie (n : Nat) (f : DieSt → DieSt) (s : State) : (s.setDie n f).die n = f (s.die n) := by
  simp [State.die, State.setDie]

@[simp] theorem State.port_setPort (n : Nat) (f : Port → Port) (s : State) : (s.setPort n f).port n = f (s.port n) := by
  simp [State.port, State.setPort]

end Sys2Proof.Machine
end

