-- ==== Sys2Proof/Laws/Operands.lean ====
section
/-! SUPPORT. Operands that are ready are read, destinations that are free are written, and how an instruction ends: the
lemmas a completion is proved with, so that no proof unfolds the readers. -/

namespace Sys2Proof.Machine

theorem withFixed_none {isPred : Bool} {idx : BitVec 4} {s : State} {k : Eff} (h : (s.fixedOf isPred idx).isNone) :
    withFixed isPred idx s k = k := by
  unfold withFixed
  split
  · rfl
  · simp_all

/-- A ready register is read; SYNC empties it. -/
theorem withReg_ready {r : BitVec 4} {sync : Bool} {s : State} {k : Word → State → Eff} (h : s.regReady r = true) :
    withReg r sync s k = k (s.x r) (if sync then s.mapCtx (Ctx.drain r) else s) := by
  simp only [State.regReady, Bool.and_eq_true] at h
  rw [withReg, withFixed_none h.1, if_pos h.2]

theorem withPred_ready {p : BitVec 3} {s : State} {k : Bool → Eff} (h : s.predReady p = true) :
    withPred p s k = k (s.p p) := by
  unfold withPred
  by_cases hp : p = 0#3
  · simp [hp, State.p]
  · simp only [State.predReady, beq_iff_eq, hp, Bool.and_eq_true, Bool.not_eq_true', Bool.or_eq_true, false_or] at h
    rw [if_neg hp, withFixed_none h.1, if_neg (by simp [h.2])]

/-- A ready operand is read. -/
theorem withSrc_ready {o : Opnd} {s : State} {k : Word → State → Eff} (h : o.ready s = true) :
    withSrc o s k = k (o.val s) (o.after s) := by
  cases o with
  | reg r sync n v => rw [withSrc, withReg_ready h]; cases sync <;> rfl
  | pred p c => rw [withSrc, withPred_ready h]; rfl
  | _ => rfl

theorem withDestReg_free {r : BitVec 4} {sync : Bool} {s : State} {k : Eff} (h : s.destFree r sync = true) :
    withDestReg r sync s k = k := by
  simp only [State.destFree, Bool.and_eq_true, Bool.not_eq_true'] at h
  rw [withDestReg, withFixed_none h.1.1, if_neg (by simp [h.1.2]), if_neg (by simp [h.2])]

/-- A free destination is passed. -/
theorem withDest_free {o : Opnd} {s : State} {k : Eff} (h : o.free s = true) : withDest o s k = k := by
  cases o with
  | reg r sync n v => exact withDestReg_free h
  | pred p c =>
    simp only [Opnd.free, State.predReady, Bool.or_eq_true, beq_iff_eq, Bool.and_eq_true, Bool.not_eq_true'] at h
    by_cases hp : p = 0#3
    · simp [withDest, hp]
    · have h' := h.resolve_left hp
      rw [withDest, if_neg hp, withFixed_none h'.1, if_neg (by simp [h'.2])]
  | _ => rfl

/-- An enabled word runs its body. -/
theorem issue_enabled {h : Head} {body : State → Eff} {s : State} (e : s.enabled h = true) :
    issue h body s = .next (Eff.finish h s (body s)) := by
  simp only [State.enabled, Bool.and_eq_true] at e
  rw [issue, withPred_ready e.1, if_pos e.2]

/-- A disabled word only advances (R25). -/
theorem issue_disabled {h : Head} {body : State → Eff} {s : State} (e : s.disabled h = true) :
    issue h body s = .next (Eff.finish h s (.done s)) := by
  simp only [State.disabled, Bool.and_eq_true, beq_iff_eq] at e
  rw [issue, withPred_ready e.1, if_neg (by simp [e.2])]

/-! ### The state after the operands are read -/

/-- Reading an operand changes the context of the thread that issues only. -/
theorem Opnd_after_only (o : Opnd) (s : State) : ∃ c, o.after s = { s with thr := { s.thr with ctx := c } } := by
  cases o with
  | reg r sync n v => cases sync <;> exact ⟨_, rfl⟩
  | _ => exact ⟨s.thr.ctx, rfl⟩

@[simp] theorem Opnd_after_x (o : Opnd) (s : State) (r : BitVec 4) : (o.after s).x r = s.x r := by
  cases o with
  | reg q sync n v => cases sync <;> rfl
  | _ => rfl

@[simp] theorem Opnd_after_p (o : Opnd) (s : State) (p : BitVec 3) : (o.after s).p p = s.p p := by
  cases o with
  | reg q sync n v => cases sync <;> rfl
  | _ => rfl

@[simp] theorem Opnd_after_pc (o : Opnd) (s : State) : (o.after s).pc = s.pc := by
  cases o with
  | reg q sync n v => cases sync <;> rfl
  | _ => rfl

@[simp] theorem Opnd_after_st (o : Opnd) (s : State) : (o.after s).st = s.st := by
  cases o with
  | reg q sync n v => cases sync <;> rfl
  | _ => rfl

/-- The value of an operand does not depend on what another has emptied. -/
@[simp] theorem Opnd_val_after (o q : Opnd) (s : State) : o.val (q.after s) = o.val s := by
  cases o <;> simp [Opnd.val]

/-! ### Flags that land with a result (R52, R128) -/

@[simp] theorem Ctx.orFlags_pc (f : BitVec 5) (c : Ctx) : (c.orFlags f).pc = c.pc := rfl

/-- Flags are sticky: two sets of them are one (R53). -/
theorem Ctx.orFlags_orFlags (f g : BitVec 5) (c : Ctx) : (c.orFlags f).orFlags g = c.orFlags (f ||| g) := by
  simp only [Ctx.orFlags, BitVec.setWidth_or, BitVec.shiftLeft_or_distrib, BitVec.or_assoc]

theorem flagsOf_acc (l : List FixedPend) (f : BitVec 5) : l.foldl (fun f p => f ||| p.flags) f = f ||| flagsOf l := by
  induction l generalizing f with
  | nil => simp [flagsOf]
  | cons p l ih => rw [flagsOf, List.foldl_cons, List.foldl_cons, ih, ih (0#5 ||| p.flags)]; simp [BitVec.or_assoc]

@[simp] theorem flagsOf_nil : flagsOf [] = 0#5 := rfl

theorem flagsOf_cons (p : FixedPend) (l : List FixedPend) : flagsOf (p :: l) = p.flags ||| flagsOf l := by
  rw [flagsOf, List.foldl_cons, flagsOf_acc]; simp

/-- The flags of what is written back and of what stays are those of all. -/
theorem flagsOf_age (n : Nat) (l : List FixedPend) :
    flagsOf (l.filter fun f => decide (f.left ≤ n)) ||| flagsOf (agePend n l) = flagsOf l := by
  induction l with
  | nil => simp [agePend]
  | cons p l ih =>
    simp only [agePend, List.map_cons] at ih ⊢
    by_cases h : p.left ≤ n
    · rw [List.filter_cons_of_pos (by simpa using h), List.filter_cons_of_neg (by simp; omega), flagsOf_cons, flagsOf_cons,
        BitVec.or_assoc, ih]
    · rw [List.filter_cons_of_neg (by simpa using h), List.filter_cons_of_pos (by simp; omega), flagsOf_cons, flagsOf_cons, ← ih]
      simp only [← BitVec.or_assoc, BitVec.or_comm p.flags]

/-- Cycles that pass move flags from what is outstanding into ST: what stands there in the end is the same (R128). -/
@[simp] theorem Thread.age_final (n : Nat) (t : Thread) : (t.age n).final = t.final := by
  simp only [Thread.age, Thread.final, Ctx.orFlags_orFlags, flagsOf_age]

/-- So does giving up a slot (R52). -/
@[simp] theorem Thread.unbind_final (t : Thread) : t.unbind.final = t.final := by
  simp only [Thread.unbind, Thread.final, flagsOf_nil, Ctx.orFlags_orFlags, BitVec.or_zero]

/-! ### How an instruction ends -/

theorem State.core_enqueue (core n : Nat) (cxa : Word) (org : BitVec 2) (s : State) :
    (s.enqueue core cxa org).core n = { s.core n with runq := ((s.enqueue core cxa org).core n).runq } := by
  by_cases h : n = core
  · subst h; simp [State.enqueue]
  · simp [State.enqueue, State.core_setCore_other _ _ _ _ h]

/-- Giving up the slot changes the thread and a run queue, or its binding; the context stays but for flags that land. -/
theorem State.yieldThr_only (s : State) :
    OnlyThread s s.yieldThr ∧ SameThread s s.yieldThr ∧ s.yieldThr.thr.final = s.thr.final
      ∧ s.yieldThr.thr.res.setter = s.thr.res.setter := by
  unfold State.yieldThr
  dsimp only
  split
  · exact ⟨⟨rfl, fun _ => rfl, fun _ => rfl, fun _ => rfl, rfl⟩, ⟨rfl, rfl, rfl⟩, Thread.unbind_final _, rfl⟩
  · exact ⟨⟨rfl, fun n => State.core_enqueue _ _ _ _ _, fun _ => rfl, fun _ => rfl, rfl⟩, ⟨rfl, rfl, rfl⟩, Thread.unbind_final _, rfl⟩

theorem OnlyThread.of_thr {s u : State} (t : Thread) (h : OnlyThread { s with thr := t } u) : OnlyThread s u := h

/-- The end of an instruction touches the thread and a run queue only. -/
theorem State.retire_only (h : Head) (j : Bool) (s : State) :
    OnlyThread s (s.retire h j) ∧ SameThread s (s.retire h j) ∧ (s.retire h j).thr.final = s.thr.final
      ∧ (s.retire h j).thr.res.setter = s.thr.res.setter := by
  have key : ∀ t : Thread, t.core = s.thr.core ∧ t.place = s.thr.place ∧ t.pinC = s.thr.pinC → t.final = s.thr.final →
      t.res.setter = s.thr.res.setter → ∀ b : Bool,
      let u : State := if b then ({ s with thr := t } : State).yieldThr else { s with thr := t }
      OnlyThread s u ∧ SameThread s u ∧ u.thr.final = s.thr.final ∧ u.thr.res.setter = s.thr.res.setter := by
    intro t ht hf hs b
    cases b
    · exact ⟨⟨rfl, fun _ => rfl, fun _ => rfl, fun _ => rfl, rfl⟩, ht, hf, hs⟩
    · have y := State.yieldThr_only { s with thr := t }
      exact ⟨y.1.of_thr, ⟨y.2.1.1.trans ht.1, y.2.1.2.1.trans ht.2.1, y.2.1.2.2.trans ht.2.2⟩, y.2.2.1.trans hf, y.2.2.2.trans hs⟩
  have f := fun n => Thread.age_final n s.thr
  let fin (n : Nat) : Thread :=
    { s.thr.age n with
      skip := h.stall.toNat, waitOn := none, parked := false, res := { (s.thr.age n).res with asOf := none, walk := none } }
  unfold State.retire
  cases j
  · exact key (fin (8 * h.stall.toNat + s.thr.gap)) ⟨rfl, rfl, rfl⟩ (f _) rfl _
  · exact key ((fin (8 * h.stall.toNat + (s.thr.gap + 16))).awaitWord (s.now s.thr.core) (s.thr.gap + 16)) ⟨rfl, rfl, rfl⟩ (f _) rfl _

/-- `t` differs from `s` in the context and the resume state of the thread that issues only. -/
def CtxOnly (s t : State) : Prop := ∃ c r, t = { s with thr := { s.thr with ctx := c, res := r } }

theorem CtxOnly.refl (s : State) : CtxOnly s s := ⟨_, _, rfl⟩

theorem CtxOnly.trans {s t u : State} (a : CtxOnly s t) (b : CtxOnly t u) : CtxOnly s u := by
  obtain ⟨c, r, rfl⟩ := a
  obtain ⟨c', r', rfl⟩ := b
  exact ⟨c', r', rfl⟩

theorem CtxOnly.after (o : Opnd) (s : State) : CtxOnly s (o.after s) := by
  obtain ⟨c, h⟩ := Opnd_after_only o s
  exact ⟨c, s.thr.res, h⟩

theorem CtxOnly.afterBC (x : Args) (s : State) : CtxOnly s (x.afterBC s) := (CtxOnly.after x.b s).trans (CtxOnly.after x.c _)

theorem CtxOnly.afterABC (x : Args) (s : State) : CtxOnly s (x.afterABC s) := (CtxOnly.after x.a s).trans (CtxOnly.afterBC x _)

theorem CtxOnly.mapCtx (f : Ctx → Ctx) (s : State) : CtxOnly s (s.mapCtx f) := ⟨_, _, rfl⟩

theorem CtxOnly.mapRes (f : Resume → Resume) (s : State) : CtxOnly s (s.mapRes f) := ⟨_, _, rfl⟩

theorem CtxOnly.pendFixed (b : Bool) (i : BitVec 4) (lat : Nat) (fl : BitVec 5) (h : Head) (s : State) :
    CtxOnly s (s.pendFixed b i lat fl h) := ⟨_, _, rfl⟩

theorem CtxOnly.writeFlagged (r : BitVec 4) (v : Word) (lat : Nat) (fl : BitVec 5) (h : Head) (s : State) :
    CtxOnly s (s.writeFlagged r v lat fl h) := by
  unfold State.writeFlagged
  dsimp only
  split
  · exact ⟨_, _, rfl⟩
  · exact ⟨_, _, rfl⟩

theorem CtxOnly.writeFixed (r : BitVec 4) (v : Word) (lat : Nat) (h : Head) (s : State) : CtxOnly s (s.writeFixed r v lat h) := by
  unfold State.writeFixed
  dsimp only
  split
  · exact ⟨_, _, rfl⟩
  · exact ⟨_, _, rfl⟩

theorem CtxOnly.writePFixed (p : BitVec 3) (v : Bool) (lat : Nat) (fl : BitVec 5) (h : Head) (s : State) :
    CtxOnly s (s.writePFixed p v lat fl h) := by
  unfold State.writePFixed
  dsimp only
  split
  · exact ⟨_, _, rfl⟩
  · exact ⟨_, _, rfl⟩

/-- A result that is pending leaves its flags in the end (R128). -/
theorem State.pendFixed_final (b : Bool) (i : BitVec 4) (lat : Nat) (fl : BitVec 5) (h : Head) (s : State) :
    (s.pendFixed b i lat fl h).thr.final = s.thr.final.orFlags fl := by
  simp only [State.pendFixed, Thread.final, State.mapRes_thr, flagsOf_cons, Ctx.orFlags_orFlags, BitVec.or_comm]

theorem CtxOnly.pc {s t : State} (_ : CtxOnly s t) (e : t.thr.ctx.pc = s.pc) : t.pc = s.pc := e

theorem OnlyThread.of_ctxOnly {s t u : State} (a : CtxOnly s t) (b : OnlyThread t u) : OnlyThread s u := by
  obtain ⟨c, r, rfl⟩ := a
  exact b

theorem SameThread.of_ctxOnly {s t u : State} (a : CtxOnly s t) (b : SameThread t u) : SameThread s u := by
  obtain ⟨c, r, rfl⟩ := a
  exact b

/-- An instruction that ends with `done` in a state that differs in the thread's context only has completed: `c` is what stands in
the context in the end. -/
theorem finish_done {h : Head} {s0 s t : State} {c : Ctx} (a : CtxOnly s t) (e : t.thr.ctx.pc = s.thr.ctx.pc)
    (f : t.thr.final = c.orFlags (flagsOf s.thr.res.fixed)) : Completed s (Eff.finish h s0 (.done t)) c := by
  have r := State.retire_only h false (t.setPc (t.pc + 12#64))
  have a' : CtxOnly s (t.setPc (t.pc + 12#64)) := a.trans (CtxOnly.mapCtx _ _)
  refine ⟨?_, SameThread.of_ctxOnly a' r.2.1, OnlyThread.of_ctxOnly a' r.1⟩
  show (State.retire h false _).thr.final = _
  rw [r.2.2.1]
  have g : (t.setPc (t.pc + 12#64)).thr.final = { t.thr.final with pc := s.pc + 12#64 } := by
    show ({ t.thr.ctx with pc := t.thr.ctx.pc + 12#64 } : Ctx).orFlags _ = _
    rw [e]; rfl
  rw [g, f]; rfl

/-- An instruction that ends with `jump` in such a state has transferred. -/
theorem finish_jump {h : Head} {s t : State} {pc : Word} {c : Ctx} (a : CtxOnly s t)
    (f : t.thr.final = c.orFlags (flagsOf s.thr.res.fixed)) : Transferred s (Eff.finish h s (.jump t pc)) c pc := by
  have r := State.retire_only h true ((t.setPc pc).mapRes fun r => { r with setter := s.pc })
  have a' : CtxOnly s ((t.setPc pc).mapRes fun r => { r with setter := s.pc }) :=
    (a.trans (CtxOnly.mapCtx _ _)).trans (CtxOnly.mapRes _ _)
  refine ⟨?_, r.2.2.2, SameThread.of_ctxOnly a' r.2.1, OnlyThread.of_ctxOnly a' r.1⟩
  show (State.retire h true _).thr.final = _
  rw [r.2.2.1]
  have g : ((t.setPc pc).mapRes fun r => { r with setter := s.pc }).thr.final = { t.thr.final with pc := pc } := rfl
  rw [g, f]; rfl

end Sys2Proof.Machine
end

