-- ==== Sys2Proof/Laws/Issue.lean ====
section
/-! SUPPORT. Every instruction word is issued: its guard is read first, and nothing of it happens when it is disabled. -/

namespace Sys2Proof.Machine

/-- The meaning of a word is the issue of a body under the head of the word. -/
theorem exec_issue (i : Instr) (x : Args) (hx : i.args = some x) : ∃ body, ∀ s, exec i s = issue x.h body s := by
  cases i <;> cases hx <;> exact ⟨_, fun _ => rfl⟩

end Sys2Proof.Machine
end

