-- ==== Sys2Proof/Laws/Memory.lean ====
section
/-! SUPPORT. Memory: every operation keeps its canonical form, and a read after a write. -/

namespace Sys2Proof.Machine

/-- A canonical form above a bound is one above a lower bound. -/
theorem Memory.wfFrom_mono {lo hi : Nat} (h : lo ≤ hi) : ∀ {m : List Host.Cell}, Memory.wfFrom hi m = true → Memory.wfFrom lo m = true
  | [], _ => rfl
  | (a, v) :: m, hm => by
    simp only [Memory.wfFrom, Bool.and_eq_true, decide_eq_true_eq] at hm ⊢
    exact ⟨⟨by omega, hm.1.2⟩, hm.2⟩

/-- A canonical form at or above a bound that no entry meets is one above the bound. -/
theorem Memory.erase_wf {a : Nat} : ∀ {m : List Host.Cell} {lo : Nat}, Memory.wfFrom lo m = true → Memory.wfFrom lo (Memory.erase m a) = true
  | [], _, _ => rfl
  | (b, v) :: m, lo, h => by
    have h0 := h
    simp only [Memory.wfFrom, Bool.and_eq_true, decide_eq_true_eq] at h
    unfold Memory.erase
    split
    · exact Memory.wfFrom_mono (by omega) h.2
    · split
      · exact h0
      · simp only [Memory.wfFrom, Bool.and_eq_true, decide_eq_true_eq]
        exact ⟨h.1, Memory.erase_wf h.2⟩

theorem Memory.insert_wf {a : Nat} {x : Byte} (hx : x ≠ Memory.unlisted) :
    ∀ {m : List Host.Cell} {lo : Nat}, lo ≤ a → Memory.wfFrom lo m = true → Memory.wfFrom lo (Memory.insert m a x) = true
  | [], _, hl, _ => by simp [Memory.insert, Memory.wfFrom, hl, hx]
  | (b, v) :: m, lo, hl, h => by
    have h0 := h
    simp only [Memory.wfFrom, Bool.and_eq_true, decide_eq_true_eq] at h
    unfold Memory.insert
    split
    · simp only [Memory.wfFrom, Bool.and_eq_true, decide_eq_true_eq]; exact ⟨⟨h.1.1, hx⟩, h.2⟩
    · split
      · simp only [Memory.wfFrom, Bool.and_eq_true, decide_eq_true_eq]
        exact ⟨⟨hl, hx⟩, ⟨by omega, h.1.2⟩, h.2⟩
      · simp only [Memory.wfFrom, Bool.and_eq_true, decide_eq_true_eq]
        exact ⟨h.1, Memory.insert_wf hx (by omega) h.2⟩

/-- Writing a byte keeps the canonical form. -/
theorem Memory.writeByte_wf {m : List Host.Cell} (a : Nat) (x : Byte) (h : Memory.wf m = true) :
    Memory.wf (Memory.writeByte m a x) = true := by
  unfold Memory.wf Memory.writeByte at *
  split
  · exact Memory.erase_wf h
  · exact Memory.insert_wf (by assumption) (by omega) h

/-- Writing bytes keeps the canonical form. -/
theorem Memory.write_wf (bs : List Byte) : ∀ {m : List Host.Cell} (a : Nat), Memory.wf m = true → Memory.wf (Memory.write m a bs) = true := by
  induction bs with
  | nil => intro m a h; exact h
  | cons x xs ih => intro m a h; exact ih (a + 1) (Memory.writeByte_wf a x h)

theorem Memory.readByte_above : ∀ {m : List Host.Cell} {lo a : Nat}, Memory.wfFrom lo m = true → a < lo → Memory.readByte m a = Memory.unlisted
  | [], _, _, _, _ => rfl
  | (b, v) :: m, lo, a, h, hl => by
    simp only [Memory.wfFrom, Bool.and_eq_true, decide_eq_true_eq] at h
    unfold Memory.readByte
    rw [if_neg (by omega)]
    exact Memory.readByte_above h.2 (by omega)

theorem Memory.readByte_erase {a c : Nat} : ∀ {m : List Host.Cell} {lo : Nat}, Memory.wfFrom lo m = true →
    Memory.readByte (Memory.erase m a) c = if c = a then Memory.unlisted else Memory.readByte m c
  | [], _, _ => by simp [Memory.erase, Memory.readByte]
  | (b, v) :: m, lo, h => by
    have h0 := h
    simp only [Memory.wfFrom, Bool.and_eq_true, decide_eq_true_eq] at h
    unfold Memory.erase
    split
    · rename_i hb; subst hb
      split
      · rename_i hc; subst hc; exact Memory.readByte_above h.2 (by omega)
      · rename_i hc; rw [Memory.readByte, if_neg (Ne.symm hc)]
    · split
      · split
        · rename_i hc; subst hc; exact Memory.readByte_above (lo := b) (by simp [Memory.wfFrom, h]) (by omega)
        · rfl
      · have ih := Memory.readByte_erase (a := a) (c := c) h.2
        rw [Memory.readByte, Memory.readByte, ih]
        split <;> split <;> simp_all

theorem Memory.readByte_insert {a c : Nat} {x : Byte} : ∀ {m : List Host.Cell},
    Memory.readByte (Memory.insert m a x) c = if c = a then x else Memory.readByte m c
  | [] => by simp only [Memory.insert, Memory.readByte, eq_comm]
  | (b, v) :: m => by
    unfold Memory.insert
    split
    · rename_i hb; subst hb; simp only [Memory.readByte, eq_comm]; split <;> simp_all
    · split
      · simp only [Memory.readByte, eq_comm]
      · have ih := Memory.readByte_insert (a := a) (c := c) (x := x) (m := m)
        rw [Memory.readByte, Memory.readByte, ih]
        split <;> split <;> simp_all

/-- A byte reads as it was written, and every other byte as before. -/
theorem Memory.readByte_writeByte {m : List Host.Cell} (a c : Nat) (x : Byte) (h : Memory.wf m = true) :
    Memory.readByte (Memory.writeByte m a x) c = if c = a then x else Memory.readByte m c := by
  unfold Memory.writeByte
  split
  · rename_i hx; rw [Memory.readByte_erase h, hx]
  · exact Memory.readByte_insert

/-- Bytes outside a write read as before. -/
theorem Memory.readByte_write_other (bs : List Byte) : ∀ {m : List Host.Cell} (a c : Nat), Memory.wf m = true →
    c < a ∨ a + bs.length ≤ c → Memory.readByte (Memory.write m a bs) c = Memory.readByte m c := by
  induction bs with
  | nil => intro m a c _ _; rfl
  | cons x xs ih =>
    intro m a c h hc
    rw [Memory.write, ih (a + 1) c (Memory.writeByte_wf a x h) (by simp at hc; omega), Memory.readByte_writeByte a c x h,
      if_neg (by simp at hc; omega)]

/-- Bytes that have been written read as written. -/
theorem Memory.read_write (bs : List Byte) : ∀ {m : List Host.Cell} (a : Nat), Memory.wf m = true →
    Memory.read (Memory.write m a bs) a bs.length = bs := by
  induction bs with
  | nil => intro m a _; rfl
  | cons x xs ih =>
    intro m a h
    have h1 := Memory.writeByte_wf a x h
    rw [List.length_cons, Memory.read, Memory.write, ih (a + 1) h1, Memory.readByte_write_other xs (a + 1) a h1 (by omega),
      Memory.readByte_writeByte a a x h, if_pos rfl]

/-! The machine's storage. -/

theorem State.writeMem_inv (a : Nat) (bs : List Byte) (s : State) (h : s.Inv) : (s.writeMem a bs).Inv := Memory.write_wf bs a h

theorem State.writeWord_inv (a : Nat) (v : Word) (s : State) (h : s.Inv) : (s.writeWord a v).Inv := State.writeMem_inv a _ s h

theorem State.setFullBit_inv (a : Nat) (b : Bool) (s : State) (h : s.Inv) : (s.setFullBit a b).Inv := h

theorem State.addPoison_inv (a : Nat) (s : State) (h : s.Inv) : (s.addPoison a).Inv := h

end Sys2Proof.Machine
end

