-- ==== Sys2Proof/Laws/Ops.lean ====
section
/-! SUPPORT. What the shared operations on threads do: taking a user trap, escalating it, waiting, and ending an
instruction; that none of them touches memory, so that an invariant of memory passes through them by a citation; steps through a
cluster port, the host port's way out, and the passing of time. -/

namespace Sys2Proof.Machine

/-! ### Taking a trap -/

/-- A user trap outside a handler saves the code, the address and the detail, sets TRIN and goes to the vector; flags of results
that were outstanding still land (R52, R57). -/
theorem State.takeTrap_user {s : State} (code sub : BitVec 8) (detail : Word) (h : s.levelH = false) (n : s.trin = false) :
    Trapped s (s.takeTrap code sub detail) code sub detail ∧ (s.takeTrap code sub detail).thr.wait = .fetch := by
  have f := congrArg Ctx.st (Thread.age_final 24 s.thr)
  simp only [Thread.final, Ctx.orFlags] at f
  simp only [State.takeTrap, h, n, Bool.or_self]
  refine ⟨⟨?_, ⟨rfl, rfl, rfl⟩, rfl, fun _ => rfl, fun _ => rfl, rfl⟩, rfl⟩
  simp only [Leaves, Thread.final, Ctx.orFlags, State.mapThr_thr, Bool.false_eq_true, if_false, Thread.awaitWord]
  congr 1
  rw [BitVec.or_assoc, BitVec.or_comm 1024#64, ← BitVec.or_assoc, f, BitVec.or_assoc, BitVec.or_comm _ 1024#64, ← BitVec.or_assoc]
  rfl

/-- At level H, or in a handler, a user trap escalates. -/
theorem State.takeTrap_escalates {s : State} (code sub : BitVec 8) (detail : Word) (h : s.levelH = true ∨ s.trin = true) :
    s.takeTrap code sub detail = s.escalate code sub detail := by
  have e : (s.levelH || s.trin) = true := by simpa using h
  simp only [State.takeTrap, e, if_true]

/-- An escalation drops the thread as it stands and sends one flue message. -/
theorem State.escalate_only (s : State) (code sub : BitVec 8) (detail : Word) :
    Leaves s (s.escalate code sub detail) s.thr.ctx ∧ (s.escalate code sub detail).thr.wait = .dropped ⟨cESC, s.thr.ctx.cxa⟩ ∧
      ∃ f, s.escalate code sub detail = { s with thr := (s.escalate code sub detail).thr, flue := s.flue ++ [f] } ∧
        f.cause = cESC ∧ f.d2 = detail :=
  ⟨Thread.unbind_final s.thr, rfl, _, rfl, rfl, rfl⟩

/-! ### No shared operation on threads touches memory -/

@[simp] theorem State.enqueue_mem (core : Nat) (cxa : Word) (org : BitVec 2) (s : State) : (s.enqueue core cxa org).mem = s.mem := rfl
@[simp] theorem State.parkOn_mem (r : Resource) (s : State) : (s.parkOn r).mem = s.mem := rfl
@[simp] theorem State.waitFor_mem (w : Wait) (s : State) : (s.waitFor w).mem = s.mem := rfl
@[simp] theorem State.sendFlue_mem (n : Nat) (c : BitVec 8) (a b : Word) (s : State) : (s.sendFlue n c a b).mem = s.mem := rfl
@[simp] theorem State.dropThr_mem (c : BitVec 8) (v : Word) (s : State) : (s.dropThr c v).mem = s.mem := rfl
@[simp] theorem State.escalate_mem (c d : BitVec 8) (v : Word) (s : State) : (s.escalate c d v).mem = s.mem := rfl
@[simp] theorem State.leaveTrap_mem (s : State) : s.leaveTrap.mem = s.mem := rfl
@[simp] theorem State.dropRecs_mem (core : Nat) (s : State) : (s.dropRecs core).mem = s.mem := rfl

@[simp] theorem State.standFor_mem (r : Resource) (s : State) : (s.standFor r).mem = s.mem := rfl

theorem OnlyThread.mem {s u : State} (h : OnlyThread s u) : u.mem = s.mem := by rw [h.1]

@[simp] theorem State.yieldThr_mem (s : State) : s.yieldThr.mem = s.mem := (State.yieldThr_only s).1.mem

/-- A fold of updates that leave memory alone leaves it alone. -/
theorem State.foldl_mem {α : Type} {f : State → α → State} (hf : ∀ s a, (f s a).mem = s.mem) (l : List α) (s : State) :
    (l.foldl f s).mem = s.mem := by
  induction l generalizing s with
  | nil => rfl
  | cons a l ih => rw [List.foldl_cons, ih, hf]

@[simp] theorem State.orphan_mem (core : Nat) (cxa : Word) (s : State) : (s.orphan core cxa).mem = s.mem := by
  unfold State.orphan
  exact (State.foldl_mem (fun _ _ => by rfl) _ _).trans rfl

@[simp] theorem State.updThr_mem (core : Nat) (cxa : Word) (f : Thread → Thread) (s : State) :
    (s.updThr core cxa f).mem = s.mem := by
  unfold State.updThr
  split
  · rfl
  · split <;> rfl

@[simp] theorem State.makeReady_mem (core : Nat) (cxa : Word) (s : State) : (s.makeReady core cxa).mem = s.mem := by
  unfold State.makeReady
  dsimp only
  split
  · simp
  · split
    · simp
    · split <;> simp

@[simp] theorem State.removeThr_mem (core : Nat) (cxa : Word) (s : State) : (s.removeThr core cxa).mem = s.mem := by
  unfold State.removeThr
  dsimp only
  split <;> rfl

@[simp] theorem State.takeTrap_mem (c d : BitVec 8) (v : Word) (s : State) : (s.takeTrap c d v).mem = s.mem := by
  unfold State.takeTrap
  split <;> rfl

@[simp] theorem State.trapWaiting_mem (c d : BitVec 8) (v : Word) (s : State) : (s.trapWaiting c d v).mem = s.mem := by
  unfold State.trapWaiting
  dsimp only
  split <;> simp

@[simp] theorem State.retire_mem (h : Head) (j : Bool) (s : State) : (s.retire h j).mem = s.mem := by
  exact (State.retire_only h j s).1.mem

/-- Work done with another thread in the issue stage keeps the invariant if it does so by itself. -/
theorem State.asThr_inv {core : Nat} {cxa : Word} {f : State → State} {s : State} (hf : ∀ t : State, t.Inv → (f t).Inv)
    (h : s.Inv) : (s.asThr core cxa f).Inv := by
  unfold State.asThr
  split
  · exact hf s h
  · split
    · rename_i t _
      exact hf { s with thr := t, pool := dropFirst (Thread.isAt core cxa) s.pool } h
    · split
      · exact h
      · rename_i t _
        exact hf { s with thr := t } h

/-! ### The end of an instruction -/

/-- Memory after an instruction is that of the state its end carries, or else what it was. -/
theorem Eff.finish_mem (h : Head) (s : State) (e : Eff) :
    (e.finish h s).mem = (e.state?.getD s).mem := by
  cases e <;> simp [Eff.finish, Eff.state?]

/-- An instruction keeps the invariant if the state that its body ends with has it. -/
theorem issue_inv {h : Head} {body : State → Eff} {s : State} (i : s.Inv) (b : ∀ t, (body s).state? = some t → t.Inv) :
    ∃ u, issue h body s = .next u ∧ u.Inv := by
  refine ⟨_, rfl, ?_⟩
  have key : ∀ e : Eff, (∀ t, e.state? = some t → t.Inv) → (e.finish h s).Inv := by
    intro e he
    show Memory.wf (e.finish h s).mem = true
    rw [Eff.finish_mem]
    cases hs : e.state? with
    | none => exact i
    | some t => exact he t hs
  have guard : ∀ v : Bool, ∀ t, (if v != h.gn then body s else Eff.done s).state? = some t → t.Inv := by
    intro v t
    split
    · exact b t
    · intro e; cases e; exact i
  apply key
  intro t
  unfold withPred withFixed
  split
  · exact guard _ t
  · split
    · split
      · intro e; cases e
      · exact guard _ t
    · split <;> (intro e; cases e)

/-! ### Steps through a cluster port (R355) -/

/-- A step that misses no page happens. -/
theorem State.atPort_done {a : Asker} {f : State → State} {s : State}
    (h : (f (s.asTried a)).trying.map (·.2) = some []) :
    s.atPort a f = { f (s.asTried a) with
      trying := s.trying, asks := (f (s.asTried a)).asks.filter fun e => !(e.1 == a && e.2.why.isSome) } := by
  simp [State.atPort, State.tryPort, h]

/-- Posting a miss touches the mailbox of a core and the list of waits alone. -/
theorem State.askPage_only (a : Asker) (m : PortWalk) (s : State) :
    s.askPage a m = { s with cores := (s.askPage a m).cores, asks := (s.askPage a m).asks } := by
  unfold State.askPage State.postMiss
  dsimp only
  split
  · rfl
  · rename_i i t h
    split at h
    · cases h; rfl
    · split at h
      · cases h
      · cases h; rfl

/-- A step that misses a page changes no more than the mailboxes and the list of waits. -/
theorem State.atPort_missed {a : Asker} {f : State → State} {s : State} {m : PortWalk} {l : List PortWalk}
    (h : (f (s.asTried a)).trying.map (·.2) = some (m :: l)) :
    s.atPort a f = { s with cores := (s.atPort a f).cores, asks := (s.atPort a f).asks } := by
  have key : ∀ (l : List PortWalk) (s : State), l.foldl (fun s m => s.askPage a m) s =
      { s with cores := (l.foldl (fun s m => s.askPage a m) s).cores, asks := (l.foldl (fun s m => s.askPage a m) s).asks } := by
    intro l
    induction l with
    | nil => intro s; rfl
    | cons m l ih => intro s; rw [List.foldl_cons, ih (s.askPage a m), State.askPage_only a m s]
  have e : s.atPort a f = (m :: l).foldl (fun s m => s.askPage a m) s := by simp only [State.atPort, State.tryPort, h]
  rw [e]; exact key _ _

/-- Memory after a step through a port is what the step made of it, or as before. -/
theorem State.atPort_mem (a : Asker) (f : State → State) (s : State) :
    (s.atPort a f).mem = (f (s.asTried a)).mem ∨ (s.atPort a f).mem = s.mem := by
  rcases h : (f (s.asTried a)).trying.map (·.2) with _ | _ | ⟨m, l⟩
  · left; simp [State.atPort, State.tryPort, h]
  · left; rw [State.atPort_done h]
  · right; rw [State.atPort_missed h]

/-- An access whose page the port has is resolved as a thread's is. -/
theorem State.locateEng_hit {s : State} {who : Who} {nd : Need} {g n : Nat} (h : ∀ t, s.locate who nd g n ≠ .miss t) :
    s.locateEng who nd g n = s.locate who nd g n := by
  unfold State.locateEng
  split
  · rename_i t e; exact absurd e (h t)
  · rfl

/-- The end of a changed ending carries the changed state. -/
@[simp] theorem Eff.mapState_state (f : State → State) (e : Eff) : (e.mapState f).state? = e.state?.map f := by cases e <;> rfl

/-- An instruction whose record pages are all at hand goes on (R77). -/
theorem withRecords_done {s : State} {k : State → Eff}
    (h : ∀ a, a = Asker.thread s.thr.core s.thr.ctx.cxa → (((k (s.asTried a)).state?).bind (·.trying)).map (·.2) = some []) :
    withRecords s k = (k (s.asTried (.thread s.thr.core s.thr.ctx.cxa))).mapState fun u =>
      { u with trying := s.trying, asks := u.asks.filter fun e => !(e.1 == .thread s.thr.core s.thr.ctx.cxa && e.2.why.isSome) } := by
  have h := h _ rfl
  unfold withRecords
  dsimp only
  split
  · rename_i m l e; rw [h] at e; cases e
  · rfl

/-! ### The host port's way out, and the passing of time -/

/-- What leaves the host port joins what has left, or stands behind a `gset` that the port performs (R179, R263). -/
theorem State.emit_cases (t : HostTx) (s : State) :
    (s.hostHold = none ∧ s.emit t = { s with hostTx := s.hostTx ++ [t], hostHold := s.beginsHold t }) ∨
      ((∃ n, s.hostHold = some n) ∧ s.emit t = { s with hostQ := s.hostQ ++ [t] }) := by
  unfold State.emit
  cases h : s.hostHold with
  | none => exact .inl ⟨rfl, by simp⟩
  | some n => exact .inr ⟨⟨n, rfl⟩, by simp⟩

/-- What leaves the host port touches its queues alone. -/
theorem State.emit_only (t : HostTx) (s : State) :
    s.emit t = { s with hostTx := (s.emit t).hostTx, hostHold := (s.emit t).hostHold, hostQ := (s.emit t).hostQ } := by
  obtain ⟨-, e⟩ | ⟨-, e⟩ := s.emit_cases t <;> rw [e]

/-- Heartbeats change the flue, and that a die owes one (R405). -/
theorem State.dieBeats_only (d k : Nat) (s : State) :
    s.dieBeats d k = { s with dies := (s.dieBeats d k).dies, flue := (s.dieBeats d k).flue } := by
  have beat : ∀ (l : List Nat) (s : State), l.foldl (fun s b => s.bandBeat b) s = { s with flue := (l.foldl (fun s b => s.bandBeat b) s).flue } := by
    intro l
    induction l with
    | nil => intro s; rfl
    | cons b l ih => intro s; rw [List.foldl_cons, ih (s.bandBeat b)]; rfl
  induction k generalizing s with
  | zero => rfl
  | succ k ih =>
    rw [State.dieBeats, ih (s.dieBeat d), State.dieBeat, beat]
    rfl

/-- Cycles that pass on a die change its clock and the flue, and nothing else (R20, R405). -/
theorem State.passDie_only (d n : Nat) (s : State) :
    s.passDie d n = { s with dies := (s.passDie d n).dies, flue := (s.passDie d n).flue } := by
  unfold State.passDie
  dsimp only
  split
  · rfl
  · rw [State.dieBeats_only]; rfl

/-- Time that passes changes the clocks and the flue, and nothing else. -/
theorem State.pass_only (c : Nat → Nat) (s : State) : s.pass c = { s with dies := (s.pass c).dies, flue := (s.pass c).flue } := by
  have key : ∀ (l : List Nat) (s : State), l.foldl (fun s d => s.passDie d (c d)) s =
      { s with
        dies := (l.foldl (fun s d => s.passDie d (c d)) s).dies
        flue := (l.foldl (fun s d => s.passDie d (c d)) s).flue } := by
    intro l
    induction l with
    | nil => intro s; rfl
    | cons d l ih => intro s; rw [List.foldl_cons, ih (s.passDie d (c d)), State.passDie_only d (c d) s]
  exact key _ s

@[simp] theorem State.pass_thr (c : Nat → Nat) (s : State) : (s.pass c).thr = s.thr := by rw [State.pass_only]
@[simp] theorem State.pass_pool (c : Nat → Nat) (s : State) : (s.pass c).pool = s.pool := by rw [State.pass_only]
@[simp] theorem State.pass_beat (c : Nat → Nat) (s : State) : (s.pass c).beat = s.beat := by rw [State.pass_only]
@[simp] theorem State.pass_mem (c : Nat → Nat) (s : State) : (s.pass c).mem = s.mem := by rw [State.pass_only]

end Sys2Proof.Machine
end

