-- ==== Sys2Proof/Tests/Slice0.lean ====
section
/-! SUPPORT. Tests: words written out from the spec's encodings, terms that are no words, and for every statement a state and operands that meet its hypotheses. -/

open Sys2Proof Sys2Proof.Machine Sys2Proof.Config

namespace Sys2Proof.Tests

set_option Elab.async false

/-- The head of a word under the guard `p<gp>`, negated where `gn`. -/
def hd (gn : Bool) (gp : BitVec 3) : Head := ⟨gn, gp, 0#4, 0#2, false⟩

/-- Words of the family, from R23, R29, R35 and R59. -/
theorem test_words_control : ∀ p ∈ ([
    (0x010000E00000E00000E00000#96, .nop ⟨(hd false 0), .absent, .absent, .absent⟩),
    (0x0209007FFFFDE00000E00000#96, .br ⟨(hd true 1), .imm (-3), .absent, .absent⟩),
    (0x030200000005E00000E00000#96, .jmp ⟨(hd false 2), .reg 5 false false false, .absent, .absent⟩),
    (0x040B00600009E00000E00000#96, .call ⟨(hd true 3), .imm 9, .absent, .absent⟩),
    (0x050400000005E00000E00000#96, .callr ⟨(hd false 4), .reg 5 false false false, .absent, .absent⟩),
    (0x060D00000005600009E00000#96, .loop ⟨(hd true 5), .reg 5 false false false, .imm 9, .absent⟩),
    (0x076600200305080004000006#96, .cmp .n32 ⟨(hd false 6), .pred 5 3, .reg 4 false true false, .reg 6 false false false⟩),
    (0x080F00200005200002200007#96, .plogAnd ⟨(hd true 7), .pred 5 0, .pred 2 0, .pred 7 0⟩),
    (0x081000200005200002200007#96, .plogOr ⟨(hd false 0), .pred 5 0, .pred 2 0, .pred 7 0⟩),
    (0x082900200005200002200007#96, .plogXor ⟨(hd true 1), .pred 5 0, .pred 2 0, .pred 7 0⟩),
    (0x083200200005200002200007#96, .plogAndn ⟨(hd false 2), .pred 5 0, .pred 2 0, .pred 7 0⟩),
    (0x084B00200005200002200007#96, .plogOrn ⟨(hd true 3), .pred 5 0, .pred 2 0, .pred 7 0⟩),
    (0x085400200005200002200007#96, .plogXnor ⟨(hd false 4), .pred 5 0, .pred 2 0, .pred 7 0⟩),
    (0x086D00200005200002E00000#96, .plogMov ⟨(hd true 5), .pred 5 0, .pred 2 0, .absent⟩),
    (0x087600200005200002E00000#96, .plogNot ⟨(hd false 6), .pred 5 0, .pred 2 0, .absent⟩),
    (0x090F00600009E00000E00000#96, .trap ⟨(hd true 7), .imm 9, .absent, .absent⟩),
    (0x0A0000E00000E00000E00000#96, .tretRetry ⟨(hd false 0), .absent, .absent, .absent⟩),
    (0x0A1900E00000E00000E00000#96, .tretNext ⟨(hd true 1), .absent, .absent, .absent⟩),
    (0x0B0200600009E00000E00000#96, .brk ⟨(hd false 2), .imm 9, .absent, .absent⟩)] : List (IWord × Instr)),
    decodeAt true p.1 = .ok p.2 ∧ encode p.2 = p.1 ∧ p.2.wf = true := by decide +kernel

/-- Words of the family, from R23, R29, R35 and R92. -/
theorem test_words_thread : ∀ p ∈ ([
    (0x103B00000005000004600009#96, .spawn .mask ⟨(hd true 3), .reg 5 false false false, .reg 4 false false false, .imm 9⟩),
    (0x110400E00000E00000E00000#96, .exit ⟨(hd false 4), .absent, .absent, .absent⟩),
    (0x120D00E00000E00000E00000#96, .park ⟨(hd true 5), .absent, .absent, .absent⟩),
    (0x130600000005000004100006#96, .wake ⟨(hd false 6), .reg 5 false false false, .reg 4 false false false, .reg 6 true false false⟩),
    (0x140F00E00000E00000E00000#96, .yield ⟨(hd true 7), .absent, .absent, .absent⟩),
    (0x150000E00000000004000006#96, .hop ⟨(hd false 0), .absent, .reg 4 false false false, .reg 6 false false false⟩),
    (0x160900E00000E00000E00000#96, .cbar ⟨(hd true 1), .absent, .absent, .absent⟩),
    (0x170200E00000E00000E00000#96, .gbar ⟨(hd false 2), .absent, .absent, .absent⟩),
    (0x180B00000005800005E00000#96, .ibx ⟨(hd true 3), .reg 5 false false false, .chan 5, .absent⟩),
    (0x190400800005000004000006#96, .ibs ⟨(hd false 4), .chan 5, .reg 4 false false false, .reg 6 false false false⟩),
    (0x1F0D00800005100004E00000#96, .ntc ⟨(hd true 5), .chan 5, .reg 4 true false false, .absent⟩),
    (0x1A0600100005600002E00000#96, .fork ⟨(hd false 6), .reg 5 true false false, .imm 2, .absent⟩),
    (0x1B0F00000005E00000E00000#96, .rdv ⟨(hd true 7), .reg 5 false false false, .absent, .absent⟩),
    (0x1C1000000005E00000E00000#96, .cpinOn ⟨(hd false 0), .reg 5 false false false, .absent, .absent⟩),
    (0x1C0900100005E00000E00000#96, .cpinOff ⟨(hd true 1), .reg 5 true false false, .absent, .absent⟩),
    (0x1D02000000056003E8E00000#96, .drq ⟨(hd false 2), .reg 5 false false false, .imm 1000, .absent⟩),
    (0x1E3B002002051000047FFFFD#96, .jdr 3 ⟨(hd true 3), .pred 5 2, .reg 4 true false false, .imm (-3)⟩)] : List (IWord × Instr)),
    decodeAt true p.1 = .ok p.2 ∧ encode p.2 = p.1 ∧ p.2.wf = true := by decide +kernel

/-- Words of the family, from R23, R29, R35 and R108. -/
theorem test_words_integer : ∀ p ∈ ([
    (0x200400100005080004000006#96, .add .i8 ⟨(hd false 4), .reg 5 true false false, .reg 4 false true false, .reg 6 false false false⟩),
    (0x211D00000005000004600009#96, .sub .i16 ⟨(hd true 5), .reg 5 false false false, .reg 4 false false false, .imm 9⟩),
    (0x222600000005100004080006#96, .mul .i32 ⟨(hd false 6), .reg 5 false false false, .reg 4 true false false, .reg 6 false true false⟩),
    (0x233F001000050800046003E8#96, .mulh .i64 ⟨(hd true 7), .reg 5 true false false, .reg 4 false true false, .imm 1000⟩),
    (0x244000000005000004100006#96, .div .n8 ⟨(hd false 0), .reg 5 false false false, .reg 4 false false false, .reg 6 true false false⟩),
    (0x2559000000051000047FFFFD#96, .rem .n16 ⟨(hd true 1), .reg 5 false false false, .reg 4 true false false, .imm (-3)⟩),
    (0x266200100005080004000006#96, .and .n32 ⟨(hd false 2), .reg 5 true false false, .reg 4 false true false, .reg 6 false false false⟩),
    (0x277B00000005000004600009#96, .or .n64 ⟨(hd true 3), .reg 5 false false false, .reg 4 false false false, .imm 9⟩),
    (0x28E400000005100004080006#96, .xor .x64 ⟨(hd false 4), .reg 5 false false false, .reg 4 true false false, .reg 6 false true false⟩),
    (0x290D001000050800046003E8#96, .andn .i8 ⟨(hd true 5), .reg 5 true false false, .reg 4 false true false, .imm 1000⟩),
    (0x2E1600000005000004100006#96, .min .i16 ⟨(hd false 6), .reg 5 false false false, .reg 4 false false false, .reg 6 true false false⟩),
    (0x2F2F000000051000047FFFFD#96, .max .i32 ⟨(hd true 7), .reg 5 false false false, .reg 4 true false false, .imm (-3)⟩),
    (0x2A3000100005080004000006#96, .shl .i64 ⟨(hd false 0), .reg 5 true false false, .reg 4 false true false, .reg 6 false false false⟩),
    (0x2B4900000005000004600009#96, .shr .n8 ⟨(hd true 1), .reg 5 false false false, .reg 4 false false false, .imm 9⟩),
    (0x2C5200000005100004000006#96, .sar .n16 ⟨(hd false 2), .reg 5 false false false, .reg 4 true false false, .reg 6 false false false⟩),
    (0x2D6B001000050800046003E8#96, .rot .n32 ⟨(hd true 3), .reg 5 true false false, .reg 4 false true false, .imm 1000⟩)] : List (IWord × Instr)),
    decodeAt true p.1 = .ok p.2 ∧ encode p.2 = p.1 ∧ p.2.wf = true := by decide +kernel

/-- Words of the family, from R23, R29, R35 and R108 to R110. -/
theorem test_words_integer_more : ∀ p ∈ ([
    (0x307400000005000004E00000#96, .clz .n64 ⟨(hd false 4), .reg 5 false false false, .reg 4 false false false, .absent⟩),
    (0x31ED00000005100004E00000#96, .ctz .x64 ⟨(hd true 5), .reg 5 false false false, .reg 4 true false false, .absent⟩),
    (0x320600100005080004E00000#96, .popc .i8 ⟨(hd false 6), .reg 5 true false false, .reg 4 false true false, .absent⟩),
    (0x3CEF00000005000004E00000#96, .bswap .x64 ⟨(hd true 7), .reg 5 false false false, .reg 4 false false false, .absent⟩),
    (0x333000000005100004000006#96, .bext .i64 ⟨(hd false 0), .reg 5 false false false, .reg 4 true false false, .reg 6 false false false⟩),
    (0x3479000000050800046003E8#96, .bins .n64 ⟨(hd true 1), .reg 5 false false false, .reg 4 false true false, .imm 1000⟩),
    (0x354200000005000004600003#96, .cvi .n8 ⟨(hd false 2), .reg 5 false false false, .reg 4 false false false, .imm 3⟩),
    (0x365B00000005100004E00000#96, .mov .n16 ⟨(hd true 3), .reg 5 false false false, .reg 4 true false false, .absent⟩),
    (0x370400100005D23456789ABC#96, .movl ⟨(hd false 4), .reg 5 true false false, .lit 0x123456789abc, .absent⟩),
    (0x380D0000000540000CE00000#96, .mvs ⟨(hd true 5), .reg 5 false false false, .spec 12, .absent⟩),
    (0x39060040000C600009E00000#96, .msv ⟨(hd false 6), .spec 12, .imm 9, .absent⟩),
    (0x3A0F001000050000046003E8#96, .leaAdd ⟨(hd true 7), .reg 5 true false false, .reg 4 false false false, .imm 1000⟩),
    (0x3A1000000005000004100006#96, .leaOff ⟨(hd false 0), .reg 5 false false false, .reg 4 false false false, .reg 6 true false false⟩),
    (0x3A29000000051000047FFFFD#96, .leaGva ⟨(hd true 1), .reg 5 false false false, .reg 4 true false false, .imm (-3)⟩),
    (0x3AB200100005000004000006#96, .leaSeg 3 ⟨(hd false 2), .reg 5 true false false, .reg 4 false false false, .reg 6 false false false⟩),
    (0x3B4B00000005000004600009#96, .mad .n8 ⟨(hd true 3), .reg 5 false false false, .reg 4 false false false, .imm 9⟩)] : List (IWord × Instr)),
    decodeAt true p.1 = .ok p.2 ∧ encode p.2 = p.1 ∧ p.2.wf = true := by decide +kernel

/-- Words of the family, from R23, R29, R35 and R129, R130. -/
theorem test_words_float : ∀ p ∈ ([
    (0x40A400000005100004080006#96, .fadd .f32 ⟨(hd false 4), .reg 5 false false false, .reg 4 true false false, .reg 6 false true false⟩),
    (0x41BD001000050800046003E8#96, .fsub .f64 ⟨(hd true 5), .reg 5 true false false, .reg 4 false true false, .imm 1000⟩),
    (0x42A600000005000004100006#96, .fmul .f32 ⟨(hd false 6), .reg 5 false false false, .reg 4 false false false, .reg 6 true false false⟩),
    (0x43BF000000051000047FFFFD#96, .fma .f64 ⟨(hd true 7), .reg 5 false false false, .reg 4 true false false, .imm (-3)⟩),
    (0x44A000100005080004000006#96, .fdiv .f32 ⟨(hd false 0), .reg 5 true false false, .reg 4 false true false, .reg 6 false false false⟩),
    (0x45B900000005000004E00000#96, .fsqrt .f64 ⟨(hd true 1), .reg 5 false false false, .reg 4 false false false, .absent⟩),
    (0x46A200000005100004080006#96, .fmin .f32 ⟨(hd false 2), .reg 5 false false false, .reg 4 true false false, .reg 6 false true false⟩),
    (0x47BB001000050800046003E8#96, .fmax .f64 ⟨(hd true 3), .reg 5 true false false, .reg 4 false true false, .imm 1000⟩),
    (0x48940000000500000460000A#96, .fcvt .b16 ⟨(hd false 4), .reg 5 false false false, .reg 4 false false false, .imm 10⟩),
    (0x495D0000000510000460001B#96, .fcvti .n16 ⟨(hd true 5), .reg 5 false false false, .reg 4 true false false, .imm 27⟩),
    (0x4AA600100005000004600002#96, .icvtf .f32 ⟨(hd false 6), .reg 5 true false false, .reg 4 false false false, .imm 2⟩),
    (0x4BBF0000000500000460000C#96, .frnd .f64 ⟨(hd true 7), .reg 5 false false false, .reg 4 false false false, .imm 12⟩),
    (0x4C8000000005100004E00000#96, .fcls .h16 ⟨(hd false 0), .reg 5 false false false, .reg 4 true false false, .absent⟩)] : List (IWord × Instr)),
    decodeAt true p.1 = .ok p.2 ∧ encode p.2 = p.1 ∧ p.2.wf = true := by decide +kernel

/-- Words of the family, from R23, R29, R35 and R154. -/
theorem test_words_memory : ∀ p ∈ ([
    (0x50B9001000050000046003E8#96, .ld .f64 ⟨(hd true 1), .reg 5 true false false, .reg 4 false false false, .imm 1000⟩),
    (0x51C200000005000004100006#96, .st .f8 ⟨(hd false 2), .reg 5 false false false, .reg 4 false false false, .reg 6 true false false⟩),
    (0x520B000000051000047FFFFD#96, .ldc ⟨(hd true 3), .reg 5 false false false, .reg 4 true false false, .imm (-3)⟩),
    (0x530400100005000004000006#96, .stp ⟨(hd false 4), .reg 5 true false false, .reg 4 false false false, .reg 6 false false false⟩),
    (0x540D00000005000004600009#96, .lfe ⟨(hd true 5), .reg 5 false false false, .reg 4 false false false, .imm 9⟩),
    (0x550600E00000100004000006#96, .sfeEmpty ⟨(hd false 6), .absent, .reg 4 true false false, .reg 6 false false false⟩),
    (0x551F00E000000000046003E8#96, .sfeFull ⟨(hd true 7), .absent, .reg 4 false false false, .imm 1000⟩),
    (0x563000000005000004100006#96, .ldm 3 ⟨(hd false 0), .reg 5 false false false, .reg 4 false false false, .reg 6 true false false⟩),
    (0x5739000000051000047FFFFD#96, .stm 3 ⟨(hd true 1), .reg 5 false false false, .reg 4 true false false, .imm (-3)⟩),
    (0x580200E00000000004000006#96, .pfch ⟨(hd false 2), .absent, .reg 4 false false false, .reg 6 false false false⟩),
    (0x590B00000005600002E00000#96, .sgp ⟨(hd true 3), .reg 5 false false false, .imm 2, .absent⟩),
    (0x5A0400000005100004000006#96, .pgq ⟨(hd false 4), .reg 5 false false false, .reg 4 true false false, .reg 6 false false false⟩),
    (0x5B0D000000050000046003E8#96, .dsc ⟨(hd true 5), .reg 5 false false false, .reg 4 false false false, .imm 1000⟩)] : List (IWord × Instr)),
    decodeAt true p.1 = .ok p.2 ∧ encode p.2 = p.1 ∧ p.2.wf = true := by decide +kernel

/-- Words of the family, from R23, R29, R35 and R180. -/
theorem test_words_atomics : ∀ p ∈ ([
    (0x600600000005000004100006#96, .amoAdd ⟨(hd false 6), .reg 5 false false false, .reg 4 false false false, .reg 6 true false false⟩),
    (0x601F000000051000047FFFFD#96, .amoAnd ⟨(hd true 7), .reg 5 false false false, .reg 4 true false false, .imm (-3)⟩),
    (0x602000000005000004000006#96, .amoOr ⟨(hd false 0), .reg 5 false false false, .reg 4 false false false, .reg 6 false false false⟩),
    (0x603900000005000004600009#96, .amoXor ⟨(hd true 1), .reg 5 false false false, .reg 4 false false false, .imm 9⟩),
    (0x604200000005100004000006#96, .amoMin ⟨(hd false 2), .reg 5 false false false, .reg 4 true false false, .reg 6 false false false⟩),
    (0x605B000000050000046003E8#96, .amoMax ⟨(hd true 3), .reg 5 false false false, .reg 4 false false false, .imm 1000⟩),
    (0x606400000005000004100006#96, .amoNmin ⟨(hd false 4), .reg 5 false false false, .reg 4 false false false, .reg 6 true false false⟩),
    (0x607D000000051000047FFFFD#96, .amoNmax ⟨(hd true 5), .reg 5 false false false, .reg 4 true false false, .imm (-3)⟩),
    (0x608600000005000004000006#96, .amoSwap ⟨(hd false 6), .reg 5 false false false, .reg 4 false false false, .reg 6 false false false⟩),
    (0x609F00000005000004600009#96, .amoFadd32 ⟨(hd true 7), .reg 5 false false false, .reg 4 false false false, .imm 9⟩),
    (0x60A000000005100004000006#96, .amoFmax32 ⟨(hd false 0), .reg 5 false false false, .reg 4 true false false, .reg 6 false false false⟩),
    (0x60B9000000050000046003E8#96, .amoFadd64 ⟨(hd true 1), .reg 5 false false false, .reg 4 false false false, .imm 1000⟩),
    (0x615200000005000004100006#96, .cas ⟨true, false, true⟩ ⟨(hd false 2), .reg 5 false false false, .reg 4 false false false, .reg 6 true false false⟩),
    (0x623B000000051000047FFFFD#96, .lda .band ⟨(hd true 3), .reg 5 false false false, .reg 4 true false false, .imm (-3)⟩),
    (0x631400100005000004000006#96, .stl .core ⟨(hd false 4), .reg 5 true false false, .reg 4 false false false, .reg 6 false false false⟩),
    (0x642D00600002E00000E00000#96, .fence .clu ⟨(hd true 5), .imm 2, .absent, .absent⟩),
    (0x650600000005100004000006#96, .wtwNe ⟨(hd false 6), .reg 5 false false false, .reg 4 true false false, .reg 6 false false false⟩),
    (0x651F000000050000046003E8#96, .wtwGe ⟨(hd true 7), .reg 5 false false false, .reg 4 false false false, .imm 1000⟩)] : List (IWord × Instr)),
    decodeAt true p.1 = .ok p.2 ∧ encode p.2 = p.1 ∧ p.2.wf = true := by decide +kernel

/-- Words of the family, from R23, R29, R35 and R213. -/
theorem test_words_fabric : ∀ p ∈ ([
    (0x700000000005000004100006#96, .sopn ⟨(hd false 0), .reg 5 false false false, .reg 4 false false false, .reg 6 true false false⟩),
    (0x710900E00000100004E00000#96, .scls ⟨(hd true 1), .absent, .reg 4 true false false, .absent⟩),
    (0x723200000005000004000006#96, .sput 3 ⟨(hd false 2), .reg 5 false false false, .reg 4 false false false, .reg 6 false false false⟩),
    (0x730B00000005000004E00000#96, .drn ⟨(hd true 3), .reg 5 false false false, .reg 4 false false false, .absent⟩),
    (0x740400000005600009E00000#96, .pprbTab ⟨(hd false 4), .reg 5 false false false, .imm 9, .absent⟩),
    (0x741D00100005000004E00000#96, .pprbPing ⟨(hd true 5), .reg 5 true false false, .reg 4 false false false, .absent⟩)] : List (IWord × Instr)),
    decodeAt true p.1 = .ok p.2 ∧ encode p.2 = p.1 ∧ p.2.wf = true := by decide +kernel

/-- Words of the family, from R23, R29, R35 and R233, R234. -/
theorem test_words_stream : ∀ p ∈ ([
    (0x8016000000056003E8140006#96, .vadd .i16 ⟨(hd false 6), .reg 5 false false false, .imm 1000, .reg 6 true false true⟩),
    (0x812F000000051400047FFFFD#96, .vsub .i32 ⟨(hd true 7), .reg 5 false false false, .reg 4 true false true, .imm (-3)⟩),
    (0x8240001000057FFFFD040006#96, .vmul .n8 ⟨(hd false 0), .reg 5 true false false, .imm (-3), .reg 6 false false true⟩),
    (0x835900000005040004600009#96, .vfma .n16 ⟨(hd true 1), .reg 5 false false false, .reg 4 false false true, .imm 9⟩),
    (0x846200000005600009040006#96, .vmin .n32 ⟨(hd false 2), .reg 5 false false false, .imm 9, .reg 6 false false true⟩),
    (0x858B001000050400046003E8#96, .vmax .h16 ⟨(hd true 3), .reg 5 true false false, .reg 4 false false true, .imm 1000⟩),
    (0x869400000005000004E00000#96, .vexp .b16 ⟨(hd false 4), .reg 5 false false false, .reg 4 false false false, .absent⟩),
    (0x87AD00000005100004E00000#96, .vlog .f32 ⟨(hd true 5), .reg 5 false false false, .reg 4 true false false, .absent⟩),
    (0x888600100005000004E00000#96, .vrcp .h16 ⟨(hd false 6), .reg 5 true false false, .reg 4 false false false, .absent⟩),
    (0x899F00000005000004E00000#96, .vrsq .b16 ⟨(hd true 7), .reg 5 false false false, .reg 4 false false false, .absent⟩),
    (0x8AA000000005100004E00000#96, .vsqrt .f32 ⟨(hd false 0), .reg 5 false false false, .reg 4 true false false, .absent⟩),
    (0x8BC900100005000004600008#96, .vcvt .f8 ⟨(hd true 1), .reg 5 true false false, .reg 4 false false false, .imm 8⟩),
    (0x8C5200000005000004E00000#96, .vsum .n16 ⟨(hd false 2), .reg 5 false false false, .reg 4 false false false, .absent⟩),
    (0x8D6B00000005100004E00000#96, .vrmax .n32 ⟨(hd true 3), .reg 5 false false false, .reg 4 true false false, .absent⟩),
    (0x8E8400000005000004040006#96, .vdot .h16 ⟨(hd false 4), .reg 5 false false false, .reg 4 false false false, .reg 6 false false true⟩),
    (0x8F9D00000005000004140006#96, .vscan .b16 ⟨(hd true 5), .reg 5 false false false, .reg 4 false false false, .reg 6 true false true⟩)] : List (IWord × Instr)),
    decodeAt true p.1 = .ok p.2 ∧ encode p.2 = p.1 ∧ p.2.wf = true := by decide +kernel

/-- Words of the family, from R23, R29, R35 and R233, R234. -/
theorem test_words_stream_more : ∀ p ∈ ([
    (0x905600000005100004000006#96, .vgat .n16 ⟨(hd false 6), .reg 5 false false false, .reg 4 true false false, .reg 6 false false false⟩),
    (0x916F00100005040004000006#96, .vsct .n32 ⟨(hd true 7), .reg 5 true false false, .reg 4 false false true, .reg 6 false false false⟩),
    (0x9280000000056003E8140006#96, .vsel .h16 ⟨(hd false 0), .reg 5 false false false, .imm 1000, .reg 6 true false true⟩),
    (0x9329002005051000047FFFFD#96, .vcmp .i32 ⟨(hd true 1), .pred 5 5, .reg 4 true false false, .imm (-3)⟩),
    (0x94A2001000057FFFFDE00000#96, .vfill .f32 ⟨(hd false 2), .reg 5 true false false, .imm (-3), .absent⟩),
    (0x951B00000005040004600009#96, .vand .i16 ⟨(hd true 3), .reg 5 false false false, .reg 4 false false true, .imm 9⟩),
    (0x962400000005600009040006#96, .vor .i32 ⟨(hd false 4), .reg 5 false false false, .imm 9, .reg 6 false false true⟩),
    (0x974D001000050400046003E8#96, .vxor .n8 ⟨(hd true 5), .reg 5 true false false, .reg 4 false false true, .imm 1000⟩),
    (0x9856000000056003E8140006#96, .vshl .n16 ⟨(hd false 6), .reg 5 false false false, .imm 1000, .reg 6 true false true⟩),
    (0x996F000000051400047FFFFD#96, .vshr .n32 ⟨(hd true 7), .reg 5 false false false, .reg 4 true false true, .imm (-3)⟩),
    (0x9A8000100005000004E00000#96, .vsmx .h16 ⟨(hd false 0), .reg 5 true false false, .reg 4 false false false, .absent⟩),
    (0x9B9900000005000004600009#96, .vlnm .b16 ⟨(hd true 1), .reg 5 false false false, .reg 4 false false false, .imm 9⟩)] : List (IWord × Instr)),
    decodeAt true p.1 = .ok p.2 ∧ encode p.2 = p.1 ∧ p.2.wf = true := by decide +kernel

/-- Words of the family, from R23, R29, R35 and R256, R257. -/
theorem test_words_grain : ∀ p ∈ ([
    (0xA0D20000000510000460000A#96, .gpk .q4 ⟨(hd false 2), .reg 5 false false false, .reg 4 true false false, .imm 10⟩),
    (0xA18B0010000500000460000C#96, .gupk .h16 ⟨(hd true 3), .reg 5 true false false, .reg 4 false false false, .imm 12⟩),
    (0xA20400000005000004140006#96, .grq ⟨(hd false 4), .reg 5 false false false, .reg 4 false false false, .reg 6 true false true⟩),
    (0xA30D00000005100004E00000#96, .gamx ⟨(hd true 5), .reg 5 false false false, .reg 4 true false false, .absent⟩),
    (0xA40600100005000004000006#96, .ghdr ⟨(hd false 6), .reg 5 true false false, .reg 4 false false false, .reg 6 false false false⟩),
    (0xA50F00600002000004600009#96, .gsetBe ⟨(hd true 7), .imm 2, .reg 4 false false false, .imm 9⟩),
    (0xA51000E00000100004000006#96, .gsetZero ⟨(hd false 0), .absent, .reg 4 true false false, .reg 6 false false false⟩),
    (0xA52900E000000000046003E8#96, .gsetNan ⟨(hd true 1), .absent, .reg 4 false false false, .imm 1000⟩),
    (0xA60200000005000004E00000#96, .gchk ⟨(hd false 2), .reg 5 false false false, .reg 4 false false false, .absent⟩),
    (0xA7DB0000000510000460000C#96, .gcvt .q4 ⟨(hd true 3), .reg 5 false false false, .reg 4 true false false, .imm 12⟩)] : List (IWord × Instr)),
    decodeAt true p.1 = .ok p.2 ∧ encode p.2 = p.1 ∧ p.2.wf = true := by decide +kernel

/-- Words of the family, from R23, R29, R35 and R280. -/
theorem test_words_pan : ∀ p ∈ ([
    (0xB00400000005E00000E00000#96, .lse ⟨(hd false 4), .reg 5 false false false, .absent, .absent⟩),
    (0xB10D00E00000E00000E00000#96, .lsr ⟨(hd true 5), .absent, .absent, .absent⟩),
    (0xB20600000005E00000E00000#96, .mz ⟨(hd false 6), .reg 5 false false false, .absent, .absent⟩),
    (0xB3DF006001A0000004000006#96, .mmac .q4 ⟨(hd true 7), .imm 416, .reg 4 false false false, .reg 6 false false false⟩),
    (0xB40000000005000004E00000#96, .mld ⟨(hd false 0), .reg 5 false false false, .reg 4 false false false, .absent⟩),
    (0xB58900600010100004E00000#96, .mst .h16 ⟨(hd true 1), .imm 16, .reg 4 true false false, .absent⟩)] : List (IWord × Instr)),
    decodeAt true p.1 = .ok p.2 ∧ encode p.2 = p.1 ∧ p.2.wf = true := by decide +kernel

/-- Words of the family, from R23, R29, R35 and R304, R331. -/
theorem test_words_copy_and_brine : ∀ p ∈ ([
    (0xC00200100005000004000006#96, .cpy ⟨(hd false 2), .reg 5 true false false, .reg 4 false false false, .reg 6 false false false⟩),
    (0xC10B00000005000004600009#96, .cpl ⟨(hd true 3), .reg 5 false false false, .reg 4 false false false, .imm 9⟩),
    (0xC20400E00000E00000E00000#96, .rcfAll ⟨(hd false 4), .absent, .absent, .absent⟩),
    (0xC21D00E000000000046003E8#96, .rcfOne ⟨(hd true 5), .absent, .reg 4 false false false, .imm 1000⟩),
    (0xC30600000005000004E00000#96, .cpstH ⟨(hd false 6), .reg 5 false false false, .reg 4 false false false, .absent⟩),
    (0xC31F00000005E00000E00000#96, .cpstN ⟨(hd true 7), .reg 5 false false false, .absent, .absent⟩),
    (0xC40000100005000004E00000#96, .cpxH ⟨(hd false 0), .reg 5 true false false, .reg 4 false false false, .absent⟩),
    (0xC41900000005E00000E00000#96, .cpxAll ⟨(hd true 1), .reg 5 false false false, .absent, .absent⟩),
    (0xC50200000005600010000006#96, .cpfFull ⟨(hd false 2), .reg 5 false false false, .imm 16, .reg 6 false false false⟩),
    (0xC51B001000050000046003E8#96, .cpfEmpty ⟨(hd true 3), .reg 5 true false false, .reg 4 false false false, .imm 1000⟩),
    (0xC524000000056003E8E00000#96, .cpfMke ⟨(hd false 4), .reg 5 false false false, .imm 1000, .absent⟩),
    (0xC53D00000005100004E00000#96, .cpfMkf ⟨(hd true 5), .reg 5 false false false, .reg 4 true false false, .absent⟩),
    (0xC80600100005000004000006#96, .bregNew ⟨(hd false 6), .reg 5 true false false, .reg 4 false false false, .reg 6 false false false⟩),
    (0xC81F00000005000004600009#96, .bregJoin ⟨(hd true 7), .reg 5 false false false, .reg 4 false false false, .imm 9⟩),
    (0xC90000000005600009E00000#96, .bdrg ⟨(hd false 0), .reg 5 false false false, .imm 9, .absent⟩),
    (0xCA09001000050000046003E8#96, .badd ⟨(hd true 1), .reg 5 true false false, .reg 4 false false false, .imm 1000⟩),
    (0xCBA200000005000004100006#96, .brd .f32 ⟨(hd false 2), .reg 5 false false false, .reg 4 false false false, .reg 6 true false false⟩),
    (0xCC0B00000005100004600002#96, .bqryRd ⟨(hd true 3), .reg 5 false false false, .reg 4 true false false, .imm 2⟩),
    (0xCC1400000005000004600002#96, .bqryClr ⟨(hd false 4), .reg 5 false false false, .reg 4 false false false, .imm 2⟩),
    (0xCD0D00000005000004100006#96, .bgrpAdd ⟨(hd true 5), .reg 5 false false false, .reg 4 false false false, .reg 6 true false false⟩),
    (0xCD1600000005600009000006#96, .bgrpRm ⟨(hd false 6), .reg 5 false false false, .imm 9, .reg 6 false false false⟩),
    (0xCD2F00100005000004000006#96, .bgrpDrop ⟨(hd true 7), .reg 5 true false false, .reg 4 false false false, .reg 6 false false false⟩),
    (0xCE0000000005600002E00000#96, .bholdOn ⟨(hd false 0), .reg 5 false false false, .imm 2, .absent⟩),
    (0xCE1900000005100004E00000#96, .bholdOff ⟨(hd true 1), .reg 5 false false false, .reg 4 true false false, .absent⟩),
    (0xCF0200100005000004000006#96, .bstep ⟨(hd false 2), .reg 5 true false false, .reg 4 false false false, .reg 6 false false false⟩)] : List (IWord × Instr)),
    decodeAt true p.1 = .ok p.2 ∧ encode p.2 = p.1 ∧ p.2.wf = true := by decide +kernel

/-- Words of the family, from R23, R29, R35 and R362. -/
theorem test_words_system : ∀ p ∈ ([
    (0xE00B00E00000000004100006#96, .sret ⟨(hd true 3), .absent, .reg 4 false false false, .reg 6 true false false⟩),
    (0xE10400000005600009000006#96, .tlbi .clu ⟨(hd false 4), .reg 5 false false false, .imm 9, .reg 6 false false false⟩),
    (0xE21D001000050000046003E8#96, .tlbw .band ⟨(hd true 5), .reg 5 true false false, .reg 4 false false false, .imm 1000⟩),
    (0xE306000000056003E8100006#96, .cmapMap ⟨(hd false 6), .reg 5 false false false, .imm 1000, .reg 6 true false false⟩),
    (0xE31F00000005100004E00000#96, .cmapDead ⟨(hd true 7), .reg 5 false false false, .reg 4 true false false, .absent⟩),
    (0xE32000100005600002E00000#96, .cmapRd ⟨(hd false 0), .reg 5 true false false, .imm 2, .absent⟩),
    (0xE40900000005000004100006#96, .wkxPage ⟨(hd true 1), .reg 5 false false false, .reg 4 false false false, .reg 6 true false false⟩),
    (0xE41200000005100004000006#96, .wkxThr ⟨(hd false 2), .reg 5 false false false, .reg 4 true false false, .reg 6 false false false⟩),
    (0xE42B00100005000004000006#96, .wkxEnd ⟨(hd true 3), .reg 5 true false false, .reg 4 false false false, .reg 6 false false false⟩),
    (0xE50400000005000004100006#96, .cxf ⟨(hd false 4), .reg 5 false false false, .reg 4 false false false, .reg 6 true false false⟩),
    (0xE60D00000005100004E00000#96, .psw ⟨(hd true 5), .reg 5 false false false, .reg 4 true false false, .absent⟩),
    (0xE70600100005600006000006#96, .srd ⟨(hd false 6), .reg 5 true false false, .imm 6, .reg 6 false false false⟩),
    (0xE80F00600002000004600002#96, .swr ⟨(hd true 7), .imm 2, .reg 4 false false false, .imm 2⟩),
    (0xE90000000005100004000006#96, .evict ⟨(hd false 0), .reg 5 false false false, .reg 4 true false false, .reg 6 false false false⟩),
    (0xEA0900100005000004600002#96, .prhUnb ⟨(hd true 1), .reg 5 true false false, .reg 4 false false false, .imm 2⟩),
    (0xEA1200000005000004100006#96, .prhEvc ⟨(hd false 2), .reg 5 false false false, .reg 4 false false false, .reg 6 true false false⟩),
    (0xEA2B00000005100004600002#96, .prhHold ⟨(hd true 3), .reg 5 false false false, .reg 4 true false false, .imm 2⟩),
    (0xEB0400E00000600002000006#96, .pgdFill ⟨(hd false 4), .absent, .imm 2, .reg 6 false false false⟩),
    (0xEB1D00E00000000004E00000#96, .pgdFail ⟨(hd true 5), .absent, .reg 4 false false false, .absent⟩),
    (0xEC0600000005600009E00000#96, .haltCore ⟨(hd false 6), .reg 5 false false false, .imm 9, .absent⟩),
    (0xEC1F00100005000004E00000#96, .haltRun ⟨(hd true 7), .reg 5 true false false, .reg 4 false false false, .absent⟩),
    (0xEC2000000005600002E00000#96, .haltPart ⟨(hd false 0), .reg 5 false false false, .imm 2, .absent⟩),
    (0xEC3900000005100004E00000#96, .haltPrun ⟨(hd true 1), .reg 5 false false false, .reg 4 true false false, .absent⟩)] : List (IWord × Instr)),
    decodeAt true p.1 = .ok p.2 ∧ encode p.2 = p.1 ∧ p.2.wf = true := by decide +kernel

/-- Words of the family, from R23, R29, R35 and R391. -/
theorem test_words_queues : ∀ p ∈ ([
    (0xF00200100005000004E00000#96, .qmap ⟨(hd false 2), .reg 5 true false false, .reg 4 false false false, .absent⟩),
    (0xF10B00000005000004E00000#96, .qunm ⟨(hd true 3), .reg 5 false false false, .reg 4 false false false, .absent⟩),
    (0xF20400000005600009000006#96, .qsw ⟨(hd false 4), .reg 5 false false false, .imm 9, .reg 6 false false false⟩),
    (0xF30D001000050000046003E8#96, .qlch ⟨(hd true 5), .reg 5 true false false, .reg 4 false false false, .imm 1000⟩),
    (0xF40600000005600002E00000#96, .qdlRd ⟨(hd false 6), .reg 5 false false false, .imm 2, .absent⟩),
    (0xF41F000000051000047FFFFD#96, .qdlAdd ⟨(hd true 7), .reg 5 false false false, .reg 4 true false false, .imm (-3)⟩),
    (0xF42000100005600002E00000#96, .qdlStop ⟨(hd false 0), .reg 5 true false false, .imm 2, .absent⟩),
    (0xF50900000005000004E00000#96, .qstSlot ⟨(hd true 1), .reg 5 false false false, .reg 4 false false false, .absent⟩),
    (0xF51200000005600002E00000#96, .qstBell ⟨(hd false 2), .reg 5 false false false, .imm 2, .absent⟩),
    (0xF52B00100005000004E00000#96, .qstClr ⟨(hd true 3), .reg 5 true false false, .reg 4 false false false, .absent⟩),
    (0xF53400000005600002E00000#96, .qstSkip ⟨(hd false 4), .reg 5 false false false, .imm 2, .absent⟩),
    (0xF60D00000005100004600002#96, .qsigCtr ⟨(hd true 5), .reg 5 false false false, .reg 4 true false false, .imm 2⟩),
    (0xF61600100005600002E00000#96, .qsigIrq ⟨(hd false 6), .reg 5 true false false, .imm 2, .absent⟩)] : List (IWord × Instr)),
    decodeAt true p.1 = .ok p.2 ∧ encode p.2 = p.1 ∧ p.2.wf = true := by decide +kernel

/-! ### Terms that are no words: one for each check of R37 -/

/-- R27: a cache policy on an instruction that takes none. -/
theorem test_illFormed_cachePolicy : (Instr.add .i64 ⟨{ hd false 0 with cp := 1 }, .reg 5 false false false, .reg 4 false false false, .imm 1⟩).wf = false := by decide
/-- R37 row 10: an immediate where a register is written. -/
theorem test_illFormed_kind : (Instr.add .i64 ⟨hd false 0, .imm 5, .reg 4 false false false, .imm 1⟩).wf = false := by decide
/-- R29: a long literal leaves no C field, and stands in B only. -/
theorem test_illFormed_literal : (Instr.movl ⟨hd false 0, .reg 5 false false false, .lit 7, .reg 4 false false false⟩).wf = false ∧
    (Instr.movl ⟨hd false 0, .lit 7, .lit 7, .absent⟩).wf = false ∧ (Instr.movl ⟨hd false 0, .reg 5 false false false, .lit 7, .absent⟩).wf = true := by decide
/-- R37 row 11: a condition that no compare has, and a special register that is not assigned. -/
theorem test_illFormed_value : (Instr.cmp .i64 ⟨hd false 0, .pred 5 15, .reg 4 false false false, .imm 1⟩).wf = false ∧
    (Instr.mvs ⟨hd false 0, .reg 5 false false false, .spec 0xFF, .absent⟩).wf = false := by decide
/-- R37 row 12: NEG where the entry permits none, and no VAL where it requires one. -/
theorem test_illFormed_modifier : (Instr.jmp ⟨hd false 0, .reg 5 false true false, .absent, .absent⟩).wf = false ∧
    (Instr.vfill .i32 ⟨hd false 0, .reg 5 false false false, .reg 4 false false false, .absent⟩).wf = false := by decide
/-- R30: B and C name one register, both with SYNC. -/
theorem test_illFormed_sync : (Instr.add .i64 ⟨hd false 0, .reg 5 false false false, .reg 4 true false false, .reg 4 true false false⟩).wf = false := by decide
/-- R37 row 8: a type that the entry does not permit. -/
theorem test_illFormed_type : (Instr.add .f32 ⟨hd false 0, .reg 5 false false false, .reg 4 false false false, .imm 1⟩).wf = false := by decide
/-- R37 row 13, R104: an immediate outside its range. -/
theorem test_illFormed_range : (Instr.fork ⟨hd false 0, .reg 5 false false false, .imm 0, .absent⟩).wf = false := by decide
/-- A step of the machine that no word encodes. -/
theorem test_illFormed_event : Instr.attestDone.wf = false := by decide
/-- The same word with each of these made good. -/
theorem test_wellFormed : (Instr.add .i64 ⟨hd false 0, .reg 5 true false false, .reg 4 true false false, .reg 6 true true false⟩).wf = true := by decide

/-- The place of a checked address, with the state after the check, meets a condition. -/
def placed (o : Option (Loc × State)) (f : Nat → Nat → Bool → State → Bool) : Bool :=
  o.any fun r => match r with
    | (.mem a h p _, s2) => f a h p s2
    | _ => false

/-- The head of a word that is always enabled. -/
def h0 : Head := hd false 0
/-- The head of a word that p0, which reads as true, disables. -/
def hOff : Head := hd true 0
def r (n : BitVec 4) : Opnd := .reg n false false false
def im (n : BitVec 21) : Opnd := .imm n
def pr (n : BitVec 3) : Opnd := .pred n 0
def abc : Args := ⟨h0, r 5, r 4, r 6⟩
/-- The address in x4, with x5. -/
def a54 : Args := ⟨h0, r 5, r 4, im 0⟩
/-- The immediate `v` in A. -/
def immA (v : BitVec 21) : Args := ⟨h0, im v, .absent, .absent⟩
/-- A thread of core 0 at level H. -/
def top : State := State.reset.withFetchWord 96 0
/-- The same registers written. -/
def setX (s : State) (l : List (BitVec 4 × Word)) : State := s.mapCtx fun c => l.foldl (fun c p => c.writeX p.1 p.2) c
/-- A thread of core 2 at level U. -/
def usr : State := { (top.setCore 2 fun c => { c with sets := [placedSet] }) with
  thr := { top.thr with core := 2, ctx := { top.thr.ctx with st := 0#64 } } }
/-- The same thread inside a trap handler. -/
def inTrap : State := usr.mapCtx fun c => { c with st := 0x400#64 }
/-- An address of the scratchpad of the core of `usr`. -/
def own : Word := 0x0080000000200100#64
/-- x4 holds an address of memory whose home is another core. -/
def memS : State := setX top [(4, 0x1000#64)]
/-- x4 holds an address of the own scratchpad. -/
def spS : State := setX usr [(4, own)]

theorem witness_IntegerArithmeticResults : abc.go usr = true := by decide +kernel
theorem witness_BitwiseAndShiftResults : abc.go (setX usr [(6, 64#64)]) = true := by decide +kernel
theorem witness_OneSourceIntegerResults :
    let x : Args := ⟨h0, r 5, .lit 0x1FFFFFFFFFFF#45, .absent⟩
    a54.goB usr = true ∧ usr.enabled x.h = true ∧ x.a.free usr = true := by decide +kernel
theorem witness_BitfieldAndMultiplyAddResults : abc.go usr = true ∧ abc.goABC usr = true := by decide +kernel
/-- Divisors 1, -1 and the most negative one, and 0. -/
theorem witness_DivisionOrArithmeticTrap : usr.enabled abc.h = true ∧ abc.readyBC usr = true ∧
    (∀ s ∈ [setX usr [(6, 1)], setX usr [(6, -1#64)], setX usr [(6, 0x8000000000000000#64)]],
      Ty.i64.intVal (abc.c.atInt 64 (abc.c.val s)) ≠ 0 ∧ abc.a.free (abc.afterBC s) = true) ∧
    Ty.i64.intVal (abc.c.atInt 64 (abc.c.val usr)) = 0 ∧ usr.levelH = false ∧ usr.trin = false := by decide +kernel
theorem witness_FloatArithmeticResults : abc.go usr = true ∧ abc.goB usr = true ∧ abc.goABC usr = true := by decide +kernel
theorem witness_FloatConversionResults : (⟨h0, r 5, r 4, im 10⟩ : Args).goB usr = true := by decide +kernel
/-- The last offset under the limit of 2^56 bytes, and the first at it. -/
theorem witness_AddressFormation : usr.enabled abc.h = true ∧ abc.readyBC usr = true ∧ abc.a.free (abc.afterBC usr) = true ∧
    usr.levelH = false ∧ usr.trin = false ∧ (usr.cachedSet usr.thr.core usr.task).any (fun ts =>
      decide (0xFFFFFFFFFFFFFF < (ts.seg 0).2.toNat % 2 ^ 61 ∧ (ts.seg 0).2.toNat % 2 ^ 61 ≤ 0x100000000000000)) = true := by
  decide +kernel
theorem witness_SpecialRegisterAccess :
    let rd (n : BitVec 8) : Args := ⟨h0, r 5, .spec n, .absent⟩
    let wr (n : BitVec 8) : Args := ⟨h0, .spec n, r 4, .absent⟩
    (∀ n ∈ ([0, 1, 0x0E] : List (BitVec 8)), usr.enabled (rd n).h = true ∧ (rd n).a.free usr = true) ∧
    usr.thr.res.fixed = [] ∧ specOf (rd 1).b ≠ 0 ∧ usr.levelH = false ∧ usr.trin = false ∧
    (∀ n ∈ ([0, 9, 0x0A, 0x0B, 0x0C, 0x0D, 0x0E] : List (BitVec 8)), usr.enabled (wr n).h = true ∧ (wr n).b.ready usr = true ∧
      specOf (wr n).a = n.toNat) := by decide +kernel
theorem witness_JumpsAndCalls :
    let x : Args := ⟨h0, r 5, im 9, .absent⟩
    let y : Args := ⟨{ h0 with yl := true }, r 5, im 9, .absent⟩
    usr.enabled x.h = true ∧ usr.enabled y.h = true ∧ x.h.yl = false ∧ y.h.yl = true ∧ x.a.ready usr = true ∧
    usr.destFree 15 false = true ∧ (x.a.after usr).destFree 15 false = true ∧
    x.a.val (setX usr [(5, 1)]) - 1#64 = 0#64 ∧ x.a.val (setX usr [(5, 2)]) - 1#64 ≠ 0#64 := by decide +kernel
theorem witness_PredicateResults :
    let x : Args := ⟨h0, pr 5, pr 2, pr 7⟩
    let y : Args := ⟨h0, pr 5, r 4, r 6⟩
    usr.enabled x.h = true ∧ usr.predReady x.b.pix = true ∧ usr.predReady x.c.pix = true ∧ x.a.free usr = true ∧
    y.readyBC usr = true ∧ y.a.free (y.afterBC usr) = true := by decide +kernel
theorem witness_SoftwareTrapEntry :
    let x := immA 5
    usr.enabled x.h = true ∧ usr.levelH = false ∧ usr.trin = false ∧ inTrap.enabled x.h = true ∧ inTrap.trin = true ∧
    top.enabled x.h = true ∧ top.levelH = true ∧ usr.disabled hOff = true := by decide +kernel
theorem witness_HandlerReturnAndBreak : inTrap.enabled (immA 5).h = true ∧ inTrap.trin = true := by decide +kernel
theorem witness_RelativeBranch : usr.enabled (immA 5).h = true ∧ usr.disabled hOff = true := by decide +kernel
theorem witness_DisabledWordOnlyAdvances :
    (Instr.amoAdd ⟨hOff, r 5, r 4, im 0⟩).args = some ⟨hOff, r 5, r 4, im 0⟩ ∧ usr.disabled hOff = true := by decide +kernel
/-- The clauses meet at no OP: 0xE0, 0xEC, 0xF0 and 0xF6 bound the ranges for level H, and 0x0C is no OP. -/
theorem witness_IllegalAndPrivilegedWords :
    usr.enabled h0 = true ∧ usr.levelH = false ∧ usr.trin = false ∧
    (∀ op ∈ ([0x00, 0x0C, 0xDF, 0xED, 0xEF, 0xF7, 0xFF] : List Nat), opAssigned op = false) ∧
    (∀ op ∈ ([0xE0, 0xEC, 0xF0, 0xF6] : List (BitVec 8)),
      ((op ++ (0#88 : BitVec 88) : IWord).extractLsb' 88 8).toNat = op.toNat) := by decide +kernel

/-- At the own scratchpad, and at another core's home. -/
theorem witness_LoadsReadTheirHome : (∀ s ∈ [spS, memS], s.enabled a54.h = true ∧ a54.readyBC s = true ∧ s.inLine = true ∧
    (∀ p ∈ [(nLoad, 1), (nLoad, 8), (nLfe, 8)], placed ((a54.afterBC s).reaches p.1 (a54.ea s) p.2 p.2) (fun a h _ s2 =>
      a54.a.free s2 && s2.homeOpen a h && !s2.poisoned a p.2 && ((s2.core s2.thr.core).nearLine a false).isNone) = true) ∧
    placed ((a54.afterBC s).reachesLine nLoad (a54.ea s) 128 8) (fun a h _ s2 =>
      (List.range 16).all (fun i => s2.destFree (5 + BitVec.ofNat 4 i) false) && s2.homeOpen a h && !s2.poisoned a 128) = true) := by
  decide +kernel
theorem witness_WaitingReadsProceed : (∀ s ∈ [spS, memS], s.enabled a54.h = true ∧ a54.readyBC s = true ∧ s.inLine = true ∧
    placed ((a54.afterBC s).reaches nLdc (a54.ea s) 8 8) (fun a h _ s2 => a54.a.free s2 && s2.homeOpen a h &&
      !s2.poisoned a 8 && s.isFull a && s.unwatched a 8) = true) ∧
    (∀ s ∈ [setX spS [(5, 1)], spS], a54.a.ready (a54.afterBC s) = true ∧
      placed ((a54.a.after (a54.afterBC s)).reaches nWtw (a54.ea s) 8 8) (fun a h _ s2 => a54.a.free s2 && s2.homeOpen a h &&
        !s2.poisoned a 8 && (s.readWord a != a54.a.val s || decide ((a54.a.val s).toNat ≤ (s.readWord a).toNat))) = true) := by
  decide +kernel
theorem witness_StoreToOwnScratchpad : Memory.wf spS.mem = true ∧ spS.enabled a54.h = true ∧ a54.readyBC spS = true ∧
    a54.a.ready (a54.afterBC spS) = true ∧ placed ((a54.a.after (a54.afterBC spS)).reaches nStore (a54.ea spS) 8 8)
      (fun a h p s2 => h == spS.thr.core && !p && s2.homeOpen a h && spS.unwatched a 8) = true := by decide +kernel
theorem witness_StoresArePosted : let s := memS
    let s0 := a54.afterBC s
    let s1 := a54.a.after s0
    s.enabled a54.h = true ∧ a54.readyBC s = true ∧ s.thr.ctx.stc ≠ 0xFFFF#16 ∧ a54.a.ready s0 = true ∧ s.thr.res.fault = none ∧
    placed (s1.reaches nStore (a54.ea s) 8 8) (fun _ h p s2 => s2.canCharge h && p && s2.settled .sys none) = true ∧
    placed (s1.reaches nStp (a54.ea s) 8 8) (fun a h p s2 => s2.canCharge h &&
      s2.settled (s2.homeScope s2.thr.core (.mem a h p 0)).1 none) = true ∧
    placed (s0.reaches nStp (a54.ea s) 8 8) (fun _ h _ s2 => s2.canCharge h) = true ∧
    (∀ i, i < 16 → s0.regReady (5 + BitVec.ofNat 4 i) = true) ∧
    placed (s0.reachesLine nStore (a54.ea s) 128 8) (fun _ h _ s2 => s2.canCharge h) = true := by decide +kernel
theorem witness_AtomicsAtTheirHome : ∀ s ∈ [spS, memS], let s1 := a54.a.after (a54.afterBC s)
    Memory.wf s.mem = true ∧ s.enabled a54.h = true ∧ a54.readyBC s = true ∧ a54.a.ready (a54.afterBC s) = true ∧
    s1.regReady 6 = true ∧ s.inLine = true ∧
    (∀ p ∈ [(true, 8), (false, 4), (true, 4)], placed (s1.reaches (nAmo p.1) (a54.ea s) p.2 p.2) (fun a h g s2 => a54.a.free s2 &&
      s2.homeOpen a h && s.unwatched a 8 && !s2.poisoned a p.2 &&
      s2.settled (s2.homeScope s2.thr.core (.mem a h g 0)).1 none) = true) := by decide +kernel
/-- Misaligned; no right in the segment; at the limit; over an unmapped region. -/
theorem witness_AccessChecksInOrder :
    let ro : TaskSet := { placedSet with segs := [(0x0100000000000000#64, 0x1000#64)] }
    let s := usr.setCore 2 fun c => { c with sets := [ro] }
    usr.enabled a54.h = true ∧ usr.levelH = false ∧ usr.trin = false ∧ a54.readyBC usr = true ∧
    a54.a.ready (a54.afterBC usr) = true ∧ (a54.a.after (a54.afterBC usr)).regReady 6 = true ∧
    usr.cachedSet usr.thr.core usr.task = some placedSet ∧ (a54.ea (setX usr [(4, 1)])).toNat % 8 ≠ 0 ∧
    (a54.ea (setX usr [(4, 0xFF8)])).toNat % 8 = 0 ∧
    segGrants (placedSet.seg 0).1 nLoad = true ∧ s.cachedSet s.thr.core s.task = some ro ∧ segGrants (ro.seg 0).1 nStore = false ∧
    (ro.seg 0).2.toNat % 2 ^ 61 < 0xFFC + 8 ∧ usr.area usr.levelH nLoad 0x00F0000000000000 8 = .none := by decide +kernel
/-- A pending wake and none; the last core number. -/
theorem witness_ThreadWaitsAndYields :
    let s := usr.mapCtx fun c => { c with wk := true }
    let w := setX usr [(4, 2047#64)]
    let s1 := abc.afterBC w
    usr.enabled abc.h = true ∧ s.enabled abc.h = true ∧ s.thr.ctx.wk = true ∧ usr.thr.ctx.wk = false ∧
    abc.readyBC w = true ∧ (abc.b.val w).toNat = 2047 ∧ abc.a.free (abc.afterBC w) = true ∧
    s1.settled (s1.scopeOf w.thr.core 2047) none = true ∧ s1.homeDead 2047 = false ∧
    w.canCharge 2047 = true ∧ usr.idle = true ∧ usr.isThere = true ∧ usr.grp = 0#16 ∧ usr.findPop usr.thr.popIx = none := by decide +kernel
theorem witness_HopLeavesForTheHome : (∀ s ∈ [spS, memS], s.enabled a54.h = true ∧ a54.readyBC s = true ∧ s.grp = 0#16 ∧
      s.thr.res.join = none ∧ s.idle = true ∧ s.isThere = true) ∧
    placed ((a54.afterBC spS).reaches nLoad (a54.ea spS) 1 1) (fun _ h _ _ => h == spS.thr.core) = true ∧
    placed ((a54.afterBC memS).reaches nLoad (a54.ea memS) 1 1) (fun _ h _ s2 => h != memS.thr.core && !s2.homeDead h &&
      decide ((memS.attached h).length < 4096) && s2.canCharge h) = true := by decide +kernel

/-- A spawn descriptor: one thread, quota 1, core 3. -/
def spawnBytes : List Byte := leBytes 40 0 ++ leBytes 8 (2 ^ 40 + 1) ++ leBytes 8 3 ++ leBytes 72 0
theorem witness_SpawnCreatesAPopulation :
    let s := ({ spS with rdyc := [0, 1] } : State).writeMem (coreAddr 2 0x100) spawnBytes
    let s1 := a54.afterBC s
    s.enabled a54.h = true ∧ a54.readyBC s = true ∧ s.levelH = false ∧ s.thr.res.record = none ∧ a54.a.free s1 = true ∧
    s1.noStores = true ∧ placed (s1.reachesLine nLoad (a54.ea s) 128 128) (fun a h _ s2 =>
      let d := SpawnDesc.ofBytes (s.readMem a 128)
      s2.homeOpen a h && !s2.poisoned a 128 && !d.bad && d.shape == 0 && d.done == 0#64 && d.count == 1 &&
      [s.thr.core, d.place.toNat].all fun n => decide (n < 2048) && !isHearth n && !isSpare n && !s.homeDead n &&
        s.rdyc.contains (s.coreCluster n) && decide ((s.attached n).length + min d.quota d.count ≤ 4096)) = true := by
  decide +kernel
/-- The first of two members, and the last one. -/
theorem witness_BarriersHoldAndRelease : ∀ crew ∈ [true, false], ∀ live ∈ [2, 1],
    let g : Group := ⟨1#16, crew, live, [], false, 0⟩
    let s := (usr.setCluster 1 fun c => { c with groups := [g] }).mapCtx fun c => { c with st := 0x100000000#64 }
    s.enabled h0 = true ∧ s.grp ≠ 0#16 ∧ s.findGroup s.myCluster s.grp = some g ∧ g.crew = crew ∧
    s.settled .core none = true ∧ s.settled .clu none = true ∧ (g.arrived.length + 1 = g.live ↔ live = 1) := by decide +kernel
theorem witness_InboxInstructions :
    let rx : Args := ⟨h0, r 5, .chan 7, .absent⟩
    let tx : Args := ⟨h0, .chan 7, r 4, r 6⟩
    let nt : Args := ⟨h0, .chan 7, r 4, .absent⟩
    let full := usr.setCore 2 fun c => { c with inbox := List.replicate 8 (0, 1) }
    let c := full.core 2
    let w := setX usr [(4, 2047#64)]
    let s1 := tx.b.after w
    full.enabled h0 = true ∧ chanOfOpnd rx.b < c.inbox.length ∧ (∀ i, i < 4 → full.destFree (5 + BitVec.ofNat 4 i) false = true) ∧
    full.aheadOf (.inbox 7) < (c.inbox.getD 7 (0, 0)).2 ∧ full.poisoned (coreAddr 2 (c.ibEntryAt 7 0)) 32 = false ∧
    w.enabled h0 = true ∧ Memory.wf w.mem = true ∧ tx.b.ready w = true ∧ (∀ i, i < 4 → s1.regReady (6 + BitVec.ofNat 4 i) = true) ∧
    (tx.b.val w).toNat < 2048 ∧ chanOfOpnd tx.a < (w.core 2047).inbox.length ∧
    s1.noStores = true ∧ w.aheadOf (.room 2047 7) < (w.core 2047).ibEntries ∧
    w.homeOpen (coreAddr 2047 ((w.core 2047).ibEntryAt 7 0)) 2047 = true ∧ (w.core 2047).notice.getD 7 none = none ∧
    nt.b.ready usr = true ∧ chanOfOpnd nt.a < (usr.core 2).notice.length ∧ nt.b.val usr = 0#64 ∧
    (usr.findThr 2 (nt.b.val (setX usr [(4, 0x10000#64)]))).isSome = true := by decide +kernel
/-- The counts 1 and 255; a record that is complete; room for a pin and none. -/
theorem witness_JoinRecordsAndPins :
    let x : Args := ⟨h0, r 5, r 4, .absent⟩
    let s := { (usr.setCore 2 fun c => { c with joins := [⟨0, 1, 1, 1, 0#64, 0x10000#64⟩] }) with
      thr := { usr.thr with res := { usr.thr.res with join := some 0 } } }
    let full := { usr with pool := List.replicate 16 { usr.thr with pinC := true, ctx := { usr.thr.ctx with cxa := 0x20000#64 } } }
    (∀ w ∈ [setX usr [(4, 1#64)], setX usr [(4, 255#64)]], w.enabled x.h = true ∧ x.b.ready w = true ∧ w.thr.res.join = none ∧
      1 ≤ (x.b.val w).toNat ∧ (x.b.val w).toNat ≤ 255 ∧ x.a.free (x.b.after w) = true ∧
      freshFrom ((w.core 2).joins.map (·.idx)) 0 256 = some 0 ∧ w.aheadOf .joinFree < 256) ∧
    s.enabled x.h = true ∧ s.thr.res.join = some 0 ∧ ((s.core 2).joins.find? (fun j => j.idx == 0)).any (fun j => j.completed == j.n) = true ∧
    x.a.free s = true ∧ usr.thr.pinC = false ∧ (usr.attached 2).countP (fun t => t.pinC) < 16 ∧
    full.enabled x.h = true ∧ x.a.free full = true ∧ full.thr.pinC = false ∧ ¬ (full.attached 2).countP (fun t => t.pinC) < 16 := by
  decide +kernel
/-- The first and the last destination; a condition that holds and one that does not; a fence that asks for all it can. -/
theorem witness_DraughtAndFences :
    let x : Args := ⟨h0, r 5, r 4, .absent⟩
    let j : Args := ⟨h0, .pred 5 0, r 4, im 3⟩
    (∀ s ∈ [usr, setX usr [(4, 0x80F#64)]], s.enabled x.h = true ∧ x.b.ready s = true ∧ (x.b.val s).toNat < 0x810 ∧
      x.a.free (x.b.after s) = true ∧ j.b.ready s = true ∧ j.a.free (j.b.after s) = true ∧ s.thr.res.fault = none ∧
      (s.core s.thr.core).draught = []) ∧
    condInt j.a.cond (((usr.core 2).allowance 0 : Nat) : Int) 0 ≠ condInt 1 (((usr.core 2).allowance 0 : Nat) : Int) 0 ∧
    usr.enabled (immA 31).h = true ∧ bit 31 1 = true ∧ bit 31 3 = true ∧ usr.thr.res.cmds = 0 ∧
    usr.releaseBusy usr.thr.core usr.thr.ctx.cxa .sys none (bit 31 4) usr.grpNow = false := by decide +kernel
/-- A window, a page that is not valid and one that is; one page and 65,536 pages that lie at their own multiple. -/
theorem witness_PageQueriesAndPrefetch :
    let x : Args := ⟨h0, r 5, r 4, im 0⟩
    let d : Args := ⟨h0, r 5, r 4, im 0⟩
    let s := setX top [(4, 0x10000#64), (5, 65536#64)]
    let far := setX top [(4, 0x0070000000000000#64)]
    let q : WalkReq := { gva := 0x10000, kind := 0, write := false, fetch := false, query := true, answer := some 5#64 }
    usr.enabled x.h = true ∧ x.readyBC usr = true ∧ (usr.cachedSet usr.thr.core usr.task).isSome = true ∧
    (∀ i, i < 2 → usr.destFree (5 + BitVec.ofNat 4 i) false = true) ∧ x.a.free (x.afterBC usr) = true ∧
    placedSet.gva {} (x.ea spS) 1 = some 0x0080000000200100 ∧ usr.area usr.levelH {} 0x0080000000200100 1 = .window 2 0x100 ∧
    placedSet.gva {} (x.ea far) 1 = some 0x0070000000000000 ∧ far.area far.levelH {} 0x0070000000000000 1 = .paged ∧
    far.lookup far.myCluster far.task 0x0070000000000000 = .notValid ∧
    s.area s.levelH {} 0x10000 1 = .paged ∧ s.lookup s.myCluster s.task 0x10000 = .leaf (leaf0 0x10000) false ∧
    s.enabled d.h = true ∧ d.readyBC s = true ∧ d.a.ready (d.afterBC s) = true ∧ s.cachedSet s.thr.core s.task = some placedSet ∧
    0 < (d.a.val s).toNat ∧ (d.a.val s).toNat ≤ 65536 ∧ (d.ea s).toNat % 0x10000 = 0 ∧
    placedSet.gva nStore (d.ea s) (65536 * 0x10000) = some 0x10000 ∧ s.area s.levelH nStore 0x10000 (65536 * 0x10000) = .paged ∧
    (d.a.after (d.afterBC s)).noStores = true ∧ s.thr.res.phase = none ∧ s.flight = [] ∧ s.waiters = [] ∧
    ((s.threads ++ (s.cores.map (·.2.saved.threads)).flatten).all fun t => decide (t.res.held = [])) = true ∧
    (far.queryAnswer 0x0070000000000000 = none ∧ s.queryAnswer 0x10000 = none) ∧
    ({ s with thr := { s.thr with res := { s.thr.res with walk := some q } } } : State).queryAnswer 0x10000 = some 5#64 := by decide +kernel

/-- An open stream of core 0. -/
def strm : SendStream := { idx := 1, gen := 1, opened := true, task := 0#16, cursor := 0x1000#64, last := 0#64, lastHome := 0, full := false }
theorem witness_StreamTagInstructions :
    let x : Args := ⟨h0, r 5, r 4, im 0⟩
    let all := memS.setCore 0 fun c => { c with send := (List.range 32).map fun i => { strm with idx := i } }
    let one := setX (memS.setCore 0 fun c => { c with send := [strm] }) [(4, strm.tag.setWidth 64)]
    (∀ s ∈ [memS, all], s.enabled x.h = true ∧ x.readyBC s = true ∧ s.cachedSet s.thr.core s.task = some placedSet ∧
      (x.ea s).toNat % 8 = 0 ∧ placedSet.gva nStore (x.ea s) 8 = some 0x1000 ∧ s.area s.levelH nStore 0x1000 8 = .paged ∧
      x.a.free (x.afterBC s) = true) ∧
    freshFrom (((all.core 0).send.filter (·.opened)).map (·.idx)) 0 32 = none ∧
    (freshFrom (((memS.core 0).send.filter (·.opened)).map (·.idx)) 0 32).isSome = true ∧
    one.enabled x.h = true ∧ x.readyBC one = true ∧ (x.b.val one).toNat < 0x10000 ∧ one.thr.ctx.stc ≠ 0xFFFF#16 ∧
    (one.core 0).send.find? (fun e => e.opened && e.tag.setWidth 64 == x.b.val one && e.task == one.task) = some strm ∧
    (∀ i, i < 7 → (x.afterBC one).regReady (5 + BitVec.ofNat 4 i) = true) ∧
    placed ((x.afterBC one).reachesLine nStore (strm.cursor + x.c.val one) (8 * 7) 8) (fun _ h _ s2 => s2.canCharge h) = true := by
  decide +kernel
/-- A peer whose entry holds no state, and one that is UP (STATE 1). -/
theorem witness_PeerProbes :
    let x : Args := ⟨h0, r 5, r 4, .absent⟩
    let up := { setX top [(4, 1023#64)] with peers1 := [(1023, field 1 50 ||| field 1 53)] }
    (∀ s ∈ [top, up], s.enabled x.h = true ∧ x.b.ready s = true ∧ (x.b.val s).toNat < 1024 ∧ x.a.free (x.b.after s) = true) ∧
    p1State (top.peer1 0) ≠ 1 ∧ p1State (up.peer1 1023) = 1 ∧ up.canChargeAll (farHome (up.peerPort 1023)) (ceilDiv (p1Nrt (up.peer1 1023)) 4) = true := by decide +kernel

/-- The hypotheses on one stream instruction. -/
def streamReady (op : VOp) (t : Ty) (x : Args) (s : State) : Bool :=
  let ra := op.roles.1
  let rb := op.roles.2.1
  let rc := op.roles.2.2
  let s1 := x.a.afterCapture ra s
  let s2 := x.b.afterCapture rb s1
  let s3 := x.c.afterCapture rc s2
  s.enabled x.h && x.a.captureReady ra s && x.b.captureReady rb s1 && x.c.captureReady rc s2 &&
    (!(op.scalar || op == .cmp) || x.a.free s3) && s3.noStores && s.streamRoom &&
    (s3.fieldOf op t x x.a ra 0 (x.a.captured ra s)).isSome && (s3.fieldOf op t x x.b rb 1 (x.b.captured rb s1)).isSome &&
    (s3.fieldOf op t x x.c rc 2 (x.c.captured rc s2)).isSome
/-- Three arrays of four elements. -/
def arrS : State := (setX usr [(4, own), (5, own + 0x1000#64), (6, own + 0x2000#64)]).mapCtx fun c => { c with slen := 4#64 }
theorem witness_StreamCommandsAreQueued :
    let u : Args := ⟨h0, r 5, r 4, .absent⟩
    let v : Args := ⟨h0, r 5, r 4, im 10⟩
    let w : Args := ⟨h0, pr 5, r 4, r 6⟩
    let f : Args := ⟨h0, r 5, .reg 4 false false true, .absent⟩
    let l : Args := ⟨h0, r 5, r 4, .reg 6 false false true⟩
    (∀ op ∈ ([.add, .sub, .mul, .fma, .min, .max, .dot, .gat, .sct, .sel] : List VOp), streamReady op .i32 abc arrS = true) ∧
    (∀ op ∈ ([.and, .or, .xor, .shl, .shr] : List VOp), streamReady op .n8 abc arrS = true) ∧
    (∀ op ∈ ([.exp, .log, .rcp, .rsq, .sqrt, .smx] : List VOp), streamReady op .f32 u arrS = true) ∧
    (∀ op ∈ ([.sum, .rmax, .scan] : List VOp), streamReady op .f32 u arrS = true) ∧
    streamReady .cvt .f8 v arrS = true ∧ streamReady .cmp .i32 w arrS = true ∧ streamReady .fill .f32 f arrS = true ∧
    streamReady .lnm .f32 l arrS = true := by decide +kernel
/-- Arrays of 96 elements. -/
def grnS : State := (setX usr [(4, own), (5, own + 0x2000#64), (6, 254#64)]).mapCtx fun c => { c with slen := 96#64 }
/-- The hypotheses on one bulk grain instruction; `two` where it writes an array. -/
def grainReady (op : GOp) (t : Ty) (x : Args) (s : State) (two : Bool) : Bool :=
  let s1 := if two then x.a.after s else s
  let s2 := x.b.after s1
  let s3 := if op == .rq then x.c.after s2 else s2
  let sh := op.shape t x (slenN s.thr.ctx.slen)
  s.enabled x.h && x.b.ready s1 && (if two then x.a.ready s else x.a.free s2) && s3.noStores && s.streamRoom &&
    (s3.arrayAt Role.rd.need (x.b.val s) sh.2.1 sh.2.2 sh.2.1).isSome &&
    (!two || (s3.arrayAt Role.wr.need (x.a.val s) sh.1.1 sh.1.2 sh.1.1).isSome) &&
    (!(op == .rq) || x.c.ready s2 && decide ((x.c.val s).toNat ≠ 0 ∧ (x.c.val s).toNat ≤ 254))
theorem witness_GrainCommandsAreQueued :
    let x : Args := ⟨h0, r 5, r 4, im 10⟩
    let y : Args := ⟨h0, r 5, r 4, im 12⟩
    grainReady .pk .f8 x grnS true = true ∧ grainReady .upk .f32 y grnS true = true ∧ grainReady .rq .f8 abc grnS true = true ∧
    grainReady .cvt .q4 y grnS true = true ∧ grainReady .amx .f32 x grnS false = true ∧ grainReady .chk .f8 x grnS false = true := by
  decide +kernel
/-- A zero block; a block of f8, and one with the block exponent 0xFF. -/
theorem witness_SingleBlockInstructions :
    let data := memS.writeMem 0x1000 [1#8]
    let nan := memS.writeMem 0x1000 [1#8, 0xFF#8]
    (∀ p ∈ [(memS, GBlock.zero), (data, .data .f8), (nan, .nan .f8)], let s := setX p.1 [(5, 254#64)]
      let s1 := a54.afterBC s
      Memory.wf s.mem = true ∧ s.enabled a54.h = true ∧ a54.readyBC s = true ∧ s.inLine = true ∧ a54.a.free s1 = true ∧ s1.noStores = true ∧
      s.thr.res.record = none ∧ a54.a.ready s1 = true ∧ (a54.a.after s1).noStores = true ∧ (a54.a.val s).toNat = 254 ∧
      placed (s1.reachesLine nLoad (a54.ea s) 64 64) (fun a h _ s2 => gclass (s.readMem a 64) none == p.2 && s2.homeOpen a h &&
        !s2.poisoned a 64) = true ∧
      placed (s1.reaches nGset (a54.ea s) 64 64) (fun a h _ s2 => gclass (s.readMem a 64) none == p.2 && s2.homeOpen a h &&
        !s2.poisoned a 64 && s.unwatched a 64) = true ∧
      placed ((a54.a.after s1).reaches nGset (a54.ea s) 64 64) (fun a h _ s2 => s2.homeOpen a h &&
        !s2.poisoned a 64 && s.unwatched a 64) = true) := by decide +kernel
/-- A term that is open, and none. -/
theorem witness_PanInstructions :
    let s := (setX usr [(4, own), (6, own + 0x4000#64)]).setCluster 1 fun c => { c with lease := { c.lease with holder := some 2, opened := true } }
    let mm : Args := ⟨h0, im 0x1A0, r 4, r 6⟩
    let mz : Args := ⟨h0, im 0x0F, .absent, .absent⟩
    let ml : Args := ⟨h0, im 0x10, r 4, .absent⟩
    s.enabled h0 = true ∧ (r 5).free s = true ∧ s.noStores = true ∧ s.termOpen 2 = true ∧ usr.enabled h0 = true ∧
    usr.noStores = true ∧ usr.termOpen 2 = false ∧ s.aheadOf .panQ < s.panRoom 2 ∧
    (∀ p ∈ [(POpr.mmac, Ty.b16, mm), (.mz, .x64, mz), (.mld, .i32, ml), (.mst, .f32, ml)], let x := p.2.2
      let ext := p.1.extent p.2.1 (x.a.val s)
      let s3 := x.afterABC s
      x.a.ready s = true ∧ x.readyBC (x.a.after s) = true ∧ s3.noStores = true ∧
      ctlOk (p.1 == .mmac) (p.1 == .mmac) (p.1 == .mz) (x.a.val s) = true ∧
      (if x.b.isReg then s3.arrayAt ext.1 (x.b.val s) 64 ext.2 64 else some 0).isSome = true ∧
      (if x.c.isReg then s3.arrayAt ext.1 (x.c.val s) 64 ext.2 64 else some 0).isSome = true) := by decide +kernel

/-- A copy record of one dimension of 4 elements of 8 bytes. -/
def recBytes : List Byte :=
  leBytes 8 0x1000 ++ leBytes 8 0x2000 ++ leBytes 8 0x13 ++ leBytes 40 0 ++ leBytes 4 4 ++ leBytes 4 1 ++ leBytes 4 1 ++ leBytes 180 0
/-- A linear copy of 256 bytes. -/
def linS : State := setX top [(4, 0x1000#64), (5, 0x2000#64), (6, 0x100#64)]
/-- A fill of 256 bytes. -/
def filS : State := setX top [(4, 0x100#64), (5, 0x2000#64), (6, 7#64)]
theorem witness_CopiesTakeASlot_linear :
    (∀ s ∈ [linS, filS], s.enabled abc.h = true ∧ freshFrom ((s.core 0).copies.map (·.slot)) 0 1024 = some 0 ∧
      s.aheadOf .copySlot < 1024 - (s.core 0).copies.length ∧ abc.a.ready s = true ∧ abc.readyBC (abc.a.after s) = true ∧
      (abc.afterABC s).noStores = true) ∧ (abc.c.val linS).toNat = 256 ∧
    ((abc.afterABC linS).spanAt nCopySrc (abc.b.val linS) 0 255 1 256).isSome = true ∧
    ((abc.afterABC linS).spanAt (nCopyDst true) (abc.a.val linS) 0 255 1 256).isSome = true := by decide +kernel
theorem witness_CopiesTakeASlot_fill : (abc.b.val filS).toNat = 256 ∧ (abc.a.val filS).toNat % 8 = 0 ∧
    ((abc.afterABC filS).spanAt (nCopyDst true) (abc.a.val filS) 0 248 8 256).isSome = true ∧
    ((abc.afterABC filS).spanAt (nCopyDst false) (abc.a.val filS) 0 248 8 256).isSome = true := by decide +kernel
/-- A shape, its record in the cache. -/
def rec1 : RecEntry := ⟨0#16, 0x3000, recBytes⟩
/-- The thread that copies it. -/
def cpyS : State := (setX top [(4, 0x3000#64), (6, 0#64)]).setCore 0 fun c => { c with recs := [rec1] }
theorem witness_CopiesTakeASlot_shape :
    cpyS.enabled abc.h = true ∧ freshFrom ((cpyS.core 0).copies.map (·.slot)) 0 1024 = some 0 ∧
    cpyS.aheadOf .copySlot < 1024 - (cpyS.core 0).copies.length ∧ abc.readyBC cpyS = true ∧ abc.a.free (abc.afterBC cpyS) = true ∧
    (abc.afterBC cpyS).noStores = true ∧ cpyS.thr.res.record = none ∧ cpyS.cachedSet 0 cpyS.task = some placedSet ∧
    (abc.ea cpyS).toNat % 256 = 0 ∧ placedSet.gva nLoad (abc.ea cpyS) 256 = some 0x3000 ∧
    cpyS.area cpyS.levelH nLoad 0x3000 256 = .paged ∧
    (cpyS.core 0).recs.find? (fun e => e.task == cpyS.task && e.gva == 0x3000) = some rec1 ∧
    recBad rec1.image = false ∧ wordAt rec1.image 0x18 = 0#64 := by decide +kernel
/-- The spans that the record reaches: 4 elements of 8 bytes. -/
theorem witness_CopiesTakeASlot_spans :
    let sr := dimsReach (fun d => d.2.1) (recDims recBytes)
    let dr := dimsReach (fun d => d.2.2) (recDims recBytes)
    dimsCount (recDims recBytes) = 4 ∧ 2 ^ bits (at' recBytes 0x10 8) 0 3 = 8 ∧
    ((abc.afterBC cpyS).spanAt nCopySrc (wordAt recBytes 0) (sr.1 * 8) (sr.2 * 8) 8 4).isSome = true ∧
    ((abc.afterBC cpyS).spanAt (nCopyDst true) (wordAt recBytes 8) (dr.1 * 8) (dr.2 * 8) 8 4).isSome = true := by decide +kernel
theorem witness_CopyControlInstructions :
    let x : Args := ⟨h0, r 5, r 4, im 0⟩
    let s := setX top [(4, 0x400#64)]
    s.enabled x.h = true ∧ s.noStores = true ∧ x.readyBC s = true ∧ (x.afterBC s).noStores = true ∧
    s.cachedSet 0 s.task = some placedSet ∧ placedSet.gva {} (x.ea s) 8 = some 0x400 ∧ s.area s.levelH {} 0x400 8 = .paged ∧
    x.a.free s = true ∧ x.b.ready s = true ∧ x.a.free (x.b.after s) = true ∧ (x.b.after s).noStores = true ∧
    (x.b.val s).toNat < 2 ^ 32 ∧ bits (x.b.val s).toNat 10 22 ≠ 0 := by decide +kernel

/-- The bytes that `breg` reads: one block of exact sums, the member table with members 0 and 1, no rota. -/
def bregBytes : List Byte :=
  leBytes 8 0x10000 ++ leBytes 8 0x20000 ++ leBytes 8 (1 + 30 * 2 ^ 32 + 10 * 2 ^ 40 + 3 * 2 ^ 48) ++ leBytes 8 (5 + 2 ^ 12) ++
    leBytes 8 (2 ^ 24 + 2 ^ 32 + 2 ^ 40) ++ leBytes 8 0 ++ leBytes 8 0x40000 ++ leBytes 8 4 ++ leBytes 64 0 ++
    leBytes 8 (2 ^ 63 + 2 ^ 10 + 3 * 2 ^ 11) ++ leBytes 8 (2 ^ 63 + 2 ^ 10 + 4 * 2 ^ 11) ++ leBytes 496 0
/-- The region it describes, registered and committed. -/
def reg1 : Region := { regionOf (bregBytes.take 128) ((bregBytes.drop 128).take 512) [] top with
  vbase := 0x10000, mbase := 0x20000, cbase := 0x40000, ver := 1, committed := true, blocks := [⟨8, 1000, false⟩] }
/-- The same region whose only member is itself. -/
def reg2 : Region := { reg1 with table := reg1.table.set 1 0#64 }
/-- A thread beside that region. -/
def brnS : State := { setX top [(4, 3#64)] with regions := [reg1] }
theorem witness_BrineRegionCommands_holdAndDrop :
    let x : Args := ⟨h0, r 5, r 4, .absent⟩
    let only := { brnS with regions := [reg2] }
    (∀ s ∈ [brnS, only], s.enabled x.h = true ∧ s.brineIdle = true ∧ x.b.ready s = true ∧ x.a.free (x.b.after s) = true ∧
      (x.b.after s).noStores = true ∧ (x.b.val s).toNat < 64 ∧ s.bcust 3 = 0 ∧ s.quiet = true) ∧ only.regionNear reg2 = true ∧
    brnS.roundRegion 3 = some reg1 ∧ reg1.committed = true ∧ only.roundRegion 3 = some reg2 ∧ reg2.committed = true ∧
    (∀ i ∈ reg2.members, i = reg2.self) := by decide +kernel
/-- Codes 0, 8 and 9 of the register that is read, with the region and with none. -/
theorem witness_BrineRegionCommands_query :
    ∀ x ∈ ([⟨h0, r 5, r 4, im 0⟩, ⟨h0, r 5, r 4, im 8⟩, ⟨h0, r 5, r 4, im 9⟩] : List Args), ∀ s ∈ [brnS, setX brnS [(4, 63#64)]],
      s.enabled x.h = true ∧ s.brineIdle = true ∧ x.readyBC s = true ∧
      (∀ i, i < 2 → (x.afterBC s).destFree (5 + BitVec.ofNat 4 i) false = true) ∧
      (x.afterBC s).noStores = true ∧ selBad (x.b.val s) = false ∧
      (s.region 3 = some reg1 → s.regionNear reg1 = true ∧ (s.blockAt reg1 0).isSome = true) := by decide +kernel
/-- An index that is free, for `bgrp.add`, and a member's, for the other two; a third member stays for `bgrp.drop`. -/
theorem witness_BrineRegionCommands_group :
    let reg3 : Region := { reg1 with table := reg1.table.set 2 (reg1.table.getD 1 0#64) }
    (∀ p ∈ [(RoundOp.add, 63), (.rm, 1), (.drop, 1)],
      let s := { setX brnS [(6, BitVec.ofNat 64 p.2)] with regions := [reg3] }
      s.enabled abc.h = true ∧ s.brineIdle = true ∧ abc.readyBC s = true ∧ abc.a.free (abc.afterBC s) = true ∧
      (abc.afterBC s).noStores = true ∧ (abc.b.val s).toNat < 64 ∧ s.quiet = true ∧ s.roundRegion 3 = some reg3 ∧
      (abc.c.val (abc.b.after s)).toNat = p.2 ∧ reg3.valid p.2 = (p.1 != .add) ∧ p.2 ≠ reg3.self ∧
      s.regionNear reg3 = true ∧ (p.1 ≠ .add → ∃ i ∈ reg3.members, i ≠ reg3.self ∧ (p.1 = .drop → i ≠ p.2))) := by decide +kernel

/-- The thread has read the bytes of `breg`. -/
def bregS : State := { top with thr := { top.thr with res := { top.thr.res with record := some bregBytes } } }
theorem witness_BrineDataCommands_breg :
    let d := bregBytes.take 128
    let nd : Need := { r := true, w := true, e := true, write := true, kind := 1 }
    let ndp : Need := { nd with host := false, far := false }
    let s1 := a54.afterBC bregS
    Memory.wf bregS.mem = true ∧ bregS.enabled a54.h = true ∧ bregS.brineIdle = true ∧ bregS.quiet = true ∧ a54.readyBC bregS = true ∧
    a54.a.free s1 = true ∧ s1.noStores = true ∧ bregS.thr.res.record = some bregBytes ∧ 640 ≤ bregBytes.length ∧
    bits (at' d 0x38 8) 8 7 = 0 ∧ bregBad d = false ∧
    s1.opSpan ndp (wordAt d 0) 4096 1 = some 0x10000 ∧ s1.opSpan nd (wordAt d 8) 8 1 = some 0x20000 ∧
    s1.area s1.levelH ndp 0x10000 4096 = .paged := by decide +kernel
theorem witness_BrineDataCommands_breg_region :
    let d := bregBytes.take 128
    let nd : Need := { r := true, w := true, e := true, write := true, kind := 1 }
    let s1 := a54.afterBC bregS
    let r0 := regionOf d ((bregBytes.drop 128).take 512) [] s1
    r0.tablesBad = false ∧ r0.nblk = 1 ∧ (s1.blocksFrom 0x10000 1 0).any (fun p => p.1 == [⟨8, 0, false⟩] &&
      (p.2.opSpan nd (wordAt d 0x30 + BitVec.ofNat 64 (8 * r0.custn * 4096)) (r0.custn * 4096) 1).isSome &&
      p.2.cachedSet p.2.thr.core p.2.task == some placedSet) = true ∧
    bits (placedSet.seg (bits (wordAt d 0x30).toNat 61 3)).1.toNat 0 56 + bits (wordAt d 0x30).toNat 0 61 = 0x40000 ∧
    bregS.regions = [] ∧ (look r0.id bregS.groupGens).any (fun g => g != 0 && g != r0.gen) = false ∧
    (let r := { r0 with vbase := 0x10000, mbase := 0x20000, cbase := 0x40000, blocks := [⟨8, 0, false⟩] }
     let t := (s1.mapRes fun q => { q with record := none }).oweX 5
     let q := { (t.brineCmd (.bregNew a54) 3 0#64 0#64 0#64) with cand := some r }
     bregS.regionNear r && match State.gather q.who {} true (List.replicate 1 8) r.mbase 0 q ((t.queued q).asTried (.brine q.id)) with
     | .ok p t2 => t2.trying == some (.brine q.id, []) && (numsOf 8 1 p.got).all fun w => decide (w ≤ 2 ^ 57)
     | _ => false) = true := by decide +kernel
theorem witness_BrineDataCommands_breg_load (k : Nat) :
    ((reg1 :: bregS.regions).map fun e => e.blocks.countP fun b => b.cl == k).foldl (· + ·) 0 ≤ 16384 := by
  have h : ∀ l : List RBlock, l.countP (fun b => b.cl == k) ≤ l.length := fun l => List.countP_le_length
  exact Nat.le_trans (Nat.le_of_eq (Nat.zero_add _)) (Nat.le_trans (h reg1.blocks) (by decide))

/-- Deltas in memory at 0x1000 for block 0 of RID 3. -/
def baddS : State := { setX top [(4, 0x1000#64), (5, 3#64)] with regions := [reg1] }
theorem witness_BrineDataCommands_badd : let s1 := a54.afterABC baddS
    Memory.wf baddS.mem = true ∧ baddS.enabled a54.h = true ∧ baddS.brineIdle = true ∧ baddS.quiet = true ∧ a54.a.ready baddS = true ∧
    a54.readyBC (a54.a.after baddS) = true ∧ s1.noStores = true ∧ selBad (a54.a.val baddS) = false ∧
    baddS.region 3 = some reg1 ∧ 0 < reg1.nblk ∧ (reg1.block 0).bad = false ∧
    s1.opSpan { r := true, e := true } (a54.b.val (a54.a.after baddS) + a54.c.val (a54.b.after (a54.a.after baddS))) (max 4 (4 * reg1.elems)) 4 =
      some 0x1000 := by decide +kernel
theorem witness_BrineDataCommands_badd_places :
    let j := (a54.afterABC baddS).joinTag
    let q := { (j.2.brineCmd (.badd a54) 3 3#64 0x1000#64 0#64) with join := j.1 }
    (match State.gather q.who {} false (lineParts 40 0x1000 (4 * reg1.elems)) 0x1000 0 q ((j.2.queued q).asTried (.brine q.id)) with
     | .ok p t2 => t2.trying == some (.brine q.id, []) && baddS.regionNear reg1 && !p.gotBad && (t2.blockAt reg1 0).any fun p => !p.2.poisoned p.1 4096
     | _ => false) = true := by decide +kernel
/-- One block of estimates in each type. -/
theorem witness_BrineDataCommands_brd : ∀ t ∈ [Ty.b16, .f32, .f8], let x : Args := ⟨h0, r 5, r 4, im 1⟩
    let s := { setX top [(4, 3#64), (5, 0x1000#64)] with regions := [reg1] }
    let s1 := x.afterABC s
    let z := brdSize t (s1.elemsAt 3)
    let j := s1.joinTag
    let q := { (j.2.brineCmd (.brd t x) 3 0x1000#64 3#64 1#64) with join := j.1 }
    s.enabled x.h = true ∧ x.a.ready s = true ∧ x.readyBC (x.a.after s) = true ∧ s1.noStores = true ∧
    selBad (x.b.val (x.a.after s)) = false ∧ s.region 3 = some reg1 ∧
    s1.opSpan { w := true, e := true, write := true, kind := 1 } (x.a.val s) (1 * z)
      (if t = .f32 then 4 else if t = .b16 then 2 else 64) = some 0x1000 ∧
    (match State.findSpan q.who nEngWrite (lineParts 80 0x1000 (brdSize t reg1.elems)) 0x1000 ((j.2.queued q).asTried (.brine q.id)) with
     | .ok ls t2 => t2.trying == some (.brine q.id, []) && s.regionNear reg1 && ls.all (fun p => match p.1 with | .mem a _ _ _ => !t2.chanWaits a | _ => false) &&
        (t2.blockAt reg1 0).any fun p => !p.2.poisoned p.1 4096
     | _ => false) = true := by decide +kernel
/-- A send of block 0 to member 1. -/
theorem witness_BrineDataCommands_bstep :
    let x : Args := ⟨h0, r 5, r 4, im 1⟩
    let s1 := x.afterBC brnS
    let t := (s1.oweX x.a.rix).queued (s1.brineCmd (.bstep x) 3 0#64 3#64 1#64)
    Memory.wf brnS.mem = true ∧ brnS.enabled x.h = true ∧ x.readyBC brnS = true ∧ x.a.free s1 = true ∧ s1.noStores = true ∧
    selBad (x.b.val brnS) = false ∧ brnS.region 3 = some reg1 ∧ 0 < reg1.nblk ∧ 1 ≠ reg1.self ∧ reg1.valid 1 = true ∧
    reg1.roundHold = false ∧ (reg1.block 0).bad = false ∧ entLocal (reg1.table.getD 1 0#64) = true ∧
    brnS.regionNear reg1 = true ∧ (t.blockAt reg1 0).any (fun p => !p.2.poisoned p.1 4096 && (p.2.freeCust reg1 (reg1.block 0).cl 1).isSome) = true := by decide +kernel

/-- x4 and x6 hold two values. -/
def s46 (b c : Word) : State := setX top [(4, b), (6, c)]
theorem witness_SystemTablesAndMap : (∀ s ∈ [s46 0x100 0, s46 511 0, s46 511 1], s.isThere = true ∧ s.enabled abc.h = true ∧
      abc.readyBC s = true ∧ (abc.afterBC s).noStores = true ∧ abc.a.free (abc.afterBC s) = true) ∧
    (abc.b.val (s46 0x100 0)).toNat % 4 = 0 ∧ (abc.c.val (abc.b.after (s46 0x100 0))).toNat % 4 = 0 := by decide +kernel
theorem witness_SystemTablesAndMap_tlb : (abc.b.val (s46 511 0)).toNat < 512 ∧
    (tlbSel (abc.c.val (abc.b.after (s46 511 0)))).isSome = true ∧
    (abc.c.val (abc.b.after (s46 511 1))).toNat ≤ (s46 511 1).tgen.toNat ∧
    [TlbScope.clu, .dev].all (fun sc => !(s46 511 1).genBusy (scopeClusters sc 511) 1) = true := by decide +kernel
/-- A dead core, and the spare at (30, 14). -/
theorem witness_SystemTablesAndMap_map :
    let s := { setX top [(4, 3#64), (6, 30 * 32 + 14)] with coreMap := [(3, (.dead, 3, 0))] }
    s.isThere = true ∧ s.enabled abc.h = true ∧ abc.readyBC s = true ∧ (abc.afterBC s).noStores = true ∧
    abc.a.free (abc.afterBC s) = true ∧ (abc.c.val (abc.b.after s)).toNat < 0x800 ∧ (s.mapEntry 3).1 = .dead ∧
    (s.spareAt (posDie (s.mapEntry 3).2.1 (s.mapEntry 3).2.2) (bits (abc.c.val (abc.b.after s)).toNat 5 6)
      (bits (abc.c.val (abc.b.after s)).toNat 0 5)).isSome = true := by decide +kernel
/-- A hearth core, and the last core. -/
theorem witness_SystemTablesAndMap_dead :
    (∀ s ∈ [top, setX top [(4, 2047#64)]], (abc.b.after s).noStores = true ∧ abc.a.free (abc.b.after s) = true ∧
      (abc.b.val s).toNat < Config.nCores ∧ s.waiters = []) ∧
    isHearth 0 = true ∧ isHearth 2047 = false ∧ top.thr.core ≠ 2047 ∧ top.attached 2047 = [] := by decide +kernel
theorem witness_SystemTablesAndMap_registers : (∀ k ∈ [0, 0x11, 0xF3], sysRegAssigned k = true) ∧
    (∀ k ∈ [0x20, 0x22, 0x23, 0xF0], sysRegWritable k = true ∧ slowReg k = false) ∧
    (∀ k ∈ [0, 3, 0x40, 0x41, 0x42, 0x80, 0x8F, 0xE0, 0xE1], sysRegWritable k = true ∧ slowReg k = true) ∧
    (∀ s ∈ [setX top [(4, 2047#64), (5, 400#64), (6, 0xF0#64)], setX top [(5, 1250#64), (6, 0#64)]], s.isThere = true ∧
      s.enabled abc.h = true ∧ abc.a.ready s = true ∧ abc.readyBC (abc.a.after s) = true ∧ (abc.afterABC s).noStores = true ∧
      (abc.b.val (abc.a.after s)).toNat < Config.nCores) := by decide +kernel

/-- A thread of core 5 that `brk` has dropped. -/
def dropT : Thread := { usr.thr with
  core := 5, slot := none, place := .line 1, wait := .dropped ⟨cDBG, 0x30000#64⟩, ctx := { usr.thr.ctx with cxa := 0x30000#64 } }
theorem witness_SystemThreadsAndWalks_wakes :
    let page := setX top [(4, 1#64), (6, 0x0000000000030001#64)]
    let thr := setX top [(4, 5#64), (6, 0x0000000000030004#64)]
    (∀ s ∈ [page, thr], s.isThere = true ∧ s.enabled abc.h = true ∧ abc.readyBC s = true ∧ (abc.afterBC s).noStores = true ∧
      abc.a.free (abc.afterBC s) = true ∧ bits (abc.c.val (abc.b.after s)).toNat 56 8 = 0 ∧
      bits (abc.c.val (abc.b.after s)).toNat 13 3 = 0) ∧
    (abc.c.val (abc.b.after page)).extractLsb' 0 8 = cPGF ∧ (abc.c.val (abc.b.after thr)).extractLsb' 0 8 = cMCK ∧
    page.bandCores 0 1#64 ≠ [] ∧ page.bandCores 0 0#64 = [] ∧ (abc.b.val thr).toNat < Config.nCores := by decide +kernel
/-- `wkx.end` finds a dropped thread, and none; `evict` finds a thread that no slot holds. -/
theorem witness_SystemThreadsAndWalks_threads :
    let s := { setX top [(4, 5#64), (6, 0x30000#64)] with pool := [dropT] }
    let none' := setX top [(4, 5#64), (6, 0x30000#64)]
    s.isThere = true ∧ s.enabled abc.h = true ∧ abc.readyBC s = true ∧ (abc.afterBC s).noStores = true ∧
    abc.a.free (abc.afterBC s) = true ∧ s.findThr 5 (abc.c.val (abc.b.after s)) = some dropT ∧ dropT.isDropped = true ∧
    s.thr.isAt 5 0x30000#64 = false ∧ s.threads.countP (Thread.isAt 5 0x30000#64) = 1 ∧
    dropT.ctx.st.extractLsb' 32 16 = 0#16 ∧ s.findPop dropT.popIx = none ∧ none'.findThr 5 0x30000#64 = none ∧
    dropT.slot = none ∧ dropT.pinC = false ∧ dropT.pinG = false ∧ dropT.place ≠ .record ∧
    ((abc.afterBC s).recordOf dropT).isSome = true := by decide +kernel
/-- An empty slot, and slot 6 of core 5 with its only thread. -/
theorem witness_SystemThreadsAndWalks_preempt :
    let t := { dropT with slot := some 6, wait := .ready }
    let s := { setX top [(4, 5#64), (6, 6#64)] with pool := [t] }
    s.isThere = true ∧ s.enabled abc.h = true ∧ abc.readyBC s = true ∧ (abc.afterBC s).noStores = true ∧
    abc.a.free (abc.afterBC s) = true ∧ (abc.b.val s).toNat < Config.nCores ∧ (abc.c.val (abc.b.after s)).toNat < 7 ∧
    s.thr.core ≠ 5 ∧ s.attached 5 = [t] ∧ (s.attached 5).find? (fun t => decide (t.slot = some 6)) = some t ∧
    t.pinG = false ∧ (s.attached 5).find? (fun t => decide (t.slot = some 5)) = none := by decide +kernel
theorem witness_SystemThreadsAndWalks_walks :
    let e : MboxEntry := { idx := 15, task := 7#16, user := true, kind := 1, page := 5, stale := false, staleL := false, taken := true }
    let s := (setX top [(4, 15#64), (6, leaf0 0x50000)]).setCore 0 fun c => { c with mbox := [e] }
    s.isThere = true ∧ s.enabled abc.h = true ∧ abc.readyBC s = true ∧ (abc.afterBC s).noStores = true ∧
    (s.core 0).mbox.find? (fun m => m.idx == bits (abc.b.val s).toNat 0 4) = some e ∧ s.walkers 0 15 = [] ∧
    abc.b.val s &&& 0xFFFFFFFFFFFFFEF0#64 = 0#64 ∧ wellFormedLeaf (abc.c.val (abc.b.after s)) false = true ∧
    lfV (leaf0 0x50000) = true ∧ lfP (leaf0 0x50000) = true ∧ (abc.b.val s).toNat < 16 ∧ (abc.b.after s).noStores = true := by
  decide +kernel
/-- A hearth core and the last core; partition 7, of no core and of the only working core that cluster 0 has left. -/
theorem witness_SystemThreadsAndWalks_halts :
    let x : Args := ⟨h0, r 5, r 4, .absent⟩
    let p0 := setX top [(4, 7#64)]
    let p1 := ((({ p0 with coreMap := [(64, (.dead, 0, 1)), (65, (.dead, 1, 1))] } : State).writeMem (64 * 7) [1#8]).setCore 1
      fun c => { c with halted := true, cmpart := 0x41176#64 })
    (∀ s ∈ [top, setX top [(4, 2047#64)], p0, p1], s.isThere = true ∧ s.enabled x.h = true ∧ x.readyBC s = true ∧
      (x.afterBC s).noStores = true ∧ (x.b.after s).noStores = true ∧ x.a.free (x.b.after s) = true ∧
      (x.b.val s).toNat < Config.nCores) ∧ (x.b.val p0).toNat < 8 ∧ p0.partCores 7 = [] ∧ p1.partCores 7 = [1] ∧
    (∀ s ∈ [p0, p1], (s.partCores 7).find? (fun n => (s.pswFails n).isSome) = none ∧ s.partBusy 7 = false ∧
      s.thr.core ∉ s.partCores 7 ∧ (s.partCores 7).Nodup) := by decide +kernel

/-- A ring of 64 entries in memory, of queue 5, its HEAD 0. -/
def qWords : List Word := [0x10000#64, 6#64 ||| field 5 8, 0#64, 0#64, 0#64, 0#64, 0#64, 0#64]
def q1 : QSlot := { slot := 3, desc := 0x2000#64, rbase := 0x10000#64, word8 := 6#64 ||| field 5 8, head := 0, st := .idle, err := 0, miss := false, ser := 1 }
/-- That queue in slot 3 of die 0, and 2 entries rung. -/
def qS (q : QSlot) : State := { top.setDie 0 fun d => { d with slots := [q] } with bells := [(5, 2#64)], rdyd := 0xFF#64 }
theorem witness_QueueInstructions_map :
    let s := (setX top [(4, 0x2000#64)]).writeMem 0x2000 (qWords.map fun w => leBytes 8 w.toNat).flatten
    let w := wordsOfBytes 8 (s.readMem 0x2000 64)
    Memory.wf s.mem = true ∧ s.isThere = true ∧ s.enabled abc.h = true ∧ abc.b.ready s = true ∧ (abc.b.after s).noStores = true ∧
    abc.a.free (abc.b.after s) = true ∧ (abc.b.val s).toNat % 64 = 0 ∧ s.chanWaits 0x2000 = false ∧
    s.homeDead (home0 0x2000) = false ∧ s.poisoned 0x2000 64 = false ∧ w = qWords ∧ descFault s.myDie w = none ∧
    (∀ e ∈ [0, 1, 2, 3], ∀ q ∈ (s.die e).slots, q.qid ≠ bits (w.getD 1 0#64).toNat 8 12) ∧
    freshFrom ((s.die s.myDie).slots.map (·.slot)) 0 64 = some 0 := by decide +kernel
/-- A slot that holds a queue, and one that holds none. -/
theorem witness_QueueInstructions_slots : (∀ s ∈ [setX (qS q1) [(4, 3#64)], setX (qS { q1 with st := .error }) [(4, 3#64)]],
      Memory.wf s.mem = true ∧ s.isThere = true ∧ s.enabled abc.h = true ∧ abc.b.ready s = true ∧
      (abc.b.after s).noStores = true ∧ abc.a.free (abc.b.after s) = true ∧ (abc.b.val s).toNat < 64 ∧ s.quiet = true ∧
      abc.c.ready (abc.b.after s) = true ∧ abc.a.free (abc.afterBC s) = true) := by decide +kernel
theorem witness_QueueInstructions_slot : let s := qS q1
    s.qslot 0 3 = some q1 ∧ q1.wave = none ∧ s.chanWaits 0x2000 = false ∧ s.homeDead (home0 0x2000) = false ∧
    s.poisoned 0x2000 64 = false ∧ s.badTail q1 = false ∧ s.qslot 0 63 = none ∧ s.msixMasked 2047 = true ∧
    ({ s with msix := [(2047, (0#64, 0#64))] } : State).msixMasked 2047 = false := by decide +kernel
theorem witness_QueueInstructions_switch :
    let s := (setX (qS q1) [(4, 3#64), (6, 0x3000#64)]).writeMem 0x3000 (qWords.map fun w => leBytes 8 w.toNat).flatten
    let s2 := s.unmapQ 0 q1
    let w := wordsOfBytes 8 (s2.readMem 0x3000 64)
    abc.c.ready (abc.b.after s) = true ∧ (abc.c.val (abc.b.after s)).toNat % 64 = 0 ∧ s.chanWaits 0x3000 = false ∧
    s.homeDead (home0 0x3000) = false ∧ s.poisoned 0x3000 64 = false ∧ s.qslot 0 3 = some q1 ∧ s.quiet = true ∧
    descFault 0 w = none ∧ (∀ e ∈ [0, 1, 2, 3], ∀ q ∈ (s2.die e).slots, q.qid ≠ bits (w.getD 1 0#64).toNat 8 12) := by decide +kernel
theorem witness_QueueInstructions_signal :
    let s := setX top [(4, 0x1000#64), (6, 1#64)]
    (abc.b.val s).toNat % 8 = 0 ∧ (abc.afterBC s).settled .dev none = true ∧
    (match (abc.afterBC s).locate ⟨s.thr.core, 0#16, true⟩ (nAmo false) 0x1000 8 with
     | .loc (.mem a h _ _) t => !t.chanWaits a && !t.homeDead h && !t.poisoned a 8 && s.unwatched a 8
     | _ => false) = true := by decide +kernel
/-- A LAUNCH of one thread on core 3, quota 1. -/
def lnchWords : List Word := [1#64, 0x1000#64, field 1 40 ||| 1#64, 0x10003#64] ++ List.replicate 12 0#64
theorem witness_QueueInstructions_launch :
    let bs := (lnchWords.map fun w => leBytes 8 w.toNat).flatten
    let s := { (setX top [(4, 0x4000)]).writeMem 0x4000 bs with rdyc := [0, 1] }
    let a := (a54.ea s).toNat
    let w := wordsOfBytes 16 (s.readMem a 128)
    let l := s.launchOf w
    a54.readyBC s = true ∧ (a54.afterBC s).noStores = true ∧ a54.a.free (a54.afterBC s) = true ∧
    (a54.afterBC s).destFree 6 false = true ∧ s.thr.res.launch = none ∧ a % 128 = 0 ∧ a + 128 ≤ Config.physEnd ∧
    s.chanWaits a = false ∧ s.homeDead (home0 a) = false ∧ s.poisoned a 128 = false ∧
    (w.getD 0 0#64).toNat % 256 = 1 ∧ (commandOf w).cmdOk = true ∧ l.bad = false ∧ l.named = [3] ∧ bootDie 3 = s.myDie ∧
    s.homeDead 3 = false ∧ s.rdyc.contains (s.coreCluster 3) = true ∧ s.doneTrap l.task s.thr.core l.desc.done = none ∧
    l.shape = 0 ∧ s.waveNear l = true ∧ (s.attached 3).length + l.desc.quota ≤ 4096 := by decide +kernel

/-- A command of one entry at the head. -/
def qCmd (op : Nat) (a v : Word) : QSlot :=
  { q1 with st := .run, started := true, words := [BitVec.ofNat 64 op, a, v, 5#64, 0#64, 0#64, 0#64, 0#64] }
/-- The place of a queue's address in memory meets the conditions. -/
def qAt (q : QSlot) (nd : Need) : Bool :=
  match ((qS q).asTried (.queue 0 3)).qplace 0 q nd q.addr with
  | some (.mem a h _ _, t) => !t.chanWaits a && !t.homeDead h && !t.poisoned a 8
  | _ => false
theorem witness_QueueCommands_counters :
    let sg := qCmd 2 0x1000#64 7#64
    let mk := qCmd 5 0x1000#64 7#64
    let mh := qCmd 5 (BitVec.ofNat 64 Config.hostBase) 7#64
    let w0 := qCmd 3 0x1000#64 0#64
    let w1 := qCmd 3 0x1000#64 1#64
    (∀ q ∈ [sg, mk, mh, w0, w1], Memory.wf (qS q).mem = true ∧ (qS q).qslot 0 3 = some q ∧ (qS q).stokes 0 = true ∧ q.st = .run ∧ q.started = true ∧
      (qS q).quiet = true) ∧
    sg.op = 2 ∧ qAt sg (nAmo false) = true ∧ mk.op = 5 ∧ qAt mk nStore = true ∧
    (((qS mh).asTried (.queue 0 3)).qplace 0 mh nStore mh.addr).any (fun p => match p.1 with | .host _ => true | _ => false) = true ∧
    (∀ w ∈ [w0, w1], w.op = 3 ∧ qAt w nWtw = true) ∧ w0.value.toNat = 0 ∧ w1.value.toNat = 1 := by decide +kernel
/-- A fence that a population of the queue holds, and one that is clear. -/
theorem witness_QueueCommands_fence :
    let q := qCmd 6 0#64 0#64
    let b := { q with st := .block }
    let p : Pop := { ix := 1, handle := 1#64, task := 0#16, pc := 0#64, seeds := [], count := 1, quota := 1, cores := [3], cursor := 0, arena := 0#64, done := 0#64, tixb := 0, live := 1, shape := 0, complete := false, heldAt := none, lastCore := 3, queue := some 5 }
    q.op = 6 ∧ (qS q).qslot 0 3 = some q ∧ (qS q).fenceClear q = true ∧ ({ qS q with pops := [p] } : State).fenceClear q = false ∧
    b.st = .block ∧ b.op = 6 ∧ (qS b).qslot 0 3 = some b ∧ (qS b).fenceClear b = true := by decide +kernel
/-- A deadline that is armed and one that arms; one that is met, and one whose time is over. -/
theorem witness_QueueCommands_deadline :
    let q := qCmd 4 0x1000#64 7#64
    let armed (v n : Nat) : QSlot := { q with dl := some ⟨0x1000#64, BitVec.ofNat 64 v, n, 0#64, some (0x1000, 3), 1, false, false⟩ }
    q.op = 4 ∧ (qS q).qslot 0 3 = some q ∧ (((qS q).asTried (.queue 0 3)).armQ 0 q q.addr q.value 5).any (fun p => p.2.trying == some (.queue 0 3, [])) = true ∧ (armed 7 5).dl.isSome = true ∧
    (armed 7 5).st = .run ∧ (∀ u ∈ (armed 0 5).dl, (qS (armed 0 5)).deadlineMet u = true) ∧
    (∀ u ∈ (armed 7 0).dl, (qS (armed 7 0)).deadlineMet u = false ∧ u.left ((qS (armed 7 0)).die 0).cyc = 0) := by decide +kernel
theorem witness_QueueCommands_launch :
    let q : QSlot := { q1 with st := .run, started := true, words := lnchWords }
    let s : State := { qS q with rdyc := [0, 1] }
    let l := s.launchOf q.words
    s.qslot 0 3 = some q ∧ q.op = 1 ∧ q.wave = none ∧ q.task = 0#16 ∧ l.bad = false ∧ l.named = [3] ∧ bootDie 3 = 0 ∧ s.waveNear l = true ∧
    s.homeDead 3 = false ∧ s.rdyc.contains (s.coreCluster 3) = true ∧ s.doneTrap l.task (hearthOf 0) l.desc.done = none ∧
    s.pops = [] := by decide +kernel
/-- An entry to read, and a command to start. -/
theorem witness_QueueCommands_dispatch :
    let rd : QSlot := { q1 with st := .run }
    let go : QSlot := { qCmd 2 0x1000#64 7#64 with started := false, head := 1 }
    let g := rd.entryAt (rd.head + rd.words.length / 8)
    ((qS rd).die 0).roundRobin.find? (qS rd).canRead = some rd ∧ (qS rd).chanWaits g = false ∧ g + 64 ≤ Config.physEnd ∧
    (qS rd).homeDead (home0 g) = false ∧ (qS rd).poisoned g 64 = false ∧
    ((qS go).die 0).roundRobin.find? (qS go).canRead = none ∧ bestSlot ((qS go).die 0).roundRobin = some go ∧
    go.cmdOk = true := by decide +kernel

/-- A population with nothing left to start. -/
def pop1 : Pop := {
  ix := 1, handle := 1#64, task := 0#16, pc := 0x1000#64, seeds := [0#64, 0#64, 0#64, 0#64], count := 2, quota := 1,
  cores := [3], cursor := 0, arena := 0x50000#64, done := 0#64, tixb := 0, live := 0, shape := 0, complete := false, heldAt := none, lastCore := 3 }
/-- The entry after the ring's last is at HEAD; a BAR2 access of 8 bytes of memory and of a window. -/
theorem witness_HostPortEvents :
    let s : State := { qS q1 with bells := [] }
    let rd : State := { top with hostReads := [⟨1, .pop 1, 16, []⟩, ⟨2, .pop 1, 8, []⟩], pops := [pop1] }
    (let o : HostIn := .write 0x1000 3 0x1000 (leBytes 8 5) false
     ({ s with rdym := [], hostIn := [o] } : State).hostWaits o = true) ∧ s.hostIn = [] ∧
    Memory.wf s.mem = true ∧ s.dieFatal 0 = false ∧ 5 * 4096 % 4096 = 0 ∧ 5 * 4096 < 2 ^ 24 ∧
    (s.die 0).slots.find? (fun q => q.qid == 5) = some q1 ∧ q1.st = .idle ∧ q1.head ≤ 0 ∧ 64 ≤ q1.head + q1.size ∧
    (s.bar2Place 0x1000 8).any (fun p => !s.chanWaits p.1 && !s.homeDead p.2 && !s.poisoned p.1 8) = true ∧ s.quiet = true ∧
    s.ringOpen 0 6 = true ∧ 0x1F / 8 < s.mboxRegs.length ∧ w2baseOk (spliceWord s.w2base 0 8 0#64) = true ∧
    Memory.wf rd.mem = true ∧ rd.dieFatal 0 = false ∧
    rd.hostReads.find? (fun r => r.tag == 1) = some ⟨1, .pop 1, 16, []⟩ ∧
    rd.hostReads.find? (fun r => r.tag == 2) = some ⟨2, .pop 1, 8, []⟩ ∧ rd.findPop 1 = some pop1 := by decide +kernel

/-- A thread of core 5 that waits for a word. -/
def bgT : Thread := { dropT with wait := .fetch }
/-- That thread beside the placed one. -/
def bgS (t : Thread) : State := { top with pool := [t] }
theorem witness_ThreadEvents_slots :
    let skip := { bgT with slot := some 6, wait := .ready, skip := 15 }
    let quan := { skip with skip := 0, turns := 256 }
    let s := (bgS quan).setCore 5 fun c => { c with runq := [{ cxa := 0x40000#64, org := 0#2 }] }
    (bgS bgT).findThr 5 0x30000#64 = some bgT ∧ (bgS skip).findThr 5 0x30000#64 = some skip ∧
    (bgS skip).inSlot 5 6 = some skip ∧ s.findThr 5 0x30000#64 = some quan ∧ s.inSlot 5 6 = some quan ∧
    (s.core 5).runq.any (fun e => !e.cf) = true ∧ 256 ≤ quan.turns := by decide +kernel
/-- A result that is owed; a thread to bind in a line and in the ember store. -/
theorem witness_ThreadEvents_bind :
    let line := { bgT with wait := .ready }
    let ember := { line with place := .ember }
    let rq (t : Thread) := (bgS t).setCore 5 fun c => { c with runq := [{ cxa := 0x30000#64, org := 3#2 }] }
    let owed : State := { bgS line with owed := [⟨5, 0x30000#64, .xreg 4, 7#64, 0#5⟩] }
    owed.findThr 5 0x30000#64 = some line ∧ line.place ≠ .record ∧ owed.owed.length = 1 ∧
    (owed.core 5).dead = false ∧ ((owed.setCore 5 fun c => { c with dead := true }).core 5).dead = true ∧
    (let r := { line with place := .record }
     (bgS r).findThr 5 0x30000#64 = some r ∧ ((bgS r).recordOf r).isSome = true ∧ r.raw = false ∧ r.abroad = []) ∧
    (rq line).findThr 5 0x30000#64 = some line ∧ (rq ember).findThr 5 0x30000#64 = some ember ∧
    [rq line, rq ember].all (fun s => s.canBind 5 && s.chosen 5 == some 0 &&
      (s.slotFor 5 { cxa := 0x30000#64, org := 3#2 }).isSome) = true ∧
    (((rq ember).asTried (.record 5)).takeLine 5).1.isSome = true ∧ (((rq ember).asTried (.record 5)).takeLine 5).2.trying = some (.record 5, []) := by decide +kernel
/-- A fill from the ember store and from the record; a bank that wakes; a segment set that is read. -/
theorem witness_ThreadEvents_fill :
    let emb := { bgT with place := .ember, wait := .fill, fillTo := some 2 }
    let rec0 := { emb with place := .record }
    let bnk := { bgT with wait := .bank 1 }
    let seg := { bgT with wait := .segset }
    let bs := (bgS bnk).setCore 5 fun c => { c with rfpwr := 4#64 }
    (bgS emb).findThr 5 0x30000#64 = some emb ∧ (bgS rec0).findThr 5 0x30000#64 = some rec0 ∧
    ((bgS rec0).recordPlace 5 0#16 0x30000#64).any (fun p => !(bgS rec0).chanWaits p.1 && !(bgS rec0).homeDead p.2 &&
      !(bgS rec0).poisoned p.1 256) = true ∧ (bgS rec0).pageNear ⟨5, 0#16, true⟩ 0x30000 = true ∧
    bs.findThr 5 0x30000#64 = some bnk ∧ (bs.core 5).bank 1 = 1 ∧ (bgS seg).findThr 5 0x30000#64 = some seg ∧
    seg.dropNext = none ∧ rec0.abroad = [] ∧ rec0.raw = false ∧ (bgS seg).chanWaits (top.tskb.toNat) = false := by decide +kernel
/-- A crew that is admitted; a thread that arrives; wakes; a message; a completion add that is tried again. -/
theorem witness_ThreadEvents_arrivals :
    let crew : Pop := { pop1 with shape := 1 }
    let ad := { (top.setCluster 1 fun c => { c with admits := [1] }) with pops := [crew] }
    let hop : State := { top with hops := [{ src := 0, t := { bgT with wait := .ready } }] }
    let wk : State := { bgS { bgT with wait := .park } with wakeReqs := [⟨5, 0x30000#64, 0, 0x10000#64, 1⟩, ⟨5, 0x40000#64, 0, 0x10000#64, 2⟩] }
    let im : State := { top with msgs := [⟨5, 7, ⟨0, 0, 0, 0, 0, 0⟩, none, 0, []⟩] }
    (ad.cluster 1).admits = [1] ∧ ad.findPop 1 = some crew ∧ (ad.cluster 1).groups.length < 32 ∧ ad.memberCores crew ≠ [] ∧
    ((ad.memberCores crew).all fun n => !ad.homeDead n &&
      decide ((ad.attached n).length + (ad.memberCores crew).countP (fun m => m == n) ≤ 4096)) = true ∧
    (State.reserve (ad.memberCores crew) (ad.memberCores crew).eraseDups ad).1 = true ∧
    (∀ h ∈ hop.hops, h.pkt = [] ∧ h.t.core = 5 ∧ hop.mailOrder h.src 5 h.ser = false) ∧
    [1, 2].all (fun n => !({ wk with wakeReqs := wk.wakeReqs.filter fun w => decide (n ≤ w.ser) } : State).mailOrder 0 5 n) = true ∧ hop.hops.length = 1 ∧ hop.homeDead 5 = false ∧ (hop.attached 5).length < 4096 ∧ hop.findThr 5 0x30000#64 = none ∧
    wk.homeDead 5 = false ∧ (wk.findThr 5 0x30000#64).isSome = true ∧ (wk.findThr 5 0x40000#64).isNone = true ∧
    Memory.wf im.mem = true ∧ im.ringOpen 5 7 = true := by decide +kernel
/-- A leaf of the page at 0 that gives level U every right. -/
def leafU : Word := 0xFC00000000000000#64
/-- The add lands in a word of memory that a leaf gives level U. -/
theorem witness_ThreadEvents_doneAdd :
    let p : Pop := { pop1 with task := 7#16, done := 0x1000#64, heldAt := some (0#64, 0#64) }
    let s := (({ (top.setDie 0 fun d => { d with cyc := 4096#64 }) with pops := [p] } : State).setCore 3 fun c =>
      { c with sets := [{ placedSet with task := 7#16 }] }).setCluster 1 fun c => { c with tlb := [⟨7#16, 0, false, leafU⟩] }
    Memory.wf s.mem = true ∧ s.quiet = true ∧ s.findPop 1 = some p ∧ 4096 ≤ (s.now 3 - 0#64).toNat ∧ p.done ≠ 0#64 ∧
    (s.taskSet 3 7#16).gva (nAmo true) p.done 8 = some 0x1000 ∧
    (match (s.asTried (.pop 1)).locateEng ⟨3, 7#16, false⟩ (nAmo true) 0x1000 8 with
     | .loc (.mem a h _ _) _ => !s.chanWaits a && !s.homeDead h && !s.poisoned a 8
     | _ => false) = true := by decide +kernel

/-- A flit at (2, 1) on its way to (3, 1). -/
def flit1 : DFlit := {
  atX := 2, atY := 1, dx := 3, dy := 1, src := 0, ch := false, seq := 0, age := 0, hd := true, tl := true, prt := false, pkt := 1, out := false, via := 2 }
/-- A store of 8 bytes from core 0 to core 5. -/
def req1 : Req := {
  id := 1, src := 0, cxa := 0x10000#64, home := 5, op := .store (List.replicate 8 1#8), addr := coreAddr 5 0x100,
  ea := 0#64, port := 0, gen := 0#32, paged := false, pol := 0, cp := 0, counted := true, tag := 0#16, short := false, delta := 0#16, page := 0, stage := 0, inj := 0, resend := false }
theorem witness_PlaneEvents_routers :
    let s : State := { top with flits := [flit1] }
    let i : State := { top with flight := [req1] }
    (s.flits.filter fun f => f.moving) = [flit1] ∧ (flit1.dx ≠ 2 ∨ flit1.dy ≠ 1) ∧
    (productive 2 1 3 1).head?.any (· < 4) = true ∧ s.coreSender 2 1 = none ∧ s.drifting true 2 1 = none ∧ s.flue = [] ∧
    i.flits = [] ∧ i.coreSender 0 0 = some ⟨1, 0, 5, false, req1.nFlits, 0⟩ ∧ i.drifting true 0 0 = none ∧
    (productive 0 0 (i.homePos 5).1 (i.homePos 5).2).head?.any (· < 4) = true := by decide +kernel
/-- The expected flit, and the ones 1 and 511 ahead. -/
theorem witness_PlaneEvents_ingress :
    let f (n : Nat) : DFlit := { flit1 with out := true, seq := n }
    let s (n : Nat) : State := { top with flits := [f n], flight := [{ req1 with stage := 1 }] }
    [0, 1, 511].all (fun n => !(s n).ingressDead ((s n).flitHome (f n)) && (s n).queueTakes ((s n).flitHome (f n)) && (s n).ahead ((s n).flitHome (f n)) (f n) == n &&
      ((s n).core ((s n).flitHome (f n))).reorder == []) = true := by decide +kernel
/-- A request to a core of this device, and one to the host. -/
theorem witness_PlaneEvents_home : ∀ r ∈ [req1, { req1 with home := hostHome, addr := 0x100 }],
    let s : State := { top with flight := [r] }
    r.stage = 0 ∧ r.short = false ∧ s.reqBehind 0 r = false ∧ s.reqWaits r = false ∧ s.reqFailed r = false ∧ s.hostHold = none ∧ s.homeDead r.home = false ∧ (s.core r.home).nakSrc.contains r.src = false ∧
    (s.findOwed r.src r.cxa).all (fun t => t.place != .record) = true ∧ Memory.wf s.mem = true ∧ s.quiet = true := by decide +kernel
theorem witness_PlaneEvents_answers :
    let nk : State := { bgS bgT with naks := [⟨5, 0x30000#64, true, pDEAD, 0x1000#64, true, .core 3⟩], acks := [⟨0, 5, 1⟩] }
    let st : State := { top with flight := [{ req1 with stage := 3, tag := 9#16 }] }
    Config.physEnd - 8 < Config.physEnd ∧ top.poison.contains 0 = false ∧ (top.die 0).frb = 0#64 ∧ nk.acks.length = 1 ∧
    nk.findThr 5 0x30000#64 = some bgT ∧ bgT.place ≠ .record ∧
    st.flight.find? (fun r => r.src == 0 && r.stage == 3 && r.tag.toNat == 9) = some { req1 with stage := 3, tag := 9#16 } := by
  decide +kernel
/-- A refused wait that is sent again after 256 cycles: its word is full, and it is empty. -/
theorem witness_PlaneEvents_resend :
    let w : Waiter := {
      id := 1, home := 3, kind := .ldc, addr := 0, val := 0#64, src := 5, cxa := 0x30000#64, posted := false,
      reg := 4, ea := 0#64, port := 0, gen := 0#32, paged := false, since := 0#64, remote := none, cp := 0, refused := true, anew := false, woken := none }
    let t : Thread := { bgT with wait := .home, res := { bgT.res with reply := some ⟨.word 4, 0#64, false, 0#16⟩ } }
    let s : State := { ((bgS t).setDie 0 fun d => { d with cyc := 256#64 }) with waiters := [w] }
    let e : State := s.setFullBit 0 false
    w.refused = true ∧ w.anew = false ∧ w.woken = none ∧ w.remote = none ∧ w.posted = false ∧ w.kind ≠ .stp ∧
    [s, e].all (fun s => s.waiters == [w] && decide (256 ≤ (s.now w.home - w.since).toNat) && !s.homeDead w.home &&
      !s.poisoned w.addr 8 && s.findThr 5 0x30000#64 == some t) = true ∧ w.holds s = true ∧ w.holds e = false := by decide +kernel

/-- A page event of a core of band 0. -/
def pgf1 : FlueFlit := {
  atX := 2, atY := 1, dx := 2, dy := 1, src := 5, out := true, goal := .collector, cause := cPGF, band := 0, d0 := 1#64, d1 := 0x1000#64, d2 := 0#64 }
/-- The collector of band 0 holds that event, `n` cycles old. -/
def colS (n : Word) : State := ({ top with flue := [pgf1] } : State).setDie 0 fun d => { d with cyc := n, collect := [(0, [(0#64, pgf1)])] }
theorem witness_FlueEvents : (∀ s ∈ [({ top with flue := [pgf1] } : State), { top with flue := [{ pgf1 with cause := cMCK }] }, colS 0, colS 64],
      Memory.wf s.mem = true ∧ s.homeDead (hearthOf (bandDie 0)) = false ∧ s.ringOpen (hearthOf (bandDie 0)) 7 = true) ∧
    mergesCause cPGF = true ∧ mergesCause cMCK = false ∧
    (top.setCore 0 fun c => { c with inbox := List.replicate 8 (0, 64) }).flueHas { pgf1 with goal := .hearth } = false := by decide +kernel
theorem witness_FlueEvents_collector : (top.die 0).collector 0 = [] ∧ ((colS 0).die 0).collector 0 = [(0#64, pgf1)] ∧
    (((colS 64).die (bandDie 0)).collector 0).length = 1 ∧ 64 ≤ (((colS 64).die (bandDie 0)).cyc - 0#64).toNat := by decide +kernel
theorem witness_FlueEvents_wakes :
    let s : State := { bgS dropT with sysWakes := [⟨5, ⟨cDBG, 0x30000#64⟩, 9, false⟩], wkxs := [⟨9, 0, 0x10000#64, 4, 1, 0⟩] }
    let e : State := { s with sysWakes := [⟨5, ⟨0#8, 0x30000#64⟩, 9, true⟩, ⟨5, ⟨0#8, 0x40000#64⟩, 9, true⟩] }
    ((top.setDie 0 fun d => { d with beatDue := true }).die 0).beatDue = true ∧ (top.beats 0 0).isSome = true ∧ s.sysWakes.length = 1 ∧
    e.findThr 5 0x30000#64 = some dropT ∧ dropT.isDropped = true ∧ e.threads.countP (Thread.isAt 5 0x30000#64) = 1 ∧
    dropT.ctx.st.extractLsb' 32 16 = 0#16 ∧ e.findPop dropT.popIx = none ∧ (e.findThr 5 0x40000#64).any (·.isDropped) = false ∧
    s.findThr 5 0x30000#64 = some dropT ∧ dropT.wait = .dropped ⟨cDBG, 0x30000#64⟩ ∧
    s.wkxs.find? (fun o => o.id == 9) = some ⟨9, 0, 0x10000#64, 4, 1, 0⟩ := by decide +kernel

/-- Port 0 in state `st`, heard from at cycle 0. -/
def prtS (st : BitVec 3) : State := top.setPort 0 fun p => { p with st := st }
/-- The first flit of a packet of two. -/
def flitBytes : List Byte := let b := leBytes 4 0 ++ List.replicate 21 0#8 ++ [2#8] ++ List.replicate 42 0#8
  b ++ leBytes 4 (crc32 b).toNat
/-- A flit whose CRC is wrong and one that goes in; RETRYs, the 16th among them. -/
theorem witness_LinkAndPeerEvents_link :
    let p := (prtS 2).port 0
    let n := { p with retryFor := 8, retries := 15 }
    p.st = 2#3 ∧ p.badFlit [] = true ∧ p.badFlit flitBytes = false ∧ bits (at' flitBytes 0 4) 28 4 = 0 ∧
    1 < at' ((flitBytes.drop 4).take 64) 21 1 ∧ p.partials = [] ∧
    ¬ 16 ≤ (if p.retryFor = (7 + 1) % 4096 then p.retries + 1 else 1) ∧ 16 ≤ (if n.retryFor = (7 + 1) % 4096 then n.retries + 1 else 1) := by
  decide +kernel
theorem witness_LinkAndPeerEvents_state :
    let s := (prtS 2).setDie 0 fun d => { d with cyc := 65536#64 }
    (s.port 0).st ≠ 0#3 ∧ 65536 ≤ ((s.die 0).cyc - (s.port 0).heard).toNat ∧ (s.port 0).replay = [] ∧ (s.port 0).txq = [] ∧
    ((prtS 0).port 0).st = 0#3 ∧ ((prtS 1).port 0).st = 1#3 := by decide +kernel
/-- A WRITE of 8 bytes with the right W; the same on its way to another device; one with a wrong generation. -/
def wrPkt : Pkt := { nrt := 0, nop := 1, rt := [], score := 3, gen := 1, rgt := 3, nfl := 2, ops := [⟨0x02, 1, 0, 8, 0x100, false⟩], data := leBytes 8 5 }
theorem witness_LinkAndPeerEvents_packets :
    let k (p : Pkt) := Pkt.ofBytes p.toBytes
    let via : Pkt := { wrPkt with nrt := 1, rt := [2], ops := [⟨0x02, 2, 0, 8, 0x100, false⟩] }
    let old : Pkt := { wrPkt with gen := 9 }
    let deep : Pkt := { wrPkt with nrb := 6, rb := [1, 2, 3, 4, 5, 6] }
    (k deep).malformed deep.toBytes.length = false ∧ (k deep).isAnswer = false ∧ 5 < (k deep).nrb ∧ (k old).nrb ≤ 5 ∧
    (Pkt.ofBytes []).malformed 0 = true ∧ (k via).malformed via.toBytes.length = false ∧ 0 < (k via).nrt ∧ (k via).nrb ≤ 5 ∧
    (k old).malformed old.toBytes.length = false ∧ (k old).nrt = 0 ∧ (k old).resp = false ∧
    ((k old).ops.all fun o => o.opc == 0x0A) = false ∧ BitVec.ofNat 8 (k old).gen ≠ top.bgen := by decide +kernel
/-- The write lands where the window of the port leads, for the value (0x1000, task 7) of the free window table (log 40). -/
theorem witness_LinkAndPeerEvents_write :
    let k := Pkt.ofBytes wrPkt.toBytes
    let s := top.setCluster 0 fun c => { c with tlb := [⟨7#16, 0, false, leafU⟩] }
    k.malformed wrPkt.toBytes.length = false ∧ k.nrt = 0 ∧ k.nrb ≤ 5 ∧ k.resp = false ∧ k.ops = [⟨0x02, 1, 0, 8, 0x100, false⟩] ∧
    BitVec.ofNat 8 k.gen = s.bgen ∧ 1 = (k.hix + 1) % 8 ∧ bit k.rgt 1 = true ∧ Memory.wf s.mem = true ∧ s.quiet = true ∧
    (∀ o ∈ k.ops, s.area false o.need 0x1100 8 ≠ .none ∧ ((s.asTried (.peer 0)).farParts (farWho 0 7#16) o.need (lineParts 40 0x1100 8) 0x1100).any (fun p =>
      match p.1 with
      | [(.mem a h _ _, 8)] => !s.homeDead h && !s.chanWaits a
      | _ => false) = true) := by decide +kernel
/-- An acknowledgment of a posted store, and one that never comes. -/
theorem witness_LinkAndPeerEvents_answers :
    let q : PortReq := ⟨5, 0x30000#64, true, 0, 0#64, 3, 0, 0x100, 0#64, .thread, 0, false⟩
    let p : Pkt := { nrt := 0, nop := 1, rt := [], resp := true, score := 5, nfl := 1, ops := [⟨0x11, 1, 0, 8, 0x100, false⟩], data := [] }
    let k := Pkt.ofBytes p.toBytes
    let s := ((bgS bgT).setPort 0 fun p => { p with reqs := [q] }).setDie 0 fun d => { d with cyc := 0x100000#64 }
    k.malformed p.toBytes.length = false ∧ k.nrt = 0 ∧ k.resp = true ∧ k.ops.head?.map (·.opc) = some 0x11 ∧
    (s.port 0).reqs.find? k.isFor = some q ∧ s.findThr 5 0x30000#64 = some bgT ∧ bgT.place ≠ .record ∧
    s.portReqs[0]? = some (0, q) ∧ 2 ^ 20 ≤ ((s.die 0).cyc - q.since).toNat := by decide +kernel
theorem witness_LinkAndPeerEvents_timeout :
    let w : Waiter := {
      id := 1, home := 3, kind := .ldc, addr := 0, val := 0#64, src := 5, cxa := 0x30000#64, posted := false,
      reg := 4, ea := 0#64, port := 0, gen := 0#32, paged := false, since := 0#64, remote := some (0, []), cp := 0, refused := false, anew := false, woken := none }
    let s : State := { (top.setDie 0 fun d => { d with cyc := 0x80000#64 }) with waiters := [w] }
    s.waiters[0]? = some w ∧ w.remote = some (0, []) ∧ 2 ^ 19 ≤ (s.now w.home - w.since).toNat := by decide +kernel

/-- A stream command of core 2 over its own scratchpad, of `n` elements. -/
def strCmd (i : Instr) (n : Word) : StreamCmd := {
  core := 2, cxa := 0x10000#64, ins := i, a := 0x0080000000201000#64, b := 0x0080000000200100#64, c := 0x0080000000202000#64, slen := n,
  sstr := 0x010101#64, task := 0#16, lvlH := false, join := none }
/-- That command at the head of core 2's queue. -/
def strS (q : StreamCmd) : State := usr.setCore 2 fun c => { c with streamQ := [q] }
/-- One element, a strip that is not the last, a reduction, a fill. -/
theorem witness_EngineEvents_stream : [strCmd (.vadd .i32 abc) 1, strCmd (.vadd .i32 abc) 65, strCmd (.vsum .f32 abc) 64,
      strCmd (.vfill .f32 abc) 1].all (fun q =>
    (vopOf q.ins).any fun (op, t, x) => Memory.wf (strS q).mem && (strS q).quiet && (strS q).nextStream 1 == some 2 &&
      ((strS q).core 2).streamHead == some q && !q.deadWindow op x (strS q) &&
      (op != .add || (strS q).elemGood q x.b op.roles.2.1 1 0 (op.width t x 1) &&
        (strS q).elemGood q x.c op.roles.2.2 2 0 (op.width t x 2))) = true := by decide +kernel
/-- A block that is packed, and a bad one that is counted with more to come. -/
theorem witness_EngineEvents_grain :
    let pk := strCmd (.gpk .f8 ⟨h0, r 5, r 4, im 10⟩) 48
    let ck := strCmd (.gchk ⟨h0, r 5, r 4, .absent⟩) 96
    let bad := (strS ck).writeMem 0x0080000000200100 [9#8]
    [strS pk, bad].all (fun s => Memory.wf s.mem && s.quiet && s.nextStream 1 == some 2 &&
      ((s.core 2).streamHead.any fun q => (gopOf q.ins).any fun (op, t, x) => !q.deadGrain op s &&
        decide (q.next < op.blocks t x (slenN q.slen)))) = true ∧
    ((strS pk).packSource (vSrcTy ⟨h0, r 5, r 4, im 10⟩) pk.b.toNat 48).2.isNone = true ∧
    (bad.readBlock ck.b.toNat none).1 = .bad ∧ (gopOf ck.ins).any (fun (op, t, x) => decide (1 < op.blocks t x (slenN ck.slen))) = true := by
  decide +kernel
theorem witness_EngineEvents_completion :
    let q := { strCmd (.vadd .i32 abc) 1 with fin := true }
    let ends (p : StreamCmd) : Bool := p.fin && !(strS q).owesTo p.core p.cxa
    ((strS q).clusterCores 1).find? (fun n => ((strS q).core n).streamQ.any ends) = some 2 ∧ ((strS q).core 2).streamQ.find? ends = some q ∧
    q.join = none ∧ (strS q).ringOpen 2 (slenCh q.slen) = true := by decide +kernel
/-- Nobody holds the lease; its holder's term is over; its holder idles while another core asks. -/
theorem witness_EngineEvents_lease :
    let t : Thread := { usr.thr with core := 3, slot := none, wait := .on .lease, ctx := { usr.thr.ctx with cxa := 0x30000#64 } }
    let ask : State := { usr with pool := [t] }
    let held (n : Word) : State := (ask.setCluster 1 fun c => { c with lease := { c.lease with holder := some 2, opened := true } }).setDie 0
      fun d => { d with cyc := n }
    (ask.cluster 1).lease.holder = none ∧ (roundRobin (ask.cluster 1).lease.last (ask.clusterCores 1)).find? ask.requesting = some 3 ∧
    ((held 65536).cluster 1).lease.holder = some 2 ∧ (held 65536).coreCluster 2 = 1 ∧ (held 65536).termOpen 2 = false ∧
    (held 1024).termOpen 2 = true ∧ ((held 1024).core 2).panBusy = false ∧
    ((held 1024).attached 2).all (fun t => decide (t.wait ≠ .on .panQ)) = true ∧
    1024 ≤ ((held 1024).now 2 - ((held 1024).cluster 1).lease.active).toNat ∧ (held 1024).requesting 3 = true := by decide +kernel
/-- A pan command of core 2. -/
def panCmd (i : Instr) (st : PanState) : PanCmd :=
  { core := 2, cxa := 0x10000#64, ins := i, ctl := 0x1A0#64, b := 0x0080000000200100#64, c := 0x0080000000204100#64, task := 0#16, lvlH := false, join := none, st := st }
/-- That command alone in its queue. -/
def panS (q : PanCmd) : State := usr.setCore 2 fun c => { c with panQ := [q] }
theorem witness_EngineEvents_pan : [Instr.mz abc, .mmac .b16 abc, .mld abc, .mst .f32 abc].all (fun i =>
      (poprOf i).isSome && (panS (panCmd i .queued)).panNext 1 == some (panCmd i .queued) &&
      (panS (panCmd i .running)).panRuns 1 == some (panCmd i .running) &&
      (panS (panCmd i .committed)).panEnds 1 == some (panCmd i .committed)) = true ∧
    usr.homeDead (windowOf 0x0080000000200100) = false ∧ usr.unitPoisoned false 0x0080000000200100 = false ∧
    usr.ringOpen 2 (ctlCh 0x1A0#64) = true ∧
    (List.range (ctlKb 0x1A0#64)).findSome? (usr.mmacFault .b16 (ctlKb 0x1A0#64) 0x0080000000200100 0x0080000000204100) = none := by
  decide +kernel

/-- A copy of core 2 at its first element. -/
def cpySlot (k : CopyKind) (st : CopyState) : CopySlot := {
  slot := 3, gen := 1, st := st, task := 0#16, lvlH := true, kind := k, src := 0x1000#64, dst := 0x2000#64, esz := 3, dims := [(4, 1, 1)],
  count := 32, next := 0, code := 0, d1 := 0#64, d2 := 0#64, chan := 5, tag := 0#32, flag := 0x3000#64, flgv := 1#64, flgop := true,
  pattern := 7#64, cp := 0, join := none, cxa := 0x10000#64, heldAt := 0#64, raisedAt := 0#64 }
/-- That copy in its slot, at cycle 4096. -/
def slotS (c : CopySlot) : State := (top.setCore 2 fun e => { e with copies := [c] }).setDie 0 fun d => { d with cyc := 4096#64 }
/-- The copy can run its next element: in a linear copy, a shape and a fill, for the first time and again. -/
theorem witness_CopyEvents_elements : [CopyState.run, .hold].all (fun st =>
    [CopyKind.fillFull, .fillEmpty, .mke, .mkf].all (fun k => let c := cpySlot k st
      (slotS c).copySlot 2 3 == some c && (match ((slotS c).asTried (.copy 2 3)).locateEng (c.who 2) (nCopyDst (k == .fillFull)) 0x2000 8 with
        | .loc (.mem a h _ _) t => !t.chanWaits a && !t.homeDead h
        | _ => false)) &&
    [CopyKind.shape, .linear].all (fun k => let c := cpySlot k st
      (slotS c).copySlot 2 3 == some c && (match ((slotS c).asTried (.copy 2 3)).locateEng (c.who 2) nCopySrc c.places.1 c.size with
        | .loc (.mem a h pg lf) t => !t.chanWaits a && !t.homeDead h && !t.poisoned a c.size &&
          (let t1 := if pg then t.touchL2 h a (effPolicy lf c.cp) false else t
           match ({ t1 with serial := t.serial + c.size } : State).locateEng (c.who 2) (nCopyDst true) c.places.2 c.size with
           | .loc (.mem b g _ _) v => !v.chanWaits b && !v.homeDead g
           | _ => false)
        | _ => false))) = true := by decide +kernel
theorem witness_CopyEvents_state : [cpySlot .linear .queued, cpySlot .linear .hold, cpySlot .linear .close].all (fun c =>
      Memory.wf (slotS c).mem && (slotS c).quiet && !((slotS c).core 2).dead && decide (c.next < c.count) &&
      decide (4096 ≤ ((slotS c).now 2 - c.heldAt).toNat) && decide (((slotS c).now 2 - c.raisedAt).toNat < 2 ^ 20) &&
      (slotS c).ringOpen 2 c.chan.toNat && c.pend == 0) = true ∧
    ((slotS (cpySlot .linear .queued)).core 2).copies.find? (fun c => c.st == .queued) = some (cpySlot .linear .queued) := by
  decide +kernel
/-- A page that is not there, one that the port has to walk, and a flag that is added. -/
theorem witness_CopyEvents_pageAndFlag :
    let c := { cpySlot .fillFull .run with task := 7#16 }
    let s := (slotS c).setCluster 1 fun k => { k with tlb := [⟨7#16, 0, false, 0x8000000000000000#64⟩] }
    let f := cpySlot .linear .flag
    s.copySlot 2 3 = some c ∧ (match (s.asTried (.copy 2 3)).locateEng (c.who 2) (nCopyDst true) 0x2000 8 with | .fail (.pgf _) => true | _ => false) = true ∧
    (match ((slotS c).asTried (.copy 2 3)).locateEng (c.who 2) (nCopyDst true) 0x2000 8 with | .miss _ => true | _ => false) = true ∧
    ((slotS c).postMiss (c.who 2) 1 0x2000).isSome = true ∧
    f.pend = 0 ∧ f.flagSent = false ∧ (match ((slotS f).asTried (.copy 2 3)).locateEng (f.who 2) (nCopyDst true) (bits f.flag.toNat 0 63) 8 with
      | .loc (.mem a h _ _) t => !t.chanWaits a && !t.homeDead h && !t.poisoned a 8
      | _ => false) = true := by decide +kernel
theorem witness_CopyEvents_record :
    let t : Thread := { bgT with wait := .home, res := { bgT.res with fill := some ⟨0x3000, 0x3000#64, recBytes.take 128, [(some (0x3080, 1), 128)], true, none⟩ } }
    (bgS t).findThr 5 0x30000#64 = some t ∧ t.res.reply = none ∧ ((bgS t).fillRest [(some (0x3080, 1), 128)]).any (fun r =>
      match r with | .ok _ => true | .error _ => false) = true := by decide +kernel

/-- That region paced by steps of 1,024 cycles, at cycle 2048. -/
def swpS (r : Region) : State := { (top.setDie 0 fun d => { d with cyc := 2048#64 }) with regions := [r] }
/-- A sweep that is held, and one that sends block 0 to member 1. -/
theorem witness_BrineEvents_sweep : [{ reg1 with hold := true, sper := 1 }, { reg1 with sper := 1 }].all (fun r => let s := swpS r
      Memory.wf s.mem && s.quiet && s.brineIdle && s.roundRegion 3 == some r && s.regionNear r && r.committed && r.sper != 0 &&
      decide (r.sper * 1024 ≤ (s.now r.core - r.stepped).toNat) && (s.custOf 3).isEmpty) = true ∧
    (let r := { reg1 with sper := 1 }
     r.nblk = 1 ∧ r.maxMode = false ∧ r.rotaAt 0 ≠ r.self ∧ r.valid (r.rotaAt 0) = true ∧ (r.block 0).bad = false ∧
      entLocal (r.table.getD (r.rotaAt 0) 0#64) = true ∧ ((swpS r).blockAt r 0).any (fun p => !(swpS r).poisoned p.1 4096) = true ∧
      ((swpS r).freeCust r (r.block 0).cl (r.rotaAt 0)).isSome = true) := by decide +kernel
/-- A half from member 1 for block 0: new, and known already. -/
def half1 : Half := { id := 5, gen := 1, frm := 1, frmRid := 4, ver := 1, rid := 3, target := 0, blk := 0, seq := 1, cluster := 8, w := 10, copy := false, vals := List.replicate 512 1#64, remote := none, owner := none }
theorem witness_BrineEvents_half :
    let s : State := { top with regions := [reg1], halves := [half1] }
    let known := s.setCluster 8 fun c => { c with windows := [⟨3, 1, 8, 0, 1, 1#64⟩] }
    [s, known].all (fun s => Memory.wf s.mem && s.quiet && s.brineIdle && s.roundRegion half1.rid == some reg1 && s.regionNear reg1) = true ∧
    reg1.committed = true ∧ reg1.id = half1.id ∧ reg1.gen = half1.gen ∧ reg1.ver = half1.ver ∧ reg1.valid half1.frm = true ∧
    half1.blk < reg1.nblk ∧ reg1.maxMode = false ∧ (known.window (reg1.block 0).cl reg1.rid 1 8 (reg1.epoch 1 1)).has 1 = true ∧
    (s.window (reg1.block 0).cl reg1.rid 1 8 (reg1.epoch 1 1)).has 1 = false ∧ (reg1.block 0).bad = false ∧ 0 < reg1.blocks.length ∧
    (s.blockAt reg1 0).any (fun p => !s.poisoned p.1 4096) = true := by decide +kernel
/-- Custody of a half that was sent to member 1. -/
def cust1 : CustSlot := { slot := 0, rid := 3, blk := 0, target := 1, seq := 1, sentW := 500, rcl := false, resends := 0, since := 0#64, owner := none, sweep := false, vals := [], ser := 0 }
theorem witness_BrineEvents_answers : [BrineAns.ack, .nak pDEAD.toNat, .nak 0, .applied, .void].all (fun e =>
    let a : BAnswer := ⟨3, 8, 1, 1, e, 0⟩
    let s : State := { (top.setCluster 8 fun c => { c with custody := [cust1] }) with regions := [reg1], answers := [a] }
    Memory.wf s.mem && s.quiet && s.brineIdle && !s.answerAhead 0 a && s.custFor a == some cust1 && s.roundRegion a.rid == some reg1 && s.regionNear reg1) = true ∧
    cust1.rcl = false ∧ entLocal (reg1.table.getD cust1.target 0#64) = true ∧ cust1.blk < reg1.blocks.length ∧ reg1.maxMode = false := by
  decide +kernel
/-- A slot that is sent again, and one that recalls. -/
theorem witness_BrineEvents_timers : [cust1, { cust1 with resends := 15 }].all (fun c =>
    let s : State := { ((top.setCluster 8 fun k => { k with custody := [c] }).setDie 0 fun d => { d with cyc := 1024#64 }) with regions := [reg1] }
    Memory.wf s.mem && s.quiet && (s.cluster 8).custody[0]? == some c && s.roundRegion c.rid == some reg1 && s.regionNear reg1 &&
      decide (reg1.tout * 1024 ≤ (s.nowAt 8 - c.since).toNat) && (decide (c.resends < reg1.retry) || decide (reg1.retry ≤ c.resends))) = true := by
  decide +kernel
theorem witness_BrineEvents_recall :
    let s : State := { top with regions := [reg1], recalls := [⟨5, 1, 1, 1, 4, 3, 0, 0, 8, 1, none, 0⟩, ⟨5, 2, 1, 1, 4, 3, 0, 0, 8, 1, none, 0⟩] }
    Memory.wf s.mem = true ∧ s.quiet = true ∧ s.region 3 = some reg1 ∧ reg1.id = 5 ∧ reg1.gen = 1 ∧
    0 < sintOf 32 (1 + 2 ^ 32 - (s.window (reg1.block 0).cl reg1.rid 1 8 (reg1.epoch 1 1)).high) := by decide +kernel
/-- A round that creates the region; a proposal of member `i`. -/
def prop1 (i : Nat) : Proposal := { id := 5, gen := 1, frm := i, rid := 3, cseq := 7, op := .create, idx := 0, ver := 1, bheld := 0, mask := 3#64 }
def rnd1 : Round := { rid := 3, cseq := 7, op := .create, idx := 0, entry := 0#64, joiner := false, ver := 0, next := 0, held := [prop1 0], sent := true, since := 0#64, owner := 0 }
/-- That round, at cycle 1024. -/
def rndS (d : Round) (p : Proposal) : State := { (top.setDie 0 fun e => { e with cyc := 1024#64 }) with
  regions := [reg1], rounds := [d], proposals := [p], states := [(3, [prop1 0, prop1 1])] }
/-- The last proposal, and one before the last (a table of three members). -/
theorem witness_BrineEvents_rounds :
    let s := rndS rnd1 (prop1 1)
    let reg3 : Region := { reg1 with table := reg1.table.set 2 (reg1.table.getD 1 0#64) }
    let ps := (rnd1.held ++ [prop1 1]).filter fun e => (rnd1.parts reg1).contains e.frm
    Memory.wf s.mem = true ∧ s.quiet = true ∧ s.rounds = [rnd1] ∧ s.brineQ = [] ∧ s.proposals[0]? = some (prop1 1) ∧
    s.roundRegion 3 = some reg1 ∧ reg1.id = (prop1 1).id ∧ reg1.gen = (prop1 1).gen ∧ rnd1.sent = true ∧
    rnd1.held.all (fun e => e.frm != 1) = true ∧ (rnd1.parts reg3).any (fun i => (rnd1.held ++ [prop1 1]).all fun e => e.frm != i) = true ∧
    (rnd1.parts reg1).all (fun i => (rnd1.held ++ [prop1 1]).any fun e => e.frm == i) = true ∧ rnd1.agree ps = true ∧
    ([prop1 0, prop1 1].all fun p => p.id == reg1.id && p.gen == reg1.gen) = true ∧ s.states[0]? = some (3, [prop1 0, prop1 1]) ∧ some rnd1.cseq = ([prop1 0, prop1 1].head?).map (·.cseq) ∧
    s.round 3 = some rnd1 ∧ reg1.tout * 1024 ≤ (s.now reg1.core - rnd1.since).toNat ∧
    entLocal (rnd1.entryOf reg1 1) = true ∧ rnd1.held.all (fun e => e.frm != 1) = true := by decide +kernel
theorem witness_BrineEvents_late :
    let s : State := { top with regions := [reg1], proposals := [prop1 1], done := [(3, 7, [prop1 0, prop1 1])] }
    (let unk : State := { rndS rnd1 (prop1 1) with states := [(3, [{ prop1 0 with gen := 9 }])] }
     unk.rounds = [rnd1] ∧ unk.states[0]?.any (fun e => e.2.any fun p => p.gen != reg1.gen && p.cseq == rnd1.cseq) = true) ∧
    s.round 3 = none ∧ (s.done.find? (fun e => e.1 == 3 && e.2.1 == 7)).isSome = true ∧ entLocal (reg1.table.getD 1 0#64) = true := by
  decide +kernel
/-- A `badd` that was held at a page: it can go on, and it stays held. -/
theorem witness_BrineEvents_held :
    let q : BrineCmd := { id := 1, core := 2, cxa := 0x10000#64, ins := .badd abc, rid := 3, a := 3#64, b := 0x1000#64, c := 0#64, task := 0#16, lvlH := true, slen := 0#64, join := none, held := some (0#64, 0#64), elems := reg1.elems, heldAs := some (false, pageOf 0x1000) }
    let p : BrineCmd := { q with task := 7#16 }
    let at1 (q : BrineCmd) : State := { (top.setDie 0 fun d => { d with cyc := 4096#64 }) with regions := [reg1], brineQ := [q] }
    let s := (at1 p).setCluster 1 fun k => { k with tlb := [⟨7#16, 0, false, 0x8000000000000000#64⟩] }
    [at1 q, s].all (fun s => Memory.wf s.mem && s.quiet && s.rounds.isEmpty && s.coreCluster 2 == 1 &&
      decide (4096 ≤ (s.now 2 - 0#64).toNat) && s.region 3 == some reg1 && decide ((s.now 2 - 0#64).toNat < 2 ^ 20)) = true ∧
    q.pend = 0 ∧ (match State.gather q.who {} false (lineParts 40 0x1000 (4 * reg1.elems)) 0x1000 0 q ((at1 q).asTried (.brine 1)) with
      | .ok _ t => t.trying == some (.brine 1, []) && (at1 q).regionNear reg1
      | _ => false) = true ∧
    (match State.gather p.who {} false (lineParts 40 0x1000 (4 * reg1.elems)) 0x1000 0 p (s.asTried (.brine 1)) with | .hold .. => true | _ => false) = true := by
  decide +kernel

/-- A thread of core 5 that waits for its write of a system register. -/
def wrT : Thread := { bgT with wait := .sys }
/-- It, with its write. -/
def wrS (k locus : Nat) (v : Word) : State := { bgS wrT with sysWrites := [⟨5, 0x30000#64, k, locus, v⟩] }
theorem witness_SystemRegisterWrites : [(0, 5), (1, 5), (2, 5), (3, 5), (0x40, 3), (0x41, 3), (0x42, 3), (0x80, 0), (0x8F, 0), (0xE0, 0), (0xE1, 0)].all
      (fun p => let s := wrS p.1 p.2 8#64
        Memory.wf s.mem && s.sysWrites.head? == some ⟨5, 0x30000#64, p.1, p.2, 8#64⟩ && s.findThr 5 0x30000#64 == some wrT &&
          s.coreDie 5 == 0 && (s.attached 3).isEmpty) = true ∧ wrT.place ≠ .record ∧ wrT.place ≠ .ember := by decide +kernel
/-- A partition that a halted core takes, one that it refuses; a ring size it takes; a bank that goes off, and one that a pin holds. -/
theorem witness_SystemRegisterWrites_values :
    let h := top.setCore 3 fun c => { c with halted := true }
    let pin : State := { top with pool := [{ bgT with core := 3, place := .line 17, pinC := true }] }
    (h.core 3).halted = true ∧ cmpartOk (0x11176#64 &&& 0xFFFFF#64) = true ∧ cmpartOk (0#64 &&& 0xFFFFF#64) = false ∧
    512 * (h.core 3).ibEntries ≤ bits 0x11176 0 4 * 0x10000 ∧ (h.core 3).inbox.all (fun q => q.2 == 0) = true ∧ 2 % 4 ≠ 3 ∧
    512 * (64 * 2 ^ (2 % 4)) ≤ (h.core 3).spBytes ∧ (pin.attached 3).any (fun t => t.lineOf.any (fun l =>
      bits (rfpwrNext (pin.core 3).rfpwr 8#64).toNat (2 * (l / 16)) 2 == 2) && t.pinC) = true := by decide +kernel
/-- A mailbox that is read; a report whose address is bad, and a good one. -/
theorem witness_SystemRegisterWrites_reads :
    let t : Thread := { bgT with wait := .mailbox 3 4 }
    let e : MboxEntry := { idx := 1, task := 7#16, user := true, kind := 1, page := 5, stale := false, staleL := false, taken := false }
    let s := (bgS t).setCore 3 fun c => { c with mbox := [e] }
    let a (v : Word) : State := { top with attBusy := true, attAddr := v, dies := [(0, { mr := List.replicate 4 0#256 })] }
    s.mboxReader 3 = some (t, 4) ∧ (s.core 3).mbox.find? (fun e => !e.taken) = some e ∧ s.findThr 5 0x30000#64 = some t ∧
    (a 8#64).attAddr.toNat % 2 ^ 15 ≠ 0 ∧ (a 0x8000#64).attAddr.toNat % 2 ^ 15 = 0 ∧
    (a 0x8000#64).attAddr.toNat + 2 ^ 15 ≤ Config.physEnd ∧ (a 0x8000#64).quiet = true ∧ ((a 0x8000#64).die 0).mr.length = 4 := by
  decide +kernel
theorem witness_BringUpAndPower :
    127 ∉ top.flm ∧ 127 ∉ State.reset.rdym ∧ top.dieFatal 3 = false ∧ top.unitIdle 511 2 = true ∧ top.i3cAddr = none ∧
    (100 ≤ (100#8).toNat ∨ top.pcap.toNat < 0) ∧ ({ top with i3cAddr := some 5#7 } : State).i3cAddr ≠ none ∧ 1 + 63 ≤ 64 := by
  decide +kernel
theorem witness_DecodeOfEncodeIsTheInstruction : (Instr.movl ⟨h0, r 5, .lit 0x1FFFFFFFFFFF#45, .absent⟩).wf = true ∧
    (Instr.sret ⟨h0, .absent, r 4, r 5⟩).wf = true := by decide +kernel
/-- The placed word in the scratchpad, in one line and across two; in memory, where its home serves it; and a word at hand. -/
theorem witness_StepRunsTheDecodedWord_fetch :
    let s := State.reset.withFetchWord 96 (encode (.add .i64 abc)).toNat
    let at1 (pc : Word) := s.mapCtx fun c => { c with pc := pc }
    [(s, false), (at1 0x008000000000107C#64, false), (at1 0x1000#64, true), (at1 0x107C#64, true)].all (fun p => let s := p.1
      let v := s.setCore s.thr.core (CoreSt.touchSet s.task)
      s.bankAsleep == none && s.thr.res.fetched == [] && s.pc.toNat % 4 == 0 && s.cachedSet s.thr.core s.task == some placedSet &&
      s.thr.canIssue && s.agenda == [] && s.beat == 0 && ((placedSet.gva nFetch s.pc 12).any fun g =>
        v.area v.levelH nFetch g 12 != .none && !oneAccess (v.area v.levelH nFetch g 12) &&
        (let n := min 12 (128 - g % 128)
         match v.fetchPart s.pc g n with
         | .got _ f t => f == p.2 && (n == 12 || match t.fetchPart s.pc (g + n) (12 - n) with | .got _ f _ => f == p.2 | _ => false)
         | _ => false))) = true ∧
    ({ s.thr.res with fetched := List.replicate 12 0#8 } : Resume).fetched.length = 12 := by decide +kernel
/-- A line of a page that is executable and not writable: absent from the near cache, and present. -/
theorem witness_StepRunsTheDecodedWord_near :
    let s := ((usr.setCluster 1 fun c => { c with tlb := [⟨7#16, 0, false, 0xEC00000000000000#64⟩] }).setCore 2 fun c =>
      { c with sets := [{ placedSet with task := 7#16 }] }).mapCtx fun c => { c with st := 0x70000#64 }
    [(s, false), (s.nearFill 2 0x1000 true, true)].all (fun t => match t.1.locate t.1.me nFetch 0x1000 12 with
      | .loc (.mem a h pg lf) s1 => pg && (s1.nearBytes true 0#2 (.mem a h pg lf) 12).isSome == t.2 && s1.homeOpen a h && !s1.poisoned a 12
      | _ => false) = true := by decide +kernel
theorem witness_StepRunsTheDecodedWord :
    let s := State.reset.withFetchWord 96 (encode (.add .i64 abc)).toNat
    (∀ gap ∈ [0, 4], (match (s.takeTurn gap).fetch with
     | .got bs _ s1 => (wordOfBytes bs).any fun w => match decodeAt s1.levelH w with | .ok i => i == .add .i64 abc | _ => false
     | _ => false) = true) ∧
    (let t := ((({ s with agenda := [{}] } : State).pass fun _ => 1).select none).thr
     t.canIssue = true ∧ t.canBorrow = true) := by decide +kernel
theorem witness_MemoryHoldsWhatWasWritten : Memory.wf ([] : List Host.Cell) = true ∧ Memory.wf [(8, 1#8), (9, 2#8)] = true := by decide +kernel
theorem witness_EveryStepKeepsTheInvariant : Memory.wf top.mem = true := by decide +kernel

/-! ### Single steps, with results worked out by hand or from the spec's own examples -/

/-- x5 and the sticky flags (NX, UF, OF, DZ, NV from bit 0 on) after an instruction and its write-back. -/
def ran (i : Instr) (l : List (BitVec 4 × Word)) : Option (Word × Nat) :=
  match exec i (setX usr l) with
  | .next u => some (u.thr.ctx.x.get 5, bits u.thr.final.st.toNat 4 5)
  | _ => none
/-- R8 to R12: the worked examples of cores 37, 1,500 and 958. -/
theorem test_places : [37, 1500, 958].map (fun n => (posDie (n % 64) (n / 64), top.coreCluster n, posBand (n % 64) (n / 64), coreAddr n 0)) =
    [(1, 18, 1, 0x0080000002500000), (2, 366, 22, 0x008000005DC00000), (1, 255, 15, 0x008000003BE00000)] ∧ isSpare 958 = true := by
  decide +kernel
/-- R147: the worked example of a home mask. -/
theorem test_homeIn : homeIn [36, 37, 38, 39, 100, 101, 102, 103] 0x0000001234567000 = 39 := by decide +kernel
/-- R132: `fmin` of +0 and −0 is −0, `fmax` of a quiet NaN and 2.5 is 2.5, without a flag. -/
theorem test_fmin : ran (.fmin .f32 abc) [(4, 0), (6, 0x80000000)] = some (0x80000000, 0) ∧
    ran (.fmax .f32 abc) [(4, 0x7FC00000), (6, 0x40200000)] = some (0x40200000, 0) := by decide +kernel
/-- R135: −0.7 to n32 gives 0, with NV under RNE and with NX under RTZ (bit 4 of the immediate). -/
theorem test_fcvti : ran (.fcvti .n32 ⟨h0, r 5, r 4, im 10⟩) [(4, 0xBF333333)] = some (0, 16) ∧
    ran (.fcvti .n32 ⟨h0, r 5, r 4, im 26⟩) [(4, 0xBF333333)] = some (0, 1) := by decide +kernel
/-- R136: 2^64 − 1 of n64 becomes 2^64 in f32, with NX. -/
theorem test_icvtf : ran (.icvtf .f32 ⟨h0, r 5, r 4, im 7⟩) [(4, -1#64)] = some (0x5F800000, 1) := by decide +kernel
/-- R137: −0.5 rounds to −0 under `rne`. -/
theorem test_frnd : (ran (.frnd .f32 ⟨h0, r 5, r 4, im 0⟩) [(4, 0xBF000000)]).map (·.1) = some 0x80000000 := by decide +kernel
/-- R112: sums wrap to the type and extend by its sign. -/
theorem test_add_wraps : ran (.add .i8 abc) [(4, 0x7F), (6, 1)] = some (0xFFFFFFFFFFFFFF80, 0) ∧
    ran (.add .n8 abc) [(4, 0xFF), (6, 2)] = some (1, 0) := by decide +kernel
/-- R112: the operands of a difference are B and C in this order, also where A is one of them. -/
theorem test_sub_order : ran (.sub .i64 ⟨h0, r 5, r 5, r 6⟩) [(5, 3), (6, 5)] = some (0xFFFFFFFFFFFFFFFE, 0) := by decide +kernel
/-- R115: its examples. -/
theorem test_shifts : ran (.shr .i32 abc) [(4, 0x80000000), (6, 31)] = some (1, 0) ∧
    ran (.sar .i32 abc) [(4, 0x80000000), (6, 40)] = some (0xFFFFFFFFFFFFFFFF, 0) ∧
    ran (.rot .n16 abc) [(4, 1), (6, 1)] = some (0x8000, 0) := by decide +kernel
/-- R114: the quotient goes toward 0, and the remainder has the dividend's sign. -/
theorem test_div : ran (.div .i32 abc) [(4, 0xFFFFFFF9), (6, 2)] = some (0xFFFFFFFFFFFFFFFD, 0) ∧
    ran (.rem .i32 abc) [(4, 0xFFFFFFF9), (6, 2)] = some (0xFFFFFFFFFFFFFFFF, 0) := by decide +kernel
/-- R57, R114: a division by 0 traps to the task's vector, with ARI and the place of the word saved. -/
theorem test_div_zero : (match exec (.div .i32 abc) usr with
    | .next u => (u.thr.ctx.pc, u.thr.ctx.tra, u.thr.ctx.trc.toNat % 256, u.trin) | _ => (0, 0, 0, false)) =
      (0x2000#64, 0x0080000000001000#64, tARI.toNat, true) := by decide +kernel
/-- R160, R3: a byte load extends by its type's sign; a word is little-endian. -/
theorem test_load : let s := spS.writeMem (coreAddr 2 0x100) [0x80#8, 1#8]
    (match exec (.ld .i8 a54) s with | .next u => u.thr.ctx.x.get 5 | _ => 0) = 0xFFFFFFFFFFFFFF80#64 ∧
    (match exec (.ld .n16 a54) s with | .next u => u.thr.ctx.x.get 5 | _ => 0) = 0x180#64 := by decide +kernel
/-- R182: `amo.add` adds at its home, and its answer is the old word. -/
theorem test_amo : (match exec (.amoAdd a54) (setX ((spS.writeMem (coreAddr 2 0x100) [7#8])) [(5, 2)]) with
    | .next u => (u.owed.map (·.dest), u.readWord (coreAddr 2 0x100)) | _ => ([], 0)) = ([.reply (leBytes 8 7)], 9#64) := by decide +kernel
/-- R62: a branch goes to its own address plus four times its offset; a disabled one goes past itself. -/
theorem test_br : (match exec (.br ⟨h0, im (-3), .absent, .absent⟩) usr with | .next u => u.pc | _ => 0) = 0x0080000000000FF4#64 ∧
    (match exec (.br ⟨hOff, im (-3), .absent, .absent⟩) usr with | .next u => u.pc | _ => 0) = 0x008000000000100C#64 := by decide +kernel
/-- R276: one K block is summed before it is rounded: 32 + 2^-18, and not 32. -/
theorem test_mmac_rounds_once : (macElem .b16 0x42000000 [List.replicate 32 (.fin false 1 (-12))] [List.replicate 32 (.fin false 1 (-11))]).1 =
    0x42000001 := by decide +kernel

end Sys2Proof.Tests
end

section
/-! Memory as an extensional object: one canonical list for each content, and words as the little-endian numbers of their
bytes (R3, R151). -/

namespace Sys2Proof.Machine

/-- What a canonical memory with a first entry says of it and of the rest. -/
theorem Memory.wfFrom_cons {lo a : Nat} {v : Byte} {m : List Host.Cell} (h : Memory.wfFrom lo ((a, v) :: m) = true) :
    lo ≤ a ∧ v ≠ Memory.unlisted ∧ Memory.wfFrom (a + 1) m = true := by
  simpa [Memory.wfFrom, and_assoc] using h

theorem Memory.readByte_cons_self (a : Nat) (v : Byte) (m : List Host.Cell) : Memory.readByte ((a, v) :: m) a = v := by
  simp [Memory.readByte]

theorem Memory.readByte_cons_ne {a b : Nat} (v : Byte) (m : List Host.Cell) (h : a ≠ b) :
    Memory.readByte ((a, v) :: m) b = Memory.readByte m b := by
  simp [Memory.readByte, h]

/-- A canonical memory that reads as an empty one lists nothing. -/
theorem Memory.eq_nil_of_readByte {lo : Nat} {m : List Host.Cell} (h : Memory.wfFrom lo m = true)
    (e : ∀ a, Memory.readByte m a = Memory.unlisted) : m = [] := by
  cases m with
  | nil => rfl
  | cons c m =>
    obtain ⟨a, v⟩ := c
    exact absurd ((Memory.readByte_cons_self a v m).symm.trans (e a)) (Memory.wfFrom_cons h).2.1

/-- The first entry of a canonical memory does not stand below that of another one that reads alike. -/
theorem Memory.head_le_of_readByte {lo a b : Nat} {v w : Byte} {m n : List Host.Cell}
    (hm : Memory.wfFrom lo ((a, v) :: m) = true) (hn : Memory.wfFrom lo ((b, w) :: n) = true)
    (e : Memory.readByte ((a, v) :: m) a = Memory.readByte ((b, w) :: n) a) : b ≤ a := by
  by_contra hab
  have above : Memory.wfFrom b ((b, w) :: n) = true := by
    simpa [Memory.wfFrom] using (Memory.wfFrom_cons hn).2
  rw [Memory.readByte_cons_self, Memory.readByte_above above (by omega)] at e
  exact (Memory.wfFrom_cons hm).2.1 e

/-- Two canonical memories that read alike everywhere are one list. -/
theorem Memory.eq_of_readByte_eq : ∀ {lo : Nat} {m n : List Host.Cell}, Memory.wfFrom lo m = true → Memory.wfFrom lo n = true →
    (∀ a, Memory.readByte m a = Memory.readByte n a) → m = n
  | _, [], _, _, hn, e => (Memory.eq_nil_of_readByte hn fun a => (e a).symm).symm
  | _, _ :: _, [], hm, _, e => Memory.eq_nil_of_readByte hm e
  | lo, (a, v) :: m, (b, w) :: n, hm, hn, e => by
    obtain rfl : a = b := le_antisymm (Memory.head_le_of_readByte hn hm (e b).symm) (Memory.head_le_of_readByte hm hn (e a))
    obtain rfl : v = w := by simpa [Memory.readByte_cons_self] using e a
    have tm := (Memory.wfFrom_cons hm).2.2
    have tn := (Memory.wfFrom_cons hn).2.2
    have tails : ∀ c, Memory.readByte m c = Memory.readByte n c := by
      intro c
      by_cases hc : a = c
      · subst hc
        rw [Memory.readByte_above tm (by omega), Memory.readByte_above tn (by omega)]
      · rw [← Memory.readByte_cons_ne v m hc, ← Memory.readByte_cons_ne v n hc, e]
    rw [Memory.eq_of_readByte_eq tm tn tails]

@[simp] theorem leBytes_length (n v : Nat) : (leBytes n v).length = n := by
  induction n generalizing v with
  | zero => rfl
  | succ n ih => simp [leBytes, ih]

/-- The number of the low bytes of a number is its remainder (R3). -/
theorem leNat_leBytes (n v : Nat) : leNat (leBytes n v) = v % 256 ^ n := by
  induction n generalizing v with
  | zero => simp [leBytes, leNat, Nat.mod_one]
  | succ n ih => rw [leBytes, leNat, ih, BitVec.toNat_ofNat, show 2 ^ 8 = 256 from rfl, Nat.pow_succ', Nat.mod_mul]

theorem mem_wordsOf_self (a : Nat) {n : Nat} (h : 0 < n) : a / 8 ∈ wordsOf a n := by
  unfold wordsOf
  rw [if_neg (by omega), List.mem_map]
  exact ⟨0, List.mem_range.2 (by omega), by omega⟩

/-- A word reads as it was written (R3). -/
theorem State.readWord_writeWord (a : Nat) (v : Word) {s : State} (h : s.Inv) : (s.writeWord a v).readWord a = v := by
  have bytes : Memory.read (Memory.write s.mem a (leBytes 8 v.toNat)) a 8 = leBytes 8 v.toNat := by
    simpa using Memory.read_write (leBytes 8 v.toNat) a h
  show BitVec.ofNat 64 (leNat (Memory.read (Memory.write s.mem a (leBytes 8 v.toNat)) a 8)) = v
  rw [bytes, leNat_leBytes, Nat.mod_eq_of_lt (by simpa using v.isLt), BitVec.ofNat_toNat, BitVec.setWidth_eq]

/-- A write sets the word that it starts in full (R151). -/
theorem State.isFull_writeWord (a : Nat) (v : Word) (s : State) : (s.writeWord a v).isFull a = true := by
  simp [State.isFull, State.writeWord, State.writeMem, mem_wordsOf_self]


/-- Settles O59: a byte that is written is read back and no other changes, and reading determines the canonical list. -/
theorem memoryHoldsWhatWasWritten : Obligations.MemoryHoldsWhatWasWritten := by
  unfold Obligations.MemoryHoldsWhatWasWritten
  refine ⟨fun m a bs h => ⟨Memory.write_wf bs a h, Memory.read_write bs a h, fun b hb => Memory.readByte_write_other bs a b h hb⟩,
    fun m n hm hn e => Memory.eq_of_readByte_eq hm hn e, fun s a v h => ?_⟩
  exact ⟨State.writeWord_inv a v s h, State.readWord_writeWord a v h, State.isFull_writeWord a v s⟩

end Sys2Proof.Machine
end

section
/-! ### The invariant, carried through the model's answers (O60)

`State.Inv` speaks of the memory alone, so a function that leaves `mem` as it is keeps the invariant by definition. The others
answer a state inside an option, a pair, an effect or an outcome; for each of those types a predicate says that the states inside
meet the invariant, and one lemma takes the state out again. The rules below then go function by function through the model's
files: `f_inv` (or `f_ends` for an outcome) says that `f` keeps the invariant when its callbacks do, from the rules of what it calls. -/

namespace Sys2Proof.Machine

/-- The invariant of every state that an effect carries; an effect without one has nothing to keep. -/
inductive Eff.Inv : Eff → Prop
  | done {s : State} (h : s.Inv) : Eff.Inv (.done s)
  | jump {s : State} {pc : Word} (h : s.Inv) : Eff.Inv (.jump s pc)
  | again {s : State} (h : s.Inv) : Eff.Inv (.again s)
  | stay {s : State} (h : s.Inv) : Eff.Inv (.stay s)
  | trap {c sub : BitVec 8} {d : Word} : Eff.Inv (.trap c sub d)
  | park {r : Resource} : Eff.Inv (.park r)
  | hold {r : Resource} {l : List Held} : Eff.Inv (.hold r l)
  | lend {r : Resource} : Eff.Inv (.lend r)
  | posted {sub : BitVec 8} {d : Word} : Eff.Inv (.posted sub d)

/-- The invariant of the state that an option holds, if any. -/
inductive InvOpt : Option State → Prop
  | some {s : State} (h : s.Inv) : InvOpt (some s)
  | none : InvOpt none

/-- The invariant of the state that a success holds. -/
inductive InvOk {ε : Type} : Except ε State → Prop
  | ok {s : State} (h : s.Inv) : InvOk (.ok s)
  | error {e : ε} : InvOk (.error e)

/-- The invariant of the state that either side holds. -/
inductive InvBoth : Except State State → Prop
  | ok {s : State} (h : s.Inv) : InvBoth (.ok s)
  | error {s : State} (h : s.Inv) : InvBoth (.error s)

/-- The invariant of the state that a search for a place answers with. -/
inductive Found.Inv : Found → Prop
  | loc {l : Loc} {s : State} (h : s.Inv) : Found.Inv (.loc l s)
  | miss {s : State} (h : s.Inv) : Found.Inv (.miss s)
  | fail {f : PageFail} : Found.Inv (.fail f)
  | deadPeer {p : Nat} : Found.Inv (.deadPeer p)

/-- The invariant of what a fetch answers with. -/
inductive FetchPart.Inv : FetchPart → Prop
  | got {bs : List Byte} {far : Bool} {s : State} (h : s.Inv) : FetchPart.Inv (.got bs far s)
  | stop {e : Eff} (h : e.Inv) : FetchPart.Inv (.stop e)

/-- The invariant of the state that a found block comes with. -/
inductive BlockFind.Inv : BlockFind → Prop
  | here {a : Nat} {s : State} (h : s.Inv) : BlockFind.Inv (.here a s)
  | lost : BlockFind.Inv .lost
  | held {g : Nat} : BlockFind.Inv (.held g)

/-- The invariant of the state after a block was sent. -/
inductive SendRes.Inv : SendRes → Prop
  | sent {n : Nat} {s : State} (h : s.Inv) : SendRes.Inv (.sent n s)
  | poisoned {s : State} (h : s.Inv) : SendRes.Inv (.poisoned s)
  | blocked : SendRes.Inv .blocked
  | held {g : Nat} : SendRes.Inv (.held g)

/-- The invariant of the state after words were gathered. -/
inductive Gather.Inv : Gather → Prop
  | ok {q : BrineCmd} {s : State} (h : s.Inv) : Gather.Inv (.ok q s)
  | wait {q : BrineCmd} {s : State} (h : s.Inv) : Gather.Inv (.wait q s)
  | hold {q : BrineCmd} {s : State} {f : PageFail} {g : Nat} (h : s.Inv) : Gather.Inv (.hold q s f g)
  | dead {s : State} (h : s.Inv) : Gather.Inv (.dead s)

/-- The invariant of the state that a found span comes with. -/
inductive SpanFind.Inv : SpanFind → Prop
  | ok {ls : List (Loc × Nat)} {s : State} (h : s.Inv) : SpanFind.Inv (.ok ls s)
  | dead : SpanFind.Inv .dead
  | hold {f : PageFail} {g : Nat} : SpanFind.Inv (.hold f g)

/-- An outcome that is a next state which meets the invariant: the step does not stop the machine. -/
inductive Ends : Host.Outcome State Fault Refusal → Prop
  | next {s : State} (h : s.Inv) : Ends (.next s)

section
variable {s t : State}

theorem InvOpt.get {o : Option State} (e : o = .some t) (h : InvOpt o) : t.Inv := by
  subst e; cases h; assumption

theorem InvOpt.get_snd {α : Type} {a : α} {o : Option (α × State)} (e : o = .some (a, t)) (h : InvOpt (o.map (·.2))) : t.Inv := by
  subst e; cases h; assumption

theorem InvOpt.getD {o : Option State} (h : InvOpt o) (d : s.Inv) : (o.getD s).Inv := by
  cases h with
  | none => exact d
  | some h => exact h

theorem InvOpt.map {o : Option State} {f : State → State} (hf : ∀ s, s.Inv → (f s).Inv) (h : InvOpt o) : InvOpt (o.map f) := by
  cases h with
  | none => exact .none
  | some h => exact .some (hf _ h)
theorem InvOpt.bind {α : Type} {o : Option α} {f : α → Option State} (hf : ∀ a, InvOpt (f a)) : InvOpt (o.bind f) := by
  cases o with
  | none => exact .none
  | some a => exact hf a

theorem Memory.foldl_write_wf (l : List Host.Cell) {m : List Host.Cell} (h : Memory.wf m = true) :
    Memory.wf (l.foldl (fun m c => Memory.write m c.1 [c.2]) m) = true := by
  induction l generalizing m with
  | nil => exact h
  | cons c l ih => exact ih (Memory.write_wf _ _ h)

theorem Memory.filter_wfFrom (p : Host.Cell → Bool) {m : List Host.Cell} {lo : Nat} (h : Memory.wfFrom lo m = true) :
    Memory.wfFrom lo (m.filter p) = true := by
  induction m generalizing lo with
  | nil => rfl
  | cons c m ih =>
    obtain ⟨hlo, hv, hm⟩ := Memory.wfFrom_cons h
    rw [List.filter_cons]
    split
    · simp [Memory.wfFrom, hlo, hv, ih hm]
    · exact ih (Memory.wfFrom_mono (by omega) hm)

theorem Memory.filter_wf (p : Host.Cell → Bool) {m : List Host.Cell} (h : Memory.wf m = true) : Memory.wf (m.filter p) = true :=
  Memory.filter_wfFrom p h

theorem InvOk.of_ok {ε : Type} {o : Except ε State} (e : o = .ok t) (h : InvOk o) : t.Inv := by
  subst e; cases h; assumption

theorem InvBoth.of_ok {o : Except State State} (e : o = .ok t) (h : InvBoth o) : t.Inv := by
  subst e; cases h; assumption

theorem InvBoth.of_error {o : Except State State} (e : o = .error t) (h : InvBoth o) : t.Inv := by
  subst e; cases h; assumption

theorem Found.Inv.of_loc {l : Loc} {r : Found} (e : r = .loc l t) (h : r.Inv) : t.Inv := by
  subst e; cases h; assumption

theorem Found.Inv.of_miss {r : Found} (e : r = .miss t) (h : r.Inv) : t.Inv := by
  subst e; cases h; assumption

theorem FetchPart.Inv.of_got {bs : List Byte} {f : Bool} {r : FetchPart} (e : r = .got bs f t) (h : r.Inv) : t.Inv := by
  subst e; cases h; assumption

theorem FetchPart.Inv.of_stop {x : Eff} {r : FetchPart} (e : r = .stop x) (h : r.Inv) : x.Inv := by
  subst e; cases h; assumption

theorem BlockFind.Inv.of_here {a : Nat} {r : BlockFind} (e : r = .here a t) (h : r.Inv) : t.Inv := by
  subst e; cases h; assumption

theorem SendRes.Inv.of_sent {n : Nat} {r : SendRes} (e : r = .sent n t) (h : r.Inv) : t.Inv := by
  subst e; cases h; assumption

theorem SendRes.Inv.of_poisoned {r : SendRes} (e : r = .poisoned t) (h : r.Inv) : t.Inv := by
  subst e; cases h; assumption

theorem Gather.Inv.of_ok {q : BrineCmd} {r : Gather} (e : r = .ok q t) (h : r.Inv) : t.Inv := by
  subst e; cases h; assumption

theorem Gather.Inv.of_wait {q : BrineCmd} {r : Gather} (e : r = .wait q t) (h : r.Inv) : t.Inv := by
  subst e; cases h; assumption

theorem Gather.Inv.of_hold {q : BrineCmd} {f : PageFail} {g : Nat} {r : Gather} (e : r = .hold q t f g) (h : r.Inv) : t.Inv := by
  subst e; cases h; assumption

theorem Gather.Inv.of_dead {r : Gather} (e : r = .dead t) (h : r.Inv) : t.Inv := by
  subst e; cases h; assumption

theorem SpanFind.Inv.of_ok {l : List (Loc × Nat)} {r : SpanFind} (e : r = .ok l t) (h : r.Inv) : t.Inv := by
  subst e; cases h; assumption

theorem snd_inv {α : Type} {a : α} {p : α × State} (e : p = (a, t)) (h : p.2.Inv) : t.Inv := by
  subst e; exact h

theorem State.ite_inv {c : Prop} {_ : Decidable c} (hs : s.Inv) (ht : t.Inv) : (if c then s else t).Inv := by
  split
  · exact hs
  · exact ht

/-- As `State.ite_inv`, where the first branch goes on from the second. -/
theorem State.ite_then_inv {c : Prop} {_ : Decidable c} (hs : t.Inv → s.Inv) (ht : t.Inv) : (if c then s else t).Inv :=
  State.ite_inv (hs ht) ht

/-- As `State.ite_inv`, where the second branch goes on from the first. -/
theorem State.ite_else_inv {c : Prop} {_ : Decidable c} (ht : s.Inv → t.Inv) (hs : s.Inv) : (if c then s else t).Inv :=
  State.ite_inv hs (ht hs)

theorem Eff.ite_inv {c : Prop} {_ : Decidable c} {a b : Eff} (ha : a.Inv) (hb : b.Inv) : (if c then a else b).Inv := by
  split
  · exact ha
  · exact hb

theorem Gather.ite_inv {c : Prop} {_ : Decidable c} {a b : Gather} (ha : a.Inv) (hb : b.Inv) : (if c then a else b).Inv := by
  split
  · exact ha
  · exact hb

theorem InvOpt.findSome {α : Type} {f : α → Option State} {l : List α} (hf : ∀ a, InvOpt (f a)) : InvOpt (l.findSome? f) := by
  induction l with
  | nil => exact .none
  | cons a l ih =>
    rw [List.findSome?_cons]
    split
    · rename_i t e
      exact e ▸ hf a
    · exact ih

theorem State.foldl_inv {α : Type} {f : State → α → State} {l : List α} (hf : ∀ s a, s.Inv → (f s a).Inv) (h : s.Inv) :
    (l.foldl f s).Inv := by
  induction l generalizing s with
  | nil => exact h
  | cons a l ih => exact ih (hf s a h)

theorem State.foldl_snd_inv {α β : Type} {f : β × State → α → β × State} {r : β × State}
    {l : List α} (hf : ∀ r a, r.2.Inv → (f r a).2.Inv) (h : r.2.Inv) : (l.foldl f r).2.Inv := by
  induction l generalizing r with
  | nil => exact h
  | cons a l ih => exact ih (hf r a h)

theorem Eff.Inv.state {e : Eff} (he : e.Inv) (h : e.state? = some t) : t.Inv := by
  cases he <;> cases h <;> assumption

theorem issue_ends {hd : Head} {body : State → Eff} (hb : ∀ t : State, t.Inv → (body t).Inv) (h : s.Inv) :
    Ends (issue hd body s) := by
  obtain ⟨u, e, hu⟩ := issue_inv (h := hd) (body := body) h fun t e => (hb s h).state e
  exact e ▸ .next hu
end
end Sys2Proof.Machine
end

section
namespace Sys2Proof.Machine
open Config
variable {s : State}

/-! ### What Memory.lean keeps -/

theorem State.tear_inv {x1 n} (h : s.Inv) : (s.tear x1 n).Inv :=
  State.ite_inv h (State.foldl_inv (fun _ _ h1 => h1) h)

theorem State.emit_inv {t} (h : s.Inv) : (s.emit t).Inv := State.ite_inv h h

theorem State.askHost_inv {owner n t} (h : s.Inv) : (s.askHost owner n t).Inv := State.emit_inv h

/-! ### What Ops.lean keeps -/

theorem State.setCore_inv {n f} (h : s.Inv) : (s.setCore n f).Inv := h

theorem State.setCluster_inv {n f} (h : s.Inv) : (s.setCluster n f).Inv := h

theorem State.setDie_inv {n f} (h : s.Inv) : (s.setDie n f).Inv := h

theorem State.mapThr_inv {f} (h : s.Inv) : (s.mapThr f).Inv := h

theorem State.mapRes_inv {f} (h : s.Inv) : (s.mapRes f).Inv := h

theorem State.writeX_inv {r v} (h : s.Inv) : (s.writeX r v).Inv := h

theorem State.admitPan_inv {q} (h : s.Inv) : (s.admitPan q).Inv := h

theorem State.updThr_inv {core cxa f} (h : s.Inv) : (s.updThr core cxa f).Inv := State.ite_inv h (State.ite_inv h h)

theorem State.enqueue_inv {core cxa org} (h : s.Inv) : (s.enqueue core cxa org).Inv := h

theorem State.makeReady_inv {core cxa} (h : s.Inv) : (s.makeReady core cxa).Inv := by
  unfold State.makeReady
  dsimp only
  split
  · exact State.updThr_inv h
  split
  · exact State.updThr_inv h
  split
  · exact State.enqueue_inv (State.updThr_inv h)
  · exact State.setCore_inv (State.enqueue_inv (State.updThr_inv h))

theorem State.standFor_inv {r} (h : s.Inv) : (s.standFor r).Inv := h

theorem State.parkOn_inv {r} (h : s.Inv) : (s.parkOn r).Inv := h

theorem State.parkFor_inv {w} (h : s.Inv) : (s.parkFor w).Inv := h

theorem State.lend_inv {w} (h : s.Inv) : (s.lend w).Inv := h

theorem State.yieldThr_inv (h : s.Inv) : s.yieldThr.Inv := State.ite_inv h h

theorem State.removeThr_inv {core cxa} (h : s.Inv) : (s.removeThr core cxa).Inv :=
  State.setCore_inv (State.ite_inv h h)

theorem State.orphan_inv {core cxa} (h : s.Inv) : (s.orphan core cxa).Inv := State.foldl_inv (fun _ _ h1 => h1) h

theorem State.dropRecs_inv {core} (h : s.Inv) : (s.dropRecs core).Inv := h

theorem State.sendFlue_inv {core cause d1 d2} (h : s.Inv) : (s.sendFlue core cause d1 d2).Inv := h

theorem State.takeTrap_inv {code sub detail} (h : s.Inv) : (s.takeTrap code sub detail).Inv := State.ite_inv h h

theorem State.trapWaiting_inv {code sub detail} (h : s.Inv) : (s.trapWaiting code sub detail).Inv :=
  State.ite_inv (State.enqueue_inv (State.mapThr_inv (State.takeTrap_inv h))) (State.takeTrap_inv h)

theorem Eff.ill_inv {op why fld} : (Eff.ill op why fld).Inv := .trap

theorem State.retire_inv {hd jumped} (h : s.Inv) : (s.retire hd jumped).Inv := State.ite_inv (State.yieldThr_inv h) h

theorem Eff.finish_inv {hd} {e : Eff} (h : s.Inv) (he : e.Inv) : (Eff.finish hd s e).Inv := by
  cases he with
  | done ht => exact State.retire_inv ht
  | jump ht => exact State.retire_inv ht
  | again ht => exact ht
  | stay ht => exact ht
  | trap => exact State.takeTrap_inv h
  | posted => exact State.takeTrap_inv h
  | park => exact h
  | hold => exact h
  | lend => exact h

/-! ### What Operands.lean keeps -/

theorem withFixed_inv {isPred idx} {k : Eff} (hk : k.Inv) : (withFixed isPred idx s k).Inv := by
  unfold withFixed
  split
  · exact hk
  · exact Eff.ite_inv .trap .park

theorem withAllFixed_inv {k : Eff} (hk : k.Inv) : (withAllFixed s k).Inv := by
  unfold withAllFixed
  split
  · exact hk
  · exact .park

theorem withReg_inv {r sync} {k : Word → State → Eff} (h : s.Inv) (hk : ∀ (a : Word) (t : State), t.Inv → (k a t).Inv)
    :
    (withReg r sync s k).Inv := withFixed_inv (Eff.ite_inv (hk _ _ (State.ite_inv h h)) .park)

theorem withPred_inv {p} {k : Bool → Eff} (hk : ∀ (a : Bool), (k a).Inv) : (withPred p s k).Inv :=
  Eff.ite_inv (hk _) (withFixed_inv (Eff.ite_inv .park (hk _)))

theorem withSrc_inv {o} {k : Word → State → Eff} (h : s.Inv) (hk : ∀ (a : Word) (t : State), t.Inv → (k a t).Inv) :
    (withSrc o s k).Inv := by
  unfold withSrc
  split
  · exact withReg_inv h hk
  · exact hk _ _ h
  · exact hk _ _ h
  · exact hk _ _ h
  · exact withPred_inv (fun _ => hk _ _ h)
  · exact hk _ _ h
  · exact hk _ _ h

theorem withDestReg_inv {r sync} {k : Eff} (hk : k.Inv) : (withDestReg r sync s k).Inv :=
  withFixed_inv (Eff.ite_inv .park (Eff.ite_inv .park hk))

theorem withDest_inv {o} {k : Eff} (hk : k.Inv) : (withDest o s k).Inv := by
  unfold withDest
  split
  · exact withDestReg_inv hk
  · exact Eff.ite_inv hk (withFixed_inv (Eff.ite_inv .park hk))
  · exact hk

theorem withDests_inv {n x2} {k : Eff} (h : s.Inv) (hk : k.Inv) : (withDests n x2 s k).Inv := by
  induction n generalizing x2 s k with
  | zero =>
    rw [withDests]
    exact hk
  | succ n ih =>
    rw [withDests]
    exact withDestReg_inv (ih h hk)

theorem withRegs_inv {n x2} {k : List Word → Eff} (h : s.Inv) (hk : ∀ (a : List Word), (k a).Inv) :
    (withRegs n x2 s k).Inv := by
  induction n generalizing x2 s k with
  | zero =>
    rw [withRegs]
    exact hk _
  | succ n ih =>
    rw [withRegs]
    exact withReg_inv h (fun _ _ _ => ih h (fun _ => hk _))

theorem State.writeFixed_inv {r v lat hd} (h : s.Inv) : (s.writeFixed r v lat hd).Inv := State.ite_inv h h

theorem State.writeFlagged_inv {r v lat fl hd} (h : s.Inv) : (s.writeFlagged r v lat fl hd).Inv := State.ite_inv h h

theorem State.writePFixed_inv {p v lat fl hd} (h : s.Inv) : (s.writePFixed p v lat fl hd).Inv := State.ite_inv h h

theorem State.writeRegs_inv {l x2} (h : s.Inv) : (State.writeRegs l x2 s).Inv := by
  induction l generalizing x2 s with
  | nil =>
    rw [State.writeRegs]
    exact h
  | cons y l ih =>
    rw [State.writeRegs]
    exact ih h

theorem withEa_inv {b c} {k : Word → State → Eff} (h : s.Inv) (hk : ∀ (a : Word) (t : State), t.Inv → (k a t).Inv) :
    (withEa b c s k).Inv := withSrc_inv h (fun _ _ h1 => withSrc_inv h1 (fun _ _ h2 => hk _ _ h2))

/-! ### What Address.lean keeps -/

theorem State.noteMask_inv {task l} (h : s.Inv) : (s.noteMask task l).Inv := State.ite_inv h h

theorem State.locate_inv {who nd g n} (h : s.Inv) : (s.locate who nd g n).Inv := by
  unfold State.locate
  split
  · exact .fail
  · exact .loc h
  · exact .loc h
  · dsimp only
    split
    · exact .fail
    split
    · exact .fail
    split
    · exact .deadPeer
    · exact .loc h
  split
  · exact .miss h
  · exact .fail
  split
  · exact .fail
  split
  · exact .loc h
  · exact .loc (State.noteMask_inv h)

theorem State.postMiss_inv {who kind g} (h : s.Inv) : InvOpt ((s.postMiss who kind g).map (·.2)) := by
  unfold State.postMiss
  dsimp only
  split
  · exact .some h
  split
  · exact .none
  · exact .some h

theorem State.askPage_inv {asker m} (h : s.Inv) : (s.askPage asker m).Inv := by
  unfold State.askPage
  split
  · exact h
  · rename_i e1
    exact (InvOpt.get_snd e1 (State.postMiss_inv h) :)

theorem State.tryPort_inv {asker} {f : State → State} (hf : ∀ (t : State), t.Inv → (f t).Inv) (h : s.Inv) :
    InvBoth (s.tryPort asker f) := by
  unfold State.tryPort
  dsimp only
  split
  · exact .error (State.foldl_inv (fun _ _ h1 => State.askPage_inv h1) h)
  · exact .ok (hf _ h)

theorem State.atPort_inv {asker} {f : State → State} (hf : ∀ (t : State), t.Inv → (f t).Inv) (h : s.Inv) :
    (s.atPort asker f).Inv := by
  unfold State.atPort
  split
  · rename_i e1
    exact InvBoth.of_ok e1 (State.tryPort_inv hf h)
  · rename_i e2
    exact InvBoth.of_error e2 (State.tryPort_inv hf h)

theorem Eff.mapState_inv {e : Eff} {f : State → State} (hf : ∀ t : State, t.Inv → (f t).Inv) (he : e.Inv) :
    (e.mapState f).Inv := by
  cases he with
  | done ht => exact .done (hf _ ht)
  | jump ht => exact .jump (hf _ ht)
  | again ht => exact .again (hf _ ht)
  | stay ht => exact .stay (hf _ ht)
  | trap => exact .trap
  | posted => exact .posted
  | park => exact .park
  | hold => exact .hold
  | lend => exact .lend

theorem withRecords_inv {k : State → Eff} (h : s.Inv) (hk : ∀ (t : State), t.Inv → (k t).Inv) :
    (withRecords s k).Inv := by
  unfold withRecords
  dsimp only
  split
  · exact .again (State.standFor_inv (State.foldl_inv (fun _ _ h1 => State.askPage_inv h1) h))
  · exact Eff.mapState_inv (fun _ h2 => h2) (hk _ h)

theorem State.noteMiss_inv {m} (h : s.Inv) : (s.noteMiss m).Inv := h

theorem pageFails_inv {f nd ea g} (h : s.Inv) : (pageFails f nd ea g s).Inv := by
  unfold pageFails
  split
  · exact .trap
  · exact .again h
  · exact .again h

theorem walkWait_inv {nd g} (h : s.Inv) : (walkWait nd g s).Inv := by
  unfold walkWait
  split
  · rename_i e1
    exact .again (State.lend_inv (State.mapRes_inv (InvOpt.get_snd e1 (State.postMiss_inv h))))
  · exact .lend

theorem withGva_inv {nd ea n align} {k : ℕ → Eff} (h : s.Inv) (hk : ∀ (a : ℕ), (k a).Inv) :
    (withGva nd ea n align s k).Inv := by
  unfold withGva
  split
  · exact .again h
  split
  · exact .trap
  split
  · exact .trap
  · exact hk _

theorem Eff.keep_inv {hd} {k : Eff} (hk : k.Inv) : (Eff.keep hd k).Inv := by
  unfold Eff.keep
  split
  · exact .hold
  · exact .hold
  · exact .hold
  · exact hk

theorem withLoc_inv {nd ea g n soft} {k : Loc → State → Eff} (h : s.Inv)
    (hk : ∀ (a : Loc) (t : State), t.Inv → (k a t).Inv) :
    (withLoc nd ea g n soft s k).Inv := by
  unfold withLoc
  split
  · exact Eff.keep_inv (hk _ _ h)
  split
  · rename_i e1
    exact Eff.keep_inv (hk _ _ (Found.Inv.of_loc e1 (State.locate_inv h)))
  · exact pageFails_inv h
  · rename_i e3
    exact walkWait_inv (Found.Inv.of_miss e3 (State.locate_inv h))
  · exact Eff.ite_inv (hk _ _ h) .trap

theorem withPlace_inv {nd ea n align soft} {k : Loc → State → Eff} (h : s.Inv)
    (hk : ∀ (a : Loc) (t : State), t.Inv → (k a t).Inv) :
    (withPlace nd ea n align soft s k).Inv := withGva_inv h (fun _ => withLoc_inv h hk)

theorem withParts_inv {nd ea soft l x5} {k : List (Loc × ℕ) → State → Eff} (h : s.Inv)
    (hk : ∀ (x1 : List (Loc × ℕ)) (x2 : State), x2.Inv → (k x1 x2).Inv) :
    (withParts nd ea soft l x5 s k).Inv := by
  induction l generalizing nd ea soft x5 s k with
  | nil =>
    rw [withParts]
    exact hk _ _ h
  | cons y l ih =>
    rw [withParts]
    exact withLoc_inv h (fun _ _ h1 => ih h1 (fun _ _ h2 => hk _ _ h2))

theorem withAccess_inv {nd ea n align soft} {k : List (Loc × ℕ) → State → Eff} (h : s.Inv)
    (hk : ∀ (x1 : List (Loc × ℕ)) (x2 : State), x2.Inv → (k x1 x2).Inv) :
    (withAccess nd ea n align soft s k).Inv := withGva_inv h (fun _ => Eff.ite_inv .trap (withParts_inv h hk))

/-! ### What Integer.lean keeps -/

theorem intOp_ends {lat f t x} (h : s.Inv) : Ends (intOp lat f t x s) :=
  issue_ends (fun _ h1 => withSrc_inv h1 (fun _ _ h2 =>
    withSrc_inv h2 (fun _ _ h3 => withDest_inv (.done (State.writeFixed_inv h3))))) h

theorem bitOp_ends {f t x} (h : s.Inv) : Ends (bitOp f t x s) :=
  issue_ends (fun _ h1 => withSrc_inv h1 (fun _ _ h2 =>
    withSrc_inv h2 (fun _ _ h3 => withDest_inv (.done (State.writeFixed_inv h3))))) h

theorem divOp_ends {f t x} (h : s.Inv) : Ends (divOp f t x s) :=
  issue_ends (fun _ h1 => withSrc_inv h1 (fun _ _ h2 =>
    withSrc_inv h2 (fun _ _ h3 => Eff.ite_inv .trap (withDest_inv (.done (State.writeFixed_inv h3)))))) h

theorem shiftOp_ends {f t x} (h : s.Inv) : Ends (shiftOp f t x s) :=
  issue_ends (fun _ h1 => withSrc_inv h1 (fun _ _ h2 =>
    withSrc_inv h2 (fun _ _ h3 => withDest_inv (.done (State.writeFixed_inv h3))))) h

theorem unaryOp_ends {f t x} (h : s.Inv) : Ends (unaryOp f t x s) :=
  issue_ends (fun _ h1 => withSrc_inv h1 (fun _ _ h2 => withDest_inv (.done (State.writeFixed_inv h2)))) h

theorem execBext_ends {t x} (h : s.Inv) : Ends (execBext t x s) :=
  issue_ends (fun _ h1 => withSrc_inv h1 (fun _ _ h2 =>
    withSrc_inv h2 (fun _ _ h3 => withDest_inv (.done (State.writeFixed_inv h3))))) h

theorem execBins_ends {_t x} (h : s.Inv) : Ends (execBins _t x s) :=
  issue_ends (fun _ h1 => withSrc_inv h1 (fun _ _ h2 =>
    withSrc_inv h2 (fun _ _ h3 => withSrc_inv h3 (fun _ _ h4 => .done (State.writeFixed_inv h4))))) h

theorem execCvi_ends {t x} (h : s.Inv) : Ends (execCvi t x s) :=
  issue_ends (fun _ h1 => withSrc_inv h1 (fun _ _ h2 => withDest_inv (.done (State.writeFixed_inv h2)))) h

theorem execMovl_ends {x} (h : s.Inv) : Ends (execMovl x s) :=
  issue_ends (fun _ h1 => withDest_inv (.done (State.writeFixed_inv h1))) h

theorem execMad_ends {t x} (h : s.Inv) : Ends (execMad t x s) :=
  issue_ends (fun _ h1 => withSrc_inv h1 (fun _ _ h2 =>
    withSrc_inv h2 (fun _ _ h3 => withSrc_inv h3 (fun _ _ h4 => .done (State.writeFixed_inv h4))))) h

theorem execMvs_ends {x} (h : s.Inv) : Ends (execMvs x s) :=
  issue_ends (fun _ h1 => Eff.ite_inv (withAllFixed_inv (withDest_inv (.done (State.writeFixed_inv h1))))
    (withDest_inv (.done (State.writeFixed_inv h1)))) h

theorem State.setTvec_inv {v} (h : s.Inv) : (s.setTvec v).Inv := State.writeWord_inv _ _ _ h

theorem State.writeSpec_inv {i v} (h : s.Inv) : (s.writeSpec i v).Inv := by
  unfold State.writeSpec
  split
  · exact h
  · exact h
  · exact h
  · exact h
  · exact h
  · exact h
  · exact State.setTvec_inv h
  · exact h

theorem execMsv_ends {x} (h : s.Inv) : Ends (execMsv x s) :=
  issue_ends (fun _ h1 => withAllFixed_inv (withSrc_inv h1
    (fun _ _ h2 => Eff.ite_inv .trap (.done (State.writeSpec_inv h2))))) h

theorem leaOp_ends {f x} (h : s.Inv) : Ends (leaOp f x s) :=
  issue_ends (fun _ h1 => withSrc_inv h1 (fun _ _ h2 =>
    withSrc_inv h2 (fun _ _ h3 => withDest_inv (.done (State.writeFixed_inv h3))))) h

theorem execLeaGva_ends {x} (h : s.Inv) : Ends (execLeaGva x s) := by
  unfold execLeaGva
  exact issue_ends (fun _ h1 => withSrc_inv h1 (fun _ _ h2 => withSrc_inv h2 (fun _ _ h3 => by
    split
    · exact .again h3
    dsimp only
    split
    · exact .trap
    · exact withDest_inv (.done (State.writeFixed_inv h3))))) h

/-! ### What Scalar.lean keeps -/

theorem State.writeFloat_inv {r v lat hd} (h : s.Inv) : (s.writeFloat r v lat hd).Inv := State.writeFlagged_inv h

theorem fltOp_ends {lat f t x} (h : s.Inv) : Ends (fltOp lat f t x s) :=
  issue_ends (fun _ h1 => withSrc_inv h1 (fun _ _ h2 =>
    withSrc_inv h2 (fun _ _ h3 => withDest_inv (.done (State.writeFloat_inv h3))))) h

theorem execFma_ends {t x} (h : s.Inv) : Ends (execFma t x s) :=
  issue_ends (fun _ h1 => withSrc_inv h1 (fun _ _ h2 =>
    withSrc_inv h2 (fun _ _ h3 => withSrc_inv h3 (fun _ _ h4 => .done (State.writeFloat_inv h4))))) h

theorem fltUnary_ends {lat f m x} (h : s.Inv) : Ends (fltUnary lat f m x s) :=
  issue_ends (fun _ h1 => withSrc_inv h1 (fun _ _ h2 => withDest_inv (.done (State.writeFloat_inv h2)))) h

theorem execFcvt_ends {t x} (h : s.Inv) : Ends (execFcvt t x s) := by
  unfold execFcvt
  exact fltUnary_ends h

theorem execFcvti_ends {t x} (h : s.Inv) : Ends (execFcvti t x s) := by
  unfold execFcvti
  exact fltUnary_ends h

theorem execIcvtf_ends {t x} (h : s.Inv) : Ends (execIcvtf t x s) := by
  unfold execIcvtf
  refine issue_ends (fun _ h1 => withSrc_inv h1 fun _ _ h2 => ?_) h
  dsimp only
  exact withDest_inv (.done (State.writeFloat_inv h2))

theorem execFrnd_ends {t x} (h : s.Inv) : Ends (execFrnd t x s) := by
  unfold execFrnd
  exact fltUnary_ends h

/-! ### What Image.lean keeps -/

theorem State.reachRecord_inv {core task cxa write} (h : s.Inv) : (s.reachRecord core task cxa write).Inv := by
  unfold State.reachRecord
  dsimp only
  split
  · exact State.ite_inv h (State.ite_inv h h)
  · exact h

theorem State.saveRecord_inv {x1 t} (h : s.Inv) : (s.saveRecord x1 t).Inv := State.writeMem_inv _ _ _ h

theorem State.touchBank_inv {core t} (h : s.Inv) : (s.touchBank core t).Inv := by
  unfold State.touchBank
  split
  · exact State.ite_inv h h
  · exact h

theorem State.touchImage_inv {core cxa} (h : s.Inv) : (s.touchImage core cxa).Inv := by
  unfold State.touchImage
  split
  · exact State.touchBank_inv h
  · exact h

theorem State.updImage_inv {core cxa f} (h : s.Inv) : (s.updImage core cxa f).Inv := by
  unfold State.updImage
  split
  · exact h
  dsimp only
  split
  · exact State.updThr_inv (State.ite_inv (State.reachRecord_inv h) h)
  · exact State.saveRecord_inv (State.updThr_inv (State.ite_inv (State.reachRecord_inv h) h))

/-! ### What Home.lean keeps -/

theorem State.takeDraught_inv {dn} (h : s.Inv) : InvOk (s.takeDraught dn) := by
  unfold State.takeDraught
  dsimp only
  split
  · split
    · split
      · split
        · exact .ok h
        · exact .error
      · exact .error
    split
    · split
      · exact .ok h
      · exact .error
    · exact .error
  split
  · split
    · split
      · exact .ok h
      · exact .error
    · exact .error
  split
  · split
    · exact .ok h
    · exact .error
  · exact .error

theorem withDraught_inv {dn} {k : State → Eff} (h : s.Inv) (hk : ∀ (t : State), t.Inv → (k t).Inv) :
    (withDraught dn s k).Inv := by
  unfold withDraught
  split
  · rename_i e1
    exact hk _ (InvOk.of_ok e1 (State.takeDraught_inv h))
  · exact .park

theorem withCharge_inv {home} {k : State → Eff} (h : s.Inv) (hk : ∀ (t : State), t.Inv → (k t).Inv) :
    (withCharge home s k).Inv := by
  unfold withCharge
  split
  · exact hk _ h
  · exact withDraught_inv h hk

theorem State.ackWith_inv {src home level} (h : s.Inv) : (s.ackWith src home level).Inv := by
  unfold State.ackWith
  split <;> exact h

theorem State.ackTo_inv {src home} (h : s.Inv) : (s.ackTo src home).Inv := State.ackWith_inv h

theorem State.touchL2_inv {home x2 pol wr} (h : s.Inv) : (s.touchL2 home x2 pol wr).Inv := h

theorem State.dropNear_inv {core} (h : s.Inv) : (s.dropNear core).Inv := h

theorem State.awaitReply_inv {d ea acq emptied} (h : s.Inv) : (s.awaitReply d ea acq emptied).Inv := h

theorem State.replyBy_inv {d ea acq emptied bs} (h : s.Inv) : (s.replyBy d ea acq emptied bs).Inv := h

theorem State.nakBy_inv {d ea acq emptied reason home} (h : s.Inv) : (s.nakBy d ea acq emptied reason home).Inv := h

theorem State.landRecord_inv {core cxa} (h : s.Inv) : (s.landRecord core cxa).Inv := by
  unfold State.landRecord
  split
  · exact h
  split
  · exact State.ite_inv (State.updImage_inv (State.ite_inv h h)) h
  · exact h

theorem State.landReply_inv {core cxa bs} (h : s.Inv) : (s.landReply core cxa bs).Inv := by
  unfold State.landReply
  split
  · exact h
  dsimp only
  split
  · exact State.removeThr_inv h
  · exact State.makeReady_inv (State.ite_then_inv State.dropNear_inv
      (State.ite_then_inv State.landRecord_inv (State.updImage_inv (State.touchImage_inv h))))

theorem State.landTrap_inv {core cxa reason} (h : s.Inv) : (s.landTrap core cxa reason).Inv := by
  unfold State.landTrap
  split
  · exact h
  · exact State.asThr_inv (fun _ h1 => State.trapWaiting_inv h1) h

theorem State.recordFault_inv {core cxa sub ea} (h : s.Inv) : (s.recordFault core cxa sub ea).Inv :=
  State.updImage_inv h

theorem State.storeDone_inv {core cxa} (h : s.Inv) : (s.storeDone core cxa).Inv := State.updImage_inv h

theorem State.answerPeer_inv {pkt opc sub data} (h : s.Inv) : (s.answerPeer pkt opc sub data).Inv := by
  unfold State.answerPeer
  dsimp only
  exact h

theorem Waiter.reply_inv {w v} (h : s.Inv) : (Waiter.reply w v s).Inv := by
  unfold Waiter.reply
  split
  · exact h
  · exact State.ite_inv (State.storeDone_inv (State.ackTo_inv h)) (State.ackTo_inv h)

theorem State.nakPeer_inv {pkt reason} (h : s.Inv) : (s.nakPeer pkt reason).Inv := by
  unfold State.nakPeer
  dsimp only
  split
  · exact h
  · exact State.foldl_inv (fun _ _ h1 => h1) h

theorem Waiter.nak_inv {w reason} (h : s.Inv) : (Waiter.nak w reason s).Inv := by
  unfold Waiter.nak
  split
  · exact State.nakPeer_inv h
  · exact State.ackTo_inv h

theorem Waiter.perform_inv {w} (h : s.Inv) : (Waiter.perform w s).Inv := by
  unfold Waiter.perform
  dsimp only
  split
  · exact Waiter.nak_inv h
  split
  · exact Waiter.reply_inv h
  · exact Waiter.reply_inv (State.ite_then_inv (fun h1 => State.addPoison_inv _ _ h1) (State.writeWord_inv _ _ _ h))
  · exact Waiter.reply_inv h
  · exact Waiter.reply_inv h
  · exact h

theorem State.serveWord_inv {word n} (h : s.Inv) : (State.serveWord word n s).Inv := by
  induction n generalizing word s with
  | zero =>
    rw [State.serveWord]
    exact h
  | succ n ih =>
    rw [State.serveWord]
    split
    · exact h
    · exact ih (Waiter.perform_inv h)

theorem State.mapDeadlines_inv {f} (h : s.Inv) : (s.mapDeadlines f).Inv := h

theorem State.mapWaits_inv {p} (h : s.Inv) : (s.mapWaits p).Inv := h

theorem State.afterWrite_inv {x1 n} (h : s.Inv) : (s.afterWrite x1 n).Inv := by
  unfold State.afterWrite
  dsimp only
  split
  · split
    · exact State.foldl_inv (fun _ _ h7 => h7) h
    · exact State.foldl_inv (fun _ _ h8 => State.serveWord_inv h8) (State.foldl_inv (fun _ _ h9 => h9) h)
  · exact State.ite_inv h (State.foldl_inv (fun _ _ h10 => State.serveWord_inv h10) h)

theorem State.homeWrite_inv {x1 bs} (h : s.Inv) : (s.homeWrite x1 bs).Inv :=
  State.afterWrite_inv (State.writeMem_inv _ _ _ h)

theorem State.homeSetFull_inv {x1 full} (h : s.Inv) : (s.homeSetFull x1 full).Inv := State.afterWrite_inv h

theorem State.addWaiter_inv {w} (h : s.Inv) : (s.addWaiter w).Inv := h

theorem State.nakReq_inv {r reason} (h : s.Inv) : (s.nakReq r reason).Inv := State.ackTo_inv h

theorem State.msixSend_inv {v} (h : s.Inv) : (s.msixSend v).Inv := State.emit_inv h

theorem State.msixDo_inv {v} (h : s.Inv) : (s.msixDo v).Inv := State.ite_inv h (State.msixSend_inv h)

theorem State.performReq_inv {r} (h : s.Inv) : (s.performReq r).Inv := by
  unfold State.performReq
  split
  · exact State.nakReq_inv h
  split
  · exact State.nakReq_inv h
  dsimp only
  split
  · split
    · exact State.ackTo_inv (State.ite_then_inv State.storeDone_inv (State.emit_inv (State.ite_inv h h)))
    · exact State.ackTo_inv (State.ite_then_inv State.storeDone_inv
        (State.homeWrite_inv (State.ite_inv (State.ite_inv h h) (State.setCore_inv (State.ite_inv h h)))))
  · exact State.ackTo_inv (State.ite_then_inv State.storeDone_inv (State.homeSetFull_inv (State.ite_inv h h)))
  · exact State.ackTo_inv (State.ite_then_inv State.storeDone_inv (State.msixDo_inv (State.ite_inv h h)))
  · exact State.ackTo_inv (State.ite_then_inv State.storeDone_inv (State.setCore_inv (State.ite_inv h h)))
  split
  · split
    · exact h
    · exact State.ackTo_inv (State.ite_inv (State.storeDone_inv (State.homeWrite_inv h)) (State.homeWrite_inv h))
  split
  · exact h
  · exact State.ackTo_inv (State.ite_inv (State.storeDone_inv (State.homeWrite_inv h)) (State.homeWrite_inv h))

theorem State.performAll_inv {l} (h : s.Inv) : (State.performAll l s).Inv := by
  induction l generalizing s with
  | nil =>
    rw [State.performAll]
    exact h
  | cons y l ih =>
    rw [State.performAll]
    exact ih (State.ite_inv h (State.performReq_inv h))

theorem State.performPrior_inv {core home} (h : s.Inv) : (s.performPrior core home).Inv :=
  State.ite_inv (State.performAll_inv (State.ite_inv h h)) h

theorem withReady_inv {x1} {k : Eff} (hk : k.Inv) : (withReady x1 s k).Inv := Eff.ite_inv .park hk

theorem withOrder_inv {home} {k : State → Eff} (h : s.Inv) (hk : ∀ (t : State), t.Inv → (k t).Inv) :
    (withOrder home s k).Inv := Eff.ite_inv .park (hk _ (State.performPrior_inv h))

theorem withFar_inv {p} {k : State → Eff} (h : s.Inv) (hk : ∀ (t : State), t.Inv → (k t).Inv) : (withFar p s k).Inv :=
  withOrder_inv h (fun _ h1 => withCharge_inv h1 hk)

theorem withOwnOrder_inv {home} {k : State → Eff} (h : s.Inv) (hk : ∀ (t : State), t.Inv → (k t).Inv) :
    (withOwnOrder home s k).Inv := Eff.ite_inv .lend (hk _ (State.performPrior_inv h))

theorem State.sendPeer_inv {posted r ea p w off opc sub len data} (h : s.Inv) :
    (s.sendPeer posted r ea p w off opc sub len data).Inv := State.ite_inv h h

theorem State.sendEngine_inv {owner core idx p w off ops} (h : s.Inv) :
    (s.sendEngine owner core idx p w off ops).Inv :=
  h

theorem withPerformed_inv {sc dst far} {k : Eff} (hk : k.Inv) : (withPerformed sc dst far s k).Inv :=
  Eff.ite_inv .park hk

theorem withRecorded_inv {k : Eff} (hk : k.Inv) : (withRecorded s k).Inv := by
  unfold withRecorded
  split
  · exact .posted
  · exact hk

theorem withRelease_inv {sc dst} {k : Eff} (hk : k.Inv) : (withRelease sc dst s k).Inv :=
  withRecorded_inv (withPerformed_inv hk)

theorem withStores_inv {k : Eff} (hk : k.Inv) : (withStores s k).Inv := Eff.ite_inv (withRecorded_inv hk) .park

theorem State.noteRead_inv {near cp x3 home paged leaf} (h : s.Inv) :
    (s.noteRead near cp x3 home paged leaf).Inv := by
  unfold State.noteRead
  split
  · exact h
  dsimp only
  split
  · exact State.ite_inv h h
  · exact h

theorem withRead_inv {cp near} {nak : BitVec 8 → ℕ → State → Eff} {l} {k : List Byte → State → Eff}
    (hnak : ∀ (a : BitVec 8) (b : ℕ) (t : State), t.Inv → (nak a b t).Inv) (h : s.Inv)
      (hk : ∀ (a : List Byte) (t : State), t.Inv → (k a t).Inv) :
    (withRead cp near nak l s k).Inv := by
  induction l generalizing cp near nak s k with
  | nil =>
    rw [withRead]
    exact hk _ _ h
  | cons y l ih =>
    unfold withRead
    dsimp only
    split
    · exact ih hnak h (fun _ _ h1 => hk _ _ h1)
    split
    · exact withOrder_inv h (fun _ h2 => withReady_inv (withCharge_inv h2 (fun _ h3 => by
        split
        · exact hnak _ _ _ (State.ackTo_inv h3)
        · exact ih hnak (State.noteRead_inv (State.ackTo_inv h3)) (fun _ _ h4 => hk _ _ h4))))
    · exact ih hnak h (fun _ _ h5 => hk _ _ h5)

theorem State.noteZeros_inv {ls} (h : s.Inv) : (s.noteZeros ls).Inv := State.ite_inv h h

theorem State.hostRead_inv {addr n} (h : s.Inv) : (s.hostRead addr n).Inv := State.askHost_inv h

theorem withPosts_inv {mk cp ea l x5} {k : State → Eff} (h : s.Inv) (hk : ∀ (t : State), t.Inv → (k t).Inv) :
    (withPosts mk cp ea l x5 s k).Inv := by
  induction l generalizing mk cp ea x5 s k with
  | nil =>
    rw [withPosts]
    exact hk _ h
  | cons y l ih =>
    unfold withPosts
    split
    · exact withCharge_inv h (fun _ h1 => ih h1 hk)
    · exact ih h hk
    · exact ih h hk

/-! ### What Translation.lean keeps -/

theorem State.adoptGen_inv {cl sel gen} (h : s.Inv) : (s.adoptGen cl sel gen).Inv :=
  State.mapDeadlines_inv (State.mapWaits_inv (State.foldl_inv (fun _ _ h1 => h1)
    (State.foldl_inv (fun _ _ h2 => h2) h)))

theorem State.startGen_inv {cl sel} (h : s.Inv) : (s.startGen cl sel).Inv := State.adoptGen_inv h

/-! ### What MemOps.lean keeps -/

theorem withBlockRead_inv {d sub acq cp near ea s0 ls} (h : s.Inv) :
    (withBlockRead d sub acq cp near ea s0 ls s).Inv := by
  unfold withBlockRead
  split
  · exact withFar_inv h (fun _ h1 => .stay (State.awaitReply_inv (State.sendPeer_inv h1)))
  · exact withOrder_inv h (fun _ h2 => .stay (State.awaitReply_inv (State.hostRead_inv h2)))
  · exact withRead_inv (fun _ _ _ h3 => .stay h3) h (fun _ _ h4 => .stay (State.replyBy_inv (State.noteZeros_inv h4)))

theorem execLd_ends {t x} (h : s.Inv) : Ends (execLd t x s) := by
  unfold execLd
  exact issue_ends (fun _ h1 => withEa_inv h1 (fun _ _ h2 => withPlace_inv h2 (fun _ _ h3 => withDest_inv (by
    dsimp only
    split
    · split
      · exact withOwnOrder_inv h3 (fun _ h4 => Eff.ite_inv .trap (.done h4))
      · exact .done h3
    · exact withBlockRead_inv h3)))) h

theorem withStc_inv {n} {k : Eff} (hk : k.Inv) : (withStc n s k).Inv := Eff.ite_inv hk .park

theorem withStore_inv {mk sub cp ea ls bs} {k : State → Eff} (h : s.Inv) (hk : ∀ (t : State), t.Inv → (k t).Inv) :
    (withStore mk sub cp ea ls bs s k).Inv := by
  unfold withStore
  exact withStc_inv (by
    split
    · exact withFar_inv h (fun _ h1 => hk _ (State.sendPeer_inv h1))
    · exact withPosts_inv h hk)

theorem execSt_ends {t x} (h : s.Inv) : Ends (execSt t x s) := by
  unfold execSt
  exact issue_ends (fun _ h1 => withEa_inv h1 (fun _ _ h2 =>
    withSrc_inv h2 (fun _ _ h3 => withPlace_inv h3 (fun _ _ h4 => by
    split
    · split
      · exact withOwnOrder_inv h4 (fun _ h5 => .done (State.homeWrite_inv h5))
      · exact .done h4
    · exact withStore_inv h4 (fun _ h6 => .done h6))))) h

theorem State.waitAtHome_inv {kind x2 home paged v r ea cp emptied} (h : s.Inv) :
    (s.waitAtHome kind x2 home paged v r ea cp emptied).Inv := h

theorem withHome_inv {d acq x3 home n ea s0} {k : State → Eff} (h : s.Inv) (hk : ∀ (t : State), t.Inv → (k t).Inv) :
    (withHome d acq x3 home n ea s0 s k).Inv := by
  unfold withHome
  exact withOrder_inv h (fun _ h1 => withReady_inv (withCharge_inv h1 (fun _ h2 => by
    split
    · exact .stay (State.nakBy_inv (State.ackTo_inv h2))
    · exact hk _ h2)))

theorem execLdc_ends {x} (h : s.Inv) : Ends (execLdc x s) := by
  unfold execLdc
  exact issue_ends (fun _ h1 => withEa_inv h1 (fun _ _ h2 => withPlace_inv h2 (fun _ _ h3 => withDest_inv (by
    dsimp only
    split
    · exact withHome_inv h3 (fun _ h4 => Eff.ite_inv (.stay
        (State.replyBy_inv (State.homeSetFull_inv (State.ackTo_inv (State.ite_inv h4 h4)))))
          (.stay (State.waitAtHome_inv (State.ite_inv h4 h4))))
    · exact withBlockRead_inv h3)))) h

theorem execStp_ends {x} (h : s.Inv) : Ends (execStp x s) :=
  issue_ends (fun _ h1 => withEa_inv h1 (fun _ _ h2 =>
    withSrc_inv h2 (fun _ _ h3 => withPlace_inv h3 (fun _ _ h4 =>
      withRelease_inv (withStore_inv h4 (fun _ h5 => .done h5)))))) h

theorem execLfe_ends {x} (h : s.Inv) : Ends (execLfe x s) := by
  unfold execLfe
  exact issue_ends (fun _ h1 => withEa_inv h1 (fun _ _ h2 => withPlace_inv h2 (fun _ _ h3 => withDest_inv (by
    dsimp only
    split
    · exact withHome_inv h3 (fun _ h4 => .stay (State.replyBy_inv (State.ackTo_inv (State.ite_inv h4 h4))))
    · exact .stay (State.replyBy_inv (State.noteZeros_inv h3))
    · exact withBlockRead_inv h3)))) h

theorem sfeTo_ends {full x} (h : s.Inv) : Ends (sfeTo full x s) :=
  issue_ends (fun _ h1 => withEa_inv h1 (fun _ _ h2 =>
    withPlace_inv h2 (fun _ _ h3 => withStore_inv h3 (fun _ h4 => .done h4)))) h

theorem execLdm_ends {n x} (h : s.Inv) : Ends (execLdm n x s) :=
  issue_ends (fun _ h1 => withEa_inv h1 (fun _ _ h2 =>
    withAccess_inv h2 (fun _ _ h3 => withDests_inv h3 (withBlockRead_inv h3)))) h

theorem execStm_ends {n x} (h : s.Inv) : Ends (execStm n x s) :=
  issue_ends (fun _ h1 => withEa_inv h1 (fun _ _ h2 =>
    withRegs_inv h2 (fun _ => withAccess_inv h2 (fun _ _ h3 => withStore_inv h3 (fun _ h4 => .done h4))))) h

theorem State.bringLine_inv {who g cp l large} (h : s.Inv) : (s.bringLine who g cp l large).Inv :=
  State.ite_inv h (State.ite_inv h h)

theorem State.prefetch_inv {cp ts ea} (h : s.Inv) : (s.prefetch cp ts ea).Inv := by
  unfold State.prefetch
  split
  · exact h
  split
  · split
    · exact State.bringLine_inv h
    · exact h
    · exact State.askPage_inv h
  · exact h

theorem execPfch_ends {x} (h : s.Inv) : Ends (execPfch x s) := by
  unfold execPfch
  exact issue_ends (fun _ h1 => withEa_inv h1 (fun _ _ h2 => by
    split
    · exact .again h2
    · exact .done (State.prefetch_inv h2))) h

theorem execSgp_ends {x} (h : s.Inv) : Ends (execSgp x s) := by
  unfold execSgp
  exact issue_ends (fun _ h1 => by
    split
    · exact .again h1
    · exact withDests_inv h1 (.done (State.writeRegs_inv h1))) h

theorem execPgq_ends {x} (h : s.Inv) : Ends (execPgq x s) := by
  unfold execPgq
  exact issue_ends (fun _ h1 => withEa_inv h1 (fun _ _ h2 => withGva_inv h2 (fun _ => withDest_inv (by
    split
    · exact .trap
    · exact .done h2
    · exact Eff.ite_inv .trap (.done h2)
    · exact .done h2
    split
    · exact .done h2
    split
    · exact .done h2
    · exact .done h2
    split
    · rename_i e3
      exact .again (State.lend_inv (State.mapRes_inv (InvOpt.get_snd e3 (State.postMiss_inv h2))))
    · exact .lend)))) h

theorem discardPages_inv {task n x3 x4} (h : s.Inv) : (discardPages task n x3 x4 s).2.Inv := by
  induction n generalizing task x3 x4 s with
  | zero =>
    rw [discardPages]
    exact h
  | succ n ih =>
    rw [discardPages]
    split
    · split
      · exact ih (State.writeWord_inv _ _ _ h)
      · exact ih h
    · exact ih h

theorem execDsc_ends {x} (h : s.Inv) : Ends (execDsc x s) := by
  unfold execDsc
  exact issue_ends (fun _ h1 => withEa_inv h1 (fun _ _ h2 => withSrc_inv h2 (fun _ _ h3 => by
    split
    · exact Eff.ite_inv .park (.done h3)
    split
    · exact Eff.ill_inv
    · exact withGva_inv h3 (fun _ => by
        split
        · exact .trap
        · exact withStores_inv (by
            dsimp only
            split
            · split
              · exact .again (State.parkOn_inv (State.mapRes_inv (State.startGen_inv h3)))
              · exact .done (State.writeX_inv (State.startGen_inv h3))
            split
            · exact .again (State.parkOn_inv (State.mapRes_inv (State.startGen_inv (discardPages_inv h3))))
            · exact .done (State.writeX_inv (State.startGen_inv (discardPages_inv h3)))))))) h

/-! ### What Atomics.lean keeps -/

theorem State.homeAmo_inv {fn x2 v} (h : s.Inv) : (s.homeAmo fn x2 v).2.2.Inv := State.homeWrite_inv h

theorem State.homeCas_inv {n x2 e v} (h : s.Inv) : (s.homeCas n x2 e v).2.Inv :=
  State.ite_inv (State.homeWrite_inv h) h

theorem State.hostAtomic_inv {op addr n v w} (h : s.Inv) : (s.hostAtomic op addr n v w).Inv := State.askHost_inv h

theorem withHomeOp_inv {d acq x3 home paged leaf n cp ea s0} {k : State → List Byte × State} (h : s.Inv)
    (hk : ∀ (t : State), t.Inv → (k t).2.Inv) :
    (withHomeOp d acq x3 home paged leaf n cp ea s0 s k).Inv :=
  withHome_inv h (fun _ h1 => .stay (State.replyBy_inv (State.ackTo_inv (hk _ (State.ite_inv h1 h1)))))

theorem amoOp_ends {fn x} (h : s.Inv) : Ends (amoOp fn x s) := by
  unfold amoOp
  exact issue_ends (fun _ h1 => withEa_inv h1 (fun _ _ h2 =>
    withSrc_inv h2 (fun _ _ h3 => withPlace_inv h3 (fun _ _ h4 => withDest_inv (by
    split
    · exact withHomeOp_inv h4 (fun _ h5 => State.homeAmo_inv h5)
    · exact withFar_inv h4 (fun _ h6 => .stay (State.awaitReply_inv (State.sendPeer_inv h6)))
    · exact withOrder_inv h4 (fun _ h7 => .stay (State.awaitReply_inv (State.hostAtomic_inv h7)))
    · exact .again h4))))) h

theorem execCas_ends {f x} (h : s.Inv) : Ends (execCas f x s) := by
  unfold execCas
  exact issue_ends (fun _ h1 => withEa_inv h1 (fun _ _ h2 =>
    withSrc_inv h2 (fun _ _ h3 => withReg_inv h3 (fun _ _ h4 => withPlace_inv h4 (fun _ _ h5 => withDest_inv (by
    dsimp only
    split
    · exact withRelease_inv (by
        split
        · exact withHomeOp_inv h5 (fun _ h6 => State.homeCas_inv h6)
        · exact withFar_inv h5 (fun _ h7 => .stay (State.awaitReply_inv (State.sendPeer_inv h7)))
        · exact withOrder_inv h5 (fun _ h8 => .stay (State.awaitReply_inv (State.hostAtomic_inv h8)))
        · exact .again h5)
    split
    · exact withHomeOp_inv h5 (fun _ h9 => State.homeCas_inv h9)
    · exact withFar_inv h5 (fun _ h10 => .stay (State.awaitReply_inv (State.sendPeer_inv h10)))
    · exact withOrder_inv h5 (fun _ h11 => .stay (State.awaitReply_inv (State.hostAtomic_inv h11)))
    · exact .again h5)))))) h

theorem execLda_ends {sc x} (h : s.Inv) : Ends (execLda sc x s) :=
  issue_ends (fun _ h1 => withEa_inv h1 (fun _ _ h2 =>
    withPlace_inv h2 (fun _ _ h3 => withDest_inv (withBlockRead_inv h3)))) h

theorem execStl_ends {sc x} (h : s.Inv) : Ends (execStl sc x s) :=
  issue_ends (fun _ h1 => withEa_inv h1 (fun _ _ h2 =>
    withSrc_inv h2 (fun _ _ h3 => withRecorded_inv (withPlace_inv h3
      (fun _ _ h4 => withRelease_inv (withStore_inv h4 (fun _ h5 => .done h5))))))) h

theorem execFence_ends {sc x} (h : s.Inv) : Ends (execFence sc x s) :=
  issue_ends (fun _ h1 => Eff.ite_inv (withPerformed_inv
    (withRecorded_inv (Eff.ite_inv .park (.done (State.ite_inv (State.mapRes_inv (State.ite_inv h1 h1))
      (State.ite_inv h1 h1)))))) (Eff.ite_inv .park (.done
        (State.ite_inv (State.mapRes_inv (State.ite_inv h1 h1)) (State.ite_inv h1 h1))))) h

theorem wtwOp_ends {kind sub x} (h : s.Inv) : Ends (wtwOp kind sub x s) := by
  unfold wtwOp
  exact issue_ends (fun _ h1 => withEa_inv h1 (fun _ _ h2 =>
    withSrc_inv h2 (fun _ _ h3 => withPlace_inv h3 (fun _ _ h4 => withDest_inv (by
    dsimp only
    split
    · exact withHome_inv h4 (fun _ h5 => Eff.ite_inv (.stay
        (State.replyBy_inv (State.ackTo_inv (State.ite_inv h5 h5))))
          (.stay (State.waitAtHome_inv (State.ite_inv h5 h5))))
    · exact withFar_inv h4 (fun _ h6 => .stay (State.awaitReply_inv (State.sendPeer_inv h6)))
    · exact .again h4
    · exact .again h4))))) h

/-! ### What Contexts.lean keeps -/

theorem State.cxfEvent_inv {core cxa op} (h : s.Inv) : (s.cxfEvent core cxa op).Inv := h

theorem State.toRecord_inv {t} (h : s.Inv) : (s.toRecord t).2.Inv := by
  unfold State.toRecord
  split
  · exact State.updThr_inv h
  dsimp only
  split
  · exact State.saveRecord_inv (State.updThr_inv (State.reachRecord_inv h))
  · exact State.updThr_inv (State.reachRecord_inv h)

theorem State.emberSpace_inv {core n} (h : s.Inv) : (State.emberSpace core n s).2.Inv := by
  induction n generalizing core s with
  | zero =>
    rw [State.emberSpace]
    exact h
  | succ n ih =>
    rw [State.emberSpace]
    split
    · exact h
    split
    · exact h
    · exact ih (State.toRecord_inv h)

theorem State.toEmber_inv {t} (h : s.Inv) : (s.toEmber t).2.Inv := by
  unfold State.toEmber
  dsimp only
  split
  · exact State.updThr_inv (State.touchBank_inv (State.emberSpace_inv h))
  · exact State.emberSpace_inv h

theorem State.backAll_inv {core} (h : s.Inv) : (s.backAll core).Inv :=
  State.foldl_inv (fun _ _ h1 => State.toEmber_inv h1) h

theorem State.takeLine_inv {core} (h : s.Inv) : (s.takeLine core).2.Inv := by
  unfold State.takeLine
  split
  · exact h
  split
  · exact State.toEmber_inv h
  · exact h

theorem State.seatRoom_inv {core} (h : s.Inv) : (s.seatRoom core).2.Inv := by
  unfold State.seatRoom
  split
  · exact h
  · exact State.emberSpace_inv h

theorem State.seat_inv {core cxa} (h : s.Inv) : (s.seat core cxa).Inv := by
  unfold State.seat
  split
  · exact State.updThr_inv (State.touchBank_inv h)
  · exact State.updThr_inv h

theorem State.placeImage_inv {core cxa} (h : s.Inv) : (s.placeImage core cxa).Inv := by
  unfold State.placeImage
  dsimp only
  split
  · exact State.seat_inv (State.seatRoom_inv h)
  split
  · exact State.toRecord_inv (State.seatRoom_inv h)
  · exact State.seatRoom_inv h

theorem State.markCf_inv {core cxa} (h : s.Inv) : (s.markCf core cxa).Inv := h

theorem State.updPop_inv {ix f} (h : s.Inv) : (s.updPop ix f).Inv := h

theorem State.materialise_inv {p core i cxa grp} (h : s.Inv) : (s.materialise p core i cxa grp).Inv := by
  unfold State.materialise
  dsimp only
  split
  · exact State.placeImage_inv (State.reachRecord_inv h)
  · exact State.cxfEvent_inv (State.markCf_inv (State.updThr_inv (State.reachRecord_inv h)))

theorem State.materialiseNext_inv {p i} (h : s.Inv) : (s.materialiseNext p i).Inv :=
  State.updPop_inv (State.materialise_inv h)

theorem State.wave_inv {p n x3} (h : s.Inv) : (State.wave p n x3 s).Inv := by
  induction n generalizing p x3 s with
  | zero =>
    rw [State.wave]
    exact h
  | succ n ih =>
    rw [State.wave]
    exact ih (State.materialiseNext_inv h)

theorem State.wakeThread_inv {core cxa} (h : s.Inv) : (s.wakeThread core cxa).2.Inv := by
  unfold State.wakeThread
  split
  · exact h
  split
  · exact State.makeReady_inv (State.updImage_inv h)
  · exact State.updImage_inv h

theorem State.putMsg_inv {core chan m} (h : s.Inv) : (s.putMsg core chan m).Inv := by
  unfold State.putMsg
  dsimp only
  split
  · exact State.wakeThread_inv (State.setCore_inv (State.writeMem_inv _ _ _ h))
  · exact State.setCore_inv (State.writeMem_inv _ _ _ h)

theorem State.complete_inv {core cxa chan m join} (h : s.Inv) : InvOpt (s.complete core cxa chan m join) := by
  unfold State.complete
  split
  · dsimp only
    split
    · exact .some h
    split
    · exact .some h
    split
    · exact .some (State.putMsg_inv h)
    · exact .none
  split
  · exact .some (State.putMsg_inv h)
  · exact .none

theorem State.locateEng_inv {who nd g n} (h : s.Inv) : (s.locateEng who nd g n).Inv := by
  unfold State.locateEng
  split
  · rename_i e1
    split
    · split
      · exact .fail
      · exact .miss (State.noteMiss_inv (Found.Inv.of_miss e1 (State.locate_inv h)))
    split
    · exact .fail
    split
    · exact .fail
    split
    · exact .fail
    split
    · exact .fail
    · exact State.locate_inv h
  · exact State.locate_inv h

theorem State.closePop_inv {ix} (h : s.Inv) : (s.closePop ix).Inv := h

theorem State.doneFailed_inv {p code reason} (h : s.Inv) : (s.doneFailed p code reason).Inv := h

theorem State.tryAdd_inv {p} (h : s.Inv) : (s.tryAdd p).Inv := by
  unfold State.tryAdd
  split
  · exact h
  dsimp only
  split
  · exact h
  split
  · rename_i e1
    have h1 := Found.Inv.of_loc e1 (State.locateEng_inv h)
    split
    · exact State.updPop_inv h1
    split
    · exact State.doneFailed_inv h1
    split
    · exact State.doneFailed_inv h1
    · exact State.closePop_inv (State.homeAmo_inv h1)
  · rename_i e2
    exact State.updPop_inv (State.sendEngine_inv (Found.Inv.of_loc e2 (State.locateEng_inv h)))
  · rename_i e3
    exact State.updPop_inv (State.askHost_inv (Found.Inv.of_loc e3 (State.locateEng_inv h)))
  · exact State.updPop_inv (State.ite_inv h h)
  · exact State.updPop_inv (State.ite_inv h h)
  · exact State.updPop_inv (State.ite_inv h h)
  · exact State.updPop_inv (State.ite_inv h h)
  · exact h
  · rename_i e7
    exact Found.Inv.of_miss e7 (State.locateEng_inv h)

theorem State.doneAdd_inv {p} (h : s.Inv) : (s.doneAdd p).Inv := by
  unfold State.doneAdd
  dsimp only
  split
  · rename_i e1
    exact InvBoth.of_ok e1 (State.tryPort_inv (fun _ h2 => State.tryAdd_inv h2) h)
  · rename_i e3
    exact State.updPop_inv (InvBoth.of_error e3 (State.tryPort_inv (fun _ h4 => State.tryAdd_inv h4) h))

theorem State.popEnds_inv {ix core} (h : s.Inv) : (s.popEnds ix core).Inv := by
  unfold State.popEnds
  split
  · exact State.ite_inv (State.doneAdd_inv h) h
  · exact h

theorem State.releaseAll_inv {l} (h : s.Inv) : (State.releaseAll l s).Inv := by
  induction l generalizing s with
  | nil =>
    rw [State.releaseAll]
    exact h
  | cons y l ih =>
    rw [State.releaseAll]
    exact ih (State.dropNear_inv (State.makeReady_inv h))

theorem State.barrierTest_inv {k id} (h : s.Inv) : (s.barrierTest k id).Inv := by
  unfold State.barrierTest
  split
  · exact State.ite_inv (State.releaseAll_inv h) h
  · exact h

theorem State.leaveGroup_inv {k id core cxa} (h : s.Inv) : (s.leaveGroup k id core cxa).Inv := State.barrierTest_inv h

theorem State.exitGroup_inv {t} (h : s.Inv) : (s.exitGroup t).Inv := State.ite_inv h (State.leaveGroup_inv h)

theorem State.endThread_inv {core cxa} (h : s.Inv) : (s.endThread core cxa).Inv := by
  unfold State.endThread
  split
  · exact h
  dsimp only
  split
  · split
    · exact State.materialise_inv (State.updPop_inv (State.updPop_inv
        (State.exitGroup_inv (State.removeThr_inv (State.orphan_inv h)))))
    · exact State.popEnds_inv (State.updPop_inv (State.exitGroup_inv (State.removeThr_inv (State.orphan_inv h))))
  · exact State.updPop_inv (State.exitGroup_inv (State.removeThr_inv (State.orphan_inv h)))

theorem State.oweX_inv {r} (h : s.Inv) : (s.oweX r).Inv := h

theorem State.oweWord_inv {core cxa r v} (h : s.Inv) : (s.oweWord core cxa r v).Inv := h

/-! ### What Threads.lean keeps -/

theorem withBytes_inv {reg nd ea n align cp} {k : List Byte → State → Eff} (h : s.Inv)
    (hk : ∀ (a : List Byte) (t : State), t.Inv → (k a t).Inv) :
    (withBytes reg nd ea n align cp s k).Inv := by
  unfold withBytes
  split
  · exact hk _ _ h
  · exact withAccess_inv h (fun _ _ h1 => by
      split
      · exact withFar_inv h1 (fun _ h2 => .again (State.awaitReply_inv (State.sendPeer_inv h2)))
      · exact withOrder_inv h1 (fun _ h3 => .again (State.awaitReply_inv (State.hostRead_inv h3)))
      · exact withRead_inv (fun _ _ _ _ => .trap) h1 (fun _ _ h5 => hk _ _ (State.noteZeros_inv h5)))

theorem withCores_inv {pl d} {k : List ℕ → State → Eff} (h : s.Inv)
    (hk : ∀ (a : List ℕ) (t : State), t.Inv → (k a t).Inv) :
    (withCores pl d s k).Inv := by
  unfold withCores
  split
  · exact hk _ _ h
  · exact Eff.ite_inv (hk _ _ h) Eff.ill_inv
  · exact Eff.ite_inv Eff.ill_inv (Eff.ite_inv Eff.ill_inv (hk _ _ h))
  · exact withPlace_inv h (fun _ _ h1 => by
      split
      · exact hk _ _ h1
      · exact Eff.ill_inv)

theorem execSpawn_ends {pl x} (h : s.Inv) : Ends (execSpawn pl x s) := by
  unfold execSpawn
  exact issue_ends (fun _ h1 => withEa_inv h1 (fun _ _ h2 =>
    withDest_inv (withStores_inv (withBytes_inv h2 (fun _ _ h3 => by
    dsimp only
    split
    · exact Eff.ill_inv
    · exact withCores_inv h3 (fun _ _ h4 => by
        split
        · exact Eff.ill_inv
        split
        · exact .trap
        split
        · exact .trap
        split
        · exact .trap
        split
        · exact .park
        · exact withRecords_inv h4 (fun _ h5 => by
            split
            · split
              · exact .park
              · exact .done (State.wave_inv h5)
            · exact .done h5))))))) h

theorem withPend_inv {k : Eff} (hk : k.Inv) : (withPend s k).Inv := Eff.ite_inv (withRecorded_inv hk) .park

theorem execExit_ends {x} (h : s.Inv) : Ends (execExit x s) :=
  issue_ends (fun _ h1 => withPend_inv (withRecords_inv h1 (fun _ h2 => .stay (State.endThread_inv h2)))) h

theorem execPark_ends {x} (h : s.Inv) : Ends (execPark x s) :=
  issue_ends (fun _ h1 => Eff.ite_inv (.done h1) (.stay h1)) h

theorem execWake_ends {x} (h : s.Inv) : Ends (execWake x s) :=
  issue_ends (fun _ h1 => withSrc_inv h1 (fun _ _ h2 =>
    withSrc_inv h2 (fun _ _ h3 => Eff.ite_inv Eff.ill_inv
      (withDest_inv (withRelease_inv (Eff.ite_inv .trap (withCharge_inv h3 (fun _ h4 => .stay h4)))))))) h

theorem execYield_ends {x} (h : s.Inv) : Ends (execYield x s) :=
  issue_ends (fun _ h1 => .stay (State.yieldThr_inv h1)) h

theorem State.leaveFor_inv {hd} (h : s.Inv) : (s.leaveFor hd).Inv := State.removeThr_inv h

theorem execHop_ends {x} (h : s.Inv) : Ends (execHop x s) := by
  unfold execHop
  exact issue_ends (fun _ h1 => withEa_inv h1 (fun _ _ h2 => withGva_inv h2 (fun _ => withLoc_inv h2 (fun _ _ h3 => by
    split
    · exact Eff.ill_inv
    · exact withPend_inv (by
        split
        · exact withFar_inv h3 (fun _ h4 => .stay (State.awaitReply_inv (State.sendPeer_inv h4)))
        split
        · exact .trap
        split
        · exact .done h3
        · exact Eff.ite_inv .trap (Eff.ite_inv .park (withCharge_inv h3
            (fun _ h6 => .stay (State.leaveFor_inv h6))))))))) h

theorem barrier_inv {crew op sc} (h : s.Inv) : (barrier crew op sc s).Inv := by
  unfold barrier
  split
  · split
    · exact Eff.ill_inv
    · exact withRelease_inv (Eff.ite_inv (.done (State.dropNear_inv (State.releaseAll_inv h))) (.stay h))
  · exact Eff.ill_inv

theorem execCbar_ends {x} (h : s.Inv) : Ends (execCbar x s) := issue_ends (fun _ h1 => barrier_inv h1) h

theorem execGbar_ends {x} (h : s.Inv) : Ends (execGbar x s) := issue_ends (fun _ h1 => barrier_inv h1) h

theorem execIbx_ends {x} (h : s.Inv) : Ends (execIbx x s) :=
  issue_ends (fun _ h1 => withDests_inv h1 (Eff.ite_inv .park
    (Eff.ite_inv .trap (.done (State.dropNear_inv (State.writeRegs_inv h1)))))) h

theorem sendLocal_inv {n ch m} (h : s.Inv) : (sendLocal n ch m s).Inv := by
  unfold sendLocal
  split
  · exact .trap
  split
  · exact .park
  · exact withOrder_inv h (fun _ h5 =>
      withCharge_inv h5 (fun _ h6 => .done (State.ackWith_inv (State.putMsg_inv h6))))

theorem sendFar_inv {p n ch m s0} (h : s.Inv) : (sendFar p n ch m s0 s).Inv :=
  Eff.ite_inv .trap (withFar_inv h (fun _ h1 => .stay (State.awaitReply_inv (State.sendPeer_inv h1))))

theorem execIbs_ends {x} (h : s.Inv) : Ends (execIbs x s) :=
  issue_ends (fun _ h1 => withSrc_inv h1 (fun _ _ h2 =>
    withRegs_inv h2 (fun _ => Eff.ite_inv Eff.ill_inv (withStores_inv
      (Eff.ite_inv (sendFar_inv h2) (sendLocal_inv h2)))))) h

theorem execNtc_ends {x} (h : s.Inv) : Ends (execNtc x s) :=
  issue_ends (fun _ h1 => withSrc_inv h1 (fun _ _ h2 => Eff.ite_inv Eff.ill_inv (.done h2))) h

theorem execFork_ends {x} (h : s.Inv) : Ends (execFork x s) := by
  unfold execFork
  exact issue_ends (fun _ h1 => withSrc_inv h1 (fun _ _ h2 => by
    split
    · exact Eff.ill_inv
    split
    · exact Eff.ill_inv
    · exact withDest_inv (by
        split
        · exact .park
        · exact Eff.ite_inv .park (.done (State.writeFixed_inv h2))))) h

theorem execRdv_ends {x} (h : s.Inv) : Ends (execRdv x s) := by
  unfold execRdv
  exact issue_ends (fun _ h1 => by
    split
    · exact Eff.ill_inv
    · exact withDest_inv (by
        split
        · exact Eff.ill_inv
        · exact Eff.ite_inv (.done h1) .park)) h

theorem execCpinOn_ends {x} (h : s.Inv) : Ends (execCpinOn x s) :=
  issue_ends (fun _ h1 => withDest_inv (Eff.ite_inv (.done (State.writeFixed_inv h1))
    (.done (State.writeFixed_inv h1)))) h

theorem execCpinOff_ends {x} (h : s.Inv) : Ends (execCpinOff x s) :=
  issue_ends (fun _ h1 => withDest_inv (.done (State.writeFixed_inv h1))) h

theorem execDrq_ends {x} (h : s.Inv) : Ends (execDrq x s) :=
  issue_ends (fun _ h1 => withSrc_inv h1 (fun _ _ h2 =>
    Eff.ite_inv Eff.ill_inv (withDest_inv (.done (State.writeFixed_inv h2))))) h

theorem execJdr_ends {n x} (h : s.Inv) : Ends (execJdr n x s) :=
  issue_ends (fun _ h1 => withSrc_inv h1 (fun _ _ h2 =>
    Eff.ite_inv Eff.ill_inv (withDest_inv (Eff.ite_inv (.jump h2) (.done h2))))) h

/-! ### What Fabric.lean keeps -/

theorem execSopn_ends {x} (h : s.Inv) : Ends (execSopn x s) := by
  unfold execSopn
  exact issue_ends (fun _ h1 => withEa_inv h1 (fun _ _ h2 => withGva_inv h2 (fun _ => by
    split
    · exact withDest_inv (by
        dsimp only
        split <;> exact .done h2)
    · exact withDest_inv (by
        dsimp only
        split <;> exact .done h2)
    · exact .trap))) h

theorem withStream_inv {op v} {k : SendStream → Eff} (hk : ∀ (a : SendStream), (k a).Inv) :
    (withStream op v s k).Inv := by
  unfold withStream
  split
  · exact Eff.ill_inv
  split
  · exact hk _
  · exact Eff.ill_inv

theorem execScls_ends {x} (h : s.Inv) : Ends (execScls x s) :=
  issue_ends (fun _ h1 => withSrc_inv h1 (fun _ _ h2 =>
    withStream_inv (fun _ => Eff.ite_inv (withStc_inv (withCharge_inv h2 (fun _ h3 => .done h3))) (.done h2)))) h

theorem withStreamPosts_inv {ea x2 x3 l x5} {k : State → Eff} (h : s.Inv) (hk : ∀ (t : State), t.Inv → (k t).Inv) :
    (withStreamPosts ea x2 x3 l x5 s k).Inv := by
  induction l generalizing ea x2 x3 x5 s k with
  | nil =>
    rw [withStreamPosts]
    exact hk _ h
  | cons y l ih =>
    unfold withStreamPosts
    split
    · exact withCharge_inv h (fun _ h1 => ih h1 hk)
    · exact ih h hk

theorem execSput_ends {n x} (h : s.Inv) : Ends (execSput n x s) := by
  unfold execSput
  exact issue_ends (fun _ h1 => withSrc_inv h1 (fun _ _ h2 =>
    withSrc_inv h2 (fun _ _ h3 => withRegs_inv h3 (fun _ =>
      withStream_inv (fun _ => withAccess_inv h3 (fun _ _ h4 => by
    dsimp only
    split
    · exact withStore_inv h4 (fun _ h5 => .done h5)
    · exact withStore_inv h4 (fun _ h6 => .done h6)
    · exact withStc_inv (withStreamPosts_inv h4 (fun _ h7 => .done h7)))))))) h

theorem execDrn_ends {x} (h : s.Inv) : Ends (execDrn x s) :=
  issue_ends (fun _ h1 => withSrc_inv h1 (fun _ _ h2 =>
    Eff.ite_inv Eff.ill_inv (withRecorded_inv (withDest_inv (Eff.ite_inv (.done h2) .park))))) h

theorem execPprbTab_ends {x} (h : s.Inv) : Ends (execPprbTab x s) :=
  issue_ends (fun _ h1 => withSrc_inv h1 (fun _ _ h2 => Eff.ite_inv Eff.ill_inv (withDest_inv (.done h2)))) h

theorem withProbes_inv {port id p r l} {k : State → Eff} (h : s.Inv) (hk : ∀ (t : State), t.Inv → (k t).Inv) :
    (withProbes port id p r l s k).Inv := by
  induction l generalizing port id p r s k with
  | nil =>
    rw [withProbes]
    exact hk _ h
  | cons y l ih =>
    rw [withProbes]
    exact withCharge_inv h (fun _ h1 => ih h1 hk)

theorem execPprbPing_ends {x} (h : s.Inv) : Ends (execPprbPing x s) :=
  issue_ends (fun _ h1 => withSrc_inv h1 (fun _ _ h2 =>
    Eff.ite_inv Eff.ill_inv (withDest_inv (Eff.ite_inv (.done h2) (withProbes_inv h2 (fun _ h3 => .done h3)))))) h

/-! ### What Engines.lean keeps -/

theorem withArray_inv {nd x2 z len step} {k : ℕ → Eff} (h : s.Inv) (hk : ∀ (a : ℕ), (k a).Inv) :
    (withArray nd x2 z len step s k).Inv := by
  unfold withArray
  split
  · exact hk _
  split
  · exact .again h
  split
  · exact .trap
  split
  split
  · exact .trap
  dsimp only
  split
  · exact .trap
  split
  · exact .trap
  split
  · exact .trap
  · exact Eff.ite_inv .trap (Eff.ite_inv .trap (hk _))

theorem State.joinTag_inv (h : s.Inv) : s.joinTag.2.Inv := by
  unfold State.joinTag
  dsimp only
  split <;> exact h

theorem State.cmdDone_inv {core cxa} (h : s.Inv) : (s.cmdDone core cxa).Inv := State.ite_inv h (State.updThr_inv h)

theorem State.finishCmd_inv {core cxa chan m join} (h : s.Inv) : InvOpt (s.finishCmd core cxa chan m join) := by
  unfold State.finishCmd
  split
  · exact .some (State.cmdDone_inv h)
  · exact InvOpt.map (fun _ h1 => State.cmdDone_inv h1) (State.complete_inv h)

theorem State.oweP_inv {p} (h : s.Inv) : (s.oweP p).Inv := h

theorem withStreamRoom_inv {k : Eff} (hk : k.Inv) : (withStreamRoom s k).Inv := Eff.ite_inv hk .park

theorem State.enqueueStream_inv {q} (h : s.Inv) : (s.enqueueStream q).Inv := h

/-! ### What Streams.lean keeps -/

theorem withField_inv {op t x o r f v} {k : Word → FFlags → Eff} (h : s.Inv)
    (hk : ∀ (a : Word) (b : FFlags), (k a b).Inv) :
    (withField op t x o r f s v k).Inv := Eff.ite_inv (withArray_inv h (fun _ => hk _ _)) (hk _ _)

theorem withCapture_inv {o r} {k : Word → State → Eff} (h : s.Inv)
    (hk : ∀ (a : Word) (t : State), t.Inv → (k a t).Inv) :
    (withCapture o r s k).Inv := by
  unfold withCapture
  split
  · exact Eff.ite_inv (hk _ _ h) (withSrc_inv h hk)
  · exact hk _ _ h
  · exact withSrc_inv h hk

theorem streamOp_ends {op i t x} (h : s.Inv) : Ends (streamOp op i t x s) := by
  unfold streamOp
  exact issue_ends (fun _ h1 => by
    split
    exact withCapture_inv h1 (fun _ _ h2 => withCapture_inv h2 (fun _ _ h3 => withCapture_inv h3 (fun _ _ h4 => by
      dsimp only
      split
      · exact withDest_inv (withStores_inv (withField_inv h4
          (fun _ _ => withField_inv h4 (fun _ _ =>
            withField_inv h4 (fun _ _ =>
              withStreamRoom_inv (.done (State.ite_inv
                (State.oweX_inv (State.enqueueStream_inv (State.joinTag_inv h4)))
                  (State.ite_then_inv State.oweP_inv (State.enqueueStream_inv (State.joinTag_inv h4))))))))))
      · exact withStores_inv (withField_inv h4 (fun _ _ =>
          withField_inv h4 (fun _ _ =>
            withField_inv h4 (fun _ _ =>
              withStreamRoom_inv (.done (State.ite_inv
                (State.oweX_inv (State.enqueueStream_inv (State.joinTag_inv h4)))
                  (State.ite_then_inv State.oweP_inv (State.enqueueStream_inv (State.joinTag_inv h4))))))))))))) h

/-! ### What StreamUnit.lean keeps -/

theorem State.putStreamHead_inv {core q} (h : s.Inv) : (s.putStreamHead core q).Inv := h

theorem State.engWrite_inv {x1 bs bad} (h : s.Inv) : (s.engWrite x1 bs bad).Inv :=
  State.afterWrite_inv (State.ite_then_inv (fun h2 => State.foldl_inv (fun _ _ h1 => h1) h2)
    (State.tear_inv (State.writeMem_inv _ _ _ h)))

theorem State.streamResult_inv {op t x q} (h : s.Inv) : (s.streamResult op t x q).Inv := by
  unfold State.streamResult
  dsimp only
  split
  · exact h
  · exact State.ite_inv h h

theorem State.endStream_inv {op t x q} (h : s.Inv) : (s.endStream op t x q).Inv :=
  State.putStreamHead_inv (State.streamResult_inv h)

theorem State.strip_inv {op t x q} (h : s.Inv) : (s.strip op t x q).Inv := by
  unfold State.strip
  dsimp only
  split
  · exact State.endStream_inv h
  split
  · exact State.putStreamHead_inv (State.foldl_inv (fun _ _ h7 => State.engWrite_inv h7) h)
  split
  · exact State.putStreamHead_inv (State.foldl_inv (fun _ _ h10 => State.engWrite_inv h10) h)
  · exact State.endStream_inv (State.foldl_inv (fun _ _ h11 => State.engWrite_inv h11) h)

theorem execStreamStrip_ends {cluster} (h : s.Inv) : Ends (execStreamStrip cluster s) := by
  unfold execStreamStrip
  split
  · exact .next h
  split
  · exact .next h
  split
  · exact .next h
  · exact .next (State.setCluster_inv (State.strip_inv h))

theorem State.streamEnds_inv {n q} (h : s.Inv) : InvOpt (s.streamEnds n q) := by
  unfold State.streamEnds
  split
  · exact .none
  · exact InvOpt.map (fun _ h1 => h1) (State.finishCmd_inv h)

theorem execStreamCompletion_ends {cluster} (h : s.Inv) : Ends (execStreamCompletion cluster s) :=
  .next (InvOpt.getD (InvOpt.findSome (fun _ => InvOpt.findSome (fun _ => State.streamEnds_inv h))) h)

/-! ### What Grains.lean keeps -/

theorem grainOp_ends {op i t x} (h : s.Inv) : Ends (grainOp op i t x s) := by
  unfold grainOp
  exact issue_ends (fun _ h1 => by
    dsimp only
    split
    · exact withSrc_inv h1 (fun _ _ h2 => by
        split
        · exact withSrc_inv h2 (fun _ _ h3 =>
            withDest_inv (withStores_inv (Eff.ite_inv Eff.ill_inv
              (withArray_inv h3 (fun _ =>
                withArray_inv h3 (fun _ =>
                  withStreamRoom_inv (.done (State.oweX_inv (State.enqueueStream_inv (State.joinTag_inv h3))))))))))
        · exact withDest_inv (withStores_inv (Eff.ite_inv Eff.ill_inv
            (withArray_inv h2 (fun _ =>
              withArray_inv h2 (fun _ =>
                withStreamRoom_inv (.done (State.oweX_inv (State.enqueueStream_inv (State.joinTag_inv h2))))))))))
    · exact withSrc_inv h1 (fun _ _ h4 => withSrc_inv h4 (fun _ _ h5 => by
        split
        · exact withSrc_inv h5 (fun _ _ h6 =>
            withStores_inv (Eff.ite_inv Eff.ill_inv (withArray_inv h6
              (fun _ => withArray_inv h6 (fun _ =>
                withStreamRoom_inv (.done (State.enqueueStream_inv (State.joinTag_inv h6))))))))
        · exact withStores_inv (Eff.ite_inv Eff.ill_inv
            (withArray_inv h5 (fun _ =>
              withArray_inv h5 (fun _ =>
                withStreamRoom_inv (.done (State.enqueueStream_inv (State.joinTag_inv h5)))))))))) h

theorem State.grainBlock_inv {op t x q} (h : s.Inv) : (s.grainBlock op t x q).2.Inv := by
  unfold State.grainBlock
  dsimp only
  split
  · split <;> exact State.engWrite_inv h
  · split <;> exact State.engWrite_inv h
  · split
    · exact h
    · exact State.engWrite_inv h
    · exact State.engWrite_inv h
  · split <;> exact h
  · split <;> exact h
  split
  · exact State.engWrite_inv h
  · exact h
  · exact State.engWrite_inv h

theorem State.endGrain_inv {op x q} (h : s.Inv) : (s.endGrain op x q).Inv := by
  unfold State.endGrain
  dsimp only
  split <;> exact h

theorem execGrainBlock_ends {cluster} (h : s.Inv) : Ends (execGrainBlock cluster s) := by
  unfold execGrainBlock
  split
  · exact .next h
  split
  · exact .next h
  split
  · exact .next h
  dsimp only
  split
  · exact .next (State.setCluster_inv (State.endGrain_inv h))
  split
  · exact .next (State.setCluster_inv (State.endGrain_inv h))
  split
  · exact .next (State.setCluster_inv (State.putStreamHead_inv (State.grainBlock_inv h)))
  · exact .next (State.setCluster_inv (State.endGrain_inv (State.grainBlock_inv h)))

theorem withGoodBlock_inv {ea bs} {k : GBlock → Eff} (hk : ∀ (a : GBlock), (k a).Inv) :
    (withGoodBlock ea bs k).Inv := by
  unfold withGoodBlock
  split
  · exact .trap
  · exact .trap
  · exact hk _

theorem execGhdr_ends {x} (h : s.Inv) : Ends (execGhdr x s) :=
  issue_ends (fun _ h1 => withEa_inv h1 (fun _ _ h2 =>
    withDest_inv (withStores_inv (withBytes_inv h2 (fun _ _ h3 => withGoodBlock_inv (fun _ => .done h3)))))) h

theorem State.homeGset_inv {fn v x3 c bs} (h : s.Inv) : (s.homeGset fn v x3 c bs).Inv := by
  unfold State.homeGset
  split
  · exact State.homeWrite_inv h
  · exact h

theorem gsetOp_ends {fn x} (h : s.Inv) : Ends (gsetOp fn x s) := by
  unfold gsetOp
  exact issue_ends (fun _ h1 => withEa_inv h1 (fun _ _ h2 => by
    split
    · exact withSrc_inv h2 (fun _ _ h3 => withStores_inv (by
        split
        · exact Eff.ill_inv
        split
        · exact withGoodBlock_inv (fun _ => .done h3)
        · exact withPlace_inv h3 (fun _ _ h4 => by
            split
            · exact withHome_inv h4 (fun _ h5 =>
                withGoodBlock_inv (fun _ => .stay (State.replyBy_inv
                  (State.homeGset_inv (State.ackTo_inv (State.ite_inv h5 h5))))))
            · exact withFar_inv h4 (fun _ h6 => .again (State.awaitReply_inv (State.sendPeer_inv h6)))
            · exact withOrder_inv h4 (fun _ h7 => .again (State.awaitReply_inv (State.askHost_inv h7)))
            · exact .done h4)))
    · exact withStores_inv (by
        split
        · exact Eff.ill_inv
        split
        · exact withGoodBlock_inv (fun _ => .done h2)
        · exact withPlace_inv h2 (fun _ _ h8 => by
            split
            · exact withHome_inv h8 (fun _ h9 =>
                withGoodBlock_inv (fun _ => .stay (State.replyBy_inv
                  (State.homeGset_inv (State.ackTo_inv (State.ite_inv h9 h9))))))
            · exact withFar_inv h8 (fun _ h10 => .again (State.awaitReply_inv (State.sendPeer_inv h10)))
            · exact withOrder_inv h8 (fun _ h11 => .again (State.awaitReply_inv (State.askHost_inv h11)))
            · exact .done h8)))) h

/-! ### What Schedule.lean keeps -/

theorem State.dieBeat_inv {die} (h : s.Inv) : (s.dieBeat die).Inv :=
  State.setDie_inv (State.foldl_inv (fun _ _ h1 => h1) h)

theorem State.dieBeats_inv {die n} (h : s.Inv) : (State.dieBeats die n s).Inv := by
  induction n generalizing die s with
  | zero =>
    rw [State.dieBeats]
    exact h
  | succ n ih =>
    rw [State.dieBeats]
    exact ih (State.dieBeat_inv h)

theorem State.passDie_inv {d n} (h : s.Inv) : (s.passDie d n).Inv :=
  State.setDie_inv (State.ite_inv h (State.dieBeats_inv h))

theorem State.pass_inv {c} (h : s.Inv) : (s.pass c).Inv := State.foldl_inv (fun _ _ h1 => State.passDie_inv h1) h

theorem State.takeTurn_inv {gap} (h : s.Inv) : (s.takeTurn gap).Inv := State.ite_inv h h

theorem State.switchTo_inv {p} (h : s.Inv) : (s.switchTo p).Inv := by
  unfold State.switchTo
  split <;> exact h

theorem State.select_inv {sel} (h : s.Inv) : (s.select sel).Inv := by
  unfold State.select
  split
  · exact h
  · exact State.ite_inv h (State.switchTo_inv h)

theorem State.endWait_inv {t} (h : s.Inv) : (s.endWait t).Inv := by
  unfold State.endWait
  split
  · exact State.makeReady_inv h
  · exact State.makeReady_inv (State.updImage_inv h)

theorem State.settle_inv {n} (h : s.Inv) : (State.settle n s).Inv := by
  induction n generalizing s with
  | zero =>
    rw [State.settle]
    exact h
  | succ n ih =>
    rw [State.settle]
    split
    · exact h
    · exact ih (State.endWait_inv h)

theorem State.after_inv (h : s.Inv) : s.after.Inv := State.settle_inv h

theorem afterStep_ends {o : Host.Outcome State Fault Refusal} (ho : Ends o) : Ends (afterStep o) := by
  cases ho with
  | next h => exact .next (State.after_inv h)

/-! ### What Pan.lean keeps -/

theorem State.closeTerm_inv {n} (h : s.Inv) : (s.closeTerm n).Inv := h

theorem execLse_ends {x} (h : s.Inv) : Ends (execLse x s) :=
  issue_ends (fun _ h1 => withDest_inv (withStores_inv (Eff.ite_inv (.done h1) (.again h1)))) h

theorem execLsr_ends {x} (h : s.Inv) : Ends (execLsr x s) :=
  issue_ends (fun _ h1 => withStores_inv (.done (State.ite_inv h1 h1))) h

theorem State.serveLease_inv {t} (h : s.Inv) : (s.serveLease t).Inv := by
  unfold State.serveLease
  dsimp only
  split
  · exact State.makeReady_inv (State.updImage_inv h)
  · exact State.ite_inv (State.endWait_inv h) h
  · exact h

theorem execLeaseGrant_ends {cluster} (h : s.Inv) : Ends (execLeaseGrant cluster s) := by
  unfold execLeaseGrant
  dsimp only
  split
  · exact .next h
  · exact .next (State.foldl_inv (fun _ _ h1 => State.serveLease_inv h1) h)

theorem execLeaseTermExpire_ends {cluster} (h : s.Inv) : Ends (execLeaseTermExpire cluster s) := by
  unfold execLeaseTermExpire
  dsimp only
  split
  · exact .next (State.ite_inv h h)
  · exact .next h

theorem execLeaseIdleClose_ends {cluster} (h : s.Inv) : Ends (execLeaseIdleClose cluster s) := by
  unfold execLeaseIdleClose
  dsimp only
  split
  · exact .next (State.ite_inv h h)
  · exact .next h

theorem withPanArray_inv {o nd n v} {k : ℕ → Eff} (h : s.Inv) (hk : ∀ (a : ℕ), (k a).Inv) :
    (withPanArray o nd n v s k).Inv :=
  Eff.ite_inv (withArray_inv h hk) (hk _)

theorem panOp_ends {op i o t x} (h : s.Inv) : Ends (panOp op i o t x s) := by
  unfold panOp
  exact issue_ends (fun _ h1 => withSrc_inv h1 (fun _ _ h2 =>
    withSrc_inv h2 (fun _ _ h3 => withSrc_inv h3 (fun _ _ h4 => withStores_inv (by
    split
    · exact Eff.ill_inv
    split
    exact withPanArray_inv h4 (fun _ =>
      withPanArray_inv h4 (fun _ => Eff.ite_inv (.done (State.admitPan_inv (State.joinTag_inv h4)))
        (.stay (State.parkOn_inv (State.mapRes_inv (State.joinTag_inv h4))))))))))) h

theorem State.putPan_inv {n q} (h : s.Inv) : (s.putPan n q).Inv := h

theorem State.startPan_inv {op t q} (h : s.Inv) : (s.startPan op t q).Inv := by
  unfold State.startPan
  dsimp only
  split
  · exact State.putPan_inv (State.foldl_inv (fun _ _ h1 => State.ite_inv h1 h1) h)
  · split <;> exact h
  · split
    · exact h
    · exact State.ite_inv h h
  · exact State.ite_inv h (State.putPan_inv (State.engWrite_inv h))

theorem execPanStart_ends {cluster} (h : s.Inv) : Ends (execPanStart cluster s) := by
  unfold execPanStart
  dsimp only
  split
  · exact .next h
  split
  · exact .next h
  · exact .next (State.startPan_inv h)

theorem State.commitPan_inv {op q} (h : s.Inv) : (s.commitPan op q).Inv := by
  unfold State.commitPan
  dsimp only
  split
  · exact State.setCluster_inv (State.putPan_inv (State.foldl_inv (fun _ _ h1 => State.ite_inv h1 h1) h))
  · exact h
  · exact h

theorem execPanCommit_ends {cluster} (h : s.Inv) : Ends (execPanCommit cluster s) := by
  unfold execPanCommit
  split
  · exact .next h
  split
  · exact .next h
  · exact .next (State.commitPan_inv h)

theorem State.drainPan_inv {n} (h : s.Inv) : (s.drainPan n).Inv := by
  unfold State.drainPan
  exact State.foldl_inv (fun _ _ h1 => by
    split
    · exact h1
    dsimp only
    split
    · exact State.commitPan_inv (State.ite_inv (State.startPan_inv h1) h1)
    · exact State.ite_inv (State.startPan_inv h1) h1) h

theorem State.panEnd_inv {n} (h : s.Inv) : InvOpt (s.panEnd n) :=
  InvOpt.bind fun _ => InvOpt.map (fun _ h1 => h1) (State.finishCmd_inv h)

theorem execPanCompletion_ends {cluster} (h : s.Inv) : Ends (execPanCompletion cluster s) :=
  .next (InvOpt.getD (InvOpt.findSome (fun _ => State.panEnd_inv h)) h)

/-! ### What Copy.lean keeps -/

theorem withSpan_inv {nd base lo hi z n} {k : ℕ → Eff} (h : s.Inv) (hk : ∀ (a : ℕ), (k a).Inv) :
    (withSpan nd base lo hi z n s k).Inv := by
  unfold withSpan
  split
  · exact hk _
  split
  · exact .again h
  split
  · exact hk _
  · exact .trap

theorem withCopySlot_inv {keep mk} {k : CopySlot → State → Eff} (h : s.Inv)
    (hk : ∀ (a : CopySlot) (t : State), t.Inv → (k a t).Inv) :
    (withCopySlot keep mk s k).Inv := by
  unfold withCopySlot
  dsimp only
  split
  · exact Eff.ite_inv (hk _ _ (State.setCore_inv (State.joinTag_inv h))) (.again h)
  · exact .again h

theorem State.putCopy_inv {core c} (h : s.Inv) : (s.putCopy core c).Inv := h

theorem withRecord_inv {reg ea} {k : List Byte → State → Eff} (h : s.Inv)
    (hk : ∀ (a : List Byte) (t : State), t.Inv → (k a t).Inv) :
    (withRecord reg ea s k).Inv := by
  unfold withRecord
  dsimp only
  split
  · split
    · exact hk _ _ h
    · exact withAccess_inv h (fun _ _ h1 => by
        split
        · exact withFar_inv h1 (fun _ h2 => .again (State.awaitReply_inv (State.sendPeer_inv (State.ite_inv h2 h2))))
        · exact withOrder_inv h1 (fun _ h3 => .again (State.awaitReply_inv
            (State.hostRead_inv (State.ite_inv h3 h3))))
        · exact .again h1)
  · exact withGva_inv h (fun _ => by
      split
      · exact .trap
      split
      · exact hk _ _ h
      · exact withAccess_inv h (fun _ _ h4 => by
          split
          · exact withFar_inv h4 (fun _ h5 => .again (State.awaitReply_inv
              (State.sendPeer_inv (State.ite_inv h5 h5))))
          · exact withOrder_inv h4 (fun _ h6 =>
              .again (State.awaitReply_inv (State.hostRead_inv (State.ite_inv h6 h6))))
          · exact withRead_inv (fun _ _ _ _ => .trap) h4
              (fun _ _ h8 => .again (State.parkFor_inv (State.mapRes_inv (State.noteZeros_inv h8))))))

theorem execRecordFill_ends {core cxa} (h : s.Inv) : Ends (execRecordFill core cxa s) := by
  unfold execRecordFill
  split
  · exact .next h
  split
  · exact .next h
  split
  · exact .next h
  · exact .next (State.asThr_inv (fun _ h1 => State.trapWaiting_inv h1) h)
  · exact .next (State.makeReady_inv (State.updThr_inv (State.ite_inv h h)))

theorem withFlag_inv {flag} {k : Word → Eff} (h : s.Inv) (hk : ∀ (a : Word), (k a).Inv) : (withFlag flag s k).Inv :=
  Eff.ite_inv (hk _) (withSpan_inv h (fun _ => hk _))

theorem execCpy_ends {x} (h : s.Inv) : Ends (execCpy x s) := by
  unfold execCpy
  exact issue_ends (fun _ h1 => withEa_inv h1 (fun _ _ h2 =>
    withDest_inv (withStores_inv (withRecord_inv h2 (fun _ _ h3 => by
    split
    · exact Eff.ill_inv
    · dsimp only
      exact withSpan_inv h3 (fun _ => withSpan_inv h3 (fun _ =>
        withFlag_inv h3 (fun _ => withCopySlot_inv h3 (fun _ _ h4 => .done h4))))))))) h

theorem execCpl_ends {x} (h : s.Inv) : Ends (execCpl x s) :=
  issue_ends (fun _ h1 => withSrc_inv h1 (fun _ _ h2 =>
    withSrc_inv h2 (fun _ _ h3 => withSrc_inv h3 (fun _ _ h4 =>
      withStores_inv (Eff.ite_inv Eff.ill_inv (withSpan_inv h4
        (fun _ => withSpan_inv h4 (fun _ => withCopySlot_inv h4 (fun _ _ h5 => .done h5))))))))) h

theorem fillOp_ends {kind x} (h : s.Inv) : Ends (fillOp kind x s) :=
  issue_ends (fun _ h1 => withSrc_inv h1 (fun _ _ h2 =>
    withSrc_inv h2 (fun _ _ h3 => withSrc_inv h3 (fun _ _ h4 =>
      withStores_inv (Eff.ite_inv Eff.ill_inv (Eff.ite_inv .trap
        (withSpan_inv h4 (fun _ => withCopySlot_inv h4 (fun _ _ h5 => .done h5))))))))) h

theorem execRcfAll_ends {x} (h : s.Inv) : Ends (execRcfAll x s) :=
  issue_ends (fun _ h1 => withStores_inv (.done h1)) h

theorem execRcfOne_ends {x} (h : s.Inv) : Ends (execRcfOne x s) :=
  issue_ends (fun _ h1 => withEa_inv h1 (fun _ _ h2 =>
    withStores_inv (withGva_inv h2 (fun _ => Eff.ite_inv .trap (.done h2))))) h

theorem execCpstH_ends {x} (h : s.Inv) : Ends (execCpstH x s) := by
  unfold execCpstH
  exact issue_ends (fun _ h1 => withSrc_inv h1 (fun _ _ h2 => withDest_inv (withStores_inv (by
    split
    · exact Eff.ill_inv
    split <;> exact .done h2)))) h

theorem execCpstN_ends {x} (h : s.Inv) : Ends (execCpstN x s) :=
  issue_ends (fun _ h1 => withDest_inv (withStores_inv (.done h1))) h

theorem execCpxH_ends {x} (h : s.Inv) : Ends (execCpxH x s) :=
  issue_ends (fun _ h1 => withSrc_inv h1 (fun _ _ h2 =>
    withDest_inv (withStores_inv (Eff.ite_inv Eff.ill_inv (.done h2))))) h

theorem execCpxAll_ends {x} (h : s.Inv) : Ends (execCpxAll x s) :=
  issue_ends (fun _ h1 => withDest_inv (withStores_inv (.done h1))) h

theorem State.holdCopy_inv {core c f wr g} (h : s.Inv) : (s.holdCopy core c f wr g).Inv := by
  unfold State.holdCopy
  dsimp only
  split <;> exact h

theorem State.copyStore_inv {c x2 bs bad} (h : s.Inv) : (s.copyStore c x2 bs bad).Inv := by
  unfold State.copyStore
  split
  · exact State.afterWrite_inv (State.setFullBit_inv _ _ _ (State.tear_inv (State.writeMem_inv _ _ _ h)))
  · exact State.homeSetFull_inv h
  · exact State.homeSetFull_inv h
  · exact State.afterWrite_inv (State.foldl_inv (fun _ _ h1 => h1) (State.tear_inv (State.writeMem_inv _ _ _ h)))

theorem State.copyWrite_inv {core c bs bad word} (h : s.Inv) : (s.copyWrite core c bs bad word).Inv := by
  unfold State.copyWrite
  dsimp only
  split
  · rename_i e1
    have h1 := Found.Inv.of_loc e1 (State.locateEng_inv h)
    split
    · exact h1
    split
    · exact State.putCopy_inv h1
    split
    · exact State.putCopy_inv h1
    · exact State.putCopy_inv (State.copyStore_inv (State.ite_inv (State.touchL2_inv h1) h1))
  · rename_i e2
    split
    · exact State.putCopy_inv (State.sendEngine_inv (Found.Inv.of_loc e2 (State.locateEng_inv h)))
    · exact Found.Inv.of_loc e2 (State.locateEng_inv h)
  · rename_i e3
    exact State.putCopy_inv (State.emit_inv (Found.Inv.of_loc e3 (State.locateEng_inv h)))
  · rename_i e4
    exact Found.Inv.of_loc e4 (State.locateEng_inv h)
  · exact State.holdCopy_inv h
  · exact h
  · rename_i e7
    exact Found.Inv.of_miss e7 (State.locateEng_inv h)

theorem State.copyStep_inv {core c} (h : s.Inv) : (s.copyStep core c).Inv := by
  unfold State.copyStep
  split
  · dsimp only
    split
    · rename_i e1
      have h1 := Found.Inv.of_loc e1 (State.locateEng_inv h)
      split
      · exact h1
      split
      · exact State.putCopy_inv h1
      · exact State.copyWrite_inv (State.ite_inv (State.touchL2_inv h1) h1)
    · rename_i e2
      have h2 := Found.Inv.of_loc e2 (State.locateEng_inv h)
      exact State.copyWrite_inv (State.putCopy_inv (State.ite_inv h2 (State.setCore_inv h2)))
    · rename_i e3
      split
      · exact Found.Inv.of_loc e3 (State.locateEng_inv h)
      · exact State.putCopy_inv (State.sendEngine_inv (Found.Inv.of_loc e3 (State.locateEng_inv h)))
    · rename_i e4
      exact State.putCopy_inv (State.askHost_inv (Found.Inv.of_loc e4 (State.locateEng_inv h)))
    · exact State.holdCopy_inv h
    · exact h
    · rename_i e7
      exact Found.Inv.of_miss e7 (State.locateEng_inv h)
  · dsimp only
    split
    · rename_i e8
      have h3 := Found.Inv.of_loc e8 (State.locateEng_inv h)
      split
      · exact h3
      split
      · exact State.putCopy_inv h3
      · exact State.copyWrite_inv (State.ite_inv (State.touchL2_inv h3) h3)
    · rename_i e9
      have h4 := Found.Inv.of_loc e9 (State.locateEng_inv h)
      exact State.copyWrite_inv (State.putCopy_inv (State.ite_inv h4 (State.setCore_inv h4)))
    · rename_i e10
      split
      · exact Found.Inv.of_loc e10 (State.locateEng_inv h)
      · exact State.putCopy_inv (State.sendEngine_inv (Found.Inv.of_loc e10 (State.locateEng_inv h)))
    · rename_i e11
      exact State.putCopy_inv (State.askHost_inv (Found.Inv.of_loc e11 (State.locateEng_inv h)))
    · exact State.holdCopy_inv h
    · exact h
    · rename_i e14
      exact Found.Inv.of_miss e14 (State.locateEng_inv h)
  · exact State.copyWrite_inv h

theorem execCopyStart_ends {core} (h : s.Inv) : Ends (execCopyStart core s) := by
  unfold execCopyStart
  split <;> exact .next h

theorem execCopyElement_ends {core slot} (h : s.Inv) : Ends (execCopyElement core slot s) := by
  unfold execCopyElement
  split
  · exact .next (State.ite_inv (State.atPort_inv (fun _ h1 => State.copyStep_inv h1) h) h)
  · exact .next h

theorem State.copyFlag_inv {core c} (h : s.Inv) : (s.copyFlag core c).Inv := by
  unfold State.copyFlag
  dsimp only
  split
  · rename_i e1
    have h1 := Found.Inv.of_loc e1 (State.locateEng_inv h)
    split
    · exact h1
    split
    · exact State.putCopy_inv h1
    split
    · split
      · exact State.putCopy_inv h1
      · exact State.putCopy_inv (State.homeWrite_inv (State.ite_inv (State.touchL2_inv h1) h1))
    split
    · exact State.putCopy_inv h1
    · exact State.putCopy_inv (State.homeWrite_inv (State.ite_inv (State.touchL2_inv h1) h1))
  · rename_i e2
    split
    · exact State.putCopy_inv (State.sendEngine_inv (Found.Inv.of_loc e2 (State.locateEng_inv h)))
    · exact Found.Inv.of_loc e2 (State.locateEng_inv h)
  · rename_i e3
    have h2 := Found.Inv.of_loc e3 (State.locateEng_inv h)
    split
    · exact State.putCopy_inv (State.askHost_inv h2)
    · exact State.putCopy_inv (State.emit_inv h2)
  · rename_i e4
    exact Found.Inv.of_loc e4 (State.locateEng_inv h)
  · exact State.holdCopy_inv h
  · exact h
  · rename_i e7
    exact Found.Inv.of_miss e7 (State.locateEng_inv h)

theorem execCopyFlag_ends {core slot} (h : s.Inv) : Ends (execCopyFlag core slot s) := by
  unfold execCopyFlag
  split
  · exact .next (State.ite_inv (State.atPort_inv (fun _ h1 => State.copyFlag_inv h1) h) h)
  · exact .next h

theorem execCopyHoldRetry_ends {core slot} (h : s.Inv) : Ends (execCopyHoldRetry core slot s) := by
  unfold execCopyHoldRetry
  split
  · split
    · exact .next (State.atPort_inv (fun _ h1 => by
        split
        · exact State.copyStep_inv h1
        · exact State.copyFlag_inv h1) h)
    · exact .next h
  · exact .next h

theorem execCopyCompletion_ends {core slot} (h : s.Inv) : Ends (execCopyCompletion core slot s) := by
  unfold execCopyCompletion
  split
  · split
    · split
      · rename_i e1
        exact .next (State.setCore_inv (InvOpt.get e1 (State.finishCmd_inv h)))
      · exact .next h
    · exact .next h
  · exact .next h

theorem State.copyAnswer_inv {core slot idx peer r} (h : s.Inv) : (s.copyAnswer core slot idx peer r).Inv := by
  unfold State.copyAnswer
  split
  · exact h
  dsimp only
  split
  · split
    · exact State.atPort_inv (fun _ h1 => State.copyWrite_inv h1) h
    · exact h
  · repeat' split
    all_goals exact h

/-! ### What Brine.lean keeps -/

theorem State.dropBrine_inv {id} (h : s.Inv) : (s.dropBrine id).Inv := h

theorem State.putBrine_inv {q} (h : s.Inv) : (s.putBrine q).Inv := h

theorem State.brineWord_inv {q status val} (h : s.Inv) : (s.brineWord q status val).Inv :=
  State.oweWord_inv (State.cmdDone_inv h)

theorem State.brineEnd_inv {id status val} (h : s.Inv) : (s.brineEnd id status val).Inv := by
  unfold State.brineEnd
  split
  · exact State.brineWord_inv h
  · exact h

theorem State.updRegion_inv {rid f} (h : s.Inv) : (s.updRegion rid f).Inv := h

theorem State.findBlock_inv {r b} (h : s.Inv) : (s.findBlock r b).Inv := by
  unfold State.findBlock
  dsimp only
  split
  · exact .lost
  split
  · rename_i e1
    split
    · exact .lost
    · exact .here (Found.Inv.of_loc e1 (State.locateEng_inv h))
  · rename_i e2
    exact .here (Found.Inv.of_miss e2 (State.locateEng_inv h))
  · exact .held
  · exact .lost

theorem State.blockAt_inv {r b} (h : s.Inv) : InvOpt ((s.blockAt r b).map (·.2)) := by
  unfold State.blockAt
  split
  · rename_i e1
    exact .some (BlockFind.Inv.of_here e1 (State.findBlock_inv h))
  · exact .none

theorem State.awaitRevival_inv {rid cl g} (h : s.Inv) : (s.awaitRevival rid cl g).Inv := by
  unfold State.awaitRevival
  split
  · exact h
  · exact State.ite_inv h h

theorem State.spoil_inv {rid b} (h : s.Inv) : (s.spoil rid b).Inv := h

theorem State.putVals_inv {r x2 l} (h : s.Inv) : (s.putVals r x2 l).Inv := State.engWrite_inv h

theorem State.farWrites_inv {core p w n x5 x6} (h : s.Inv) : (State.farWrites core p w n x5 x6 s).Inv := by
  induction n generalizing core p w x5 x6 s with
  | zero =>
    rw [State.farWrites]
    exact h
  | succ n ih =>
    rw [State.farWrites]
    exact State.ite_inv h (ih h)

theorem State.writeAtGva_inv {who g bs} (h : s.Inv) : (s.writeAtGva who g bs).Inv := by
  unfold State.writeAtGva
  split
  · rename_i e1
    split
    · exact Found.Inv.of_loc e1 (State.locateEng_inv h)
    · exact State.engWrite_inv (Found.Inv.of_loc e1 (State.locateEng_inv h))
  · rename_i e2
    exact State.farWrites_inv (Found.Inv.of_loc e2 (State.locateEng_inv h))
  · rename_i e3
    exact State.emit_inv (Found.Inv.of_loc e3 (State.locateEng_inv h))
  · rename_i e4
    exact Found.Inv.of_miss e4 (State.locateEng_inv h)
  · exact h

theorem State.writeMass_inv {r b w} (h : s.Inv) : (s.writeMass r b w).Inv :=
  State.ite_inv (State.updRegion_inv (State.awaitRevival_inv h)) (State.writeAtGva_inv h)

theorem State.setMass_inv {r b w} (h : s.Inv) : (s.setMass r b w).Inv := State.ite_inv h (State.writeMass_inv h)

theorem State.sendParts_inv {opc sub core p owner ls} (h : s.Inv) : (s.sendParts opc sub core p owner ls).Inv := by
  induction ls generalizing s with
  | nil => exact h
  | cons l ls ih =>
    cases ls with
    | nil =>
      unfold State.sendParts
      split <;> exact h
    | cons l' ls => exact ih h

theorem State.endCopy_inv {owner applied} (h : s.Inv) : (s.endCopy owner applied).Inv := by
  unfold State.endCopy
  split
  · exact State.brineEnd_inv h
  · exact h

theorem State.launchHalf_inv {r hd} (h : s.Inv) : (s.launchHalf r hd).Inv := by
  unfold State.launchHalf
  dsimp only
  split
  · exact h
  · exact State.ite_inv (State.ite_inv (State.endCopy_inv h) h) (State.sendParts_inv h)

theorem State.sendBlock_inv {r b t whole sweep owner} (h : s.Inv) : (s.sendBlock r b t whole sweep owner).Inv := by
  unfold State.sendBlock
  dsimp only
  split
  · exact .poisoned h
  · split
    · exact .sent (State.launchHalf_inv h)
    · exact .held
  rename_i e2
  have h1 := BlockFind.Inv.of_here e2 (State.findBlock_inv h)
  split
  · exact .poisoned (State.spoil_inv h1)
  split
  · exact .sent (State.launchHalf_inv h1)
  split
  · exact .blocked
  split
  · exact .held
  · exact .sent (State.launchHalf_inv (State.writeAtGva_inv (State.setMass_inv (State.putVals_inv h1))))

theorem State.reachCust_inv {r cl c} (h : s.Inv) : (s.reachCust r cl c).Inv := by
  unfold State.reachCust
  split
  · rename_i e1
    exact Found.Inv.of_miss e1 (State.locateEng_inv h)
  · exact h

theorem State.dropCust_inv {cl c} (h : s.Inv) : (s.dropCust cl c).Inv := h

theorem State.reclaim_inv {cl c} (h : s.Inv) : (s.reclaim cl c).Inv := by
  unfold State.reclaim
  split
  · exact h
  dsimp only
  split
  · exact State.dropCust_inv (State.setMass_inv (State.spoil_inv (State.reachCust_inv h)))
  · exact State.awaitRevival_inv h
  rename_i e2
  have h1 := BlockFind.Inv.of_here e2 (State.findBlock_inv (State.reachCust_inv h))
  split
  · exact State.dropCust_inv (State.setMass_inv (State.spoil_inv h1))
  · exact State.dropCust_inv (State.setMass_inv (State.updRegion_inv (State.putVals_inv h1)))

theorem State.putWindow_inv {cl w} (h : s.Inv) : (s.putWindow cl w).Inv := h

theorem State.newMember_inv {rid idx ver} (h : s.Inv) : (s.newMember rid idx ver).Inv := h

theorem State.forgetRegion_inv {rid} (h : s.Inv) : (s.forgetRegion rid).Inv := h

theorem State.answerHalf_inv {hd ans} (h : s.Inv) : (s.answerHalf hd ans).Inv := by
  unfold State.answerHalf
  split
  · exact State.ite_inv (State.endCopy_inv h) h
  split <;> exact h

theorem State.applyHalf_inv {r hd x3} (h : s.Inv) : (s.applyHalf r hd x3).Inv :=
  State.setMass_inv (State.updRegion_inv (State.putVals_inv h))

theorem State.receiveHalf_inv {hd} (h : s.Inv) : (s.receiveHalf hd).Inv := by
  unfold State.receiveHalf
  split
  · exact State.answerHalf_inv h
  split
  · exact State.answerHalf_inv h
  split
  · exact State.answerHalf_inv h
  dsimp only
  split
  · exact State.answerHalf_inv h
  split
  · exact State.answerHalf_inv h
  · exact State.awaitRevival_inv h
  rename_i e2
  have h1 := BlockFind.Inv.of_here e2 (State.findBlock_inv h)
  split
  · exact State.answerHalf_inv h1
  · exact State.answerHalf_inv (State.ite_inv (State.applyHalf_inv h1) (State.putWindow_inv (State.applyHalf_inv h1)))

theorem State.receiveRecall_inv {q} (h : s.Inv) : (s.receiveRecall q).Inv := by
  unfold State.receiveRecall
  dsimp only
  split
  · split
    · exact h
    · exact State.ite_inv h h
  split
  · split
    · exact h
    · exact State.ite_inv h h
  split
  · split
    · exact h
    · exact State.ite_inv h h
  split
  · split
    · exact h
    · exact State.ite_inv h h
  split
  · exact h
  · exact State.ite_inv h h

theorem State.sendRecall_inv {r cl c} (h : s.Inv) : (s.sendRecall r cl c).Inv :=
  State.ite_inv h (State.sendParts_inv h)

theorem State.resendHalf_inv {r cl c} (h : s.Inv) : (s.resendHalf r cl c).Inv :=
  State.launchHalf_inv (State.reachCust_inv h)

/-! ### What BrineCmds.lean keeps -/

theorem State.brineMsg_inv {q} (h : s.Inv) : (s.brineMsg q).Inv := h

theorem State.endCust_inv {cl c status} (h : s.Inv) : (s.endCust cl c status).Inv := by
  unfold State.endCust
  split
  · exact State.brineEnd_inv h
  · exact h

theorem State.custDone_inv {cl c} (h : s.Inv) : (s.custDone cl c).Inv := State.endCust_inv h

theorem State.custBack_inv {cl c} (h : s.Inv) : (s.custBack cl c).Inv :=
  State.ite_inv (State.endCust_inv (State.reclaim_inv h)) (State.reclaim_inv h)

theorem State.reclaimAll_inv {rid idx} (h : s.Inv) : (s.reclaimAll rid idx).Inv :=
  State.foldl_inv (fun _ _ h1 => State.custBack_inv h1) h

theorem State.putRound_inv {d} (h : s.Inv) : (s.putRound d).Inv := h

theorem State.sendMemb_inv {r e sub ps} (h : s.Inv) : (s.sendMemb r e sub ps).Inv :=
  State.ite_inv (State.ite_inv h h) (State.ite_inv h (State.sendParts_inv h))

theorem State.propose_inv {d r own p} (h : s.Inv) : (s.propose d r own p).Inv :=
  State.foldl_inv (fun _ _ h1 => State.sendMemb_inv h1) h

theorem State.commitRound_inv {d ps} (h : s.Inv) : (s.commitRound d ps).Inv := by
  unfold State.commitRound
  split
  · exact h
  dsimp only
  split
  · exact State.newMember_inv (State.ite_inv (State.reclaimAll_inv h) h)
  · exact State.ite_inv (State.reclaimAll_inv h) h

theorem State.endRound_inv {d status} (h : s.Inv) : (s.endRound d status).Inv := State.brineEnd_inv h

theorem State.testRound_inv {rid} (h : s.Inv) : (s.testRound rid).Inv := by
  unfold State.testRound
  split
  · split
    · exact State.ite_inv (State.endRound_inv (State.commitRound_inv h)) (State.endRound_inv (State.ite_inv h h))
    · exact h
  · exact h

theorem State.leaveBlocks_inv {rid n} (h : s.Inv) : (State.leaveBlocks rid n s).Inv := by
  induction n generalizing rid s with
  | zero =>
    rw [State.leaveBlocks]
    exact h
  | succ n ih =>
    rw [State.leaveBlocks]
    split
    · split
      · exact h
      split
      · exact h
      split
      · exact h
      · exact State.awaitRevival_inv h
      · rename_i e2
        exact ih (State.putRound_inv (SendRes.Inv.of_sent e2 (State.sendBlock_inv h)))
      · rename_i e3
        exact ih (State.putRound_inv (SendRes.Inv.of_poisoned e3 (State.sendBlock_inv h)))
    · exact h

theorem State.stepRound_inv {rid} (h : s.Inv) : (s.stepRound rid).Inv := by
  unfold State.stepRound
  split
  · dsimp only
    split
    · split
      · split
        · split
          · exact State.testRound_inv (State.propose_inv
              (State.putRound_inv (State.leaveBlocks_inv (State.reclaimAll_inv h))))
          · exact State.testRound_inv (State.leaveBlocks_inv (State.reclaimAll_inv h))
        split
        · exact State.testRound_inv (State.propose_inv (State.putRound_inv (State.leaveBlocks_inv h)))
        · exact State.testRound_inv (State.leaveBlocks_inv h)
      split
      · split
        · exact State.testRound_inv (State.propose_inv (State.putRound_inv (State.reclaimAll_inv h)))
        · exact State.testRound_inv (State.reclaimAll_inv h)
      · exact State.ite_inv (State.testRound_inv (State.propose_inv h)) (State.testRound_inv h)
    split
    · exact State.leaveBlocks_inv (State.ite_inv (State.reclaimAll_inv h) h)
    · exact State.ite_inv (State.reclaimAll_inv h) h
  · exact h

theorem State.startRound_inv {q op idx cseq entry joiner} (h : s.Inv) :
    (s.startRound q op idx cseq entry joiner).Inv :=
  State.stepRound_inv h

theorem State.noteDiscard_inv {q} (h : s.Inv) : (s.noteDiscard q).Inv := State.ite_inv h h

theorem State.gather_inv {who nd free l x5 x6 x7} (h : s.Inv) :
    (State.gather who nd free l x5 x6 x7 s).Inv := by
  induction l generalizing who nd free x5 x6 x7 s with
  | nil =>
    rw [State.gather]
    exact .ok h
  | cons y l ih =>
    rw [State.gather]
    split
    · exact ih h
    split
    · exact .wait h
    split
    · rename_i e1
      have h1 := Found.Inv.of_loc e1 (State.locateEng_inv h)
      split
      · exact .wait h1
      split
      · split
        · exact ih (Found.Inv.of_loc e1 (State.locateEng_inv h) :)
        · exact .dead h1
      · exact ih (State.ite_inv (State.touchL2_inv h1) h1)
    · rename_i e2
      exact ih (State.noteDiscard_inv (Found.Inv.of_loc e2 (State.locateEng_inv h)))
    · rename_i e3
      exact .wait (State.sendEngine_inv (Found.Inv.of_loc e3 (State.locateEng_inv h)))
    · rename_i e4
      exact .wait (State.askHost_inv (Found.Inv.of_loc e4 (State.locateEng_inv h)))
    · split
      · exact ih h
      · exact .hold h
    · split
      · exact ih h
      · exact .dead h
    · rename_i e7
      exact .wait (Found.Inv.of_miss e7 (State.locateEng_inv h))

theorem State.holdBrine_inv {q f wr g} (h : s.Inv) : (s.holdBrine q f wr g).Inv := by
  unfold State.holdBrine
  dsimp only
  split <;> exact h

theorem State.bregRun_inv {q r join cseq} (h : s.Inv) : (s.bregRun q r join cseq).Inv := by
  unfold State.bregRun
  dsimp only
  split
  · exact State.brineWord_inv h
  split
  · exact State.brineWord_inv h
  split
  · exact State.brineWord_inv h
  split
  · rename_i e1
    exact State.putBrine_inv (Gather.Inv.of_wait e1 (Gather.ite_inv (.ok h) (State.gather_inv h)))
  · rename_i e2
    exact Gather.Inv.of_hold e2 (Gather.ite_inv (.ok h) (State.gather_inv h))
  · rename_i e3
    exact Gather.Inv.of_dead e3 (Gather.ite_inv (.ok h) (State.gather_inv h))
  rename_i _ u e4
  have hu : u.Inv := Gather.Inv.of_ok e4 (Gather.ite_inv (.ok h) (State.gather_inv h))
  split
  · exact State.brineWord_inv hu
  split
  · exact State.holdBrine_inv hu
  refine State.startRound_inv (State.ite_inv (State.foldl_inv (fun _ _ h1 => ?_) hu) hu)
  split
  · rename_i e5
    exact State.setMass_inv (State.putVals_inv (InvOpt.get_snd e5 (State.blockAt_inv h1)))
  · exact State.spoil_inv h1

theorem State.bdrgRun_inv {q} (h : s.Inv) : (s.bdrgRun q).Inv := by
  unfold State.bdrgRun
  split
  · exact State.brineWord_inv h
  split
  · exact State.brineWord_inv h
  split
  · exact h
  split
  · exact State.holdBrine_inv h
  · exact State.brineWord_inv (State.ite_then_inv (fun h3 => State.forgetRegion_inv h3)
      (State.foldl_inv (fun _ _ h2 => State.setMass_inv h2) h))

theorem State.bqryRun_inv {q clr} (h : s.Inv) : (s.bqryRun q clr).Inv := by
  unfold State.bqryRun
  exact State.oweWord_inv (State.oweWord_inv (State.cmdDone_inv (State.dropBrine_inv (by
    split
    · split
      · split
        · split
          · exact h
          · exact h
          · rename_i e2
            exact State.updRegion_inv (State.ite_inv h (BlockFind.Inv.of_here e2 (State.findBlock_inv h)))
        · exact h
      · exact h
    split
    · split
      · split
        · exact h
        · exact h
        · rename_i e4
          exact State.ite_inv h (BlockFind.Inv.of_here e4 (State.findBlock_inv h))
      · exact h
    · exact h))))

theorem State.bholdRun_inv {q on} (h : s.Inv) : (s.bholdRun q on).Inv := by
  unfold State.bholdRun
  split
  · exact State.brineWord_inv h
  · exact State.ite_inv h (State.brineWord_inv h)

theorem State.bstepRun_inv {q} (h : s.Inv) : (s.bstepRun q).Inv := by
  unfold State.bstepRun
  split
  · exact h
  split
  · exact State.brineWord_inv h
  dsimp only
  split
  · exact State.brineWord_inv h
  split
  · exact State.brineWord_inv h
  split
  · exact h
  split
  · exact h
  · exact State.holdBrine_inv h
  · rename_i e2
    exact State.brineWord_inv (SendRes.Inv.of_poisoned e2 (State.sendBlock_inv h))
  · rename_i e3
    exact State.putBrine_inv (SendRes.Inv.of_sent e3 (State.sendBlock_inv h))

theorem State.bgrpRun_inv {q op} (h : s.Inv) : (s.bgrpRun q op).Inv := by
  unfold State.bgrpRun
  split
  · exact h
  split
  · exact State.brineWord_inv h
  split
  exact State.ite_inv (State.brineWord_inv h) (State.ite_inv h (State.startRound_inv h))

theorem State.findSpan_inv {who nd l x4} (h : s.Inv) : (State.findSpan who nd l x4 s).Inv := by
  induction l generalizing who nd x4 s with
  | nil =>
    rw [State.findSpan]
    exact .ok h
  | cons y l ih =>
    rw [State.findSpan]
    split
    · rename_i e1
      have h1 := Found.Inv.of_loc e1 (State.locateEng_inv h)
      split
      · split
        · exact .dead
        split
        · rename_i e2
          exact .ok (SpanFind.Inv.of_ok e2 (ih h1))
        · exact ih h1
      split
      · rename_i e3
        exact .ok (SpanFind.Inv.of_ok e3 (ih h1))
      · exact ih h1
    · exact .hold
    · exact .dead
    · rename_i e6
      exact .ok (Found.Inv.of_miss e6 (State.locateEng_inv h))

theorem State.writeSpan_inv {id core bad l x5} (h : s.Inv) : (State.writeSpan id core bad l x5 s).2.Inv := by
  induction l generalizing id core bad x5 s with
  | nil =>
    rw [State.writeSpan]
    exact h
  | cons y l ih =>
    unfold State.writeSpan
    exact ih (by
      split
      · exact State.engWrite_inv (State.ite_inv h h)
      · exact h
      · exact State.emit_inv h
      · exact h)

theorem State.brineCode_inv {q code b} (h : s.Inv) : (s.brineCode q code b).Inv := State.ite_inv h h

theorem State.baddRun_inv {q} (h : s.Inv) : (s.baddRun q).Inv := by
  unfold State.baddRun
  dsimp only
  split
  · exact State.brineCode_inv h
  split
  · exact State.brineCode_inv h
  split
  · rename_i e1
    exact State.holdBrine_inv (Gather.Inv.of_hold e1 (State.gather_inv h))
  · rename_i e2
    exact State.brineCode_inv (Gather.Inv.of_dead e2 (State.gather_inv h))
  · rename_i e3
    exact State.putBrine_inv (Gather.Inv.of_wait e3 (State.gather_inv h))
  rename_i e4
  have h1 := Gather.Inv.of_ok e4 (State.gather_inv h)
  split
  · exact State.brineCode_inv (State.spoil_inv h1)
  · exact State.holdBrine_inv h1
  rename_i e6
  have h2 := BlockFind.Inv.of_here e6 (State.findBlock_inv h1)
  split
  · exact State.brineCode_inv h2
  · exact State.brineMsg_inv (State.updRegion_inv (State.putVals_inv h2))

theorem State.brdRun_inv {t q} (h : s.Inv) : (s.brdRun t q).Inv := by
  unfold State.brdRun
  dsimp only
  split
  · exact State.ite_inv h h
  split
  · exact State.brineCode_inv h
  split
  · exact h
  split
  · exact State.brineCode_inv h
  split
  · exact State.holdBrine_inv h
  · exact State.brineCode_inv h
  rename_i e2
  have h1 := SpanFind.Inv.of_ok e2 (State.findSpan_inv h)
  split
  · exact h1
  split
  · split
    · split
      · exact State.brineMsg_inv (State.writeSpan_inv (State.spoil_inv h1))
      · exact State.putBrine_inv (State.writeSpan_inv (State.spoil_inv h1))
    split
    · exact State.brineMsg_inv (State.writeSpan_inv (State.spoil_inv h1))
    · exact State.putBrine_inv (State.writeSpan_inv (State.spoil_inv h1))
  · split
    · exact State.brineMsg_inv (State.updRegion_inv (State.writeSpan_inv (State.noteDiscard_inv h1)))
    · exact State.putBrine_inv (State.updRegion_inv (State.writeSpan_inv (State.noteDiscard_inv h1)))
  rename_i e4
  have h2 := BlockFind.Inv.of_here e4 (State.findBlock_inv h1)
  split
  · split
    · split
      · exact State.brineMsg_inv (State.writeSpan_inv h2)
      · exact State.putBrine_inv (State.writeSpan_inv h2)
    split
    · exact State.brineMsg_inv (State.writeSpan_inv h2)
    · exact State.putBrine_inv (State.writeSpan_inv h2)
  split
  · exact State.brineMsg_inv (State.updRegion_inv (State.writeSpan_inv h2))
  · exact State.putBrine_inv (State.updRegion_inv (State.writeSpan_inv h2))

theorem State.brineRun_inv {q} (h : s.Inv) : (s.brineRun q).Inv := by
  unfold State.brineRun
  split
  · split
    · exact h
    split
    · exact State.bregRun_inv h
    · exact h
  · split
    · exact h
    split
    · exact State.bregRun_inv h
    · exact h
  · exact State.bdrgRun_inv h
  · exact State.baddRun_inv h
  · exact State.brdRun_inv h
  · exact State.bqryRun_inv h
  · exact State.bqryRun_inv h
  · exact State.bgrpRun_inv h
  · exact State.bgrpRun_inv h
  · exact State.bgrpRun_inv h
  · exact State.bholdRun_inv h
  · exact State.bholdRun_inv h
  · exact State.bstepRun_inv h
  · exact h

theorem State.brinePass_inv (h : s.Inv) : s.brinePass.Inv := by
  unfold State.brinePass
  exact State.foldl_inv (fun _ _ h1 => State.atPort_inv (fun _ h2 => State.stepRound_inv h2) h1)
    (State.foldl_inv (fun _ _ h3 => by
    split
    · exact State.ite_inv (State.atPort_inv (fun _ h4 => State.brineRun_inv h4) h3) h3
    · exact h3) h)

theorem State.brineGo_inv (h : s.Inv) : s.brineGo.Inv :=
  State.ite_inv h (State.foldl_inv (fun _ _ h1 => State.brinePass_inv h1) h)

theorem State.brineRead_inv {id bs bad} (h : s.Inv) : (s.brineRead id bs bad).Inv := by
  unfold State.brineRead
  split
  · exact h
  · exact State.brineGo_inv h

theorem State.brineLost_inv {id n bad} (h : s.Inv) : (s.brineLost id n bad).Inv := by
  unfold State.brineLost
  dsimp only
  split
  · exact h
  split
  · exact State.brineRead_inv h
  split
  · exact State.brineGo_inv (State.brineCode_inv h)
  · exact State.brineRead_inv h

theorem State.countCmd_inv (h : s.Inv) : s.countCmd.Inv := h

theorem State.pushBrine_inv {q} (h : s.Inv) : (s.pushBrine q).Inv := State.brineGo_inv h

theorem ridOp_ends {i op x} (h : s.Inv) : Ends (ridOp i op x s) :=
  issue_ends (fun _ h1 => withSrc_inv h1 (fun _ _ h2 =>
    withDest_inv (withStores_inv (Eff.ite_inv Eff.ill_inv (.done (State.pushBrine_inv h2)))))) h

theorem State.supersede_inv {rid cseq} (h : s.Inv) : (s.supersede rid cseq).Inv := by
  unfold State.supersede
  split
  · exact State.ite_inv (State.endRound_inv h) h
  · exact h

theorem grpOp_ends {i x} (h : s.Inv) : Ends (grpOp i x s) :=
  issue_ends (fun _ h1 => withSrc_inv h1 (fun _ _ h2 =>
    withSrc_inv h2 (fun _ _ h3 => withDest_inv (withStores_inv
      (Eff.ite_inv Eff.ill_inv (.done (State.pushBrine_inv
        (State.countCmd_inv (State.oweX_inv (State.supersede_inv h3)))))))))) h

theorem qryOp_ends {i x} (h : s.Inv) : Ends (qryOp i x s) :=
  issue_ends (fun _ h1 => withSrc_inv h1 (fun _ _ h2 =>
    withSrc_inv h2 (fun _ _ h3 => withDests_inv h3 (withStores_inv
      (Eff.ite_inv Eff.ill_inv (.done (State.pushBrine_inv h3))))))) h

theorem execBstep_ends {x} (h : s.Inv) : Ends (execBstep x s) :=
  issue_ends (fun _ h1 => withSrc_inv h1 (fun _ _ h2 =>
    withSrc_inv h2 (fun _ _ h3 => withDest_inv (withStores_inv
      (Eff.ite_inv Eff.ill_inv (.done (State.pushBrine_inv h3))))))) h

theorem withOpSpan_inv {nd ea n align} {k : ℕ → Eff} (h : s.Inv) (hk : ∀ (a : ℕ), (k a).Inv) :
    (withOpSpan nd ea n align s k).Inv := Eff.ite_inv (hk _) (withGva_inv h (fun _ => Eff.ite_inv .trap (hk _)))

theorem execBadd_ends {x} (h : s.Inv) : Ends (execBadd x s) :=
  issue_ends (fun _ h1 => withSrc_inv h1 (fun _ _ h2 =>
    withEa_inv h2 (fun _ _ h3 => withStores_inv (Eff.ite_inv Eff.ill_inv
      (withOpSpan_inv h3 (fun _ => .done (State.pushBrine_inv (State.joinTag_inv h3)))))))) h

theorem execBrd_ends {t x} (h : s.Inv) : Ends (execBrd t x s) :=
  issue_ends (fun _ h1 => withSrc_inv h1 (fun _ _ h2 =>
    withSrc_inv h2 (fun _ _ h3 => withSrc_inv h3 (fun _ _ h4 =>
      withStores_inv (Eff.ite_inv Eff.ill_inv (withOpSpan_inv h4
        (fun _ => .done (State.pushBrine_inv (State.joinTag_inv h4))))))))) h

theorem withChunk_inv {reg nd ea n align pre acc} {k : List Byte → List Byte → List Byte → State → Eff} (h : s.Inv)
    (hk : ∀ (x1 x2 x3 : List Byte) (x4 : State), x4.Inv → (k x1 x2 x3 x4).Inv) :
    (withChunk reg nd ea n align pre acc s k).Inv := by
  unfold withChunk
  split
  · exact hk _ _ _ _ h
  · exact withAccess_inv h (fun _ _ h1 => by
      dsimp only
      split
      · exact withFar_inv h1 (fun _ h2 => .again (State.awaitReply_inv (State.sendPeer_inv h2)))
      · exact withOrder_inv h1 (fun _ h3 => .again (State.awaitReply_inv (State.hostRead_inv h3)))
      · exact withRead_inv (fun _ _ _ _ => .trap) h1 (fun _ _ h5 => hk _ _ _ _ (State.noteZeros_inv h5)))

theorem withBlocks_inv {ea g n x4} {k : List RBlock → State → Eff} (h : s.Inv)
    (hk : ∀ (a : List RBlock) (t : State), t.Inv → (k a t).Inv) :
    (withBlocks ea g n x4 s k).Inv := by
  induction n generalizing ea g x4 s k with
  | zero =>
    rw [withBlocks]
    exact hk _ _ h
  | succ n ih =>
    rw [withBlocks]
    exact withLoc_inv h (fun _ _ h1 => ih h1 (fun _ _ h2 => hk _ _ h2))

theorem withCustody_inv {nd ea custn l} {k : Eff} (h : s.Inv) (hk : k.Inv) :
    (withCustody nd ea custn l s k).Inv := by
  induction l generalizing nd ea custn s k with
  | nil =>
    rw [withCustody]
    exact hk
  | cons y l ih =>
    rw [withCustody]
    exact withOpSpan_inv h (fun _ => ih h hk)

theorem bregOp_ends {i x} (h : s.Inv) : Ends (bregOp i x s) := by
  unfold bregOp
  exact issue_ends (fun _ h1 => withEa_inv h1 (fun _ _ h2 =>
    withDest_inv (withStores_inv (withChunk_inv h2 (fun _ _ _ _ h3 => by
    split
    · exact Eff.ill_inv
    · exact withChunk_inv h3 (fun _ _ _ _ h4 =>
        withChunk_inv h4 (fun _ _ _ _ h5 => withChunk_inv h5 (fun _ _ _ _ h6 => by
        dsimp only
        split
        · exact .again h6
        split
        · exact Eff.ill_inv
        · exact withOpSpan_inv h6 (fun _ =>
            withOpSpan_inv h6 (fun _ =>
              withBlocks_inv h6 (fun _ _ h8 => withCustody_inv h8 (.done (State.pushBrine_inv h8))))))))))))) h

theorem State.sweepBlocks_inv {rid n x3} (h : s.Inv) : (State.sweepBlocks rid n x3 s).Inv := by
  induction n generalizing rid x3 s with
  | zero =>
    rw [State.sweepBlocks]
    exact h
  | succ n ih =>
    rw [State.sweepBlocks]
    split
    · exact h
    dsimp only
    split
    · exact ih h
    split
    · rename_i e1
      exact ih (SendRes.Inv.of_sent e1 (State.sendBlock_inv h))
    · rename_i e2
      exact ih (SendRes.Inv.of_poisoned e2 (State.sendBlock_inv h))
    · exact ih h
    · exact ih (State.awaitRevival_inv h)

theorem execBrineSweepStep_ends {rid} (h : s.Inv) : Ends (execBrineSweepStep rid s) := by
  unfold execBrineSweepStep
  split
  · exact .next h
  dsimp only
  split
  · exact .next (State.brineGo_inv (State.atPort_inv (fun _ h2 =>
      State.updRegion_inv (State.ite_inv h2 (State.sweepBlocks_inv h2))) h))
  · exact .next h

theorem execBrineHalfArrive_ends {k} (h : s.Inv) : Ends (execBrineHalfArrive k s) := by
  unfold execBrineHalfArrive
  split
  · dsimp only
    split
    · exact .next (State.ite_inv h (State.brineGo_inv (State.atPort_inv (fun _ h1 => State.receiveHalf_inv h1) h)))
    · exact .next (State.ite_inv h (State.brineGo_inv (State.atPort_inv (fun _ h2 => State.receiveHalf_inv h2) h)))
  · exact .next h

theorem State.reclaimFor_inv {k x2 c} (h : s.Inv) : (s.reclaimFor k x2 c).Inv :=
  State.brineGo_inv (State.atPort_inv (fun _ h1 => State.ite_inv (State.custBack_inv h1) (State.custBack_inv h1)) h)

theorem execBrineAnswer_ends {k} (h : s.Inv) : Ends (execBrineAnswer k s) := by
  unfold execBrineAnswer
  split
  · exact .next h
  split
  · exact .next h
  dsimp only
  split
  · exact .next (State.brineGo_inv (State.custDone_inv h))
  · split
    · exact .next h
    split
    · split
      · exact .next (State.sendRecall_inv h)
      · exact .next h
    · exact .next (State.reclaimFor_inv h)
  · exact .next h
  · exact .next h
  · exact .next h

theorem execBrineRecallAnswer_ends {k} (h : s.Inv) : Ends (execBrineRecallAnswer k s) := by
  unfold execBrineRecallAnswer
  split
  · exact .next h
  split
  · exact .next h
  dsimp only
  split
  · exact .next (State.brineGo_inv (State.custDone_inv h))
  · exact .next (State.reclaimFor_inv h)
  · exact .next (State.reclaimFor_inv h)
  · exact .next h
  · exact .next h
  · exact .next h
  · exact .next h

theorem execBrineSlotTimeout_ends {cluster slot} (h : s.Inv) : Ends (execBrineSlotTimeout cluster slot s) := by
  unfold execBrineSlotTimeout
  split
  · exact .next h
  split
  · exact .next h
  dsimp only
  split
  · exact .next h
  · exact .next (State.ite_inv (State.atPort_inv (fun _ h2 => State.resendHalf_inv h2) h) (State.sendRecall_inv h))

theorem execBrineRecallReceive_ends {k} (h : s.Inv) : Ends (execBrineRecallReceive k s) := by
  unfold execBrineRecallReceive
  split
  · exact .next (State.ite_inv h (State.receiveRecall_inv h))
  · exact .next h

theorem State.staleMemb_inv {rid pkt} (h : s.Inv) : (s.staleMemb rid pkt).Inv := State.ite_inv h h

theorem execBrineProposeReceive_ends {k} (h : s.Inv) : Ends (execBrineProposeReceive k s) := by
  unfold execBrineProposeReceive
  split
  · exact .next h
  dsimp only
  split
  · exact .next h
  split
  · exact .next (State.ite_inv h h)
  split
  · exact .next (State.staleMemb_inv h)
  split
  · exact .next (State.ite_inv h (State.brineGo_inv h))
  split
  · exact .next (State.sendMemb_inv h)
  · exact .next h

theorem execBrineStateReceive_ends {k} (h : s.Inv) : Ends (execBrineStateReceive k s) := by
  unfold execBrineStateReceive
  split
  · exact .next h
  dsimp only
  split
  · exact .next (State.ite_inv h h)
  split
  · exact .next (State.staleMemb_inv h)
  split
  · exact .next (State.brineGo_inv (State.atPort_inv (fun _ h1 => State.endRound_inv (State.commitRound_inv h1)) h))
  split
  · exact .next (State.brineGo_inv (State.atPort_inv (fun _ h2 => by
      split
      · exact State.updRegion_inv (State.putRound_inv (State.commitRound_inv h2))
      · exact State.commitRound_inv h2) h))
  · exact .next h

theorem execBrineProposeResend_ends {rid} (h : s.Inv) : Ends (execBrineProposeResend rid s) := by
  unfold execBrineProposeResend
  split
  · exact .next (State.ite_inv (State.propose_inv h) h)
  · exact .next h

theorem State.retryMass_inv {r} (h : s.Inv) : (s.retryMass r).Inv :=
  State.foldl_inv (fun _ _ h1 => State.writeMass_inv h1) h

theorem execBrineHoldRetry_ends {cluster} (h : s.Inv) : Ends (execBrineHoldRetry cluster s) := by
  unfold execBrineHoldRetry
  exact .next (State.brineGo_inv (State.foldl_inv (fun _ _ h1 => by
    split
    · split
      · split
        · dsimp only
          split
          · split
            · exact State.putBrine_inv (State.atPort_inv (fun _ h4 => State.brineRun_inv h4) h1)
            · exact State.atPort_inv (fun _ h5 => State.brineRun_inv h5) h1
          · exact State.atPort_inv (fun _ h6 => State.brineRun_inv h6) h1
        · exact h1
      · exact h1
    · exact h1) (State.foldl_inv (fun _ _ h7 => State.atPort_inv (fun _ h8 => State.retryMass_inv h8) h7) h)))

/-! ### What System.lean keeps -/

theorem issueSys_ends {x} {body : State → Eff} (hbody : ∀ (t : State), t.Inv → (body t).Inv) (h : s.Inv) :
    Ends (issueSys x body s) := issue_ends (fun _ h1 => withStores_inv (hbody _ h1)) h

theorem doneThen_inv {f : State → State} (hf : ∀ (t : State), t.Inv → (f t).Inv) (h : s.Inv) : (doneThen f s).Inv :=
  Eff.ite_inv (.done (hf _ h)) (.stay (hf _ h))

theorem execSret_ends {x} (h : s.Inv) : Ends (execSret x s) :=
  issueSys_ends (fun _ h1 => withSrc_inv h1 (fun _ _ h2 =>
    withSrc_inv h2 (fun _ _ h3 => Eff.ite_inv Eff.ill_inv (Eff.ite_inv Eff.ill_inv (.jump h3))))) h

theorem execTlbi_ends {sc x} (h : s.Inv) : Ends (execTlbi sc x s) := by
  unfold execTlbi
  exact issueSys_ends (fun _ h1 => withSrc_inv h1 (fun _ _ h2 => withSrc_inv h2 (fun _ _ h3 => by
    split
    · exact Eff.ill_inv
    split
    · exact Eff.ill_inv
    · exact withDest_inv (.done (State.writeX_inv (State.startGen_inv h3)))))) h

theorem execTlbw_ends {sc x} (h : s.Inv) : Ends (execTlbw sc x s) :=
  issueSys_ends (fun _ h1 => withSrc_inv h1 (fun _ _ h2 =>
    withSrc_inv h2 (fun _ _ h3 => Eff.ite_inv Eff.ill_inv
      (withDest_inv (Eff.ite_inv (.done h3) (Eff.ite_inv .park (.done h3))))))) h

/-- The line is written as it was, byte after byte (log 19). -/
theorem State.restoreLine_inv {l} (h : s.Inv) : (s.restoreLine l).Inv :=
  Memory.foldl_write_wf _ (Memory.write_wf _ _ h)

theorem State.loseLines_inv {core} (h : s.Inv) : (s.loseLines core).Inv :=
  State.setCore_inv (State.foldl_inv (fun _ _ h1 => State.restoreLine_inv h1) h)

theorem State.loseThr_inv {t} (h : s.Inv) : (s.loseThr t).Inv :=
  State.exitGroup_inv (State.removeThr_inv (State.orphan_inv h))

theorem State.loseSaved_inv {core t} (h : s.Inv) : (s.loseSaved core t).Inv :=
  State.exitGroup_inv (State.orphan_inv h)

theorem State.nakWaiters_inv {core} (h : s.Inv) : (s.nakWaiters core).Inv :=
  State.mapDeadlines_inv (State.mapWaits_inv (State.foldl_inv (fun _ _ h1 => Waiter.nak_inv h1) h))

theorem State.loseCore_inv {core} (h : s.Inv) : (s.loseCore core).Inv := by
  unfold State.loseCore
  dsimp only
  refine State.setCore_inv (State.dropRecs_inv (State.closeTerm_inv (State.nakWaiters_inv (State.loseLines_inv ?_))))
  refine State.foldl_inv (fun _ _ h1 => State.loseSaved_inv h1) ?_
  exact State.foldl_inv (fun _ _ h2 => State.loseThr_inv h2) h

/-- Bytes that are dropped read as unlisted, so what is left is canonical. -/
theorem State.zeroRange_inv {a n} (h : s.Inv) : (s.zeroRange a n).Inv := Memory.filter_wf _ h

theorem State.startWalker_inv {core} (h : s.Inv) : (s.startWalker core).Inv := State.ite_inv h h

theorem State.remap_inv {n m x y} (h : s.Inv) : (s.remap n m x y).Inv :=
  State.startWalker_inv (State.setCluster_inv (State.zeroRange_inv (State.drainPan_inv h)))

theorem State.mapState_inv {n st} (h : s.Inv) : (s.mapState n st).Inv := h

theorem execCmapMap_ends {x} (h : s.Inv) : Ends (execCmapMap x s) := by
  unfold execCmapMap
  exact issueSys_ends (fun _ h1 => withSrc_inv h1 (fun _ _ h2 => withSrc_inv h2 (fun _ _ h3 => by
    split
    · exact Eff.ill_inv
    · exact withDest_inv (by
        dsimp only
        split
        · exact .done (State.writeX_inv (State.remap_inv h3))
        · exact .done h3)))) h

theorem execCmapDead_ends {x} (h : s.Inv) : Ends (execCmapDead x s) :=
  issueSys_ends (fun _ h1 => withSrc_inv h1 (fun _ _ h2 =>
    Eff.ite_inv Eff.ill_inv (withDest_inv (Eff.ite_inv (.done h2)
      (doneThen_inv (fun _ h3 => State.mapState_inv (State.loseCore_inv h3)) h2))))) h

theorem execCmapRd_ends {x} (h : s.Inv) : Ends (execCmapRd x s) :=
  issueSys_ends (fun _ h1 => withSrc_inv h1 (fun _ _ h2 => Eff.ite_inv Eff.ill_inv (withDest_inv (.done h2)))) h

theorem State.sendWakes_inv {cores w reg} (h : s.Inv) : (s.sendWakes cores w reg).Inv := State.ite_inv h h

theorem execWkxPage_ends {x} (h : s.Inv) : Ends (execWkxPage x s) :=
  issueSys_ends (fun _ h1 => withSrc_inv h1 (fun _ _ h2 =>
    withSrc_inv h2 (fun _ _ h3 => Eff.ite_inv Eff.ill_inv (withDest_inv (.done (State.sendWakes_inv h3)))))) h

theorem execWkxThr_ends {x} (h : s.Inv) : Ends (execWkxThr x s) :=
  issueSys_ends (fun _ h1 => withSrc_inv h1 (fun _ _ h2 =>
    withSrc_inv h2 (fun _ _ h3 => Eff.ite_inv Eff.ill_inv (withDest_inv (.done (State.sendWakes_inv h3)))))) h

theorem execWkxEnd_ends {x} (h : s.Inv) : Ends (execWkxEnd x s) :=
  issueSys_ends (fun _ h1 => withSrc_inv h1 (fun _ _ h2 =>
    withSrc_inv h2 (fun _ _ h3 => Eff.ite_inv Eff.ill_inv (withDest_inv (.done (State.sendWakes_inv h3)))))) h

theorem State.endDropped_inv {core cxa} (h : s.Inv) : (s.endDropped core cxa).2.Inv := by
  unfold State.endDropped
  split
  · split
    · exact State.endThread_inv h
    · exact h
  · exact h

theorem State.wakeDropped_inv {core key} (h : s.Inv) : (s.wakeDropped core key).2.Inv :=
  State.foldl_inv (fun _ _ h1 => State.makeReady_inv h1) (State.foldl_inv (fun _ _ h2 => State.updThr_inv h2) h)

theorem State.clearCf_inv {page core} (h : s.Inv) : (s.clearCf page core).2.Inv :=
  State.foldl_inv (fun _ _ h1 => State.updThr_inv h1) h

theorem State.onCores_inv {f : ℕ → State → ℕ × State} {l} (hf : ∀ (a : ℕ) (t : State), t.Inv → (f a t).2.Inv)
    (h : s.Inv) :
    (State.onCores f l s).2.Inv := by
  induction l generalizing f s with
  | nil =>
    rw [State.onCores]
    exact h
  | cons y l ih =>
    rw [State.onCores]
    exact ih hf (hf _ _ h)

theorem execCxf_ends {x} (h : s.Inv) : Ends (execCxf x s) :=
  issueSys_ends (fun _ h1 => withSrc_inv h1 (fun _ _ h2 =>
    withSrc_inv h2 (fun _ _ h3 => Eff.ite_inv Eff.ill_inv
      (withDest_inv (.done (State.writeX_inv (State.onCores_inv (fun _ _ h4 => State.clearCf_inv h4) h3))))))) h

theorem State.restoreLease_inv {saved n} (h : s.Inv) : (s.restoreLease saved n).Inv := by
  unfold State.restoreLease
  split <;> exact h

theorem State.swapSets_inv {l} (h : s.Inv) : (s.swapSets l).Inv :=
  State.foldl_inv (fun _ _ h1 => State.restoreLease_inv h1) (State.foldl_inv (fun _ _ h2 => h2) h)

theorem execPsw_ends {x} (h : s.Inv) : Ends (execPsw x s) := by
  unfold execPsw
  exact issueSys_ends (fun _ h1 => withSrc_inv h1 (fun _ _ h2 => by
    split
    · exact Eff.ill_inv
    · exact withDest_inv (by
        dsimp only
        split
        · exact .done h2
        · exact Eff.ite_inv .park (.done (State.writeX_inv (State.swapSets_inv h2)))))) h

theorem State.evictThr_inv {core cxa} (h : s.Inv) : (s.evictThr core cxa).2.Inv := by
  unfold State.evictThr
  split
  · exact h
  split
  · exact h
  split
  · exact h
  split
  · exact h
  · exact State.toRecord_inv h

theorem execEvict_ends {x} (h : s.Inv) : Ends (execEvict x s) :=
  issueSys_ends (fun _ h1 => withSrc_inv h1 (fun _ _ h2 =>
    withSrc_inv h2 (fun _ _ h3 => Eff.ite_inv Eff.ill_inv
      (withDest_inv (withRecords_inv h3 (fun _ h4 => .done (State.writeX_inv (State.evictThr_inv h4)))))))) h

theorem State.unbindAt_inv {core cxa} (h : s.Inv) : (s.unbindAt core cxa).Inv :=
  State.enqueue_inv (State.updThr_inv h)

theorem State.holdThr_inv {core cxa} (h : s.Inv) : (s.holdThr core cxa).2.Inv :=
  State.evictThr_inv (State.updThr_inv h)

theorem State.preempt_inv {f t} (h : s.Inv) : (s.preempt f t).2.Inv := by
  unfold State.preempt
  dsimp only
  split
  · exact State.unbindAt_inv h
  split
  · exact State.unbindAt_inv h
  split
  · exact State.holdThr_inv h
  split
  · split
    · split
      · exact State.toEmber_inv (State.unbindAt_inv h)
      · exact State.updThr_inv (State.toEmber_inv (State.unbindAt_inv h))
    · exact State.unbindAt_inv h
  · exact State.unbindAt_inv h

theorem prh_ends {f x} (h : s.Inv) : Ends (prh f x s) := by
  unfold prh
  exact issueSys_ends (fun _ h1 => withSrc_inv h1 (fun _ _ h2 => withSrc_inv h2 (fun _ _ h3 => by
    split
    · exact Eff.ill_inv
    · exact withDest_inv (by
        split
        · exact .done h3
        · exact withRecords_inv h3 (fun _ h4 => doneThen_inv (fun _ h5 => State.preempt_inv h5) h4))))) h

theorem State.walkEvent_inv {cause why t w} (h : s.Inv) : (s.walkEvent cause why t w).Inv :=
  State.asThr_inv (fun _ h1 => h1) h

theorem State.answerQuery_inv {t w v} (h : s.Inv) : (s.answerQuery t w v).Inv :=
  State.makeReady_inv (State.updThr_inv h)

theorem State.deliverLeaf_inv {leaf large t} (h : s.Inv) : (s.deliverLeaf leaf large t).Inv := by
  unfold State.deliverLeaf
  split
  · exact State.makeReady_inv h
  dsimp only
  split
  · exact State.answerQuery_inv h
  split
  · exact State.walkEvent_inv h
  · exact State.walkEvent_inv h
  · exact State.makeReady_inv (State.updThr_inv h)

theorem State.deliverFail_inv {t} (h : s.Inv) : (s.deliverFail t).Inv := by
  unfold State.deliverFail
  split
  · exact State.makeReady_inv h
  · exact State.ite_inv (State.answerQuery_inv h) (State.walkEvent_inv h)

theorem State.failWalk_inv {core idx} (h : s.Inv) : (s.failWalk core idx).Inv :=
  State.foldl_inv (fun _ _ h1 => State.deliverFail_inv h1) h

theorem State.fillWalk_inv {core idx leaf large} (h : s.Inv) : (s.fillWalk core idx leaf large).Inv := by
  unfold State.fillWalk
  split
  · exact h
  split
  · exact State.failWalk_inv h
  split
  · exact h
  · exact State.foldl_inv (fun _ _ h1 => State.deliverLeaf_inv h1) (State.foldl_inv (fun _ _ h2 => by
      split
      · exact State.ite_inv (State.bringLine_inv h2) h2
      · exact h2) (State.ite_inv h h))

theorem execPgdFill_ends {x} (h : s.Inv) : Ends (execPgdFill x s) :=
  issueSys_ends (fun _ h1 => withSrc_inv h1 (fun _ _ h2 =>
    withSrc_inv h2 (fun _ _ h3 => Eff.ite_inv Eff.ill_inv (.done (State.fillWalk_inv h3))))) h

theorem execPgdFail_ends {x} (h : s.Inv) : Ends (execPgdFail x s) :=
  issueSys_ends (fun _ h1 => withSrc_inv h1 (fun _ _ h2 =>
    Eff.ite_inv Eff.ill_inv (Eff.ite_inv (.done (State.failWalk_inv h2)) (.done h2)))) h

theorem State.haltCore_inv {n} (h : s.Inv) : (s.haltCore n).Inv :=
  State.setCore_inv (State.foldl_inv (fun _ _ h1 => State.unbindAt_inv h1) h)

theorem haltOne_ends {f : State → ℕ → State} {x} (hf : ∀ (t : State) (a : ℕ), t.Inv → (f t a).Inv) (h : s.Inv) :
    Ends (haltOne f x s) :=
  issueSys_ends (fun _ h1 => withSrc_inv h1 (fun _ _ h2 =>
    Eff.ite_inv Eff.ill_inv (withDest_inv (Eff.ite_inv (.done h2) (doneThen_inv (fun _ h3 => hf _ _ h3) h2))))) h

theorem haltAll_ends {f : State → ℕ → State} {x} (hf : ∀ (t : State) (a : ℕ), t.Inv → (f t a).Inv) (h : s.Inv) :
    Ends (haltAll f x s) :=
  issueSys_ends (fun _ h1 => withSrc_inv h1 (fun _ _ h2 =>
    Eff.ite_inv Eff.ill_inv (withDest_inv (doneThen_inv (fun _ h3 => State.foldl_inv hf h3) h2)))) h

theorem execHaltCore_ends {x} (h : s.Inv) : Ends (execHaltCore x s) :=
  haltOne_ends (fun _ _ h1 => State.haltCore_inv h1) h

theorem execHaltRun_ends {x} (h : s.Inv) : Ends (execHaltRun x s) := haltOne_ends (fun _ _ h1 => h1) h

theorem execHaltPart_ends {x} (h : s.Inv) : Ends (execHaltPart x s) :=
  haltAll_ends (fun _ _ h1 => State.haltCore_inv h1) h

theorem execHaltPrun_ends {x} (h : s.Inv) : Ends (execHaltPrun x s) := haltAll_ends (fun _ _ h1 => h1) h

/-! ### What SysRegs.lean keeps -/

theorem execSrd_ends {x} (h : s.Inv) : Ends (execSrd x s) :=
  issueSys_ends (fun _ h1 => withSrc_inv h1 (fun _ _ h2 =>
    withSrc_inv h2 (fun _ _ h3 => Eff.ite_inv Eff.ill_inv (withDest_inv (Eff.ite_inv (.stay h3) (.done h3)))))) h

theorem State.sysWrite_inv {index locus v} (h : s.Inv) : (s.sysWrite index locus v).Inv :=
  State.ite_inv h (State.ite_inv h (State.ite_inv h (State.ite_inv (State.ite_inv h h) h)))

theorem execSwr_ends {x} (h : s.Inv) : Ends (execSwr x s) :=
  issueSys_ends (fun _ h1 => withSrc_inv h1 (fun _ _ h2 =>
    withSrc_inv h2 (fun _ _ h3 => withSrc_inv h3 (fun _ _ h4 =>
      Eff.ite_inv Eff.ill_inv (Eff.ite_inv (.stay h4) (.done (State.sysWrite_inv h4))))))) h

theorem State.resumePast_inv {core cxa f} (h : s.Inv) : (s.resumePast core cxa f).Inv := by
  unfold State.resumePast
  split
  · exact h
  · exact State.makeReady_inv (State.updImage_inv h)

theorem State.takeEffect_inv {p} {f : SysWrite → State → Bool × State}
    (hf : ∀ (a : SysWrite) (t : State), t.Inv → (f a t).2.Inv) (h : s.Inv) :
    (s.takeEffect p f).Inv := by
  unfold State.takeEffect
  split
  · exact h
  · exact State.ite_inv (State.resumePast_inv (hf _ _ h)) (hf _ _ h)

theorem State.setBase_inv {w} (h : s.Inv) : (s.setBase w).Inv := by
  unfold State.setBase
  split
  · exact State.ite_inv h h
  · exact h
  · exact h
  · exact h

theorem execTableBaseWrite_ends {index die val} (h : s.Inv) : Ends (execTableBaseWrite index die val s) :=
  .next (State.takeEffect_inv (fun _ _ h1 => State.setBase_inv h1) h)

theorem execMboxRead_ends {core} (h : s.Inv) : Ends (execMboxRead core s) := by
  unfold execMboxRead
  split
  · exact .next (State.resumePast_inv h)
  · exact .next h

theorem State.flushEmber_inv {core} (h : s.Inv) : (s.flushEmber core).2.Inv := by
  unfold State.flushEmber
  dsimp only
  split
  · exact h
  · exact State.foldl_snd_inv (fun _ _ h1 => State.toRecord_inv h1) h

theorem State.setCmpart_inv {n val} (h : s.Inv) : (s.setCmpart n val).2.Inv := by
  unfold State.setCmpart
  dsimp only
  split
  · exact h
  split
  · exact State.flushEmber_inv h
  · exact State.foldl_inv (fun _ _ h1 => State.zeroRange_inv h1) (State.dropRecs_inv (State.flushEmber_inv h))

theorem execCmpartWrite_ends {core val} (h : s.Inv) : Ends (execCmpartWrite core val s) :=
  .next (State.atPort_inv (fun _ h1 => State.takeEffect_inv (fun _ _ h2 => State.setCmpart_inv h2) h1) h)

theorem State.setIbxsz_inv {n val} (h : s.Inv) : (s.setIbxsz n val).Inv := State.ite_inv h h

theorem execIbxszWrite_ends {core val} (h : s.Inv) : Ends (execIbxszWrite core val s) :=
  .next (State.takeEffect_inv (fun _ _ h1 => State.setIbxsz_inv h1) h)

theorem State.setRfpwr_inv {n val} (h : s.Inv) : (s.setRfpwr n val).2.Inv := by
  unfold State.setRfpwr
  dsimp only
  split
  · exact h
  split
  · exact State.foldl_inv (fun _ _ h1 => State.toEmber_inv h1)
      (State.foldl_inv (fun _ _ h2 => State.unbindAt_inv h2) h)
  · exact State.foldl_inv (fun _ _ h3 => State.toEmber_inv h3)
      (State.foldl_inv (fun _ _ h4 => State.unbindAt_inv h4) h)

theorem execRfpwrWrite_ends {core val} (h : s.Inv) : Ends (execRfpwrWrite core val s) :=
  .next (State.atPort_inv (fun _ h1 => State.takeEffect_inv (fun _ _ h2 => State.setRfpwr_inv h2) h1) h)

theorem execKlsWrite_ends {port val} (h : s.Inv) : Ends (execKlsWrite port val s) :=
  .next (State.takeEffect_inv (fun _ _ h1 => h1) h)

theorem State.extendMr_inv {die v} (h : s.Inv) : (s.extendMr die v).Inv := State.ite_inv h h

theorem execMrxWrite_ends {die val} (h : s.Inv) : Ends (execMrxWrite die val s) :=
  .next (State.takeEffect_inv (fun _ _ h1 => State.extendMr_inv h1) h)

theorem execAttsWrite_ends {val} (h : s.Inv) : Ends (execAttsWrite val s) :=
  .next (State.takeEffect_inv (fun _ _ h1 => State.ite_inv h1 h1) h)

theorem execAttestDone_ends (h : s.Inv) : Ends (execAttestDone s) :=
  .next (State.ite_inv h (State.ite_inv h (State.homeWrite_inv (State.homeWrite_inv h))))

/-! ### What Queues.lean keeps -/

theorem State.msixRaise_inv {core v} (h : s.Inv) : (s.msixRaise core v).Inv := State.ite_inv h (State.msixDo_inv h)

theorem State.msixFlush_inv (h : s.Inv) : s.msixFlush.Inv := State.foldl_inv (fun _ _ h1 => State.msixSend_inv h1) h

theorem State.putQ_inv {die q} (h : s.Inv) : (s.putQ die q).Inv := h

theorem State.failQ_inv {die q err addr} (h : s.Inv) : (s.failQ die q err addr).Inv := State.msixRaise_inv h

theorem State.tune_inv {die q} (h : s.Inv) : (s.tune die q).Inv := State.ite_inv (State.failQ_inv h) h

theorem State.doneQ_inv {die q} (h : s.Inv) : (s.doneQ die q).Inv :=
  State.ite_inv (State.msixRaise_inv (State.tune_inv h)) (State.tune_inv h)

theorem State.readEntry_inv {die q} (h : s.Inv) : (s.readEntry die q).Inv := by
  unfold State.readEntry
  dsimp only
  split
  · exact State.askHost_inv h
  split
  · exact h
  · exact State.failQ_inv h

theorem execQueueDispatch_ends {die} (h : s.Inv) : Ends (execQueueDispatch die s) := by
  unfold execQueueDispatch
  dsimp only
  split
  · exact .next (State.readEntry_inv h)
  split
  · exact .next h
  · exact .next (State.ite_inv (State.failQ_inv h) h)

theorem State.headStep_inv {die q} {f : State → State} (hf : ∀ (t : State), t.Inv → (f t).Inv) (h : s.Inv) :
    (s.headStep die q f).Inv := State.atPort_inv hf h

theorem onHead_ends {op die slot} {f : QSlot → State → State} (hf : ∀ (a : QSlot) (t : State), t.Inv → (f a t).Inv)
    (h : s.Inv) :
    Ends (onHead op die slot f s) := by
  unfold onHead
  split
  · exact .next (State.ite_inv (State.headStep_inv (fun _ h1 => hf _ _ h1) h) h)
  · exact .next h

theorem State.blockQ_inv {die q} (h : s.Inv) : (s.blockQ die q).Inv := h

theorem State.qplace_inv {die q nd addr} (h : s.Inv) : InvOpt ((s.qplace die q nd addr).map (·.2)) := by
  unfold State.qplace
  dsimp only
  split
  · exact .none
  split
  · exact .none
  split
  · rename_i e1
    exact .some (Found.Inv.of_loc e1 (State.locateEng_inv h))
  · rename_i e2
    exact .some (Found.Inv.of_miss e2 (State.locateEng_inv h))
  · exact .none

theorem State.askPeer_inv {die q p w o opc sub data} (h : s.Inv) : (s.askPeer die q p w o opc sub data).Inv := h

theorem State.signalQ_inv {die q} (h : s.Inv) : (s.signalQ die q).Inv := by
  unfold State.signalQ
  split
  · rename_i e1
    have h1 := InvOpt.get_snd e1 (State.qplace_inv h)
    split
    · exact h
    split
    · exact State.failQ_inv h1
    · exact State.doneQ_inv (State.homeAmo_inv h1)
  · rename_i e2
    exact State.ite_inv h (State.askPeer_inv (InvOpt.get_snd e2 (State.qplace_inv h)))
  · exact State.failQ_inv h

theorem execSignal_ends {die slot} (h : s.Inv) : Ends (execSignal die slot s) :=
  onHead_ends (fun _ _ h1 => State.signalQ_inv h1) h

theorem State.waitQ_inv {die q} (h : s.Inv) : (s.waitQ die q).Inv := by
  unfold State.waitQ
  split
  · exact State.doneQ_inv h
  split
  · rename_i e1
    have h1 := InvOpt.get_snd e1 (State.qplace_inv h)
    split
    · exact State.blockQ_inv h1
    split
    · exact State.failQ_inv h1
    split
    · exact State.doneQ_inv h1
    · exact State.blockQ_inv h1
  · rename_i e2
    have h2 := InvOpt.get_snd e2 (State.qplace_inv h)
    split
    · exact State.doneQ_inv h2
    · exact State.blockQ_inv h2
  · rename_i e3
    have h3 := InvOpt.get_snd e3 (State.qplace_inv h)
    split
    · exact State.blockQ_inv h3
    · exact State.askPeer_inv h3
  · exact State.failQ_inv h

theorem execWait_ends {die slot} (h : s.Inv) : Ends (execWait die slot s) :=
  onHead_ends (fun _ _ h1 => State.waitQ_inv h1) h

theorem State.markQ_inv {die q} (h : s.Inv) : (s.markQ die q).Inv := by
  unfold State.markQ
  split
  · rename_i e1
    have h1 := InvOpt.get_snd e1 (State.qplace_inv h)
    split
    · exact h
    split
    · exact State.failQ_inv h1
    · exact State.doneQ_inv (State.homeWrite_inv h1)
  · rename_i e2
    exact State.doneQ_inv (State.emit_inv (InvOpt.get_snd e2 (State.qplace_inv h)))
  · rename_i e3
    exact State.ite_inv h (State.askPeer_inv (InvOpt.get_snd e3 (State.qplace_inv h)))
  · exact State.failQ_inv h

theorem execMark_ends {die slot} (h : s.Inv) : Ends (execMark die slot s) :=
  onHead_ends (fun _ _ h1 => State.markQ_inv h1) h

theorem State.fenceQ_inv {die q} (h : s.Inv) : (s.fenceQ die q).Inv := State.ite_inv (State.doneQ_inv h) h

theorem execQueueFence_ends {die slot} (h : s.Inv) : Ends (execQueueFence die slot s) :=
  onHead_ends (fun _ _ h1 => State.fenceQ_inv h1) h

theorem State.missQ_inv {die q addr} (h : s.Inv) : (s.missQ die q addr).Inv := State.msixRaise_inv h

theorem State.armQ_inv {die q addr val count} (h : s.Inv) : InvOpt ((s.armQ die q addr val count).map (·.2)) := by
  unfold State.armQ
  dsimp only
  split
  · rename_i e1
    exact .some (InvOpt.get_snd e1 (State.qplace_inv h) :)
  · rename_i e2
    exact .some (InvOpt.get_snd e2 (State.qplace_inv h) :)
  · rename_i e3
    exact .some (State.sendEngine_inv (InvOpt.get_snd e3 (State.qplace_inv h) :))
  · exact .none

theorem State.deadlineQ_inv {die q} (h : s.Inv) : (s.deadlineQ die q).Inv := by
  unfold State.deadlineQ
  split
  · exact h
  split
  · rename_i e1
    exact State.doneQ_inv (InvOpt.get_snd e1 (State.armQ_inv h))
  · exact State.failQ_inv h

theorem execDeadline_ends {die slot} (h : s.Inv) : Ends (execDeadline die slot s) :=
  onHead_ends (fun _ _ h1 => State.deadlineQ_inv h1) h

theorem State.rearmQ_inv {die q u} (h : s.Inv) : (s.rearmQ die q u).Inv := by
  unfold State.rearmQ
  exact State.atPort_inv (fun _ h1 => by
    split
    · rename_i e2
      exact State.putQ_inv (InvOpt.get_snd e2 (State.armQ_inv h1))
    · exact h1) h

theorem execDeadlineExpire_ends {die slot} (h : s.Inv) : Ends (execDeadlineExpire die slot s) := by
  unfold execDeadlineExpire
  split
  · exact .next h
  split
  · exact .next h
  · exact .next (State.ite_inv (State.missQ_inv h) (State.ite_inv h (State.ite_inv (State.rearmQ_inv h) h)))

theorem State.waveOn_inv {p n x3} (h : s.Inv) : (State.waveOn p n x3 s).2.2.Inv := by
  induction n generalizing p x3 s with
  | zero =>
    rw [State.waveOn]
    exact h
  | succ n ih =>
    rw [State.waveOn]
    split
    · exact h
    split
    · exact h
    · exact ih (State.materialiseNext_inv h)

theorem State.launchMore_inv {die q ix i} (h : s.Inv) : (s.launchMore die q ix i).Inv := by
  unfold State.launchMore
  split
  · exact State.doneQ_inv h
  split
  · exact State.ite_inv (State.ite_inv h h) (State.doneQ_inv h)
  · exact State.ite_inv (State.doneQ_inv (State.waveOn_inv h)) (State.blockQ_inv (State.waveOn_inv h))

theorem State.launchPop_inv {l queue} (h : s.Inv) : (s.launchPop l queue).2.Inv := by
  unfold State.launchPop
  dsimp only
  split
  · exact State.foldl_inv (fun _ _ h3 => h3) h
  · exact State.setCluster_inv (State.foldl_inv (fun _ _ h4 => h4) h)

theorem State.launchQ_inv {die q} (h : s.Inv) : (s.launchQ die q).Inv := by
  unfold State.launchQ
  split
  · exact State.launchMore_inv h
  dsimp only
  split
  · exact State.failQ_inv h
  split
  · exact State.failQ_inv h
  split
  · exact State.ite_inv h h
  split
  · exact State.failQ_inv h
  split
  · exact State.failQ_inv h
  · exact State.ite_inv h (State.launchMore_inv (State.launchPop_inv h))

theorem execLaunch_ends {die slot} (h : s.Inv) : Ends (execLaunch die slot s) :=
  onHead_ends (fun _ _ h1 => State.launchQ_inv h1) h

theorem execQueueUnblock_ends {die slot} (h : s.Inv) : Ends (execQueueUnblock die slot s) := by
  unfold execQueueUnblock
  split
  · exact .next h
  split
  · exact .next h
  · exact .next (State.headStep_inv (fun _ h1 => by
      split
      · exact State.launchQ_inv h1
      · exact State.waitQ_inv h1
      · exact State.deadlineQ_inv h1
      · exact State.fenceQ_inv h1
      · exact h1) h)

theorem State.queueAnswer_inv {ser ok} (h : s.Inv) : (s.queueAnswer ser ok).Inv := by
  unfold State.queueAnswer
  split
  · exact State.ite_inv (State.doneQ_inv h) (State.failQ_inv h)
  split
  · exact State.ite_inv (State.msixRaise_inv h) h
  · exact h

theorem State.queueWords_inv {ser bs} (h : s.Inv) : (s.queueWords ser bs).Inv := by
  unfold State.queueWords
  split <;> exact h

theorem State.queueLost_inv {ser} (h : s.Inv) : (s.queueLost ser).Inv := by
  unfold State.queueLost
  split
  · exact State.failQ_inv h
  · exact h

theorem State.restoreDeadline_inv {die q w} (h : s.Inv) : (s.restoreDeadline die q w).Inv :=
  State.ite_inv h (State.ite_inv (State.missQ_inv h) h)

theorem State.mapQ_inv {die want desc w} (h : s.Inv) : (s.mapQ die want desc w).2.2.Inv := by
  unfold State.mapQ
  split
  · exact h
  dsimp only
  split
  · exact h
  split
  · exact h
  · exact State.tune_inv (State.restoreDeadline_inv h)

theorem withTask0_inv {g n} {k : List Byte → Eff} (h : s.Inv) (hk : ∀ (a : List Byte), (k a).Inv) :
    (withTask0 g n s k).Inv :=
  Eff.ite_inv (.again h) (Eff.ite_inv .park (Eff.ite_inv .trap (Eff.ite_inv .trap (hk _))))

theorem execQmap_ends {x} (h : s.Inv) : Ends (execQmap x s) :=
  issueSys_ends (fun _ h1 => withSrc_inv h1 (fun _ _ h2 =>
    Eff.ite_inv Eff.ill_inv (withDest_inv (withTask0_inv h2
      (fun _ => .done (State.writeX_inv (State.mapQ_inv h2))))))) h

theorem State.unmapQ_inv {die q} (h : s.Inv) : (s.unmapQ die q).Inv :=
  State.setDie_inv (State.homeWrite_inv (State.ite_inv h h))

theorem withWave_inv {die q} {k : QSlot → State → Eff} (h : s.Inv)
    (hk : ∀ (a : QSlot) (t : State), t.Inv → (k a t).Inv) :
    (withWave die q s k).Inv := by
  unfold withWave
  split
  · exact hk _ _ h
  dsimp only
  split
  · exact hk _ _ (State.launchMore_inv h)
  split
  · exact .park
  · exact hk _ _ (State.launchMore_inv h)

theorem withUnmap_inv {x slot} {k : ℕ → State → Eff} (h : s.Inv) (hk : ∀ (a : ℕ) (t : State), t.Inv → (k a t).Inv) :
    (withUnmap x slot s k).Inv := by
  unfold withUnmap
  split
  · exact .done h
  · exact withTask0_inv h (fun _ => withWave_inv h (fun _ _ h1 => hk _ _ (State.unmapQ_inv h1)))

theorem execQunm_ends {x} (h : s.Inv) : Ends (execQunm x s) :=
  issueSys_ends (fun _ h1 => withSrc_inv h1 (fun _ _ h2 =>
    Eff.ite_inv Eff.ill_inv (withDest_inv (withUnmap_inv h2 (fun _ _ h3 => .done h3))))) h

theorem execQsw_ends {x} (h : s.Inv) : Ends (execQsw x s) :=
  issueSys_ends (fun _ h1 => withSrc_inv h1 (fun _ _ h2 =>
    withSrc_inv h2 (fun _ _ h3 => Eff.ite_inv Eff.ill_inv
      (withDest_inv (withTask0_inv h3 (fun _ =>
        withUnmap_inv h3 (fun _ _ h4 => .done (State.writeX_inv (State.mapQ_inv h4))))))))) h

theorem Eff.launched_inv {x code hd} (h : s.Inv) : (Eff.launched x code hd s).Inv := .done (State.writeRegs_inv h)

theorem State.launchHere_inv {x ix i} (h : s.Inv) : (s.launchHere x ix i).Inv := by
  unfold State.launchHere
  split
  · exact Eff.launched_inv h
  dsimp only
  split
  · exact Eff.launched_inv (State.mapRes_inv (State.waveOn_inv h))
  · exact .again (State.parkOn_inv (State.mapRes_inv (State.waveOn_inv h)))

theorem execQlch_ends {x} (h : s.Inv) : Ends (execQlch x s) := by
  unfold execQlch
  exact issueSys_ends (fun _ h1 => withEa_inv h1 (fun _ _ h2 => withDest_inv (withDests_inv h2 (by
    split
    · exact withRecords_inv h2 (fun _ h3 => State.launchHere_inv h3)
    split
    · exact .trap
    · exact withTask0_inv h2 (fun _ => by
        dsimp only
        split
        · exact Eff.launched_inv h2
        split
        · exact Eff.launched_inv h2
        split
        · exact Eff.launched_inv h2
        split
        · exact Eff.launched_inv h2
        split
        · exact .park
        · exact withRecords_inv h2 (fun _ h4 =>
            Eff.ite_inv (Eff.launched_inv (State.launchPop_inv h4))
              (State.launchHere_inv (State.launchPop_inv h4)))))))) h

theorem onSlot_ends {op x} {f : Option QSlot → State → Word × State}
    (hf : ∀ (a : Option QSlot) (t : State), t.Inv → (f a t).2.Inv) (h : s.Inv) :
    Ends (onSlot op x f s) :=
  issueSys_ends (fun _ h1 => withSrc_inv h1 (fun _ _ h2 =>
    Eff.ite_inv Eff.ill_inv (withDest_inv (.done (State.writeX_inv (hf _ _ h2)))))) h

theorem execQdlRd_ends {x} (h : s.Inv) : Ends (execQdlRd x s) := onSlot_ends (fun _ _ h1 => h1) h

theorem execQdlAdd_ends {x} (h : s.Inv) : Ends (execQdlAdd x s) := by
  unfold execQdlAdd
  exact issueSys_ends (fun _ h1 => withSrc_inv h1 (fun _ _ h2 => withSrc_inv h2 (fun _ _ h3 => by
    split
    · exact Eff.ill_inv
    · exact withDest_inv (by
        repeat' split
        all_goals exact .done h3)))) h

theorem execQdlStop_ends {x} (h : s.Inv) : Ends (execQdlStop x s) :=
  onSlot_ends (fun _ _ h1 => (by split <;> exact h1)) h

theorem execQstSlot_ends {x} (h : s.Inv) : Ends (execQstSlot x s) := onSlot_ends (fun _ _ h1 => h1) h

theorem execQstBell_ends {x} (h : s.Inv) : Ends (execQstBell x s) :=
  issueSys_ends (fun _ h1 => withSrc_inv h1 (fun _ _ h2 => Eff.ite_inv Eff.ill_inv (withDest_inv (.done h2)))) h

theorem State.clearQ_inv {skip q} (h : s.Inv) : (s.clearQ skip q).2.Inv := by
  unfold State.clearQ
  split
  · exact h
  · exact State.ite_inv (State.tune_inv h) h

theorem execQstClr_ends {x} (h : s.Inv) : Ends (execQstClr x s) := onSlot_ends (fun _ _ h1 => State.clearQ_inv h1) h

theorem execQstSkip_ends {x} (h : s.Inv) : Ends (execQstSkip x s) := onSlot_ends (fun _ _ h1 => State.clearQ_inv h1) h

theorem execQsigCtr_ends {x} (h : s.Inv) : Ends (execQsigCtr x s) := by
  unfold execQsigCtr
  exact issueSys_ends (fun _ h1 => withSrc_inv h1 (fun _ _ h2 =>
    withSrc_inv h2 (fun _ _ h3 => withDest_inv (withRelease_inv (by
    dsimp only
    split
    · exact .done h3
    split
    · rename_i e4
      split
      · exact .park
      split
      · exact .done h3
      split
      · exact .done h3
      · exact .done (State.writeX_inv (State.homeAmo_inv (Found.Inv.of_loc e4 (State.locate_inv h3))))
    · rename_i e5
      exact .done (State.oweX_inv (State.sendEngine_inv (Found.Inv.of_loc e5 (State.locate_inv h3))))
    · exact .done h3
    · exact .done h3))))) h

theorem execQsigIrq_ends {x} (h : s.Inv) : Ends (execQsigIrq x s) :=
  issueSys_ends (fun _ h1 => withSrc_inv h1 (fun _ _ h2 =>
    Eff.ite_inv Eff.ill_inv (withDest_inv (.done (State.writeX_inv (State.msixRaise_inv h2)))))) h

/-! ### What HostPort.lean keeps -/

theorem hostStep_ends {s1 : State} (h : s.Inv) (hs1 : s1.Inv) : Ends (hostStep s s1) := .next (State.ite_inv h hs1)

theorem State.ringQueue_inv {die q} (h : s.Inv) : (s.ringQueue die q).Inv := by
  unfold State.ringQueue
  split
  · exact State.tune_inv h
  · exact State.ite_inv (State.failQ_inv h) h
  · exact State.ite_inv (State.failQ_inv h) h
  · exact h

theorem State.ringBell_inv {off size val} (h : s.Inv) : (s.ringBell off size val).Inv := by
  unfold State.ringBell
  split
  · exact h
  dsimp only
  split
  · exact State.ringQueue_inv h
  · exact h

theorem State.hostRefuse_inv {off} (h : s.Inv) : (s.hostRefuse off).Inv := State.emit_inv h

theorem State.hostDo_inv {o} (h : s.Inv) : (s.hostDo o).Inv := by
  unfold State.hostDo
  split
  · exact State.ite_inv (State.hostRefuse_inv h) (State.homeWrite_inv h)
  · exact State.ite_inv (State.hostRefuse_inv h) (State.emit_inv h)
  · exact State.ringBell_inv h

theorem State.hostDrain_inv {l x2} (h : s.Inv) : (State.hostDrain l x2 s).Inv := by
  induction l generalizing x2 s with
  | nil =>
    rw [State.hostDrain]
    exact h
  | cons y l ih =>
    rw [State.hostDrain]
    exact State.ite_inv (ih (State.hostDo_inv h)) (ih h)

theorem State.hostTake_inv {o} (h : s.Inv) : (s.hostTake o).Inv := State.hostDrain_inv h

theorem execDoorbellWrite_ends {off size val} (h : s.Inv) : Ends (execDoorbellWrite off size val s) :=
  hostStep_ends h (State.hostTake_inv h)

theorem execBar2Write_ends {off bytes relaxed} (h : s.Inv) : Ends (execBar2Write off bytes relaxed s) := by
  unfold execBar2Write
  exact hostStep_ends h (by
    split
    · exact State.hostRefuse_inv h
    · exact State.hostTake_inv h)

theorem execBar2Read_ends {off size tag} (h : s.Inv) : Ends (execBar2Read off size tag s) := by
  unfold execBar2Read
  exact hostStep_ends h (by
    split
    · exact State.hostRefuse_inv h
    · exact State.hostTake_inv h)

theorem execMbell_ends {_val} (h : s.Inv) : Ends (execMbell _val s) :=
  hostStep_ends h (State.ite_inv h (State.putMsg_inv h))

theorem execHostRegisterWrite_ends {off size val} (h : s.Inv) : Ends (execHostRegisterWrite off size val s) :=
  hostStep_ends h (State.ite_inv h (State.ite_inv h (State.ite_inv (State.ite_inv h h)
    (State.ite_inv (State.msixFlush_inv h) (State.ite_inv (State.msixFlush_inv h) h)))))

theorem State.hostAnswer_inv {r bs} (h : s.Inv) : (s.hostAnswer r bs).Inv := by
  unfold State.hostAnswer
  dsimp only
  split
  · exact State.ite_inv (State.landTrap_inv h) (State.landReply_inv h)
  · exact State.ite_inv (State.queueLost_inv h) (State.queueWords_inv h)
  · split
    · exact State.ite_inv (State.copyAnswer_inv h) h
    · exact h
  · exact h
  · exact State.ite_inv (State.brineLost_inv h) (State.brineRead_inv h)
  split
  · exact State.landTrap_inv (State.foldl_inv (fun _ _ h1 => State.emit_inv h1) (by
      split
      · exact State.ite_inv h (State.emit_inv h)
      · exact h))
  · exact State.landReply_inv (State.foldl_inv (fun _ _ h2 => State.emit_inv h2) (by
      split
      · exact State.ite_inv h (State.emit_inv h)
      · exact h))

theorem execPcieCompletion_ends {tag status data} (h : s.Inv) : Ends (execPcieCompletion tag status data s) := by
  unfold execPcieCompletion
  exact hostStep_ends h (by
    split
    · exact h
    · exact State.ite_inv (State.hostAnswer_inv h) h)

/-! ### What Turns.lean keeps -/

theorem execFetchReady_ends {core cxa} (h : s.Inv) : Ends (execFetchReady core cxa s) := by
  unfold execFetchReady
  split
  · exact .next (State.ite_inv (State.updThr_inv h) h)
  · exact .next h

theorem execResultLand_ends {k} (h : s.Inv) : Ends (execResultLand k s) := by
  unfold execResultLand
  split
  · exact .next h
  dsimp only
  split
  · exact .next h
  · exact .next (State.atPort_inv (fun _ h1 => State.backAll_inv (by
      split
      · exact State.landReply_inv h1
      · exact State.updImage_inv (State.touchImage_inv h1))) h)

theorem execWriteBack_ends {core cxa} (h : s.Inv) : Ends (execWriteBack core cxa s) := .next (State.updThr_inv h)

theorem execSkippedTurn_ends {core slot} (h : s.Inv) : Ends (execSkippedTurn core slot s) := by
  unfold execSkippedTurn
  split
  · exact .next (State.ite_inv h (State.updThr_inv h))
  · exact .next h

theorem State.bindEntry_inv {core slot k t} (h : s.Inv) : (s.bindEntry core slot k t).Inv := by
  unfold State.bindEntry
  dsimp only
  split
  · exact State.updThr_inv h
  · exact State.updThr_inv h
  split
  · split
    · exact State.cxfEvent_inv (State.markCf_inv (State.reachRecord_inv h))
    split
    · rename_i e1
      exact snd_inv e1 (State.takeLine_inv (State.reachRecord_inv h))
    · rename_i e2
      exact State.updThr_inv (snd_inv e2 (State.takeLine_inv (State.reachRecord_inv h)) :)
  split
  · exact h
  split
  · rename_i e3
    exact snd_inv e3 (State.takeLine_inv h)
  · rename_i e4
    exact State.updThr_inv (snd_inv e4 (State.takeLine_inv h) :)

theorem execThreadBind_ends {core} (h : s.Inv) : Ends (execThreadBind core s) := by
  unfold execThreadBind
  split
  · exact .next h
  · exact .next (State.atPort_inv (fun _ h1 => by
      split
      · dsimp only
        split
        · exact State.bindEntry_inv h1
        · exact h1
      · exact h1) h)

theorem State.mckThr_inv {core cxa part} (h : s.Inv) : (s.mckThr core cxa part).Inv :=
  State.setCore_inv (State.sendFlue_inv (State.updThr_inv h))

theorem execLineFillDone_ends {core cxa} (h : s.Inv) : Ends (execLineFillDone core cxa s) := by
  unfold execLineFillDone
  split
  · exact .next h
  split
  · exact .next h
  dsimp only
  split
  · exact .next (State.updThr_inv (State.touchBank_inv h))
  · exact .next (State.atPort_inv (fun _ h1 => by
      split
      · exact State.cxfEvent_inv (State.setCore_inv (State.updThr_inv (State.reachRecord_inv h1)))
      split
      · exact State.updThr_inv (State.touchBank_inv (State.reachRecord_inv h1))
      split
      · exact State.reachRecord_inv h1
      split
      · exact State.mckThr_inv (State.reachRecord_inv h1)
      · exact State.updThr_inv (State.touchBank_inv (State.reachRecord_inv h1))) h)

theorem execBankWake_ends {core bank} (h : s.Inv) : Ends (execBankWake core bank s) :=
  .next (State.ite_inv h (State.foldl_inv (fun _ _ h1 => State.updThr_inv h1) h))

theorem execQuantumEnd_ends {core slot} (h : s.Inv) : Ends (execQuantumEnd core slot s) := by
  unfold execQuantumEnd
  split
  · exact .next (State.ite_inv (State.unbindAt_inv h) h)
  · exact .next h

theorem execSegmentSetFill_ends {core task} (h : s.Inv) : Ends (execSegmentSetFill core task s) :=
  .next (State.ite_inv h (State.ite_inv h (State.foldl_inv (fun _ _ h1 => State.makeReady_inv h1) h)))

theorem State.freeUp_inv {core need n} (h : s.Inv) : (State.freeUp core need n s).2.Inv := by
  induction n generalizing core need s with
  | zero =>
    rw [State.freeUp]
    exact h
  | succ n ih =>
    rw [State.freeUp]
    split
    · exact h
    split
    · dsimp only
      split
      · exact ih (State.toEmber_inv h)
      · exact State.toEmber_inv h
    · exact h

theorem State.reserve_inv {cores l} (h : s.Inv) : (State.reserve cores l s).2.Inv := by
  induction l generalizing cores s with
  | nil =>
    rw [State.reserve]
    exact h
  | cons y l ih =>
    rw [State.reserve]
    split
    · exact ih (State.freeUp_inv h)
    · exact State.freeUp_inv h

theorem State.materialiseAll_inv {p grp x3 l} (h : s.Inv) : (State.materialiseAll p grp x3 l s).Inv := by
  induction l generalizing p grp x3 s with
  | nil =>
    rw [State.materialiseAll]
    exact h
  | cons y l ih =>
    rw [State.materialiseAll]
    exact ih (State.materialise_inv h)

theorem execGroupAdmit_ends {cluster} (h : s.Inv) : Ends (execGroupAdmit cluster s) := by
  unfold execGroupAdmit
  split
  · exact .next h
  split
  · exact .next h
  dsimp only
  split
  · exact .next h
  · exact .next (State.atPort_inv (fun _ h1 => by
      split
      · rename_i e2
        exact snd_inv e2 (State.reserve_inv h1)
      · rename_i e3
        exact State.materialiseAll_inv (State.setCluster_inv (snd_inv e3 (State.reserve_inv h1) :))) h)

theorem execDoneAddRetry_ends {k} (h : s.Inv) : Ends (execDoneAddRetry k s) := by
  unfold execDoneAddRetry
  split
  · split
    · exact .next (State.ite_inv (State.doneAdd_inv h) h)
    · exact .next h
  · exact .next h

theorem State.hopBack_inv {src t} (h : s.Inv) : (s.hopBack src t).Inv :=
  State.asThr_inv (fun _ h1 => State.trapWaiting_inv h1) (State.seat_inv h)

theorem State.hopRefused_inv {hd} (h : s.Inv) : (s.hopRefused hd).Inv :=
  State.ite_inv (State.nakPeer_inv h) (State.ite_inv h (State.hopBack_inv (State.ackTo_inv h)))

theorem State.hopTaken_inv {hd} (h : s.Inv) : (s.hopTaken hd).Inv := State.ite_inv h (State.ackTo_inv h)

theorem execHopArrive_ends {k} (h : s.Inv) : Ends (execHopArrive k s) := by
  unfold execHopArrive
  split
  · exact .next h
  dsimp only
  split
  · exact .next h
  split
  · exact .next (State.hopRefused_inv h)
  split
  · exact .next h
  · exact .next (State.atPort_inv (fun _ h4 =>
      State.ite_inv (State.seatRoom_inv h4) (State.ite_inv (State.hopRefused_inv (State.seatRoom_inv h4))
        (State.hopTaken_inv (State.enqueue_inv (State.seat_inv (State.seatRoom_inv h4)))))) h)

theorem execWakeReceive_ends {k} (h : s.Inv) : Ends (execWakeReceive k s) := by
  unfold execWakeReceive
  split
  · exact .next h
  · exact .next (State.ite_inv h (State.ite_inv (State.ackTo_inv h) (State.wakeThread_inv (State.ackTo_inv h))))

theorem execInboxEnqueue_ends {k} (h : s.Inv) : Ends (execInboxEnqueue k s) := by
  unfold execInboxEnqueue
  split
  · exact .next h
  split
  · exact .next h
  split
  · rename_i e1
    dsimp only
    split
    · exact .next (InvOpt.get e1 (State.finishCmd_inv h) :)
    split <;> exact .next (State.answerPeer_inv (InvOpt.get e1 (State.finishCmd_inv h) :))
  · exact .next h

theorem execWakeArrive_ends {k} (h : s.Inv) : Ends (execWakeArrive k s) := by
  unfold execWakeArrive
  split
  · exact .next h
  · exact .next (State.atPort_inv (fun _ h1 => by
      dsimp only
      split
      · split
        · exact State.endDropped_inv h1
        · exact State.wakeDropped_inv h1
      split
      · split
        · exact State.oweWord_inv (State.endDropped_inv h1)
        · exact State.oweWord_inv (State.wakeDropped_inv h1)
      split
      · exact State.endDropped_inv h1
      · exact State.wakeDropped_inv h1) h)

/-! ### What Plane.lean keeps -/

theorem State.injectFlit_inv {x y free k} (h : s.Inv) : (s.injectFlit x y free k).2.Inv := by
  unfold State.injectFlit
  dsimp only
  split
  · exact State.ite_inv h h
  split <;> exact h

theorem State.injectAt_inv {x y free} (h : s.Inv) : (s.injectAt x y free).Inv := by
  unfold State.injectAt
  split
  · exact h
  · exact State.injectFlit_inv h
  · exact State.injectFlit_inv h
  · exact State.ite_inv (State.injectFlit_inv (State.injectFlit_inv h))
      (State.injectFlit_inv (State.injectFlit_inv h))

theorem State.launch_inv {p} (h : s.Inv) : (s.launch p).Inv := by
  unfold State.launch
  split
  · exact h
  · exact State.ite_inv h h

theorem State.injectFlue_inv {x y free} (h : s.Inv) : (s.injectFlue x y free).Inv := by
  unfold State.injectFlue
  dsimp only
  split
  · exact h
  split
  · exact State.ite_inv h h
  split <;> exact h

theorem State.landWakes_inv (h : s.Inv) : s.landWakes.Inv := h

theorem State.flueCycle_inv {x y} (h : s.Inv) : (s.flueCycle x y).Inv := State.landWakes_inv (State.injectFlue_inv h)

theorem execRouterCycle_ends {x y} (h : s.Inv) : Ends (execRouterCycle x y s) :=
  .next (State.flueCycle_inv (State.injectAt_inv h))

theorem State.passFlit_inv {hd f} (h : s.Inv) : (s.passFlit hd f).Inv := State.ite_inv h h

theorem State.releaseFlits_inv {hd n} (h : s.Inv) : (State.releaseFlits hd n s).Inv := by
  induction n generalizing hd s with
  | zero =>
    rw [State.releaseFlits]
    exact h
  | succ n ih =>
    rw [State.releaseFlits]
    split
    · exact h
    · exact ih (State.passFlit_inv h)

theorem State.drainIngress_inv {hd} (h : s.Inv) : (s.drainIngress hd).Inv := State.releaseFlits_inv h

theorem execFlitArrive_ends {k} (h : s.Inv) : Ends (execFlitArrive k s) := by
  unfold execFlitArrive
  split
  · exact .next h
  split
  · exact .next h
  dsimp only
  split
  · split
    · exact .next (State.nakReq_inv h)
    · exact .next h
  split
  · exact .next (State.ite_inv (State.drainIngress_inv (State.passFlit_inv h)) h)
  · exact .next (State.ite_inv h (State.ite_inv h h))

theorem State.startReq_inv {k r} (h : s.Inv) : (s.startReq k r).Inv :=
  State.ite_inv h (State.ite_inv h (State.performReq_inv (State.ite_inv h h)))

theorem State.startDrift_inv {d} (h : s.Inv) : (s.startDrift d).Inv := State.ite_inv h h

theorem execHomeRequestStart_ends {k} (h : s.Inv) : Ends (execHomeRequestStart k s) := by
  unfold execHomeRequestStart
  split
  · exact .next (State.ite_inv (State.drainIngress_inv (State.startReq_inv h)) (State.startReq_inv h))
  split
  · exact .next (State.drainIngress_inv (State.startDrift_inv h))
  · exact .next h

theorem execStreamNak_ends {core tag} (h : s.Inv) : Ends (execStreamNak core tag s) := by
  unfold execStreamNak
  split
  · exact .next h
  · exact .next (State.ite_inv h h)

theorem execDraughtAck_ends {k} (h : s.Inv) : Ends (execDraughtAck k s) := by
  unfold execDraughtAck
  split <;> exact .next h

theorem execCeilRecover_ends {core dn} (h : s.Inv) : Ends (execCeilRecover core dn s) := .next h

theorem execNakReceive_ends {k} (h : s.Inv) : Ends (execNakReceive k s) := by
  unfold execNakReceive
  split
  · exact .next h
  dsimp only
  split
  · exact .next (State.ite_then_inv State.storeDone_inv (State.recordFault_inv h))
  · exact .next (State.landTrap_inv h)

/-! ### What Reliability.lean keeps -/

theorem State.sendFlt_inv {r at'} (h : s.Inv) : (s.sendFlt r at').Inv := h

theorem State.report_inv {r} (h : s.Inv) : (s.report r).Inv :=
  State.ite_inv h (State.sendFlt_inv (State.homeWrite_inv h))

theorem State.failDie_inv {d boot} (h : s.Inv) : (s.failDie d boot).Inv := by
  unfold State.failDie
  split
  · exact h
  dsimp only
  split
  · split
    · exact State.foldl_inv (fun _ _ h7 => State.setCore_inv (State.loseCore_inv h7)) h
    · exact State.msixRaise_inv (State.foldl_inv (fun _ _ h8 => State.setCore_inv (State.loseCore_inv h8)) h)
  split
  · exact State.foldl_inv (fun _ _ h11 => State.setCore_inv (State.loseCore_inv h11)) h
  · exact State.msixRaise_inv (State.foldl_inv (fun _ _ h12 => State.setCore_inv (State.loseCore_inv h12)) h)

theorem State.killCore_inv {core} (h : s.Inv) : (s.killCore core).Inv := by
  unfold State.killCore
  split
  · exact State.failDie_inv h
  · exact State.nakWaiters_inv (State.setCore_inv (State.foldl_inv (fun _ _ h2 => State.updThr_inv h2) h))

theorem execMissFill_ends {core addr outcome} (h : s.Inv) : Ends (execMissFill core addr outcome s) := by
  unfold execMissFill
  dsimp only
  split
  · split
    · exact .next h
    split
    · exact .next h
    split
    · exact .next h
    · exact .next (State.touchL2_inv (State.report_inv h))
    · exact .next (State.touchL2_inv (State.report_inv (State.foldl_inv (fun _ _ h1 => h1) h)))
  split
  · exact .next h
  split
  · exact .next h
  split
  · exact .next h
  · exact .next (State.report_inv h)
  · exact .next (State.killCore_inv (State.report_inv (State.foldl_inv (fun _ _ h2 => h2) h)))

theorem State.glitchStore_inv {k ws} (h : s.Inv) : (s.glitchStore k ws).Inv := by
  unfold State.glitchStore
  split
  · exact h
  dsimp only
  split
  · split
    · exact h
    split
    · exact State.addWaiter_inv (State.report_inv h)
    · exact State.ackTo_inv (State.ite_then_inv State.storeDone_inv
        (State.afterWrite_inv (State.foldl_inv (fun _ _ h8 => h8)
          (State.writeMem_inv _ _ _ (State.ite_else_inv State.setCore_inv
            (State.ite_inv (State.touchL2_inv (State.report_inv h)) (State.report_inv h)))))))
  · split
    · exact h
    split
    · exact State.addWaiter_inv (State.report_inv h)
    · exact State.ackTo_inv (State.ite_then_inv State.storeDone_inv
        (State.afterWrite_inv (State.foldl_inv (fun _ _ h14 => h14)
          (State.writeMem_inv _ _ _ (State.ite_else_inv State.setCore_inv
            (State.ite_inv (State.touchL2_inv (State.report_inv h)) (State.report_inv h)))))))
  split
  · exact h
  split
  · exact State.addWaiter_inv (State.report_inv h)
  · exact State.ackTo_inv (State.ite_then_inv State.storeDone_inv
      (State.afterWrite_inv (State.foldl_inv (fun _ _ h20 => h20)
        (State.writeMem_inv _ _ _ (State.ite_else_inv State.setCore_inv
          (State.ite_inv (State.touchL2_inv (State.report_inv h)) (State.report_inv h)))))))

theorem State.glitchReply_inv {k} (h : s.Inv) : (s.glitchReply k).Inv := by
  unfold State.glitchReply
  split
  · exact State.report_inv h
  · exact h

theorem State.glitchEmber_inv {core cxa} (h : s.Inv) : (s.glitchEmber core cxa).Inv := by
  unfold State.glitchEmber
  split
  · exact State.ite_inv (State.killCore_inv (State.mckThr_inv (State.report_inv h))) h
  · exact h

theorem State.glitch_inv {g} (h : s.Inv) : (s.glitch g).Inv := by
  unfold State.glitch
  split
  · exact h
  · split
    · exact State.setCore_inv (State.report_inv (State.mckThr_inv h))
    · exact h
  · exact State.glitchEmber_inv h
  · exact State.killCore_inv (State.report_inv h)
  · exact h
  · exact State.glitchStore_inv h
  · exact State.glitchReply_inv h
  · exact State.report_inv h
  · exact State.report_inv h
  · exact State.report_inv h
  · exact State.failDie_inv h

theorem execFlueArrive_ends {k} (h : s.Inv) : Ends (execFlueArrive k s) := by
  unfold execFlueArrive
  split
  · exact .next h
  dsimp only
  split
  · exact .next h
  split
  · exact .next h
  split
  · exact .next h
  · exact .next (State.ite_inv (State.ite_inv h h) h)
  · exact .next (State.ite_inv h (State.putMsg_inv h))

theorem execCollectorDeliver_ends {band k} (h : s.Inv) : Ends (execCollectorDeliver band k s) := by
  unfold execCollectorDeliver
  dsimp only
  split
  · exact .next h
  · exact .next (State.ite_inv h h)

theorem execHeartbeat_ends {die} (h : s.Inv) : Ends (execHeartbeat die s) :=
  .next (State.ite_inv (State.dieBeat_inv h) h)

/-! ### What Peer.lean keeps -/

theorem State.pingAnswer_inv {id hop x3} (h : s.Inv) : (s.pingAnswer id hop x3).Inv := by
  unfold State.pingAnswer
  split
  · exact h
  · exact State.ite_inv h h

theorem State.brineWritten_inv {id x2} (h : s.Inv) : (s.brineWritten id x2).Inv := by
  unfold State.brineWritten
  split
  · exact h
  · exact State.brineGo_inv h

theorem State.portAnswer_inv {q ans} (h : s.Inv) : (s.portAnswer q ans).Inv := by
  unfold State.portAnswer
  dsimp only
  split
  · split
    · exact State.storeDone_inv (State.recordFault_inv h)
    · exact State.storeDone_inv h
    · exact State.landTrap_inv h
    · exact State.landReply_inv h
  · exact State.pingAnswer_inv h
  · split
    · exact State.ite_inv (State.copyAnswer_inv h) h
    · exact h
  · split <;> exact h
  · exact h
  · exact h
  · exact State.brineGo_inv (State.brineEnd_inv h)
  · exact State.ite_inv (State.ite_inv (State.brineRead_inv h) (State.brineLost_inv h)) (State.brineWritten_inv h)
  · exact State.queueAnswer_inv h
  · exact h
  · exact h
  · exact h

theorem State.answerReq_inv {port p x3} (h : s.Inv) : (s.answerReq port p x3).Inv := by
  unfold State.answerReq
  split
  · exact h
  · exact State.portAnswer_inv h

theorem State.takeAnswers_inv {port k l x4} (h : s.Inv) : (State.takeAnswers port k l x4 s).Inv := by
  induction l generalizing port k x4 s with
  | nil =>
    rw [State.takeAnswers]
    exact h
  | cons y l ih =>
    rw [State.takeAnswers]
    exact ih (by
      split
      · exact State.answerReq_inv h
      · exact h)

theorem State.takeAnswer_inv {port k} (h : s.Inv) : (s.takeAnswer port k).Inv := by
  unfold State.takeAnswer
  split
  · split
    · exact State.answerReq_inv h
    · exact h
  · exact State.takeAnswers_inv h

theorem State.farParts_inv {who nd ns g} (h : s.Inv) : InvOpt ((s.farParts who nd ns g).map (·.2)) := by
  induction ns generalizing s g with
  | nil => exact .some h
  | cons n ns ih =>
    rw [State.farParts]
    split
    · rename_i e
      rw [Option.map_map]
      exact ih (Found.Inv.of_loc e (State.locateEng_inv h))
    · rename_i e
      rw [Option.map_map]
      exact ih (Found.Inv.of_loc e (State.locateEng_inv h))
    · rename_i e
      rw [Option.map_map]
      exact ih (Found.Inv.of_miss e (State.locateEng_inv h))
    · exact .none

theorem State.setAside_inv {port ser pkt} (h : s.Inv) : (s.setAside port ser pkt).Inv := h

theorem State.writeParts_inv {ls bs} (h : s.Inv) : (s.writeParts ls bs).Inv := by
  induction ls generalizing bs s with
  | nil => exact h
  | cons p ls ih =>
    obtain ⟨l, n⟩ := p
    cases l with
    | mem a home paged leaf => exact ih (State.engWrite_inv (State.ite_inv (State.touchL2_inv h) h))
    | peer p w o => exact ih h
    | host o => exact ih h
    | zeros => exact ih h

theorem State.readParts_inv {ls} (h : s.Inv) : (s.readParts ls).2.Inv := by
  induction ls generalizing s with
  | nil => exact h
  | cons p ls ih =>
    obtain ⟨l, n⟩ := p
    cases l with
    | mem a home paged leaf => exact ih (State.ite_inv (State.touchL2_inv h) h)
    | peer p w o => exact ih h
    | host o => exact ih h
    | zeros => exact ih h

theorem State.performFar_inv {port pkt o pair data who ls} (h : s.Inv) :
    (s.performFar port pkt o pair data who ls).Inv := by
  unfold State.performFar
  dsimp only
  split
  · split
    · split
      · exact State.ite_inv (State.nakPeer_inv (State.homeSetFull_inv h))
          (State.answerPeer_inv (State.homeSetFull_inv h))
      · exact h
    split
    · exact State.ite_inv (State.nakPeer_inv (State.homeSetFull_inv h))
        (State.answerPeer_inv (State.homeSetFull_inv h))
    · exact h
  · exact State.ite_inv (State.nakPeer_inv h) h
  · exact State.ite_inv (State.ite_inv (State.nakPeer_inv h) h) h
  · exact State.ite_inv (State.ite_inv (State.nakPeer_inv h) h) h
  · exact State.ite_inv (State.nakPeer_inv (State.readParts_inv h)) (State.answerPeer_inv (State.readParts_inv h))
  · exact State.ite_inv h (State.foldl_inv (fun _ _ h1 => h1) (State.engWrite_inv h))
  · exact State.foldl_inv (fun _ _ h2 => h2) (State.homeSetFull_inv h)
  · exact State.foldl_inv (fun _ _ h3 => h3) (State.homeSetFull_inv h)
  · split
    · exact State.nakPeer_inv (State.ite_inv h (State.homeGset_inv h))
    · exact State.answerPeer_inv (State.ite_inv h (State.homeGset_inv h))
  · split
    · exact State.nakPeer_inv (State.ite_inv h (State.homeGset_inv h))
    · exact State.answerPeer_inv (State.ite_inv h (State.homeGset_inv h))
  · split
    · exact State.nakPeer_inv (State.ite_inv h (State.homeGset_inv h))
    · exact State.answerPeer_inv (State.ite_inv h (State.homeGset_inv h))
  · exact State.foldl_inv (fun _ _ h4 =>
      h4) (State.ite_inv (State.afterWrite_inv (State.setFullBit_inv _ _ _
        (State.tear_inv (State.writeMem_inv _ _ _ h)))) (State.writeParts_inv h))
  · exact State.ite_inv (State.nakPeer_inv (State.homeAmo_inv h)) (State.answerPeer_inv (State.homeAmo_inv h))
  · exact State.ite_inv (State.nakPeer_inv (State.homeCas_inv h)) (State.answerPeer_inv (State.homeCas_inv h))

theorem State.accessFar_inv {port ser k o} (h : s.Inv) : (s.accessFar port ser k o).Inv := by
  unfold State.accessFar
  dsimp only
  split
  · split
    · exact State.nakPeer_inv h
    split
    · exact State.nakPeer_inv h
    rename_i e1
    split
    · exact (InvOpt.get_snd e1 (State.farParts_inv h) :)
    · exact State.nakPeer_inv (InvOpt.get_snd e1 (State.farParts_inv h))
  split
  · exact State.nakPeer_inv h
  split
  · exact State.nakPeer_inv h
  rename_i e2
  have h1 := InvOpt.get_snd e2 (State.farParts_inv h)
  split
  · exact State.nakPeer_inv h1
  split
  · exact State.setAside_inv h1
  · exact State.performFar_inv h1

theorem State.wholeMessage_inv {r pkt} (h : s.Inv) : (s.wholeMessage r pkt).Inv :=
  State.ite_inv (State.ite_inv h h) (State.ite_inv h h)

theorem State.takePart_inv {port k o data} (h : s.Inv) : (s.takePart port k o data).Inv := by
  unfold State.takePart
  dsimp only
  split
  · exact h
  · exact State.ite_inv (State.wholeMessage_inv h) h

theorem State.performUnit_inv {port ser k o} (h : s.Inv) : (s.performUnit port ser k o).Inv := by
  unfold State.performUnit
  dsimp only
  split
  · exact State.takePart_inv h
  split
  · exact State.nakPeer_inv h
  split
  · exact h
  split
  · exact State.ite_inv (State.nakPeer_inv h) (State.ite_inv (State.answerPeer_inv (State.wakeThread_inv h)) h)
  split
  · rename_i e1
    exact InvBoth.of_ok e1 (State.tryPort_inv (fun _ h2 => State.accessFar_inv h2) h)
  · rename_i e3
    exact State.setAside_inv (InvBoth.of_error e3 (State.tryPort_inv (fun _ h4 => State.accessFar_inv h4) h))

theorem State.performOps_inv {port k} (h : s.Inv) : (s.performOps port k).Inv := by
  unfold State.performOps
  exact State.foldl_inv (fun _ _ h1 => by
    split
    · exact h1
    · exact State.performUnit_inv h1) h

theorem State.answerProbes_inv {k} (h : s.Inv) : (s.answerProbes k).Inv := State.ite_inv h h

theorem State.receivePkt_inv {port bytes} (h : s.Inv) : (s.receivePkt port bytes).Inv := by
  unfold State.receivePkt
  dsimp only
  split
  · exact State.ite_inv h (State.nakPeer_inv h)
  split
  · exact h
  split
  · exact h
  split
  · exact State.takeAnswer_inv h
  · exact State.ite_inv (State.answerProbes_inv h) (State.ite_inv (State.nakPeer_inv h) (State.performOps_inv h))

theorem execPeerPacketReceive_ends {port bytes} (h : s.Inv) : Ends (execPeerPacketReceive port bytes s) :=
  .next (State.ite_inv h (State.receivePkt_inv h))

theorem execPortTimeout_ends {k} (h : s.Inv) : Ends (execPortTimeout k s) := by
  unfold execPortTimeout
  split
  · exact .next h
  · exact .next (State.ite_inv h (State.answerReq_inv h))

theorem execRemoteWaitTimeout_ends {k} (h : s.Inv) : Ends (execRemoteWaitTimeout k s) := by
  unfold execRemoteWaitTimeout
  split
  · exact .next h
  · exact .next (State.ite_inv h (Waiter.nak_inv h))

theorem State.dropOn_inv {core cxa key} (h : s.Inv) : (s.dropOn core cxa key).Inv := by
  unfold State.dropOn
  split
  · exact h
  · exact State.ite_inv (State.setCore_inv (State.updThr_inv h)) (State.updThr_inv h)

theorem State.unwait_inv {core cxa key} (h : s.Inv) : (s.unwait core cxa key).Inv := State.updImage_inv h

theorem Waiter.again_inv {w} (h : s.Inv) : (Waiter.again w s).Inv :=
  State.ite_inv (Waiter.nak_inv h) (State.ite_inv (Waiter.perform_inv h) h)

theorem State.retranslate_inv {w} (h : s.Inv) : (s.retranslate w).Inv := by
  unfold State.retranslate
  dsimp only
  split
  · exact h
  split
  · rename_i e1
    have h1 := Found.Inv.of_loc e1 (State.locateEng_inv h)
    split
    · split <;> exact State.ackTo_inv h1
    split
    · split
      · exact h
      · exact Waiter.again_inv (State.ite_then_inv State.touchL2_inv (State.setCore_inv (State.ackTo_inv h1)))
    split
    · exact h
    · exact Waiter.again_inv (State.ite_inv (State.touchL2_inv (State.ackTo_inv h1)) (State.ackTo_inv h1))
  · rename_i e2
    exact State.ite_inv (Waiter.reply_inv (Found.Inv.of_loc e2 (State.locateEng_inv h))) h
  · exact State.ite_inv (State.dropOn_inv h) (State.unwait_inv (State.ackTo_inv h))
  · exact State.ite_inv (State.dropOn_inv h) (State.unwait_inv (State.ackTo_inv h))
  · rename_i e4
    exact Found.Inv.of_miss e4 (State.locateEng_inv h)
  · exact h

theorem execWaiterResend_ends {k} (h : s.Inv) : Ends (execWaiterResend k s) := by
  unfold execWaiterResend
  split
  · exact .next h
  split
  · exact .next h
  dsimp only
  split
  · split
    · exact .next h
    · exact .next (State.ite_inv h (State.performUnit_inv h))
  split
  · split
    · rename_i e1
      exact .next (InvBoth.of_ok e1 (State.tryPort_inv (fun _ h2 => State.retranslate_inv h2) h))
    · rename_i e3
      exact .next (InvBoth.of_error e3 (State.tryPort_inv (fun _ h4 => State.retranslate_inv h4) h) :)
  · exact .next (Waiter.again_inv h)

/-! ### What Link.lean keeps -/

theorem State.dropPacket_inv {port header} (h : s.Inv) : (s.dropPacket port header).Inv :=
  State.ite_inv h (State.ite_inv h (State.answerReq_inv h))

theorem State.linkDown_inv {port} (h : s.Inv) : (s.linkDown port).Inv :=
  State.foldl_inv (fun _ _ h1 => State.dropPacket_inv h1) h

theorem State.takeRetry_inv {port lack} (h : s.Inv) : (s.takeRetry port lack).Inv :=
  State.ite_inv (State.linkDown_inv h) h

theorem State.takeData_inv {port payload} (h : s.Inv) : (s.takeData port payload).Inv :=
  State.ite_inv h (State.receivePkt_inv h)

theorem execLinkFlitReceive_ends {port bytes} (h : s.Inv) : Ends (execLinkFlitReceive port bytes s) := by
  unfold execLinkFlitReceive
  split
  · exact .next h
  split
  · exact .next (State.ite_inv h h)
  split
  · exact .next h
  dsimp only
  split
  · exact .next (State.takeData_inv h)
  · exact .next (State.takeRetry_inv h)
  · exact .next h

theorem execLinkRetryReceive_ends {port lack} (h : s.Inv) : Ends (execLinkRetryReceive port lack s) :=
  .next (State.ite_inv h (State.takeRetry_inv h))

theorem execLaneFail_ends {port lane} (h : s.Inv) : Ends (execLaneFail port lane s) := .next (State.ite_inv h h)

theorem execLinkSilenceDown_ends {port} (h : s.Inv) : Ends (execLinkSilenceDown port s) :=
  .next (State.ite_inv h (State.linkDown_inv h))

theorem execLinkTrain_ends {port} (h : s.Inv) : Ends (execLinkTrain port s) := by
  unfold execLinkTrain
  split
  · exact .next h
  dsimp only
  split <;> exact .next h

/-! ### What Bringup.lean keeps -/

theorem State.bootDie_inv {d} (h : s.Inv) : (s.bootDie d).Inv := by
  unfold State.bootDie
  split
  · exact h
  · exact State.failDie_inv h

/-- After a reset nothing is listed (R415). -/
theorem execDeviceReset_ends {image} : Ends (execDeviceReset image s) :=
  .next (State.foldl_inv (fun _ _ h1 => State.bootDie_inv h1) rfl)

theorem execClusterReady_ends {cluster} (h : s.Inv) : Ends (execClusterReady cluster s) :=
  .next (State.ite_inv (State.foldl_inv (fun _ _ h1 => State.startWalker_inv h1) h) h)

theorem execDramTrainDone_ends {chan} (h : s.Inv) : Ends (execDramTrainDone chan s) :=
  .next (State.ite_inv (State.hostDrain_inv h) h)

theorem execDramTrainFail_ends {chan} (h : s.Inv) : Ends (execDramTrainFail chan s) :=
  .next (State.ite_inv (State.hostDrain_inv h) h)

theorem execThermalFatal_ends {die} (h : s.Inv) : Ends (execThermalFatal die s) :=
  .next (State.ite_inv (State.hostDrain_inv (State.failDie_inv h)) h)

theorem execClockAdjust_ends {die power temp} (h : s.Inv) : Ends (execClockAdjust die power temp s) := by
  unfold execClockAdjust
  split
  · exact .next h
  · exact .next (State.ite_inv (State.hostDrain_inv (State.failDie_inv (State.ite_inv h h))) (State.ite_inv h h))

theorem execUnitGate_ends {cluster unit} (h : s.Inv) : Ends (execUnitGate cluster unit s) := .next (State.ite_inv h h)

theorem State.giveAddr_inv {addr} (h : s.Inv) : (s.giveAddr addr).Inv := State.ite_inv h h

theorem execI3cEntdaa_ends {addr} (h : s.Inv) : Ends (execI3cEntdaa addr s) := .next (State.giveAddr_inv h)

theorem execI3cSetdasa_ends {addr} (h : s.Inv) : Ends (execI3cSetdasa addr s) := .next (State.giveAddr_inv h)

theorem execI3cPrivateRead_ends {off len} (h : s.Inv) : Ends (execI3cPrivateRead off len s) :=
  .next (State.ite_inv h h)

theorem execI3cPrivateWrite_ends {_off _bytes} (h : s.Inv) : Ends (execI3cPrivateWrite _off _bytes s) := .next h

/-! ### What Control.lean keeps -/

theorem execNop_ends {x} (h : s.Inv) : Ends (execNop x s) := issue_ends (fun _ h1 => .done h1) h

theorem execBr_ends {x} (h : s.Inv) : Ends (execBr x s) := issue_ends (fun _ h1 => .jump h1) h

theorem execJmp_ends {x} (h : s.Inv) : Ends (execJmp x s) :=
  issue_ends (fun _ h1 => withSrc_inv h1 (fun _ _ h2 => .jump h2)) h

theorem callTo_inv {dst} (h : s.Inv) : (callTo dst s).Inv := withDestReg_inv (.jump h)

theorem execCall_ends {x} (h : s.Inv) : Ends (execCall x s) := issue_ends (fun _ h1 => callTo_inv h1) h

theorem execCallr_ends {x} (h : s.Inv) : Ends (execCallr x s) :=
  issue_ends (fun _ h1 => withSrc_inv h1 (fun _ _ h2 => callTo_inv h2)) h

theorem execLoop_ends {x} (h : s.Inv) : Ends (execLoop x s) :=
  issue_ends (fun _ h1 => withSrc_inv h1 (fun _ _ h2 => Eff.ite_inv (.done h2) (.jump h2))) h

theorem execCmp_ends {t x} (h : s.Inv) : Ends (execCmp t x s) :=
  issue_ends (fun _ h1 => withSrc_inv h1 (fun _ _ h2 =>
    withSrc_inv h2 (fun _ _ h3 => withDest_inv (.done (State.writePFixed_inv h3))))) h

theorem plog_ends {f x} (h : s.Inv) : Ends (plog f x s) :=
  issue_ends (fun _ h1 => withPred_inv (fun _ => withPred_inv (fun _ => withDest_inv (.done h1)))) h

theorem plog1_ends {f x} (h : s.Inv) : Ends (plog1 f x s) :=
  issue_ends (fun _ h1 => withPred_inv (fun _ => withDest_inv (.done h1))) h

theorem execTrap_ends {x} (h : s.Inv) : Ends (execTrap x s) := issue_ends (fun _ _ => .trap) h

theorem tretTo_inv {back} (h : s.Inv) : (tretTo back s).Inv := Eff.ite_inv (.jump h) Eff.ill_inv

theorem execTretRetry_ends {x} (h : s.Inv) : Ends (execTretRetry x s) := issue_ends (fun _ h1 => tretTo_inv h1) h

theorem execTretNext_ends {x} (h : s.Inv) : Ends (execTretNext x s) := issue_ends (fun _ h1 => tretTo_inv h1) h

theorem execBrk_ends {x} (h : s.Inv) : Ends (execBrk x s) := issue_ends (fun _ h1 => .stay h1) h

/-! ### What Dispatch.lean keeps -/

/-- Every instruction ends in a next state that meets the invariant: arm by arm, in the order of the dispatch. -/
theorem exec_ends {i} (h : s.Inv) : Ends (exec i s) := by
  unfold exec
  split
  · exact execNop_ends h
  · exact execBr_ends h
  · exact execJmp_ends h
  · exact execCall_ends h
  · exact execCallr_ends h
  · exact execLoop_ends h
  · exact execCmp_ends h
  · exact plog_ends h
  · exact plog_ends h
  · exact plog_ends h
  · exact plog_ends h
  · exact plog_ends h
  · exact plog_ends h
  · exact plog1_ends h
  · exact plog1_ends h
  · exact execTrap_ends h
  · exact execTretRetry_ends h
  · exact execTretNext_ends h
  · exact execBrk_ends h
  · exact execSpawn_ends h
  · exact execExit_ends h
  · exact execPark_ends h
  · exact execWake_ends h
  · exact execYield_ends h
  · exact execHop_ends h
  · exact execCbar_ends h
  · exact execGbar_ends h
  · exact execIbx_ends h
  · exact execIbs_ends h
  · exact execNtc_ends h
  · exact execFork_ends h
  · exact execRdv_ends h
  · exact execCpinOn_ends h
  · exact execCpinOff_ends h
  · exact execDrq_ends h
  · exact execJdr_ends h
  · exact intOp_ends h
  · exact intOp_ends h
  · exact intOp_ends h
  · exact intOp_ends h
  · exact divOp_ends h
  · exact divOp_ends h
  · exact bitOp_ends h
  · exact bitOp_ends h
  · exact bitOp_ends h
  · exact bitOp_ends h
  · exact intOp_ends h
  · exact intOp_ends h
  · exact shiftOp_ends h
  · exact shiftOp_ends h
  · exact shiftOp_ends h
  · exact shiftOp_ends h
  · exact unaryOp_ends h
  · exact unaryOp_ends h
  · exact unaryOp_ends h
  · exact unaryOp_ends h
  · exact execBext_ends h
  · exact execBins_ends h
  · exact execCvi_ends h
  · exact unaryOp_ends h
  · exact execMovl_ends h
  · exact execMvs_ends h
  · exact execMsv_ends h
  · exact leaOp_ends h
  · exact leaOp_ends h
  · exact execLeaGva_ends h
  · exact leaOp_ends h
  · exact execMad_ends h
  · exact fltOp_ends h
  · exact fltOp_ends h
  · exact fltOp_ends h
  · exact execFma_ends h
  · exact fltOp_ends h
  · exact fltUnary_ends h
  · exact fltOp_ends h
  · exact fltOp_ends h
  · exact execFcvt_ends h
  · exact execFcvti_ends h
  · exact execIcvtf_ends h
  · exact execFrnd_ends h
  · exact fltUnary_ends h
  · exact execLd_ends h
  · exact execSt_ends h
  · exact execLdc_ends h
  · exact execStp_ends h
  · exact execLfe_ends h
  · exact sfeTo_ends h
  · exact sfeTo_ends h
  · exact execLdm_ends h
  · exact execStm_ends h
  · exact execPfch_ends h
  · exact execSgp_ends h
  · exact execPgq_ends h
  · exact execDsc_ends h
  · exact amoOp_ends h
  · exact amoOp_ends h
  · exact amoOp_ends h
  · exact amoOp_ends h
  · exact amoOp_ends h
  · exact amoOp_ends h
  · exact amoOp_ends h
  · exact amoOp_ends h
  · exact amoOp_ends h
  · exact amoOp_ends h
  · exact amoOp_ends h
  · exact amoOp_ends h
  · exact execCas_ends h
  · exact execLda_ends h
  · exact execStl_ends h
  · exact execFence_ends h
  · exact wtwOp_ends h
  · exact wtwOp_ends h
  · exact execSopn_ends h
  · exact execScls_ends h
  · exact execSput_ends h
  · exact execDrn_ends h
  · exact execPprbTab_ends h
  · exact execPprbPing_ends h
  · exact streamOp_ends h
  · exact streamOp_ends h
  · exact streamOp_ends h
  · exact streamOp_ends h
  · exact streamOp_ends h
  · exact streamOp_ends h
  · exact streamOp_ends h
  · exact streamOp_ends h
  · exact streamOp_ends h
  · exact streamOp_ends h
  · exact streamOp_ends h
  · exact streamOp_ends h
  · exact streamOp_ends h
  · exact streamOp_ends h
  · exact streamOp_ends h
  · exact streamOp_ends h
  · exact streamOp_ends h
  · exact streamOp_ends h
  · exact streamOp_ends h
  · exact streamOp_ends h
  · exact streamOp_ends h
  · exact streamOp_ends h
  · exact streamOp_ends h
  · exact streamOp_ends h
  · exact streamOp_ends h
  · exact streamOp_ends h
  · exact streamOp_ends h
  · exact streamOp_ends h
  · exact grainOp_ends h
  · exact grainOp_ends h
  · exact grainOp_ends h
  · exact grainOp_ends h
  · exact execGhdr_ends h
  · exact gsetOp_ends h
  · exact gsetOp_ends h
  · exact gsetOp_ends h
  · exact grainOp_ends h
  · exact grainOp_ends h
  · exact execLse_ends h
  · exact execLsr_ends h
  · exact panOp_ends h
  · exact panOp_ends h
  · exact panOp_ends h
  · exact panOp_ends h
  · exact execCpy_ends h
  · exact execCpl_ends h
  · exact execRcfAll_ends h
  · exact execRcfOne_ends h
  · exact execCpstH_ends h
  · exact execCpstN_ends h
  · exact execCpxH_ends h
  · exact execCpxAll_ends h
  · exact fillOp_ends h
  · exact fillOp_ends h
  · exact fillOp_ends h
  · exact fillOp_ends h
  · exact bregOp_ends h
  · exact bregOp_ends h
  · exact ridOp_ends h
  · exact execBadd_ends h
  · exact execBrd_ends h
  · exact qryOp_ends h
  · exact qryOp_ends h
  · exact grpOp_ends h
  · exact grpOp_ends h
  · exact grpOp_ends h
  · exact ridOp_ends h
  · exact ridOp_ends h
  · exact execBstep_ends h
  · exact execSret_ends h
  · exact execTlbi_ends h
  · exact execTlbw_ends h
  · exact execCmapMap_ends h
  · exact execCmapDead_ends h
  · exact execCmapRd_ends h
  · exact execWkxPage_ends h
  · exact execWkxThr_ends h
  · exact execWkxEnd_ends h
  · exact execCxf_ends h
  · exact execPsw_ends h
  · exact execSrd_ends h
  · exact execSwr_ends h
  · exact execEvict_ends h
  · exact prh_ends h
  · exact prh_ends h
  · exact prh_ends h
  · exact execPgdFill_ends h
  · exact execPgdFail_ends h
  · exact execHaltCore_ends h
  · exact execHaltRun_ends h
  · exact execHaltPart_ends h
  · exact execHaltPrun_ends h
  · exact execQmap_ends h
  · exact execQunm_ends h
  · exact execQsw_ends h
  · exact execQlch_ends h
  · exact execQdlRd_ends h
  · exact execQdlAdd_ends h
  · exact execQdlStop_ends h
  · exact execQstSlot_ends h
  · exact execQstBell_ends h
  · exact execQstClr_ends h
  · exact execQstSkip_ends h
  · exact execQsigCtr_ends h
  · exact execQsigIrq_ends h
  · exact execLaunch_ends h
  · exact execSignal_ends h
  · exact execWait_ends h
  · exact execDeadline_ends h
  · exact execMark_ends h
  · exact execQueueFence_ends h
  · exact execQueueDispatch_ends h
  · exact execQueueUnblock_ends h
  · exact execDeadlineExpire_ends h
  · exact execDoorbellWrite_ends h
  · exact execBar2Write_ends h
  · exact execBar2Read_ends h
  · exact execMbell_ends h
  · exact execHostRegisterWrite_ends h
  · exact execFetchReady_ends h
  · exact execResultLand_ends h
  · exact execThreadBind_ends h
  · exact execLineFillDone_ends h
  · exact execQuantumEnd_ends h
  · exact execGroupAdmit_ends h
  · exact execDoneAddRetry_ends h
  · exact execHopArrive_ends h
  · exact execWakeReceive_ends h
  · exact execInboxEnqueue_ends h
  · exact execFlitArrive_ends h
  · exact execHomeRequestStart_ends h
  · exact execMissFill_ends h
  · exact execWaiterResend_ends h
  · exact execDraughtAck_ends h
  · exact execCeilRecover_ends h
  · exact execNakReceive_ends h
  · exact execStreamNak_ends h
  · exact execFlueArrive_ends h
  · exact execCollectorDeliver_ends h
  · exact execHeartbeat_ends h
  · exact execWakeArrive_ends h
  · exact execLinkFlitReceive_ends h
  · exact execLinkRetryReceive_ends h
  · exact execLaneFail_ends h
  · exact execLinkSilenceDown_ends h
  · exact execPeerPacketReceive_ends h
  · exact execPortTimeout_ends h
  · exact execRemoteWaitTimeout_ends h
  · exact execStreamStrip_ends h
  · exact execGrainBlock_ends h
  · exact execStreamCompletion_ends h
  · exact execLeaseGrant_ends h
  · exact execLeaseTermExpire_ends h
  · exact execLeaseIdleClose_ends h
  · exact execPanStart_ends h
  · exact execPanCommit_ends h
  · exact execPanCompletion_ends h
  · exact execRecordFill_ends h
  · exact execCopyStart_ends h
  · exact execCopyElement_ends h
  · exact execCopyHoldRetry_ends h
  · exact execCopyFlag_ends h
  · exact execCopyCompletion_ends h
  · exact execBrineSweepStep_ends h
  · exact execBrineHalfArrive_ends h
  · exact execBrineAnswer_ends h
  · exact execBrineSlotTimeout_ends h
  · exact execBrineRecallReceive_ends h
  · exact execBrineRecallAnswer_ends h
  · exact execBrineProposeReceive_ends h
  · exact execBrineStateReceive_ends h
  · exact execBrineProposeResend_ends h
  · exact execBrineHoldRetry_ends h
  · exact execTableBaseWrite_ends h
  · exact execMboxRead_ends h
  · exact execCmpartWrite_ends h
  · exact execIbxszWrite_ends h
  · exact execRfpwrWrite_ends h
  · exact execKlsWrite_ends h
  · exact execMrxWrite_ends h
  · exact execAttsWrite_ends h
  · exact execAttestDone_ends h
  · exact execDeviceReset_ends
  · exact execClusterReady_ends h
  · exact execDramTrainDone_ends h
  · exact execDramTrainFail_ends h
  · exact execThermalFatal_ends h
  · exact execClockAdjust_ends h
  · exact execUnitGate_ends h
  · exact execI3cEntdaa_ends h
  · exact execI3cSetdasa_ends h
  · exact execI3cPrivateRead_ends h
  · exact execI3cPrivateWrite_ends h
  · exact execWriteBack_ends h
  · exact execSkippedTurn_ends h
  · exact execBankWake_ends h
  · exact execSegmentSetFill_ends h
  · exact execRouterCycle_ends h
  · exact execLinkTrain_ends h
  · exact execPcieCompletion_ends h

/-! ### What Fetch.lean keeps -/

theorem State.fetchHome_inv {ea x2 home paged leaf n} (h : s.Inv) : (s.fetchHome ea x2 home paged leaf n).Inv := by
  unfold State.fetchHome
  split
  · exact .stop .lend
  dsimp only
  split
  · exact .stop .lend
  split
  · split
    · exact .stop .trap
    · exact .got (State.ackTo_inv (State.noteRead_inv (State.performPrior_inv h)))
  split
  · rename_i e1
    split
    · exact .stop .trap
    · exact .got (State.ackTo_inv (State.noteRead_inv (InvOk.of_ok e1
        (State.takeDraught_inv (State.performPrior_inv h)))))
  · exact .stop .park

theorem State.fetchPart_inv {ea g n} (h : s.Inv) : (s.fetchPart ea g n).Inv := by
  unfold State.fetchPart
  split
  · exact .stop (pageFails_inv h)
  · rename_i e2
    exact .stop (walkWait_inv (Found.Inv.of_miss e2 (State.locate_inv h)))
  · exact .stop .trap
  rename_i e4
  have h1 := Found.Inv.of_loc e4 (State.locate_inv h)
  split
  · exact .got h1
  split
  · exact State.fetchHome_inv h1
  · exact .got h1
  · exact .stop (.stay (State.awaitReply_inv (State.sendPeer_inv h1)))
  · exact .stop (.stay (State.awaitReply_inv (State.hostRead_inv h1)))

theorem State.fetchParts_inv {ea l x3 x4 x5} (h : s.Inv) : (State.fetchParts ea l x3 x4 x5 s).Inv := by
  induction l generalizing ea x3 x4 x5 s with
  | nil =>
    rw [State.fetchParts]
    exact .got h
  | cons y l ih =>
    rw [State.fetchParts]
    split
    · rename_i e1
      exact ih (FetchPart.Inv.of_got e1 (State.fetchPart_inv h))
    · rename_i e2
      exact .stop (FetchPart.Inv.of_stop e2 (State.fetchPart_inv h))

theorem State.fetch_inv (h : s.Inv) : s.fetch.Inv := by
  unfold State.fetch
  split
  · exact .stop (.again h)
  split
  · exact .got h
  split
  · exact .stop .trap
  split
  · exact .stop (.again h)
  dsimp only
  split
  · exact .stop .trap
  split
  · exact .stop .trap
  split
  · rename_i e1
    exact .stop (.again (State.mapThr_inv (State.mapRes_inv (FetchPart.Inv.of_got e1 (State.fetchParts_inv h)))))
  · exact State.fetchParts_inv h

theorem raiseReject_inv {w r} : (raiseReject w r).Inv := by
  unfold raiseReject
  dsimp only
  split <;> exact .trap

/-! ### What Own.lean keeps -/

/-- A move keeps the invariant: from every state that meets it, the move ends in a next state that does. -/
def KeepsInv (m : Move) : Prop := ∀ t : State, t.Inv → Ends (m t)

/-- Every move of a list keeps the invariant. -/
def AllKeepInv (l : List Move) : Prop := ∀ m ∈ l, KeepsInv m

theorem AllKeepInv.nil : AllKeepInv [] := fun _ hm => nomatch hm

theorem AllKeepInv.one {m : Move} (hm : KeepsInv m) : AllKeepInv [m] := fun _ h => List.mem_singleton.mp h ▸ hm

theorem AllKeepInv.append {l l' : List Move} (h : AllKeepInv l) (h' : AllKeepInv l') : AllKeepInv (l ++ l') :=
  fun m hm => (List.mem_append.mp hm).elim (h m) (h' m)

theorem AllKeepInv.ite {c : Prop} {_ : Decidable c} {l l' : List Move} (h : AllKeepInv l) (h' : AllKeepInv l') :
    AllKeepInv (if c then l else l') := by
  split
  · exact h
  · exact h'

theorem AllKeepInv.map {α : Type} {f : α → Move} {l : List α} (h : ∀ a, KeepsInv (f a)) : AllKeepInv (l.map f) := by
  intro m hm
  obtain ⟨a, -, rfl⟩ := List.mem_map.mp hm
  exact h a

theorem AllKeepInv.flatten_map {α : Type} {f : α → List Move} {l : List α} (h : ∀ a, AllKeepInv (f a)) :
    AllKeepInv (l.map f).flatten := by
  intro m hm
  obtain ⟨_, hl, hm⟩ := List.mem_flatten.mp hm
  obtain ⟨a, -, rfl⟩ := List.mem_map.mp hl
  exact h a m hm

theorem AllKeepInv.flatMap {α : Type} {f : α → List Move} {l : List α} (h : ∀ a, AllKeepInv (f a)) :
    AllKeepInv (l.flatMap f) := AllKeepInv.flatten_map h

theorem AllKeepInv.whenDue {b : Bool} {m : Move} (hm : KeepsInv m) : AllKeepInv (whenDue b m) := .ite (.one hm) .nil

theorem AllKeepInv.eachOf {α : Type} {l : List α} {m : Nat → Move} (hm : ∀ n, KeepsInv (m n)) :
    AllKeepInv (eachOf l m) :=
  .map hm

theorem State.threadMoves_keepInv {t : Thread} : AllKeepInv (s.threadMoves t) := by
  unfold State.threadMoves
  split
  · exact .one fun _ => execFetchReady_ends
  · exact .one fun _ => execSegmentSetFill_ends
  · exact .one fun _ => execLineFillDone_ends
  · exact .one fun _ => execBankWake_ends
  · exact .whenDue fun _ => execMboxRead_ends
  · exact .whenDue fun _ => execRecordFill_ends
  · exact .one fun _ => execClusterReady_ends
  · exact .one fun _ => execDramTrainDone_ends
  · exact .whenDue fun _ => execCeilRecover_ends
  · split
    · exact .append (.whenDue fun _ => execSkippedTurn_ends) (.whenDue fun _ => execQuantumEnd_ends)
    · exact .nil
  · exact .nil

theorem State.copyMoves_keepInv {n : Nat} {c : CopySlot} : AllKeepInv (s.copyMoves n c) := by
  unfold State.copyMoves
  split
  · exact .one fun _ => execCopyStart_ends
  · exact .one fun _ => execCopyElement_ends
  · exact .whenDue fun _ => execCopyFlag_ends
  · exact .whenDue fun _ => execCopyCompletion_ends
  · exact .whenDue fun _ => execCopyHoldRetry_ends
  · exact .nil

theorem State.coreMoves_keepInv {n : Nat} : AllKeepInv (s.coreMoves n) :=
  .append (.whenDue fun _ => execThreadBind_ends) (.flatten_map fun _ => State.copyMoves_keepInv)

theorem State.clusterMoves_keepInv {k : Nat} : AllKeepInv (s.clusterMoves k) := by
  unfold State.clusterMoves
  refine .append ?_ (.whenDue fun _ => execBrineHoldRetry_ends)
  refine .append ?_ (.map fun _ _ => execBrineSlotTimeout_ends)
  refine .append ?_ (.whenDue fun _ => execGroupAdmit_ends)
  refine .append ?_ (.whenDue fun _ => execPanCompletion_ends)
  refine .append ?_ (.whenDue fun _ => execPanCommit_ends)
  refine .append ?_ (.whenDue fun _ => execPanStart_ends)
  refine .append ?_ (.whenDue fun _ => execLeaseIdleClose_ends)
  refine .append ?_ (.whenDue fun _ => execLeaseTermExpire_ends)
  refine .append ?_ (.whenDue fun _ => execLeaseGrant_ends)
  refine .append ?_ (.whenDue fun _ => execStreamCompletion_ends)
  split
  · exact .ite (.one fun _ => execStreamStrip_ends) (.one fun _ => execGrainBlock_ends)
  · exact .nil

theorem State.slotMoves_keepInv {die : Nat} {q : QSlot} : AllKeepInv (s.slotMoves die q) := by
  refine .append ?_ (.whenDue fun _ => execDeadlineExpire_ends)
  split
  · refine .ite .nil ?_
    split
    · exact .one fun _ => execLaunch_ends
    · exact .one fun _ => execSignal_ends
    · exact .one fun _ => execWait_ends
    · exact .one fun _ => execDeadline_ends
    · exact .one fun _ => execMark_ends
    · exact .one fun _ => execQueueFence_ends
    · exact .nil
  · exact .one fun _ => execQueueUnblock_ends
  · exact .nil

theorem State.dieMoves_keepInv {die : Nat} : AllKeepInv (s.dieMoves die) := by
  unfold State.dieMoves
  refine .append (.append (.append ?_ ?_) ?_) ?_
  · exact .whenDue fun _ => execQueueDispatch_ends
  · exact .whenDue fun _ => execHeartbeat_ends
  · exact .flatten_map fun _ => State.slotMoves_keepInv
  · exact .flatten_map fun _ => .whenDue fun _ => execCollectorDeliver_ends

theorem State.writeMoves_keepInv {w : SysWrite} : AllKeepInv (s.writeMoves w) := by
  unfold State.writeMoves
  refine .ite (.one fun _ => execTableBaseWrite_ends) ?_
  refine .ite (.one fun _ => execRfpwrWrite_ends) ?_
  refine .ite (.one fun _ => execCmpartWrite_ends) ?_
  refine .ite (.one fun _ => execIbxszWrite_ends) ?_
  refine .ite (.one fun _ => execMrxWrite_ends) ?_
  exact .ite (.one fun _ => execAttsWrite_ends) (.one fun _ => execKlsWrite_ends)

theorem State.flightMoves_keepInv : AllKeepInv s.flightMoves := by
  refine .append (.flatten_map fun _ => ?_) (.flatMap fun _ => ?_)
  · split
    · exact .nil
    · refine .ite (.one fun _ => execStreamNak_ends) (.ite ?_ ?_)
      · exact .whenDue fun _ => execRouterCycle_ends
      · exact .whenDue fun _ => execHomeRequestStart_ends
  · split
    · exact .append (.whenDue fun _ => execRouterCycle_ends) (.whenDue fun _ => execHomeRequestStart_ends)
    · exact .nil

theorem State.waiterMoves_keepInv : AllKeepInv s.waiterMoves := by
  refine .flatten_map fun _ => ?_
  split
  · exact .nil
  · exact .append (.whenDue fun _ => execWaiterResend_ends) (.whenDue fun _ => execRemoteWaitTimeout_ends)

theorem State.portMoves_keepInv : AllKeepInv s.portMoves := by
  refine .flatten_map fun _ => ?_
  split
  · exact .whenDue fun _ => execPortTimeout_ends
  · exact .nil

/-- Whatever is pending keeps the invariant, piece by piece from the last of the list. -/
theorem State.moves_keepInv : AllKeepInv s.moves := by
  unfold State.moves
  refine .append ?_ (.whenDue fun _ => execAttestDone_ends)
  refine .append ?_ (.flatten_map fun _ => .whenDue fun _ => execDoneAddRetry_ends)
  refine .append ?_ (.flatten_map fun _ => .whenDue fun _ => execBrineSweepStep_ends)
  refine .append ?_ (.map fun _ _ => execBrineProposeResend_ends)
  refine .append ?_ (.eachOf fun _ _ => execBrineStateReceive_ends)
  refine .append ?_ (.eachOf fun _ _ => execBrineProposeReceive_ends)
  refine .append ?_ (.flatten_map fun _ => .whenDue fun _ => execBrineRecallAnswer_ends)
  refine .append ?_ (.eachOf fun _ _ => execBrineAnswer_ends)
  refine .append ?_ (.eachOf fun _ _ => execBrineRecallReceive_ends)
  refine .append ?_ (.eachOf fun _ _ => execBrineHalfArrive_ends)
  refine .append ?_ (.flatten_map fun _ => .whenDue fun _ => execFlueArrive_ends)
  refine .append ?_ (.flatten_map fun _ => .ite .nil (.one fun _ => execRouterCycle_ends))
  refine .append ?_ (.eachOf fun _ _ => execInboxEnqueue_ends)
  refine .append ?_ (.eachOf fun _ _ => execWakeArrive_ends)
  refine .append ?_ (.eachOf fun _ _ => execWakeReceive_ends)
  refine .append ?_ (.eachOf fun _ _ => execHopArrive_ends)
  refine .append ?_ (.eachOf fun _ _ => execNakReceive_ends)
  refine .append ?_ (.eachOf fun _ _ => execDraughtAck_ends)
  refine .append ?_ (.eachOf fun _ _ => execResultLand_ends)
  refine .append (.append ?_ State.waiterMoves_keepInv) State.portMoves_keepInv
  refine .append ?_ (.flatten_map fun _ => .whenDue fun _ => execFlitArrive_ends)
  refine .append ?_ (.flatten_map fun _ => .ite .nil (.one fun _ => execRouterCycle_ends))
  refine .append (.append ?_ (.flatten_map fun _ => State.writeMoves_keepInv)) State.flightMoves_keepInv
  refine .append (.append ?_ (.flatten_map fun _ => State.clusterMoves_keepInv))
    (.flatten_map fun _ => State.dieMoves_keepInv)
  exact .append (.flatten_map fun _ => State.threadMoves_keepInv) (.flatten_map fun _ => State.coreMoves_keepInv)

theorem ownStep_ends (h : s.Inv) : Ends (ownStep s) := by
  unfold ownStep
  dsimp only
  split
  · rename_i m e
    exact State.moves_keepInv m (List.mem_of_getElem? e) _ h
  · exact .next h

/-! ### What Step.lean keeps -/

theorem runThread_ends {gap} (h : s.Inv) : Ends (runThread gap s) := by
  unfold runThread
  split
  · rename_i e1
    exact .next (Eff.finish_inv (State.takeTurn_inv h)
      (FetchPart.Inv.of_stop e1 (State.fetch_inv (State.takeTurn_inv h))))
  rename_i e2
  have h1 := FetchPart.Inv.of_got e2 (State.fetch_inv (State.takeTurn_inv h))
  split
  · exact .next h1
  split
  · exact exec_ends h1
  · exact .next (Eff.finish_inv h1 raiseReject_inv)

theorem runAny_ends (h : s.Inv) : Ends (runAny s) := by
  unfold runAny
  split
  · exact runThread_ends h
  split
  · exact runThread_ends (State.switchTo_inv h)
  · exact ownStep_ends h

theorem runDefault_ends (h : s.Inv) : Ends (runDefault s) := by
  unfold runDefault
  dsimp only
  split
  · split
    · exact runAny_ends h
    · exact ownStep_ends h
  split
  · exact runAny_ends (State.ite_inv (State.switchTo_inv h) h)
  · exact runAny_ends h

theorem runTurn_ends {t} (h : s.Inv) : Ends (runTurn t s) := by
  unfold runTurn
  split
  · split
    · exact .next h
    · exact exec_ends h
  split
  · exact runThread_ends h
  · exact .next h

theorem State.meet_inv {g} (h : s.Inv) : (s.meet g).Inv := by
  unfold State.meet
  split
  · exact h
  · exact State.glitch_inv h

/-- So does a step, whether the agenda names it or the machine takes it by itself. -/
theorem step_ends (h : s.Inv) : Ends (step s) := by
  unfold step
  split
  · exact afterStep_ends (runDefault_ends (State.pass_inv h))
  · exact afterStep_ends (runTurn_ends (State.select_inv (State.meet_inv (State.launch_inv (State.pass_inv h)))))

theorem Ends.exists_next {o : Host.Outcome State Fault Refusal} (h : Ends o) : ∃ u, o = .next u ∧ u.Inv := by
  cases h with
  | next hu => exact ⟨_, rfl, hu⟩

/-- Settles O60: memory changes only where a step writes bytes, drops the entries of a range, or resets
the device, and each of these leaves it in canonical form. -/
theorem everyStepKeepsTheInvariant : Obligations.EveryStepKeepsTheInvariant := by
  unfold Obligations.EveryStepKeepsTheInvariant
  intro s h
  exact ⟨fun i => (exec_ends h).exists_next, (step_ends h).exists_next⟩

end Sys2Proof.Machine
end

section
/-! The machine right after reset: nothing listed, every unit at its initial value (R145, R146, R415). -/

namespace Sys2Proof.Machine

theorem State.reset_core (n : Nat) : State.reset.core n = {} := rfl

theorem State.reset_die (d : Nat) : State.reset.die d = {} := rfl

theorem State.reset_port (p : Nat) : State.reset.port p = {} := rfl

/-- No inbox of a core after reset holds an entry (R90). -/
theorem CoreSt.ibCount_init (c : Nat) : ({} : CoreSt).ibCount c = 0 :=
  congrArg Prod.snd (List.getD_eq_getElem?_getD.trans (List.getElem?_getD_replicate_default_eq (0, 0) 8 c))

/-- No measurement register of a die after reset has been extended (R421). -/
theorem DieSt.mr_init (m : Nat) : ({} : DieSt).mr.getD m 0#256 = 0#256 :=
  List.getD_eq_getElem?_getD.trans (List.getElem?_getD_replicate_default_eq 0#256 4 m)

/-- Settles O58: the state after reset lists nothing, so that every unit reads as its initial value. -/
theorem stateAfterReset : Obligations.StateAfterReset := by
  unfold Obligations.StateAfterReset
  refine ⟨rfl, rfl, fun _ => rfl, fun _ => rfl, rfl, fun _ => rfl, fun n => ?_, fun _ => rfl, fun d => ?_, fun p => ?_,
    by decide, rfl, rfl, rfl, rfl, rfl⟩
  · rw [State.reset_core]
    exact ⟨rfl, rfl, rfl, CoreSt.ibCount_init, rfl⟩
  · rw [State.reset_die]
    exact ⟨rfl, DieSt.mr_init⟩
  · rw [State.reset_port]
    decide

end Sys2Proof.Machine
end

section
/-! ### The clock that a core reads, through what a fetch performs on its way (R20, R24)

A fetch first performs the packets of its core that stand before it, and with them what they wake. None of that moves a core, sets a
clock, or puts another core's thread into the issue stage. -/

namespace Sys2Proof.Machine

/-- What the count that the issuing thread reads is made of (R20): its core, the core map and the clock of each die. -/
def State.clock (s : State) : Nat × List (Nat × (MapState × Nat × Nat)) × (Nat → Word) :=
  (s.thr.core, s.coreMap, fun d => (s.die d).cyc)

/-- The count of the die that the issuing thread runs on is read off the clock. -/
theorem State.now_of_clock {s t : State} (h : t.clock = s.clock) : t.now t.thr.core = s.now s.thr.core := by
  simp only [State.clock, Prod.mk.injEq] at h
  obtain ⟨core, coreMap, cyc⟩ := h
  simp only [State.now, State.coreDie, State.pos, State.mapEntry, core, coreMap]
  exact congrFun cyc _

theorem State.ite_clock {c : Prop} {_ : Decidable c} {s t u : State} (hs : s.clock = u.clock) (ht : t.clock = u.clock) :
    (if c then s else t).clock = u.clock := by
  split
  · exact hs
  · exact ht

theorem State.foldl_clock {α : Type} {f : State → α → State} (hf : ∀ s a, (f s a).clock = s.clock) (l : List α) (s : State) :
    (l.foldl f s).clock = s.clock := by
  induction l generalizing s with
  | nil => rfl
  | cons a l ih => rw [List.foldl_cons, ih, hf]

/-! Changes of a thread's image (R80) -/

theorem Thread.isAt_core {core : Nat} {cxa : Word} {t : Thread} (h : t.isAt core cxa = true) : t.core = core := by
  simp only [Thread.isAt, Bool.and_eq_true, beq_iff_eq] at h
  exact h.1.1

/-- The thread that a result is owed to is one of the core named. -/
theorem State.findOwed_core {s : State} {core : Nat} {cxa : Word} {t : Thread} (h : s.findOwed core cxa = some t) :
    t.core = core := by
  unfold State.findOwed at h
  split at h
  · rename_i u e
    cases h
    exact Thread.isAt_core (List.find?_some e)
  · exact Thread.isAt_core (List.find?_some h)

theorem State.updThr_clock {core : Nat} {cxa : Word} {f : Thread → Thread}
    (hf : ∀ t : Thread, t.core = core → (f t).core = core) (s : State) : (s.updThr core cxa f).clock = s.clock := by
  unfold State.updThr
  split
  · rename_i h
    have e : (f s.thr).core = s.thr.core := (hf _ (Thread.isAt_core h)).trans (Thread.isAt_core h).symm
    exact congrArg (·, s.coreMap, fun d => (s.die d).cyc) e
  · exact State.ite_clock rfl rfl

@[simp] theorem State.reachRecord_clock (core : Nat) (task : BitVec 16) (cxa : Word) (w : Bool) (s : State) :
    (s.reachRecord core task cxa w).clock = s.clock := by
  unfold State.reachRecord
  dsimp only
  split
  · exact State.ite_clock rfl (State.ite_clock rfl rfl)
  · rfl

theorem State.loadRecord_core (a : Nat) (t : Thread) (s : State) : (s.loadRecord a t).core = t.core := by
  rw [State.loadRecord]

theorem State.saveRecord_clock (a : Nat) (t : Thread) (s : State) : (s.saveRecord a t).clock = s.clock := rfl

theorem State.updImage_clock {core : Nat} {cxa : Word} {f : Thread → Thread} (hf : ∀ t, (f t).core = t.core) (s : State) :
    (s.updImage core cxa f).clock = s.clock := by
  unfold State.updImage
  split
  · rfl
  rename_i t e
  have reached : ∀ b : Bool, (if b then s.reachRecord core (t.ctx.st.extractLsb' 16 16) cxa true else s).clock = s.clock :=
    fun b => State.ite_clock (by simp) rfl
  dsimp only
  split
  · rw [State.updThr_clock fun t h => (hf t).trans h, reached]
  · rw [State.saveRecord_clock]
    refine (State.updThr_clock (fun _ _ => ?_) _).trans (reached _)
    rw [hf, State.loadRecord_core]
    exact State.findOwed_core e

@[simp] theorem State.storeDone_clock (core : Nat) (cxa : Word) (s : State) : (s.storeDone core cxa).clock = s.clock :=
  State.updImage_clock (by intro; rfl) s

/-! What a home does (R152, R186, R195, R387) -/

theorem State.ackTo_only (src home : Nat) (s : State) : ∃ l, s.ackTo src home = { s with acks := l } := by
  unfold State.ackTo State.ackWith
  split <;> exact ⟨_, rfl⟩

@[simp] theorem State.ackTo_clock (src home : Nat) (s : State) : (s.ackTo src home).clock = s.clock := by
  obtain ⟨l, e⟩ := State.ackTo_only src home s
  rw [e]; rfl

@[simp] theorem State.emit_clock (t : HostTx) (s : State) : (s.emit t).clock = s.clock := by
  rw [State.emit_only]; rfl

@[simp] theorem State.msixDo_clock (v : Nat) (s : State) : (s.msixDo v).clock = s.clock :=
  State.ite_clock rfl (State.emit_clock _ _)

theorem State.sendPkt_clock (port : Nat) (core : Option Nat) (p : Pkt) (s : State) :
    (s.sendPkt port core p).clock = s.clock := rfl

@[simp] theorem State.nakPeer_clock (pkt : List Byte) (reason : BitVec 8) (s : State) :
    (s.nakPeer pkt reason).clock = s.clock := by
  unfold State.nakPeer
  dsimp only
  split
  · rfl
  · exact State.foldl_clock (fun _ _ => State.sendPkt_clock _ _ _ _) _ _

@[simp] theorem Waiter.reply_clock (w : Waiter) (v : Word) (s : State) : (w.reply v s).clock = s.clock := by
  unfold Waiter.reply
  split
  · rfl
  · exact State.ite_clock (by simp) (State.ackTo_clock _ _ _)

@[simp] theorem Waiter.nak_clock (w : Waiter) (reason : BitVec 8) (s : State) : (w.nak reason s).clock = s.clock := by
  unfold Waiter.nak
  split
  · simp
  · exact State.ackTo_clock _ _ _

@[simp] theorem Waiter.perform_clock (w : Waiter) (s : State) : (w.perform s).clock = s.clock := by
  unfold Waiter.perform
  dsimp only
  split
  · simp
  split
  · exact Waiter.reply_clock _ _ _
  · exact (Waiter.reply_clock _ _ _).trans (State.ite_clock rfl rfl)
  · simp
  · simp
  · rfl

@[simp] theorem State.serveWord_clock (word fuel : Nat) (s : State) : (State.serveWord word fuel s).clock = s.clock := by
  induction fuel generalizing s with
  | zero => rfl
  | succ n ih =>
    rw [State.serveWord]
    split
    · rfl
    · rw [ih, Waiter.perform_clock]; rfl

/-- A change of each value is a change of the value that a key has. -/
theorem look_map {α β : Type} [DecidableEq α] (f : α × β → β) (k : α) (l : List (α × β)) :
    look k (l.map fun p => (p.1, f p)) = (look k l).map fun v => f (k, v) := by
  induction l with
  | nil => rfl
  | cons p l ih =>
    obtain ⟨j, v⟩ := p
    by_cases h : j = k
    · subst h; simp [look]
    · simp [look, h, ih]

/-- Examining deadlines and WAIT entries leaves every clock alone. -/
@[simp] theorem State.meetDeadlines_clock (word : Nat) (s : State) : (s.meetDeadlines word).clock = s.clock := by
  have cyc : ∀ d, ((s.meetDeadlines word).die d).cyc = (s.die d).cyc := by
    intro d
    unfold State.meetDeadlines State.die
    dsimp only
    rw [look_map]
    cases look d s.dies <;> rfl
  exact congrArg (s.thr.core, s.coreMap, ·) (funext cyc)

@[simp] theorem State.afterWrite_clock (a n : Nat) (s : State) : (s.afterWrite a n).clock = s.clock := by
  have met : (if s.anyDeadline then (wordsOf a n).foldl (fun s w => s.meetDeadlines w) s else s).clock = s.clock :=
    State.ite_clock (State.foldl_clock (fun s w => s.meetDeadlines_clock w) _ s) rfl
  exact State.ite_clock met ((State.foldl_clock (fun s w => State.serveWord_clock w _ s) _ _).trans met)

@[simp] theorem State.homeWrite_clock (a : Nat) (bs : List Byte) (s : State) : (s.homeWrite a bs).clock = s.clock :=
  State.afterWrite_clock _ _ _

@[simp] theorem State.homeSetFull_clock (a : Nat) (f : Bool) (s : State) : (s.homeSetFull a f).clock = s.clock :=
  State.afterWrite_clock _ _ _

@[simp] theorem State.nakReq_clock (r : Req) (reason : BitVec 8) (s : State) : (s.nakReq r reason).clock = s.clock :=
  State.ackTo_clock _ _ _

theorem State.performReq_clock (r : Req) (s : State) : (s.performReq r).clock = s.clock := by
  have fin : ∀ t : State, ((if r.counted then t.storeDone r.src r.cxa else t).ackTo r.src r.home).clock = t.clock := fun t =>
    (State.ackTo_clock _ _ _).trans (State.ite_clock (by simp) rfl)
  have touched : (if r.paged then s.touchL2 r.home r.addr r.pol true else s).clock = s.clock := State.ite_clock rfl rfl
  unfold State.performReq
  split
  · simp
  split
  · simp
  dsimp only
  split
  · refine State.ite_clock ?_ ?_
    · rw [fin, State.emit_clock, touched]
    · rw [fin, State.homeWrite_clock]
      exact State.ite_clock touched touched
  · rw [fin, State.homeSetFull_clock, touched]
  · rw [fin, State.msixDo_clock, touched]
  · rw [fin]
    exact touched
  · refine State.ite_clock touched ?_
    rw [fin, State.homeWrite_clock, touched]

theorem State.performAll_clock (l : List Req) (s : State) : (State.performAll l s).clock = s.clock := by
  induction l generalizing s with
  | nil => rfl
  | cons r l ih =>
    rw [State.performAll, ih]
    exact State.ite_clock rfl (State.performReq_clock _ _)

@[simp] theorem State.performPrior_clock (core home : Nat) (s : State) : (s.performPrior core home).clock = s.clock :=
  State.ite_clock ((State.performAll_clock _ _).trans (State.ite_clock rfl rfl)) rfl

/-- What a home and the requester's near cache keep of a read changes cores alone. -/
theorem State.noteRead_only (near : Option Bool) (cp : BitVec 2) (a home : Nat) (paged : Bool) (leaf : Word) (s : State) :
    ∃ l, s.noteRead near cp a home paged leaf = { s with cores := l } := by
  unfold State.noteRead
  split
  · exact ⟨_, rfl⟩
  dsimp only
  split
  · split <;> exact ⟨_, rfl⟩
  · exact ⟨_, rfl⟩

@[simp] theorem State.noteRead_clock (near : Option Bool) (cp : BitVec 2) (a home : Nat) (paged : Bool) (leaf : Word) (s : State) :
    (s.noteRead near cp a home paged leaf).clock = s.clock := by
  obtain ⟨l, e⟩ := s.noteRead_only near cp a home paged leaf
  rw [e]; rfl

/-- A charged packet leaves a smaller allowance, and nothing else (R87, R194). -/
theorem CoreSt.charge_only {dn : Nat} {c d : CoreSt} (h : c.charge dn = some d) : d = { c with draught := d.draught } := by
  unfold CoreSt.charge at h
  split at h
  · split at h <;> cases h; rfl
  · split at h
    · cases h; rfl
    · split at h <;> cases h; rfl

/-- A charge changes the draught of the issuing thread's core, and nothing else. -/
theorem State.takeDraught_only {dn : Nat} {s t : State} (h : s.takeDraught dn = .ok t) :
    ∃ l, t = s.setCore s.thr.core fun c => { c with draught := l } := by
  unfold State.takeDraught at h
  dsimp only at h
  obtain ⟨-, h⟩ | ⟨-, h⟩ := ite_eq_iff.1 h
  · split at h
    · rename_i d e
      cases h
      exact ⟨d.draught, by rw [State.setCore, ← CoreSt.charge_only e]⟩
    · cases h
  · cases h

/-- Finding a place caches home masks and peer entries alone (R361). -/
theorem State.locate_only {s t : State} {who : Who} {nd : Need} {g n : Nat} {l : Loc} (h : s.locate who nd g n = .loc l t) :
    ∃ masks peers1 peers2, t = { s with masks := masks, peers1 := peers1, peers2 := peers2 } := by
  unfold State.locate at h
  split at h
  · cases h
  · cases h; exact ⟨_, _, _, rfl⟩
  · cases h; exact ⟨_, _, _, rfl⟩
  · dsimp only at h
    split at h
    · cases h
    split at h
    · cases h
    split at h
    · cases h
    · cases h; exact ⟨_, _, _, rfl⟩
  split at h
  · cases h
  · cases h
  split at h
  · cases h
  split at h
  · cases h; exact ⟨_, _, _, rfl⟩
  · cases h
    unfold State.noteMask
    dsimp only
    split <;> exact ⟨_, _, _, rfl⟩

/-! ### The fetch of a part of a word -/

/-- A part of a word that a home serves comes with the clock it was asked at. -/
theorem State.fetchHome_clock {s t : State} {ea : Word} {a home n : Nat} {paged far : Bool} {leaf : Word} {bs : List Byte}
    (h : s.fetchHome ea a home paged leaf n = .got bs far t) : t.clock = s.clock := by
  unfold State.fetchHome at h
  split at h
  · cases h
  dsimp only at h
  split at h
  · cases h
  split at h
  · split at h <;> cases h
    simp
  · split at h
    · rename_i s2 e
      obtain ⟨l, rfl⟩ := State.takeDraught_only e
      split at h <;> cases h
      rw [State.ackTo_clock, State.noteRead_clock]
      exact State.performPrior_clock _ _ s
    · cases h

theorem State.fetchPart_clock {s t : State} {ea : Word} {g n : Nat} {far : Bool} {bs : List Byte}
    (h : s.fetchPart ea g n = .got bs far t) : t.clock = s.clock := by
  unfold State.fetchPart at h
  split at h
  · cases h
  · cases h
  · cases h
  · rename_i l u e
    have placed : u.clock = s.clock := by
      obtain ⟨masks, peers1, peers2, rfl⟩ := State.locate_only e
      rfl
    rw [← placed]
    split at h
    · cases h; rfl
    split at h
    · exact State.fetchHome_clock h
    · cases h; rfl
    · cases h
    · cases h

/-! ### A home that is open to the issuing thread (R153, R167, R193, R417) -/

/-- What an open home says, clause by clause. -/
theorem State.homeOpen_cases {s : State} {a home : Nat} (h : s.homeOpen a home = true) :
    (∀ r ∈ s.flight, r.src = s.thr.core → r.home ≠ home) ∧ s.orderBusy s.thr.core s.thr.ctx.cxa home = false ∧
      s.chanWaits a = false ∧ s.homeDead home = false ∧ s.canCharge home = true := by
  simp only [State.homeOpen, Bool.and_eq_true, Bool.not_eq_true'] at h
  obtain ⟨⟨⟨⟨noneSent, order⟩, ready⟩, live⟩, charge⟩ := h
  refine ⟨fun r hr hs hh => ?_, order, ready, live, charge⟩
  simpa [hs, hh] using List.any_eq_false.1 noneSent r hr

/-- Nothing stands before a fetch at an open home: every packet and every waiting access that could is one that stands before any
access of the thread there. -/
theorem State.fetchBusy_of_homeOpen {s : State} {a home : Nat} (n : Nat) (h : s.homeOpen a home = true) :
    s.fetchBusy s.thr.core s.thr.ctx.cxa home a n = false := by
  obtain ⟨noneSent, order, -⟩ := State.homeOpen_cases h
  simp only [State.orderBusy, Bool.or_eq_false_iff, List.any_eq_false, Bool.and_eq_true, beq_iff_eq, Bool.or_eq_true] at order
  obtain ⟨⟨⟨-, noMail⟩, noneWaits⟩, -⟩ := order
  rw [State.fetchBusy, noMail, Bool.or_false, Bool.or_eq_false_iff]
  constructor
  · rw [List.any_eq_false]
    intro r hr hb
    simp only [Bool.and_eq_true, beq_iff_eq] at hb
    exact noneSent r hr hb.1.1 hb.1.2
  · rw [Option.any_eq_false]
    intro t _
    simp only [Bool.or_eq_false_iff, List.any_eq_false, Bool.and_eq_true, beq_iff_eq]
    constructor
    · rintro w hw ⟨⟨⟨posted, here⟩, home⟩, ⟨⟨⟨src, cxa⟩, -⟩, -⟩, -⟩
      exact noneWaits w hw ⟨⟨⟨⟨posted, here⟩, src⟩, cxa⟩, .inl home⟩
    · rintro r hr ⟨⟨home, -⟩, ⟨⟨⟨src, -⟩, -⟩, -⟩, -⟩
      exact noneSent r hr src home

/-- A core's own earlier packets to an open home have all been performed. -/
theorem State.performPrior_of_homeOpen {s : State} {a home : Nat} (h : s.homeOpen a home = true) :
    s.performPrior s.thr.core home = s := by
  have noneSent := (State.homeOpen_cases h).1
  rw [State.performPrior, if_neg]
  rw [List.any_eq_true]
  rintro ⟨r, hr, hb⟩
  simp only [Bool.and_eq_true, beq_iff_eq] at hb
  exact noneSent r hr hb.1 hb.2

/-- A charge does not change whether a home is dead. -/
theorem State.homeDead_setCore_draught (core home : Nat) (l : List DEntry) (s : State) :
    (s.setCore core fun c => { c with draught := l }).homeDead home = s.homeDead home := by
  unfold State.homeDead
  by_cases e : home = core
  · subst e; rw [State.core_setCore]; rfl
  · rw [State.core_setCore_other _ _ _ _ e]; rfl

/-- A read of what is not poisoned, at a home that is not dead, is not turned away (R157, R193). -/
theorem State.readBad_eq_none {s : State} {a home n : Nat} (live : s.homeDead home = false) (hp : s.poisoned a n = false) :
    s.readBad a home n = none := by
  simp only [State.poisoned, Bool.or_eq_false_iff] at hp
  simp [State.readBad, live, hp.1]

/-- What a fetch leaves at its home and in the near cache: the thread and memory stay. -/
theorem State.noteFetch_kept (a home : Nat) (paged : Bool) (leaf : Word) (s : State) :
    let u := (s.noteRead (some true) 0#2 a home paged leaf).ackTo s.thr.core home
    u.thr = s.thr ∧ MemKept s u := by
  obtain ⟨l, e⟩ := s.noteRead_only (some true) 0#2 a home paged leaf
  obtain ⟨k, e'⟩ := State.ackTo_only s.thr.core home { s with cores := l }
  rw [e, e']
  exact ⟨rfl, fun _ => rfl, fun _ => rfl, rfl⟩

/-- A fetch at an open home brings the bytes that stand there. -/
theorem State.fetchHome_of_homeOpen {s : State} {ea : Word} {a home n : Nat} {paged : Bool} {leaf : Word}
    (ho : s.homeOpen a home = true) (hp : s.poisoned a n = false) :
    ∃ u, s.fetchHome ea a home paged leaf n = .got (s.readMem a n) (home != s.thr.core || paged) u ∧ u.thr = s.thr ∧ MemKept s u := by
  obtain ⟨-, -, ready, live, charge⟩ := State.homeOpen_cases ho
  simp only [State.fetchHome, State.fetchBusy_of_homeOpen n ho, State.performPrior_of_homeOpen ho, ready]
  unfold State.canCharge at charge
  cases hc : chargeDn s.thr.core home with
  | none =>
    simp only [State.readBad_eq_none live hp]
    exact ⟨_, rfl, s.noteFetch_kept a home paged leaf⟩
  | some dn =>
    cases hd : s.takeDraught dn with
    | error r => simp [hc, hd] at charge
    | ok t =>
      obtain ⟨l, rfl⟩ := State.takeDraught_only hd
      simp only [hd, State.readBad_eq_none ((State.homeDead_setCore_draught s.thr.core home l s).trans live) hp]
      exact ⟨_, rfl, State.noteFetch_kept a home paged leaf (s.setCore s.thr.core fun c => { c with draught := l })⟩

/-- What the near cache has of a place is what a fetch there brings. -/
theorem State.fetchPart_near {s t : State} {ea : Word} {g n : Nat} {l : Loc} {bs : List Byte}
    (e : s.locate s.me nFetch g n = .loc l t) (hb : t.nearBytes true 0#2 l n = some bs) :
    s.fetchPart ea g n = .got bs false t := by
  simp only [State.fetchPart, e, hb]

/-- Otherwise a place in memory is read at its home. -/
theorem State.fetchPart_home {s t : State} {ea : Word} {g n a h : Nat} {paged : Bool} {leaf : Word}
    (e : s.locate s.me nFetch g n = .loc (.mem a h paged leaf) t) (hb : t.nearBytes true 0#2 (.mem a h paged leaf) n = none) :
    s.fetchPart ea g n = t.fetchHome ea a h paged leaf n := by
  simp only [State.fetchPart, e, hb]

/-! ### The fetch of a word (R24, R428) -/

/-- The parts of a word that lies in one line. -/
theorem lineParts_word_one {g : Nat} (h : g % 128 + 12 ≤ 128) : lineParts 2 g 12 = [12] := by
  simp [lineParts, Nat.min_eq_left (show 12 ≤ 128 - g % 128 by omega)]

/-- The parts of a word that crosses into the next line. -/
theorem lineParts_word_two {g : Nat} (h : 128 < g % 128 + 12) :
    lineParts 2 g 12 = [128 - g % 128, 12 - (128 - g % 128)] := by
  have first : min 12 (128 - g % 128) = 128 - g % 128 := by omega
  have second : min (12 - (128 - g % 128)) (128 - (g + (128 - g % 128)) % 128) = 12 - (128 - g % 128) := by omega
  have more : 12 - (128 - g % 128) ≠ 0 := by omega
  simp only [lineParts, first, second, if_neg more]
  rfl

theorem State.fetchParts_one {s t : State} {ea : Word} {n g : Nat} {bs : List Byte} {far : Bool}
    (h : s.fetchPart ea g n = .got bs far t) : State.fetchParts ea [n] g [] false s = .got bs far t := by
  simp [State.fetchParts, h]

theorem State.fetchParts_two {s t u : State} {ea : Word} {m n g : Nat} {b1 b2 : List Byte} {f1 f2 : Bool}
    (h1 : s.fetchPart ea g m = .got b1 f1 t) (h2 : t.fetchPart ea (g + m) n = .got b2 f2 u) :
    State.fetchParts ea [m, n] g [] false s = .got (b1 ++ b2) (f1 || f2) u := by
  simp [State.fetchParts, h1, h2]

theorem State.fetchParts_clock {ea : Word} {ns : List Nat} {g : Nat} {acc bs : List Byte} {f far : Bool} {s t : State}
    (h : State.fetchParts ea ns g acc f s = .got bs far t) : t.clock = s.clock := by
  induction ns generalizing g acc f s with
  | nil => cases h; rfl
  | cons n ns ih =>
    rw [State.fetchParts] at h
    split at h
    · rename_i e
      exact (ih h).trans (State.fetchPart_clock e)
    · cases h

theorem State.pc_setCore (n : Nat) (f : CoreSt → CoreSt) (s : State) : (s.setCore n f).pc = s.pc := rfl

theorem State.levelH_setCore (n : Nat) (f : CoreSt → CoreSt) (s : State) : (s.setCore n f).levelH = s.levelH := rfl

/-- The fetch of a word whose parts have come: it is at hand, or the thread waits for it where a home served it. -/
theorem State.fetch_of_parts {s : State} {ts : TaskSet} {g : Nat} (awake : s.bankAsleep = none) (empty : s.thr.res.fetched = [])
    (aligned : s.pc.toNat % 4 = 0) (cached : s.cachedSet s.thr.core s.task = some ts) (granted : ts.gva nFetch s.pc 12 = some g)
    (lies : (s.setCore s.thr.core (CoreSt.touchSet s.task)).area s.levelH nFetch g 12 ≠ .none)
    (lines : oneAccess ((s.setCore s.thr.core (CoreSt.touchSet s.task)).area s.levelH nFetch g 12) = false)
    {bs : List Byte} {far : Bool} {t : State}
    (parts : State.fetchParts s.pc (lineParts 2 g 12) g [] false (s.setCore s.thr.core (CoreSt.touchSet s.task)) = .got bs far t) :
    (far = false → s.fetch = .got bs false t) ∧
      (far = true → ∃ u, s.fetch = .stop (.again u) ∧ u = { t with thr := u.thr } ∧
        u.thr = { t.thr with wait := .fetch, fetchAt := s.now s.thr.core, fetchAhead := 0, res := { t.thr.res with fetched := bs } }) := by
  have clock : t.clock = s.clock := (State.fetchParts_clock parts).trans rfl
  have step : s.fetch = if far then
      .stop (.again ((t.mapRes fun r => { r with fetched := bs }).mapThr (Thread.awaitWord (t.now t.thr.core) 0))) else .got bs false t := by
    rw [State.fetch, awake]
    dsimp only
    rw [if_neg (by simp [empty]), if_neg (by simp [aligned]), cached]
    -- the match on the area takes its last row, by `lies`
    simp only [State.pc_setCore, State.levelH_setCore, granted, lines, Bool.false_eq_true, if_false, parts]
    cases far <;> rfl
  cases far with
  | false => exact ⟨fun _ => step, fun h => absurd h Bool.false_ne_true⟩
  | true =>
    refine ⟨fun h => absurd h.symm Bool.false_ne_true, fun _ => ⟨_, step, rfl, ?_⟩⟩
    rw [← State.now_of_clock clock]
    rfl

/-- A word that its home has served already is at hand (R428). -/
theorem State.fetch_at_hand {s : State} (awake : s.bankAsleep = none) (whole : s.thr.res.fetched.length = 12) :
    s.fetch = .got s.thr.res.fetched false (s.mapRes fun r => { r with fetched := [] }) := by
  simp only [State.fetch, awake, whole, if_true]

/-! ### The step (R20, R23, R37) -/

/-- A fetched word that decodes is executed in the state after the fetch. -/
theorem runThread_decoded {gap : Nat} {s0 s1 : State} {bs : List Byte} {far : Bool} {w : IWord} {i : Instr}
    (got : (s0.takeTurn gap).fetch = .got bs far s1) (word : wordOfBytes bs = some w) (is : decodeAt s1.levelH w = .ok i) :
    runThread gap s0 = exec i s1 := by
  simp only [runThread, got, word, is]

/-- A fetched word that does not decode raises its trap there. -/
theorem runThread_rejected {gap : Nat} {s0 s1 : State} {bs : List Byte} {far : Bool} {w : IWord} {r : Reject}
    (got : (s0.takeTurn gap).fetch = .got bs far s1) (word : wordOfBytes bs = some w) (is : decodeAt s1.levelH w = .error r) :
    runThread gap s0 = .next (Eff.finish issueless s1 (raiseReject w r)) := by
  simp only [runThread, got, word, is]

/-- An agenda entry that names no step of the machine runs the thread it selects, where that thread can take the turn. -/
theorem step_of_turn {s : State} {t : Turn} {ts : List Turn} (agenda : s.agenda = t :: ts) (thread : t.ev = none)
    (can : (((((({ s with agenda := ts } : State).pass t.cycles).launch t.sent).meet t.glitch).select t.sel).thr.canTake t.gap) = true) :
    step s = afterStep (runThread t.gap ((((({ s with agenda := ts } : State).pass t.cycles).launch t.sent).meet t.glitch).select t.sel)) := by
  simp only [step, agenda, runTurn, thread, can, if_true]

/-- With an empty agenda, but for two beats in eight, the thread in the issue stage issues where it can (log 2). -/
theorem step_of_default {s : State} (agenda : s.agenda = []) (not3 : s.beat ≠ 3) (not7 : s.beat ≠ 7) (can : s.thr.canIssue = true) :
    step s = afterStep (runThread 0 { s.pass (fun _ => 8) with beat := (s.beat + 1) % 8 }) := by
  simp only [step, agenda, runDefault, runAny, State.pass_beat, State.pass_thr, if_neg not3, if_neg not7, can, if_true, defaultCycles]

/-- Settles O57: the step is `exec` of the decoded word after the fetch, whose parts come from the near cache or an open home, and whose
clock is the one it began at. -/
theorem stepRunsTheDecodedWord : Obligations.StepRunsTheDecodedWord := by
  unfold Obligations.StepRunsTheDecodedWord
  refine ⟨?_, ?_, ?_, ?_, ?_⟩
  · exact fun _ _ _ _ _ _ got word => ⟨fun _ => runThread_decoded got word, fun _ => runThread_rejected got word⟩
  · exact fun _ _ _ agenda thread can => step_of_turn agenda thread can
  · exact fun _ agenda not3 not7 can => step_of_default agenda not3 not7 can
  · refine fun s awake => ⟨State.fetch_at_hand awake, fun ts g empty aligned cached granted lies lines => ⟨?_, ?_⟩⟩
    · intro bs far t one part
      exact State.fetch_of_parts awake empty aligned cached granted lies lines (lineParts_word_one one ▸ State.fetchParts_one part)
    · intro b1 f1 t1 b2 f2 t two first second
      exact State.fetch_of_parts awake empty aligned cached granted lies lines
        (lineParts_word_two two ▸ State.fetchParts_two first second)
  · intro s s1 ea g n a h pg lf place
    refine ⟨fun bs near => State.fetchPart_near place near, fun far opened clean => ?_⟩
    rw [State.fetchPart_home place far]
    obtain ⟨masks, peers1, peers2, rfl⟩ := State.locate_only place
    exact State.fetchHome_of_homeOpen opened clean

end Sys2Proof.Machine
end

section
/-! ### Decoding what was encoded (O56, O55)

A word is four 24-bit pieces: the head and the three operand fields. The decoder finds in each what the encoder put there, `build` takes
the instruction from OP and FN, and a well-formed instruction passes each row of R37. -/

namespace Sys2Proof

/-! The operand fields (R29) -/

/-- The KIND bits of R29. -/
def Opnd.kindBits : Opnd → Nat
  | .reg .. => 0 | .pred .. => 1 | .spec _ => 2 | .imm _ => 3 | .chan _ => 4 | .lit _ => 6 | .absent => 7

@[simp] theorem Opnd.rawKind_encode (o : Opnd) : rawKind o.encode = o.kindBits := by
  cases o <;> simp (disch := decide) only [Opnd.encode, rawKind, BitVec.extractLsb'_append_eq_of_le, -Nat.reduceAdd] <;> rfl

/-- The field of an operand other than a long literal reads as that operand. -/
theorem readOpnd_encode {o : Opnd} (h : o.notLit = true) : readOpnd o.encode = o := by
  unfold readOpnd
  rw [Opnd.rawKind_encode]
  cases o with
  | lit v => cases h
  | _ =>
    simp (disch := decide) [Opnd.kindBits, Opnd.encode, BitVec.extractLsb'_append_eq_of_le, BitVec.extractLsb'_append_eq_of_add_le,
      BitVec.extractLsb'_eq_self, BitVec.getLsbD_append, -BitVec.getLsbD_eq_getElem, -Nat.reduceAdd]

/-- The reserved bits of an encoded operand are clear. -/
theorem rawClean_encode (o : Opnd) : rawClean o.encode = true := by
  unfold rawClean
  rw [Opnd.rawKind_encode]
  cases o <;>
    simp (disch := decide) [Opnd.kindBits, Opnd.encode, BitVec.extractLsb'_append_eq_of_le, BitVec.extractLsb'_append_eq_of_add_le,
      -Nat.reduceAdd]

/-- The KIND of an encoded operand is none of the reserved ones. -/
theorem Opnd.kindBits_ne_five (o : Opnd) : o.kindBits ≠ 5 := by
  cases o <;> exact of_decide_eq_true rfl

/-- KIND 110 is that of a long literal alone. -/
theorem Opnd.kindBits_eq_six {o : Opnd} : o.kindBits = 6 ↔ o.notLit = false := by
  cases o <;> simp [Opnd.kindBits, Opnd.notLit]

/-- The two pieces of a long literal make up the literal. -/
theorem lit_pieces (v : BitVec 45) : ((Opnd.lit v).encode.extractLsb' 0 21 ++ v.extractLsb' 0 24 : BitVec 45) = v := by
  have low : (Opnd.lit v).encode.extractLsb' 0 21 = v.extractLsb' 24 21 := by
    simp (disch := decide) only [Opnd.encode, BitVec.extractLsb'_append_eq_of_add_le, BitVec.extractLsb'_eq_self, -Nat.reduceAdd]
  rw [low]
  exact (BitVec.extractLsb'_append_extractLsb'_eq_extractLsb' (x := v) (by rfl)).trans BitVec.extractLsb'_eq_self

theorem encodeC_of_notLit {b : Opnd} (h : b.notLit = true) (c : Opnd) : encodeC b c = c.encode := by
  cases b with
  | lit v => cases h
  | _ => rfl

/-! The word (R23) -/

/-- The word of given pieces. -/
def wordOf (op : BitVec 8) (fn : BitVec 4) (x : Args) : IWord :=
  encodeTop op fn x.h ++ x.a.encode ++ x.b.encode ++ encodeC x.b x.c

theorem encode_eq_wordOf {i : Instr} {x : Args} (h : i.args = some x) : encode i = wordOf i.op i.fn x := by
  simp only [encode, h, wordOf]

section
variable (op : BitVec 8) (fn : BitVec 4) (x : Args)

/-- Where the pieces of a word stand. -/
theorem wordOf_pieces :
    (wordOf op fn x).extractLsb' 88 8 = op ∧ (wordOf op fn x).extractLsb' 84 4 = fn ∧
      (wordOf op fn x).extractLsb' 48 24 = x.a.encode ∧ (wordOf op fn x).extractLsb' 24 24 = x.b.encode ∧
      (wordOf op fn x).extractLsb' 0 24 = encodeC x.b x.c ∧ (wordOf op fn x).getLsbD 72 = false := by
  simp (disch := decide) [wordOf, encodeTop, BitVec.getLsbD_append, BitVec.extractLsb'_append_eq_of_le,
      BitVec.extractLsb'_append_eq_of_add_le, BitVec.extractLsb'_eq_self, -BitVec.getLsbD_eq_getElem, -Nat.reduceAdd]

theorem readHead_wordOf : readHead (wordOf op fn x) = x.h := by
  obtain ⟨⟨gn, gp, stall, cp, yl⟩, a, b, c⟩ := x
  simp (disch := decide) [wordOf, encodeTop, readHead, BitVec.getLsbD_append, BitVec.extractLsb'_append_eq_of_le,
    BitVec.extractLsb'_append_eq_of_add_le, BitVec.extractLsb'_eq_self, -BitVec.getLsbD_eq_getElem, -Nat.reduceAdd]

end

/-- The operands of a word read as they were written, where a long literal stands in B only and leaves C absent (R29). -/
theorem readArgs_wordOf (op : BitVec 8) (fn : BitVec 4) {x : Args} (a : x.a.notLit = true) (c : x.c.notLit = true)
    (bc : x.b.notLit = true ∨ x.c = .absent) : readArgs (wordOf op fn x) = x := by
  obtain ⟨-, -, fa, fb, fc, -⟩ := wordOf_pieces op fn x
  have head := readHead_wordOf op fn x
  obtain ⟨h, xa, xb, xc⟩ := x
  simp only [readArgs, fa, fb, fc, head, readOpnd_encode a, Opnd.rawKind_encode]
  by_cases b : xb.notLit = true
  · rw [if_neg (by simp [Opnd.kindBits_eq_six, b]), readOpnd_encode b, encodeC_of_notLit b, readOpnd_encode c]
  · obtain rfl : xc = .absent := bc.resolve_left b
    cases xb with
    | lit v => rw [encodeC, lit_pieces]; rfl
    | _ => exact absurd rfl b

/-- The 12 bytes of a word hold it (R23). -/
theorem wordOfBytes_bytesOfWord (w : IWord) : wordOfBytes (bytesOfWord w) = some w := by
  have bytes : bytesOfWord w = [w.extractLsb' 0 8, w.extractLsb' 8 8, w.extractLsb' 16 8, w.extractLsb' 24 8, w.extractLsb' 32 8,
    w.extractLsb' 40 8, w.extractLsb' 48 8, w.extractLsb' 56 8, w.extractLsb' 64 8, w.extractLsb' 72 8, w.extractLsb' 80 8,
    w.extractLsb' 88 8] := rfl
  rw [bytes, wordOfBytes]
  repeat rw [BitVec.extractLsb'_append_extractLsb'_eq_extractLsb' (by rfl)]
  exact congrArg some BitVec.extractLsb'_eq_self

/-! What OP and FN name (R36) -/

theorem build_leaSeg (n : BitVec 3) (x : Args) : Instr.build 0x3A (1#1 ++ n).toNat x = some (.leaSeg n x) := by
  have fn : (1#1 ++ n).toNat = n.toNat + 8 := by
    rw [BitVec.toNat_append, ← Nat.shiftLeft_add_eq_or_of_lt n.isLt, Nat.add_comm]; rfl
  have code : BitVec.ofNat 3 (n.toNat + 8) = n := BitVec.eq_of_toNat_eq (by simp [n.isLt])
  rw [fn]
  show (if 8 ≤ n.toNat + 8 then some (Instr.leaSeg (BitVec.ofNat 3 (n.toNat + 8)) x) else none) = _
  rw [if_pos (Nat.le_add_left _ _), code]

/-- OP and FN of an instruction name it: FN is a constant, a number, or the code of a type, placement, scope or order. -/
theorem build_op_fn {i : Instr} {x : Args} (h : i.args = some x) : Instr.build i.op.toNat i.fn.toNat x = some i := by
  cases i <;> cases h <;> simp only [Instr.op, Instr.fn, BitVec.reduceToNat]
  any_goals rfl
  case cas.refl f =>
    obtain ⟨w, r, a⟩ := f
    cases w <;> cases r <;> cases a <;> rfl
  case leaSeg.refl n => exact build_leaSeg n x
  case jdr.refl n => exact congrArg (fun n => some (Instr.jdr n x)) (BitVec.ofNat_toNat 4 n)
  case ldm.refl n => exact congrArg (fun n => some (Instr.ldm n x)) (BitVec.ofNat_toNat 4 n)
  case stm.refl n => exact congrArg (fun n => some (Instr.stm n x)) (BitVec.ofNat_toNat 4 n)
  case sput.refl n => exact congrArg (fun n => some (Instr.sput n x)) (BitVec.ofNat_toNat 4 n)
  all_goals rename_i t; cases t <;> rfl

theorem opAssigned_op {i : Instr} {x : Args} (h : i.args = some x) : opAssigned i.op.toNat = true := by
  cases i <;> cases h <;> simp only [Instr.op, BitVec.reduceToNat] <;> rfl

/-! The rows of R37 -/

theorem badFld_none {a b c : Bool} (ha : a = true) (hb : b = true) (hc : c = true) : badFld a b c = none := by
  subst ha hb hc; rfl

/-- What makes an instruction a word, row by row. -/
structure Instr.WellFormed (i : Instr) (x : Args) : Prop where
  args : i.args = some x
  fnOk : i.fnOk = true
  cp : (opCpOk i.op.toNat || x.h.cp == 0#2) = true
  kinds : i.shape.a.kindOk x.a = true ∧ i.shape.b.kindOk x.b = true ∧ i.shape.c.kindOk x.c = true
  lits : x.a.notLit = true ∧ x.c.notLit = true ∧ (x.b.notLit || x.c == .absent) = true
  values : i.shape.a.valueOk x.a = true ∧ i.shape.b.valueOk x.b = true ∧ i.shape.c.valueOk x.c = true
  mods : i.shape.a.modsOk x.a = true ∧ i.shape.b.modsOk x.b = true ∧ i.shape.c.modsOk x.c = true
  sync : syncClash x.b x.c = false
  limit : i.limit = none

theorem Instr.wellFormed_of_wf {i : Instr} (h : i.wf = true) : ∃ x, i.WellFormed x := by
  unfold Instr.wf at h
  split at h
  · rename_i x e
    simp only [Args.wf, Bool.and_eq_true, Bool.not_eq_true', Option.isNone_iff_eq_none] at h
    obtain ⟨⟨fnOk, ⟨⟨⟨⟨⟨⟨⟨⟨⟨⟨⟨⟨⟨cp, ka⟩, kb⟩, kc⟩, la⟩, lc⟩, lb⟩, va⟩, vb⟩, vc⟩, ma⟩, mb⟩, mc⟩, sync⟩⟩, limit⟩ := h
    exact ⟨x, e, fnOk, cp, ⟨ka, kb, kc⟩, ⟨la, lc, lb⟩, ⟨va, vb, vc⟩, ⟨ma, mb, mc⟩, sync, limit⟩
  · cases h

/-- A well-formed word passes rows 9 to 13. -/
theorem Instr.WellFormed.checkFields {i : Instr} {x : Args} (w : i.WellFormed x) : checkFields (wordOf i.op i.fn x) i x = .ok i := by
  obtain ⟨-, -, fa, fb, fc, -⟩ := wordOf_pieces i.op i.fn x
  obtain ⟨ka, kb, kc⟩ := w.kinds
  obtain ⟨la, lc, -⟩ := w.lits
  obtain ⟨va, vb, vc⟩ := w.values
  obtain ⟨ma, mb, mc⟩ := w.mods
  have named : ∀ {o : Opnd}, o.notLit = true → (o.kindBits != 5 && o.kindBits != 6) = true := fun {o} h => by
    simp [Opnd.kindBits_ne_five, Opnd.kindBits_eq_six, h]
  have fieldC : x.b.kindBits ≠ 6 → encodeC x.b x.c = x.c.encode := fun h =>
    encodeC_of_notLit (by simpa [Opnd.kindBits_eq_six] using h) _
  have rawC : (x.b.kindBits == 6 || (rawKind (encodeC x.b x.c) != 5 && rawKind (encodeC x.b x.c) != 6)) = true := by
    rcases eq_or_ne x.b.kindBits 6 with h | h
    · simp [h]
    · rw [fieldC h, Opnd.rawKind_encode, named lc, Bool.or_true]
  have cleanC : (x.b.kindBits == 6 || (rawClean (encodeC x.b x.c) && i.shape.c.kindOk x.c && i.shape.c.valueOk x.c)) = true := by
    rcases eq_or_ne x.b.kindBits 6 with h | h
    · simp [h]
    · rw [fieldC h, rawClean_encode, kc, vc]; simp
  simp only [Sys2Proof.checkFields, fa, fb, fc, Opnd.rawKind_encode]
  rw [badFld_none (named la) (by simp [Opnd.kindBits_ne_five]) rawC]
  rw [badFld_none ka kb (by simp [kc])]
  rw [badFld_none (by simp [rawClean_encode, va]) (by simp [rawClean_encode, vb]) cleanC]
  rw [badFld_none ma mb (by simp [mc, w.sync])]
  rw [w.limit]

theorem Instr.WellFormed.decodeAt_encode {i : Instr} {x : Args} (w : i.WellFormed x) (lvl : Bool) :
    decodeAt lvl (encode i) = if opHOnly i.op.toNat && !lvl then .error .priv else .ok i := by
  obtain ⟨op, fn, -, -, -, reserved⟩ := wordOf_pieces i.op i.fn x
  obtain ⟨la, lc, lb⟩ := w.lits
  have assigned := opAssigned_op w.args
  have nonzero : wordOf i.op i.fn x ≠ 0#96 := by
    intro h
    rw [h] at op
    rw [← op] at assigned
    cases assigned
  have args : readArgs (wordOf i.op i.fn x) = x := readArgs_wordOf _ _ la lc (by simpa using lb)
  have cp : (x.h.cp != 0#2 && !opCpOk i.op.toNat) = false := by
    rcases Bool.or_eq_true _ _ ▸ w.cp with h | h
    · simp [h]
    · simp [beq_iff_eq.1 h]
  rw [encode_eq_wordOf w.args]
  simp only [decodeAt, if_neg nonzero, op, fn, args, assigned, build_op_fn w.args, w.fnOk, reserved, cp, w.checkFields]
  simp

/-- Settles O56: the decoder finds in each piece of a word what the encoder put there, and every row of R37 lets it pass. -/
theorem decodeOfEncodeIsTheInstruction : Obligations.DecodeOfEncodeIsTheInstruction := by
  unfold Obligations.DecodeOfEncodeIsTheInstruction
  have round : ∀ i : Instr, i.wf = true → decode (encode i) = .ok i := by
    intro i h
    obtain ⟨x, w⟩ := Instr.wellFormed_of_wf h
    simpa [decode] using w.decodeAt_encode true
  refine ⟨fun i h => ⟨round i h, wordOfBytes_bytesOfWord _, ?_⟩, fun i j hi hj e => ?_⟩
  · obtain ⟨x, w⟩ := Instr.wellFormed_of_wf h
    simpa using w.decodeAt_encode false
  · exact Except.ok.inj ((round i hi).symm.trans ((congrArg decode e).trans (round j hj)))

/-- Settles O55: each word is a numeral, which the decoder reads by computation. -/
theorem wordsOfTheEncodingTables : Obligations.WordsOfTheEncodingTables := by
  unfold Obligations.WordsOfTheEncodingTables
  refine ⟨?_, ?_, ?_, ?_, ?_, ?_, ?_, ?_, ?_, ?_, ?_, ?_, ?_⟩ <;> rfl

end Sys2Proof
end

section
/-! ### Words that end in the issuing thread (O9, O10, O11, O15, O16)

Control, predicate and special-register words read ready operands and then complete, transfer or trap. `issue_done`, `issue_jump` and
`issue_trap` say what an enabled word has done by how its body ends. -/

namespace Sys2Proof.Machine

/-- Settles O15: every word is issued under its head, and a disabled issue is a `done` of the state as it stands. -/
theorem disabledWordOnlyAdvances : Obligations.DisabledWordOnlyAdvances := by
  unfold Obligations.DisabledWordOnlyAdvances
  intro i x s args disabled
  obtain ⟨body, issued⟩ := exec_issue i x args
  exact ⟨_, (issued s).trans (issue_disabled disabled), finish_done (CtxOnly.refl s) rfl rfl⟩

/-! How an enabled word ends -/

/-- A trap of a state that differs in its name counter and in what the thread resumes with is one of the state itself. -/
theorem Trapped.of_resume {s t u : State} {n : Nat} {r : Resume} {code sub : BitVec 8} {detail : Word} (h : Trapped t u code sub detail)
    (differ : t = { s with serial := n, thr := { s.thr with res := r } }) (fixed : r.fixed = s.thr.res.fixed) :
    Trapped s u code sub detail := by
  subst differ
  obtain ⟨leaves, same, only, mem⟩ := h
  exact ⟨leaves.trans (by rw [fixed]; rfl), same, only, mem⟩

/-- A trap at level U outside a handler changes what a trap writes, and nothing else (R57). -/
theorem finish_trap {s : State} (h : Head) (code sub : BitVec 8) (detail : Word) (u : s.levelH = false) (n : s.trin = false) :
    Trapped s (Eff.finish h s (.trap code sub detail)) code sub detail := by
  let t := ({ s with serial := s.serial + 1 } : State).mapRes fun r => { r with record := none, fill := none }
  have trapped : Trapped t (t.takeTrap code sub detail) code sub detail := (State.takeTrap_user (s := t) code sub detail u n).1
  exact trapped.of_resume rfl rfl

section
variable {o : Host.Outcome State Fault Refusal} {h : Head} {body : State → Eff} {s t : State}

theorem issue_done {c : Ctx} (is : o = issue h body s) (e : s.enabled h = true) (b : body s = .done t) (only : CtxOnly s t)
    (pc : t.pc = s.pc) (f : t.thr.final = c.orFlags (flagsOf s.thr.res.fixed)) : ∃ u, o = .next u ∧ Completed s u c :=
  ⟨_, by rw [is, issue_enabled e, b], finish_done only pc f⟩

theorem issue_jump {c : Ctx} {pc : Word} (is : o = issue h body s) (e : s.enabled h = true) (b : body s = .jump t pc)
    (only : CtxOnly s t) (f : t.thr.final = c.orFlags (flagsOf s.thr.res.fixed)) : ∃ u, o = .next u ∧ Transferred s u c pc :=
  ⟨_, by rw [is, issue_enabled e, b], finish_jump only f⟩

theorem issue_trap {code sub : BitVec 8} {detail : Word} (is : o = issue h body s) (e : s.enabled h = true)
    (b : body s = .trap code sub detail) (u : s.levelH = false) (n : s.trin = false) :
    ∃ u, o = .next u ∧ Trapped s u code sub detail :=
  ⟨_, by rw [is, issue_enabled e, b], finish_trap h _ _ _ u n⟩

end

/-- A source leaves the results that are outstanding. -/
@[simp] theorem Opnd_after_fixed (o : Opnd) (s : State) : (o.after s).thr.res.fixed = s.thr.res.fixed := by
  obtain ⟨c, e⟩ := Opnd_after_only o s
  rw [e]

/-- What the thread is left with when it writes its context after a source is read. -/
theorem Opnd_after_final (o : Opnd) (f : Ctx → Ctx) (s : State) :
    ((o.after s).mapCtx f).thr.final = (f (o.after s).thr.ctx).orFlags (flagsOf s.thr.res.fixed) := by
  rw [← Opnd_after_fixed o s]; rfl

@[simp] theorem Ctx.writeP_pc (p : BitVec 3) (v : Bool) (c : Ctx) : (c.writeP p v).pc = c.pc := by
  unfold Ctx.writeP
  split <;> rfl

/-- B and C that can be read are read, B first (R30). -/
theorem withBC_ready {x : Args} {s : State} {k : Word → Word → State → Eff} (h : x.readyBC s = true) :
    (withSrc x.b s fun b s => withSrc x.c s fun c s => k b c s) = k (x.b.val s) (x.c.val s) (x.afterBC s) := by
  obtain ⟨b, c⟩ := Bool.and_eq_true_iff.1 h
  rw [withSrc_ready b, withSrc_ready c, Opnd_val_after]; rfl

theorem Args.afterBC_pc (x : Args) (s : State) : (x.afterBC s).pc = s.pc := (Opnd_after_pc _ _).trans (Opnd_after_pc _ _)

theorem Args.afterBC_final (x : Args) (f : Ctx → Ctx) (s : State) :
    ((x.afterBC s).mapCtx f).thr.final = (f (x.afterBC s).thr.ctx).orFlags (flagsOf s.thr.res.fixed) := by
  rw [← Opnd_after_fixed x.b s]; exact Opnd_after_final _ _ _

/-! Results of a fixed latency (R39, R52, R128): what is in the context once they have been written back -/

theorem Ctx.orFlags_comm (f g : BitVec 5) (c : Ctx) : (c.orFlags f).orFlags g = (c.orFlags g).orFlags f := by
  rw [Ctx.orFlags_orFlags, Ctx.orFlags_orFlags, BitVec.or_comm]

theorem State.orFlags_final (f : BitVec 5) (s : State) : (s.orFlags f).thr.final = s.thr.final.orFlags f :=
  Ctx.orFlags_comm _ _ _

theorem State.writePFixed_final (p : BitVec 3) (v : Bool) (lat : Nat) (f : BitVec 5) (h : Head) (s : State) :
    (s.writePFixed p v lat f h).thr.final = (s.writeP p v).thr.final.orFlags f := by
  unfold State.writePFixed
  dsimp only
  split
  · exact State.orFlags_final _ _
  · exact State.pendFixed_final _ _ _ _ _ _

theorem State.writePFixed_pc (p : BitVec 3) (v : Bool) (lat : Nat) (f : BitVec 5) (h : Head) (s : State) :
    (s.writePFixed p v lat f h).pc = s.pc := by
  unfold State.writePFixed
  dsimp only
  split <;> exact Ctx.writeP_pc _ _ _

theorem State.writeFixed_final (r : BitVec 4) (v : Word) (lat : Nat) (h : Head) (s : State) :
    (s.writeFixed r v lat h).thr.final = (s.writeX r v).thr.final := by
  unfold State.writeFixed
  dsimp only
  split
  · rfl
  · exact (State.pendFixed_final _ _ _ _ _ _).trans (by simp [Ctx.orFlags])

theorem State.writeFixed_pc (r : BitVec 4) (v : Word) (lat : Nat) (h : Head) (s : State) : (s.writeFixed r v lat h).pc = s.pc := by
  unfold State.writeFixed
  dsimp only
  split <;> rfl

@[simp] theorem Ctx.writeP_st (p : BitVec 3) (v : Bool) (c : Ctx) : (c.writeP p v).st = c.st := by
  unfold Ctx.writeP
  split <;> rfl

theorem Ctx.writeP_orFlags (p : BitVec 3) (v : Bool) (f : BitVec 5) (c : Ctx) :
    (c.writeP p v).orFlags f = { c.writeP p v with st := c.st ||| (f.setWidth 64 <<< 4) } := by
  rw [Ctx.orFlags, Ctx.writeP_st]

/-! ### Control (R60-R65) -/

/-- The target of a relative transfer (R34). -/
theorem State.branchTo_eq (s : State) (o : Opnd) : s.branchTo o = s.pc + 4#64 * o.immW := by
  have : o.immW <<< 2 = 4#64 * o.immW :=
    BitVec.eq_of_toNat_eq (by simp [BitVec.toNat_shiftLeft, Nat.shiftLeft_eq, Nat.mul_comm])
  rw [State.branchTo, this]

/-- Giving up the slot: the thread is bound again at once where no other entry without CF waits, and else joins the tail (R98). -/
theorem State.yieldThr_cases {s : State} {t : Thread} (slot : t.slot = s.thr.slot) (core : t.core = s.thr.core)
    (cxa : t.ctx.cxa = s.thr.ctx.cxa) :
    let u := ({ s with thr := t } : State).yieldThr
    if s.thr.slot.isSome ∧ (s.core s.thr.core).runq.all (·.cf) then
      u.thr.slot = s.thr.slot ∧ (u.core s.thr.core).runq = (s.core s.thr.core).runq
    else (u.core s.thr.core).runq = (s.core s.thr.core).runq ++ [{ cxa := s.thr.ctx.cxa, org := 3#2 }] ∧ u.thr.slot = none := by
  rw [← slot, ← core, ← cxa]
  by_cases c : (t.slot.isSome && (s.core t.core).runq.all (·.cf)) = true
  · have again : ({ s with thr := t } : State).yieldThr = _ := if_pos c
    rw [if_pos (by simpa using c), again]
    exact ⟨rfl, rfl⟩
  · have tail : ({ s with thr := t } : State).yieldThr = _ := if_neg c
    rw [if_neg (by simpa using c), tail]
    exact ⟨congrArg CoreSt.runq (State.core_setCore _ _ _), rfl⟩

/-- STALL becomes the skip count of a thread that keeps its slot (R51). -/
theorem State.retire_skip {h : Head} (yl : h.yl = false) (s : State) : (s.retire h false).thr.skip = h.stall.toNat := by
  unfold State.retire
  rw [if_neg (by simp [yl])]
  rfl

/-- YL gives up the slot of a thread that has not parked (R28). -/
theorem State.retire_yields {h : Head} {s : State} (yl : h.yl = true) (parked : s.thr.parked = false) :
    let u := s.retire h false
    if s.thr.slot.isSome ∧ (s.core s.thr.core).runq.all (·.cf) then
      u.thr.slot = s.thr.slot ∧ (u.core s.thr.core).runq = (s.core s.thr.core).runq
    else (u.core s.thr.core).runq = (s.core s.thr.core).runq ++ [{ cxa := s.thr.ctx.cxa, org := 3#2 }] ∧ u.thr.slot = none := by
  have yields : s.retire h false = _ := if_pos (by simp [yl, parked])
  rw [yields]
  exact State.yieldThr_cases (s := s) rfl rfl rfl

section
variable (x : Args) (s : State)

theorem exec_jmp : exec (.jmp x) s = issue x.h (fun s => withSrc x.a s fun v s => .jump s v) s := rfl

theorem exec_call : exec (.call x) s = issue x.h (fun s => callTo (s.branchTo x.a) s) s := rfl

theorem exec_callr : exec (.callr x) s = issue x.h (fun s => withSrc x.a s fun v s => callTo v s) s := rfl

theorem exec_loop : exec (.loop x) s = issue x.h (fun s => withSrc x.a s fun v s =>
    if v - 1#64 = 0#64 then .done (s.writeX x.a.rix (v - 1#64)) else .jump (s.writeX x.a.rix (v - 1#64)) (s.branchTo x.b)) s := rfl

end

/-- A call whose return register can be written transfers (R64). -/
theorem callTo_free {s : State} (dst : Word) (free : s.destFree 15#4 false = true) :
    callTo dst s = .jump (s.writeX 15#4 (s.pc + 12#64)) dst :=
  withDestReg_free free

/-- Settles O10: the operand is read, and the body completes or jumps. -/
theorem jumpsAndCalls : Obligations.JumpsAndCalls := by
  unfold Obligations.JumpsAndCalls
  intro x s e
  refine ⟨?_, ?_, ?_, ?_, ?_⟩
  · exact ⟨_, issue_enabled e, finish_done (CtxOnly.refl s) rfl rfl, fun yl => State.retire_skip yl _,
      fun yl parked => State.retire_yields (s := s.setPc (s.pc + 12#64)) yl parked⟩
  · intro ready
    exact issue_jump (exec_jmp x s) e (withSrc_ready ready) (CtxOnly.after _ _) (Opnd_after_final _ id _)
  · intro free
    rw [← State.branchTo_eq]
    exact issue_jump (exec_call x s) e (callTo_free _ free) (CtxOnly.mapCtx _ _) rfl
  · intro ready free
    rw [← Opnd_after_pc x.a s]
    exact issue_jump (exec_callr x s) e ((withSrc_ready ready).trans (callTo_free _ free))
      ((CtxOnly.after _ _).trans (CtxOnly.mapCtx _ _)) (Opnd_after_final _ _ _)
  · intro ready
    have only : CtxOnly s ((x.a.after s).writeX x.a.rix (x.a.val s - 1#64)) := (CtxOnly.after _ _).trans (CtxOnly.mapCtx _ _)
    refine ⟨fun zero => ?_, fun more => ?_⟩
    · exact issue_done (exec_loop x s) e ((withSrc_ready ready).trans (if_pos zero)) only (Opnd_after_pc _ _) (Opnd_after_final _ _ _)
    · rw [← Opnd_after_pc x.a s, ← State.branchTo_eq]
      exact issue_jump (exec_loop x s) e ((withSrc_ready ready).trans (if_neg more)) only (Opnd_after_final _ _ _)

/-! ### Predicates (R31, R55, R66, R67) -/

section
variable {x : Args} {s : State}

theorem exec_cmp (t : Ty) (x : Args) (s : State) : exec (.cmp t x) s = issue x.h (fun s =>
    withSrc x.b s fun b s => withSrc x.c s fun c s => withDest x.a s (.done (s.writePFixed x.a.pix
      (condTy t x.a.cond (x.b.atTy t b) (x.c.atTy t c)).1 (cmpLatency t) (condTy t x.a.cond (x.b.atTy t b) (x.c.atTy t c)).2 x.h))) s := rfl

/-- A predicate instruction of two sources writes its function of them, and nothing else. -/
theorem plog_completes (f : Bool → Bool → Bool) (e : s.enabled x.h = true) (b : s.predReady x.b.pix = true)
    (c : s.predReady x.c.pix = true) (a : x.a.free s = true) :
    ∃ u, plog f x s = .next u ∧ Completed s u (s.thr.ctx.writeP x.a.pix (f (s.p x.b.pix) (s.p x.c.pix))) :=
  issue_done rfl e ((withPred_ready b).trans ((withPred_ready c).trans (withDest_free a))) (CtxOnly.mapCtx _ _)
    (Ctx.writeP_pc _ _ _) rfl

/-- A predicate instruction of one source writes its function of it, and nothing else. -/
theorem plog1_completes (f : Bool → Bool) (e : s.enabled x.h = true) (b : s.predReady x.b.pix = true) (a : x.a.free s = true) :
    ∃ u, plog1 f x s = .next u ∧ Completed s u (s.thr.ctx.writeP x.a.pix (f (s.p x.b.pix))) :=
  issue_done rfl e ((withPred_ready b).trans (withDest_free a)) (CtxOnly.mapCtx _ _) (Ctx.writeP_pc _ _ _) rfl

end

/-- Settles O11: the sources are read and the predicate is written; the flags of `cmp` are in ST once its result has landed. -/
theorem predicateResults : Obligations.PredicateResults := by
  unfold Obligations.PredicateResults
  intro x s e
  refine ⟨fun b c a => ?_, fun b a => ?_, fun t ready a => ?_⟩
  · simp only [List.forall_mem_cons, List.not_mem_nil, false_imp_iff, implies_true, and_true]
    have xnor : ∀ b c : Bool, (!xor b c) = (b == c) := by decide
    rw [xnor]
    exact ⟨plog_completes _ e b c a, plog_completes _ e b c a, plog_completes _ e b c a, plog_completes _ e b c a,
      plog_completes _ e b c a, plog_completes _ e b c a⟩
  · simp only [List.forall_mem_cons, List.not_mem_nil, false_imp_iff, implies_true, and_true]
    exact ⟨plog1_completes _ e b a, plog1_completes _ e b a⟩
  · refine issue_done (exec_cmp t x s) e ((withBC_ready ready).trans (withDest_free a))
      ((CtxOnly.afterBC x s).trans (CtxOnly.writePFixed _ _ _ _ _ _)) ?_ ?_
    · rw [State.writePFixed_pc, Args.afterBC_pc]
    · refine (State.writePFixed_final _ _ _ _ _ _).trans ?_
      rw [State.writeP, Args.afterBC_final, Ctx.orFlags_comm, Ctx.writeP_orFlags]

/-! ### Special registers (R32, R120-R122) -/

theorem withAllFixed_none {s : State} {k : Eff} (h : s.thr.res.fixed = []) : withAllFixed s k = k := by
  rw [withAllFixed, h]

section
variable (x : Args) (s : State)

theorem exec_mvs : exec (.mvs x) s = issue x.h (fun s =>
    if specOf x.b = 0 then withAllFixed s (withDest x.a s (.done (s.writeFixed x.a.rix (s.spec (specOf x.b)) 4 x.h)))
    else withDest x.a s (.done (s.writeFixed x.a.rix (s.spec (specOf x.b)) 4 x.h))) s := rfl

theorem exec_msv : exec (.msv x) s = issue x.h (fun s => withAllFixed s (withSrc x.b s fun v s =>
    if specOf x.a = 0x0E && !s.levelH then .trap tPRIV 0#8 (illDetail 0x39#8 0 0)
    else .done (s.writeSpec (specOf x.a) v))) s := rfl

end

theorem Opnd_after_levelH (o : Opnd) (s : State) : (o.after s).levelH = s.levelH := by
  simp only [State.levelH, State.stBits, Opnd_after_st]

/-- An `msv` of a register other than TVEC that changes the context alone completes with that context. -/
theorem msv_completes {x : Args} {s : State} {n : Nat} {c : Ctx} (e : s.enabled x.h = true) (fixed : s.thr.res.fixed = [])
    (ready : x.b.ready s = true) (is : specOf x.a = n) (other : n ≠ 0x0E)
    (writes : (x.b.after s).writeSpec n (x.b.val s) = (x.b.after s).mapCtx fun _ => c) (pc : c.pc = (x.b.after s).pc) :
    ∃ u, exec (.msv x) s = .next u ∧ Completed s u c := by
  subst is
  refine issue_done (exec_msv x s) e (t := (x.b.after s).mapCtx fun _ => c) ?_ ((CtxOnly.after _ _).trans (CtxOnly.mapCtx _ _))
    (pc.trans (Opnd_after_pc _ _)) (Opnd_after_final _ _ _)
  rw [withAllFixed_none fixed, withSrc_ready ready, if_neg (by simp [other]), writes]

/-- Settles O9: once earlier results have landed where that is asked for, the register is read into A, or its writable fields take the
source. -/
theorem specialRegisterAccess : Obligations.SpecialRegisterAccess := by
  unfold Obligations.SpecialRegisterAccess
  intro x s e
  refine ⟨fun free early => ?_, fun fixed ready => ⟨?_, fun tvec u n => ?_⟩⟩
  · refine issue_done (exec_mvs x s) e (t := s.writeFixed x.a.rix (s.spec (specOf x.b)) 4 x.h) ?_ (CtxOnly.writeFixed _ _ _ _ _)
      (State.writeFixed_pc _ _ _ _ _) (State.writeFixed_final _ _ _ _ _)
    rcases early with other | fixed
    · rw [if_neg other, withDest_free free]
    · rw [withAllFixed_none fixed, withDest_free free, ite_self]
  · simp only [List.forall_mem_cons, List.not_mem_nil, false_imp_iff, implies_true, and_true]
    refine ⟨?_, ?_, ?_, ?_, ?_, ?_⟩ <;> exact fun is => msv_completes e fixed ready is (by decide) rfl rfl
  · refine issue_trap (exec_msv x s) e ?_ u n
    rw [withAllFixed_none fixed, withSrc_ready ready, if_pos (by simp [tvec, Opnd_after_levelH, u])]
    rfl

/-! ### Words that are no instruction (R37, R38, R69) -/

/-- The detail word of an ILL from its fields (R38). -/
theorem illDetail_fields (op : BitVec 8) (why : BitVec 4) (fld : BitVec 2) :
    illDetail op why.toNat fld.toNat = (op.setWidth 64 <<< 16) ||| (fld.setWidth 64 <<< 6) ||| why.setWidth 64 := by
  have low : BitVec.ofNat 64 (fld.toNat * 64 + why.toNat) = (fld.setWidth 64 <<< 6) ||| why.setWidth 64 := by
    revert why fld; decide
  rw [illDetail, low, BitVec.or_assoc]

/-- The majors that level H alone may execute are assigned (R36). -/
theorem opAssigned_of_opHOnly {op : Nat} (h : opHOnly op = true) : opAssigned op = true := by
  simp only [opHOnly, opAssigned, Bool.or_eq_true] at h ⊢
  rcases h with h | h <;> simp [h]

/-- A major that level H alone may execute is refused at level U whatever else the word holds (R37 row 5). -/
theorem decodeAt_priv {w : IWord} (h : opHOnly (w.extractLsb' 88 8).toNat = true) : decodeAt false w = .error .priv := by
  have nonzero : w ≠ 0#96 := by
    rintro rfl
    cases h
  simp only [decodeAt, if_neg nonzero, opAssigned_of_opHOnly h, h]
  rfl

theorem exec_tretRetry (x : Args) (s : State) : exec (.tretRetry x) s = issue x.h (tretTo fun a => a) s := rfl

theorem exec_tretNext (x : Args) (s : State) : exec (.tretNext x) s = issue x.h (tretTo fun a => a + 12#64) s := rfl

/-- Outside a handler there is nothing to return from (R69). -/
theorem tretTo_outside (back : Word → Word) {s : State} (n : s.trin = false) : tretTo back s = .trap tILL 0#8 0xA000B#64 := by
  rw [tretTo, n]; rfl

/-- Settles O16: the decoder's first rows name the rejection, and what is raised is a trap of the thread that issues. -/
theorem illegalAndPrivilegedWords : Obligations.IllegalAndPrivilegedWords := by
  unfold Obligations.IllegalAndPrivilegedWords
  refine ⟨fun x s e u n => ?_, fun _ => rfl, fun w lvl nonzero reserved => ?_, fun w h => ?_, fun s w u n => ⟨?_, fun why fld => ?_⟩⟩
  · simp only [List.forall_mem_cons, List.not_mem_nil, false_imp_iff, implies_true, and_true]
    exact ⟨issue_trap (exec_tretRetry x s) e (tretTo_outside _ n) u n, issue_trap (exec_tretNext x s) e (tretTo_outside _ n) u n⟩
  · simp only [decodeAt, if_neg nonzero, reserved]
    rfl
  · exact decodeAt_priv (by simpa [opHOnly] using h)
  · have detail : illDetail (w.extractLsb' 88 8) 0 0 = (w.extractLsb' 88 8).setWidth 64 <<< 16 := by simp [illDetail]
    exact detail ▸ finish_trap issueless tPRIV 0#8 (illDetail (w.extractLsb' 88 8) 0 0) u n
  · exact illDetail_fields _ why fld ▸ finish_trap issueless tILL 0#8 (illDetail (w.extractLsb' 88 8) why.toNat fld.toNat) u n

end Sys2Proof.Machine
end

section
/-! ### An answer that lands lets a line write-back go on (O17)

R76: the write-back of a line waits while the ember cache has no room for its image, and the wait ends when a result lands. Making room
writes the least recently used ember image to its record, which stands in storage. So where such a write-back waits, memory after the
answer of a load has landed is not as the load left it. -/

namespace Sys2Proof.Machine

/-- A thread of core 0 and task 0 whose registers hold 1; its record stands in storage at `0x100000 + 256 * n`. -/
def attachedThread (n : Nat) (place : Place) (backDue : Bool) : Thread :=
  { ctx := { placedThread.ctx with cxa := BitVec.ofNat 64 (0x100000 + 256 * n), x := Vector.replicate 16 1#64 }
    place := place, wait := .ready, backDue := backDue }

/-- The thread that issues is attached to a core whose ember cache is full and where the write-back of a line waits for room. -/
def emberFull : State :=
  let s := State.reset.withFetchWord 96 0
  { s with
    thr := { s.thr with ctx := s.thr.ctx.writeX 4#4 0x1000#64 }
    pool := attachedThread 0 (.line 1) true :: (List.range 256).map fun n => attachedThread (n + 1) .ember false }

/-- `x5` from the address in `x4`. -/
def loadArgs : Args := ⟨⟨false, 0#3, 0#4, 0#2, false⟩, .reg 5#4 false false false, .reg 4#4 false false false, .imm 0#21⟩

/-- The load meets every condition of the statement: it can issue, and its place is storage of another core's home, open and clean. -/
theorem emberFull_loads : emberFull.enabled loadArgs.h = true ∧ loadArgs.readyBC emberFull = true ∧ emberFull.inLine = true ∧
    (loadArgs.afterBC emberFull).reaches nLoad (loadArgs.ea emberFull) 8 8
      = some (.mem 0x1000 1 true 0xF800000000000000#64, emberFull) ∧
    loadArgs.a.free emberFull = true ∧ emberFull.homeOpen 0x1000 1 = true ∧ emberFull.poisoned 0x1000 8 = false := by
  decide +kernel

/-- A byte once a blocking access has been performed, and once its answer has landed. -/
def byteAsAnswered (i : Instr) (s : State) (a : Nat) : Option (Byte × Byte) :=
  match exec i s with
  | .next u =>
    match exec (.resultLand s.owed.length) u with
    | .next v => some (Memory.readByte u.mem a, Memory.readByte v.mem a)
    | _ => none
  | _ => none

/-- The first byte of the record of the ember image that makes room: it is written when the answer lands. -/
theorem byteAsAnswered_emberFull : byteAsAnswered (.lda .thr loadArgs) emberFull 0x100100 = some (0#8, 1#8) := by decide +kernel

/-- Refutes O17: where a line write-back waits for room in the ember cache, an answer that lands lets it go on (R76), and a byte of the
record that makes room changes with it. -/
theorem not_loadsReadTheirHome : ¬ Obligations.LoadsReadTheirHome := by
  unfold Obligations.LoadsReadTheirHome
  intro h
  obtain ⟨enabled, ready, line, reaches, free, opened, clean⟩ := emberFull_loads
  obtain ⟨-, lda, -⟩ := h loadArgs emberFull emberFull 0x1000 1 true 0xF800000000000000#64 enabled ready line
  obtain ⟨u, loaded, -, -, v, t, landed, -, -, -, kept⟩ := lda .thr reaches free ⟨opened, clean⟩
  have bytes := byteAsAnswered_emberFull
  simp only [byteAsAnswered, loaded, landed, kept.1, Option.some.injEq, Prod.mk.injEq] at bytes
  exact absurd (bytes.1.symm.trans bytes.2) (by decide)

end Sys2Proof.Machine
end

section
/-! ### Branches, software traps, and the ways out of a handler (O12, O13, O14) -/

namespace Sys2Proof.Machine

section
variable (x : Args) (s : State)

theorem exec_br : exec (.br x) s = issue x.h (fun s => .jump s (s.branchTo x.a)) s := rfl

theorem exec_trap : exec (.trap x) s = issue x.h (fun _ => .trap tSWT 0#8 x.a.immW) s := rfl

theorem exec_brk : exec (.brk x) s = issue x.h (fun s =>
    .stay (((s.setPc (s.pc + 12#64)).dropThr cDBG s.thr.ctx.cxa).sendFlue s.thr.core cDBG s.thr.ctx.cxa x.a.immW)) s := rfl

end

/-- Settles O14: the body jumps to the target of the relative transfer, and a disabled issue completes. -/
theorem relativeBranch : Obligations.RelativeBranch := by
  unfold Obligations.RelativeBranch
  intro x s
  refine ⟨fun e => ?_, fun d => ?_⟩
  · rw [← State.branchTo_eq]
    exact issue_jump (exec_br x s) e rfl (CtxOnly.refl s) rfl
  · exact disabledWordOnlyAdvances (.br x) x s rfl d

/-- A user trap at level H or in a handler drops the thread as it stands and sends one ESC (R58, R352). -/
theorem finish_trap_escalates {s : State} (h : Head) (code : BitVec 8) (detail : Word) (esc : s.trin = true ∨ s.levelH = true) :
    let u := Eff.finish h s (.trap code 0#8 detail)
    Leaves s u s.thr.ctx ∧ SameThread s u ∧ u.thr.wait = .dropped ⟨cESC, s.thr.ctx.cxa⟩ ∧
      u = { s with thr := u.thr, flue := u.flue, serial := u.serial } ∧
      ∃ f, u.flue = s.flue ++ [f] ∧ f.cause = cESC ∧ f.d1 = cxaBits s.thr.ctx.cxa ||| code.setWidth 64 ∧ f.d2 = detail := by
  have escalates : Eff.finish h s (.trap code 0#8 detail) =
      (({ s with serial := s.serial + 1 } : State).mapRes fun r => { r with record := none, fill := none }).escalate code 0#8 detail :=
    State.takeTrap_escalates _ _ _ esc.symm
  rw [escalates]
  exact ⟨Thread.unbind_final s.thr, ⟨rfl, rfl, rfl⟩, rfl, rfl, _, rfl, rfl, BitVec.or_zero, rfl⟩

/-- Settles O12: SWT is a user trap like any other, taken outside a handler at level U and escalated elsewhere. -/
theorem softwareTrapEntry : Obligations.SoftwareTrapEntry := by
  unfold Obligations.SoftwareTrapEntry
  intro x s
  refine ⟨fun e u n => ?_, fun e esc => ?_, fun d => ?_⟩
  · exact issue_trap (exec_trap x s) e rfl u n
  · exact ⟨_, (exec_trap x s).trans (issue_enabled e), finish_trap_escalates x.h tSWT x.a.immW esc⟩
  · exact disabledWordOnlyAdvances (.trap x) x s rfl d

/-- In a handler a return goes back to where TRA says (R69). -/
theorem tretTo_inside (back : Word → Word) {s : State} (n : s.trin = true) : tretTo back s = .jump s.leaveTrap (back s.thr.ctx.tra) :=
  if_pos n

/-- Leaving a handler changes the thread's context and resume state alone. -/
theorem CtxOnly.leaveTrap (s : State) : CtxOnly s s.leaveTrap := (CtxOnly.mapCtx _ _).trans (CtxOnly.mapRes _ _)

/-- Settles O13: a return is a jump that clears TRIN; `brk` stays where it has advanced to, dropped. -/
theorem handlerReturnAndBreak : Obligations.HandlerReturnAndBreak := by
  unfold Obligations.HandlerReturnAndBreak
  intro x s e
  refine ⟨fun n => ⟨?_, ?_⟩, ?_⟩
  · exact issue_jump (exec_tretRetry x s) e (tretTo_inside _ n) (CtxOnly.leaveTrap s) rfl
  · exact issue_jump (exec_tretNext x s) e (tretTo_inside _ n) (CtxOnly.leaveTrap s) rfl
  · exact ⟨_, (exec_brk x s).trans (issue_enabled e), Thread.unbind_final (s.setPc (s.pc + 12#64)).thr, ⟨rfl, rfl, rfl⟩, rfl, rfl, _, rfl,
      rfl, rfl, rfl⟩

end Sys2Proof.Machine
end

section
/-! ### An atomic's answer that lands lets a line write-back go on (O21)

As for O17: memory after the answer of an atomic has landed is not as the atomic left it where a write-back of a line waits for room. -/

namespace Sys2Proof.Machine

/-- The atomic meets every condition of the statement: it can issue, and its word is storage of another core's home, open, clean and
watched by nobody. -/
theorem emberFull_adds : Memory.wf emberFull.mem = true ∧ emberFull.enabled loadArgs.h = true ∧ loadArgs.readyBC emberFull = true ∧
    loadArgs.a.ready (loadArgs.afterBC emberFull) = true ∧ emberFull.inLine = true ∧ loadArgs.a.free emberFull = true ∧
    emberFull.homeOpen 0x1000 1 = true ∧ emberFull.unwatched 0x1000 8 = true ∧
    (loadArgs.a.after (loadArgs.afterBC emberFull)).reaches (nAmo true) (loadArgs.ea emberFull) 8 8
      = some (.mem 0x1000 1 true 0xF800000000000000#64, emberFull) ∧ emberFull.poisoned 0x1000 8 = false := by
  decide +kernel

theorem byteAsAnswered_add_emberFull : byteAsAnswered (.amoAdd loadArgs) emberFull 0x100100 = some (0#8, 1#8) := by decide +kernel

/-- Refutes O21: where a line write-back waits for room in the ember cache, the answer of an atomic that lands lets it go on (R76), and
a byte of the record that makes room changes with it. -/
theorem not_atomicsAtTheirHome : ¬ Obligations.AtomicsAtTheirHome := by
  unfold Obligations.AtomicsAtTheirHome
  intro h
  obtain ⟨inv, enabled, ready, source, line, free, opened, unwatched, reaches, clean⟩ := emberFull_adds
  obtain ⟨amo, -⟩ := h loadArgs emberFull emberFull 0x1000 1 true 0xF800000000000000#64 inv enabled ready source line free opened unwatched
  obtain ⟨u, added, -, ⟨v, t, landed, -, -, -, kept⟩, -⟩ := amo (.amoAdd loadArgs, 0) List.mem_cons_self reaches clean
  have bytes := byteAsAnswered_add_emberFull
  simp only [byteAsAnswered, added, landed, kept.1, Option.some.injEq, Prod.mk.injEq] at bytes
  exact absurd (bytes.1.symm.trans bytes.2) (by decide)

end Sys2Proof.Machine
end

section
/-! ### A kept translation is not checked again (O22)

R357: an instruction that waits on draught keeps the translation it has. R141 step 4 is part of that translation, and CMPART can move the end
of a window while the thread waits. -/

namespace Sys2Proof.Machine

/-- A word at offset 0x20000 of the window of core 3. -/
def windowWord : Word := 0x0080000000320000#64

/-- A user thread of core 2 whose next load is of that word. -/
def windowLoad : State :=
  let s := State.reset.withFetchWord 96 0
  { (s.setCore 2 fun c => { c with sets := [placedSet] }) with
    thr := { s.thr with core := 2, ctx := { s.thr.ctx.writeX 4#4 windowWord with st := 0#64 } } }

/-- What the port translates the access to, as the thread keeps it over a wait on draught (R357). -/
def keptTranslation : Held :=
  ⟨windowLoad.pc, windowWord.toNat, .mem (coreAddr 3 0x20000) 3 false 0#64, windowLoad.portGen.1, windowLoad.portGen.2⟩

theorem keptTranslation_located : windowLoad.locate windowLoad.me nLoad windowWord.toNat 8 = .loc keptTranslation.loc windowLoad := by
  decide +kernel

/-- The thread has waited on draught; meanwhile CMPART of core 3 has left it 64 KiB of scratchpad. -/
def windowShrunk : State :=
  (windowLoad.mapRes fun r => { r with held := [keptTranslation] }).setCore 3 fun c => { c with cmpart := 1#64 }

/-- The load meets every condition of the statement, and its bytes lie in no accessible region any more. -/
theorem windowShrunk_loads : windowShrunk.enabled loadArgs.h = true ∧ windowShrunk.levelH = false ∧ windowShrunk.trin = false ∧
    loadArgs.readyBC windowShrunk = true ∧ loadArgs.a.ready (loadArgs.afterBC windowShrunk) = true ∧
    (loadArgs.a.after (loadArgs.afterBC windowShrunk)).regReady (loadArgs.a.rix + 1#4) = true ∧
    windowShrunk.cachedSet windowShrunk.thr.core windowShrunk.task = some placedSet ∧ (loadArgs.ea windowShrunk).toNat % 8 = 0 ∧
    windowShrunk.area windowShrunk.levelH nLoad ((placedSet.seg ((loadArgs.ea windowShrunk).toNat / 2 ^ 61)).1.toNat % 2 ^ 56 +
      (loadArgs.ea windowShrunk).toNat % 2 ^ 61) 8 = .none := by
  decide +kernel

/-- TRC of the thread that issued. -/
def trcAfter (i : Instr) (s : State) : Option Word :=
  match exec i s with
  | .next u => some u.thr.ctx.trc
  | _ => none

/-- The access goes on with the translation it has kept: no trap code is saved. -/
theorem trcAfter_windowShrunk : trcAfter (.ld .i64 loadArgs) windowShrunk = some 0#64 := by decide +kernel

/-- Refutes O22: an access that has waited on draught keeps its translation (R357), so the region it names is not checked again, though
the window it lies in may have shrunk since. -/
theorem not_accessChecksInOrder : ¬ Obligations.AccessChecksInOrder := by
  unfold Obligations.AccessChecksInOrder
  intro h
  obtain ⟨enabled, user, noHandler, ready, source, next, set, aligned, outside⟩ := windowShrunk_loads
  have checks := h .i64 loadArgs windowShrunk placedSet enabled user noHandler ready source next set _ List.mem_cons_self
  obtain ⟨u, loaded, leaves, -⟩ := checks.2 aligned (.inr (.inr (.inr outside)))
  have trc := trcAfter_windowShrunk
  simp only [trcAfter, loaded, Option.some.injEq] at trc
  have saved := congrArg Ctx.trc leaves
  exact absurd (trc.symm.trans saved) (by decide)

end Sys2Proof.Machine
end

section
/-! ### A result that lands in a record of a memory that is not canonical (O46)

The clause of RESULT_LAND for a thread whose image is in its record says what memory reads after a write, and, unlike the clauses of
INBOX_ENQUEUE and DONE_ADD_RETRY, does not ask for `State.Inv`. -/

namespace Sys2Proof.Machine

/-- A thread of core 0 whose image is in its record, at 0x100000. -/
def recordThread : Thread := attachedThread 0 .record false

/-- A zero on its way to `x0` of that thread. -/
def owedZero : Owed := ⟨0, recordThread.ctx.cxa, .xreg 0#4, 0#64, 0#5⟩

/-- The low byte of `x0` in the record is listed behind a cell of a higher address. -/
def unsortedRecord : State :=
  { State.reset.withFetchWord 96 0 with
    pool := [recordThread], owed := [owedZero], mem := [(0x200000, 1#8), (0x100000, 1#8)] }

/-- The result meets every condition of the clause; the memory is not in its canonical form. -/
theorem unsortedRecord_owes : unsortedRecord.findThr 0 recordThread.ctx.cxa = some recordThread ∧
    unsortedRecord.owed[0]? = some owedZero ∧ (∀ v ∈ unsortedRecord.attached 0, v.backDue = false) ∧
    (unsortedRecord.core 0).dead = false ∧ unsortedRecord.recordHome recordThread = some 0x100000 ∧
    unsortedRecord.recordNear 0 (recordThread.ctx.st.extractLsb' 16 16) recordThread.ctx.cxa = true ∧
    Memory.wf unsortedRecord.mem = false := by
  decide +kernel

/-- The first byte of the record once the result has landed. -/
def recordByteLanded : Option Byte :=
  match exec (.resultLand 0) unsortedRecord with
  | .next u => some (Memory.readByte u.mem 0x100000)
  | _ => none

/-- Writing the zero unlists a byte that is not found where its address would stand: it still reads 1. -/
theorem recordByteLanded_eq : recordByteLanded = some 1#8 := by decide +kernel

/-- The image that the clause asks for has the zero there. -/
theorem owedZero_image :
    (owedZero.land (unsortedRecord.loadRecord 0x100000 recordThread)).ctx.toBytes.head? = some 0#8 := by
  decide +kernel

/-- Refutes O46: the clause of a result that lands in a record asks what memory reads after a write of any state, also of one whose memory
is not canonical (`State.Inv`), where a byte that is overwritten can read as before. -/
theorem not_threadEvents : ¬ Obligations.ThreadEvents := by
  unfold Obligations.ThreadEvents
  intro h
  obtain ⟨found, owed, noneDue, alive, home, near, -⟩ := unsortedRecord_owes
  obtain ⟨-, -, -, resultLand, -⟩ := (h unsortedRecord).1 0 recordThread.ctx.cxa recordThread found
  have lands := resultLand 0 owedZero owed rfl rfl (fun _ reply => nomatch reply) noneDue
  obtain ⟨u, landed, -, -, image, -⟩ := (lands.2 alive).2 0x100000 rfl rfl rfl home near
  have byte := recordByteLanded_eq
  simp only [recordByteLanded, landed, Option.some.injEq] at byte
  have first : some (Memory.readByte u.mem 0x100000) = some 0#8 := (congrArg List.head? image).trans owedZero_image
  rw [byte] at first
  exact absurd first (by decide)

end Sys2Proof.Machine
end

section
/-! ### An answer that lands lets a line write-back go on (O18, O35)

As for O17 and O21: memory after the answer of a waiting read or of a `gset` has landed is not as the access left it where a write-back
of a line waits for room. -/

namespace Sys2Proof.Machine

/-- The access that `loadArgs` names lies in `emberFull` at a home that is open, clean and watched by nobody, under the needs of
`wtw` and of `gset`. -/
theorem emberFull_reaches : Memory.wf emberFull.mem = true ∧ emberFull.enabled loadArgs.h = true ∧ loadArgs.readyBC emberFull = true ∧
    emberFull.inLine = true ∧ loadArgs.a.ready (loadArgs.afterBC emberFull) = true ∧ loadArgs.a.free emberFull = true ∧
    emberFull.homeOpen 0x1000 1 = true ∧ emberFull.poisoned 0x1000 8 = false ∧ emberFull.poisoned 0x1000 64 = false ∧
    emberFull.unwatched 0x1000 64 = true ∧
    (loadArgs.a.after (loadArgs.afterBC emberFull)).reaches nWtw (loadArgs.ea emberFull) 8 8
      = some (.mem 0x1000 1 true 0xF800000000000000#64, emberFull) ∧
    (loadArgs.afterBC emberFull).reaches nGset (loadArgs.ea emberFull) 64 64
      = some (.mem 0x1000 1 true 0xF800000000000000#64, emberFull) := by
  decide +kernel

/-- The word that the wait is on is at least the comparand. -/
theorem emberFull_meets : (loadArgs.a.val emberFull).toNat ≤ (emberFull.readWord 0x1000).toNat := by decide +kernel

theorem byteAsAnswered_wtwGe_emberFull : byteAsAnswered (.wtwGe loadArgs) emberFull 0x100100 = some (0#8, 1#8) := by decide +kernel

/-- An answer after which a byte of the access has changed is no answer that keeps memory. -/
theorem not_answered_of_byteAsAnswered {i : Instr} {s u : State} {a : Nat} {b d : Byte} (issued : exec i s = .next u)
    (bytes : byteAsAnswered i s a = some (b, d)) (changed : b ≠ d) (c : Ctx) : ¬ Answered s u c := by
  rintro ⟨v, t, landed, -, -, -, kept⟩
  simp only [byteAsAnswered, issued, landed, kept.1, Option.some.injEq, Prod.mk.injEq] at bytes
  exact changed (bytes.1.symm.trans bytes.2)

/-- Refutes O18: where a line write-back waits for room in the ember cache, the answer of a `wtw.ge` that lands lets it go on (R76), and
a byte of the record that makes room changes with it. -/
theorem not_waitingReadsProceed : ¬ Obligations.WaitingReadsProceed := by
  unfold Obligations.WaitingReadsProceed
  intro h
  obtain ⟨-, enabled, ready, line, source, free, opened, clean, -, -, reaches, -⟩ := emberFull_reaches
  obtain ⟨-, wtw⟩ := h loadArgs emberFull emberFull 0x1000 1 true 0xF800000000000000#64 enabled ready line
  obtain ⟨u, issued, -, -, answered⟩ := (wtw source reaches free opened clean).2 emberFull_meets
  exact not_answered_of_byteAsAnswered issued byteAsAnswered_wtwGe_emberFull (by decide) _ answered

theorem emberFull_zeroBlock : gclass (emberFull.readMem 0x1000 64) none = .zero := by decide +kernel

theorem byteAsAnswered_gsetZero_emberFull : byteAsAnswered (.gsetZero loadArgs) emberFull 0x100100 = some (0#8, 1#8) := by
  decide +kernel

/-- Refutes O35: where a line write-back waits for room in the ember cache, the acknowledgment of a `gset.zero` that lands lets it go on
(R76), and a byte of the record that makes room changes with it. -/
theorem not_singleBlockInstructions : ¬ Obligations.SingleBlockInstructions := by
  unfold Obligations.SingleBlockInstructions
  intro h
  obtain ⟨inv, enabled, ready, line, -, -, opened, -, clean, unwatched, -, reaches⟩ := emberFull_reaches
  have block := emberFull_zeroBlock
  obtain ⟨-, gset, -⟩ := h loadArgs emberFull emberFull 0x1000 1 true 0xF800000000000000#64 inv enabled ready line
    (by rw [block]; decide) (by rw [block]; decide) opened clean
  obtain ⟨⟨u, issued, -, answered, -⟩, -⟩ := gset rfl (by decide +kernel) unwatched reaches
  exact not_answered_of_byteAsAnswered issued byteAsAnswered_gsetZero_emberFull (by decide) _ answered

end Sys2Proof.Machine
end

section
/-! ### A table base written by the hearth of a fatal die (O53)

R416 makes the stokers of a die ready when its hearth writes TSKB; R418 keeps a die that has become fatal from becoming ready. -/

namespace Sys2Proof.Machine

/-- Die 0 is fatal, and a write of TSKB by its hearth core has not taken effect. -/
def fatalDieWrite : State := { State.reset with rdyd := 1#64 <<< 24, sysWrites := [⟨0, 0#64, 0, 0, 0#64⟩] }

/-- RDYD once the write has taken effect. -/
def rdydAfter (i : Instr) (s : State) : Option Word :=
  match exec i s with
  | .next u => some u.rdyd
  | _ => none

/-- The stokers of the fatal die do not become ready. -/
theorem rdydAfter_fatalDieWrite : rdydAfter (.tableBaseWrite 0 0 0#64) fatalDieWrite = some fatalDieWrite.rdyd := by decide +kernel

theorem fatalDieWrite_oldest : fatalDieWrite.sysWrites.find?
    (fun w => w.index == 0 && decide (0 ≤ 3) && fatalDieWrite.coreDie w.core == 0 && w.val == 0#64) = some ⟨0, 0#64, 0, 0, 0#64⟩ := by
  decide +kernel

/-- Refutes O53: a write of TSKB by the hearth of a fatal die does not make its stokers ready (R418), where the statement sets their bit of
RDYD. -/
theorem not_systemRegisterWrites : ¬ Obligations.SystemRegisterWrites := by
  unfold Obligations.SystemRegisterWrites
  intro h
  obtain ⟨base, -⟩ := h fatalDieWrite 0 0#64 ⟨0, 0#64, 0, 0, 0#64⟩ rfl
  obtain ⟨u, issued, -, tskb, -⟩ := base 0 ⟨fatalDieWrite_oldest, rfl⟩
  have ready := rdydAfter_fatalDieWrite
  simp only [rdydAfter, issued, (tskb rfl).2.2, Option.some.injEq] at ready
  exact absurd ready (by decide +kernel)

end Sys2Proof.Machine
end

section
/-! ### Words that change a core or the thread's resume state and complete (O28, O29)

`finish_done_only`, `finish_done_same` and `finish_done_leaves` say what a completion adds to the state that the body of a word ends with:
PC advances, and nothing but the thread and a run queue is touched. -/

namespace Sys2Proof.Machine

theorem MemKept.refl (s : State) : MemKept s s := ⟨fun _ => rfl, fun _ => rfl, rfl⟩

theorem MemKept.trans {s t u : State} (a : MemKept s t) (b : MemKept t u) : MemKept s u := by
  obtain ⟨bytes, full, poison⟩ := a
  obtain ⟨bytes', full', poison'⟩ := b
  exact ⟨fun n => (bytes' n).trans (bytes n), fun n => (full' n).trans (full n), poison'.trans poison⟩

/-- Storage that is the same lists reads the same. -/
theorem MemKept.of_eq {s t : State} (mem : t.mem = s.mem) (empties : t.empties = s.empties) (poison : t.poison = s.poison) : MemKept s t :=
  ⟨fun _ => by rw [mem], fun _ => by simp only [State.isFull, empties], poison⟩

theorem SameThread.refl (s : State) : SameThread s s := ⟨rfl, rfl, rfl⟩

theorem SameThread.trans {s t u : State} (a : SameThread s t) (b : SameThread t u) : SameThread s u := by
  obtain ⟨core, place, pin⟩ := a
  obtain ⟨core', place', pin'⟩ := b
  exact ⟨core'.trans core, place'.trans place, pin'.trans pin⟩

theorem CtxOnly.same {s t : State} (a : CtxOnly s t) : SameThread s t := by
  obtain ⟨c, r, rfl⟩ := a
  exact ⟨rfl, rfl, rfl⟩

theorem CtxOnly.kept {s t : State} (a : CtxOnly s t) : MemKept s t := by
  obtain ⟨c, r, rfl⟩ := a
  exact .refl s

theorem CtxOnly.core_eq {s t : State} (a : CtxOnly s t) (n : Nat) : t.core n = s.core n := by
  obtain ⟨c, r, rfl⟩ := a
  rfl

/-- `t` differs from `s` in the full/empty bits of the registers of the thread that issues only. -/
def FeOnly (s t : State) : Prop := ∃ fe, t = s.mapCtx fun c => { c with fe := fe }

theorem FeOnly.trans {s t u : State} (a : FeOnly s t) (b : FeOnly t u) : FeOnly s u := by
  obtain ⟨fe, rfl⟩ := a
  obtain ⟨fe', rfl⟩ := b
  exact ⟨fe', rfl⟩

/-- Reading an operand empties a register at most (R30). -/
theorem FeOnly.after (o : Opnd) (s : State) : FeOnly s (o.after s) := by
  cases o with
  | reg r sync n v => cases sync <;> exact ⟨_, rfl⟩
  | _ => exact ⟨s.thr.ctx.fe, rfl⟩

theorem FeOnly.afterBC (x : Args) (s : State) : FeOnly s (x.afterBC s) := (FeOnly.after x.b s).trans (FeOnly.after x.c _)

section
variable {s t : State} (a : FeOnly s t)
include a

theorem FeOnly.ctxOnly : CtxOnly s t := by
  obtain ⟨fe, rfl⟩ := a
  exact CtxOnly.mapCtx _ _

theorem FeOnly.core_eq (n : Nat) : t.core n = s.core n := a.ctxOnly.core_eq n

theorem FeOnly.thr_core : t.thr.core = s.thr.core := a.ctxOnly.same.1

theorem FeOnly.cxa : t.thr.ctx.cxa = s.thr.ctx.cxa := by
  obtain ⟨fe, rfl⟩ := a
  rfl

theorem FeOnly.pc : t.pc = s.pc := by
  obtain ⟨fe, rfl⟩ := a
  rfl

theorem FeOnly.res : t.thr.res = s.thr.res := by
  obtain ⟨fe, rfl⟩ := a
  rfl

/-- What the thread is left with, once its outstanding results have landed. -/
theorem FeOnly.final (f : Ctx → Ctx) : (t.mapCtx f).thr.final = (f t.thr.ctx).orFlags (flagsOf s.thr.res.fixed) := by
  rw [← a.res]
  rfl

theorem FeOnly.aheadOf (r : Resource) : t.aheadOf r = s.aheadOf r := by
  obtain ⟨fe, rfl⟩ := a
  rfl

end

theorem State.writeFixed_of_le (r : BitVec 4) (v : Word) {lat : Nat} (short : lat ≤ 8) (h : Head) (s : State) :
    s.writeFixed r v lat h = s.writeX r v := by
  rw [State.writeFixed, if_pos short]

theorem State.yieldThr_join (s : State) : s.yieldThr.thr.res.join = s.thr.res.join := by
  unfold State.yieldThr
  dsimp only
  split <;> rfl

theorem State.retire_join (h : Head) (j : Bool) (s : State) : (s.retire h j).thr.res.join = s.thr.res.join := by
  by_cases yields : (h.yl && !s.thr.parked) = true
  · have e : s.retire h j = State.yieldThr _ := if_pos yields
    rw [e, State.yieldThr_join]
    cases j <;> rfl
  · have e : s.retire h j = _ := if_neg yields
    rw [e]
    cases j <;> rfl

/-- A change of a core that leaves a part of it alone leaves that part of every core. -/
theorem State.setCore_coreField {β : Type} {p : CoreSt → β} {f : CoreSt → CoreSt} (kept : ∀ c, p (f c) = p c) (k n : Nat) (s : State) :
    p ((s.setCore k f).core n) = p (s.core n) := by
  by_cases other : n = k
  · subst other
    rw [State.core_setCore, kept]
  · rw [State.core_setCore_other _ _ _ _ other]

/-- Near lines that are dropped leave the rest of every core. -/
theorem State.dropNear_coreField {β : Type} {p : CoreSt → β} (kept : ∀ c l, p { c with near := l } = p c) (k n : Nat) (s : State) :
    p ((s.dropNear k).core n) = p (s.core n) :=
  State.setCore_coreField (fun c => kept c _) k n s

/-! What a completion adds to the state that the body ends with -/

section
variable {h : Head} {s0 s t : State} {c : Ctx}

theorem finish_done_only : OnlyThread t (Eff.finish h s0 (.done t)) :=
  OnlyThread.of_ctxOnly (CtxOnly.mapCtx _ _) (State.retire_only h false _).1

theorem finish_done_same : SameThread t (Eff.finish h s0 (.done t)) :=
  SameThread.of_ctxOnly (CtxOnly.mapCtx _ _) (State.retire_only h false _).2.1

theorem finish_done_leaves (pc : t.pc = s.pc) (f : t.thr.final = c.orFlags (flagsOf s.thr.res.fixed)) :
    Leaves s (Eff.finish h s0 (.done t)) { c with pc := s.pc + 12#64 } := by
  have final : (t.setPc (t.pc + 12#64)).thr.final = { t.thr.final with pc := t.pc + 12#64 } := rfl
  obtain ⟨-, -, retired, -⟩ := State.retire_only h false (t.setPc (t.pc + 12#64))
  refine retired.trans ?_
  rw [final, f, pc]
  rfl

/-- Of a core, a completion leaves everything but the run queue. -/
theorem finish_done_coreField {β : Type} {f : CoreSt → β} (free : ∀ c q, f { c with runq := q } = f c) (n : Nat) :
    f ((Eff.finish h s0 (.done t)).core n) = f (t.core n) := by
  rw [finish_done_only.2.1 n, free]

/-- A word whose body ends with `done` where the thread and storage stand as before has advanced. -/
theorem finish_done_advanced (same : SameThread s t) (kept : MemKept s t) (pc : t.pc = s.pc)
    (f : t.thr.final = c.orFlags (flagsOf s.thr.res.fixed)) : Advanced s (Eff.finish h s0 (.done t)) c :=
  ⟨finish_done_leaves pc f, same.trans finish_done_same, kept.trans finish_done_only.2.2⟩

/-- A completion leaves the open join record. -/
theorem finish_done_join : (Eff.finish h s0 (.done t)).thr.res.join = t.thr.res.join := State.retire_join _ _ _

end

/-! ### Join records and pins (R104, R105) -/

section
variable (x : Args) (s : State)

theorem exec_fork : exec (.fork x) s = execFork x s := rfl

theorem exec_rdv : exec (.rdv x) s = execRdv x s := rfl

theorem exec_cpinOn : exec (.cpinOn x) s = execCpinOn x s := rfl

theorem exec_cpinOff : exec (.cpinOff x) s = execCpinOff x s := rfl

end

/-- The thread takes join record `i` of its core for `n` completions (R104). -/
def State.openJoin (i n : Nat) (s : State) : State :=
  (s.setCore s.thr.core fun c => { c with joins := c.joins ++ [⟨i, n, 0, 0, 0#64, s.thr.ctx.cxa⟩] }).mapRes fun r => { r with join := some i }

/-- The thread gives join record `i` of its core back (R104). -/
def State.closeJoin (i : Nat) (s : State) : State :=
  (s.setCore s.thr.core fun c => { c with joins := c.joins.filter fun j => j.idx != i }).mapRes fun r => { r with join := none }

theorem State.openJoin_joins (i n : Nat) (s : State) :
    ((s.openJoin i n).core s.thr.core).joins = (s.core s.thr.core).joins ++ [⟨i, n, 0, 0, 0#64, s.thr.ctx.cxa⟩] := by
  show ((s.setCore s.thr.core fun c => { c with joins := _ }).core s.thr.core).joins = _
  rw [State.core_setCore]

theorem State.closeJoin_joins (i : Nat) (s : State) :
    ((s.closeJoin i).core s.thr.core).joins = (s.core s.thr.core).joins.filter fun j => j.idx != i := by
  show ((s.setCore s.thr.core fun c => { c with joins := _ }).core s.thr.core).joins = _
  rw [State.core_setCore]

section
variable {x : Args} {s : State}

theorem exec_fork_opens {i : Nat} (e : s.enabled x.h = true) (ready : x.b.ready s = true) (noJoin : s.thr.res.join = none)
    (low : 1 ≤ (x.b.val s).toNat) (high : (x.b.val s).toNat ≤ 255) (free : x.a.free (x.b.after s) = true)
    (fresh : freshFrom ((s.core s.thr.core).joins.map (·.idx)) 0 256 = some i)
    (room : s.aheadOf .joinFree < 256 - (s.core s.thr.core).joins.length) :
    exec (.fork x) s = .next (Eff.finish x.h s
      (.done (((x.b.after s).openJoin i (x.b.val s).toNat).writeX x.a.rix (field s.thr.core 8 ||| field i 0)))) := by
  have a := FeOnly.after x.b s
  rw [exec_fork, execFork, issue_enabled e, withSrc_ready ready, a.res, noJoin, if_neg (by simp), if_neg (by omega), withDest_free free]
  simp only [a.thr_core, a.core_eq, a.aheadOf, fresh, if_neg (Nat.not_le.2 room), State.writeFixed_of_le _ _ (show 4 ≤ 8 by decide)]
  rw [State.openJoin, a.thr_core]

theorem exec_rdv_closes {i : Nat} {j : JoinRec} (e : s.enabled x.h = true) (opened : s.thr.res.join = some i)
    (record : (s.core s.thr.core).joins.find? (fun j => j.idx == i) = some j) (complete : j.completed = j.n) (free : x.a.free s = true) :
    exec (.rdv x) s = .next (Eff.finish x.h s (.done (((s.closeJoin i).writeX x.a.rix j.status).dropNear s.thr.core))) := by
  rw [exec_rdv, execRdv, issue_enabled e]
  simp only [opened, withDest_free free, record, if_pos complete]
  rfl

end

/-- A word that sets the pin of its thread's line and writes a result leaves the rest of the machine alone. -/
theorem finish_pin (x : Args) (s : State) (b : Bool) (w : Word) :
    let u := Eff.finish x.h s (.done ((s.mapThr fun t => { t with pinC := b }).writeX x.a.rix w))
    u.thr.pinC = b ∧ u.thr.core = s.thr.core ∧ u.thr.place = s.thr.place ∧
      Leaves s u { (s.thr.ctx.writeX x.a.rix w) with pc := s.pc + 12#64 } ∧ OnlyThread s u := by
  obtain ⟨core, place, pin⟩ := finish_done_same (h := x.h) (s0 := s) (t := (s.mapThr fun t => { t with pinC := b }).writeX x.a.rix w)
  exact ⟨pin, core, place, finish_done_leaves rfl rfl, OnlyThread.of_thr _ finish_done_only⟩

/-- Settles O28: the operands are read, a record is taken, freed, or the pin changed, and the body completes. -/
theorem joinRecordsAndPins : Obligations.JoinRecordsAndPins := by
  unfold Obligations.JoinRecordsAndPins
  intro x s e
  refine ⟨?_, ?_, fun free => ⟨?_, ?_, ?_⟩⟩
  · intro v l i ready noJoin low high free fresh room
    have a := FeOnly.after x.b s
    refine ⟨_, exec_fork_opens e ready noJoin low high free fresh room, finish_done_join, finish_done_advanced ?_ ?_ ?_ ?_, ?_⟩
    · exact a.ctxOnly.same
    · exact a.ctxOnly.kept
    · exact a.pc
    · exact a.final _
    · rw [finish_done_coreField (f := CoreSt.joins) fun _ _ => rfl]
      show _ = (s.core s.thr.core).joins ++ _
      rw [← a.thr_core, ← a.cxa, ← a.core_eq]
      exact State.openJoin_joins i v (x.b.after s)
  · intro i j opened record complete free
    refine ⟨_, exec_rdv_closes e opened record complete free, finish_done_join, finish_done_advanced (.refl s) (.refl s) rfl rfl, ?_⟩
    rw [finish_done_coreField (f := CoreSt.joins) fun _ _ => rfl]
    exact (State.dropNear_coreField (p := CoreSt.joins) (fun _ _ => rfl) _ _ _).trans (State.closeJoin_joins i s)
  · intro room
    refine ⟨_, ?_, finish_pin x s true 1#64⟩
    rw [exec_cpinOn, execCpinOn, issue_enabled e, withDest_free free, if_pos (by simpa using room), State.writeFixed_of_le _ _ (by decide)]
  · intro full
    refine issue_done (exec_cpinOn x s) e (t := s.writeX x.a.rix 0#64) ?_ (CtxOnly.mapCtx _ _) rfl rfl
    rw [withDest_free free, if_neg (by simpa using full), State.writeFixed_of_le _ _ (by decide)]
  · refine ⟨_, ?_, finish_pin x s false 0#64⟩
    rw [exec_cpinOff, execCpinOff, issue_enabled e, withDest_free free, State.writeFixed_of_le _ _ (by decide)]

/-! ### Draught and fences (R106, R185, R216) -/

section
variable (x : Args) (s : State)

theorem exec_drq : exec (.drq x) s = execDrq x s := rfl

theorem exec_jdr (n : BitVec 4) : exec (.jdr n x) s = execJdr n x s := rfl

theorem exec_drn : exec (.drn x) s = execDrn x s := rfl

theorem exec_fence (sc : Scope) : exec (.fence sc x) s = execFence sc x s := rfl

end

theorem withRecorded_none {s : State} {k : Eff} (h : s.thr.res.fault = none) : withRecorded s k = k := by rw [withRecorded, h]

theorem withPerformed_done {sc : Scope} {dst : Option Nat} {far : Bool} {s : State} {k : Eff}
    (h : s.releaseBusy s.thr.core s.thr.ctx.cxa sc dst far s.grpNow = false) : withPerformed sc dst far s k = k := by
  rw [withPerformed, if_neg (by simp [h])]

/-- What a fence leaves of the state: near data lines go where it acquires, and later fetches are ordered behind it where it releases. -/
def State.fenceEnd (acq rel : Bool) (s : State) : State :=
  let t := if acq then s.dropNear s.thr.core else s
  if rel then t.mapRes fun r => { r with fenced := s.serial } else t

theorem State.fenceEnd_leaves (acq rel : Bool) (s : State) : SameThread s (s.fenceEnd acq rel) ∧ MemKept s (s.fenceEnd acq rel) ∧
    (s.fenceEnd acq rel).pc = s.pc ∧ (s.fenceEnd acq rel).thr.final = s.thr.final := by
  cases acq <;> cases rel <;> exact ⟨.refl s, .refl s, rfl, rfl⟩

/-- A fence whose classes are satisfied completes (R185). -/
theorem exec_fence_done {sc : Scope} {x : Args} {s : State} (e : s.enabled x.h = true)
    (stores : bit x.a.immW.toNat 1 = true →
      s.thr.res.fault = none ∧ s.releaseBusy s.thr.core s.thr.ctx.cxa sc none (bit x.a.immW.toNat 4) s.grpNow = false)
    (engines : bit x.a.immW.toNat 3 = true → s.thr.res.cmds = 0) :
    ∃ acq rel, exec (.fence sc x) s = .next (Eff.finish x.h s (.done (s.fenceEnd acq rel))) := by
  have noEngine : ¬ (bit x.a.immW.toNat 3 && decide (s.thr.res.cmds ≠ 0)) = true := by simpa using engines
  refine ⟨bit x.a.immW.toNat 0 && sc != .thr, bit x.a.immW.toNat 1 && sc != .thr, ?_⟩
  rw [exec_fence, execFence, issue_enabled e]
  simp only [if_neg noEngine]
  by_cases sts : bit x.a.immW.toNat 1 = true
  · obtain ⟨noFault, performed⟩ := stores sts
    rw [if_pos sts, withPerformed_done performed, withRecorded_none noFault, sts, Bool.true_and]
    rfl
  · rw [if_neg sts, Bool.eq_false_iff.2 sts, Bool.false_and]
    rfl

/-- Settles O29: the destination is read, and its allowance is written, compared or waited for; a satisfied fence falls through. -/
theorem draughtAndFences : Obligations.DraughtAndFences := by
  unfold Obligations.DraughtAndFences
  intro x s e
  refine ⟨fun ready known free => ?_, ?_⟩
  · intro s1 d al
    have a := FeOnly.after x.b s
    have dn : ¬ (!dnOk (x.b.val s)) = true := by simpa [dnOk] using known
    have allowance : ((x.b.after s).core (x.b.after s).thr.core).allowance (x.b.val s).toNat = al := by rw [a.thr_core, a.core_eq]
    refine ⟨?_, fun n => ⟨fun holds => ?_, fun fails => ?_⟩, fun noFault acked => ?_⟩
    · refine issue_done (exec_drq x s) e (t := s1.writeX x.a.rix (BitVec.ofNat 64 al)) ?_ (a.ctxOnly.trans (CtxOnly.mapCtx _ _)) a.pc
        (a.final _)
      rw [withSrc_ready ready, if_neg dn, withDest_free free, allowance, State.writeFixed_of_le _ _ (by decide)]
    · rw [← a.pc, ← State.branchTo_eq]
      refine issue_jump (exec_jdr x s n) e (t := s1.writeP x.a.pix true) ?_ (a.ctxOnly.trans (CtxOnly.mapCtx _ _)) (a.final _)
      rw [withSrc_ready ready, if_neg dn, withDest_free free, allowance]
      simp only [holds, if_true]
      rfl
    · refine issue_done (exec_jdr x s n) e (t := s1.writeP x.a.pix false) ?_ (a.ctxOnly.trans (CtxOnly.mapCtx _ _))
        ((Ctx.writeP_pc _ _ _).trans a.pc) (a.final _)
      rw [withSrc_ready ready, if_neg dn, withDest_free free, allowance]
      simp only [fails]
      rfl
    · refine issue_done (exec_drn x s) e (t := s1.writeX x.a.rix (BitVec.ofNat 64 al)) ?_ (a.ctxOnly.trans (CtxOnly.mapCtx _ _)) a.pc
        (a.final _)
      have drained : ((s.core s.thr.core).draught.all fun e => e.dn != d || e.out == 0) = true := by
        simpa [← imp_iff_not_or] using acked
      rw [withSrc_ready ready, if_neg dn, withRecorded_none (a.res ▸ noFault), withDest_free free]
      simp only [a.thr_core, a.core_eq]
      exact if_pos drained
  · intro sc m stores engines
    obtain ⟨acq, rel, runs⟩ := exec_fence_done (sc := sc) e stores engines
    obtain ⟨same, kept, pc, final⟩ := s.fenceEnd_leaves acq rel
    exact ⟨_, runs, finish_done_advanced same kept pc final⟩

end Sys2Proof.Machine
end

section
/-! ### Packets that are charged, and threads that wait, yield, leave or end (O23, O24)

A packet to another core is charged to the draught of the issuing thread's core and changes nothing else (R87, R194). A thread that waits
for an answer, gives up its slot or leaves keeps, with the flags of its outstanding results, the context it had. -/

namespace Sys2Proof.Machine

open Config

/-! ### A charge (R87, R194, R196) -/

/-- `t` differs from `s` in the draught of cores only. -/
def DraughtOnly (s t : State) : Prop :=
  t = { s with cores := t.cores } ∧ ∀ n, t.core n = { s.core n with draught := (t.core n).draught }

theorem DraughtOnly.refl (s : State) : DraughtOnly s s := ⟨rfl, fun _ => rfl⟩

theorem DraughtOnly.of_setCore (k : Nat) (l : List DEntry) (s : State) : DraughtOnly s (s.setCore k fun c => { c with draught := l }) := by
  refine ⟨rfl, fun n => ?_⟩
  by_cases other : n = k
  · subst other
    rw [State.core_setCore]
  · rw [State.core_setCore_other _ _ _ _ other]

section
variable {s t : State} (a : DraughtOnly s t)
include a

theorem DraughtOnly.thr : t.thr = s.thr := by rw [a.1]

theorem DraughtOnly.kept : MemKept s t := by
  rw [a.1]
  exact .refl s

/-- Of a core, a charge leaves everything but the draught. -/
theorem DraughtOnly.coreField {β : Type} {f : CoreSt → β} (free : ∀ c l, f { c with draught := l } = f c) (n : Nat) :
    f (t.core n) = f (s.core n) := by
  rw [a.2 n, free]

end

/-- A charge that is possible is made. -/
theorem withCharge_ok {s : State} {home : Nat} (h : s.canCharge home = true) :
    ∃ t, DraughtOnly s t ∧ ∀ k, withCharge home s k = k t := by
  unfold State.canCharge at h
  cases dest : chargeDn s.thr.core home with
  | none => exact ⟨s, .refl s, fun k => by rw [withCharge, dest]⟩
  | some dn =>
    cases charged : s.takeDraught dn with
    | error r => simp [dest, charged] at h
    | ok t =>
      obtain ⟨l, rfl⟩ := State.takeDraught_only charged
      exact ⟨_, .of_setCore s.thr.core l s, fun k => by simp only [withCharge, dest, withDraught, charged]⟩

/-- The core of the thread that issues has an allowance for one more packet to a destination (R84, R87). -/
def State.chargeable (s : State) (dn : Nat) : Bool :=
  let c := s.core s.thr.core
  let r : Resource := if c.draught.any fun e => e.dn == dn then .draught dn else .table
  decide (s.aheadOf r < if r = .table then c.tableRoom else c.allowance dn) && (c.charge dn).isSome

/-- A packet to a home can be charged where its destination is chargeable, if it has one. -/
theorem State.canCharge_eq (s : State) (home : Nat) : s.canCharge home = (chargeDn s.thr.core home).all s.chargeable := by
  unfold State.canCharge
  cases chargeDn s.thr.core home with
  | none => rfl
  | some dn =>
    simp only [State.takeDraught, State.chargeable, Option.all_some]
    by_cases room : s.aheadOf (if ((s.core s.thr.core).draught.any fun e => e.dn == dn) = true then .draught dn else .table) <
        if (if ((s.core s.thr.core).draught.any fun e => e.dn == dn) = true then Resource.draught dn else .table) = .table then
          (s.core s.thr.core).tableRoom else (s.core s.thr.core).allowance dn
    · rw [if_pos room, decide_eq_true room]
      cases (s.core s.thr.core).charge dn <;> rfl
    · rw [if_neg room, decide_eq_false room]
      rfl

/-- Emptying a register does not change what can be charged. -/
theorem FeOnly.canCharge {s t : State} (a : FeOnly s t) (home : Nat) : t.canCharge home = s.canCharge home := by
  obtain ⟨fe, rfl⟩ := a
  rw [State.canCharge_eq, State.canCharge_eq]
  rfl

/-! ### Threads that wait for an answer -/

theorem withRelease_settled {s : State} {sc : Scope} {dst : Option Nat} {k : Eff} (h : s.settled sc dst = true) :
    withRelease sc dst s k = k := by
  simp only [State.settled, Bool.and_eq_true, Option.isNone_iff_eq_none, Bool.not_eq_true'] at h
  rw [withRelease, withRecorded_none h.1, withPerformed_done h.2]

theorem Ctx.drainAll_owe (l : List (BitVec 4)) (c : Ctx) : (l.foldl (fun c r => c.drain r) c).owe = c.owe := by
  induction l generalizing c with
  | nil => rfl
  | cons r l ih => exact ih (c.drain r)

/-- What a blocking access makes of the context of its thread (R39, R72). -/
theorem Thread.expect_ctx (d : ReplyTo) (ea : Word) (acq : Bool) (em : BitVec 16) (t : Thread) :
    (t.expect d ea acq em).ctx = t.ctx.awaiting d.regs := by
  simp only [Thread.expect, Ctx.awaiting, Ctx.drainAll_owe]

/-- A thread that waits for a reply: the registers it writes are empty and owed, and the thread has no slot (R39, R72, R83). -/
theorem State.awaitReply_waits (d : ReplyTo) (ea : Word) (acq : Bool) (em : BitVec 16) (s : State) :
    let u := s.awaitReply d ea acq em
    Leaves s u (s.thr.ctx.awaiting d.regs) ∧ u.thr.wait = .home ∧ u.thr.slot = none ∧ SameThread s u ∧ u = { s with thr := u.thr } :=
  ⟨(Thread.unbind_final (s.thr.expect d ea acq em)).trans (by rw [Thread.final, Thread.expect_ctx]; rfl), rfl, rfl, ⟨rfl, rfl, rfl⟩, rfl⟩

section
variable (x : Args) (s : State)

theorem exec_park : exec (.park x) s = execPark x s := rfl

theorem exec_yield : exec (.yield x) s = execYield x s := rfl

theorem exec_wake : exec (.wake x) s = execWake x s := rfl

theorem exec_exit : exec (.exit x) s = execExit x s := rfl

end

section
variable {x : Args} {s : State}

/-- A `wake` that waits for nothing sends its request, and the thread waits for the answer (R97). -/
theorem exec_wake_sends (e : s.enabled x.h = true) (ready : x.readyBC s = true) (known : (x.b.val s).toNat < 2048)
    (free : x.a.free (x.afterBC s) = true)
    (settled : (x.afterBC s).settled ((x.afterBC s).scopeOf s.thr.core (x.b.val s).toNat) none = true)
    (live : (x.afterBC s).homeDead (x.b.val s).toNat = false) (charge : s.canCharge (x.b.val s).toNat = true) :
    ∃ t ea em, DraughtOnly (x.afterBC s) t ∧ exec (.wake x) s =
      .next ((t.sendWake (x.b.val s).toNat (x.c.val (x.b.after s))).awaitReply (.word x.a.rix) ea false em) := by
  have a := FeOnly.afterBC x s
  obtain ⟨b, c⟩ := Bool.and_eq_true_iff.1 ready
  obtain ⟨t, only, charged⟩ := withCharge_ok ((a.canCharge _).trans charge)
  refine ⟨t, freeWord t.serial, emptiedSince s t, only, ?_⟩
  have after : x.c.after (x.b.after s) = x.afterBC s := rfl
  rw [← a.thr_core] at settled
  rw [exec_wake, execWake, issue_enabled e, withSrc_ready b, withSrc_ready c, if_neg (by simpa [nCores] using known), after,
    withDest_free free, withRelease_settled settled, if_neg (by simp [live]), charged]
  rfl

end

/-! ### Threads that give up their slot, or park (R97, R98) -/

/-- A thread that is bound again at once waits as before, and one that joins the tail is ready there (R98). -/
theorem State.yieldThr_wait {s : State} {t : Thread} (slot : t.slot = s.thr.slot) (core : t.core = s.thr.core) :
    (({ s with thr := t } : State).yieldThr).thr.wait =
      if s.thr.slot.isSome ∧ (s.core s.thr.core).runq.all (·.cf) then t.wait else .ready := by
  rw [← slot, ← core]
  by_cases c : (t.slot.isSome && (s.core t.core).runq.all (·.cf)) = true
  · have again : ({ s with thr := t } : State).yieldThr = _ := if_pos c
    rw [if_pos (by simpa using c), again]
    rfl
  · have tail : ({ s with thr := t } : State).yieldThr = _ := if_neg c
    rw [if_neg (by simpa using c), tail]
    rfl

/-- `yield` advances its thread, which keeps its slot or joins the tail of the run queue (R98). -/
theorem exec_yield_gives {x : Args} {s : State} (e : s.enabled x.h = true) : ∃ u, exec (.yield x) s = .next u ∧ Advanced s u s.thr.ctx ∧
    (if s.thr.slot.isSome ∧ (s.core s.thr.core).runq.all (·.cf) then
      u.thr.slot = s.thr.slot ∧ u.thr.wait = s.thr.wait ∧ (u.core s.thr.core).runq = (s.core s.thr.core).runq
    else u.thr.slot = none ∧ u.thr.wait = .ready ∧
      (u.core s.thr.core).runq = (s.core s.thr.core).runq ++ [{ cxa := s.thr.ctx.cxa, org := 3#2 }]) := by
  let t : Thread := { s.thr with ctx := { s.thr.ctx with pc := s.pc + 12#64 }, waitOn := none, parked := false }
  have runs : exec (.yield x) s = .next ({ s with thr := t } : State).yieldThr := by
    rw [exec_yield, execYield, issue_enabled e]
    rfl
  obtain ⟨only, same, final, -⟩ := State.yieldThr_only { s with thr := t }
  have place := State.yieldThr_cases (s := s) (t := t) rfl rfl rfl
  have wait := State.yieldThr_wait (s := s) (t := t) rfl rfl
  refine ⟨_, runs, ⟨final, same, only.2.2⟩, ?_⟩
  split at place
  · rename_i again
    rw [if_pos again] at wait ⊢
    exact ⟨place.1, wait, place.2⟩
  · rename_i tail
    rw [if_neg tail] at wait ⊢
    exact ⟨place.2, wait, place.1⟩

/-- A thread that has moved past its instruction and waits (R97, R100). -/
theorem State.parkPast_waits (w : Wait) (s : State) : Advanced s (s.parkPast w) s.thr.ctx ∧ (s.parkPast w).thr.wait = w :=
  ⟨⟨Thread.unbind_final (s.setPc (s.pc + 12#64)).thr, ⟨rfl, rfl, rfl⟩, .refl s⟩, rfl⟩

/-! ### The end of a thread (R96) -/

/-- A fold of updates that leave a part of the state alone leaves it alone. -/
theorem State.foldl_keeps {α β : Type} {p : State → β} {f : State → α → State} (kept : ∀ s a, p (f s a) = p s) (l : List α) (s : State) :
    p (l.foldl f s) = p s := by
  induction l generalizing s with
  | nil => rfl
  | cons a l ih => rw [List.foldl_cons, ih, kept]

/-- Threads, the populations and the marks of storage words. -/
def State.withoutCores (s : State) : Thread × List Thread × Option (Asker × List PortWalk) × List Pop × List Nat × List Nat :=
  (s.thr, s.pool, s.trying, s.pops, s.empties, s.poison)

/-- What a thread leaves behind where it ends stays but for names in what is under way (R96). -/
theorem State.orphan_keeps (core : Nat) (cxa : Word) (s : State) :
    let u := s.orphan core cxa
    u.thr = s.thr ∧ u.pool = s.pool ∧ u.trying = s.trying ∧ u.pops = s.pops ∧ MemKept s u ∧ ∀ n, (u.core n).runq = (s.core n).runq := by
  have fields : (s.orphan core cxa).withoutCores = s.withoutCores := by
    unfold State.orphan
    exact (State.foldl_keeps (p := State.withoutCores) (fun _ _ => by rfl) _ _).trans rfl
  have runq : ∀ n, ((s.orphan core cxa).core n).runq = (s.core n).runq := by
    intro n
    unfold State.orphan
    refine (State.foldl_keeps (p := fun s => (s.core n).runq) (fun s k => ?_) _ _).trans ?_
    · exact State.setCore_coreField (p := CoreSt.runq) (by intros; rfl) k n s
    · exact State.setCore_coreField (p := CoreSt.runq) (by intros; rfl) core n s
  simp only [State.withoutCores, Prod.mk.injEq] at fields
  obtain ⟨thr, pool, trying, pops, empties, poison⟩ := fields
  exact ⟨thr, pool, trying, pops, .of_eq (State.orphan_mem core cxa s) empties poison, runq⟩

theorem State.isAt_self {s : State} (there : s.isThere = true) : s.thr.isAt s.thr.core s.thr.ctx.cxa = true := by
  simpa [Thread.isAt, State.isThere] using there

/-- The thread that issues is the first of its name. -/
theorem State.findThr_self {s : State} (there : s.isThere = true) : s.findThr s.thr.core s.thr.ctx.cxa = some s.thr := by
  have attached : s.threads = s.thr :: s.pool.filter fun t => decide (t.wait ≠ .ended) := List.filter_cons_of_pos there
  rw [State.findThr, attached, List.find?_cons_of_pos (State.isAt_self there)]

/-- The thread that issues is taken from its core (R96, R99). -/
theorem State.removeThr_self {s : State} (there : s.isThere = true) :
    let u := s.removeThr s.thr.core s.thr.ctx.cxa
    u = { s with thr := {}, cores := u.cores } ∧ ∀ n, (u.core n).runq =
      if n = s.thr.core then (s.core n).runq.filter fun e => e.cxa != s.thr.ctx.cxa else (s.core n).runq := by
  unfold State.removeThr
  simp only [State.isAt_self there, if_true]
  refine ⟨rfl, fun n => ?_⟩
  by_cases own : n = s.thr.core
  · rw [if_pos own, own, State.core_setCore]
    rfl
  · rw [if_neg own, State.core_setCore_other _ _ _ _ own]
    rfl

theorem mapFirst_of_find?_eq_none {α : Type} {p : α → Bool} {f : α → α} {l : List α} (h : l.find? p = none) : mapFirst p f l = l := by
  induction l with
  | nil => rfl
  | cons a l ih =>
    rw [List.find?_cons] at h
    split at h
    · cases h
    · rename_i no
      rw [mapFirst, if_neg (by simp [no]), ih h]

theorem State.updPop_of_findPop_eq_none {ix : Nat} {s : State} (h : s.findPop ix = none) (f : Pop → Pop) : s.updPop ix f = s := by
  rw [State.updPop, mapFirst_of_find?_eq_none h]

/-- A thread of no crew and no gang, whose population is gone, leaves nothing to do when it ends (R96). -/
theorem State.endThread_last {s : State} (there : s.isThere = true) (single : s.grp = 0#16) (noPop : s.findPop s.thr.popIx = none) :
    s.endThread s.thr.core s.thr.ctx.cxa = (s.orphan s.thr.core s.thr.ctx.cxa).removeThr s.thr.core s.thr.ctx.cxa := by
  obtain ⟨thr, -, -, pops, -, -⟩ := s.orphan_keeps s.thr.core s.thr.ctx.cxa
  have here : (s.orphan s.thr.core s.thr.ctx.cxa).isThere = true := by rw [State.isThere, thr]; exact there
  have removed := (State.removeThr_self here).1
  rw [thr] at removed
  have gone : ((s.orphan s.thr.core s.thr.ctx.cxa).removeThr s.thr.core s.thr.ctx.cxa).findPop s.thr.popIx = none := by
    rw [State.findPop, removed]
    exact (congrArg _ pops).trans noPop
  have alone : s.thr.ctx.st.extractLsb' 32 16 = 0#16 := single
  simp only [State.endThread, State.findThr_self there, State.exitGroup, alone, if_true, State.updPop_of_findPop_eq_none gone, gone]

/-- What is left of the thread that issues, once its end leaves nothing to do. -/
theorem State.endThread_leaves {s : State} (there : s.isThere = true) (single : s.grp = 0#16) (noPop : s.findPop s.thr.popIx = none) :
    let u := s.endThread s.thr.core s.thr.ctx.cxa
    u.thr = {} ∧ u.pool = s.pool ∧ u.trying = s.trying ∧ MemKept s u ∧
      (u.core s.thr.core).runq = (s.core s.thr.core).runq.filter fun e => e.cxa != s.thr.ctx.cxa := by
  obtain ⟨thr, pool, trying, -, kept, runq⟩ := s.orphan_keeps s.thr.core s.thr.ctx.cxa
  have here : (s.orphan s.thr.core s.thr.ctx.cxa).isThere = true := by rw [State.isThere, thr]; exact there
  obtain ⟨only, queue⟩ := State.removeThr_self here
  rw [thr] at only queue
  rw [State.endThread_last there single noPop]
  refine ⟨congrArg State.thr only, (congrArg State.pool only).trans pool, (congrArg State.trying only).trans trying, ?_, ?_⟩
  · refine kept.trans ?_
    rw [only]
    exact .refl _
  · rw [queue, if_pos rfl, runq]

theorem withPend_idle {s : State} {k : Eff} (h : s.idle = true) : withPend s k = k := by
  simp only [State.idle, Bool.and_eq_true, Option.isNone_iff_eq_none] at h
  rw [withPend, if_pos (by simpa using h.1), withRecorded_none h.2]

/-- `exit` of a thread with nothing pending takes it from its core (R96). -/
theorem exec_exit_ends {x : Args} {s : State} (e : s.enabled x.h = true) (idle : s.idle = true) (there : s.isThere = true)
    (single : s.grp = 0#16) (noPop : s.findPop s.thr.popIx = none) :
    ∃ u, exec (.exit x) s = .next u ∧ u.thr = {} ∧ u.pool = s.pool ∧ MemKept s u ∧
      (u.core s.thr.core).runq = (s.core s.thr.core).runq.filter fun e => e.cxa != s.thr.ctx.cxa := by
  let t := s.asTried (.thread s.thr.core s.thr.ctx.cxa)
  obtain ⟨thr, pool, trying, kept, runq⟩ := State.endThread_leaves (s := t) there single noPop
  rw [exec_exit, execExit, issue_enabled e, withPend_idle idle, withRecords_done fun a ha => ?_]
  · exact ⟨_, rfl, thr, pool, kept, runq⟩
  · subst ha
    exact congrArg (Option.map (·.2)) trying

/-- Settles O23: each instruction reads its operands, and its thread goes on, waits, gives up its slot, or ends. -/
theorem threadWaitsAndYields : Obligations.ThreadWaitsAndYields := by
  unfold Obligations.ThreadWaitsAndYields
  intro x s e
  refine ⟨fun woken => ?_, fun asleep => ?_, exec_yield_gives e, ?_, fun idle there single noPop => exec_exit_ends e idle there single noPop⟩
  · refine ⟨_, ?_, finish_done (h := x.h) (s0 := s) (s := s.dropNear s.thr.core)
      (t := (s.mapCtx fun c => { c with wk := false }).dropNear s.thr.core) ⟨_, _, rfl⟩ rfl rfl⟩
    rw [exec_park, execPark, issue_enabled e, if_pos woken]
  · obtain ⟨advanced, wait⟩ := (s.mapCtx fun c => { c with pk := true }).parkPast_waits .park
    refine ⟨_, ?_, advanced, wait⟩
    rw [exec_park, execPark, issue_enabled e, if_neg (by simp [asleep])]
    rfl
  · intro ready known free n s1 settled live charge
    have a := FeOnly.afterBC x s
    obtain ⟨t, ea, em, only, sends⟩ := exec_wake_sends e ready known free settled live charge
    obtain ⟨leaves, wait, slot, same, rest⟩ := (t.sendWake n (x.c.val (x.b.after s))).awaitReply_waits (.word x.a.rix) ea false em
    have thr : t.thr = s1.thr := only.thr
    have reqs : t.wakeReqs = s.wakeReqs := by
      rw [only.1]
      show (x.afterBC s).wakeReqs = s.wakeReqs
      obtain ⟨fe, fe_eq⟩ := a
      rw [fe_eq]
      rfl
    have core : t.thr.core = s.thr.core := by rw [thr]; exact a.thr_core
    have cxa : t.thr.ctx.cxa = s.thr.ctx.cxa := by rw [thr]; exact a.cxa
    have asks : (t.sendWake n (x.c.val (x.b.after s))).thr = s1.thr := thr
    refine ⟨_, t.serial, sends, ?_, ?_, wait, slot, (a.ctxOnly.same.trans ?_).trans same, (a.ctxOnly.kept.trans only.kept).trans ?_⟩
    · rw [rest]
      show t.wakeReqs ++ _ = _
      rw [reqs, core, cxa]
    · rw [Leaves, ← a.res, ← asks]
      exact leaves
    · rw [SameThread, asks]
      exact ⟨rfl, rfl, rfl⟩
    · rw [rest]
      exact .refl _

end Sys2Proof.Machine
end

section
namespace Sys2Proof.Machine

open Config

/-! ### The place of an access, and a thread that leaves for it (O24)

An access that reaches storage by the model's own lookup runs its continuation at that place (R139-R147); nothing but translations changes
on the way. -/

/-- `t` differs from `s` in translations alone: those the thread keeps over a wait, and the home masks and peer entries that are cached. -/
def FoundOnly (s t : State) : Prop :=
  ∃ held asOf masks peers1 peers2,
    t = { s.mapRes fun r => { r with held := held, asOf := asOf } with masks := masks, peers1 := peers1, peers2 := peers2 }

theorem FoundOnly.of_locate {s t : State} {who : Who} {nd : Need} {g n : Nat} {l : Loc} (h : s.locate who nd g n = .loc l t) :
    FoundOnly s t := by
  obtain ⟨masks, peers1, peers2, rfl⟩ := State.locate_only h
  exact ⟨_, _, masks, peers1, peers2, rfl⟩

section
variable {s t : State} (f : FoundOnly s t)
include f

theorem FoundOnly.same : SameThread s t := by
  obtain ⟨_, _, _, _, _, rfl⟩ := f
  exact ⟨rfl, rfl, rfl⟩

theorem FoundOnly.kept : MemKept s t := by
  obtain ⟨_, _, _, _, _, rfl⟩ := f
  exact .refl s

theorem FoundOnly.ctx : t.thr.ctx = s.thr.ctx := by
  obtain ⟨_, _, _, _, _, rfl⟩ := f
  rfl

theorem FoundOnly.wait : t.thr.wait = s.thr.wait := by
  obtain ⟨_, _, _, _, _, rfl⟩ := f
  rfl

theorem FoundOnly.fixed : t.thr.res.fixed = s.thr.res.fixed := by
  obtain ⟨_, _, _, _, _, rfl⟩ := f
  rfl

theorem FoundOnly.join : t.thr.res.join = s.thr.res.join := by
  obtain ⟨_, _, _, _, _, rfl⟩ := f
  rfl

theorem FoundOnly.idle : t.idle = s.idle := by
  obtain ⟨_, _, _, _, _, rfl⟩ := f
  rfl

theorem FoundOnly.grp : t.grp = s.grp := by
  obtain ⟨_, _, _, _, _, rfl⟩ := f
  rfl

theorem FoundOnly.pool : t.pool = s.pool := by
  obtain ⟨_, _, _, _, _, rfl⟩ := f
  rfl

theorem FoundOnly.readMem (a n : Nat) : t.readMem a n = s.readMem a n := by
  obtain ⟨_, _, _, _, _, rfl⟩ := f
  rfl

theorem FoundOnly.hops : t.hops = s.hops := by
  obtain ⟨_, _, _, _, _, rfl⟩ := f
  rfl

end

section
variable {s t : State} (a : FeOnly s t)
include a

theorem FeOnly.grp : t.grp = s.grp := by
  obtain ⟨fe, rfl⟩ := a
  rfl

theorem FeOnly.pool : t.pool = s.pool := by
  obtain ⟨fe, rfl⟩ := a
  rfl

theorem FeOnly.readMem (addr n : Nat) : t.readMem addr n = s.readMem addr n := by
  obtain ⟨fe, rfl⟩ := a
  rfl

theorem FeOnly.wait : t.thr.wait = s.thr.wait := by
  obtain ⟨fe, rfl⟩ := a
  rfl

theorem FeOnly.hops : t.hops = s.hops := by
  obtain ⟨fe, rfl⟩ := a
  rfl

theorem FeOnly.idle : t.idle = s.idle := by
  obtain ⟨fe, rfl⟩ := a
  rfl

end

/-- An access of one part is made at the place that it reaches (R139-R147). -/
theorem withLoc_reaches {s t : State} {nd : Need} {ea : Word} {n align : Nat} {l : Loc} (reaches : s.reaches nd ea n align = some (l, t)) :
    FoundOnly s t ∧ ∃ ts g held, s.cachedSet s.thr.core s.task = some ts ∧ ts.gva nd ea n = some g ∧
      (∀ k, withGva nd ea n align s k = k g) ∧ ∀ soft k, withLoc nd ea g n soft s k = (k l t).keep held := by
  unfold State.reaches at reaches
  split at reaches
  · cases reaches
  · rename_i ts cached
    split at reaches
    · cases reaches
    · rename_i aligned
      split at reaches
      · cases reaches
      · rename_i g gva
        split at reaches
        · rename_i h kept
          cases reaches
          refine ⟨⟨_, some (h.port, h.gen), s.masks, s.peers1, s.peers2, rfl⟩, ts, g, h, cached, gva, fun k => ?_, fun soft k => ?_⟩
          · simp only [withGva, cached, if_neg aligned, gva]
          · simp only [withLoc, kept]
        · rename_i kept
          split at reaches
          · rename_i l' t' located
            cases reaches
            refine ⟨.of_locate located, ts, g, ⟨s.pc, g, l, s.portGen.1, s.portGen.2⟩, cached, gva, fun k => ?_, fun soft k => ?_⟩
            · simp only [withGva, cached, if_neg aligned, gva]
            · simp only [withLoc, kept, located]
          · cases reaches

/-- Only the core and the standing of the issuing thread count for how many threads a core has attached. -/
theorem State.attached_length_congr {s t : State} (pool : t.pool = s.pool) (core : t.thr.core = s.thr.core) (wait : t.thr.wait = s.thr.wait)
    (n : Nat) : (t.attached n).length = (s.attached n).length := by
  simp only [State.attached, State.threads, List.filter_cons, pool, wait]
  split
  · simp only [List.filter_cons, core]
    split <;> rfl
  · rfl

/-! ### A thread that leaves for another core (R99) -/

theorem exec_hop (x : Args) (s : State) : exec (.hop x) s = execHop x s := rfl

/-- The context of a thread that leaves is on its way, past the instruction (R99). -/
theorem State.leaveFor_leaves {s : State} (there : s.isThere = true) (n : Nat) :
    let u := s.leaveFor n
    u.thr = {} ∧ MemKept s u ∧ ∃ h, u.hops = s.hops ++ [h] ∧ h.src = s.thr.core ∧ h.t.core = n ∧ h.t.pinC = false ∧
      h.t.final = { s.thr.final with pc := s.pc + 12#64 } := by
  have only := (State.removeThr_self there).1
  unfold State.leaveFor
  dsimp only
  rw [only]
  refine ⟨rfl, .refl s, _, rfl, rfl, rfl, rfl, ?_⟩
  rw [← s.thr.unbind_final]
  rfl

/-- Settles O24: the place is found, nothing is waited for, and the thread goes on or leaves. -/
theorem hopLeavesForTheHome : Obligations.HopLeavesForTheHome := by
  unfold Obligations.HopLeavesForTheHome
  intro x s s2 p home paged leaf e ready s1 reaches single noJoin idle there
  have a := FeOnly.afterBC x s
  obtain ⟨found, -, g, held, -, -, checked, placed⟩ := withLoc_reaches reaches
  have core : s2.thr.core = s.thr.core := found.same.1.trans a.thr_core
  have grp : s2.grp = 0#16 := by rw [found.grp, a.grp, single]
  have join : s2.thr.res.join = none := by rw [found.join, a.res, noJoin]
  have goes : exec (.hop x) s = .next (Eff.finish x.h s (Eff.keep held
      (if home = s2.thr.core then .done s2
      else if s2.homeDead home then .trap tPOI pDEAD (x.ea s)
      else if 4096 ≤ (s2.attached home).length then .park (.attach home)
      else withCharge home s2 fun s => .stay (s.leaveFor home)))) := by
    obtain ⟨b, c⟩ := Bool.and_eq_true_iff.1 ready
    rw [exec_hop, execHop, issue_enabled e, withEa, withSrc_ready b, withSrc_ready c]
    refine congrArg (fun e => Host.Outcome.next (Eff.finish x.h s e)) ?_
    refine (checked _).trans ((placed false _).trans (congrArg (Eff.keep held) ?_))
    rw [if_neg (by simp [grp, join]), withPend_idle (by rw [found.idle, a.idle, idle])]
    rfl
  have final : s2.thr.final = s1.thr.ctx.orFlags (flagsOf s.thr.res.fixed) := by rw [Thread.final, found.ctx, found.fixed, a.res]
  have pc : s2.pc = s.pc := (congrArg Ctx.pc found.ctx).trans a.pc
  refine ⟨fun own => ⟨_, goes, ?_⟩, fun other live room charge => ?_⟩
  · rw [if_pos (own.trans core.symm)]
    exact finish_done_advanced (a.ctxOnly.same.trans found.same) (a.ctxOnly.kept.trans found.kept) pc final
  · obtain ⟨t, only, charged⟩ := withCharge_ok charge
    have attached : (s2.attached home).length < 4096 := by
      rw [State.attached_length_congr found.pool found.same.1 found.wait, State.attached_length_congr a.pool a.thr_core a.wait]
      exact room
    have here : t.isThere = true := by
      rw [State.isThere, only.thr, found.wait, a.wait]
      exact there
    obtain ⟨gone, kept, h, hops, src, at_home, pin, left⟩ := State.leaveFor_leaves here home
    rw [if_neg (by rw [core]; exact other), if_neg (by simp [live]), if_neg (by omega), charged] at goes
    refine ⟨_, goes, gone, ((a.ctxOnly.kept.trans found.kept).trans only.kept).trans kept, h, ?_, ?_, at_home, pin, ?_⟩
    · have sent : t.hops = s2.hops := by rw [only.1]
      rw [← a.hops, ← found.hops, ← sent]
      exact hops
    · rw [src, only.thr, core]
    · rw [left, only.thr, final, State.pc, only.thr]
      show ({ s1.thr.ctx.orFlags _ with pc := s2.pc + 12#64 } : Ctx) = _
      rw [pc]
      rfl

end Sys2Proof.Machine
end

section
/-! ### Barriers (O26)

The arrival that completes a group rouses the members that wait, one after another (R100). `Roused` says what none of them changes, and
`State.Standing` what each member is left with, which the ones after it keep. -/

namespace Sys2Proof.Machine

open Config

/-! ### The first of a list that is changed -/

theorem find?_mapFirst_self {α : Type} {p : α → Bool} {f : α → α} (same : ∀ a, p a = true → p (f a) = true) (l : List α) :
    (mapFirst p f l).find? p = (l.find? p).map f := by
  induction l with
  | nil => rfl
  | cons a l ih =>
    by_cases found : p a = true
    · rw [mapFirst, if_pos found, List.find?_cons_of_pos (same a found), List.find?_cons_of_pos found]
      rfl
    · rw [mapFirst, if_neg found, List.find?_cons_of_neg found, List.find?_cons_of_neg found, ih]

theorem find?_mapFirst_other {α : Type} {p q : α → Bool} {f : α → α} (other : ∀ a, q a = true → p a = false ∧ p (f a) = false)
    (l : List α) : (mapFirst q f l).find? p = l.find? p := by
  induction l with
  | nil => rfl
  | cons a l ih =>
    by_cases found : q a = true
    · obtain ⟨before, after⟩ := other a found
      rw [mapFirst, if_pos found, List.find?_cons_of_neg (by simp [after]), List.find?_cons_of_neg (by simp [before])]
    · rw [mapFirst, if_neg found, List.find?_cons, List.find?_cons, ih]

/-! ### Threads by name -/

/-- The name of the thread that issues. -/
def State.self (s : State) : Nat × Word := (s.thr.core, s.thr.ctx.cxa)

theorem Thread.isAt_iff {core : Nat} {cxa : Word} {t : Thread} :
    t.isAt core cxa = true ↔ (core, cxa) = (t.core, t.ctx.cxa) ∧ t.wait ≠ .ended := by
  simp [Thread.isAt, eq_comm (a := core), eq_comm (a := cxa)]

theorem Thread.isAt_other {core n : Nat} {cxa x : Word} {t : Thread} (other : (core, cxa) ≠ (n, x)) (h : t.isAt core cxa = true) :
    t.isAt n x = false := by
  refine Bool.eq_false_iff.2 fun g => other ?_
  rw [(Thread.isAt_iff.1 h).1, (Thread.isAt_iff.1 g).1]

/-- A thread is looked for among all that are named, since those that have ended have no name. -/
theorem State.findThr_eq (s : State) (core : Nat) (cxa : Word) : s.findThr core cxa = (s.thr :: s.pool).find? (Thread.isAt core cxa) := by
  have there : (fun t : Thread => decide (decide (t.wait ≠ .ended) = true ∧ t.isAt core cxa = true)) = Thread.isAt core cxa := by
    funext t
    refine Bool.eq_iff_iff.2 ?_
    simp only [decide_eq_true_eq]
    exact ⟨fun h => h.2, fun h => ⟨(Thread.isAt_iff.1 h).2, h⟩⟩
  rw [State.findThr, State.threads, List.find?_filter, there]

/-- A thread other than the one that issues is looked for among the others. -/
theorem State.findThr_other {s : State} {core : Nat} {cxa : Word} (other : (core, cxa) ≠ s.self) :
    s.findThr core cxa = s.pool.find? (Thread.isAt core cxa) := by
  have off : ¬ s.thr.isAt core cxa = true := fun h => other (Thread.isAt_iff.1 h).1
  rw [State.findThr_eq, List.find?_cons_of_neg off]

/-! ### A thread whose wait is over (R83) -/

/-- A thread that is roused keeps its name, its place and its context but for flags that land. -/
theorem Thread.rouse_keeps (t : Thread) :
    t.rouse.core = t.core ∧ t.rouse.ctx.cxa = t.ctx.cxa ∧ t.rouse.place = t.place ∧ t.rouse.pinC = t.pinC ∧ t.rouse.ctx.pc = t.ctx.pc ∧
      t.rouse.final = t.final ∧ t.rouse.wait ≠ .ended := by
  unfold Thread.rouse
  split
  · exact ⟨rfl, rfl, rfl, rfl, rfl, Thread.unbind_final t, by simp⟩
  · exact ⟨rfl, rfl, rfl, rfl, rfl, rfl, by simp⟩

theorem Thread.rouse_ready {t : Thread} (h : t.dropNext = none) : t.rouse = { t with wait := .ready } := by
  unfold Thread.rouse
  split
  · rename_i k dropped
    rw [h] at dropped
    cases dropped
  · rfl

theorem Thread.isAt_rouse {core : Nat} {cxa : Word} {t : Thread} (h : t.isAt core cxa = true) : t.rouse.isAt core cxa = true := by
  obtain ⟨core', cxa', -, -, -, -, wait⟩ := t.rouse_keeps
  rw [Thread.isAt_iff, core', cxa']
  exact ⟨(Thread.isAt_iff.1 h).1, wait⟩

/-- `u` differs from `s` in threads and cores alone, and the thread that issues keeps its context but for flags that land. -/
def Roused (s u : State) : Prop :=
  u = { s with thr := u.thr, pool := u.pool, cores := u.cores } ∧ SameThread s u ∧ u.self = s.self ∧ u.pc = s.pc ∧ u.thr.final = s.thr.final

theorem Roused.refl (s : State) : Roused s s := ⟨rfl, .refl s, rfl, rfl, rfl⟩

theorem Roused.trans {s t u : State} (a : Roused s t) (b : Roused t u) : Roused s u := by
  obtain ⟨rest, same, self, pc, final⟩ := a
  obtain ⟨rest', same', self', pc', final'⟩ := b
  refine ⟨?_, same.trans same', self'.trans self, pc'.trans pc, final'.trans final⟩
  rw [rest', rest]

theorem Roused.same {s u : State} (a : Roused s u) : SameThread s u := a.2.1

theorem Roused.self_eq {s u : State} (a : Roused s u) : u.self = s.self := by
  obtain ⟨-, -, self, -, -⟩ := a
  exact self

theorem Roused.kept {s u : State} (a : Roused s u) : MemKept s u := by
  rw [a.1]
  exact .refl s

/-- Only the threads and the queues of cores count. -/
theorem Roused.of_cores {s u : State} (a : Roused s u) (cores : List (Nat × CoreSt)) : Roused s { u with cores := cores } := by
  obtain ⟨rest, same, self, pc, final⟩ := a
  exact ⟨by rw [rest], same, self, pc, final⟩

theorem State.updThr_rouse (core : Nat) (cxa : Word) (s : State) : Roused s (s.updThr core cxa Thread.rouse) := by
  obtain ⟨core', cxa', place, pin, pc, final, -⟩ := s.thr.rouse_keeps
  unfold State.updThr
  split
  · exact ⟨rfl, ⟨core', place, pin⟩, Prod.ext core' cxa', pc, final⟩
  · split <;> exact ⟨rfl, .refl s, rfl, rfl, rfl⟩

/-- Of another thread, rousing one changes nothing. -/
theorem State.updThr_rouse_other {core n : Nat} {cxa x : Word} {s : State} (self : (n, x) ≠ s.self) (other : (core, cxa) ≠ (n, x)) :
    (s.updThr core cxa Thread.rouse).findThr n x = s.findThr n x := by
  have self' : (n, x) ≠ (s.updThr core cxa Thread.rouse).self := by
    rw [(s.updThr_rouse core cxa).self_eq]
    exact self
  rw [State.findThr_other self, State.findThr_other self']
  unfold State.updThr
  split
  · rfl
  · split
    · exact find?_mapFirst_other (p := Thread.isAt n x) (q := Thread.isAt core cxa)
        (fun t h => ⟨Thread.isAt_other other h, Thread.isAt_other other (Thread.isAt_rouse h)⟩) _
    · rfl

theorem State.updThr_rouse_self {core : Nat} {cxa : Word} {s : State} {t : Thread} (self : (core, cxa) ≠ s.self)
    (there : s.findThr core cxa = some t) (settled : t.dropNext = none) :
    (s.updThr core cxa Thread.rouse).findThr core cxa = some { t with wait := .ready } := by
  have self' : (core, cxa) ≠ (s.updThr core cxa Thread.rouse).self := by
    rw [(s.updThr_rouse core cxa).self_eq]
    exact self
  rw [State.findThr_other self] at there
  have pooled : s.pool.any (Thread.isAt core cxa) = true := List.any_of_mem (List.mem_of_find?_eq_some there) (List.find?_some there)
  rw [State.findThr_other self', State.updThr, if_neg (fun h => self (Thread.isAt_iff.1 h).1), if_pos pooled]
  refine (find?_mapFirst_self (p := Thread.isAt core cxa) (fun _ => Thread.isAt_rouse) _).trans ?_
  rw [there, Option.map_some, Thread.rouse_ready settled]

/-- The run queues after a wait that is over (R83, R369): that of its core may hold one more entry, or lose those of its thread. -/
theorem State.makeReady_cases (core : Nat) (cxa : Word) (s : State) :
    let s1 := s.updThr core cxa Thread.rouse
    s.makeReady core cxa = s1 ∨ s.makeReady core cxa = s1.enqueue core cxa 2#2 ∨
      (s.findThr core cxa = none ∧ s.makeReady core cxa = (s1.enqueue core cxa 2#2).setCore core (CoreSt.queueSaved cxa)) := by
  unfold State.makeReady
  dsimp only
  split
  · exact .inl rfl
  · split
    · exact .inl rfl
    · split
      · exact .inr (.inl rfl)
      · rename_i away
        exact .inr (.inr ⟨by simpa using away, rfl⟩)

theorem State.makeReady_roused (core : Nat) (cxa : Word) (s : State) : Roused s (s.makeReady core cxa) := by
  have r := s.updThr_rouse core cxa
  rcases s.makeReady_cases core cxa with same | queued | ⟨-, saved⟩
  · rw [same]
    exact r
  · rw [queued]
    exact r.of_cores _
  · rw [saved]
    exact r.of_cores _

theorem State.updThr_runq (core n : Nat) (cxa : Word) (f : Thread → Thread) (s : State) :
    ((s.updThr core cxa f).core n).runq = (s.core n).runq := by
  unfold State.updThr
  split
  · rfl
  · split
    · rfl
    · exact State.setCore_coreField (p := CoreSt.runq) (f := CoreSt.mapSaved cxa f) (fun _ => rfl) core n s

theorem State.enqueue_runq_sub {core n : Nat} {cxa : Word} {org : BitVec 2} {s : State} {e : RqEntry} (h : e ∈ (s.core n).runq) :
    e ∈ ((s.enqueue core cxa org).core n).runq := by
  by_cases own : n = core
  · subst own
    rw [State.enqueue, State.core_setCore]
    exact List.mem_append_left _ h
  · rw [State.enqueue, State.core_setCore_other _ _ _ _ own]
    exact h

/-- An entry of a thread that is attached, or is not the one whose wait is over, stays in its queue. -/
theorem State.makeReady_runq_sub {core n : Nat} {cxa : Word} {s : State} {e : RqEntry}
    (stays : (s.findThr core cxa).isSome = true ∨ (core, cxa) ≠ (n, e.cxa)) (h : e ∈ (s.core n).runq) :
    e ∈ ((s.makeReady core cxa).core n).runq := by
  have h1 : e ∈ ((s.updThr core cxa Thread.rouse).core n).runq := by
    rw [State.updThr_runq]
    exact h
  rcases s.makeReady_cases core cxa with same | queued | ⟨away, saved⟩
  · rw [same]
    exact h1
  · rw [queued]
    exact State.enqueue_runq_sub h1
  · have other : (core, cxa) ≠ (n, e.cxa) := stays.resolve_left (by simp [away])
    rw [saved]
    have h2 := State.enqueue_runq_sub (core := core) (cxa := cxa) (org := 2#2) h1
    by_cases own : n = core
    · subst own
      rw [State.core_setCore]
      exact List.mem_filter.2 ⟨h2, bne_iff_ne.2 fun eq => other (by rw [eq])⟩
    · rw [State.core_setCore_other _ _ _ _ own]
      exact h2

theorem State.makeReady_findThr (core n : Nat) (cxa x : Word) (s : State) :
    (s.makeReady core cxa).findThr n x = (s.updThr core cxa Thread.rouse).findThr n x := by
  rcases s.makeReady_cases core cxa with same | queued | ⟨-, saved⟩
  · rw [same]
  · rw [queued]
    rfl
  · rw [saved]
    rfl

/-- The thread named is `t` with its wait over: ready, and in the run queue with ORG 10 where it has no slot. -/
def State.Standing (core : Nat) (cxa : Word) (t : Thread) (s : State) : Prop :=
  s.findThr core cxa = some { t with wait := .ready } ∧ (t.slot = none → ∃ e ∈ (s.core core).runq, e.cxa = cxa ∧ e.org = 2#2)

section
variable {core n : Nat} {cxa x : Word} {s : State} {t : Thread}

/-- A member whose wait ends stands ready. -/
theorem State.makeReady_standing (self : (core, cxa) ≠ s.self) (there : s.findThr core cxa = some t) (settled : t.dropNext = none) :
    (s.makeReady core cxa).Standing core cxa t := by
  refine ⟨?_, fun slot => ?_⟩
  · rw [State.makeReady_findThr]
    exact State.updThr_rouse_self self there settled
  · refine ⟨{ cxa := cxa, org := 2#2 }, ?_, rfl, rfl⟩
    have queued : s.makeReady core cxa = (s.updThr core cxa Thread.rouse).enqueue core cxa 2#2 := by
      simp only [State.makeReady, State.findOwed, there]
      rw [if_neg (by simp [settled, slot]), if_pos (show (some t).isSome = true from rfl)]
    rw [queued, State.enqueue, State.core_setCore]
    exact List.mem_append_right _ (List.mem_singleton.2 rfl)

/-- It still does when the wait of another ends, or its own once more. -/
theorem State.Standing.makeReady (self : (n, x) ≠ s.self) (settled : t.dropNext = none) (st : s.Standing n x t) :
    (s.makeReady core cxa).Standing n x t := by
  obtain ⟨there, entry⟩ := st
  by_cases same : (core, cxa) = (n, x)
  · obtain ⟨rfl, rfl⟩ := Prod.ext_iff.1 same
    exact State.makeReady_standing (t := { t with wait := .ready }) self there settled
  · refine ⟨?_, fun slot => ?_⟩
    · rw [State.makeReady_findThr, State.updThr_rouse_other self same, there]
    · obtain ⟨e, mem, cxa_eq, org⟩ := entry slot
      exact ⟨e, State.makeReady_runq_sub (.inr (by rw [cxa_eq]; exact same)) mem, cxa_eq, org⟩

/-- Only the threads other than the one that issues and the run queue of the core count. -/
theorem State.Standing.congr {u : State} (self : (n, x) ≠ s.self) (self' : u.self = s.self) (pool : u.pool = s.pool)
    (queue : ∀ e ∈ (s.core n).runq, e ∈ (u.core n).runq) (st : s.Standing n x t) : u.Standing n x t := by
  obtain ⟨there, entry⟩ := st
  refine ⟨?_, fun slot => ?_⟩
  · rw [State.findThr_other (by rw [self']; exact self), pool, ← State.findThr_other self]
    exact there
  · obtain ⟨e, mem, names⟩ := entry slot
    exact ⟨e, queue e mem, names⟩

theorem State.dropNear_standing (k : Nat) (self : (n, x) ≠ s.self) (st : s.Standing n x t) : (s.dropNear k).Standing n x t := by
  refine st.congr self rfl rfl fun e mem => ?_
  rw [State.dropNear_coreField (p := CoreSt.runq) (fun _ _ => rfl)]
  exact mem

end

/-! ### All members of a group (R100) -/

theorem State.dropNear_roused (k : Nat) (s : State) : Roused s (s.dropNear k) := (Roused.refl s).of_cores _

theorem State.releaseOne_roused (core : Nat) (cxa : Word) (s : State) : Roused s ((s.makeReady core cxa).dropNear core) :=
  (s.makeReady_roused core cxa).trans (State.dropNear_roused _ _)

theorem State.releaseAll_roused (l : List (Nat × Word)) (s : State) : Roused s (State.releaseAll l s) := by
  induction l generalizing s with
  | nil => exact .refl s
  | cons m l ih => exact (s.releaseOne_roused m.1 m.2).trans (ih _)

section
variable {n : Nat} {x : Word} {s : State} {t : Thread}

theorem State.Standing.releaseAll (l : List (Nat × Word)) (self : (n, x) ≠ s.self) (settled : t.dropNext = none) (st : s.Standing n x t) :
    (State.releaseAll l s).Standing n x t := by
  induction l generalizing s with
  | nil => exact st
  | cons m l ih =>
    have self' : (n, x) ≠ ((s.makeReady m.1 m.2).dropNear m.1).self := by
      rw [(s.releaseOne_roused m.1 m.2).self_eq]
      exact self
    exact ih self' (State.dropNear_standing _ (by rw [(s.makeReady_roused m.1 m.2).self_eq]; exact self) (st.makeReady self settled))

/-- Every member that has arrived stands ready once all are released. -/
theorem State.releaseAll_standing {l : List (Nat × Word)} (self : (n, x) ≠ s.self) (there : s.findThr n x = some t)
    (settled : t.dropNext = none) (member : (n, x) ∈ l) : (State.releaseAll l s).Standing n x t := by
  induction l generalizing s with
  | nil => cases member
  | cons m l ih =>
    have self1 : (n, x) ≠ (s.makeReady m.1 m.2).self := by
      rw [(s.makeReady_roused m.1 m.2).self_eq]
      exact self
    by_cases head : m = (n, x)
    · subst head
      exact (State.dropNear_standing _ self1 (State.makeReady_standing self there settled)).releaseAll l self1 settled
    · have there' : ((s.makeReady m.1 m.2).dropNear m.1).findThr n x = some t := by
        refine (State.makeReady_findThr _ _ _ _ _).trans ?_
        rw [State.updThr_rouse_other self head, there]
      exact ih self1 there' ((List.mem_cons.1 member).resolve_left (Ne.symm head))

end

/-! ### The end of the instruction -/

theorem State.yieldThr_runq_sub {n : Nat} {s : State} {e : RqEntry} (h : e ∈ (s.core n).runq) : e ∈ (s.yieldThr.core n).runq := by
  unfold State.yieldThr
  dsimp only
  split
  · exact h
  · exact State.enqueue_runq_sub (s := s.mapThr _) h

theorem finish_done_runq_sub {h : Head} {s0 s : State} {n : Nat} {e : RqEntry} (mem : e ∈ (s.core n).runq) :
    e ∈ ((Eff.finish h s0 (.done s)).core n).runq := by
  show e ∈ (((s.setPc (s.pc + 12#64)).retire h false).core n).runq
  unfold State.retire
  dsimp only
  split
  · exact State.yieldThr_runq_sub (s := State.mapThr _ _) mem
  · exact mem

theorem finish_done_self {h : Head} {s0 s : State} : (Eff.finish h s0 (.done s)).self = s.self := by
  obtain ⟨-, -, final, -⟩ := State.retire_only h false (s.setPc (s.pc + 12#64))
  have cxa := congrArg Ctx.cxa final
  exact Prod.ext (finish_done_same (h := h) (s0 := s0) (t := s)).1 cxa

/-! ### Groups (R100) -/

/-- A group that is changed keeps its id. -/
theorem State.findGroup_updGroup {k : Nat} {id : BitVec 16} {s : State} {g : Group} {f : Group → Group} (same : ∀ g, (f g).id = g.id)
    (found : s.findGroup k id = some g) : (s.updGroup k id f).findGroup k id = some (f g) := by
  rw [State.findGroup, State.updGroup, State.cluster_setCluster]
  refine (find?_mapFirst_self (p := fun g : Group => g.id == id) (fun a h => by rw [same]; exact h) _).trans ?_
  rw [State.findGroup] at found
  rw [found]
  rfl

/-! ### A barrier (R100) -/

/-- The arrivals at the barrier of the thread's group are taken, and its phase turns (R100). -/
def State.turnGroup (s : State) : State := s.updGroup s.myCluster s.grp fun g => { g with arrived := [], phase := !g.phase }

section
variable {s : State} {g : Group} {h : Head} {s0 : State}

/-- What an instruction at a barrier comes to, for a member whose stores are completed. -/
theorem barrier_settled {op : BitVec 8} {sc : Scope} (member : s.grp ≠ 0#16) (found : s.findGroup s.myCluster s.grp = some g)
    (settled : s.settled sc none = true) : barrier g.crew op sc s =
      if g.arrived.length + 1 = g.live then
        let s1 := State.releaseAll g.arrived s.turnGroup
        .done (s1.dropNear s1.thr.core)
      else .stay ((s.updGroup s.myCluster s.grp fun g => { g with arrived := g.arrived ++ [(s.thr.core, s.thr.ctx.cxa)] }).parkPast
        .barrier) := by
  rw [barrier, if_neg member, found]
  dsimp only
  rw [if_neg (by simp), withRelease_settled settled]
  rfl

/-- A member that arrives before the last waits past the barrier. -/
theorem State.arrive_waits (found : s.findGroup s.myCluster s.grp = some g) :
    let u := (s.updGroup s.myCluster s.grp fun g => { g with arrived := g.arrived ++ [s.self] }).parkPast .barrier
    Advanced s u s.thr.ctx ∧ u.thr.wait = .barrier ∧ u.findGroup s.myCluster s.grp = some { g with arrived := g.arrived ++ [s.self] } := by
  obtain ⟨advanced, wait⟩ := State.parkPast_waits .barrier (s.updGroup s.myCluster s.grp fun g => { g with arrived := g.arrived ++ [s.self] })
  exact ⟨advanced, wait, State.findGroup_updGroup (fun _ => rfl) found⟩

/-- The last member turns the phase, releases the others and goes on. -/
theorem State.lastArrival_releases (found : s.findGroup s.myCluster s.grp = some g) :
    let s1 := State.releaseAll g.arrived s.turnGroup
    let u := Eff.finish h s0 (.done (s1.dropNear s1.thr.core))
    Advanced s u s.thr.ctx ∧ u.findGroup s.myCluster s.grp = some { g with arrived := [], phase := !g.phase } ∧
      ∀ m ∈ g.arrived, m ≠ s.self → ∀ t, s.findThr m.1 m.2 = some t → t.dropNext = none → u.Standing m.1 m.2 t := by
  intro s1 u
  have turned := State.findGroup_updGroup (f := fun g => { g with arrived := [], phase := !g.phase }) (fun _ => rfl) found
  have released := State.releaseAll_roused g.arrived s.turnGroup
  have roused := released.trans (State.dropNear_roused s1.thr.core s1)
  have kept := roused.kept
  obtain ⟨rest, same, self, pc, final⟩ := roused
  have frame : u = { s1.dropNear s1.thr.core with thr := u.thr, cores := u.cores, serial := u.serial } := finish_done_only.1
  refine ⟨finish_done_advanced same kept pc final, ?_, fun m member other t there settled => ?_⟩
  · rw [frame, rest]
    exact turned
  · have standing := State.releaseAll_standing
      (s := s.turnGroup) other there settled member
    have self1 : m ≠ s1.self := by
      rw [released.self_eq]
      exact other
    refine State.Standing.congr (s := s1.dropNear s1.thr.core) self1 finish_done_self (by rw [frame]) (fun e mem => ?_)
      (State.dropNear_standing _ self1 standing)
    exact finish_done_runq_sub mem

end

section
variable (x : Args) (s : State)

theorem exec_cbar : exec (.cbar x) s = issue x.h (barrier true 0x16#8 .core) s := rfl

theorem exec_gbar : exec (.gbar x) s = issue x.h (barrier false 0x17#8 .clu) s := rfl

end

/-- Settles O26: the member's stores are completed, and its arrival is the last, or it waits. -/
theorem barriersHoldAndRelease : Obligations.BarriersHoldAndRelease := by
  unfold Obligations.BarriersHoldAndRelease
  intro x s g e member found p hp kind settled
  have runs : exec p.1 s = .next (Eff.finish x.h s (if g.arrived.length + 1 = g.live then
        let s1 := State.releaseAll g.arrived s.turnGroup
        .done (s1.dropNear s1.thr.core)
      else .stay ((s.updGroup s.myCluster s.grp fun g => { g with arrived := g.arrived ++ [(s.thr.core, s.thr.ctx.cxa)] }).parkPast
        .barrier))) := by
    simp only [List.mem_cons, List.not_mem_nil, or_false] at hp
    rcases hp with rfl | rfl
    · rw [exec_cbar, issue_enabled e, ← barrier_settled member found settled, kind]
    · rw [exec_gbar, issue_enabled e, ← barrier_settled member found settled, kind]
  refine ⟨fun early => ?_, fun last => ?_⟩
  · rw [if_neg early] at runs
    exact ⟨_, runs, State.arrive_waits found⟩
  · rw [if_pos last] at runs
    obtain ⟨advanced, turned, released⟩ := State.lastArrival_releases (h := x.h) (s0 := s) found
    exact ⟨_, runs, advanced, turned, released⟩

end Sys2Proof.Machine
end

section
/-! ### Inboxes (O27)

A message is taken from its ring or written into it, or a channel's notice thread is named: each changes one entry of a list of a core,
and `ibs` the 32 bytes of the entry (R89, R101-R103). -/

namespace Sys2Proof.Machine

open Config

/-! ### Several registers at once -/

theorem regIndex_succ (r : BitVec 4) (i : Nat) : r + 1#4 + BitVec.ofNat 4 i = r + BitVec.ofNat 4 (i + 1) := by
  rw [BitVec.ofNat_add, BitVec.add_assoc, BitVec.add_comm (1#4)]

/-- The values of registers from `r` on. -/
def State.regs (s : State) (r : BitVec 4) (n : Nat) : List Word := (List.range n).map fun i => s.x (r + BitVec.ofNat 4 i)

theorem State.regs_succ (s : State) (r : BitVec 4) (n : Nat) : s.regs r (n + 1) = s.x r :: s.regs (r + 1#4) n := by
  rw [State.regs, List.range_succ_eq_map, List.map_cons, List.map_map, show r + BitVec.ofNat 4 0 = r from BitVec.add_zero r, State.regs]
  simp only [Function.comp_def, regIndex_succ]

theorem withRegs_ready {n : Nat} {r : BitVec 4} {s : State} {k : List Word → Eff} (h : s.regsReady r n) :
    withRegs n r s k = k (s.regs r n) := by
  induction n generalizing r k with
  | zero => rfl
  | succ n ih =>
    have first : s.regReady r = true := by simpa using h 0 (Nat.succ_pos n)
    have rest : s.regsReady (r + 1#4) n := fun i hi => by
      rw [regIndex_succ]
      exact h (i + 1) (Nat.succ_lt_succ hi)
    rw [withRegs, withReg_ready first, ih rest, State.regs_succ]

theorem withDests_free {n : Nat} {r : BitVec 4} {s : State} {k : Eff} (h : s.destsFree r n) : withDests n r s k = k := by
  induction n generalizing r with
  | zero => rfl
  | succ n ih =>
    have first : s.destFree r false = true := by simpa using h 0 (Nat.succ_pos n)
    have rest : s.destsFree (r + 1#4) n := fun i hi => by
      rw [regIndex_succ]
      exact h (i + 1) (Nat.succ_lt_succ hi)
    rw [withDests, withDestReg_free first, ih rest]

theorem Ctx.writeAll_cons (r : BitVec 4) (v : Word) (vs : List Word) (c : Ctx) :
    c.writeAll r (v :: vs) = (c.writeX r v).writeAll (r + 1#4) vs := by
  rw [Ctx.writeAll, List.length_cons, List.range_succ_eq_map, List.foldl_cons, List.foldl_map, show r + BitVec.ofNat 4 0 = r from BitVec.add_zero r,
    Ctx.writeAll]
  simp only [regIndex_succ, List.getD_cons_zero, List.getD_cons_succ, Nat.succ_eq_add_one]

theorem State.writeRegs_eq (vs : List Word) (r : BitVec 4) (s : State) : s.writeRegs vs r = s.mapCtx (Ctx.writeAll r vs) := by
  induction vs generalizing r s with
  | nil => rfl
  | cons v vs ih =>
    rw [State.writeRegs, ih]
    show s.mapCtx (fun c => (c.writeX r v).writeAll (r + 1#4) vs) = _
    exact congrArg s.mapCtx (funext fun c => (Ctx.writeAll_cons r v vs c).symm)

theorem Ctx.writeAll_pc (r : BitVec 4) (vs : List Word) (c : Ctx) : (c.writeAll r vs).pc = c.pc := by
  induction vs generalizing r c with
  | nil => rfl
  | cons v vs ih => rw [Ctx.writeAll_cons, ih, Ctx.writeX_pc]

/-! ### Bytes that are written (R151, R157) -/

theorem mem_wordsOf {a n w : Nat} (h : w ∈ wordsOf a n) : a / 8 ≤ w ∧ w ≤ (a + n - 1) / 8 := by
  unfold wordsOf at h
  split at h
  · cases h
  · obtain ⟨i, hi, rfl⟩ := List.mem_map.1 h
    have := List.mem_range.1 hi
    omega

/-- What is written at an address changes nothing outside it. -/
theorem State.writeMem_outside {a : Nat} {bs : List Byte} {s : State} (inv : s.Inv) : OutsideKept s (s.writeMem a bs) a bs.length := by
  refine ⟨fun b off => Memory.readByte_write_other bs a b inv off, fun b off => ?_⟩
  have free : b / 8 ∉ wordsOf a bs.length := fun h => by
    have := mem_wordsOf h
    omega
  simp only [State.isFull, State.writeMem]
  refine congrArg _ (Bool.eq_iff_iff.2 ?_)
  simp [free]

theorem OutsideKept.congr {s t u : State} {a n : Nat} (out : OutsideKept s t a n) (mem : u.mem = t.mem) (empties : u.empties = t.empties) :
    OutsideKept s u a n := by
  obtain ⟨bytes, full⟩ := out
  exact ⟨fun b off => by rw [mem, bytes b off], fun b off => by rw [← full b off, State.isFull, State.isFull, empties]⟩

/-! ### Taking a message (R101) -/

theorem getD_set_self {α : Type} {l : List α} {i : Nat} {a d : α} (h : i < l.length) : (l.set i a).getD i d = a := by
  rw [List.getD_eq_getElem?_getD, List.getElem?_set_self h, Option.getD_some]

section
variable (x : Args) (s : State)

theorem exec_ibx : exec (.ibx x) s = execIbx x s := rfl

theorem exec_ibs : exec (.ibs x) s = execIbs x s := rfl

theorem exec_ntc : exec (.ntc x) s = execNtc x s := rfl

end

/-- The oldest message of a channel of the thread's core is in four registers and gone from the channel. -/
def State.takeMsg (ch : Nat) (r : BitVec 4) (s : State) : State :=
  let c := s.core s.thr.core
  let q := c.inbox.getD ch (0, 0)
  let a := coreAddr s.thr.core (c.ibEntryAt ch q.1)
  ((s.setCore s.thr.core fun c => { c with inbox := c.inbox.set ch ((q.1 + 1) % c.ibEntries, q.2 - 1) }).writeRegs
    [s.readWord a, s.readWord (a + 8), s.readWord (a + 16), s.readWord (a + 24)] r).dropNear s.thr.core

theorem exec_ibx_takes {x : Args} {s : State} (e : s.enabled x.h = true) (free : s.destsFree x.a.rix 4)
    (waits : s.aheadOf (.inbox (chanOfOpnd x.b)) < ((s.core s.thr.core).inbox.getD (chanOfOpnd x.b) (0, 0)).2)
    (good : s.poisoned (coreAddr s.thr.core ((s.core s.thr.core).ibEntryAt (chanOfOpnd x.b)
      ((s.core s.thr.core).inbox.getD (chanOfOpnd x.b) (0, 0)).1)) 32 = false) :
    exec (.ibx x) s = .next (Eff.finish x.h s (.done (s.takeMsg (chanOfOpnd x.b) x.a.rix))) := by
  rw [exec_ibx, execIbx, issue_enabled e, withDests_free free, if_neg (Nat.not_le.2 waits), if_neg (by rw [good]; exact Bool.false_ne_true)]
  rfl

theorem State.takeMsg_takes {ch : Nat} {r : BitVec 4} {s : State} {h : Head} {s0 : State}
    (known : ch < (s.core s.thr.core).inbox.length) :
    let c := s.core s.thr.core
    let q := c.inbox.getD ch (0, 0)
    let a := coreAddr s.thr.core (c.ibEntryAt ch q.1)
    let u := Eff.finish h s0 (.done (s.takeMsg ch r))
    Advanced s u (s.thr.ctx.writeAll r [s.readWord a, s.readWord (a + 8), s.readWord (a + 16), s.readWord (a + 24)]) ∧
      (u.core s.thr.core).inbox.getD ch (0, 0) = ((q.1 + 1) % c.ibEntries, q.2 - 1) := by
  intro c q a u
  have regs : s.takeMsg ch r = (State.mapCtx (Ctx.writeAll r _) _).dropNear s.thr.core :=
    congrArg (State.dropNear s.thr.core) (State.writeRegs_eq _ _ _)
  refine ⟨finish_done_advanced ?_ ?_ ?_ ?_, ?_⟩
  · rw [regs]
    exact ⟨rfl, rfl, rfl⟩
  · rw [regs]
    exact .refl s
  · rw [regs]
    exact Ctx.writeAll_pc _ _ _
  · rw [regs]
    rfl
  · rw [finish_done_coreField (f := CoreSt.inbox) fun _ _ => rfl, regs, State.dropNear_coreField (p := CoreSt.inbox) fun _ _ => rfl]
    rw [CtxOnly.core_eq (CtxOnly.mapCtx _ _), State.core_setCore]
    exact getD_set_self known

/-! ### Sending a message (R102) -/

/-- The target of an `ibs` to a core of this device has bits in its low 11 only. -/
theorem localTarget {v : Word} (known : v.toNat < 2048) :
    v &&& 0xFFFFFFFF7C00F800#64 = 0#64 ∧ bit v.toNat 31 = false ∧ bits v.toNat 16 10 = 0 ∧ bits v.toNat 0 11 = v.toNat := by
  have high : ∀ i, 11 ≤ i → v.getLsbD i = false := fun i hi =>
    Nat.testBit_lt_two_pow (Nat.lt_of_lt_of_le known (Nat.pow_le_pow_right (n := 2) (by decide) hi))
  have low : ∀ i < 11, (0xFFFFFFFF7C00F800#64).getLsbD i = false := by decide
  refine ⟨BitVec.eq_of_getLsbD_eq fun i _ => ?_, ?_, ?_, ?_⟩
  · rw [BitVec.getLsbD_and, BitVec.getLsbD_zero]
    rcases Nat.lt_or_ge i 11 with lt | ge
    · rw [low i lt, Bool.and_false]
    · rw [high i ge, Bool.false_and]
  · exact high 31 (by decide)
  · rw [bits]
    omega
  · rw [bits]
    omega

theorem State.putMsg_quiet {n ch : Nat} {m : Msg} {s : State} (quiet : (s.core n).notice.getD ch none = none) :
    let q := (s.core n).inbox.getD ch (0, 0)
    s.putMsg n ch m = (s.writeMem (coreAddr n ((s.core n).ibEntryAt ch (q.1 + q.2))) m.toBytes).setCore n fun c =>
      { c with inbox := c.inbox.set ch (q.1, q.2 + 1) } := by
  simp only [State.putMsg, quiet]

theorem State.ackWith_only (src home level : Nat) (s : State) : ∃ acks, s.ackWith src home level = { s with acks := acks } := by
  unfold State.ackWith
  split <;> exact ⟨_, rfl⟩

theorem leBytes_mod (n v : Nat) : leBytes n (v % 256 ^ n) = leBytes n v := by
  induction n generalizing v with
  | zero => rfl
  | succ n ih =>
    rw [leBytes, leBytes]
    refine congrArg₂ _ ?_ ?_
    · refine BitVec.eq_of_toNat_eq ?_
      rw [BitVec.toNat_ofNat, BitVec.toNat_ofNat, show 2 ^ 8 = 256 from rfl, Nat.pow_succ, Nat.mod_mul_left_mod]
    · rw [Nat.pow_succ, Nat.mod_mul_left_div_self, ih]

theorem FeOnly.homeOpen {s t : State} (a : FeOnly s t) (addr home : Nat) : t.homeOpen addr home = s.homeOpen addr home := by
  have charge := a.canCharge home
  obtain ⟨fe, rfl⟩ := a
  rw [State.homeOpen, State.homeOpen, charge]
  rfl

/-- The message of an `ibs` with the values of its four registers: KIND 0, and the issuing core as SRC (R102). -/
def ibsMsg (core : Nat) (vs : List Word) : Msg :=
  ⟨(vs.getD 0 0#64).setWidth 32, 0#16, BitVec.ofNat 16 core, vs.getD 1 0#64, vs.getD 2 0#64, vs.getD 3 0#64⟩

theorem ibsMsg_toBytes (core : Nat) (v0 v1 v2 v3 : Word) : (ibsMsg core [v0, v1, v2, v3]).toBytes =
    leBytes 4 v0.toNat ++ leBytes 2 0 ++ leBytes 2 core ++ leBytes 8 v1.toNat ++ leBytes 8 v2.toNat ++ leBytes 8 v3.toNat := by
  have tag : leBytes 4 (v0.setWidth 32).toNat = leBytes 4 v0.toNat := by
    rw [BitVec.toNat_setWidth]
    exact leBytes_mod 4 v0.toNat
  have src : leBytes 2 (BitVec.ofNat 16 core).toNat = leBytes 2 core := by
    rw [BitVec.toNat_ofNat]
    exact leBytes_mod 2 core
  show leBytes 4 (v0.setWidth 32).toNat ++ leBytes 2 0 ++ leBytes 2 (BitVec.ofNat 16 core).toNat
    ++ (leBytes 8 v1.toNat ++ (leBytes 8 v2.toNat ++ (leBytes 8 v3.toNat ++ []))) = _
  rw [tag, src]
  simp only [List.append_nil, List.append_assoc]

/-- A thread without a store under way or a recorded fault goes on. -/
theorem withStores_none {s : State} {k : Eff} (h : s.noStores = true) : withStores s k = k := by
  simp only [State.noStores, Bool.and_eq_true, beq_iff_eq, Option.isNone_iff_eq_none] at h
  rw [withStores, if_pos h.1, withRecorded_none h.2]

/-- A message to an open home whose channel has room is put into its ring. -/
theorem sendLocal_puts {a n ch : Nat} {m : Msg} {s : State} (opened : s.homeOpen a n = true)
    (room : s.aheadOf (.room n ch) < s.roomOf n ch) :
    ∃ t acks, DraughtOnly s t ∧ sendLocal n ch m s = .done { t.putMsg n ch m with acks := acks } := by
  obtain ⟨-, order, -, live, charge⟩ := State.homeOpen_cases opened
  obtain ⟨t, only, charged⟩ := withCharge_ok charge
  obtain ⟨acks, acked⟩ := (t.putMsg n ch m).ackWith_only s.thr.core n ((t.putMsg n ch m).levelOf n ch)
  refine ⟨t, acks, only, ?_⟩
  rw [sendLocal, if_neg (by rw [live]; exact Bool.false_ne_true), if_neg (Nat.not_le.2 room), withOrder,
    if_neg (by rw [order]; exact Bool.false_ne_true), State.performPrior_of_homeOpen opened, charged, only.thr]
  exact congrArg Eff.done acked

/-- An `ibs` to a core of this device is the message of its four registers to the core named (R102). -/
theorem exec_ibs_local {x : Args} {s : State} (e : s.enabled x.h = true) (ready : x.b.ready s = true)
    (regs : (x.b.after s).regsReady x.c.rix 4) (known : (x.b.val s).toNat < 2048) (stores : (x.b.after s).noStores = true) :
    exec (.ibs x) s = .next (Eff.finish x.h s (sendLocal (x.b.val s).toNat (chanOfOpnd x.a)
      (ibsMsg s.thr.core ((x.b.after s).regs x.c.rix 4)) (x.b.after s))) := by
  obtain ⟨mask, near, noPeer, target⟩ := localTarget known
  rw [exec_ibs, execIbs, issue_enabled e, withSrc_ready ready, withRegs_ready regs]
  dsimp only
  rw [if_neg (by simp [mask, near, noPeer]), withStores_none stores, near, target, (FeOnly.after x.b s).thr_core]
  rfl

theorem FeOnly.regs {s t : State} (a : FeOnly s t) (r : BitVec 4) (n : Nat) : t.regs r n = s.regs r n := by
  obtain ⟨fe, rfl⟩ := a
  rfl

theorem MemKept.outside {s t u : State} {a n : Nat} (kept : MemKept s t) (out : OutsideKept t u a n) : OutsideKept s u a n := by
  obtain ⟨bytes, full, -⟩ := kept
  obtain ⟨bytes', full'⟩ := out
  exact ⟨fun b off => (bytes' b off).trans (bytes b), fun b off => (full' b off).trans (full b)⟩

/-- A message that is put into a ring with no notice thread is the only change, and the next entry holds it (R89). -/
theorem finish_putMsg {n ch : Nat} {m : Msg} {acks : List Ack} {s : State} {h : Head} {s0 : State} (inv : s.Inv)
    (quiet : (s.core n).notice.getD ch none = none) (known : ch < (s.core n).inbox.length) :
    let q := (s.core n).inbox.getD ch (0, 0)
    let a := coreAddr n ((s.core n).ibEntryAt ch (q.1 + q.2))
    let u := Eff.finish h s0 (.done { s.putMsg n ch m with acks := acks })
    Leaves s u { s.thr.ctx with pc := s.pc + 12#64 } ∧ SameThread s u ∧ u.readMem a m.toBytes.length = m.toBytes ∧
      OutsideKept s u a m.toBytes.length ∧ (u.core n).inbox.getD ch (0, 0) = (q.1, q.2 + 1) := by
  intro q a u
  have put := State.putMsg_quiet (m := m) quiet
  have only : OnlyThread { s.putMsg n ch m with acks := acks } u := finish_done_only
  have mem : u.mem = (s.writeMem a m.toBytes).mem := by
    rw [only.mem, put]
    rfl
  have empties : u.empties = (s.writeMem a m.toBytes).empties := by
    rw [only.1, put]
    rfl
  have same : SameThread s { s.putMsg n ch m with acks := acks } := by
    rw [put]
    exact ⟨rfl, rfl, rfl⟩
  refine ⟨finish_done_leaves ?_ ?_, same.trans finish_done_same, ?_, (State.writeMem_outside inv).congr mem empties, ?_⟩
  · rw [put]
    rfl
  · rw [put]
    rfl
  · rw [State.readMem, mem]
    exact Memory.read_write _ a inv
  · have core : ({ s.putMsg n ch m with acks := acks } : State).core n = (s.putMsg n ch m).core n := rfl
    rw [finish_done_coreField (f := CoreSt.inbox) fun _ _ => rfl, core, put, State.core_setCore]
    exact getD_set_self known

/-! ### The notice thread (R103) -/

/-- Emptying a register does not change which threads a core has. -/
theorem FeOnly.findThr_isSome {s t : State} (a : FeOnly s t) (core : Nat) (cxa : Word) :
    (t.findThr core cxa).isSome = (s.findThr core cxa).isSome := by
  obtain ⟨fe, rfl⟩ := a
  have named : (State.mapCtx (fun c => { c with fe := fe }) s).thr.isAt core cxa = s.thr.isAt core cxa := rfl
  rw [State.findThr_eq, State.findThr_eq, List.find?_cons, List.find?_cons, named]
  cases s.thr.isAt core cxa <;> rfl

/-- Settles O27: a message is taken, or put into its ring at an open home, or the notice thread is named. -/
theorem inboxInstructions : Obligations.InboxInstructions := by
  unfold Obligations.InboxInstructions
  intro x s e
  refine ⟨?_, ?_, ?_⟩
  · intro ch c q a known free waits good
    exact ⟨_, exec_ibx_takes e free waits good, State.takeMsg_takes known⟩
  · intro s1 n ch c q a v inv ready regs known chan stores room opened quiet
    have fe : FeOnly s s1 := FeOnly.after x.b s
    have room1 : s1.aheadOf (.room n ch) < s1.roomOf n ch := by
      rw [fe.aheadOf, State.roomOf, fe.core_eq]
      exact room
    obtain ⟨t, acks, only, sent⟩ := sendLocal_puts (m := ibsMsg s.thr.core (s1.regs x.c.rix 4)) ((fe.homeOpen a n).trans opened) room1
    have kept : MemKept s t := fe.ctxOnly.kept.trans only.kept
    have four : s1.regs x.c.rix 4 = [v 0, v 1, v 2, v 3] := fe.regs x.c.rix 4
    have bytes := ibsMsg_toBytes s.thr.core (v 0) (v 1) (v 2) (v 3)
    have len : (ibsMsg s.thr.core (s1.regs x.c.rix 4)).toBytes.length = 32 := by
      rw [four, bytes]
      simp
    obtain ⟨l, target⟩ : ∃ l, t.core n = { c with draught := l } := ⟨(t.core n).draught, by rw [only.2 n, fe.core_eq]⟩
    have wf : t.Inv := by
      obtain ⟨f, fe_eq⟩ := fe
      rw [State.Inv, only.1]
      show Memory.wf s1.mem = true
      rw [fe_eq]
      exact inv
    have put := finish_putMsg (acks := acks) (h := x.h) (s0 := s) (m := ibsMsg s.thr.core (s1.regs x.c.rix 4)) (s := t) (n := n) (ch := ch)
      wf (by rw [target]; exact quiet) (by rw [target]; exact chan)
    rw [target, len] at put
    obtain ⟨leaves, same, read, outside, count⟩ := put
    refine ⟨_, (exec_ibs_local e ready regs known stores).trans (by rw [sent]), ?_, ?_, ?_, kept.outside outside, count⟩
    · rw [Leaves, State.pc, only.thr, fe.res] at leaves
      rw [← fe.pc]
      exact leaves
    · refine (fe.ctxOnly.same.trans ?_).trans same
      rw [SameThread, only.thr]
      exact ⟨rfl, rfl, rfl⟩
    · rw [← bytes, ← four]
      exact read
  · intro ch v ready known named
    have fe := FeOnly.after x.b s
    have there : ¬ (v ≠ 0#64 ∧ ((x.b.after s).findThr (x.b.after s).thr.core v).isNone = true) := by
      rintro ⟨some, none⟩
      rw [fe.thr_core, ← Option.not_isSome, fe.findThr_isSome, named.resolve_left some] at none
      cases none
    refine ⟨_, ?_, finish_done_advanced (h := x.h) (s0 := s)
      (t := (x.b.after s).setCore s.thr.core fun c => { c with notice := c.notice.set ch (if v = 0#64 then none else some v) })
      fe.ctxOnly.same fe.ctxOnly.kept fe.pc (fe.final id), ?_⟩
    · rw [exec_ntc, execNtc, issue_enabled e, withSrc_ready ready, if_neg there, fe.thr_core]
    · rw [finish_done_coreField (f := CoreSt.notice) fun _ _ => rfl, State.core_setCore, fe.core_eq]
      exact getD_set_self known

end Sys2Proof.Machine
end

section
/-! ### The first wave of a population (O25)

Each thread that a spawn materialises takes a line, an entry of the ember cache or its record, and may send older images to their records
(R71, R76, R86). `WaveOnly` says what none of this changes: the context of the thread that issues, the pages that a port has, and what a
population has of its descriptor. -/

namespace Sys2Proof.Machine

open Config

/-! ### Lists that are changed at their first match -/

theorem mem_mapFirst {α : Type} {p : α → Bool} {f : α → α} {l : List α} {b : α} (h : b ∈ mapFirst p f l) :
    ∃ a ∈ l, b = a ∨ b = f a := by
  induction l with
  | nil => cases h
  | cons c l ih =>
    rw [mapFirst] at h
    split at h
    · rcases List.mem_cons.1 h with rfl | h
      · exact ⟨c, List.mem_cons_self, .inr rfl⟩
      · exact ⟨b, List.mem_cons_of_mem _ h, .inl rfl⟩
    · rcases List.mem_cons.1 h with rfl | h
      · exact ⟨b, List.mem_cons_self, .inl rfl⟩
      · obtain ⟨a, mem, eq⟩ := ih h
        exact ⟨a, List.mem_cons_of_mem _ mem, eq⟩

theorem exists_mem_mapFirst {α : Type} {p : α → Bool} {f : α → α} {l : List α} {a : α} (h : a ∈ l) :
    ∃ b ∈ mapFirst p f l, b = a ∨ b = f a := by
  induction l with
  | nil => cases h
  | cons c l ih =>
    rw [mapFirst]
    rcases List.mem_cons.1 h with rfl | h
    · split
      · exact ⟨f a, List.mem_cons_self, .inr rfl⟩
      · exact ⟨a, List.mem_cons_self, .inl rfl⟩
    · split
      · exact ⟨a, List.mem_cons_of_mem _ h, .inl rfl⟩
      · obtain ⟨b, mem, eq⟩ := ih h
        exact ⟨b, List.mem_cons_of_mem _ mem, eq⟩

theorem oldestOf_mem {p : Thread → Bool} {l : List Thread} {t : Thread} (h : oldestOf p l = some t) : t ∈ l := by
  have inside : ∀ u ∈ oldestOf p l, u ∈ l := by
    refine List.foldlRecOn (motive := fun o : Option Thread => ∀ u ∈ o, u ∈ l) (l.filter p) _ (fun u hu => by cases hu) ?_
    intro o ho t ht u hu
    have mem : t ∈ l := List.mem_of_mem_filter ht
    cases o with
    | none =>
      cases hu
      exact mem
    | some v =>
      dsimp only at hu
      split at hu
      · cases hu
        exact mem
      · exact ho u hu
  exact inside t h

/-! ### What a wave keeps -/

/-- What a population has of its descriptor and its spawn. -/
def Pop.given (p : Pop) : Word × Word × List Word × Nat × Nat × List Nat × BitVec 16 :=
  (p.handle, p.pc, p.seeds, p.count, p.quota, p.cores, p.task)

/-- The context of the thread that issues, the pages that a port has and the misses noted are the same; core `n` has the pages of the
records of its threads if it had them, and no population is lost. -/
def WaveOnly (n : Nat) (s u : State) : Prop :=
  u.clusters = s.clusters ∧ u.coreMap = s.coreMap ∧ u.trying = s.trying ∧ u.pc = s.pc ∧ u.thr.final = s.thr.final ∧
    (s.recordsNear n = true → u.recordsNear n = true) ∧ ∀ p ∈ s.pops, ∃ q ∈ u.pops, q.given = p.given

theorem WaveOnly.refl (n : Nat) (s : State) : WaveOnly n s s := ⟨rfl, rfl, rfl, rfl, rfl, id, fun p hp => ⟨p, hp, rfl⟩⟩

theorem WaveOnly.trans {n : Nat} {s t u : State} (a : WaveOnly n s t) (b : WaveOnly n t u) : WaveOnly n s u := by
  obtain ⟨clusters, coreMap, trying, pc, final, near, pops⟩ := a
  obtain ⟨clusters', coreMap', trying', pc', final', near', pops'⟩ := b
  refine ⟨clusters'.trans clusters, coreMap'.trans coreMap, trying'.trans trying, pc'.trans pc, final'.trans final, near' ∘ near, ?_⟩
  intro p hp
  obtain ⟨q, hq, same⟩ := pops p hp
  obtain ⟨r, hr, same'⟩ := pops' q hq
  exact ⟨r, hr, same'.trans same⟩

theorem WaveOnly.near {n : Nat} {s u : State} (a : WaveOnly n s u) (near : s.recordsNear n = true) : u.recordsNear n = true := by
  obtain ⟨-, -, -, -, -, keeps, -⟩ := a
  exact keeps near

/-- Only the ports' pages and the core map count for whether a port has a record's page. -/
theorem State.recordNear_congr {s u : State} (clusters : u.clusters = s.clusters) (coreMap : u.coreMap = s.coreMap) (core : Nat)
    (task : BitVec 16) (cxa : Word) : u.recordNear core task cxa = s.recordNear core task cxa := by
  simp only [State.recordNear, State.pageNear, State.lookup, State.coreCluster, State.pos, State.mapEntry, State.cluster, clusters, coreMap]

theorem State.recordsNear_iff {s : State} {n : Nat} : s.recordsNear n = true ↔
    ∀ t ∈ s.thr :: s.pool, t.wait ≠ .ended → t.core = n → s.recordNear n (t.ctx.st.extractLsb' 16 16) t.ctx.cxa = true := by
  simp only [State.recordsNear, State.attached, State.threads, List.all_eq_true, List.mem_filter, decide_eq_true_eq, beq_iff_eq]
  exact ⟨fun h t mem there core => h t ⟨⟨mem, there⟩, core⟩, fun h t ht => h t ht.1.1 ht.1.2 ht.2⟩

theorem WaveOnly.recordNear {n : Nat} {s u : State} (a : WaveOnly n s u) (core : Nat) (task : BitVec 16) (cxa : Word) :
    u.recordNear core task cxa = s.recordNear core task cxa := by
  obtain ⟨clusters, coreMap, -⟩ := a
  exact State.recordNear_congr clusters coreMap core task cxa

/-- Threads with the names of threads that were there have the same records. -/
theorem State.recordsNear_of_images {s u : State} {n : Nat} (clusters : u.clusters = s.clusters) (coreMap : u.coreMap = s.coreMap)
    (images : ∀ b ∈ u.thr :: u.pool, ∃ a ∈ s.thr :: s.pool,
      b.ctx.st = a.ctx.st ∧ b.ctx.cxa = a.ctx.cxa ∧ b.core = a.core ∧ b.wait = a.wait)
    (near : s.recordsNear n = true) : u.recordsNear n = true := by
  refine State.recordsNear_iff.2 fun b hb there core => ?_
  obtain ⟨a, ha, st, cxa, core', wait⟩ := images b hb
  rw [State.recordNear_congr clusters coreMap, st, cxa]
  exact State.recordsNear_iff.1 near a ha (wait ▸ there) (core' ▸ core)

/-- Nothing of the threads, the populations, the ports' pages or the core map has changed. -/
theorem WaveOnly.of_eq {n : Nat} {s u : State} (clusters : u.clusters = s.clusters) (coreMap : u.coreMap = s.coreMap)
    (trying : u.trying = s.trying) (thr : u.thr = s.thr) (pool : u.pool = s.pool) (pops : u.pops = s.pops) : WaveOnly n s u := by
  refine ⟨clusters, coreMap, trying, congrArg (fun t => t.ctx.pc) thr, congrArg Thread.final thr,
    State.recordsNear_of_images clusters coreMap ?_, ?_⟩
  · rw [thr, pool]
    exact fun b hb => ⟨b, hb, rfl, rfl, rfl, rfl⟩
  · rw [pops]
    exact fun p hp => ⟨p, hp, rfl⟩

/-- A change of a thread that leaves its context, its resume state, its core and what it waits for. -/
def PlaceOnly (f : Thread → Thread) : Prop := ∀ t, (f t).ctx = t.ctx ∧ (f t).res = t.res ∧ (f t).core = t.core ∧ (f t).wait = t.wait

theorem State.updThr_wave {n core : Nat} {cxa : Word} {f : Thread → Thread} (image : PlaceOnly f) (s : State) :
    WaveOnly n s (s.updThr core cxa f) := by
  have same : ∀ a b : Thread, b = a ∨ b = f a → b.ctx.st = a.ctx.st ∧ b.ctx.cxa = a.ctx.cxa ∧ b.core = a.core ∧ b.wait = a.wait := by
    rintro a b (rfl | rfl)
    · exact ⟨rfl, rfl, rfl, rfl⟩
    · obtain ⟨ctx, -, core, wait⟩ := image a
      exact ⟨congrArg Ctx.st ctx, congrArg Ctx.cxa ctx, core, wait⟩
  unfold State.updThr
  split
  · obtain ⟨ctx, res, -, -⟩ := image s.thr
    refine ⟨rfl, rfl, rfl, congrArg Ctx.pc ctx, by rw [Thread.final, ctx, res]; rfl,
      State.recordsNear_of_images rfl rfl ?_, fun p hp => ⟨p, hp, rfl⟩⟩
    intro b hb
    rcases List.mem_cons.1 hb with rfl | pooled
    · exact ⟨s.thr, List.mem_cons_self, same _ _ (.inr rfl)⟩
    · exact ⟨b, List.mem_cons_of_mem _ pooled, rfl, rfl, rfl, rfl⟩
  · split
    · refine ⟨rfl, rfl, rfl, rfl, rfl, State.recordsNear_of_images rfl rfl ?_, fun p hp => ⟨p, hp, rfl⟩⟩
      intro b hb
      rcases List.mem_cons.1 hb with rfl | pooled
      · exact ⟨s.thr, List.mem_cons_self, rfl, rfl, rfl, rfl⟩
      · obtain ⟨a, ha, changed⟩ := mem_mapFirst pooled
        exact ⟨a, List.mem_cons_of_mem _ ha, same a b changed⟩
    · exact .of_eq rfl rfl rfl rfl rfl rfl

theorem State.updPop_wave {n ix : Nat} {f : Pop → Pop} (given : ∀ p, (f p).given = p.given) (s : State) : WaveOnly n s (s.updPop ix f) := by
  refine ⟨rfl, rfl, rfl, rfl, rfl, State.recordsNear_of_images rfl rfl fun b hb => ⟨b, hb, rfl, rfl, rfl, rfl⟩, fun p hp => ?_⟩
  obtain ⟨q, hq, rfl | rfl⟩ := exists_mem_mapFirst (p := fun p => p.ix == ix) (f := f) hp
  · exact ⟨q, hq, rfl⟩
  · exact ⟨_, hq, given p⟩

/-! ### Images that move (R75-R77) -/

/-- Where the port has the page of a record, no miss is noted. -/
theorem State.reachRecord_near {core : Nat} {task : BitVec 16} {cxa : Word} {s : State} (near : s.recordNear core task cxa = true)
    (write : Bool) : s.reachRecord core task cxa write = s := by
  simp only [State.recordNear, State.pageNear, Bool.or_eq_true, beq_iff_eq, Bool.not_eq_true', decide_eq_false_iff_not,
    bne_iff_ne] at near
  unfold State.reachRecord
  dsimp only
  split
  · split
    · rfl
    · rename_i paged
      rw [if_neg]
      rintro ⟨miss, -⟩
      rcases near with zero | high | hit
      · exact paged (.inl zero)
      · exact paged (.inr (Nat.not_lt.1 high))
      · exact hit miss
  · rfl

theorem State.attached_iff {s : State} {n : Nat} {t : Thread} :
    t ∈ s.attached n ↔ t ∈ s.thr :: s.pool ∧ t.wait ≠ .ended ∧ t.core = n := by
  simp only [State.attached, State.threads, List.mem_filter, decide_eq_true_eq, beq_iff_eq, and_assoc]

/-- An image of a thread of the core goes to its record, or waits for it (R77). -/
theorem State.toRecord_wave {n : Nat} {s : State} {t : Thread} (near : s.recordsNear n = true) (mem : t ∈ s.attached n) :
    WaveOnly n s (s.toRecord t).2 := by
  obtain ⟨named, there, core⟩ := State.attached_iff.1 mem
  have reached := State.reachRecord_near (core ▸ State.recordsNear_iff.1 near t named there core) true
  have recorded := State.updThr_wave (n := n) (core := t.core) (cxa := t.ctx.cxa)
    (f := fun t => { t with place := .record, wbHeld := false }) (fun _ => ⟨rfl, rfl, rfl, rfl⟩) s
  have held := State.updThr_wave (n := n) (core := t.core) (cxa := t.ctx.cxa)
    (f := fun t => { t with wbHeld := true }) (fun _ => ⟨rfl, rfl, rfl, rfl⟩) s
  unfold State.toRecord
  split
  · exact recorded
  · dsimp only
    rw [reached]
    split
    · exact recorded.trans (.of_eq rfl rfl rfl rfl rfl rfl)
    · exact held.trans (.of_eq rfl rfl rfl rfl rfl rfl)

theorem State.emberSpace_wave {n fuel : Nat} {s : State} (near : s.recordsNear n = true) : WaveOnly n s (s.emberSpace n fuel).2 := by
  induction fuel generalizing s with
  | zero => exact .refl n s
  | succ fuel ih =>
    unfold State.emberSpace
    split
    · exact .refl n s
    · split
      · exact .refl n s
      · rename_i t oldest
        have moved := State.toRecord_wave near (oldestOf_mem oldest)
        exact moved.trans (ih (moved.near near))

theorem State.seatRoom_wave {n : Nat} {s : State} (near : s.recordsNear n = true) : WaveOnly n s (s.seatRoom n).2 := by
  unfold State.seatRoom
  split
  · exact .refl n s
  · exact State.emberSpace_wave near

theorem State.touchBank_wave (n core : Nat) (t : Thread) (s : State) : WaveOnly n s (s.touchBank core t) := by
  unfold State.touchBank
  split
  · split <;> exact .of_eq rfl rfl rfl rfl rfl rfl
  · exact .refl n s

theorem State.seat_wave (n core : Nat) (cxa : Word) (s : State) : WaveOnly n s (s.seat core cxa) := by
  have seated (p : Place) (s : State) : WaveOnly n s (s.updThr core cxa fun t => { t with place := p }) :=
    State.updThr_wave (f := fun t => { t with place := p }) (fun _ => ⟨rfl, rfl, rfl, rfl⟩) s
  unfold State.seat
  split
  · rename_i k _
    exact (State.touchBank_wave n core { place := .line k } s).trans (seated (.line k) _)
  · exact seated .ember s

theorem State.findThr_attached {s : State} {n : Nat} {cxa : Word} {t : Thread} (h : s.findThr n cxa = some t) : t ∈ s.attached n := by
  obtain ⟨name, there⟩ := Thread.isAt_iff.1 (List.find?_some h)
  exact List.mem_filter.2 ⟨List.mem_of_find?_eq_some h, beq_iff_eq.2 (congrArg Prod.fst name).symm⟩

theorem State.placeImage_wave {n : Nat} {s : State} (cxa : Word) (near : s.recordsNear n = true) : WaveOnly n s (s.placeImage n cxa) := by
  have room := State.seatRoom_wave near
  unfold State.placeImage
  dsimp only
  split
  · exact room.trans (State.seat_wave n n cxa _)
  · split
    · rename_i t found
      exact room.trans (State.toRecord_wave (room.near near) (State.findThr_attached found))
    · exact room

/-! ### The threads that are made (R71, R86) -/

theorem newCtx_task (p : Pop) (tix : Nat) (cxa : Word) : (newCtx p tix cxa 0#16).st.extractLsb' 16 16 = p.task := by
  have small := p.task.isLt
  refine BitVec.eq_of_toNat_eq ?_
  simp only [newCtx, field, BitVec.toNat_ofNat, Nat.zero_mod, Nat.zero_mul, BitVec.ofNat_eq_ofNat, BitVec.zero_or, BitVec.extractLsb'_toNat,
    Nat.shiftRight_eq_div_pow]
  omega

/-- A thread is added whose record's page the port has. -/
theorem State.addThr_wave {n : Nat} {s : State} {t : Thread} (near : s.recordNear n (t.ctx.st.extractLsb' 16 16) t.ctx.cxa = true) :
    WaveOnly n s { s with pool := s.pool ++ [t], serial := s.serial + 1 } := by
  refine ⟨rfl, rfl, rfl, rfl, rfl, fun all => State.recordsNear_iff.2 fun b hb there at_n => ?_, fun p hp => ⟨p, hp, rfl⟩⟩
  rcases List.mem_cons.1 hb with rfl | pooled
  · exact State.recordsNear_iff.1 all _ List.mem_cons_self there at_n
  · rcases List.mem_append.1 pooled with old | new
    · exact State.recordsNear_iff.1 all b (List.mem_cons_of_mem _ old) there at_n
    · rw [List.mem_singleton.1 new]
      exact near

theorem State.materialise_wave {n i : Nat} {p : Pop} {cxa : Word} {s : State} (near : s.recordNear n p.task cxa = true)
    (all : s.recordsNear n = true) : WaveOnly n s (s.materialise p n i cxa 0#16) := by
  let t : Thread :=
    { ctx := newCtx p (p.tixb + i) cxa 0#16, core := n, place := .record, pinG := (0#16 : BitVec 16) != 0#16, wait := .ready
      popIx := p.ix, bound := s.serial }
  let s1 : State := ({ s with pool := s.pool ++ [t], serial := s.serial + 1 } : State).updPop p.ix fun p => { p with live := p.live + 1 }
  have added : WaveOnly n s s1 :=
    (State.addThr_wave (t := t) (by rw [newCtx_task]; exact near)).trans
      (State.updPop_wave (f := fun p => { p with live := p.live + 1 }) (fun _ => rfl) _)
  have queued : WaveOnly n s (s1.enqueue n cxa 0#2) := added.trans (.of_eq rfl rfl rfl rfl rfl rfl)
  have reached : (s1.enqueue n cxa 0#2).reachRecord n p.task cxa true = s1.enqueue n cxa 0#2 :=
    State.reachRecord_near (by rw [queued.recordNear]; exact near) true
  have made : s.materialise p n i cxa 0#16 = if (s.recordAt n p.task cxa).isSome then (s1.enqueue n cxa 0#2).placeImage n cxa
      else (((s1.enqueue n cxa 0#2).updThr n cxa fun t => { t with raw := true }).markCf n cxa).cxfEvent n cxa 0 := by
    conv_rhs => rw [← reached]
    rfl
  rw [made]
  split
  · exact queued.trans (State.placeImage_wave cxa (queued.near all))
  · have marked := State.updThr_wave (n := n) (core := n) (cxa := cxa) (f := fun t => { t with raw := true }) (fun _ => ⟨rfl, rfl, rfl, rfl⟩)
      (s1.enqueue n cxa 0#2)
    exact (queued.trans marked).trans (.of_eq rfl rfl rfl rfl rfl rfl)

/-- The wave of a population on one core, whose port has the pages of all the records. -/
theorem State.wave_wave {n : Nat} {p : Pop} (k i : Nat) {s : State} (cores : ∀ j, j < i + k → p.waveCore j = n)
    (near : ∀ j, j < i + k → s.recordNear n p.task (p.record j) = true) (all : s.recordsNear n = true) : WaveOnly n s (State.wave p k i s) := by
  induction k generalizing i s with
  | zero => exact .refl n s
  | succ k ih =>
    have made : WaveOnly n s (s.materialiseNext p i) := by
      rw [State.materialiseNext, cores i (by omega)]
      exact (State.materialise_wave (near i (by omega)) all).trans
        (State.updPop_wave (f := fun p => { p with toCome := p.toCome - 1 }) (fun _ => rfl) _)
    refine made.trans (ih (i + 1) (fun j hj => cores j (by omega)) (fun j hj => ?_) (made.near all))
    rw [made.recordNear]
    exact near j (by omega)

end Sys2Proof.Machine
end

section
/-! ### The spawn of a population (O25)

The descriptor is read at its home, its limits hold, the population is recorded under a fresh number, and its first wave is made
(R86, R94, R95). `SameSite` says that what the placement asks of the device is as before the read. -/

namespace Sys2Proof.Machine

open Config

/-! ### A read of one access (R161, R412) -/

theorem lineParts_line {g : Nat} (h : g % 128 + 128 ≤ 128) : lineParts 40 g 128 = [128] := by
  have whole : min 128 (128 - g % 128) = 128 := by omega
  have more : lineParts 40 g 128 = min 128 (128 - g % 128) :: lineParts 39 (g + min 128 (128 - g % 128)) (128 - min 128 (128 - g % 128)) :=
    if_neg (by decide)
  rw [more, whole]
  rfl

/-- `t` differs from `s` in what cores have cached and charged, and in acknowledgments on their way. -/
def ReadOnly (s t : State) : Prop := t = { s with cores := t.cores, acks := t.acks } ∧ ∀ n, (t.core n).dead = (s.core n).dead

theorem ReadOnly.trans {s t u : State} (a : ReadOnly s t) (b : ReadOnly t u) : ReadOnly s u := by
  obtain ⟨rest, dead⟩ := a
  obtain ⟨rest', dead'⟩ := b
  exact ⟨by rw [rest', rest], fun n => (dead' n).trans (dead n)⟩

theorem DraughtOnly.read {s t : State} (a : DraughtOnly s t) : ReadOnly s t := by
  refine ⟨?_, fun n => a.coreField (f := CoreSt.dead) (fun _ _ => rfl) n⟩
  rw [a.1]

theorem State.ackTo_read (src home : Nat) (s : State) : ReadOnly s (s.ackTo src home) := by
  obtain ⟨acks, acked⟩ := State.ackTo_only src home s
  rw [acked]
  exact ⟨rfl, fun _ => rfl⟩

theorem CoreSt.l2Access_dead (a pol : Nat) (wr : Bool) (back : Backing) (c : CoreSt) : (c.l2Access a pol wr back).dead = c.dead := by
  unfold CoreSt.l2Access
  dsimp only
  split
  · split <;> rfl
  · split <;> rfl

theorem State.noteRead_read (cp : BitVec 2) (a home : Nat) (paged : Bool) (leaf : Word) (s : State) :
    ReadOnly s (s.noteRead none cp a home paged leaf) := by
  unfold State.noteRead
  split
  · exact ⟨rfl, fun _ => rfl⟩
  · exact ⟨rfl, fun n => State.setCore_coreField (p := CoreSt.dead) (fun c => CoreSt.l2Access_dead _ _ _ _ c) home n s⟩

theorem ReadOnly.homeDead {s t : State} (a : ReadOnly s t) (home : Nat) : t.homeDead home = s.homeDead home := by
  rw [State.homeDead, a.2 home, a.1]
  rfl

theorem ReadOnly.poisoned {s t : State} (r : ReadOnly s t) (a n : Nat) : t.poisoned a n = s.poisoned a n := by
  rw [r.1]
  rfl

theorem ReadOnly.readMem {s t : State} (r : ReadOnly s t) (a n : Nat) : t.readMem a n = s.readMem a n := by
  rw [r.1]
  rfl

/-- A read of bytes that are not poisoned, at an open home, brings them. -/
theorem withRead_open {s : State} {cp : BitVec 2} {a home n : Nat} {paged : Bool} {leaf : Word} (opened : s.homeOpen a home = true)
    (good : s.poisoned a n = false) : ∃ t, ReadOnly s t ∧ ∀ nak k,
      withRead cp false nak [(.mem a home paged leaf, n)] s k = k (s.readMem a n) t := by
  obtain ⟨-, order, ready, live, charge⟩ := State.homeOpen_cases opened
  obtain ⟨t, only, charged⟩ := withCharge_ok charge
  have read := only.read.trans (State.ackTo_read t.thr.core home t)
  have bad : (t.ackTo t.thr.core home).readBad a home n = none :=
    State.readBad_eq_none ((read.homeDead home).trans live) ((read.poisoned a n).trans good)
  refine ⟨_, read.trans (State.noteRead_read cp a home paged leaf _), fun nak k => ?_⟩
  simp only [withRead, Bool.false_eq_true, if_false, withOrder, order, State.performPrior_of_homeOpen opened, withReady, ready, charged, bad,
    List.append_nil, read.readMem]

/-- A record of one line is read as one access at the place that it reaches (R412). -/
theorem withBytes_open {s s2 : State} {r : BitVec 4} {nd : Need} {ea : Word} {cp : BitVec 2} {a home : Nat} {paged : Bool} {leaf : Word}
    (fresh : s.thr.res.record = none) (reaches : s.reachesLine nd ea 128 128 = some (.mem a home paged leaf, s2))
    (opened : s2.homeOpen a home = true) (good : s2.poisoned a 128 = false) :
    FoundOnly s s2 ∧ ∃ t held, ReadOnly s2 t ∧ ∀ k, withBytes r nd ea 128 128 cp s k = (k (s2.readMem a 128) t).keep held := by
  unfold State.reachesLine at reaches
  split at reaches
  · cases reaches
  · rename_i ts cached
    split at reaches
    · cases reaches
    · rename_i g gva
      split at reaches
      · rename_i fits
        obtain ⟨-, line, inRegion⟩ := fits
        obtain ⟨found, ts', g', held, cached', gva', checked, placed⟩ := withLoc_reaches reaches
        obtain rfl : ts' = ts := Option.some.inj (cached'.symm.trans cached)
        obtain rfl : g' = g := Option.some.inj (gva'.symm.trans gva)
        obtain ⟨t, read, reads⟩ := withRead_open (cp := cp) (paged := paged) (leaf := leaf) opened good
        refine ⟨found, t, held, read, fun k => ?_⟩
        have noZeros : ∀ u : State, u.noteZeros [(.mem a home paged leaf, 128)] = u := fun u => if_neg (by simp)
        rw [withBytes, fresh]
        dsimp only
        rw [withAccess, checked, if_neg inRegion, lineParts_line line, withParts, placed]
        simp only [withParts, reads, noZeros]
      · cases reaches

/-! ### Where a population is placed (R94, R95) -/

/-- What the checks of a spawn ask of the device and of the thread that issues is the same. -/
def SameSite (s t : State) : Prop :=
  t.clusters = s.clusters ∧ t.coreMap = s.coreMap ∧ t.rdyc = s.rdyc ∧ t.rdyd = s.rdyd ∧ t.pool = s.pool ∧ t.self = s.self ∧
    t.thr.wait = s.thr.wait ∧ t.st = s.st ∧ ∀ n, (t.core n).dead = (s.core n).dead

theorem SameSite.trans {s t u : State} (a : SameSite s t) (b : SameSite t u) : SameSite s u := by
  obtain ⟨clusters, coreMap, rdyc, rdyd, pool, self, wait, st, dead⟩ := a
  obtain ⟨clusters', coreMap', rdyc', rdyd', pool', self', wait', st', dead'⟩ := b
  exact ⟨clusters'.trans clusters, coreMap'.trans coreMap, rdyc'.trans rdyc, rdyd'.trans rdyd, pool'.trans pool, self'.trans self,
    wait'.trans wait, st'.trans st, fun n => (dead' n).trans (dead n)⟩

theorem FeOnly.site {s t : State} (a : FeOnly s t) : SameSite s t := by
  obtain ⟨fe, rfl⟩ := a
  exact ⟨rfl, rfl, rfl, rfl, rfl, rfl, rfl, rfl, fun _ => rfl⟩

theorem FoundOnly.site {s t : State} (a : FoundOnly s t) : SameSite s t := by
  obtain ⟨_, _, _, _, _, rfl⟩ := a
  exact ⟨rfl, rfl, rfl, rfl, rfl, rfl, rfl, rfl, fun _ => rfl⟩

theorem ReadOnly.site {s t : State} (a : ReadOnly s t) : SameSite s t := by
  obtain ⟨rest, dead⟩ := a
  have self : t.self = s.self := by
    rw [rest]
    rfl
  have st : t.st = s.st := by
    rw [rest]
    rfl
  exact ⟨by rw [rest], by rw [rest], by rw [rest], by rw [rest], by rw [rest], self, by rw [rest], st, dead⟩

section
variable {s t : State} (a : SameSite s t)
include a

theorem SameSite.levelH : t.levelH = s.levelH := by
  obtain ⟨-, -, -, -, -, -, -, st, -⟩ := a
  rw [State.levelH, State.levelH, State.stBits, State.stBits, st]

theorem SameSite.task : t.task = s.task := by
  obtain ⟨-, -, -, -, -, -, -, st, -⟩ := a
  rw [State.task, State.task, st]

theorem SameSite.homeDead (n : Nat) : t.homeDead n = s.homeDead n := by
  obtain ⟨-, coreMap, -, rdyd, -, -, -, -, dead⟩ := a
  simp only [State.homeDead, State.live, State.mapEntry, State.dieFatal, coreMap, rdyd, dead]

theorem SameSite.ready (n : Nat) : t.rdyc.contains (t.coreCluster n) = s.rdyc.contains (s.coreCluster n) := by
  obtain ⟨-, coreMap, rdyc, -, -, -, -, -, -⟩ := a
  simp only [State.coreCluster, State.pos, State.mapEntry, coreMap, rdyc]

theorem SameSite.attached_length (n : Nat) : (t.attached n).length = (s.attached n).length := by
  obtain ⟨-, -, -, -, pool, self, wait, -, -⟩ := a
  exact State.attached_length_congr pool (congrArg Prod.fst self) wait n

theorem SameSite.recordNear (core : Nat) (task : BitVec 16) (cxa : Word) : t.recordNear core task cxa = s.recordNear core task cxa :=
  State.recordNear_congr a.1 a.2.1 core task cxa

theorem SameSite.recordsNear {n : Nat} (near : s.recordsNear n = true) : t.recordsNear n = true := by
  obtain ⟨clusters, coreMap, -, -, pool, self, wait, st, -⟩ := a
  refine State.recordsNear_of_images clusters coreMap (fun b hb => ?_) near
  rcases List.mem_cons.1 hb with rfl | pooled
  · exact ⟨s.thr, List.mem_cons_self, st, congrArg Prod.snd self, congrArg Prod.fst self, wait⟩
  · exact ⟨b, List.mem_cons_of_mem _ (pool ▸ pooled), rfl, rfl, rfl, rfl⟩

end

/-! ### The population and its first wave (R86, R95) -/

theorem handleOf_ne_zero (n : Nat) : handleOf n ≠ 0#64 := by
  unfold handleOf
  split
  · decide
  · assumption

/-- What `spawn` does where nothing stands in its way: the population, its handle, and its first wave (R86, R95). -/
def spawnWave (r : BitVec 4) (task : BitVec 16) (d : SpawnDesc) (cores : List Nat) (s : State) : Eff :=
  let (p, s1) := s.newPop task d cores 0
  match cores.find? fun n => 4096 < (s.attached n).length + p.waveOn n with
  | some n => .park (.attach n)
  | none => .done (State.wave p p.waveSize 0 (s1.writeX r p.handle))

/-- Records are reached without a miss where the step ends with none noted. -/
theorem withRecords_of_done {s w : State} {k : State → Eff} (run : k (s.asTried (.thread s.thr.core s.thr.ctx.cxa)) = .done w)
    (noMiss : w.trying.map (·.2) = some []) : ∃ asks, withRecords s k = .done { w with trying := s.trying, asks := asks } := by
  rw [withRecords_done fun a ha => by rw [ha, run]; exact noMiss, run]
  exact ⟨_, rfl⟩

/-- With room on its core and the pages of the records at its port, a population is recorded and its wave made. -/
theorem spawnWave_done {r : BitVec 4} {task : BitVec 16} {d : SpawnDesc} {n : Nat} {s : State}
    (room : (s.attached n).length + min d.quota d.count ≤ 4096) (all : s.recordsNear n = true)
    (near : ∀ i, i < min d.quota d.count → s.recordNear n task (d.arena + BitVec.ofNat 64 (256 * i)) = true) :
    ∃ u, withRecords s (spawnWave r task d [n]) = .done u ∧ u.pc = s.pc ∧
      u.thr.final = (s.thr.ctx.writeX r (handleOf s.serial)).orFlags (flagsOf s.thr.res.fixed) ∧
      ∃ p ∈ u.pops, p.given = (handleOf s.serial, d.pc, d.seeds, d.count, d.quota, [n], task) := by
  let b := s.asTried (.thread s.thr.core s.thr.ctx.cxa)
  let p := (b.newPop task d [n] 0).1
  let s1 := (b.newPop task d [n] 0).2.writeX r p.handle
  have site : SameSite s s1 := ⟨rfl, rfl, rfl, rfl, rfl, rfl, rfl, rfl, fun _ => rfl⟩
  have size : p.waveSize = min d.quota d.count := by
    show min d.count (1 * d.quota) = _
    rw [Nat.one_mul, Nat.min_comm]
  have fits : ([n].find? fun n => decide (4096 < (b.attached n).length + p.waveOn n)) = none := by
    have first : p.waveOn n = min d.quota d.count := by
      show (if [n].findIdx (· == n) < 1 then min d.quota (d.count - [n].findIdx (· == n) * d.quota) else 0) = _
      simp
    have below : ¬ 4096 < (b.attached n).length + p.waveOn n := by
      rw [first]
      exact Nat.not_lt.2 room
    rw [List.find?_cons_of_neg (by simpa using below), List.find?_nil]
  have wave : WaveOnly n s1 (State.wave p p.waveSize 0 s1) := by
    refine State.wave_wave _ 0 (fun j hj => ?_) (fun j hj => ?_) (site.recordsNear all)
    · rw [Nat.zero_add, size] at hj
      show [n].getD (j / d.quota) 0 = n
      rw [Nat.div_eq_of_lt (by omega)]
      rfl
    · rw [Nat.zero_add, size] at hj
      rw [site.recordNear]
      exact near j hj
  obtain ⟨-, -, trying, pc, final, -, pops⟩ := wave
  have run : spawnWave r task d [n] b = .done (State.wave p p.waveSize 0 s1) := by
    unfold spawnWave
    dsimp only
    split
    · rename_i m full
      cases full.symm.trans fits
    · rfl
  obtain ⟨asks, done⟩ := withRecords_of_done run (by rw [trying]; rfl)
  exact ⟨_, done, pc, final, pops p (List.mem_append_right _ (List.mem_singleton.2 rfl))⟩

/-! ### The instruction (R94, R95) -/

theorem exec_spawn (pl : Placement) (x : Args) (s : State) : exec (.spawn pl x) s = execSpawn pl x s := rfl

/-- Nothing that a `spawn.loc` or `spawn.core` at level U checks stands against a population of the descriptor on one core. -/
def Placeable (s : State) (pl : Placement) (d : SpawnDesc) (n : Nat) : Prop :=
  d.bad = false ∧ d.shape = 0 ∧ d.done = 0#64 ∧ (pl = .loc ∧ n = s.thr.core ∨ pl = .core ∧ n = d.place.toNat ∧ n < 2048) ∧
    isHearth n = false ∧ isSpare n = false ∧ s.homeDead n = false ∧ s.rdyc.contains (s.coreCluster n) = true

theorem withCores_placeable {s t : State} {pl : Placement} {d : SpawnDesc} {n : Nat} {k : List Nat → State → Eff} (core : t.thr.core = s.thr.core)
    (place : pl = .loc ∧ n = s.thr.core ∨ pl = .core ∧ n = d.place.toNat ∧ n < 2048) : withCores pl d t k = k [n] t := by
  rcases place with ⟨rfl, rfl⟩ | ⟨rfl, rfl, known⟩
  · rw [withCores, core]
  · exact if_pos known

/-- A spawn whose descriptor breaks no limit comes to its population. -/
theorem exec_spawn_wave {pl : Placement} {x : Args} {s s2 : State} {a home n : Nat} {paged : Bool} {leaf : Word} (e : s.enabled x.h = true)
    (ready : x.readyBC s = true) (level : s.levelH = false) (fresh : s.thr.res.record = none) (free : x.a.free (x.afterBC s) = true)
    (stores : (x.afterBC s).noStores = true)
    (reaches : (x.afterBC s).reachesLine nLoad (x.ea s) 128 128 = some (.mem a home paged leaf, s2)) (opened : s2.homeOpen a home = true)
    (good : s2.poisoned a 128 = false) (place : Placeable s pl (.ofBytes (s.readMem a 128)) n) :
    ∃ t held, SameSite s t ∧ t.thr.ctx = (x.afterBC s).thr.ctx ∧ t.thr.res.fixed = s.thr.res.fixed ∧ exec (.spawn pl x) s =
      .next (Eff.finish x.h s ((withRecords t (spawnWave x.a.rix s.task (.ofBytes (s.readMem a 128)) [n])).keep held)) := by
  have fe := FeOnly.afterBC x s
  obtain ⟨found, t, held, read, runs⟩ := withBytes_open (r := x.a.rix) (cp := 0#2) (fe.res ▸ fresh) reaches opened good
  have site : SameSite s t := (fe.site.trans found.site).trans read.site
  have thr : t.thr = s2.thr := by rw [read.1]
  obtain ⟨b, c⟩ := Bool.and_eq_true_iff.1 ready
  obtain ⟨bad, shape, done, placed, hearth, spare, live, up⟩ := place
  refine ⟨t, held, site, ?_, ?_, ?_⟩
  · rw [thr, found.ctx]
  · rw [thr, found.fixed, fe.res]
  · rw [exec_spawn, execSpawn, issue_enabled e, withEa, withSrc_ready b, withSrc_ready c]
    refine congrArg (fun e => Host.Outcome.next (Eff.finish x.h s e)) ?_
    refine (withDest_free free).trans ((withStores_none stores).trans ((runs _).trans (congrArg (Eff.keep held) ?_)))
    have bytes : s2.readMem a 128 = s.readMem a 128 := (found.readMem a 128).trans (fe.readMem a 128)
    have core : t.thr.core = s.thr.core := by rw [thr, found.same.1, fe.thr_core]
    rw [bytes]
    generalize SpawnDesc.ofBytes (s.readMem a 128) = d at *
    have fits : ∀ pl cores, shapeOk pl d cores t = true := fun _ _ => by simp only [shapeOk, shape]
    have noTrap : ∀ task core, t.doneTrap task core d.done = none := fun _ _ => if_pos done
    have readyAt : ([n].find? fun n => !t.rdyc.contains (t.coreCluster n)) = none := by
      rw [List.find?_cons_of_neg (by rw [site.ready, up]; exact Bool.false_ne_true), List.find?_nil]
    dsimp only
    rw [bad, if_neg Bool.false_ne_true, withCores_placeable core placed]
    simp only [fits, site.levelH, level, site.task, List.any_cons, List.any_nil, hearth, spare, site.homeDead, live, noTrap, readyAt, shape,
      Bool.not_true, Bool.not_false, Bool.true_and, Bool.or_false, Bool.false_eq_true, if_true, if_false]
    rfl

/-- Settles O25: the descriptor is read, the checks of its placement hold, and the population and its first wave are made. -/
theorem spawnCreatesAPopulation : Obligations.SpawnCreatesAPopulation := by
  unfold Obligations.SpawnCreatesAPopulation
  intro pl x s s2 a home paged leaf e ready level fresh s1 d n kind free stores reaches opened good bad shape done known hearth spare live up
    room all near
  have placed : pl = .loc ∧ n = s.thr.core ∨ pl = .core ∧ n = d.place.toNat ∧ n < 2048 := by
    rcases kind with rfl | rfl
    · exact .inl ⟨rfl, rfl⟩
    · exact .inr ⟨rfl, rfl, known⟩
  obtain ⟨t, held, site, ctx, fixed, runs⟩ := exec_spawn_wave e ready level fresh free stores reaches opened good
    ⟨bad, shape, done, placed, hearth, spare, live, up⟩
  obtain ⟨u, made, pc, final, p, mem, given⟩ := spawnWave_done (r := x.a.rix) (task := s.task) (d := d) (n := n) (s := t)
    (by rw [site.attached_length]; exact room) (site.recordsNear all) fun i hi => by rw [site.recordNear]; exact near i hi
  have ends : (Eff.done u).keep held = .done u := rfl
  rw [made, ends] at runs
  have start : t.pc = s.pc := (congrArg Ctx.pc ctx).trans (FeOnly.afterBC x s).pc
  refine ⟨_, handleOf t.serial, runs, handleOf_ne_zero _, ?_, p, ?_, ?_⟩
  · have leaves := finish_done_leaves (h := x.h) (s0 := s) (t := u) (s := t) pc final
    rw [Leaves, start, fixed, ctx] at leaves
    exact leaves
  · rw [finish_done_only.1]
    exact mem
  · simp only [Pop.given, Prod.mk.injEq] at given
    obtain ⟨handle, entry, seeds, count, quota, cores, task⟩ := given
    exact ⟨handle, entry, seeds, count, quota, cores, task⟩

end Sys2Proof.Machine
end

section
/-! ### Integer results and addresses (O1, O2, O3, O4, O5, O8)

A word of the integer class reads its sources and writes one register. `putsBC`, `putsB` and `putsABC` are that body for
each set of sources, with the value that is written as a function of what was read; `issue_puts` says what such a word has done. -/

namespace Sys2Proof.Machine

/-- An enabled word whose body writes `v` to a register, once its sources are read, completes with that write: the latency does not
show in what the thread is left with. -/
theorem issue_puts {o : Host.Outcome State Fault Refusal} {h : Head} {body : State → Eff} {s t : State} {r : BitVec 4} {v : Word}
    {lat : Nat} (is : o = issue h body s) (e : s.enabled h = true) (b : body s = .done (t.writeFixed r v lat h)) (read : FeOnly s t) :
    ∃ u, o = .next u ∧ Completed s u (t.thr.ctx.writeX r v) :=
  issue_done is e b (read.ctxOnly.trans (CtxOnly.writeFixed _ _ _ _ _)) ((State.writeFixed_pc _ _ _ _ _).trans read.pc)
    ((State.writeFixed_final _ _ _ _ _).trans (read.final _))

theorem FeOnly.refl (s : State) : FeOnly s s := ⟨s.thr.ctx.fe, rfl⟩

theorem FeOnly.afterABC (x : Args) (s : State) : FeOnly s (x.afterABC s) := (FeOnly.after x.a s).trans (FeOnly.afterBC x _)

/-- The segment set that is in force does not depend on what a source has emptied. -/
theorem FeOnly.cachedSet {s t : State} (a : FeOnly s t) : t.cachedSet t.thr.core t.task = s.cachedSet s.thr.core s.task := by
  obtain ⟨fe, rfl⟩ := a
  rfl

/-! Bodies that read B and C, B alone, or A, B and C, and write A -/

/-- Reads B and C, waits for A, and writes it. -/
def putsBC (x : Args) (lat : Nat) (value : Word → Word → Word) (s : State) : Eff :=
  withSrc x.b s fun b s => withSrc x.c s fun c s => withDest x.a s (.done (s.writeFixed x.a.rix (value b c) lat x.h))

/-- Reads B, waits for A, and writes it. -/
def putsB (x : Args) (lat : Nat) (value : Word → Word) (s : State) : Eff :=
  withSrc x.b s fun b s => withDest x.a s (.done (s.writeFixed x.a.rix (value b) lat x.h))

/-- Reads A, B and C, and writes A; a register that has been read has no write outstanding. -/
def putsABC (x : Args) (lat : Nat) (value : Word → Word → Word → Word) (s : State) : Eff :=
  withSrc x.a s fun a s => withSrc x.b s fun b s => withSrc x.c s fun c s => .done (s.writeFixed x.a.rix (value a b c) lat x.h)

section
variable {o : Host.Outcome State Fault Refusal} {x : Args} {lat : Nat} {s : State}

theorem putsBC_completes {value : Word → Word → Word} (is : o = issue x.h (putsBC x lat value) s) (go : x.go s = true) :
    ∃ u, o = .next u ∧ Completed s u ((x.afterBC s).thr.ctx.writeX x.a.rix (value (x.b.val s) (x.c.val s))) := by
  simp only [Args.go, Bool.and_eq_true] at go
  obtain ⟨⟨e, ready⟩, free⟩ := go
  exact issue_puts is e ((withBC_ready ready).trans (withDest_free free)) (FeOnly.afterBC x s)

theorem putsB_completes {value : Word → Word} (is : o = issue x.h (putsB x lat value) s) (go : x.goB s = true) :
    ∃ u, o = .next u ∧ Completed s u ((x.b.after s).thr.ctx.writeX x.a.rix (value (x.b.val s))) := by
  simp only [Args.goB, Bool.and_eq_true] at go
  obtain ⟨⟨e, ready⟩, free⟩ := go
  exact issue_puts is e ((withSrc_ready ready).trans (withDest_free free)) (FeOnly.after x.b s)

theorem putsABC_completes {value : Word → Word → Word → Word} (is : o = issue x.h (putsABC x lat value) s) (go : x.goABC s = true) :
    ∃ u, o = .next u ∧
      Completed s u ((x.afterABC s).thr.ctx.writeX x.a.rix (value (x.a.val s) (x.b.val s) (x.c.val s))) := by
  simp only [Args.goABC, Bool.and_eq_true] at go
  obtain ⟨⟨e, readyA⟩, readyBC⟩ := go
  rw [← Opnd_val_after x.b x.a s, ← Opnd_val_after x.c x.a s]
  exact issue_puts is e ((withSrc_ready readyA).trans (withBC_ready readyBC)) (FeOnly.afterABC x s)

end

/-! ### Two sources (R107, R112, R115) -/

section
variable {x : Args} {s : State}

/-- The exact result of two integers, wrapped to the type (R107). -/
theorem intOp_completes (lat : Nat) (f : Int → Int → Int) (t : Ty) (go : x.go s = true) :
    ∃ u, intOp lat f t x s = .next u ∧ Completed s u ((x.afterBC s).thr.ctx.writeX x.a.rix
      (wrapTo t (f (t.intVal (x.b.atInt t.width (x.b.val s))) (t.intVal (x.c.atInt t.width (x.c.val s)))))) :=
  putsBC_completes (lat := lat)
    (value := fun b c => wrapTo t (f (t.intVal (x.b.atInt t.width b)) (t.intVal (x.c.atInt t.width c)))) rfl go

/-- A function of two patterns of the type's width, extended (R112). -/
theorem bitOp_completes (f : Nat → Nat → Nat → Nat) (t : Ty) (go : x.go s = true) :
    ∃ u, bitOp f t x s = .next u ∧ Completed s u ((x.afterBC s).thr.ctx.writeX x.a.rix
      (extend t.width t.signed (f t.width (x.b.atInt t.width (x.b.val s)) (x.c.atInt t.width (x.c.val s))))) :=
  putsBC_completes (lat := 4)
    (value := fun b c => extend t.width t.signed (f t.width (x.b.atInt t.width b) (x.c.atInt t.width c))) rfl go

/-- A pattern shifted by an amount of 64 bits, extended (R115). -/
theorem shiftOp_completes (f : Nat → Nat → Nat → Nat) (t : Ty) (go : x.go s = true) :
    ∃ u, shiftOp f t x s = .next u ∧ Completed s u ((x.afterBC s).thr.ctx.writeX x.a.rix
      (extend t.width t.signed (f t.width (x.b.atInt t.width (x.b.val s)) (x.c.val s).toNat))) :=
  putsBC_completes (lat := 4)
    (value := fun b c => extend t.width t.signed (f t.width (x.b.atInt t.width b) c.toNat)) rfl go

end

/-- Settles O1: each is an `intOp` of the function that its row of R112 names. -/
theorem integerArithmeticResults : Obligations.IntegerArithmeticResults := by
  unfold Obligations.IntegerArithmeticResults
  intro t x s go b c
  simp only [List.forall_mem_cons, List.not_mem_nil, false_imp_iff, implies_true, and_true, ← Int.min_def, ← Int.max_def]
  exact ⟨intOp_completes 4 (fun b c => b + c) t go, intOp_completes 4 (fun b c => b - c) t go,
    intOp_completes 10 (fun b c => b * c) t go, intOp_completes 10 (fun b c => b * c / (2 ^ t.width : Nat)) t go,
    intOp_completes 4 (fun b c => min b c) t go, intOp_completes 4 (fun b c => max b c) t go⟩

/-- Settles O2: each is a `bitOp` or a `shiftOp` of the function that R112 or R115 names. -/
theorem bitwiseAndShiftResults : Obligations.BitwiseAndShiftResults := by
  unfold Obligations.BitwiseAndShiftResults
  intro t x s go w b c k
  simp only [List.forall_mem_cons, List.not_mem_nil, false_imp_iff, implies_true, and_true, ← Nat.min_def]
  exact ⟨bitOp_completes (fun _ b c => b &&& c) t go, bitOp_completes (fun _ b c => b ||| c) t go,
    bitOp_completes (fun _ b c => b ^^^ c) t go, bitOp_completes (fun w b c => b &&& (2 ^ w - 1 - c)) t go,
    shiftOp_completes shlBits t go, shiftOp_completes shrBits t go, shiftOp_completes sarBits t go, shiftOp_completes rotBits t go⟩

/-! ### One source (R116, R118, R119) -/

/-- A function of one pattern of the type's width. -/
theorem unaryOp_completes {x : Args} {s : State} (f : Ty → Nat → Word) (t : Ty) (go : x.goB s = true) :
    ∃ u, unaryOp f t x s = .next u ∧
      Completed s u ((x.b.after s).thr.ctx.writeX x.a.rix (f t (x.b.atInt t.width (x.b.val s)))) :=
  putsB_completes (lat := 4) (value := fun b => f t (x.b.atInt t.width b)) rfl go

theorem exec_cvi (t : Ty) (x : Args) (s : State) : exec (.cvi t x) s =
    issue x.h (putsB x 4 fun b => clampTo t ((srcTy x.c).intVal (x.b.atInt (srcTy x.c).width b))) s := rfl

theorem exec_movl (x : Args) (s : State) :
    exec (.movl x) s = issue x.h (fun s => withDest x.a s (.done (s.writeFixed x.a.rix x.b.immW 4 x.h))) s := rfl

/-- Settles O3: all but `cvi` and `movl` are a `unaryOp`; `movl` reads no source. -/
theorem oneSourceIntegerResults : Obligations.OneSourceIntegerResults := by
  unfold Obligations.OneSourceIntegerResults
  intro t x s w b q v
  refine ⟨fun go => ?_, fun e free => issue_puts (exec_movl x s) e (withDest_free free) (FeOnly.refl s)⟩
  simp only [List.forall_mem_cons, List.not_mem_nil, false_imp_iff, implies_true, and_true]
  exact ⟨unaryOp_completes (fun t a => BitVec.ofNat 64 (clzBits t.width a)) t go,
    unaryOp_completes (fun t a => BitVec.ofNat 64 (ctzBits t.width a)) t go,
    unaryOp_completes (fun t a => BitVec.ofNat 64 (popBits t.width a)) t go,
    unaryOp_completes (fun t a => extend t.width t.signed (leNat (leBytes (t.width / 8) a).reverse)) t go,
    unaryOp_completes (fun t a => extend t.width t.signed a) t go, putsB_completes (exec_cvi t x s) go⟩

/-! ### Bitfields and multiply-add (R113, R117) -/

/-- A field from bit 0 on. -/
theorem bits_low (v n : Nat) : bits v 0 n = v % 2 ^ n := by rw [bits, Nat.pow_zero, Nat.div_one]

/-- POS of a control value. -/
theorem bits_pos (c : Nat) : bits c 0 6 = c % 64 := bits_low c 6

/-- The effective length is LEN, cut off at bit 64. -/
theorem fieldLen_eq (c : Nat) : fieldLen c = if c / 64 % 128 ≤ 64 - c % 64 then c / 64 % 128 else 64 - c % 64 := by
  rw [fieldLen, bits_pos, Nat.min_def]
  rfl

/-- `bext`: the field a control value names, from its top bit for a signed type. -/
def bextValue (signed : Bool) (b c : Nat) : Word :=
  let f := (b &&& fieldMask c) / 2 ^ bits c 0 6
  if signed = true ∧ fieldLen c ≠ 0 then extend (fieldLen c) true f else BitVec.ofNat 64 f

/-- `bins`: A with the field a control value names taken from B. -/
def binsValue (a b c : Nat) : Word :=
  BitVec.ofNat 64 ((a &&& (2 ^ 64 - 1 - fieldMask c)) ||| (b * 2 ^ bits c 0 6 &&& fieldMask c))

section
variable (t : Ty) (x : Args) (s : State)

theorem exec_bext : exec (.bext t x) s = issue x.h (putsBC x 4 fun b c => bextValue t.signed (x.b.atInt 64 b) c.toNat) s := by
  have guard (l : Nat) : (t.signed && decide (l ≠ 0)) = decide (t.signed = true ∧ l ≠ 0) := by simp
  show execBext t x s = _
  simp only [execBext, guard, decide_eq_true_eq]
  rfl

theorem exec_bins : exec (.bins t x) s = issue x.h (putsABC x 4 fun a b c => binsValue a.toNat (x.b.atInt 64 b) c.toNat) s := rfl

theorem exec_mad : exec (.mad t x) s = issue x.h (putsABC x 10 fun a b c =>
    wrapTo t (t.intVal a.toNat + t.intVal (x.b.atInt t.width b) * t.intVal (x.c.atInt t.width c))) s := rfl

end

/-- Settles O4: the control value is taken apart as R117 says; `bins` and `mad` read A first. -/
theorem bitfieldAndMultiplyAddResults : Obligations.BitfieldAndMultiplyAddResults := by
  unfold Obligations.BitfieldAndMultiplyAddResults
  intro t x s
  simp only [← fieldLen_eq]
  simp only [← bits_pos]
  exact ⟨putsBC_completes (exec_bext t x s), putsABC_completes (exec_bins t x s), putsABC_completes (exec_mad t x s)⟩

/-! ### Division (R114) -/

section
variable {x : Args} {s : State} (f : Int → Int → Int) (t : Ty)

/-- A divisor other than 0 leaves a quotient or a remainder. -/
theorem divOp_completes (e : s.enabled x.h = true) (ready : x.readyBC s = true)
    (nonzero : t.intVal (x.c.atInt t.width (x.c.val s)) ≠ 0) (free : x.a.free (x.afterBC s) = true) :
    ∃ u, divOp f t x s = .next u ∧ Completed s u ((x.afterBC s).thr.ctx.writeX x.a.rix
      (wrapTo t (f (t.intVal (x.b.atInt t.width (x.b.val s))) (t.intVal (x.c.atInt t.width (x.c.val s)))))) :=
  issue_puts rfl e ((withBC_ready ready).trans ((if_neg nonzero).trans (withDest_free free))) (FeOnly.afterBC x s)

/-- A divisor of 0 raises ARI, and nothing of the word has happened (R57). -/
theorem divOp_traps (e : s.enabled x.h = true) (ready : x.readyBC s = true) (zero : t.intVal (x.c.atInt t.width (x.c.val s)) = 0)
    (u : s.levelH = false) (n : s.trin = false) : ∃ u, divOp f t x s = .next u ∧ Trapped s u tARI 0#8 0#64 :=
  issue_trap rfl e ((withBC_ready ready).trans (if_pos zero)) u n

end

/-- Settles O5: the divisor decides, before the destination is waited for. -/
theorem divisionOrArithmeticTrap : Obligations.DivisionOrArithmeticTrap := by
  unfold Obligations.DivisionOrArithmeticTrap
  intro t x s e ready n d
  simp only [List.forall_mem_cons, List.not_mem_nil, false_imp_iff, implies_true, and_true]
  exact ⟨⟨divOp_completes Int.tdiv t e ready, divOp_traps Int.tdiv t e ready⟩,
    ⟨divOp_completes Int.tmod t e ready, divOp_traps Int.tmod t e ready⟩⟩

/-! ### Addresses (R123) -/

/-- A segment number in front of an offset, as a number. -/
theorem segJoin_eq {n : Word} (small : n.toNat < 8) (v : Word) :
    segJoin n v = BitVec.ofNat 64 (n.toNat * 2 ^ 61 + v.toNat % 2 ^ 61) := by
  have offset : v.toNat % 2 ^ 61 < 2 ^ 61 := Nat.mod_lt _ (by decide)
  have whole : n.toNat * 2 ^ 61 + v.toNat % 2 ^ 61 < 2 ^ 64 := by
    generalize v.toNat % 2 ^ 61 = off at offset
    omega
  have shifted : n.toNat * 2 ^ 61 < 2 ^ 64 := Nat.lt_of_le_of_lt (Nat.le_add_right _ _) whole
  apply BitVec.eq_of_toNat_eq
  calc (segJoin n v).toNat
    _ = n.toNat * 2 ^ 61 % 2 ^ 64 ||| (v.toNat &&& (2 ^ 61 - 1)) := by
      rw [segJoin, BitVec.toNat_or, BitVec.toNat_and, BitVec.toNat_shiftLeft, Nat.shiftLeft_eq]
      rfl
    _ = 2 ^ 61 * n.toNat + v.toNat % 2 ^ 61 := by
      rw [Nat.mod_eq_of_lt shifted, Nat.and_two_pow_sub_one_eq_mod, Nat.two_pow_add_eq_or_of_lt offset, Nat.mul_comm]
    _ = (BitVec.ofNat 64 (n.toNat * 2 ^ 61 + v.toNat % 2 ^ 61)).toNat := by
      rw [BitVec.toNat_ofNat, Nat.mod_eq_of_lt whole, Nat.mul_comm]

/-- The segment number of an address is below 8. -/
theorem segment_lt (v : Word) : v.toNat / 2 ^ 61 < 8 := by omega

/-- The segment number of an address, as a field. -/
theorem bits_segment (v : Word) : bits v.toNat 61 3 = v.toNat / 2 ^ 61 := Nat.mod_eq_of_lt (segment_lt v)

theorem segJoin_off (b v : Word) : segJoin (b >>> 61) v = BitVec.ofNat 64 (b.toNat / 2 ^ 61 * 2 ^ 61 + v.toNat % 2 ^ 61) := by
  have segment : (b >>> 61).toNat = b.toNat / 2 ^ 61 := by rw [BitVec.toNat_ushiftRight, Nat.shiftRight_eq_div_pow]
  rw [segJoin_eq (by rw [segment]; exact segment_lt b), segment]

theorem segJoin_seg (n : BitVec 3) (v : Word) :
    segJoin (n.setWidth 64) v = BitVec.ofNat 64 (n.toNat * 2 ^ 61 + v.toNat % 2 ^ 61) := by
  have segment : (n.setWidth 64).toNat = n.toNat := BitVec.toNat_setWidth_of_le (by decide)
  rw [segJoin_eq (by rw [segment]; exact n.isLt), segment]

/-- The GVA behind an address of a segment; SEG at or above its limit. -/
def leaGvaAt (x : Args) (v : Word) (sg : Word × Word) (s : State) : Eff :=
  if bits sg.2.toNat 0 61 ≤ bits v.toNat 0 61 then .trap tSEG 0#8 v
  else withDest x.a s (.done (s.writeFixed x.a.rix (BitVec.ofNat 64 ((bits sg.1.toNat 0 56 + bits v.toNat 0 61) % 2 ^ 56)) 4 x.h))

/-- The body of `lea.gva`: it waits for a set that the core has not cached. -/
def leaGvaBody (x : Args) (s : State) : Eff :=
  withSrc x.b s fun b s => withSrc x.c s fun c s =>
    match s.cachedSet s.thr.core s.task with
    | none => .again (s.lend .segset)
    | some ts => leaGvaAt x (b + c) (ts.seg (bits (b + c).toNat 61 3)) s

theorem exec_leaGva (x : Args) (s : State) : exec (.leaGva x) s = issue x.h (leaGvaBody x) s := rfl

section
variable {x : Args} {s : State}

theorem leaOp_completes (f : Word → Word → Word) (go : x.go s = true) : ∃ u, leaOp f x s = .next u ∧
    Completed s u ((x.afterBC s).thr.ctx.writeX x.a.rix (f (x.b.val s) (x.b.val s + x.c.val s))) :=
  putsBC_completes (lat := 4) (value := fun b c => f b (b + c)) rfl go

theorem leaGvaBody_cached {ts : TaskSet} (ready : x.readyBC s = true) (cached : s.cachedSet s.thr.core s.task = some ts) :
    leaGvaBody x s = leaGvaAt x (x.b.val s + x.c.val s) (ts.seg ((x.b.val s + x.c.val s).toNat / 2 ^ 61)) (x.afterBC s) := by
  rw [leaGvaBody, withBC_ready ready, (FeOnly.afterBC x s).cachedSet, cached, bits_segment]

end

/-- Settles O8: the sum is written whole, or behind a segment number, or as a GVA when it is below the limit. -/
theorem addressFormation : Obligations.AddressFormation := by
  unfold Obligations.AddressFormation
  intro x s e ready b v off
  refine ⟨fun free => ?_, fun ts cached => ?_⟩
  · have go : x.go s = true := by simp only [Args.go, e, ready, free, Bool.and_self]
    refine ⟨leaOp_completes (fun _ v => v) go, ?_, fun n => ?_⟩
    · rw [← segJoin_off]
      exact leaOp_completes (fun b v => segJoin (b >>> 61) v) go
    · rw [← segJoin_seg]
      exact leaOp_completes (fun _ v => segJoin (n.setWidth 64) v) go
  · have body := leaGvaBody_cached ready cached
    simp only [leaGvaAt, bits_low] at body
    refine ⟨fun below free => ?_, fun above u n => ?_⟩
    · rw [if_neg (Nat.not_le.2 below), withDest_free free] at body
      exact issue_puts (exec_leaGva x s) e body (FeOnly.afterBC x s)
    · rw [if_pos above] at body
      exact issue_trap (exec_leaGva x s) e body u n

end Sys2Proof.Machine
end

section
/-! ### Scalar floating-point results (O6, O7)

A word of the class reads its sources, writes one register and leaves flags. Both land with the result, at once or after its latency
(R39, R128): `issue_putsFloat` says what such a word has done in the end. -/

namespace Sys2Proof.Machine

/-- ST.RM does not depend on what a source has emptied (R122, R126). -/
theorem FeOnly.rm {s t : State} (a : FeOnly s t) : t.rm = s.rm := by
  obtain ⟨fe, rfl⟩ := a
  rfl

/-! Flags that land with a register (R128) -/

theorem State.writeFlagged_final (r : BitVec 4) (v : Word) (lat : Nat) (f : FFlags) (h : Head) (s : State) :
    (s.writeFlagged r v lat f h).thr.final = (s.writeX r v).thr.final.orFlags f := by
  unfold State.writeFlagged
  dsimp only
  split
  · exact State.orFlags_final _ _
  · exact State.pendFixed_final _ _ _ _ _ _

theorem State.writeFlagged_pc (r : BitVec 4) (v : Word) (lat : Nat) (f : FFlags) (h : Head) (s : State) :
    (s.writeFlagged r v lat f h).pc = s.pc := by
  unfold State.writeFlagged
  dsimp only
  split <;> rfl

/-- A floating-point result, zero-extended, in a register and its flags in ST (R124, R128). -/
def Ctx.putFloat (r : BitVec 4) (v : Nat × FFlags) (c : Ctx) : Ctx := (c.writeX r (BitVec.ofNat 64 v.1)).orFlags v.2

/-- An enabled word whose body writes a floating-point result, once its sources are read, completes with the result and its flags. -/
theorem issue_putsFloat {o : Host.Outcome State Fault Refusal} {h : Head} {body : State → Eff} {s t : State} {r : BitVec 4}
    {v : Nat × FFlags} {lat : Nat} (is : o = issue h body s) (e : s.enabled h = true)
    (b : body s = .done (t.writeFloat r v lat h)) (read : FeOnly s t) : ∃ u, o = .next u ∧ Completed s u (t.thr.ctx.putFloat r v) := by
  refine issue_done is e b (read.ctxOnly.trans (CtxOnly.writeFlagged _ _ _ _ _ _))
    ((State.writeFlagged_pc _ _ _ _ _ _).trans read.pc) ?_
  calc (t.writeFloat r v lat h).thr.final
    _ = (t.writeX r (BitVec.ofNat 64 v.1)).thr.final.orFlags v.2 := State.writeFlagged_final _ _ _ _ _ _
    _ = ((t.thr.ctx.writeX r (BitVec.ofNat 64 v.1)).orFlags (flagsOf s.thr.res.fixed)).orFlags v.2 := by rw [State.writeX, read.final]
    _ = (t.thr.ctx.putFloat r v).orFlags (flagsOf s.thr.res.fixed) := Ctx.orFlags_comm _ _ _

/-- Reads B, waits for A, and writes it with the flags of a function of ST.RM and B. -/
def putsFloatB (x : Args) (lat : Nat) (value : RMode → Word → Nat × FFlags) (s : State) : Eff :=
  withSrc x.b s fun b s => withDest x.a s (.done (s.writeFloat x.a.rix (value s.rm b) lat x.h))

section
variable {x : Args} {s : State}

theorem putsFloatB_completes {o : Host.Outcome State Fault Refusal} {lat : Nat} {value : RMode → Word → Nat × FFlags}
    (is : o = issue x.h (putsFloatB x lat value) s) (go : x.goB s = true) :
    ∃ u, o = .next u ∧ Completed s u ((x.b.after s).thr.ctx.putFloat x.a.rix (value s.rm (x.b.val s))) := by
  simp only [Args.goB, Bool.and_eq_true] at go
  obtain ⟨⟨e, ready⟩, free⟩ := go
  have read := FeOnly.after x.b s
  rw [← read.rm]
  exact issue_putsFloat is e ((withSrc_ready ready).trans (withDest_free free)) read

/-- An arithmetic word of two sources (R132, R133). -/
theorem fltOp_completes (lat : Ty → Nat) (f : Fmt → RMode → Nat → Nat → Nat × FFlags) (t : Ty) (go : x.go s = true) :
    ∃ u, fltOp lat f t x s = .next u ∧ Completed s u ((x.afterBC s).thr.ctx.putFloat x.a.rix
      (f (fmtOf t) s.rm (x.b.atFloat (fmtOf t) (x.b.val s)) (x.c.atFloat (fmtOf t) (x.c.val s)))) := by
  simp only [Args.go, Bool.and_eq_true] at go
  obtain ⟨⟨e, ready⟩, free⟩ := go
  have read := FeOnly.afterBC x s
  rw [← read.rm]
  exact issue_putsFloat rfl e ((withBC_ready ready).trans (withDest_free free)) read

/-- `fma` reads A first; a register that has been read has no write outstanding. -/
theorem execFma_completes (t : Ty) (go : x.goABC s = true) :
    ∃ u, execFma t x s = .next u ∧ Completed s u ((x.afterABC s).thr.ctx.putFloat x.a.rix
      ((fmtOf t).fma s.rm (x.b.atFloat (fmtOf t) (x.b.val s)) (x.c.atFloat (fmtOf t) (x.c.val s))
        ((x.a.val s).toNat % 2 ^ (fmtOf t).width))) := by
  simp only [Args.goABC, Bool.and_eq_true] at go
  obtain ⟨⟨e, readyA⟩, readyBC⟩ := go
  have read := FeOnly.afterABC x s
  rw [← read.rm, ← Opnd_val_after x.b x.a s, ← Opnd_val_after x.c x.a s]
  exact issue_putsFloat rfl e ((withSrc_ready readyA).trans (withBC_ready readyBC)) read

/-- A word of one source, read at a format (R132, R134, R135, R137, R138). -/
theorem fltUnary_completes (lat : Nat) (f : RMode → Nat → Nat × FFlags) (m : Fmt) (go : x.goB s = true) :
    ∃ u, fltUnary lat f m x s = .next u ∧
      Completed s u ((x.b.after s).thr.ctx.putFloat x.a.rix (f s.rm (x.b.atFloat m (x.b.val s)))) :=
  putsFloatB_completes (lat := lat) (value := fun rm b => f rm (x.b.atFloat m b)) rfl go

end

theorem exec_icvtf (t : Ty) (x : Args) (s : State) : exec (.icvtf t x) s = issue x.h (putsFloatB x (fltLatency t (srcTy x.c))
    fun rm b => (fmtOf t).ofInt rm ((srcTy x.c).intVal (b.toNat % 2 ^ (srcTy x.c).width))) s := rfl

/-- `fcvti`: the integer a pattern gives, extended to a register, and the flags; bit 4 of C rounds toward zero (R135). -/
def fcvtiValue (q : Fmt) (t : Ty) (towardZero : Bool) (rm : RMode) (a : Nat) : Nat × FFlags :=
  let r := fToInt q t.width t.signed (if towardZero = true then .rtz else rm) a
  ((wrapTo t r.1).toNat, r.2)

/-- Settles O6: all but `fsqrt` and `fma` are a `fltOp` of the function that R132 or R133 names. -/
theorem floatArithmeticResults : Obligations.FloatArithmeticResults := by
  unfold Obligations.FloatArithmeticResults
  intro t x s m b c out
  refine ⟨fun go => ?_, fltUnary_completes (divLatency t) m.sqrt m, execFma_completes t⟩
  simp only [List.forall_mem_cons, List.not_mem_nil, false_imp_iff, implies_true, and_true]
  exact ⟨fltOp_completes _ Fmt.add t go, fltOp_completes _ Fmt.sub t go, fltOp_completes _ Fmt.mul t go, fltOp_completes _ Fmt.div t go,
    fltOp_completes _ (fun m _ => m.minmax false) t go, fltOp_completes _ (fun m _ => m.minmax true) t go⟩

/-- Settles O7: all but `icvtf` are a `fltUnary`, at the format of the source: the one that C names, or that of the word itself. -/
theorem floatConversionResults : Obligations.FloatConversionResults := by
  unfold Obligations.FloatConversionResults
  intro t x s go m q qm k v out toInt
  simp only [List.forall_mem_cons, List.not_mem_nil, false_imp_iff, implies_true, and_true]
  exact ⟨fltUnary_completes (fltLatency t q) (fun rm => fcvt qm m (cvtMode m rm)) qm go,
    fltUnary_completes (fltLatency t q) (fcvtiValue qm t (x.c.immW.getLsbD 4)) qm go, putsFloatB_completes (exec_icvtf t x s) go,
    fltUnary_completes (fltLatency t t) (fun rm => m.integral (if bits k 0 3 = 4 then rm else RMode.ofCode (bits k 0 3)) (bit k 3)) m go,
    fltUnary_completes (fltLatency t t) (fun _ a => (2 ^ m.classOf a, 0#5)) m go⟩

end Sys2Proof.Machine
end

section
/-! ### A shape record that is being read under the old generation (O30)

R366 counts, among the accesses that `dsc` waits for, the rest of a shape record that a `cpy` reads (R294): it keeps the generation of its
translation in the resume state of its thread, beside the translations kept over a wait on draught, and only these are excluded. -/

namespace Sys2Proof.Machine

/-- A thread that waits for the rest of a shape record, which the port of cluster 0 translated under the generation that it has. -/
def recordReader : Thread :=
  { attachedThread 0 (.line 1) false with
    wait := .home
    res := { fill := some {
      gva := 0x20000, ea := 0x20000#64, first := [], rest := [(some (0x20080, 0), 128)], install := true, tran := some (0, 1#32) } } }

/-- The thread that issues is to discard the page at 0x10000 while another one reads a shape record. -/
def discardBesideReader : State :=
  let s := State.reset.withFetchWord 96 0
  { s with thr := { s.thr with ctx := (s.thr.ctx.writeX 4#4 0x10000#64).writeX 5#4 1#64 }, pool := [recordReader] }

/-- The discard meets every condition of the statement: no store is outstanding, and no thread keeps a translation over a wait. -/
theorem discardBesideReader_discards : discardBesideReader.enabled loadArgs.h = true ∧ loadArgs.readyBC discardBesideReader = true ∧
    loadArgs.a.ready (loadArgs.afterBC discardBesideReader) = true ∧
    discardBesideReader.cachedSet discardBesideReader.thr.core discardBesideReader.task = some placedSet ∧
    (loadArgs.a.val discardBesideReader).toNat = 1 ∧ (loadArgs.ea discardBesideReader).toNat % 0x10000 = 0 ∧
    placedSet.gva nStore (loadArgs.ea discardBesideReader) 0x10000 = some 0x10000 ∧
    discardBesideReader.area discardBesideReader.levelH nStore 0x10000 0x10000 = .paged ∧
    (loadArgs.a.after (loadArgs.afterBC discardBesideReader)).noStores = true ∧ discardBesideReader.thr.res.phase = none ∧
    (discardBesideReader.threads ++ (discardBesideReader.cores.map (·.2.saved.threads)).flatten).all
      (fun t => t.res.held == []) = true := by
  decide +kernel

/-- PC of the thread that issued. -/
def pcAfter (i : Instr) (s : State) : Option Word :=
  match exec i s with
  | .next u => some u.pc
  | _ => none

/-- The thread waits at its instruction for the record to be read. -/
theorem pcAfter_discardBesideReader : pcAfter (.dsc loadArgs) discardBesideReader = some discardBesideReader.pc := by decide +kernel

/-- Refutes O30: `dsc` waits for a shape record that another thread is reading under the old generation (R294, R366), where the statement
has it complete. -/
theorem not_pageQueriesAndPrefetch : ¬ Obligations.PageQueriesAndPrefetch := by
  unfold Obligations.PageQueriesAndPrefetch
  intro h
  obtain ⟨enabled, ready, source, cached, one, aligned, gva, paged, noStores, noPhase, noneHeld⟩ := discardBesideReader_discards
  obtain ⟨-, -, -, dsc⟩ := h loadArgs discardBesideReader enabled
  obtain ⟨u, issued, -, -, leaves⟩ := dsc placedSet 0x10000 ready source cached (by rw [one]; decide) (by rw [one]; decide) aligned
    (by rw [one]; exact gva) (by rw [one]; exact paged) noStores noPhase rfl rfl
    fun t mem => eq_of_beq (List.all_eq_true.1 noneHeld t mem)
  have stays := pcAfter_discardBesideReader
  simp only [pcAfter, issued, Option.some.injEq] at stays
  have advances : u.pc = discardBesideReader.pc + 12#64 := congrArg Ctx.pc leaves
  exact absurd (stays.symm.trans advances) (by decide +kernel)

end Sys2Proof.Machine
end

section
/-! ### Stores (O19, O20)

A store reads its sources, finds its place, and then either writes at issue, in the scratchpad of its own core, or posts one request for
the home of its place (R153, R158, R168). `finish_posted` says what the posting leaves, for every store that posts. -/

namespace Sys2Proof.Machine

/-! ### Sources and places -/

/-- The memory operand of sources that can be read is the effective address (R33). -/
theorem withEa_ready {x : Args} {s : State} {k : Word → State → Eff} (ready : x.readyBC s = true) :
    withEa x.b x.c s k = k (x.ea s) (x.afterBC s) := by
  rw [Args.ea, Opnd_val_after]
  exact withBC_ready ready

/-- A that can be read after B and C is read there, and none of them changes its value (log 6). -/
theorem withEaSrc_ready {x : Args} {s : State} {k : Word → Word → State → Eff} (ready : x.readyBC s = true)
    (source : x.a.ready (x.afterBC s) = true) :
    (withEa x.b x.c s fun ea s => withSrc x.a s fun v s => k ea v s) = k (x.ea s) (x.a.val s) (x.a.after (x.afterBC s)) := by
  rw [withEa_ready ready, withSrc_ready source, Args.afterBC, Opnd_val_after, Opnd_val_after]

/-- An access of one part is made at the place that it reaches (R139-R147). -/
theorem withPlace_reaches {s t : State} {nd : Need} {ea : Word} {n align : Nat} {l : Loc} (reaches : s.reaches nd ea n align = some (l, t)) :
    FoundOnly s t ∧ ∃ held, ∀ soft k, withPlace nd ea n align soft s k = (k l t).keep held := by
  obtain ⟨found, _, g, held, -, -, checked, placed⟩ := withLoc_reaches reaches
  exact ⟨found, held, fun soft k => (checked _).trans (placed soft k)⟩

/-- Bytes that lie in one line are one part (R161). -/
theorem lineParts_whole {g n : Nat} (some : 0 < n) (line : g % 128 + n ≤ 128) : lineParts 40 g n = [n] := by
  have first : min n (128 - g % 128) = n := by omega
  rw [lineParts, if_neg (by omega)]
  dsimp only
  rw [first, Nat.sub_self]
  rfl

/-- An access whose bytes lie in one line is made as one part, at the place that it reaches (R161). -/
theorem withAccess_reachesLine {s t : State} {nd : Need} {ea : Word} {n align : Nat} {l : Loc}
    (reaches : s.reachesLine nd ea n align = some (l, t)) :
    FoundOnly s t ∧ ∃ held, ∀ soft k, withAccess nd ea n align soft s k = (k [(l, n)] t).keep held := by
  unfold State.reachesLine at reaches
  split at reaches
  · cases reaches
  rename_i ts cached
  split at reaches
  · cases reaches
  rename_i g gva
  split at reaches
  · rename_i fits
    obtain ⟨some, line, inRegion⟩ := fits
    obtain ⟨found, ts', g', held, cached', gva', checked, placed⟩ := withLoc_reaches reaches
    obtain rfl : ts' = ts := Option.some.inj (cached'.symm.trans cached)
    obtain rfl : g' = g := Option.some.inj (gva'.symm.trans gva)
    refine ⟨found, held, fun soft k => ?_⟩
    rw [withAccess, checked, if_neg inRegion, lineParts_whole some line, withParts, placed]
    rfl
  · cases reaches

section
variable {s t : State}

theorem FeOnly.flight (a : FeOnly s t) : t.flight = s.flight := by
  obtain ⟨fe, rfl⟩ := a
  rfl

theorem FeOnly.inv (a : FeOnly s t) (inv : s.Inv) : t.Inv := by
  obtain ⟨fe, rfl⟩ := a
  exact inv

theorem FeOnly.stc (a : FeOnly s t) : t.thr.ctx.stc = s.thr.ctx.stc := by
  obtain ⟨fe, rfl⟩ := a
  rfl

theorem FeOnly.unwatched (a : FeOnly s t) (addr n : Nat) : t.unwatched addr n = s.unwatched addr n := by
  obtain ⟨fe, rfl⟩ := a
  rfl

theorem FoundOnly.flight (f : FoundOnly s t) : t.flight = s.flight := by
  obtain ⟨_, _, _, _, _, rfl⟩ := f
  rfl

theorem FoundOnly.inv (f : FoundOnly s t) (inv : s.Inv) : t.Inv := by
  obtain ⟨_, _, _, _, _, rfl⟩ := f
  exact inv

theorem FoundOnly.unwatched (f : FoundOnly s t) (addr n : Nat) : t.unwatched addr n = s.unwatched addr n := by
  obtain ⟨_, _, _, _, _, rfl⟩ := f
  rfl

end

/-- The thread that issues, after its sources are read and its place is found, stands as before but for the registers emptied. -/
theorem FoundOnly.final {s s1 s2 : State} (found : FoundOnly s1 s2) (fe : FeOnly s s1) :
    s2.thr.final = s1.thr.ctx.orFlags (flagsOf s.thr.res.fixed) := by
  rw [Thread.final, found.ctx, found.fixed, fe.res]

theorem FoundOnly.pc_eq {s s1 s2 : State} (found : FoundOnly s1 s2) (fe : FeOnly s s1) : s2.pc = s.pc :=
  (congrArg Ctx.pc found.ctx).trans fe.pc

/-! ### A write that nothing watches (R152, R186, R387) -/

theorem State.serveWord_unwatched {a n w : Nat} {s : State} (still : s.unwatched a n = true) (mem : w ∈ wordsOf a n) (fuel : Nat) :
    State.serveWord w fuel s = s := by
  cases fuel with
  | zero => rfl
  | succ fuel =>
    have none : s.waiters.find? (fun v => v.addr / 8 == w && !v.refused && v.holds s) = none := by
      refine List.find?_eq_none.2 fun v hv holds => ?_
      simp only [State.unwatched, Bool.and_eq_true, Bool.not_eq_true', List.any_eq_false, List.contains_iff_mem] at still
      simp only [Bool.and_eq_true, Bool.not_eq_true', beq_iff_eq] at holds
      obtain ⟨⟨word, waits⟩, -⟩ := holds
      exact still.2 v hv ⟨word ▸ mem, waits⟩
    rw [State.serveWord, none]

/-- After a change of words that nothing waits on, nothing is served. -/
theorem State.afterWrite_unwatched {a n : Nat} {s : State} (still : s.unwatched a n = true) : s.afterWrite a n = s := by
  have noDeadline : s.anyDeadline = false := by
    simp only [State.unwatched, Bool.and_eq_true, Bool.not_eq_true'] at still
    exact still.1
  simp only [State.afterWrite, noDeadline, Bool.false_eq_true, if_false]
  split
  · rfl
  · exact List.foldlRecOn (motive := fun t => t = s) _ _ rfl fun t same w mem => by
      rw [same]
      exact State.serveWord_unwatched still mem _

theorem State.homeWrite_unwatched {a : Nat} {bs : List Byte} {s : State} (still : s.unwatched a bs.length = true) :
    s.homeWrite a bs = s.writeMem a bs :=
  State.afterWrite_unwatched (s := s.writeMem a bs) still

theorem State.isFull_writeMem {a : Nat} {bs : List Byte} (some : 0 < bs.length) (s : State) : (s.writeMem a bs).isFull a = true := by
  simp [State.isFull, State.writeMem, mem_wordsOf_self a some]

/-! ### A store to the own scratchpad (R158, R168) -/

theorem exec_st (t : Ty) (x : Args) (s : State) : exec (.st t x) s = execSt t x s := rfl

/-- A place in the window of the issuing core is its own scratchpad, and another place is not. -/
theorem ownPad_mem (core a home : Nat) (paged : Bool) (leaf : Word) :
    ownPad core (.mem a home paged leaf) = true ↔ home = core ∧ paged = false := by
  simp [ownPad]

/-- An access performed at issue at an open home is performed at once. -/
theorem withOwnOrder_of_homeOpen {s : State} {a home : Nat} {k : State → Eff} (opened : s.homeOpen a home = true) :
    withOwnOrder home s k = k s := by
  obtain ⟨-, order, -⟩ := State.homeOpen_cases opened
  rw [withOwnOrder, if_neg (by simp [order]), State.performPrior_of_homeOpen opened]

/-- A store to the open, unwatched scratchpad of its own core writes its bytes and completes. -/
theorem exec_st_own {t : Ty} {x : Args} {s s2 : State} {a : Nat} {leaf : Word} (e : s.enabled x.h = true) (ready : x.readyBC s = true)
    (source : x.a.ready (x.afterBC s) = true) (reaches : (x.a.after (x.afterBC s)).reaches nStore (x.ea s) (t.width / 8) (t.width / 8)
      = some (.mem a s.thr.core false leaf, s2)) (opened : s2.homeOpen a s.thr.core = true)
    (still : s2.unwatched a (t.width / 8) = true) :
    exec (.st t x) s = .next (Eff.finish x.h s (.done (s2.writeMem a (leBytes (t.width / 8) (x.a.val s).toNat)))) := by
  obtain ⟨found, held, placed⟩ := withPlace_reaches reaches
  have core : s2.thr.core = s.thr.core := found.same.1.trans ((FeOnly.afterBC x s).trans (FeOnly.after x.a _)).thr_core
  rw [exec_st, execSt, issue_enabled e, withEaSrc_ready ready source]
  dsimp only
  rw [placed, if_pos ((ownPad_mem _ _ _ _ _).2 ⟨core.symm, rfl⟩)]
  dsimp only
  rw [withOwnOrder_of_homeOpen opened, State.homeWrite_unwatched (by rw [leBytes_length]; exact still)]
  rfl

/-- Settles O19: the place is found and open, and the bytes written there are all that changes in memory. -/
theorem storeToOwnScratchpad : Obligations.StoreToOwnScratchpad := by
  unfold Obligations.StoreToOwnScratchpad
  intro t x s s2 a leaf inv wide e ready source s1 n reaches opened still
  let bs := leBytes n (x.a.val s).toNat
  have fe : FeOnly s s1 := (FeOnly.afterBC x s).trans (FeOnly.after x.a _)
  obtain ⟨found, -⟩ := withPlace_reaches reaches
  have inv2 : s2.Inv := found.inv (fe.inv inv)
  have len : bs.length = n := leBytes_length _ _
  have only : OnlyThread (s2.writeMem a bs) (Eff.finish x.h s (.done (s2.writeMem a bs))) := finish_done_only
  have empties : (Eff.finish x.h s (.done (s2.writeMem a bs))).empties = (s2.writeMem a bs).empties := by rw [only.1]
  refine ⟨_, exec_st_own e ready source reaches opened ((found.unwatched a n).trans ((fe.unwatched a n).trans still)), ?_, ?_, ?_, ?_, ?_⟩
  · exact (fe.ctxOnly.same.trans found.same).trans (SameThread.trans ⟨rfl, rfl, rfl⟩ finish_done_same)
  · exact finish_done_leaves (t := s2.writeMem a bs) (found.pc_eq fe) (found.final fe)
  · have written : Memory.read (Memory.write s2.mem a bs) a bs.length = bs := Memory.read_write bs a inv2
    rw [len] at written
    rw [State.readMem, only.mem]
    exact written
  · rw [State.isFull, empties]
    exact State.isFull_writeMem (by rw [len]; exact Nat.div_pos wide (by decide)) s2
  · rw [← len]
    exact ((fe.ctxOnly.kept.trans found.kept).outside (State.writeMem_outside inv2)).congr only.mem empties

/-! ### Posted stores (R153, R158-R161, R184) -/

/-- A store of the thread that issues has been posted: one request for the home joins the accesses in flight, the count of posted stores
rises by 1, and PC advances past the word; `c` is the context after the sources are read. -/
def Posted (s u : State) (c : Ctx) (home a : Nat) (ea : Word) (op : ReqOp) : Prop :=
  Leaves s u { c with pc := s.pc + 12#64, stc := c.stc + 1#16 } ∧ SameThread s u ∧ MemKept s u ∧
    ∃ r, u.flight = s.flight ++ [r] ∧ r.src = s.thr.core ∧ r.cxa = s.thr.ctx.cxa ∧ r.home = home ∧ r.addr = a ∧ r.op = op ∧
      r.ea = ea ∧ r.counted = true ∧ r.stage = 0

/-- A word that ends by posting an access has posted it: what came before read sources, found a place and charged a packet. -/
theorem finish_posted {s s1 s2 t : State} (fe : FeOnly s s1) (found : FoundOnly s1 s2) (only : DraughtOnly s2 t) (h : Head)
    (home a : Nat) (op : ReqOp) (ea : Word) (paged : Bool) (pol : Nat) (cp : BitVec 2) (v : Via) :
    Posted s (Eff.finish h s (.done (t.post home a op ea paged pol cp v))) s1.thr.ctx home a ea op := by
  let p := t.post home a op ea paged pol cp v
  have ended : OnlyThread p (Eff.finish h s (.done p)) := finish_done_only
  have same : SameThread s2 p := by
    show SameThread s2 t
    rw [SameThread, only.thr]
    exact ⟨rfl, rfl, rfl⟩
  have core : t.thr.core = s.thr.core := by rw [only.thr, found.same.1, fe.thr_core]
  have cxa : t.thr.ctx.cxa = s.thr.ctx.cxa := by rw [only.thr, found.ctx, fe.cxa]
  have before : t.flight = s.flight := by
    rw [only.1]
    exact found.flight.trans fe.flight
  have flight : (Eff.finish h s (.done p)).flight = p.flight := by rw [ended.1]
  refine ⟨?_, ((fe.ctxOnly.same.trans found.same).trans same).trans finish_done_same,
    ((fe.ctxOnly.kept.trans found.kept).trans only.kept).trans ended.2.2, _,
    flight.trans (congrArg (· ++ [_]) before), core, cxa, rfl, rfl, rfl, rfl, rfl, rfl⟩
  refine finish_done_leaves (t := p) (c := { s1.thr.ctx with stc := s1.thr.ctx.stc + 1#16 }) ?_ ?_
  · show t.thr.ctx.pc = s.pc
    rw [only.thr]
    exact found.pc_eq fe
  · show ({ t.thr.ctx with stc := t.thr.ctx.stc + 1#16 } : Ctx).orFlags (flagsOf t.thr.res.fixed) = _
    rw [only.thr, found.ctx, found.fixed, fe.res]

theorem withStc_one {s : State} {k : Eff} (room : s.thr.ctx.stc ≠ 0xFFFF#16) : withStc 1 s k = k := by
  have below : s.thr.ctx.stc.toNat ≠ 65535 := fun full => room (BitVec.eq_of_toNat_eq full)
  have bound := s.thr.ctx.stc.isLt
  rw [withStc, if_pos (by omega)]

/-- A store of one part to storage posts one request, once there is room for it and its packet can be charged (R153, R161, R196). -/
theorem withStore_mem {s : State} {home : Nat} (room : s.thr.ctx.stc ≠ 0xFFFF#16) (charge : s.canCharge home = true)
    (mk : List Byte → ReqOp) (sub : Nat) (cp : BitVec 2) (ea : Word) (a : Nat) (paged : Bool) (leaf : Word) (n : Nat) (bs : List Byte) :
    ∃ t, DraughtOnly s t ∧ withStore mk sub cp ea [(.mem a home paged leaf, n)] bs s .done =
      .done (t.post home a (mk (bs.take n)) ea paged (if paged then effPolicy leaf cp else 0) cp {}) := by
  obtain ⟨t, only, charged⟩ := withCharge_ok charge
  refine ⟨t, only, ?_⟩
  show withStc 1 s (withPosts mk cp ea [(.mem a home paged leaf, n)] bs s .done) = _
  rw [withStc_one room, withPosts]
  exact charged _

/-- A word whose body comes down to a store of one part, behind a place that is found, has posted it. -/
theorem posts_at_place {s s1 s2 : State} {h : Head} {body : State → Eff} {mk : List Byte → ReqOp} {sub : Nat} {cp : BitVec 2} {ea : Word}
    {a home n : Nat} {paged : Bool} {leaf : Word} {bs : List Byte} {held : Held} (e : s.enabled h = true) (fe : FeOnly s s1)
    (found : FoundOnly s1 s2) (room : s.thr.ctx.stc ≠ 0xFFFF#16) (charge : s2.canCharge home = true)
    (runs : body s = (withStore mk sub cp ea [(.mem a home paged leaf, n)] bs s2 .done).keep held) :
    ∃ u, issue h body s = .next u ∧ Posted s u s1.thr.ctx home a ea (mk (bs.take n)) := by
  have room2 : s2.thr.ctx.stc ≠ 0xFFFF#16 := by rwa [found.ctx, fe.stc]
  obtain ⟨t, only, posts⟩ := withStore_mem room2 charge mk sub cp ea a paged leaf n bs
  rw [issue_enabled e, runs, posts]
  exact ⟨_, rfl, finish_posted fe found only h home a _ ea paged _ cp {}⟩

theorem take_leBytes (n v : Nat) : (leBytes n v).take n = leBytes n v := List.take_of_length_le (leBytes_length n v).le

/-- A release that waits for the accesses to all peers of one hop waits for those to one of them (R172). -/
theorem State.inScope_peer {s : State} {core p : Nat} {grp : List Nat} {h : Homed} (near : p1Nrt (s.peer1 p) = 1)
    (inside : s.inScope .peer core (some p) grp h = true) : s.inScope .peer core none grp h = true := by
  cases h with
  | core n => exact inside
  | host => exact inside
  | peer q =>
    obtain rfl : q = p := by simpa [State.inScope] using inside
    simpa [State.inScope] using near

/-- What is settled at the home scope of a place in storage is settled for its destination too (R172, R173). -/
theorem State.settled_homeScope {s : State} {a home : Nat} {paged : Bool} {leaf : Word}
    (settled : s.settled (s.homeScope s.thr.core (.mem a home paged leaf)).1 none = true) :
    s.settled (s.homeScope s.thr.core (.mem a home paged leaf)).1 (s.homeScope s.thr.core (.mem a home paged leaf)).2 = true := by
  unfold State.homeScope State.peerScope at settled ⊢
  dsimp only at settled ⊢
  by_cases near : home < Config.nCores
  · simpa only [near, if_true] using settled
  by_cases far : 8192 ≤ home
  · simp only [near, far, if_true, if_false] at settled ⊢
    by_cases one : p1Nrt (s.peer1 (home - 8192)) = 1
    · simp only [one, if_true] at settled ⊢
      simp only [State.settled, State.releaseBusy, Bool.and_eq_true, Bool.not_eq_true', List.any_eq_false] at settled ⊢
      exact ⟨settled.1, fun h mem inside => settled.2 h mem ⟨State.inScope_peer one inside.1, inside.2⟩⟩
    · simp only [one, if_false] at settled ⊢
      exact settled
  · simpa only [near, far, if_false] using settled

section
variable (x : Args) (s : State)

theorem exec_stl (sc : Scope) : exec (.stl sc x) s = execStl sc x s := rfl

theorem exec_stp : exec (.stp x) s = execStp x s := rfl

theorem exec_sfeEmpty : exec (.sfeEmpty x) s = sfeTo false x s := rfl

theorem exec_sfeFull : exec (.sfeFull x) s = sfeTo true x s := rfl

theorem exec_stm (n : BitVec 4) : exec (.stm n x) s = execStm n x s := rfl

end

section
variable {x : Args} {s s2 : State} {a home : Nat} {paged : Bool} {leaf : Word} (e : s.enabled x.h = true) (ready : x.readyBC s = true)
  (room : s.thr.ctx.stc ≠ 0xFFFF#16) (charge : s2.canCharge home = true)
include e ready room charge

/-- `st` to a place other than the scratchpad of its own core (R158). -/
theorem exec_st_posts (t : Ty) (source : x.a.ready (x.afterBC s) = true)
    (reaches : (x.a.after (x.afterBC s)).reaches nStore (x.ea s) (t.width / 8) (t.width / 8) = some (.mem a home paged leaf, s2))
    (other : home ≠ s.thr.core ∨ paged = true) : ∃ u, exec (.st t x) s = .next u ∧
      Posted s u (x.a.after (x.afterBC s)).thr.ctx home a (x.ea s) (.store (leBytes (t.width / 8) (x.a.val s).toNat)) := by
  have fe := (FeOnly.afterBC x s).trans (FeOnly.after x.a _)
  obtain ⟨found, held, placed⟩ := withPlace_reaches reaches
  have core : s2.thr.core = s.thr.core := found.same.1.trans fe.thr_core
  have notOwn : ¬ ownPad s2.thr.core (.mem a home paged leaf) = true := by
    rw [ownPad_mem, core]
    rintro ⟨own, window⟩
    exact other.elim (· own) (by simp [window])
  rw [exec_st, ← take_leBytes]
  refine posts_at_place (held := held) (sub := 0) (leaf := leaf) (paged := paged) (cp := x.h.cp) e fe found room charge ?_
  rw [withEaSrc_ready ready source, placed, if_neg notOwn]

/-- `stl` (R184). -/
theorem exec_stl_posts (sc : Scope) (source : x.a.ready (x.afterBC s) = true)
    (reaches : (x.a.after (x.afterBC s)).reaches nStore (x.ea s) 8 8 = some (.mem a home paged leaf, s2))
    (noFault : s.thr.res.fault = none) (settled : s2.settled sc none = true) : ∃ u, exec (.stl sc x) s = .next u ∧
      Posted s u (x.a.after (x.afterBC s)).thr.ctx home a (x.ea s) (.store (leBytes 8 (x.a.val s).toNat)) := by
  have fe := (FeOnly.afterBC x s).trans (FeOnly.after x.a _)
  obtain ⟨found, held, placed⟩ := withPlace_reaches reaches
  rw [exec_stl, ← take_leBytes]
  refine posts_at_place (held := held) (sub := 4) (leaf := leaf) (paged := paged) (cp := x.h.cp) e fe found room charge ?_
  rw [withEaSrc_ready ready source, withRecorded_none (fe.res ▸ noFault), placed]
  dsimp only
  rw [withRelease_settled settled]

/-- `stp` (R155, R159). -/
theorem exec_stp_posts (source : x.a.ready (x.afterBC s) = true)
    (reaches : (x.a.after (x.afterBC s)).reaches nStp (x.ea s) 8 8 = some (.mem a home paged leaf, s2))
    (settled : s2.settled (s2.homeScope s2.thr.core (.mem a home paged leaf)).1 none = true) : ∃ u, exec (.stp x) s = .next u ∧
      Posted s u (x.a.after (x.afterBC s)).thr.ctx home a (x.ea s) (.stp (x.a.val s)) := by
  have fe := (FeOnly.afterBC x s).trans (FeOnly.after x.a _)
  obtain ⟨found, held, placed⟩ := withPlace_reaches reaches
  have value : BitVec.ofNat 64 (leNat ((leBytes 8 (x.a.val s).toNat).take 8)) = x.a.val s := by
    rw [take_leBytes, leNat_leBytes, Nat.mod_eq_of_lt (by simpa using (x.a.val s).isLt), BitVec.ofNat_toNat, BitVec.setWidth_eq]
  rw [exec_stp]
  refine value ▸ posts_at_place (mk := fun bs => .stp (BitVec.ofNat 64 (leNat bs))) (held := held) (sub := 1) (leaf := leaf)
    (paged := paged) (cp := x.h.cp) e fe found room charge ?_
  rw [withEaSrc_ready ready source, placed, withRelease_settled (State.settled_homeScope settled)]

/-- `sfe` (R160). -/
theorem sfeTo_posts (full : Bool) (reaches : (x.afterBC s).reaches nStp (x.ea s) 8 8 = some (.mem a home paged leaf, s2)) :
    ∃ u, sfeTo full x s = .next u ∧ Posted s u (x.afterBC s).thr.ctx home a (x.ea s) (.sfe full) := by
  obtain ⟨found, held, placed⟩ := withPlace_reaches reaches
  refine posts_at_place (mk := fun _ => .sfe full) (bs := []) (n := 8) (held := held) (sub := if full then 3 else 2) (leaf := leaf)
    (paged := paged) (cp := x.h.cp) e (FeOnly.afterBC x s) found room charge ?_
  rw [withEa_ready ready, placed]

/-- `stm` whose bytes lie in one line (R161). -/
theorem exec_stm_posts (n : BitVec 4) (regs : (x.afterBC s).regsReady x.a.rix (n.toNat + 1))
    (reaches : (x.afterBC s).reachesLine nStore (x.ea s) (8 * (n.toNat + 1)) 8 = some (.mem a home paged leaf, s2)) :
    ∃ u, exec (.stm n x) s = .next u ∧ Posted s u (x.afterBC s).thr.ctx home a (x.ea s)
      (.store ((s.regs x.a.rix (n.toNat + 1)).map fun v => leBytes 8 v.toNat).flatten) := by
  have fe := FeOnly.afterBC x s
  obtain ⟨found, held, placed⟩ := withAccess_reachesLine reaches
  have whole : (((s.regs x.a.rix (n.toNat + 1)).map fun v => leBytes 8 v.toNat).flatten).take (8 * (n.toNat + 1))
      = ((s.regs x.a.rix (n.toNat + 1)).map fun v => leBytes 8 v.toNat).flatten :=
    List.take_of_length_le (by simp [State.regs, Function.comp_def, Nat.mul_comm])
  rw [exec_stm, ← whole]
  refine posts_at_place (held := held) (sub := 0) (leaf := leaf) (paged := paged) (cp := x.h.cp) e fe found room charge ?_
  rw [withEa_ready ready]
  dsimp only
  rw [withRegs_ready regs, placed, fe.regs]

end

/-- Settles O20: each store finds its place, is settled where it releases, and posts one request. -/
theorem storesArePosted : Obligations.StoresArePosted := by
  unfold Obligations.StoresArePosted
  intro x s s2 a home paged leaf e ready s0 s1 ea v posted room charge
  refine ⟨?_, ?_, ?_, ?_, ?_⟩
  · exact fun t source reaches other => exec_st_posts e ready room charge t source reaches other
  · exact fun sc source reaches noFault settled => exec_stl_posts e ready room charge sc source reaches noFault settled
  · exact fun source reaches settled => exec_stp_posts e ready room charge source reaches settled
  · exact fun reaches => ⟨sfeTo_posts e ready room charge false reaches, sfeTo_posts e ready room charge true reaches⟩
  · intro n m regs reaches
    obtain ⟨u, issued, did⟩ := exec_stm_posts e ready room charge n regs reaches
    rw [State.regs, List.map_map] at did
    exact ⟨u, issued, did⟩

end Sys2Proof.Machine
end

section
/-! ### The data plane (O47)

One section for each kind of event: routers and ingress, the homes, the retry of a read, draught and NAKs, refused requests. `PlaneOnly`
says what the end of a request at its home, and what its ingress releases then, leave alone. -/

namespace Sys2Proof.Machine

open Config

/-! ### Routers (R190, R429) -/

theorem exec_routerCycle (x y : Nat) (s : State) : exec (.routerCycle x y) s = .next
    ((({ s with flits := planeCycle DFlit.toTrip DFlit.onTrip s.ingressTakes id s.flits } : State).injectAt x y
      (freePorts DFlit.toTrip (routerAt DFlit.toTrip DFlit.onTrip s.ingressTakes id s.flits (x, y)))).flueCycle x y) := rfl

/-- The one transit flit of a plane is the one at its router. -/
theorem filter_transit_at {l : List DFlit} {f : DFlit} (alone : l.filter (fun f => f.moving) = [f]) :
    l.filter (fun g => g.moving && g.atX == f.atX && g.atY == f.atY) = [f] := by
  have split : l.filter (fun g => g.moving && g.atX == f.atX && g.atY == f.atY)
      = (l.filter fun g => g.moving).filter fun g => g.atX == f.atX && g.atY == f.atY := by
    rw [List.filter_filter]
    exact congrArg (List.filter · l) (funext fun g => by rw [Bool.and_assoc, Bool.and_comm])
  rw [split, alone]
  simp

/-- A transit flit that is alone at its router and not at its destination takes its first productive port. -/
theorem routeAll_one {f : DFlit} {takes : DFlit → Bool} {p : Nat} {ps : List Nat} (away : f.dx ≠ f.atX ∨ f.dy ≠ f.atY)
    (way : productive f.atX f.atY f.dx f.dy = p :: ps) (port : p < 4) :
    (routeAll DFlit.toTrip DFlit.onTrip takes [f] [0, 1, 2, 3] true true).1 = [f.onTrip (Trip.move p)] := by
  have free : [0, 1, 2, 3].contains p = true := (by decide : ∀ p < 4, [0, 1, 2, 3].contains p = true) p port
  have notHere : (f.dx == f.atX && f.dy == f.atY) = false := by
    rw [Bool.and_eq_false_iff, beq_eq_false_iff_ne, beq_eq_false_iff_ne]
    exact away
  have first : (productive f.atX f.atY f.dx f.dy ++ [0, 1, 2, 3]).find? [0, 1, 2, 3].contains = some p := by
    rw [way, List.cons_append, List.find?_cons_of_pos free]
  simp only [routeAll, notHere, Bool.false_and, Bool.false_eq_true, if_false, first]

/-- A plane with one transit flit moves that flit. -/
theorem planeCycle_one {l : List DFlit} {f : DFlit} {takes : DFlit → Bool} {p : Nat} {ps : List Nat}
    (alone : l.filter (fun f => f.moving) = [f]) (away : f.dx ≠ f.atX ∨ f.dy ≠ f.atY)
    (way : productive f.atX f.atY f.dx f.dy = p :: ps) (port : p < 4) :
    planeCycle DFlit.toTrip DFlit.onTrip takes id l = (l.filter fun f => !f.moving) ++ [f.onTrip (Trip.move p)] := by
  have busy : ((l.filter fun f => f.moving).map fun f => (f.atX, f.atY)).eraseDups = [(f.atX, f.atY)] := by
    rw [alone]
    rfl
  have moved : (routerAt DFlit.toTrip DFlit.onTrip takes id l (f.atX, f.atY)).1 = [f.onTrip (Trip.move p)] := by
    rw [routerAt, id, filter_transit_at alone]
    exact routeAll_one away way port
  rw [planeCycle, busy, List.map_singleton, moved]
  rfl

/-- A cycle of the flue plane changes the flue and the WAKEs that have reached their cores, and nothing else. -/
theorem State.flueCycle_only (x y : Nat) (s : State) :
    s.flueCycle x y = { s with flue := (s.flueCycle x y).flue, sysWakes := (s.flueCycle x y).sysWakes } := by
  have injected : ∀ (l : List Nat) (t : State), t.injectFlue x y l = { t with flue := (t.injectFlue x y l).flue } := by
    intro l t
    unfold State.injectFlue
    dsimp only
    split
    · rfl
    · split
      · split <;> rfl
      · split <;> rfl
  unfold State.flueCycle State.landWakes
  dsimp only
  rw [injected]

/-- An empty flue plane has nothing to do. -/
theorem State.flueCycle_empty {s : State} (x y : Nat) (empty : s.flue = []) : s.flueCycle x y = s := by
  have none : (s.flueCycle x y).flue = [] ∧ (s.flueCycle x y).sysWakes = s.sysWakes := by
    simp [State.flueCycle, State.landWakes, State.injectFlue, planeCycle, empty]
  rw [State.flueCycle_only, none.1, none.2, ← empty]

/-- Nothing is injected at a position where neither the core nor the port has anything to send. -/
theorem State.injectAt_none {s : State} {x y : Nat} (core : s.coreSender x y = none) (port : s.drifting true x y = none)
    (free : List Nat) : s.injectAt x y free = s := by
  rw [State.injectAt, core, port]

/-- A packet injects its next flit on its first productive port, when that is free (R190). -/
theorem State.injectFlit_goes {s : State} {x y p : Nat} {ps free : List Nat} {k : Sender}
    (way : productive x y (s.homePos k.dst).1 (s.homePos k.dst).2 = p :: ps) (has : free.contains p = true) :
    let u := (s.injectFlit x y free k).2
    u.mem = s.mem ∧ u.thr = s.thr ∧ ∃ f, u.flits.getLast? = some f ∧ f.pkt = k.id ∧ f.src = k.src ∧ (f.atX, f.atY) = hopFrom p x y ∧
      f.age = 1 ∧ f.hd = (k.inj == 0) ∧ f.tl = (k.inj + 1 == k.n) := by
  have first : (p :: ps).find? free.contains = some p := List.find?_cons_of_pos has
  simp only [State.injectFlit, way, reduceCtorEq, if_false, first]
  exact ⟨rfl, rfl, _, List.getLast?_concat, rfl, rfl, rfl, rfl, rfl, rfl⟩

/-- At a router that no transit flit stands at, the core injects (R190). -/
theorem exec_routerCycle_injects {s : State} {x y p : Nat} {ps : List Nat} {k : Sender}
    (clear : s.flits.filter (fun f => f.moving && f.atX == x && f.atY == y) = []) (core : s.coreSender x y = some k)
    (port : s.drifting true x y = none) (way : productive x y (s.homePos k.dst).1 (s.homePos k.dst).2 = p :: ps) (low : p < 4) :
    ∃ u, exec (.routerCycle x y) s = .next u ∧ u.mem = s.mem ∧ u.thr = s.thr ∧ ∃ f, u.flits.getLast? = some f ∧ f.pkt = k.id ∧
      f.src = k.src ∧ (f.atX, f.atY) = hopFrom p x y ∧ f.age = 1 ∧ f.hd = (k.inj == 0) ∧ f.tl = (k.inj + 1 == k.n) := by
  let s1 : State := { s with flits := planeCycle DFlit.toTrip DFlit.onTrip s.ingressTakes id s.flits }
  have idle : freePorts DFlit.toTrip (routerAt DFlit.toTrip DFlit.onTrip s.ingressTakes id s.flits (x, y)) = [0, 1, 2, 3] := by
    rw [routerAt, id, clear]
    rfl
  have free : [0, 1, 2, 3].contains p = true := (by decide : ∀ p < 4, [0, 1, 2, 3].contains p = true) p low
  have core1 : s1.coreSender x y = some k := core
  have port1 : s1.drifting true x y = none := port
  have injects : s1.injectAt x y [0, 1, 2, 3] = (s1.injectFlit x y [0, 1, 2, 3] k).2 := by rw [State.injectAt, core1, port1]
  obtain ⟨mem, thr, f, last⟩ := State.injectFlit_goes (s := s1) way free
  refine ⟨((s1.injectFlit x y [0, 1, 2, 3] k).2).flueCycle x y, ?_, ?_, ?_, f, ?_⟩
  · rw [exec_routerCycle, idle]
    exact congrArg (fun t => Host.Outcome.next (State.flueCycle x y t)) injects
  · rw [State.flueCycle_only]
    exact mem
  · rw [State.flueCycle_only]
    exact thr
  · rw [State.flueCycle_only]
    exact last

/-- The transit flit of a plane that has one moves, and nothing else does where nobody injects (R190). -/
theorem exec_routerCycle_moves {s : State} {x y p : Nat} {ps : List Nat} {f : DFlit} (alone : s.flits.filter (fun f => f.moving) = [f])
    (away : f.dx ≠ f.atX ∨ f.dy ≠ f.atY) (noFlue : s.flue = []) (way : productive f.atX f.atY f.dx f.dy = p :: ps) (low : p < 4)
    (core : s.coreSender x y = none) (port : s.drifting true x y = none) :
    exec (.routerCycle x y) s = .next { s with flits := (s.flits.filter fun f => !f.moving) ++ [f.onTrip (Trip.move p)] } := by
  let s1 : State := { s with flits := (s.flits.filter fun f => !f.moving) ++ [f.onTrip (Trip.move p)] }
  rw [exec_routerCycle, planeCycle_one alone away way low]
  exact congrArg Host.Outcome.next ((congrArg (State.flueCycle x y) (State.injectAt_none (s := s1) core port _)).trans
    (State.flueCycle_empty (s := s1) x y noFlue))

/-! ### The ingress (R192, R193, R195) -/

/-- `t` differs from `s` in threads, cores, acknowledgments and what stands on the data plane alone, and no new request is in flight. -/
def PlaneOnly (s t : State) : Prop :=
  t = { s with thr := t.thr, pool := t.pool, cores := t.cores, acks := t.acks, flight := t.flight, drifts := t.drifts } ∧
    ∀ q ∈ t.flight, ∃ r ∈ s.flight, r.id = q.id

theorem PlaneOnly.refl (s : State) : PlaneOnly s s := ⟨rfl, fun q mem => ⟨q, mem, rfl⟩⟩

theorem PlaneOnly.trans {s t u : State} (a : PlaneOnly s t) (b : PlaneOnly t u) : PlaneOnly s u := by
  obtain ⟨rest, ids⟩ := a
  obtain ⟨rest', ids'⟩ := b
  refine ⟨by rw [rest', rest], fun q mem => ?_⟩
  obtain ⟨r, mem', same⟩ := ids' q mem
  obtain ⟨r', mem'', same'⟩ := ids r mem'
  exact ⟨r', mem'', same'.trans same⟩

/-- A change of threads, cores and acknowledgments. -/
theorem PlaneOnly.of_parts (s : State) (thr : Thread) (pool : List Thread) (cores : List (Nat × CoreSt)) (acks : List Ack) :
    PlaneOnly s { s with thr := thr, pool := pool, cores := cores, acks := acks } := ⟨rfl, fun q mem => ⟨q, mem, rfl⟩⟩

section
variable {s t : State} (a : PlaneOnly s t)
include a

theorem PlaneOnly.mem : t.mem = s.mem := by rw [a.1]

theorem PlaneOnly.empties : t.empties = s.empties := by rw [a.1]

theorem PlaneOnly.hostTx : t.hostTx = s.hostTx := by rw [a.1]

/-- A request that is not in flight before is not in flight after. -/
theorem PlaneOnly.absent {n : Nat} (gone : ∀ q ∈ s.flight, q.id ≠ n) : ∀ q ∈ t.flight, q.id ≠ n := by
  intro q mem
  obtain ⟨r, mem', same⟩ := a.2 q mem
  exact same ▸ gone r mem'

end

/-- A flit that passes an ingress leaves the names of the requests. -/
theorem State.passFlit_only (h : Nat) (f : DFlit) (s : State) : PlaneOnly s (s.passFlit h f) := by
  unfold State.passFlit
  dsimp only
  split
  · refine ⟨rfl, fun q mem => ?_⟩
    obtain ⟨r, mem', same | same⟩ := mem_mapFirst mem
    · exact ⟨r, mem', by rw [same]⟩
    · exact ⟨r, mem', by rw [same]⟩
  · exact .of_parts s _ _ _ _

theorem State.releaseFlits_only (h fuel : Nat) (s : State) : PlaneOnly s (s.releaseFlits h fuel) := by
  induction fuel generalizing s with
  | zero => exact .refl s
  | succ fuel ih =>
    rw [State.releaseFlits]
    split
    · exact .refl s
    · exact ((PlaneOnly.of_parts s _ _ _ _).trans (State.passFlit_only h _ _)).trans (ih _)

theorem State.drainIngress_only (h : Nat) (s : State) : PlaneOnly s (s.drainIngress h) := State.releaseFlits_only _ _ s

theorem State.passFlit_thr (h : Nat) (f : DFlit) (s : State) : (s.passFlit h f).thr = s.thr := by
  unfold State.passFlit
  dsimp only
  split <;> rfl

/-- The core whose ingress passes a flit expects the next one of its source and channel. -/
theorem State.passFlit_core (h : Nat) (f : DFlit) (s : State) :
    (s.passFlit h f).core h = { s.core h with expect := put (f.src, f.ch) ((f.seq + 1) % 1024) (s.core h).expect } := by
  have set : (s.setCore h fun c => { c with expect := put (f.src, f.ch) ((f.seq + 1) % 1024) c.expect }).core h = _ := State.core_setCore _ _ s
  unfold State.passFlit
  dsimp only
  split <;> exact set

/-- A packet whose last flit has passed is at its home. -/
theorem State.passFlit_last {h : Nat} {f : DFlit} {s : State} (last : f.tl = true) {r : Req} (mem : r ∈ s.flight) (is : r.id = f.pkt) :
    ∃ q ∈ (s.passFlit h f).flight, q.id = f.pkt ∧ q.stage = 2 := by
  obtain ⟨q, found⟩ : ∃ q, s.flight.find? (fun r => r.id == f.pkt) = some q :=
    Option.isSome_iff_exists.1 (List.find?_isSome.2 ⟨r, mem, by simp [is]⟩)
  have id : q.id = f.pkt := by simpa using List.find?_some found
  have flight : (s.passFlit h f).flight = mapFirst (fun r => r.id == f.pkt) (fun r => { r with stage := 2 }) s.flight := by
    rw [State.passFlit, if_pos last]
    rfl
  have first := find?_mapFirst_self (p := fun r : Req => r.id == f.pkt) (f := fun r => { r with stage := 2 }) (fun _ h => h) s.flight
  rw [found, ← flight] at first
  exact ⟨_, List.mem_of_find?_eq_some first, id, rfl⟩

theorem exec_flitArrive (k : Nat) (s : State) : exec (.flitArrive k) s = execFlitArrive k s := rfl

section
variable {s : State} {k : Nat} {f : DFlit} (stands : s.flits[k]? = some f) (out : f.out = true) (live : s.ingressDead (s.flitHome f) = false)
include stands out live

/-- The flit that a live ingress expects passes, where nothing waits behind it (R192). -/
theorem exec_flitArrive_passes (next : s.ahead (s.flitHome f) f = 0) (alone : (s.core (s.flitHome f)).reorder = [])
    (takes : f.tl = true → s.queueTakes (s.flitHome f) = true) :
    exec (.flitArrive k) s = .next (({ s with flits := dropAt k s.flits } : State).passFlit (s.flitHome f) f) := by
  have room : (!f.tl || s.queueTakes (s.flitHome f)) = true := by
    cases last : f.tl with
    | false => rfl
    | true => exact takes last
  have nothing : ∀ t : State, (t.core (s.flitHome f)).reorder = [] → t.drainIngress (s.flitHome f) = t := fun t none => by
    rw [State.drainIngress, none]
    rfl
  have stays : ((({ s with flits := dropAt k s.flits } : State).passFlit (s.flitHome f) f).core (s.flitHome f)).reorder = [] := by
    rw [State.passFlit_core]
    exact alone
  simp only [exec_flitArrive, execFlitArrive, stands, out, live, Bool.not_true, Bool.false_eq_true, if_false, next, if_true, room,
    nothing _ stays]

/-- A later flit waits in the reorder memory of a live ingress (R192). -/
theorem exec_flitArrive_waits (later : 0 < s.ahead (s.flitHome f) f) (near : s.ahead (s.flitHome f) f ≤ 511)
    (room : (s.core (s.flitHome f)).reorder.length < 1024) :
    exec (.flitArrive k) s = .next (({ s with flits := dropAt k s.flits } : State).setCore (s.flitHome f) fun c =>
      { c with reorder := c.reorder ++ [f] }) := by
  simp only [exec_flitArrive, execFlitArrive, stands, out, live, Bool.not_true, Bool.false_eq_true, if_false, if_neg (Nat.ne_of_gt later),
    if_neg (Nat.not_lt.2 near), if_pos room]

end

end Sys2Proof.Machine
end

section
/-! ### Requests at their homes (R152, R166, R195, R198) -/

namespace Sys2Proof.Machine

open Config

/-- `t` differs from `s` in the cores alone, whose saved sets stay. -/
def CoresOnly (s t : State) : Prop := t = { s with cores := t.cores } ∧ ∀ n, (t.core n).saved = (s.core n).saved

theorem CoresOnly.refl (s : State) : CoresOnly s s := ⟨rfl, fun _ => rfl⟩

theorem CoresOnly.trans {s t u : State} (a : CoresOnly s t) (b : CoresOnly t u) : CoresOnly s u :=
  ⟨by rw [b.1, a.1], fun n => (b.2 n).trans (a.2 n)⟩

theorem CoresOnly.of_setCore {f : CoreSt → CoreSt} (kept : ∀ c, (f c).saved = c.saved) (h : Nat) (s : State) : CoresOnly s (s.setCore h f) :=
  ⟨rfl, fun n => State.setCore_coreField (p := CoreSt.saved) kept h n s⟩

theorem CoreSt.l2Access_saved (a pol : Nat) (wr : Bool) (back : Backing) (c : CoreSt) : (c.l2Access a pol wr back).saved = c.saved := by
  unfold CoreSt.l2Access
  dsimp only
  split
  · split <;> rfl
  · split <;> rfl

theorem State.touchL2_only (home a pol : Nat) (wr : Bool) (s : State) : CoresOnly s (s.touchL2 home a pol wr) :=
  .of_setCore (CoreSt.l2Access_saved a pol wr _) home s

/-- A thread is owed a result by its name: its image is among the threads attached, or in the saved set of its core. -/
theorem State.findOwed_congr {s t : State} (thr : t.thr = s.thr) (pool : t.pool = s.pool) (saved : ∀ n, (t.core n).saved = (s.core n).saved)
    (core : Nat) (cxa : Word) : t.findOwed core cxa = s.findOwed core cxa := by
  have found : t.findThr core cxa = s.findThr core cxa := by rw [State.findThr_eq, State.findThr_eq, thr, pool]
  have kept : t.findSaved core cxa = s.findSaved core cxa := by rw [State.findSaved, State.findSaved, saved]
  rw [State.findOwed, State.findOwed, found, kept]

/-- The thread named, if there is one, has its image at a core, and not in a record. -/
def State.OwesNear (core : Nat) (cxa : Word) (s : State) : Prop := ∀ t, s.findOwed core cxa = some t → t.place ≠ .record

theorem CoresOnly.near {s t : State} (a : CoresOnly s t) {core : Nat} {cxa : Word} (near : s.OwesNear core cxa) : t.OwesNear core cxa := by
  have same : t.findOwed core cxa = s.findOwed core cxa :=
    State.findOwed_congr (by rw [a.1]) (by rw [a.1]) a.2 core cxa
  rw [State.OwesNear, same]
  exact near

/-- An image at a core is changed there (R80). -/
theorem State.updImage_near {core : Nat} {cxa : Word} {s : State} (near : s.OwesNear core cxa) (f : Thread → Thread) :
    s.updImage core cxa f = s ∨ s.updImage core cxa f = s.updThr core cxa f := by
  unfold State.updImage
  split
  · exact .inl rfl
  · rename_i t owed
    simp [near t owed]

theorem State.updThr_only (core : Nat) (cxa : Word) (f : Thread → Thread) (s : State) : PlaneOnly s (s.updThr core cxa f) := by
  unfold State.updThr
  split
  · exact .of_parts s _ _ _ _
  · split
    · exact .of_parts s _ _ _ _
    · exact .of_parts s _ _ _ _

theorem State.updImage_only {core : Nat} {cxa : Word} {s : State} (near : s.OwesNear core cxa) (f : Thread → Thread) :
    PlaneOnly s (s.updImage core cxa f) := by
  rcases State.updImage_near near f with same | upd
  · rw [same]
    exact .refl s
  · rw [upd]
    exact State.updThr_only core cxa f s

/-- A home has performed a posted request: its thread is told, and its core's packet acknowledged (R153, R195). -/
def State.reqDone (r : Req) (s : State) : State := (if r.counted then s.storeDone r.src r.cxa else s).ackTo r.src r.home

theorem State.reqDone_only {r : Req} {s : State} (near : s.OwesNear r.src r.cxa) : PlaneOnly s (s.reqDone r) := by
  have told : PlaneOnly s (if r.counted then s.storeDone r.src r.cxa else s) := by
    split
    · exact State.updImage_only near _
    · exact .refl s
  obtain ⟨acks, acked⟩ := State.ackTo_only r.src r.home (if r.counted then s.storeDone r.src r.cxa else s)
  rw [State.reqDone, acked]
  exact told.trans (.of_parts _ _ _ _ _)

/-- What the home of a store notes in its L2 slice and, of a stream's, in its table (R149, R198). -/
def State.notesStore (r : Req) (s : State) : State :=
  let s1 := if r.paged then s.touchL2 r.home r.addr r.pol true else s
  if r.tag = 0#16 then s1 else s1.setCore r.home (CoreSt.noteStream r.src r.tag r.addr r.page)

theorem State.notesStore_only (r : Req) (s : State) : CoresOnly s (s.notesStore r) := by
  have slice : CoresOnly s (if r.paged then s.touchL2 r.home r.addr r.pol true else s) := by
    split
    · exact State.touchL2_only _ _ _ _ s
    · exact .refl s
  unfold State.notesStore
  dsimp only
  split
  · exact slice
  · exact slice.trans (.of_setCore (f := CoreSt.noteStream r.src r.tag r.addr r.page) (fun _ => rfl) _ _)

section
variable {r : Req} {s : State} {bs : List Byte} (op : r.op = .store bs) (live : s.homeDead r.home = false) (sound : s.reqFailed r = false)
include op live sound

/-- A store at its live home is performed there (R166). -/
theorem State.performReq_store (core : r.home ≠ hostHome) : s.performReq r = ((s.notesStore r).homeWrite r.addr bs).reqDone r := by
  simp only [State.performReq, live, sound, op, if_neg core, Bool.false_eq_true, if_false]
  rfl

/-- A store to the host window leaves as a Memory Write (R179). -/
theorem State.performReq_host (host : r.home = hostHome) : s.performReq r =
    ((if r.paged then s.touchL2 r.home r.addr r.pol true else s).emit (.memWrite r.addr bs)).reqDone r := by
  simp only [State.performReq, live, sound, op, if_pos host, Bool.false_eq_true, if_false]
  rfl

end

/-- With no wait anywhere, a write touches no word that is waited for. -/
theorem State.quiet_unwatched {s : State} (still : s.quiet = true) (a n : Nat) : s.unwatched a n = true := by
  simp only [State.quiet, Bool.and_eq_true, Bool.not_eq_true', List.isEmpty_iff] at still
  obtain ⟨noWaiters, noDeadline⟩ := still
  simp [State.unwatched, noWaiters, noDeadline]

theorem CoresOnly.quiet {s t : State} (a : CoresOnly s t) (still : s.quiet = true) : t.quiet = true := by
  rw [a.1]
  exact still

/-- A store at its home: the bytes are written, and what else changes lies outside storage. -/
theorem State.performReq_store_writes {r : Req} {s : State} {bs : List Byte} (op : r.op = .store bs) (live : s.homeDead r.home = false)
    (sound : s.reqFailed r = false) (core : r.home ≠ hostHome) (near : s.OwesNear r.src r.cxa) (still : s.quiet = true) :
    PlaneOnly (s.writeMem r.addr bs) (s.performReq r) := by
  have noted := State.notesStore_only r s
  have written : CoresOnly (s.writeMem r.addr bs) ((s.notesStore r).writeMem r.addr bs) :=
    ⟨by rw [noted.1]; rfl, noted.2⟩
  rw [State.performReq_store op live sound core, State.homeWrite_unwatched (State.quiet_unwatched (noted.quiet still) _ _)]
  have moved : PlaneOnly (s.writeMem r.addr bs) ((s.notesStore r).writeMem r.addr bs) := by
    rw [written.1]
    exact .of_parts _ _ _ _ _
  exact moved.trans (State.reqDone_only (noted.near near))

/-- A Memory Write leaves at once where no `gset` is performed at the host port. -/
theorem State.emit_memWrite {s : State} (free : s.hostHold = none) (a : Nat) (bs : List Byte) :
    s.emit (.memWrite a bs) = { s with hostTx := s.hostTx ++ [.memWrite a bs] } := by
  rw [State.emit, if_neg (by simp [free])]
  show ({ s with hostTx := s.hostTx ++ [.memWrite a bs], hostHold := none } : State) = _
  exact congrArg (fun o => ({ s with hostTx := s.hostTx ++ [.memWrite a bs], hostHold := o } : State)) free.symm

/-- A store to the host window: a Memory Write leaves. -/
theorem State.performReq_host_emits {r : Req} {s : State} {bs : List Byte} (op : r.op = .store bs) (live : s.homeDead r.home = false)
    (sound : s.reqFailed r = false) (host : r.home = hostHome) (near : s.OwesNear r.src r.cxa) (free : s.hostHold = none) :
    PlaneOnly ({ s with hostTx := s.hostTx ++ [.memWrite r.addr bs] } : State) (s.performReq r) := by
  let s1 := if r.paged then s.touchL2 r.home r.addr r.pol true else s
  have slice : CoresOnly s s1 := by
    unfold s1
    split
    · exact State.touchL2_only _ _ _ _ s
    · exact .refl s
  have held : s1.hostHold = none := by
    rw [slice.1]
    exact free
  rw [State.performReq_host op live sound host]
  show PlaneOnly _ ((s1.emit (.memWrite r.addr bs)).reqDone r)
  rw [State.emit_memWrite held]
  have moved : PlaneOnly ({ s with hostTx := s.hostTx ++ [.memWrite r.addr bs] } : State)
      { s1 with hostTx := s1.hostTx ++ [.memWrite r.addr bs] } := by
    rw [slice.1]
    exact .of_parts _ _ _ _ _
  exact moved.trans (State.reqDone_only (slice.near near))

theorem exec_homeRequestStart (k : Nat) (s : State) : exec (.homeRequestStart k) s = execHomeRequestStart k s := rfl

/-- A request that its home starts, of a core that the home has not turned away, is performed; what waits at the ingress may follow. -/
theorem exec_homeRequestStart_performs {s : State} {k : Nat} {r : Req} (stands : s.flight[k]? = some r) (stage : r.stage = 0 ∨ r.stage = 2)
    (full : r.short = false) (first : s.reqBehind k r = false) (ready : s.reqWaits r = false)
    (welcome : (s.core r.home).nakSrc.contains r.src = false) :
    ∃ u, exec (.homeRequestStart k) s = .next u ∧
      PlaneOnly (({ s with flight := s.flight.filter fun q => q.id != r.id } : State).performReq r) u := by
  have keyed : s.streamMiss r = false := by simp [State.streamMiss, full]
  have starts : s.startReq k r = ({ s with flight := s.flight.filter fun q => q.id != r.id } : State).performReq r := by
    rcases stage with stage | stage <;>
      simp [State.startReq, stage, first, ready, -List.contains_eq_mem, welcome, keyed]
  rw [exec_homeRequestStart, execHomeRequestStart, stands]
  dsimp only
  rw [starts]
  refine ⟨_, rfl, ?_⟩
  split
  · exact State.drainIngress_only _ _
  · exact .refl _

end Sys2Proof.Machine
end

section
/-! ### The retry of a read (R195, R399, R400) -/

namespace Sys2Proof.Machine

open Config

theorem mem_insertNat {n w : Nat} {l : List Nat} : w ∈ insertNat n l ↔ w = n ∨ w ∈ l := by
  induction l with
  | nil => simp [insertNat]
  | cons a l ih =>
    rw [insertNat]
    split
    · exact List.mem_cons
    · split
      · rename_i same
        simp [same]
      · rw [List.mem_cons, ih, List.mem_cons]
        exact or_left_comm

/-- Words that are marked as poisoned, one after another. -/
theorem State.addPoison_all (l : List Nat) (s : State) :
    let u := l.foldl (fun s a => s.addPoison a) s
    u = { s with poison := u.poison } ∧ ∀ w, w ∈ u.poison ↔ w ∈ s.poison ∨ ∃ a ∈ l, w = a / 8 := by
  induction l generalizing s with
  | nil => exact ⟨rfl, fun w => by simp⟩
  | cons a l ih =>
    obtain ⟨rest, marked⟩ := ih (s.addPoison a)
    refine ⟨rest, fun w => (marked w).trans ?_⟩
    rw [State.addPoison, mem_insertNat]
    simp only [List.mem_cons, exists_eq_or_imp]
    exact ⟨fun h => by tauto, fun h => by tauto⟩

/-- Without a ring for its die's reports, FLT alone is sent (R403). -/
theorem State.report_noRing {r : Report} {s : State} (noRing : (s.die r.die).frb = 0#64) : s.report r = s.sendFlt r 0#64 :=
  if_pos (.inl noRing)

theorem exec_missFill (core a : Nat) (o : ReadOutcome) (s : State) : exec (.missFill core a o) s = execMissFill core a o s := rfl

section
variable {core a : Nat} {s : State} (dram : a < Config.physEnd)
include dram

/-- A clean line, and one with a word that is poisoned already, arrives in the L2 slice of its home (R195, R400). -/
theorem exec_missFill_fills {o : ReadOutcome} (quiet : o = .clean ∨ s.poison.contains (a / 8) = true) :
    exec (.missFill core a o) s = .next (s.touchL2 core a 2 false) := by
  have inside : ¬ (physEnd ≤ a ∧ (a < winBase ∨ nCores ≤ core)) := fun h => absurd dram (Nat.not_lt.2 h.1)
  simp only [exec_missFill, execMissFill, dram, if_true, if_neg inside]
  rcases quiet with rfl | bad
  · rw [ite_self]
  · rw [if_pos bad]

omit dram in
/-- The words of a line poisoned, and FLT sent, where a report has no ring (R403). -/
theorem State.report_addPoison_all {r : Report} (l : List Nat) (noRing : (s.die r.die).frb = 0#64) :
    (l.foldl (fun s a => s.addPoison a) s).report r = (l.foldl (fun s a => s.addPoison a) s).sendFlt r 0#64 := by
  refine State.report_noRing ?_
  rw [(State.addPoison_all l s).1]
  exact noRing

omit dram in
/-- A line whose words are poisoned arrives: of thread, storage and poison, those words alone change (R399, R400). -/
theorem State.fill_addPoison_all (l : List Nat) (r : Report) :
    let u := ((l.foldl (fun s a => s.addPoison a) s).sendFlt r 0#64).touchL2 core a 2 false
    u.mem = s.mem ∧ u.thr = s.thr ∧ ∀ w, w ∈ u.poison ↔ w ∈ s.poison ∨ ∃ a ∈ l, w = a / 8 := by
  obtain ⟨rest, marked⟩ := State.addPoison_all l s
  exact ⟨(congrArg State.mem rest :), (congrArg State.thr rest :), marked⟩

/-- A lasting fault poisons the words of its line; with no ring for reports, FLT alone is sent (R399, R403). -/
theorem exec_missFill_lasting {syn : BitVec 16} {va : Option (Word × BitVec 16)} (sound : s.poison.contains (a / 8) = false)
    (noRing : (s.die (a / Config.dieBytes)).frb = 0#64) : ∃ r,
    exec (.missFill core a (.lasting syn va)) s =
      .next (((((List.range 8).map fun i => a / 64 * 64 + 8 * i).foldl (fun s a => s.addPoison a) s).sendFlt r 0#64).touchL2 core a 2 false) := by
  have inside : ¬ (physEnd ≤ a ∧ (a < winBase ∨ nCores ≤ core)) := fun h => absurd dram (Nat.not_lt.2 h.1)
  have die : (readReport s core a 2 syn va).die = a / dieBytes := by rw [readReport, if_pos dram]
  refine ⟨readReport s core a 2 syn va, ?_⟩
  rw [← State.report_addPoison_all _ (die.symm ▸ noRing)]
  simp only [exec_missFill, execMissFill, dram, if_true, if_neg inside, sound, Bool.false_eq_true, if_false]

end

end Sys2Proof.Machine
end

section
/-! ### Draught, NAKs and refused requests (R152, R156, R194, R195, R198, R211) -/

namespace Sys2Proof.Machine

open Config

theorem exec_draughtAck (k : Nat) (s : State) : exec (.draughtAck k) s = execDraughtAck k s := rfl

theorem exec_ceilRecover (core dn : Nat) (s : State) : exec (.ceilRecover core dn) s = execCeilRecover core dn s := rfl

theorem exec_nakReceive (k : Nat) (s : State) : exec (.nakReceive k) s = execNakReceive k s := rfl

theorem exec_streamNak (core tag : Nat) (s : State) : exec (.streamNak core tag) s = execStreamNak core tag s := rfl

theorem exec_waiterResend (k : Nat) (s : State) : exec (.waiterResend k) s = execWaiterResend k s := rfl

/-! What a NAK changes in the image of its thread -/

/-- The first fault of a posted access is kept, unless faults are discarded (R156). -/
def Thread.keepsFault (sub : BitVec 8) (ea : Word) (t : Thread) : Thread :=
  if t.res.fault.isNone && !t.res.faultShut then { t with res := { t.res with fault := some (sub, ea) } } else t

theorem State.recordFault_eq (core : Nat) (cxa : Word) (sub : BitVec 8) (ea : Word) (s : State) :
    s.recordFault core cxa sub ea = s.updImage core cxa (Thread.keepsFault sub ea) := rfl

/-- One posted access fewer is outstanding (R153). -/
def Thread.stored (t : Thread) : Thread := { t with ctx := { t.ctx with stc := t.ctx.stc - 1#16 } }

theorem State.storeDone_eq (core : Nat) (cxa : Word) (s : State) : s.storeDone core cxa = s.updImage core cxa Thread.stored := rfl

/-- `f` leaves a thread its name, its place and its wait. -/
def NameKept (f : Thread → Thread) : Prop := ∀ t, (f t).core = t.core ∧ (f t).ctx.cxa = t.ctx.cxa ∧ (f t).wait = t.wait ∧ (f t).place = t.place

theorem Thread.keepsFault_name (sub : BitVec 8) (ea : Word) : NameKept (Thread.keepsFault sub ea) := by
  intro t
  unfold Thread.keepsFault
  split <;> exact ⟨rfl, rfl, rfl, rfl⟩

theorem Thread.stored_name : NameKept Thread.stored := fun _ => ⟨rfl, rfl, rfl, rfl⟩

section
variable {core : Nat} {cxa : Word} {s : State} {t : Thread} (there : s.findThr core cxa = some t) (near : t.place ≠ .record)
include there

theorem State.findThr_updThr {f : Thread → Thread} (kept : NameKept f) : (s.updThr core cxa f).findThr core cxa = some (f t) := by
  have same : ∀ v : Thread, (f v).isAt core cxa = v.isAt core cxa := fun v => by
    obtain ⟨core', cxa', wait, -⟩ := kept v
    rw [Thread.isAt, Thread.isAt, core', cxa', wait]
  rw [State.findThr_eq] at there ⊢
  unfold State.updThr
  by_cases own : s.thr.isAt core cxa = true
  · rw [List.find?_cons_of_pos own] at there
    rw [if_pos own, List.find?_cons_of_pos ((same _).trans own), ← Option.some.inj there]
  · rw [List.find?_cons_of_neg own] at there
    have pooled : s.pool.any (Thread.isAt core cxa) = true := List.any_of_mem (List.mem_of_find?_eq_some there) (List.find?_some there)
    rw [if_neg own, if_pos pooled, List.find?_cons_of_neg own, find?_mapFirst_self (fun v at' => (same v).trans at'), there]
    rfl

include near

theorem State.updImage_attached (f : Thread → Thread) : s.updImage core cxa f = s.updThr core cxa f := by
  have owed : s.findOwed core cxa = some t := by rw [State.findOwed, there]
  simp [State.updImage, owed, near]

/-- An image that is changed where its thread is attached. -/
theorem State.updImage_findThr {f : Thread → Thread} (kept : NameKept f) :
    PlaneOnly s (s.updImage core cxa f) ∧ (s.updImage core cxa f).findThr core cxa = some (f t) := by
  rw [State.updImage_attached there near]
  exact ⟨State.updThr_only core cxa f s, State.findThr_updThr there kept⟩

end

theorem Thread.keepsFault_eq (sub : BitVec 8) (ea : Word) (t : Thread) : (t.keepsFault sub ea).res.fault =
    (if t.res.fault.isNone && !t.res.faultShut then some (sub, ea) else t.res.fault) ∧ (t.keepsFault sub ea).ctx = t.ctx := by
  unfold Thread.keepsFault
  split <;> exact ⟨rfl, rfl⟩

/-- The NAK of a posted access leaves its fault, and one posted access fewer where it was counted (R156, R211). -/
theorem exec_nakReceive_posted {s : State} {k : Nat} {n : Nak} {t : Thread} (stands : s.naks[k]? = some n) (posted : n.posted = true)
    (there : s.findThr n.core n.cxa = some t) (near : t.place ≠ .record) :
    ∃ u, exec (.nakReceive k) s = .next u ∧ u.naks = dropAt k s.naks ∧ u.mem = s.mem ∧
      (u.findThr n.core n.cxa).map (fun v => (v.res.fault, v.ctx.stc)) =
        some (if t.res.fault.isNone && !t.res.faultShut then some (n.reason, n.ea) else t.res.fault,
          if n.counted then t.ctx.stc - 1#16 else t.ctx.stc) := by
  let s1 : State := { s with naks := dropAt k s.naks }
  obtain ⟨only, found⟩ := State.updImage_findThr (s := s1) there near (Thread.keepsFault_name n.reason n.ea)
  have place : (t.keepsFault n.reason n.ea).place ≠ .record := by
    rw [(Thread.keepsFault_name n.reason n.ea t).2.2.2]
    exact near
  obtain ⟨only', found'⟩ := State.updImage_findThr found place Thread.stored_name
  obtain ⟨fault, ctx⟩ := t.keepsFault_eq n.reason n.ea
  have runs : exec (.nakReceive k) s = .next (if n.counted then (s1.recordFault n.core n.cxa n.reason n.ea).storeDone n.core n.cxa
      else s1.recordFault n.core n.cxa n.reason n.ea) := by
    simp only [exec_nakReceive, execNakReceive, stands, posted, if_true]
    rfl
  rw [runs, State.storeDone_eq, State.recordFault_eq]
  cases n.counted with
  | true =>
    have both := only.trans only'
    refine ⟨_, rfl, by rw [if_pos rfl, both.1], by rw [if_pos rfl, both.1], ?_⟩
    rw [if_pos rfl, if_pos rfl, found', Option.map_some, Thread.stored, fault, ctx]
  | false =>
    refine ⟨_, rfl, by rw [if_neg Bool.false_ne_true, only.1], by rw [if_neg Bool.false_ne_true, only.1], ?_⟩
    rw [if_neg Bool.false_ne_true, if_neg Bool.false_ne_true, found, Option.map_some, fault, ctx]

/-! The packets that a stream sends again -/

theorem resendAll_length (p : Req → Bool) (first : Bool) (l : List Req) : (resendAll p first l).length = l.length := by
  induction l generalizing first with
  | nil => rfl
  | cons r l ih =>
    rw [resendAll]
    split
    · exact congrArg (· + 1) (ih false)
    · exact congrArg (· + 1) (ih first)

/-- A packet turned away stands in its place, to be sent again with a full header; every other one stands as it is. -/
theorem resendAll_get {p : Req → Bool} {l : List Req} {i : Nat} {q : Req} (stands : l[i]? = some q) (first : Bool) :
    ∃ again, (resendAll p first l)[i]? = some (if p q then { q with stage := 0, inj := 0, short := false, resend := again } else q) := by
  induction l generalizing first i with
  | nil => cases stands
  | cons r l ih =>
    rw [resendAll]
    cases i with
    | zero =>
      obtain rfl : r = q := Option.some.inj stands
      refine ⟨first, ?_⟩
      split <;> rfl
    | succ i =>
      split
      · exact ih stands false
      · exact ih stands first

/-- Once all that a core had sent to a home has been turned away, it sends all of it again (R198). -/
theorem exec_streamNak_resends {s : State} {core tag : Nat} {r : Req}
    (first : s.flight.find? (fun r => r.src == core && r.stage == 3 && r.tag.toNat == tag) = some r)
    (away : ∀ q ∈ s.flight, q.src = core → q.home = r.home → q.stage = 0 ∨ q.stage = 3) :
    exec (.streamNak core tag) s = .next { s with
      flight := resendAll (fun q => q.src == core && q.home == r.home && q.stage == 3) true s.flight } := by
  have none : (s.flight.any fun q => (q.src == core && q.home == r.home) && (q.stage == 1 || q.stage == 2)) = false := by
    refine List.any_eq_false.2 fun q mem busy => ?_
    simp only [Bool.and_eq_true, Bool.or_eq_true, beq_iff_eq] at busy
    obtain ⟨⟨src, home⟩, stage⟩ := busy
    have := away q mem src home
    omega
  simp only [exec_streamNak, execStreamNak, first, none, Bool.false_eq_true, if_false]

theorem resendAll_stage {core : Nat} {r q : Req} {l : List Req} (away : ∀ q ∈ l, q.src = core → q.home = r.home → q.stage = 0 ∨ q.stage = 3)
    {i : Nat} (stands : l[i]? = some q) :
    ∃ v : Req, (resendAll (fun q => q.src == core && q.home == r.home && q.stage == 3) true l)[i]? = some v ∧ v.id = q.id ∧ v.op = q.op ∧
      (q.src = core → q.home = r.home → v.stage = 0) ∧ (q.src ≠ core ∨ q.home ≠ r.home → v = q) := by
  obtain ⟨again, at'⟩ := resendAll_get (p := fun q => q.src == core && q.home == r.home && q.stage == 3) stands true
  refine ⟨_, at', ?_⟩
  by_cases turned : (q.src == core && q.home == r.home && q.stage == 3) = true
  · rw [if_pos turned]
    simp only [Bool.and_eq_true, beq_iff_eq] at turned
    obtain ⟨⟨src, home⟩, -⟩ := turned
    exact ⟨rfl, rfl, fun _ _ => rfl, fun other => other.elim (absurd src) (absurd home)⟩
  · rw [if_neg turned]
    refine ⟨rfl, rfl, fun src home => ?_, fun _ => rfl⟩
    have stage : q.stage ≠ 3 := fun three => turned (by simp [src, home, three])
    exact (away q (List.mem_of_getElem? stands) src home).resolve_right stage

/-! A refused request that is sent again -/

/-- A request that comes to its live home once more is performed, or waits there again (R152). -/
theorem Waiter.again_live {w : Waiter} {s : State} (live : s.homeDead w.home = false) :
    w.again s = if w.holds s then w.perform s else s.addWaiter { w with since := s.now w.home } := by
  rw [Waiter.again, if_neg (by rw [live]; decide)]

/-- Whether a request still waits depends on its word and on its full/empty bit. -/
theorem Waiter.holds_congr {w : Waiter} {s t : State} (mem : t.mem = s.mem) (empties : t.empties = s.empties) : w.holds t = w.holds s := by
  have word : t.readWord w.addr = s.readWord w.addr := by simp only [State.readWord, State.readNat, State.readMem, mem]
  have full : t.isFull w.addr = s.isFull w.addr := by rw [State.isFull, State.isFull, empties]
  rw [Waiter.holds, Waiter.holds, word, full]

section
variable {s : State} {k : Nat} {w : Waiter} (stands : s.waiters[k]? = some w) (refused : w.refused = true) (same : w.anew = false)
  (asleep : w.woken = none) (near : w.remote = none) (late : 256 ≤ (s.now w.home - w.since).toNat)
include stands refused same asleep near late

/-- A request refused 256 cycles ago is sent again (R152). -/
theorem exec_waiterResend_again : exec (.waiterResend k) s = .next (w.again { s with waiters := dropAt k s.waiters }) := by
  have due : ¬ (s.now w.home - w.since).toNat < 256 := Nat.not_lt.2 late
  simp only [exec_waiterResend, execWaiterResend, stands, refused, same, asleep, near, due, Bool.not_true, Option.isSome_none, decide_false,
    Bool.or_false, Bool.false_eq_true, if_false]

end

/-- The answer to a request that waited is on its way (R152). -/
theorem Waiter.reply_near {w : Waiter} (near : w.remote = none) (waits : w.posted = false) (v : Word) (s : State) :
    ∃ l, w.reply v s = { s with acks := l, owed := s.owed ++ [⟨w.src, w.cxa, .reply (leBytes 8 v.toNat), 0#64, 0#5⟩] } := by
  obtain ⟨l, acked⟩ := State.ackTo_only w.src w.home s
  refine ⟨l, ?_⟩
  simp only [Waiter.reply, near, acked, waits, Bool.false_eq_true, if_false]

/-- A request of a load that waited is answered with the word; `ldc` empties it (R159, R186). -/
theorem Waiter.perform_answers {w : Waiter} {s : State} (near : w.remote = none) (waits : w.posted = false) (holds : w.holds s = true)
    (load : w.kind ≠ .stp) (sound : s.poisoned w.addr 8 = false) :
    ∃ empties acks, w.perform s = { s with
      empties := empties, acks := acks, owed := s.owed ++ [⟨w.src, w.cxa, .reply (leBytes 8 (s.readWord w.addr).toNat), 0#64, 0#5⟩] } := by
  have clean : s.spoiled w.addr 8 = false := (Bool.or_eq_false_iff.1 sound).1
  cases kind : w.kind with
  | ldc =>
    obtain ⟨l, replied⟩ := Waiter.reply_near near waits (s.readWord w.addr) (s.setFullBit w.addr false)
    refine ⟨(s.setFullBit w.addr false).empties, l, ?_⟩
    simp only [Waiter.perform, clean, kind, Bool.and_false, Bool.false_eq_true, if_false]
    exact replied
  | stp => exact absurd kind load
  | wtwNe =>
    obtain ⟨l, replied⟩ := Waiter.reply_near near waits (s.readWord w.addr) s
    refine ⟨s.empties, l, ?_⟩
    simp only [Waiter.perform, clean, kind, Bool.and_false, Bool.false_eq_true, if_false]
    exact replied
  | wtwGe =>
    obtain ⟨l, replied⟩ := Waiter.reply_near near waits (s.readWord w.addr) s
    refine ⟨s.empties, l, ?_⟩
    simp only [Waiter.perform, clean, kind, Bool.and_false, Bool.false_eq_true, if_false]
    exact replied
  | aside => simp [Waiter.holds, kind] at holds

end Sys2Proof.Machine
end

section
namespace Sys2Proof.Machine

open Config

/-- Settles O47: each clause is the lemma about its event, read off. -/
theorem planeEvents : Obligations.PlaneEvents := by
  unfold Obligations.PlaneEvents
  intro s
  refine ⟨?routers, ?injection, ?ingress, ?homes, ?misses, ?draught, ?recovery, ?naks, ?streams, ?resends⟩
  case routers =>
    intro x y f p ps alone away noFlue way low core port
    exact ⟨_, exec_routerCycle_moves alone away noFlue way low core port, rfl, rfl⟩
  case injection =>
    intro x y k p ps clear core port way low
    exact exec_routerCycle_injects clear core port way low
  case ingress =>
    intro k f stands out live
    refine ⟨fun next alone takes => ?_, fun later near room => ?_⟩
    · let s1 : State := { s with flits := dropAt k s.flits }
      have only := State.passFlit_only (s.flitHome f) f s1
      refine ⟨_, exec_flitArrive_passes stands out live next alone takes, by rw [only.1], ?_, only.mem, State.passFlit_thr _ _ _,
        fun last r mem is => State.passFlit_last (s := s1) last mem is⟩
      rw [State.passFlit_core, look_put_same]
    · refine ⟨_, exec_flitArrive_waits stands out live later near room, rfl, ?_, rfl, rfl⟩
      rw [State.core_setCore]
      rfl
  case homes =>
    intro k r bs stands stage op full first ready sound live welcome near
    let s1 : State := { s with flight := s.flight.filter fun q => q.id != r.id }
    have gone : ∀ q ∈ s1.flight, q.id ≠ r.id := fun q mem => by simpa using (List.mem_filter.1 mem).2
    obtain ⟨u, runs, after⟩ := exec_homeRequestStart_performs stands stage full first ready welcome
    refine ⟨fun host free => ?_, fun core inv still => ?_⟩
    · have all := (State.performReq_host_emits (s := s1) op live sound host near free).trans after
      exact ⟨u, runs, all.hostTx, all.mem, all.absent gone⟩
    · have all := (State.performReq_store_writes (s := s1) op live sound core near still).trans after
      refine ⟨u, runs, ?_, (State.writeMem_outside (s := s1) inv).congr all.mem all.empties, all.absent gone⟩
      rw [State.readMem, all.mem]
      exact Memory.read_write bs r.addr inv
  case misses =>
    intro core a syn va dram
    refine ⟨fun o _ quiet => ⟨_, exec_missFill_fills dram quiet, .refl s, rfl⟩, fun sound noRing => ?_⟩
    obtain ⟨r, runs⟩ := exec_missFill_lasting (core := core) (syn := syn) (va := va) dram sound noRing
    obtain ⟨mem, thr, marked⟩ := State.fill_addPoison_all (s := s) (core := core) (a := a) ((List.range 8).map fun i => a / 64 * 64 + 8 * i) r
    exact ⟨_, runs, mem, thr, fun i low => (marked _).2 (.inr ⟨_, List.mem_map.2 ⟨i, List.mem_range.2 low, rfl⟩, by omega⟩),
      fun w held => (marked w).2 (.inl held)⟩
  case draught =>
    intro k a stands
    refine ⟨({ s with acks := dropAt k s.acks } : State).setCore a.core (CoreSt.ack a.dn a.level), ?_, rfl, ?_, rfl, rfl⟩
    · rw [exec_draughtAck, execDraughtAck, stands]
    · rw [State.core_setCore]
      rfl
  case recovery =>
    intro core dn
    refine ⟨_, exec_ceilRecover core dn s, rfl, rfl, ?_⟩
    rw [State.core_setCore]
  case naks =>
    intro k n t stands posted there near
    exact exec_nakReceive_posted stands posted there near
  case streams =>
    intro core tag r first away
    exact ⟨_, exec_streamNak_resends first away, rfl, resendAll_length _ _ _, fun i q stands => resendAll_stage away stands⟩
  case resends =>
    intro k w stands refused same asleep near waits late live
    let s1 : State := { s with waiters := dropAt k s.waiters }
    have runs := exec_waiterResend_again stands refused same asleep near late
    have sent : w.holds s1 = w.holds s := Waiter.holds_congr rfl rfl
    rw [Waiter.again_live (s := s1) live] at runs
    refine ⟨fun holds => ?_, fun holds load sound => ?_⟩
    · rw [if_neg (by rw [sent, holds]; decide)] at runs
      exact ⟨_, runs, rfl, rfl, rfl, rfl⟩
    · rw [if_pos (sent.trans holds)] at runs
      obtain ⟨empties, acks, answered⟩ := Waiter.perform_answers (s := s1) near waits (sent.trans holds) load sound
      rw [answered] at runs
      exact ⟨_, runs, rfl, rfl, rfl, rfl, rfl⟩

end Sys2Proof.Machine
end

section
/-! ### Commands that join a stream queue (O33, O34)

A stream or a bulk grain command reads its operands, checks its arrays and joins the queue of its core (R221, R222, R225, R252):
`withCapture_ready`, `withArray_arrayAt` and `withField_fieldOf` say when the checks pass, `finish_pushStream` what the word leaves
behind. -/

namespace Sys2Proof.Machine

/-! ### The checks at issue -/

/-- An array operand that passes its checks gives its storage address (R225). -/
theorem withArray_arrayAt {nd : Need} {a : Word} {z len n : Nat} {step : Int} {s : State} {k : Nat → Eff}
    (passes : s.arrayAt nd a z len step = some n) : withArray nd a z len step s k = k n := by
  unfold State.arrayAt at passes
  unfold withArray
  by_cases empty : len = 0
  · rw [if_pos empty] at passes ⊢
    cases passes
    rfl
  rw [if_neg empty] at passes ⊢
  rcases set : s.cachedSet s.thr.core s.task with _ | ts
  · rw [set] at passes
    cases passes
  rw [set] at passes
  dsimp only at passes ⊢
  obtain ⟨⟨aligned, grants, low, high⟩, passes⟩ := Option.ite_none_right_eq_some.1 passes
  rw [if_neg (not_not.2 aligned), if_neg (by rw [grants]; decide), if_neg (Int.not_lt.2 low), if_neg (Int.not_lt.2 high)]
  rcases first : s.clusterWindow s.me ((bits (ts.seg (bits a.toNat 61 3)).1.toNat 0 56 : Int) +
    ((bits a.toNat 0 61 : Int) + min 0 (((len : Int) - 1) * step))) z with _ | w
  · rw [first] at passes
    cases passes
  rw [first] at passes
  obtain ⟨⟨last, live⟩, address⟩ := Option.ite_none_right_eq_some.1 passes
  cases address
  dsimp only
  rw [if_neg (not_not.2 last), if_neg (by rw [live]; decide)]

/-- A field that can be captured is (R222). -/
theorem withCapture_ready {o : Opnd} {r : Role} {s : State} {k : Word → State → Eff} (ready : o.captureReady r s = true) :
    withCapture o r s k = k (o.captured r s) (o.afterCapture r s) := by
  cases o with
  | reg q sync n v =>
    simp only [Opnd.captureReady, Bool.or_eq_true, Bool.and_eq_true, beq_iff_eq, Bool.not_eq_true'] at ready
    simp only [withCapture, Opnd.captured, Opnd.afterCapture, Opnd.isVal, Bool.and_eq_true, beq_iff_eq, Bool.not_eq_true',
      decide_eq_true_eq]
    by_cases result : r = .none ∧ v = false
    · rw [if_pos result, if_pos result, if_pos result]
    · rw [if_neg result, if_neg result, if_neg result, withSrc_ready (ready.resolve_left result)]
  | _ => rfl

theorem FeOnly.afterCapture (o : Opnd) (r : Role) (s : State) : FeOnly s (o.afterCapture r s) := by
  cases o with
  | reg q sync n v =>
    rw [Opnd.afterCapture]
    split
    · exact ⟨s.thr.ctx.fe, rfl⟩
    · exact .after _ s
  | _ => exact ⟨s.thr.ctx.fe, rfl⟩

/-- What a field captures goes on where its array, if it is one, passes its checks (R222, R225). -/
theorem withField_fieldOf {op : VOp} {t : Ty} {x : Args} {o : Opnd} {r : Role} {f : Nat} {s : State} {v : Word} {w : Word × FFlags}
    {k : Word → FFlags → Eff} (holds : s.fieldOf op t x o r f v = some w) : withField op t x o r f s v k = k w.1 w.2 := by
  unfold State.fieldOf at holds
  unfold withField
  by_cases array : isArr o r = true
  · rw [if_pos array] at holds ⊢
    simp only [Bool.or_eq_true, beq_iff_eq] at holds
    obtain ⟨n, passes, rfl⟩ := Option.map_eq_some_iff.1 holds
    exact withArray_arrayAt passes
  · rw [if_neg array] at holds ⊢
    cases holds
    rfl

theorem withStreamRoom_room {s : State} {k : Eff} (room : s.streamRoom = true) : withStreamRoom s k = k :=
  if_pos (of_decide_eq_true room)

theorem FeOnly.streamRoom {s t : State} (a : FeOnly s t) : t.streamRoom = s.streamRoom := by
  rw [State.streamRoom, State.streamRoom, a.thr_core, a.core_eq, a.aheadOf]

theorem FeOnly.slen {s t : State} (a : FeOnly s t) : t.thr.ctx.slen = s.thr.ctx.slen := by
  obtain ⟨fe, rfl⟩ := a
  rfl

theorem FeOnly.sstr {s t : State} (a : FeOnly s t) : t.thr.ctx.sstr = s.thr.ctx.sstr := by
  obtain ⟨fe, rfl⟩ := a
  rfl

theorem FeOnly.task {s t : State} (a : FeOnly s t) : t.task = s.task := by
  obtain ⟨fe, rfl⟩ := a
  rfl

/-! ### Joining the queue -/

/-- The command counts for its thread and for the thread's open join record, which is all that changes (R104, R185). -/
theorem State.joinTag_only (s : State) : ∃ tag cores,
    s.joinTag = (tag, { s.mapRes (fun r => { r with cmds := r.cmds + 1 }) with cores := cores }) ∧
      ∀ n, (s.joinTag.2.core n).streamQ = (s.core n).streamQ := by
  unfold State.joinTag
  dsimp only
  split
  · refine ⟨_, _, rfl, fun n => ?_⟩
    exact (State.setCore_coreField (p := CoreSt.streamQ) (by intro; rfl) _ n _).trans rfl
  · exact ⟨none, s.cores, rfl, fun _ => rfl⟩

/-- A command counts for its thread and joins the queue of its core (R104, R222). -/
def State.pushStream (q : StreamCmd) (s : State) : State := s.joinTag.2.enqueueStream q

theorem State.pushStream_thr (q : StreamCmd) (s : State) :
    (s.pushStream q).thr = { s.thr with res := { s.thr.res with cmds := s.thr.res.cmds + 1 } } := by
  obtain ⟨tag, cores, counted, -⟩ := s.joinTag_only
  rw [State.pushStream, counted]
  rfl

theorem State.pushStream_kept (q : StreamCmd) (s : State) : MemKept s (s.pushStream q) := by
  obtain ⟨tag, cores, counted, -⟩ := s.joinTag_only
  rw [State.pushStream, counted]
  exact .refl s

theorem State.pushStream_streamQ (q : StreamCmd) (s : State) :
    ((s.pushStream q).core s.thr.core).streamQ = (s.core s.thr.core).streamQ ++ [q] := by
  obtain ⟨tag, cores, counted, queue⟩ := s.joinTag_only
  have here : s.joinTag.2.thr.core = s.thr.core := by
    rw [counted]
    rfl
  show ((s.joinTag.2.setCore s.joinTag.2.thr.core fun c => { c with streamQ := c.streamQ ++ [q] }).core s.thr.core).streamQ = _
  rw [here, State.core_setCore, ← queue]

/-- Of what a thread resumes with, the end of an instruction changes its outstanding results and what was fetched or looked up for it. -/
theorem State.retire_resField {β : Type} {f : Resume → β}
    (free : ∀ r fixed fetched asOf walk, f { r with fixed := fixed, fetched := fetched, asOf := asOf, walk := walk } = f r)
    (h : Head) (s : State) : f (s.retire h false).thr.res = f s.thr.res := by
  have yields (t : State) : f t.yieldThr.thr.res = f t.thr.res := by
    unfold State.yieldThr
    dsimp only
    split <;> exact free t.thr.res _ _ t.thr.res.asOf t.thr.res.walk
  have aged (n : Nat) : f { (s.thr.age n).res with asOf := none, walk := none } = f s.thr.res := free s.thr.res _ s.thr.res.fetched _ _
  unfold State.retire
  dsimp only
  split
  · exact (yields _).trans (aged _)
  · exact aged _

section
variable {s s3 : State} (fe : FeOnly s s3) (q : StreamCmd) (h : Head) (s0 : State)
include fe

/-- A part of what the thread resumes with, after a word whose command joins the queue; `f` and `g` say what the thread is owed. -/
theorem finish_pushStream_res {β : Type} {p : Resume → β}
    (free : ∀ r fixed fetched asOf walk, p { r with fixed := fixed, fetched := fetched, asOf := asOf, walk := walk } = p r)
    (f : Ctx → Ctx) (g : Resume → Resume) :
    p (Eff.finish h s0 (.done (((s3.pushStream q).mapCtx f).mapRes g))).thr.res = p (g { s.thr.res with cmds := s.thr.res.cmds + 1 }) := by
  refine (State.retire_resField free h _).trans ?_
  show p (((s3.pushStream q).mapCtx f).mapRes g).thr.res = _
  rw [State.mapRes_thr, State.mapCtx_thr, State.pushStream_thr, fe.res]

/-- The command `q` stands at the tail of the queue of the thread's core and counts for the thread; the thread is past its word. -/
theorem finish_pushStream {f : Ctx → Ctx} {g : Resume → Resume} (pc : ∀ c, (f c).pc = c.pc) (fixed : ∀ r, (g r).fixed = r.fixed)
    (cmds : ∀ r, (g r).cmds = r.cmds) :
    let u := Eff.finish h s0 (.done (((s3.pushStream q).mapCtx f).mapRes g))
    (u.core s.thr.core).streamQ = (s.core s.thr.core).streamQ ++ [q] ∧ u.thr.res.cmds = s.thr.res.cmds + 1 ∧
      Advanced s u (f s3.thr.ctx) := by
  have thr : (((s3.pushStream q).mapCtx f).mapRes g).thr =
      { s3.thr with ctx := f s3.thr.ctx, res := g { s3.thr.res with cmds := s3.thr.res.cmds + 1 } } := by
    rw [State.mapRes_thr, State.mapCtx_thr, State.pushStream_thr]
  refine ⟨?_, ?_, finish_done_advanced (fe.ctxOnly.same.trans ?_) (fe.ctxOnly.kept.trans (State.pushStream_kept q s3)) ?_ ?_⟩
  · rw [finish_done_coreField (f := CoreSt.streamQ) fun _ _ => rfl, ← fe.thr_core, ← fe.core_eq]
    exact State.pushStream_streamQ q s3
  · exact (finish_pushStream_res fe q h s0 (p := Resume.cmds) (fun _ _ _ _ _ => rfl) f g).trans (cmds _)
  · rw [SameThread, thr]
    exact ⟨rfl, rfl, rfl⟩
  · rw [State.pc, thr]
    exact (pc _).trans fe.pc
  · rw [thr, Thread.final, fixed, fe.res]

end

/-! ### The stream instructions (R222, R223, R224) -/

/-- The meaning of a stream instruction is that of its operation. -/
theorem exec_of_vopOf {i : Instr} {op : VOp} {t : Ty} {x : Args} (is : vopOf i = some (op, t, x)) (s : State) :
    exec i s = streamOp op i t x s := by
  cases i <;> cases is <;> rfl

/-- The command of a stream instruction whose fields are captured: it has begun nothing (R222). -/
def State.streamCmd (op : VOp) (i : Instr) (a b c : Word × FFlags) (s : State) : StreamCmd :=
  { core := s.thr.core, cxa := s.thr.ctx.cxa, ins := i, a := a.1, b := b.1, c := c.1, slen := s.thr.ctx.slen
    sstr := s.thr.ctx.sstr, task := s.task, lvlH := s.levelH, join := s.joinTag.1, flags := b.2 ||| c.2
    lanes := List.replicate 64 none, acc := if op = .scan then c.1 else 0#64 }

/-- A scalar result is owed to a register (R222). -/
def VOp.oweCtx (op : VOp) (o : Opnd) (c : Ctx) : Ctx := if op.scalar then c.owing o.rix else c

/-- The result of `vcmp` is owed to a predicate; of p0 only its flags (R222, R226). -/
def VOp.oweRes (op : VOp) (o : Opnd) (r : Resume) : Resume :=
  if op = .cmp then
    if o.pix = 0#3 then { r with owedZero := r.owedZero + 1 } else { r with owedPred := r.owedPred ||| BitVec.ofNat 8 (2 ^ o.pix.toNat) }
  else r

theorem State.oweStream_eq (op : VOp) (o : Opnd) (s : State) :
    (if op.scalar then s.oweX o.rix else if op = .cmp then s.oweP o.pix else s) = (s.mapCtx (op.oweCtx o)).mapRes (op.oweRes o) := by
  cases op <;> rfl

theorem VOp.oweCtx_pc (op : VOp) (o : Opnd) (c : Ctx) : (op.oweCtx o c).pc = c.pc := by
  unfold VOp.oweCtx
  split <;> rfl

theorem VOp.oweRes_fixed (op : VOp) (o : Opnd) (r : Resume) : (op.oweRes o r).fixed = r.fixed := by
  unfold VOp.oweRes
  split
  · split <;> rfl
  · rfl

theorem VOp.oweRes_cmds (op : VOp) (o : Opnd) (r : Resume) : (op.oweRes o r).cmds = r.cmds := by
  unfold VOp.oweRes
  split
  · split <;> rfl
  · rfl

/-- A stream instruction whose fields are captured and whose arrays pass queues its command (R222, R225). -/
theorem streamOp_queues {op : VOp} {i : Instr} {t : Ty} {x : Args} {s s1 s2 s3 : State} {ra rb rc : Role} {a b c : Word × FFlags}
    (e : s.enabled x.h = true) (roles : op.roles = (ra, rb, rc)) (readyA : x.a.captureReady ra s = true) (is1 : s1 = x.a.afterCapture ra s)
    (readyB : x.b.captureReady rb s1 = true) (is2 : s2 = x.b.afterCapture rb s1)
    (readyC : x.c.captureReady rc s2 = true) (is3 : s3 = x.c.afterCapture rc s2)
    (free : (op.scalar = true ∨ op = .cmp) → x.a.free s3 = true) (stores : s3.noStores = true) (room : s3.streamRoom = true)
    (fieldA : s3.fieldOf op t x x.a ra 0 (x.a.captured ra s) = some a)
    (fieldB : s3.fieldOf op t x x.b rb 1 (x.b.captured rb s1) = some b)
    (fieldC : s3.fieldOf op t x x.c rc 2 (x.c.captured rc s2) = some c) :
    streamOp op i t x s = .next (Eff.finish x.h s
      (.done (((s3.pushStream (s3.streamCmd op i a b c)).mapCtx (op.oweCtx x.a)).mapRes (op.oweRes x.a)))) := by
  have dest (k : Eff) : (if (op.scalar || op == .cmp) = true then withDest x.a s3 else fun k => k) k = k := by
    split
    · next result => exact withDest_free (free (by simpa using result))
    · rfl
  subst is1 is2
  rw [streamOp, issue_enabled e, roles]
  dsimp only
  rw [withCapture_ready readyA, withCapture_ready readyB, withCapture_ready readyC, ← is3, dest, withStores_none stores,
    withField_fieldOf fieldA, withField_fieldOf fieldB, withField_fieldOf fieldC, withStreamRoom_room room]
  obtain ⟨tag, cores, counted, -⟩ := s3.joinTag_only
  rw [State.pushStream, State.streamCmd, counted]
  exact congrArg (fun t => Host.Outcome.next (Eff.finish x.h s (.done t))) (State.oweStream_eq op x.a _)

theorem getLsbD_or_two_pow (w : BitVec 8) (p : BitVec 3) : (w ||| BitVec.ofNat 8 (2 ^ p.toNat)).getLsbD p.toNat = true := by
  rw [BitVec.getLsbD_or, BitVec.getLsbD_ofNat, Nat.testBit_two_pow_self, decide_eq_true p.isLt, Bool.true_and, Bool.or_true]

/-- Settles O33: the command of a stream instruction stands at the tail of its core's queue, and its thread is past the word. -/
theorem streamCommandsAreQueued : Obligations.StreamCommandsAreQueued := by
  unfold Obligations.StreamCommandsAreQueued
  intro t x s e p mem ra rb rc s1 s2 s3 readyA readyB readyC free stores room a b c fieldA fieldB fieldC
  have fe : FeOnly s s3 := ((FeOnly.afterCapture x.a ra s).trans (.afterCapture x.b rb s1)).trans (.afterCapture x.c rc s2)
  have is : vopOf p.1 = some (p.2, t, x) := by
    fin_cases mem <;> rfl
  have runs := (exec_of_vopOf is s).trans (streamOp_queues (i := p.1) e rfl readyA rfl readyB rfl readyC rfl free stores
    (fe.streamRoom.trans room) fieldA fieldB fieldC)
  obtain ⟨tail, cmds, advanced⟩ := finish_pushStream fe (s3.streamCmd p.2 p.1 a b c) x.h s (p.2.oweCtx_pc x.a) (p.2.oweRes_fixed x.a)
    (p.2.oweRes_cmds x.a)
  refine ⟨_, _, runs, tail, rfl, fe.thr_core, fe.cxa, rfl, rfl, rfl, fe.slen, fe.sstr, fe.task, rfl, rfl, cmds, fun scalar => ?_,
    fun none => ?_, fun cmp named => ?_, fun cmp zero => ?_⟩
  · rw [VOp.oweCtx, if_pos scalar] at advanced
    exact advanced
  · rw [VOp.oweCtx, if_neg (by rw [none]; decide)] at advanced
    exact advanced
  · have owed := finish_pushStream_res fe (s3.streamCmd p.2 p.1 a b c) x.h s (p := Resume.owedPred) (fun _ _ _ _ _ => rfl)
      (p.2.oweCtx x.a) (p.2.oweRes x.a)
    rw [VOp.oweRes, if_pos cmp, if_neg named] at owed
    exact (congrArg (BitVec.getLsbD · x.a.pix.toNat) owed).trans (getLsbD_or_two_pow _ _)
  · have owed := finish_pushStream_res fe (s3.streamCmd p.2 p.1 a b c) x.h s (p := Resume.owedZero) (fun _ _ _ _ _ => rfl)
      (p.2.oweCtx x.a) (p.2.oweRes x.a)
    rw [VOp.oweRes, if_pos cmp, if_pos zero] at owed
    exact owed

/-! ### The bulk grain commands (R252) -/

/-- The meaning of a bulk grain instruction is that of its operation. -/
theorem exec_of_gopOf {i : Instr} {op : GOp} {t : Ty} {x : Args} (is : gopOf i = some (op, t, x)) (s : State) :
    exec i s = grainOp op i t x s := by
  cases i <;> cases is <;> rfl

/-- The command of a bulk grain instruction with the storage addresses of its arrays: it has begun nothing (R222, R252). -/
def State.grainCmd (i : Instr) (a b : Nat) (c : Word) (s : State) : StreamCmd :=
  { core := s.thr.core, cxa := s.thr.ctx.cxa, ins := i, a := BitVec.ofNat 64 a, b := BitVec.ofNat 64 b, c := c
    slen := s.thr.ctx.slen, sstr := 0#64, task := s.task, lvlH := s.levelH, join := s.joinTag.1 }

section
variable {op : GOp} {i : Instr} {t : Ty} {x : Args} {s : State}

/-- A bulk command that writes an array reads A and B, and C as the exponent of `grq` (R252, R260). -/
theorem grainOp_array {s1 s2 s3 : State} {a b : Nat} (e : s.enabled x.h = true) (array : (op == .amx || op == .chk) = false)
    (is1 : s1 = x.a.after s) (is2 : s2 = x.b.after s1) (is3 : s3 = if op = .rq then x.c.after s2 else s2)
    (readyA : x.a.ready s = true) (readyB : x.b.ready s1 = true)
    (exponent : op = .rq → x.c.ready s2 = true ∧ (x.c.val s).toNat ≠ 0 ∧ (x.c.val s).toNat ≤ 254)
    (stores : s3.noStores = true) (room : s3.streamRoom = true)
    (arrayA : let sh := (op.shape t x (slenN s3.thr.ctx.slen)).1
      s3.arrayAt Role.wr.need (x.a.val s) sh.1 sh.2 sh.1 = some a)
    (arrayB : let sh := (op.shape t x (slenN s3.thr.ctx.slen)).2
      s3.arrayAt Role.rd.need (x.b.val s) sh.1 sh.2 sh.1 = some b) :
    grainOp op i t x s = .next (Eff.finish x.h s
      (.done (s3.pushStream (s3.grainCmd i a b (if op = .rq then x.c.val s else 0#64))))) := by
  have third (k : Word → State → Eff) :
      (if op = .rq then withSrc x.c s2 else fun (k : Word → State → Eff) => k 0#64 s2) k =
        k (if op = .rq then x.c.val s else 0#64) s3 := by
    rw [is3]
    split
    · next rq => rw [withSrc_ready (exponent rq).1, is2, is1, Opnd_val_after, Opnd_val_after]
    · rfl
  have inRange : ¬(op = .rq && ((if op = .rq then x.c.val s else 0#64).toNat == 0 ||
      decide (254 < (if op = .rq then x.c.val s else 0#64).toNat))) = true := by
    by_cases rq : op = .rq
    · obtain ⟨-, positive, small⟩ := exponent rq
      simp [rq, positive, Nat.not_lt.2 small]
    · simp [rq]
  subst is1 is2
  rw [grainOp, issue_enabled e]
  simp only [array, Bool.false_eq_true, if_false]
  rw [withSrc_ready readyA, withSrc_ready readyB, third, withStores_none stores, if_neg inRange, Opnd_val_after,
    withArray_arrayAt arrayA, withArray_arrayAt arrayB, withStreamRoom_room room]
  obtain ⟨tag, cores, counted, -⟩ := s3.joinTag_only
  rw [State.pushStream, State.grainCmd, counted]
  rfl

/-- A bulk command that gives a register reads B (R261, R264). -/
theorem grainOp_scalar {s1 : State} {b : Nat} (e : s.enabled x.h = true) (scalar : (op == .amx || op == .chk) = true)
    (is1 : s1 = x.b.after s) (ready : x.b.ready s = true) (free : x.a.free s1 = true)
    (stores : s1.noStores = true) (room : s1.streamRoom = true)
    (arrayB : let sh := (op.shape t x (slenN s1.thr.ctx.slen)).2
      s1.arrayAt Role.rd.need (x.b.val s) sh.1 sh.2 sh.1 = some b) :
    grainOp op i t x s = .next (Eff.finish x.h s (.done ((s1.pushStream (s1.grainCmd i 0 b 0#64)).oweX x.a.rix))) := by
  have noExponent : op ≠ .rq := by
    rintro rfl
    cases scalar
  subst is1
  rw [grainOp, issue_enabled e]
  simp only [scalar, if_true, if_neg noExponent]
  rw [withSrc_ready ready, withDest_free free, withStores_none stores, if_neg (by simp [noExponent]),
    withArray_arrayAt (n := 0) (if_pos rfl), withArray_arrayAt arrayB, withStreamRoom_room room]
  obtain ⟨tag, cores, counted, -⟩ := (x.b.after s).joinTag_only
  rw [State.pushStream, State.grainCmd, counted]
  rfl

end

/-- Settles O34: the command of a bulk grain instruction stands at the tail of its core's queue, and its thread is past the word. -/
theorem grainCommandsAreQueued : Obligations.GrainCommandsAreQueued := by
  unfold Obligations.GrainCommandsAreQueued
  intro t x s e
  refine ⟨?_, ?_⟩
  · intro p mem s1 s2 s3 sh readyA readyB exponent stores room a b arrayA arrayB
    have fe : FeOnly s s3 := by
      have two : FeOnly s s2 := (FeOnly.after x.a s).trans (.after x.b s1)
      show FeOnly s (if p.2.1 = .rq then x.c.after s2 else s2)
      split
      · exact two.trans (.after x.c s2)
      · exact two
    obtain ⟨is, array⟩ : gopOf p.1 = some (p.2.1, p.2.2, x) ∧ (p.2.1 == .amx || p.2.1 == .chk) = false := by
      fin_cases mem <;> exact ⟨rfl, rfl⟩
    have runs := (exec_of_gopOf is s).trans (grainOp_array (i := p.1) e array rfl rfl rfl readyA readyB exponent stores
      (fe.streamRoom.trans room) (by rw [fe.slen]; exact arrayA) (by rw [fe.slen]; exact arrayB))
    obtain ⟨tail, cmds, advanced⟩ := finish_pushStream fe (s3.grainCmd p.1 a b (if p.2.1 = .rq then x.c.val s else 0#64)) x.h s
      (f := id) (g := id) (fun _ => rfl) (fun _ => rfl) (fun _ => rfl)
    exact ⟨_, _, runs, tail, rfl, rfl, rfl, fe.slen, rfl, cmds, advanced⟩
  · intro p mem s1 sh ready free stores room b arrayB
    have fe : FeOnly s s1 := .after x.b s
    obtain ⟨is, scalar⟩ : gopOf p.1 = some (p.2.1, p.2.2, x) ∧ (p.2.1 == .amx || p.2.1 == .chk) = true := by
      fin_cases mem <;> exact ⟨rfl, rfl⟩
    have runs := (exec_of_gopOf is s).trans (grainOp_scalar (i := p.1) e scalar rfl ready free stores
      (fe.streamRoom.trans room) (by rw [fe.slen]; exact arrayB))
    obtain ⟨tail, cmds, advanced⟩ := finish_pushStream fe (s1.grainCmd p.1 0 b 0#64) x.h s
      (f := Ctx.owing x.a.rix) (g := id) (fun _ => rfl) (fun _ => rfl) (fun _ => rfl)
    exact ⟨_, _, runs, tail, rfl, rfl, fe.slen, rfl, cmds, advanced⟩

end Sys2Proof.Machine
end

section
/-! ### What the host writes and reads (O45)

While die 0 lives the host port answers (`hostStep_live`). What arrives is performed at once where nothing waits before it
(`State.hostTake_alone`), and no event but a BAR2 write or a message touches memory: `PortKept` is what the way out of the port leaves. -/

namespace Sys2Proof.Machine

section
variable (off size tag status : Nat) (val : Word) (bs : List Byte) (ro : Bool) (s : State)

theorem exec_doorbellWrite : exec (.doorbellWrite off size val) s = execDoorbellWrite off size val s := rfl

theorem exec_bar2Write : exec (.bar2Write off bs ro) s = execBar2Write off bs ro s := rfl

theorem exec_bar2Read : exec (.bar2Read off size tag) s = execBar2Read off size tag s := rfl

theorem exec_mbell : exec (.mbell val) s = execMbell val s := rfl

theorem exec_hostRegisterWrite : exec (.hostRegisterWrite off size val) s = execHostRegisterWrite off size val s := rfl

theorem exec_pcieCompletion : exec (.pcieCompletion tag status val) s = execPcieCompletion tag status val s := rfl

end

/-- The port responds while die 0 is not fatal (R418). -/
theorem hostStep_live {s : State} (live : s.dieFatal 0 = false) (u : State) : hostStep s u = .next u := by
  rw [hostStep, live]
  rfl

/-! ### Arrival order (R179, R380) -/

theorem State.hostTake_alone {o : HostIn} {s : State} (empty : s.hostIn = []) (ready : s.hostWaits o = false) :
    s.hostTake o = { s.hostDo o with hostIn := [] } := by
  simp [State.hostTake, State.hostDrain, empty, ready]

/-- What may not pass an access that waits for its channel stands behind it. -/
theorem State.hostTake_behind {o w : HostIn} {s : State} (first : s.hostIn = [w]) (waits : s.hostWaits w = true)
    (ordered : o.relaxed = false) : s.hostTake o = { s with hostIn := [w, o] } := by
  simp [State.hostTake, State.hostDrain, first, waits, ordered]

/-! ### What leaves the host port (R381) -/

/-- The thread in the issue stage, memory, the doorbells and the registers of BAR4 stand as before. -/
def PortKept (s u : State) : Prop :=
  u.thr = s.thr ∧ u.mem = s.mem ∧ u.bells = s.bells ∧ u.msix = s.msix ∧ u.fmask = s.fmask

theorem PortKept.refl (s : State) : PortKept s s := ⟨rfl, rfl, rfl, rfl, rfl⟩

theorem PortKept.trans {s t u : State} (a : PortKept s t) (b : PortKept t u) : PortKept s u := by
  obtain ⟨thr, mem, bells, msix, fmask⟩ := a
  obtain ⟨thr', mem', bells', msix', fmask'⟩ := b
  exact ⟨thr'.trans thr, mem'.trans mem, bells'.trans bells, msix'.trans msix, fmask'.trans fmask⟩

theorem State.emit_kept (t : HostTx) (s : State) : PortKept s (s.emit t) := by
  rw [State.emit_only]
  exact .refl s

theorem State.msixSend_kept (v : Nat) (s : State) : PortKept s (s.msixSend v) := State.emit_kept _ { s with pba := _ }

theorem State.msixFlush_kept (s : State) : PortKept s s.msixFlush :=
  List.foldlRecOn (motive := PortKept s) _ _ (.refl s) fun t kept v _ => kept.trans (t.msixSend_kept v)

theorem State.msixEntry_msixFlush (v : Nat) (s : State) : s.msixFlush.msixEntry v = s.msixEntry v := by
  obtain ⟨-, -, -, msix, -⟩ := s.msixFlush_kept
  rw [State.msixEntry, State.msixEntry, msix]

theorem State.msixEntry_put (v : Nat) (e : Word × Word) (s : State) : ({ s with msix := put v e s.msix } : State).msixEntry v = e := by
  rw [State.msixEntry, look_put_same, Option.getD_some]

theorem State.msixDo_kept (v : Nat) (s : State) : PortKept s (s.msixDo v) := by
  unfold State.msixDo
  split
  · exact .refl s
  · exact s.msixSend_kept v

theorem State.msixRaise_kept (core v : Nat) (s : State) : PortKept s (s.msixRaise core v) := by
  unfold State.msixRaise
  split
  · exact .refl s
  · exact s.msixDo_kept v

/-! ### Doorbells (R379) -/

theorem State.failQ_kept (die : Nat) (q : QSlot) (err : Nat) (addr : Word) (s : State) : PortKept s (s.failQ die q err addr) :=
  (State.msixRaise_kept _ _ ((s.putQ die _).stokerSays die _ 1 _))

theorem State.ringQueue_kept (die : Nat) (q : QSlot) (s : State) : PortKept s (s.ringQueue die q) := by
  have fails (t : State) (kept : PortKept s t) : PortKept s (if s.badTail q then s.failQ die q 2 0#64 else t) := by
    split
    · exact State.failQ_kept die q 2 0#64 s
    · exact kept
  unfold State.ringQueue
  split
  · exact fails (s.putQ die _) (.refl s)
  · exact fails s (.refl s)
  · exact fails s (.refl s)
  · exact .refl s

/-- The doorbell of a queue is rung: its TAIL stands in the array. -/
def State.setTail (qid : Nat) (val : Word) (s : State) : State := { s with bells := put qid val s.bells }

theorem State.setTail_tail (qid : Nat) (val : Word) (s : State) :
    (s.setTail qid val).tail qid = val.toNat ∧ ∀ n, n ≠ qid → (s.setTail qid val).tail n = s.tail n := by
  refine ⟨?_, fun n other => ?_⟩
  · rw [State.tail, State.setTail, look_put_same, Option.getD_some]
  · rw [State.tail, State.setTail, look_put_other _ _ _ _ other, State.tail]

section
variable {off : Nat} {val : Word} {s : State}

theorem State.ringBell_ignored {size : Nat} (other : size ≠ 8 ∨ off % 4096 ≠ 0) : s.ringBell off size val = s := by
  rw [State.ringBell, if_pos (by omega)]

variable (page : off % 4096 = 0) (low : off < 2 ^ 24)
include page low

theorem State.ringBell_kept : PortKept (s.setTail (off / 4096) val) (s.ringBell off 8 val) := by
  rw [State.ringBell, if_neg (by omega)]
  dsimp only
  split
  · exact State.ringQueue_kept _ _ (s.setTail (off / 4096) val)
  · exact .refl _

/-- An idle queue of die 0 whose new TAIL lies in its ring above HEAD runs (R378, R379). -/
theorem State.ringBell_idle {q : QSlot} (mapped : (s.die 0).slots.find? (fun q => q.qid == off / 4096) = some q) (idle : q.st = .idle)
    (above : q.head ≤ val.toNat) (inRing : val.toNat ≤ q.head + q.size) :
    s.ringBell off 8 val = (s.setTail (off / 4096) val).putQ 0 { q with st := if q.head < val.toNat then .run else .idle } := by
  have qid : q.qid = off / 4096 := by simpa using List.find?_some mapped
  have tail : (s.setTail (off / 4096) val).tail q.qid = val.toNat := by
    rw [qid]
    exact (State.setTail_tail _ _ _).1
  have first : [0, 1, 2, 3].findSome? (fun d => (((s.setTail (off / 4096) val).die d).slots.find? fun q => q.qid == off / 4096).map
      fun q => (d, q)) = some (0, q) := by
    rw [List.findSome?_cons, show (s.setTail (off / 4096) val).die 0 = s.die 0 from rfl, mapped]
    rfl
  have fits : (s.setTail (off / 4096) val).badTail q = false := by
    simp [State.badTail, tail, above, inRing]
  rw [State.ringBell, if_neg (by omega)]
  dsimp only
  rw [show ({ s with bells := put (off / 4096) val s.bells } : State) = s.setTail (off / 4096) val from rfl, first]
  simp only [State.ringQueue, idle, State.tune, fits, tail]
  rfl

end

theorem exec_doorbellWrite_rings {off size : Nat} {val : Word} {s : State} (live : s.dieFatal 0 = false) (empty : s.hostIn = []) :
    exec (.doorbellWrite off size val) s = .next { s.ringBell off size val with hostIn := [] } := by
  rw [exec_doorbellWrite, execDoorbellWrite, hostStep_live live, State.hostTake_alone empty rfl]
  rfl

/-- A slot that is there is found as it was put. -/
theorem State.qslot_putQ {die : Nat} {q r : QSlot} {s : State} (there : r ∈ (s.die die).slots) (same : r.slot = q.slot) :
    (s.putQ die q).qslot die q.slot = some q := by
  have found : ((s.die die).slots.find? fun r => r.slot == q.slot).isSome := List.find?_isSome.2 ⟨r, there, by simpa using same⟩
  obtain ⟨old, found⟩ := Option.isSome_iff_exists.1 found
  rw [State.qslot, State.putQ, State.die_setDie]
  exact (find?_mapFirst_self (p := fun r : QSlot => r.slot == q.slot) (fun _ _ => beq_self_eq_true q.slot) _).trans (by rw [found]; rfl)

/-! ### BAR2 (R179, R381) -/

/-- Bytes that are written read as written, and nothing outside them changes (R3). -/
theorem State.writeMem_writes {n : Nat} (a : Nat) {bs : List Byte} {s : State} (inv : s.Inv) (length : bs.length = n) :
    (s.writeMem a bs).readMem a n = bs ∧ OutsideKept s (s.writeMem a bs) a n := by
  subst length
  exact ⟨Memory.read_write bs a inv, State.writeMem_outside inv⟩

section
variable {off a home : Nat} {s : State} (live : s.dieFatal 0 = false) (empty : s.hostIn = []) (ready : s.chanWaits a = false)
  (alive : s.homeDead home = false)
include live empty ready alive

/-- A write to a live home whose channel is ready is performed; where nothing watches the words, it wakes nothing (R387). -/
theorem exec_bar2Write_performs {bs : List Byte} {ro : Bool} (place : s.bar2Place off bs.length = some (a, home))
    (sound : s.chanFailed a = false) (still : s.quiet = true) :
    exec (.bar2Write off bs ro) s = .next { s.writeMem a bs with hostIn := [] } := by
  have performs : s.hostDo (.write a home off bs ro) = s.writeMem a bs := by
    rw [State.hostDo, alive, sound, Bool.or_false, if_neg Bool.false_ne_true, State.homeWrite_unwatched (State.quiet_unwatched still _ _)]
  rw [exec_bar2Write, execBar2Write, hostStep_live live, place, ← performs]
  exact congrArg Host.Outcome.next (State.hostTake_alone (o := .write a home off bs ro) empty ready)

/-- A read of sound bytes is answered with them. -/
theorem exec_bar2Read_answers {size tag : Nat} (place : s.bar2Place off size = some (a, home)) (free : s.hostHold = none)
    (sound : s.poisoned a size = false) :
    exec (.bar2Read off size tag) s = .next { s with hostTx := s.hostTx ++ [.complete tag (s.readMem a size)] } := by
  have performs : s.hostDo (.read a home off size tag) =
      { s with hostTx := s.hostTx ++ [.complete tag (s.readMem a size)], hostHold := none } := by
    rw [State.hostDo, alive, sound, Bool.or_false, if_neg Bool.false_ne_true, State.emit, free]
    rfl
  rw [exec_bar2Read, execBar2Read, hostStep_live live, place]
  refine congrArg Host.Outcome.next ((State.hostTake_alone (o := .read a home off size tag) empty ready).trans ?_)
  rw [performs, ← free, ← empty]

end

/-! ### MBELL (R381) -/

theorem Msg.toBytes_length (m : Msg) : m.toBytes.length = 32 := by
  simp [Msg.toBytes]

/-- A message that is put into a ring with no notice thread stands there, and nothing else changes (R89). -/
theorem State.putMsg_entered {n ch : Nat} (m : Msg) {s : State} (inv : s.Inv) (quiet : (s.core n).notice.getD ch none = none)
    (known : ch < (s.core n).inbox.length) : (s.putMsg n ch m).thr = s.thr ∧ Entered s (s.putMsg n ch m) n ch m := by
  rw [State.putMsg_quiet quiet]
  obtain ⟨read, outside⟩ := State.writeMem_writes _ inv (Msg.toBytes_length m)
  refine ⟨rfl, read, outside, ?_⟩
  rw [State.core_setCore, CoreSt.ibCount]
  exact congrArg Prod.snd (getD_set_self known)

/-- The code of KSTAT, with KIND 0, is bits 47:40 of MBOX word 0. -/
theorem kstat_of_mbox (w : Word) : w.extractLsb' 32 16 &&& 0xFF00#16 = BitVec.ofNat 16 (w.toNat / 2 ^ 40 % 256 * 256) := by
  have mask : ∀ i < 16, (0xFF00#16).getLsbD i = decide (8 ≤ i) := by decide
  refine BitVec.eq_of_getLsbD_eq fun i low => ?_
  rw [BitVec.getLsbD_and, mask i low, BitVec.getLsbD_extractLsb', BitVec.getLsbD_ofNat, show 256 = 2 ^ 8 from rfl, Nat.testBit_mul_two_pow,
    Nat.testBit_mod_two_pow, Nat.testBit_div_two_pow, decide_eq_true low, Bool.true_and, Bool.true_and]
  by_cases high : 8 ≤ i
  · rw [decide_eq_true high, decide_eq_true (by omega : i - 8 < 8), show i - 8 + 40 = 32 + i by omega, Bool.and_true]
    rfl
  · rw [decide_eq_false high, Bool.and_false, Bool.false_and]

/-- MBOX goes into channel 6 of core 0 (R381). -/
theorem exec_mbell_puts {val : Word} {s : State} (live : s.dieFatal 0 = false) (room : 0 < s.roomOf 0 6) :
    let w (i : Nat) : Word := s.mboxRegs.getD i 0#64
    exec (.mbell val) s = .next (s.putMsg 0 6
      ⟨(w 0).setWidth 32, BitVec.ofNat 16 ((w 0).toNat / 2 ^ 40 % 256 * 256), 0xFFFF#16, w 1, w 2, w 3⟩) := by
  intro w
  rw [exec_mbell, execMbell, hostStep_live live, if_neg (Nat.ne_of_gt room)]
  dsimp only
  rw [kstat_of_mbox]

/-! ### The registers of BAR4 (R381) -/

section
variable {off size : Nat} {val : Word} {s : State} (live : s.dieFatal 0 = false) (nonempty : 0 < size) (fits : off % 8 + size ≤ 8)
include live nonempty fits

theorem exec_hostRegisterWrite_mbox (low : off < 0x20) : exec (.hostRegisterWrite off size val) s = .next
    { s with mboxRegs := s.mboxRegs.set (off / 8) (spliceWord (s.mboxRegs.getD (off / 8) 0#64) (off % 8) size val) } := by
  rw [exec_hostRegisterWrite, execHostRegisterWrite, hostStep_live live, if_neg (by omega), if_pos low]

theorem exec_hostRegisterWrite_w2base (base : off / 8 * 8 = 0x100) (valid : w2baseOk (spliceWord s.w2base (off % 8) size val) = true) :
    exec (.hostRegisterWrite off size val) s = .next { s with w2base := spliceWord s.w2base (off % 8) size val } := by
  rw [exec_hostRegisterWrite, execHostRegisterWrite, hostStep_live live, if_neg (by omega), if_neg (by omega), if_pos base]
  exact congrArg Host.Outcome.next (if_pos valid)

theorem exec_hostRegisterWrite_msix (low : 0x10000 ≤ off) (high : off < 0x18000) :
    let e := s.msixEntry ((off - 0x10000) / 16)
    exec (.hostRegisterWrite off size val) s = .next (State.msixFlush { s with
      msix := put ((off - 0x10000) / 16) (if off % 16 < 8 then (spliceWord e.1 (off % 8) size val, e.2)
        else (e.1, spliceWord e.2 (off % 8) size val &&& 0x1FFFFFFFF#64)) s.msix }) := by
  rw [exec_hostRegisterWrite, execHostRegisterWrite, hostStep_live live, if_neg (by omega), if_neg (by omega), if_neg (by omega),
    if_pos ⟨low, high⟩]

theorem exec_hostRegisterWrite_fmask (control : off = 0x20000) :
    exec (.hostRegisterWrite off size val) s = .next (State.msixFlush { s with fmask := val.getLsbD 14 }) := by
  rw [exec_hostRegisterWrite, execHostRegisterWrite, hostStep_live live, if_neg (by omega), if_neg (by omega), if_neg (by omega),
    if_neg (by omega), if_pos control]

end

/-! ### Completions from the host (R179, R430) -/

theorem length_dropFirst {α : Type} {p : α → Bool} {l : List α} {a : α} (found : l.find? p = some a) :
    (dropFirst p l).length + 1 = l.length := by
  induction l with
  | nil => cases found
  | cons b l ih =>
    rw [dropFirst]
    split
    · rfl
    · next other => rw [List.length_cons, ih (by rwa [List.find?_cons_of_neg other] at found), List.length_cons]

/-- A population is found as it was changed. -/
theorem State.findPop_updPop {ix : Nat} {f : Pop → Pop} (named : ∀ p, (f p).ix = p.ix) (s : State) :
    (s.updPop ix f).findPop ix = (s.findPop ix).map f :=
  find?_mapFirst_self (fun p is => by rwa [named]) s.pops

section
variable {tag : Nat} {data : Word} {r : HostRead} {s : State} (live : s.dieFatal 0 = false)
  (asked : s.hostReads.find? (fun r => r.tag == tag) = some r)
include live asked

/-- A completion that is not the last adds its 8 bytes. -/
theorem exec_pcieCompletion_more (more : 8 < r.left) : exec (.pcieCompletion tag 0 data) s = .next { s with
    serial := s.serial + 1
    hostReads := mapFirst (fun r => r.tag == tag) (fun _ => { r with got := r.got ++ leBytes 8 data.toNat, left := r.left - 8 })
      s.hostReads } := by
  rw [exec_pcieCompletion, execPcieCompletion, hostStep_live live, asked]
  dsimp only
  rw [if_neg (by omega), if_pos rfl, Nat.min_eq_left (by omega)]

/-- The last completion of a read on behalf of a population closes it. -/
theorem exec_pcieCompletion_last {ix : Nat} (last : r.left ≤ 8) (owner : r.owner = .pop ix) : exec (.pcieCompletion tag 0 data) s = .next
    (({ s with serial := s.serial + 1, hostReads := dropFirst (fun r => r.tag == tag) s.hostReads } : State).closePop ix) := by
  rw [exec_pcieCompletion, execPcieCompletion, hostStep_live live, asked]
  dsimp only
  rw [if_pos (by omega), State.hostAnswer, owner]

end

/-- Settles O45: each event of the host port while die 0 lives, for doorbells, BAR2, MBELL, BAR4 and completions. -/
theorem hostPortEvents : Obligations.HostPortEvents := by
  unfold Obligations.HostPortEvents
  intro s inv live
  refine ⟨?behind, ?rings, ?ignores, ?writes, ?reads, ?mbell, ?registers, ?completes⟩
  case behind =>
    intro off size val o first waits
    rw [exec_doorbellWrite, execDoorbellWrite, hostStep_live live, State.hostTake_behind first waits rfl]
  case rings =>
    intro empty off val page low
    obtain ⟨thr, mem, bells, -⟩ := State.ringBell_kept (s := s) (val := val) page low
    obtain ⟨rung, others⟩ := s.setTail_tail (off / 4096) val
    have tails (n : Nat) : ({ s.ringBell off 8 val with hostIn := [] } : State).tail n = (s.setTail (off / 4096) val).tail n := by
      rw [State.tail, State.tail, bells]
    refine ⟨_, exec_doorbellWrite_rings live empty, thr, mem, (tails _).trans rung, fun n other => (tails n).trans (others n other),
      fun q mapped idle above inRing => ?_⟩
    have found := State.qslot_putQ (s := s.setTail (off / 4096) val) (q := { q with st := if q.head < val.toNat then .run else .idle })
      (List.mem_of_find?_eq_some mapped) rfl
    rw [← State.ringBell_idle page low mapped idle above inRing] at found
    exact congrArg (Option.map (·.st)) found
  case ignores =>
    intro empty off size val other
    rw [exec_doorbellWrite_rings live empty, State.ringBell_ignored other, ← empty]
  case writes =>
    intro off bs ro a home place empty ready sound alive still
    obtain ⟨read, outside⟩ := State.writeMem_writes a inv (rfl : bs.length = _)
    exact ⟨_, exec_bar2Write_performs live empty ready alive place sound still, rfl, read, outside⟩
  case reads =>
    intro off size tag a home place empty ready alive free sound
    exact exec_bar2Read_answers live empty ready alive place free sound
  case mbell =>
    intro val w opened
    simp only [State.ringOpen, Bool.and_eq_true, decide_eq_true_eq, Option.isNone_iff_eq_none] at opened
    obtain ⟨⟨⟨room, known⟩, quiet⟩, -⟩ := opened
    exact ⟨_, exec_mbell_puts live room, State.putMsg_entered _ inv quiet known⟩
  case registers =>
    intro off size val nonempty fits
    refine ⟨fun low known => ?_, fun base valid => exec_hostRegisterWrite_w2base live nonempty fits base valid, fun low high => ?_,
      fun control => ?_⟩
    · refine ⟨_, exec_hostRegisterWrite_mbox live nonempty fits low, rfl, getD_set_self known, fun i other => ?_⟩
      rw [List.getD_eq_getElem?_getD, List.getElem?_set_ne (Ne.symm other), List.getD_eq_getElem?_getD]
    · obtain ⟨thr, mem, -⟩ := State.msixFlush_kept { s with msix := _ }
      exact ⟨_, exec_hostRegisterWrite_msix live nonempty fits low high, thr, mem,
        (State.msixEntry_msixFlush _ _).trans (State.msixEntry_put _ _ s)⟩
    · obtain ⟨thr, mem, -, -, fmask⟩ := State.msixFlush_kept { s with fmask := val.getLsbD 14 }
      exact ⟨_, exec_hostRegisterWrite_fmask live nonempty fits control, thr, mem, fmask⟩
  case completes =>
    intro tag data r asked
    refine ⟨fun more => ⟨_, exec_pcieCompletion_more live asked more, rfl, rfl, ?_⟩, fun ix p last owner known => ?_⟩
    · have named : (r.tag == tag) = true := List.find?_some (p := fun r : HostRead => r.tag == tag) asked
      exact (find?_mapFirst_self (p := fun r : HostRead => r.tag == tag) (by intro _ _; exact named) s.hostReads).trans (by rw [asked]; rfl)
    · refine ⟨_, exec_pcieCompletion_last live asked last owner, rfl, length_dropFirst asked, ?_⟩
      rw [State.closePop, State.findPop_updPop (by intro; rfl)]
      exact congrArg (Option.map _) known

end Sys2Proof.Machine
end

section
/-! ### Two entries of one sender index (O31)

R197 gives a sender entry an index from 0 to 31, and no entry a second one of the same index. The statement asks nothing of the table: in a
state that lists a closed entry before the open one of the same index, what `sput` writes stands in the first. -/

namespace Sys2Proof.Machine

/-- The open stream of index 1 and generation 2. -/
def openSender : SendStream :=
  { idx := 1, gen := 2, opened := true, task := 0#16, cursor := 0x1000#64, last := 0#64, lastHome := 0, full := false }

/-- A closed stream of the same index and the generation before. -/
def closedSender : SendStream := { openSender with gen := 1, opened := false }

/-- The thread that issues holds the tag of the open stream in `x4`; the table of its core lists the closed one first. -/
def twoSenders : State :=
  let s := State.reset.withFetchWord 96 0
  { (s.setCore 0 fun c => { c with send := [closedSender, openSender] }) with
    thr := { s.thr with ctx := s.thr.ctx.writeX 4#4 (openSender.tag.setWidth 64) } }

/-- One word, of `x5`, at the cursor of the stream whose tag `x4` holds. -/
def putArgs : Args := ⟨⟨false, 0#3, 0#4, 0#2, false⟩, .reg 5#4 false false false, .reg 4#4 false false false, .imm 0#21⟩

/-- The `sput` meets every condition of the statement. -/
theorem twoSenders_puts : twoSenders.enabled putArgs.h = true ∧ putArgs.readyBC twoSenders = true ∧
    (∀ i, i < 1 → (putArgs.afterBC twoSenders).regReady (putArgs.a.rix + BitVec.ofNat 4 i) = true) ∧
    (putArgs.b.val twoSenders).toNat < 0x10000 ∧ twoSenders.thr.ctx.stc ≠ 0xFFFF#16 ∧
    (twoSenders.core twoSenders.thr.core).send.find?
      (fun e => e.opened && e.tag.setWidth 64 == putArgs.b.val twoSenders && e.task == twoSenders.task) = some openSender ∧
    (putArgs.afterBC twoSenders).cachedSet twoSenders.thr.core twoSenders.task = some placedSet ∧
    placedSet.gva nStore (openSender.cursor + putArgs.c.val twoSenders) 8 = some 0x1000 ∧
    (putArgs.afterBC twoSenders).reachesLine nStore (openSender.cursor + putArgs.c.val twoSenders) 8 8
      = some (.mem 0x1000 1 true 0xF800000000000000#64, twoSenders) ∧
    twoSenders.canCharge 1 = true := by
  decide +kernel

/-- The generations of the sender table of a core after an instruction. -/
def senderGensAfter (i : Instr) (n : Nat) (s : State) : Option (List Nat) :=
  match exec i s with
  | .next u => some ((u.core n).send.map (·.gen))
  | _ => none

/-- The first entry is still the closed one, of generation 1. -/
theorem senderGensAfter_twoSenders : senderGensAfter (.sput 0#4 putArgs) 0 twoSenders = some [1, 2] := by decide +kernel

/-- Refutes O31: where two entries of the sender table have one index, `sput` writes the cursor into the first, whichever is open, where
the statement puts the open entry in its place. -/
theorem not_streamTagInstructions : ¬ Obligations.StreamTagInstructions := by
  unfold Obligations.StreamTagInstructions
  intro h
  obtain ⟨enabled, ready, regs, tag, room, found, cached, granted, reaches, charge⟩ := twoSenders_puts
  obtain ⟨-, -, put⟩ := h putArgs twoSenders enabled
  obtain ⟨u, r, sent, -, -, -, -, -, -, table⟩ := put 0#4 openSender twoSenders placedSet 0x1000 0x1000 1 true 0xF800000000000000#64 ready regs
    tag room found cached granted reaches charge
  have gens := senderGensAfter_twoSenders
  simp only [senderGensAfter, sent, Option.some.injEq] at gens
  have stated := congrArg (List.map SendStream.gen) table
  exact absurd (gens.symm.trans stated) (by decide)

end Sys2Proof.Machine
end

section
/-! ### Probes of a peer (O32)

A ping sends its packets one after another, each charged to the entry of the port (R196, R217). Beside the draught of the issuing core it
changes the port alone. -/

namespace Sys2Proof.Machine

open Config

/-! ### The peer-and-window table (R209, R361) -/

/-- Binding a key that has no value to the one it is read as leaves what is read. -/
theorem look_append_default {α β : Type} [DecidableEq α] (k : α) (d : β) (l : List (α × β)) :
    (look k (if (look k l).isNone then l ++ [(k, (look k l).getD d)] else l)).getD d = (look k l).getD d := by
  have appended (v : β) : look k l = none → look k (l ++ [(k, v)]) = some v := by
    induction l with
    | nil => simp [look]
    | cons p l ih =>
      by_cases same : p.1 = k
      · simp [look, same]
      · simpa [look, same] using ih
  cases known : look k l with
  | none => simp [appended d known]
  | some v => simp [known]

/-- Caching the entry of a peer leaves what it says. -/
@[simp] theorem State.peer1_notePeer (p w : Nat) (s : State) : (s.notePeer p w).peer1 p = s.peer1 p :=
  look_append_default p (s.readWord (s.pwtb.toNat + 16 * p)) s.peers1

/-! ### Packets that are charged one after another (R87, R196) -/

/-- `t` stands as `s` in everything that a charge of the thread that issues looks at. -/
def SameCharge (s t : State) : Prop :=
  (∃ c, t.thr = { s.thr with ctx := c }) ∧ t.pool = s.pool ∧ t.cores = s.cores

theorem SameCharge.core {s t : State} (a : SameCharge s t) : t.thr.core = s.thr.core := by
  obtain ⟨⟨c, thr⟩, -⟩ := a
  rw [thr]

/-- Where two states look the same to a charge, it has the same effect on both, or on neither one. -/
theorem SameCharge.takeDraught {s t : State} (a : SameCharge s t) (dn : Nat) :
    (∃ l, s.takeDraught dn = .ok { s with cores := l } ∧ t.takeDraught dn = .ok { t with cores := l }) ∨
      ∃ r, s.takeDraught dn = .error r ∧ t.takeDraught dn = .error r := by
  have same := a.core
  obtain ⟨⟨c, thr⟩, pool, cores⟩ := a
  have ahead (r : Resource) : t.aheadOf r = s.aheadOf r := by
    rw [State.aheadOf, State.aheadOf, pool, thr]
    rfl
  have core : t.core s.thr.core = s.core s.thr.core := by rw [State.core, State.core, cores]
  unfold State.takeDraught
  rw [same, core, cores]
  dsimp only
  rw [ahead]
  generalize (if ((s.core s.thr.core).draught.any fun e => e.dn == dn) = true then Resource.draught dn else .table) = r
  by_cases room : s.aheadOf r < if r = .table then (s.core s.thr.core).tableRoom else (s.core s.thr.core).allowance dn
  · rw [if_pos room, if_pos room]
    cases (s.core s.thr.core).charge dn with
    | none => exact .inr ⟨_, rfl, rfl⟩
    | some e => exact .inl ⟨_, rfl, rfl⟩
  · rw [if_neg room, if_neg room]
    exact .inr ⟨_, rfl, rfl⟩

theorem SameCharge.canChargeAll {s t : State} (a : SameCharge s t) (home n : Nat) : t.canChargeAll home n = s.canChargeAll home n := by
  induction n generalizing s t with
  | zero => rfl
  | succ n ih =>
    rw [State.canChargeAll, State.canChargeAll, a.core]
    cases chargeDn s.thr.core home with
    | none => rfl
    | some dn =>
      obtain ⟨l, charged, charged'⟩ | ⟨r, refused, refused'⟩ := a.takeDraught dn
      · simp only [charged, charged']
        exact ih ⟨a.1, a.2.1, rfl⟩
      · simp only [refused, refused']

/-- Of several packets that can be charged the first one is, and the others can be still. -/
theorem withCharge_first {s : State} {home n : Nat} (all : s.canChargeAll home (n + 1) = true) :
    ∃ t, DraughtOnly s t ∧ t.canChargeAll home n = true ∧ ∀ k, withCharge home s k = k t := by
  rw [State.canChargeAll] at all
  cases dest : chargeDn s.thr.core home with
  | none =>
    have none : s.canChargeAll home n = true := by cases n <;> simp [State.canChargeAll, dest]
    exact ⟨s, .refl s, none, fun k => by rw [withCharge, dest]⟩
  | some dn =>
    cases charged : s.takeDraught dn with
    | error r => simp [dest, charged] at all
    | ok t =>
      simp only [dest, charged] at all
      obtain ⟨l, rfl⟩ := State.takeDraught_only charged
      exact ⟨_, .of_setCore s.thr.core l s, all, fun k => by simp only [withCharge, dest, withDraught, charged]⟩

/-! ### What a ping sends (R217) -/

theorem Port.pump_reqs (fuel : Nat) (p : Port) : (p.pump fuel).reqs = p.reqs := by
  induction fuel generalizing p with
  | zero => rfl
  | succ fuel ih =>
    unfold Port.pump
    split
    · rfl
    · split
      · rfl
      · split
        · rfl
        · exact ih _

/-- A packet that is sent leaves the requests that a port waits on. -/
theorem State.sendPkt_reqs (port : Nat) (core : Option Nat) (k : Pkt) (s : State) :
    ((s.sendPkt port core k).port port).reqs = (s.port port).reqs := by
  rw [State.sendPkt, State.port_setPort]
  exact Port.pump_reqs _ _

/-- `t` differs from `s` in the draught of cores and in the ports only. -/
def ProbesOnly (s t : State) : Prop :=
  t = { s with cores := t.cores, ports := t.ports }

theorem ProbesOnly.kept {s t : State} (a : ProbesOnly s t) : MemKept s t := by
  rw [a]
  exact .of_eq rfl rfl rfl

theorem ProbesOnly.thr {s t : State} (a : ProbesOnly s t) : t.thr = s.thr := by rw [a]

theorem ProbesOnly.pings {s t : State} (a : ProbesOnly s t) : t.pings = s.pings := by rw [a]

/-- Packets that can all be charged are sent, and the port waits on one request for each. -/
theorem withProbes_sent {port id p : Nat} {r : BitVec 4} (l : List (Nat × Pkt)) {s : State}
    (all : s.canChargeAll (farHome port) l.length = true) :
    ∃ t, ProbesOnly s t ∧ (t.port port).reqs.length = (s.port port).reqs.length + l.length ∧
      ∀ k, withProbes port id p r l s k = k t := by
  induction l generalizing s with
  | nil => exact ⟨s, rfl, rfl, fun _ => rfl⟩
  | cons first l ih =>
    obtain ⟨hop, pk⟩ := first
    obtain ⟨t, charged, rest, goes⟩ := withCharge_first all
    have sent (q : PortReq) (pk : Pkt) : ∃ v, (t.sendPkt port (some t.thr.core) pk).setPort port (fun w => { w with reqs := w.reqs ++ [q] }) = v ∧
        SameCharge t v ∧ ProbesOnly t v ∧ (v.port port).reqs = (t.port port).reqs ++ [q] := by
      refine ⟨_, rfl, ⟨⟨t.thr.ctx, rfl⟩, rfl, rfl⟩, rfl, ?_⟩
      rw [State.port_setPort, State.sendPkt_reqs]
    obtain ⟨v, is, same, only, reqs⟩ := sent
      ⟨t.thr.core, t.thr.ctx.cxa, false, r, 0#64, p, 0, 0, (t.die (port / 4)).cyc, .probe id hop, ctagOf t.thr.ctx.cxa r, false⟩
      { pk with ctag := ctagOf t.thr.ctx.cxa r }
    obtain ⟨u, only', length, continues⟩ := ih ((same.canChargeAll _ _).trans rest)
    refine ⟨u, ?_, ?_, fun k => ?_⟩
    · rw [ProbesOnly, only', only, charged.1]
    · have ports : t.ports = s.ports := by rw [charged.1]
      have before : t.port port = s.port port := by rw [State.port, ports, State.port]
      rw [length, reqs, before, List.length_append, List.length_cons, List.length_nil, List.length_cons]
      omega
    · rw [withProbes, goes]
      exact (congrArg (fun v => withProbes port id p r l v k) is).trans (continues k)

theorem probePackets_length (s : State) (p core n : Nat) : (probePackets s p core n).length = ceilDiv n 4 := by
  rw [probePackets, List.length_map, List.length_range]

/-! ### The instructions (R217) -/

theorem FeOnly.peer1 {s t : State} (a : FeOnly s t) (p : Nat) : t.peer1 p = s.peer1 p := by
  obtain ⟨fe, rfl⟩ := a
  rfl

theorem FeOnly.port {s t : State} (a : FeOnly s t) (n : Nat) : t.port n = s.port n := by
  obtain ⟨fe, rfl⟩ := a
  rfl

theorem FeOnly.pings {s t : State} (a : FeOnly s t) : t.pings = s.pings := by
  obtain ⟨fe, rfl⟩ := a
  rfl

theorem FeOnly.sameCharge {s t : State} (a : FeOnly s t) : SameCharge s t := by
  obtain ⟨fe, rfl⟩ := a
  exact ⟨⟨_, rfl⟩, rfl, rfl⟩

theorem exec_pprbTab (x : Args) (s : State) : exec (.pprbTab x) s = execPprbTab x s := rfl

theorem exec_pprbPing (x : Args) (s : State) : exec (.pprbPing x) s = execPprbPing x s := rfl

/-- The status word of a ping that has sent nothing: 3 stands below what is free. -/
theorem notUp_status (w : Word) : ((w &&& 0xFFFFFFFFFF000000#64) ||| 3#64).toNat % 2 ^ 24 = 3 := by
  have low : ((w &&& 0xFFFFFFFFFF000000#64) ||| 3#64).setWidth 24 = 3#24 := by
    rw [BitVec.setWidth_or, BitVec.setWidth_and]
    simp
  rw [← BitVec.toNat_setWidth, low]
  rfl

section
variable {x : Args} {s : State} (e : s.enabled x.h = true) (ready : x.b.ready s = true) (known : (x.b.val s).toNat < 1024)
  (free : x.a.free (x.b.after s) = true)
include e ready known free

theorem exec_pprbTab_writes : ∃ u, exec (.pprbTab x) s = .next u ∧
    Advanced s u ((x.b.after s).thr.ctx.writeX x.a.rix (s.peer1 (x.b.val s).toNat &&& 0xFFFCFFFFFFFFFFFF#64)) := by
  have fe := FeOnly.after x.b s
  rw [exec_pprbTab, execPprbTab, issue_enabled e, withSrc_ready ready, if_neg (Nat.not_le.2 known), withDest_free free, fe.peer1]
  refine ⟨_, rfl, finish_done_advanced ?_ ?_ fe.pc (fe.final _)⟩
  · exact fe.ctxOnly.same
  · exact fe.ctxOnly.kept

theorem exec_pprbPing_notUp (notUp : p1State (s.peer1 (x.b.val s).toNat) ≠ 1) : ∃ u v, exec (.pprbPing x) s = .next u ∧
    Advanced s u ((x.b.after s).thr.ctx.writeX x.a.rix v) ∧ v.toNat % 2 ^ 24 = 3 := by
  have fe := FeOnly.after x.b s
  rw [exec_pprbPing, execPprbPing, issue_enabled e, withSrc_ready ready, if_neg (Nat.not_le.2 known), withDest_free free]
  dsimp only
  rw [State.peer1_notePeer, fe.peer1, if_pos notUp]
  exact ⟨_, _, rfl, finish_done_advanced fe.ctxOnly.same fe.ctxOnly.kept fe.pc (fe.final _), notUp_status _⟩

theorem exec_pprbPing_up (up : p1State (s.peer1 (x.b.val s).toNat) = 1)
    (all : s.canChargeAll (farHome (s.peerPort (x.b.val s).toNat)) (ceilDiv (p1Nrt (s.peer1 (x.b.val s).toNat)) 4) = true) :
    let port := s.peerPort (x.b.val s).toNat
    ∃ u g, exec (.pprbPing x) s = .next u ∧ u.pings = s.pings ++ [g] ∧ g.core = s.thr.core ∧ g.cxa = s.thr.ctx.cxa ∧
      Advanced s u ((x.b.after s).thr.ctx.owing x.a.rix) ∧
      (u.port port).reqs.length = (s.port port).reqs.length + ceilDiv (p1Nrt (s.peer1 (x.b.val s).toNat)) 4 := by
  have fe := FeOnly.after x.b s
  rw [exec_pprbPing, execPprbPing, issue_enabled e, withSrc_ready ready, if_neg (Nat.not_le.2 known), withDest_free free]
  dsimp only
  rw [State.peerPort, State.peer1_notePeer, fe.peer1, if_neg (not_not.2 up)]
  generalize sent : probePackets _ _ _ _ = l
  generalize ping : (⟨_, _, _, _, _, _, _, _, _⟩ : Ping) = g
  generalize start : ({ ((x.b.after s).notePeer (x.b.val s).toNat 0).fresh.2 with pings := _ } : State) = s2
  have length : l.length = ceilDiv (p1Nrt (s.peer1 (x.b.val s).toNat)) 4 := by rw [← sent, probePackets_length]
  have begun : SameCharge s s2 ∧ s2.thr = (x.b.after s).thr ∧ s2.pings = (x.b.after s).pings ++ [g] ∧
      (∀ n, s2.port n = (x.b.after s).port n) ∧ MemKept (x.b.after s) s2 := by
    obtain ⟨ctx, pool, cores⟩ := fe.sameCharge
    rw [← start]
    exact ⟨⟨ctx, pool, cores⟩, rfl, rfl, fun _ => rfl, .of_eq rfl rfl rfl⟩
  obtain ⟨charge, thr, pings, port, kept⟩ := begun
  obtain ⟨t, only, reqs, goes⟩ := withProbes_sent l ((charge.canChargeAll _ _).trans (length ▸ all))
  have thr' : t.thr = (x.b.after s).thr := only.thr.trans thr
  have rest := (finish_done_only (h := x.h) (s0 := s) (t := t.oweX x.a.rix)).1
  refine ⟨_, g, congrArg Host.Outcome.next (congrArg (Eff.finish x.h s) (goes _)), ?_, ?_, ?_, ?_, ?_⟩
  · rw [rest, ← fe.pings, ← pings, ← only.pings]
    rfl
  · rw [← ping]
    exact fe.thr_core
  · rw [← ping]
    exact fe.cxa
  · refine finish_done_advanced ?_ ?_ ?_ ?_
    · have same : SameThread (x.b.after s) t := ⟨congrArg Thread.core thr', congrArg Thread.place thr', congrArg Thread.pinC thr'⟩
      exact fe.ctxOnly.same.trans same
    · exact (fe.ctxOnly.kept.trans kept).trans only.kept
    · exact (congrArg (fun t => t.ctx.pc) thr').trans fe.pc
    · show Ctx.orFlags (flagsOf t.thr.res.fixed) (t.thr.ctx.owing x.a.rix) = _
      rw [thr', fe.res]
  · have ports : (Eff.finish x.h s (.done (t.oweX x.a.rix))).ports = t.ports := by rw [rest]; rfl
    rw [State.port, ports, ← length, ← fe.port, ← port]
    exact reqs

end

/-- Settles O32: `pprb.tab` and a ping of a peer that is not UP write one word, and a ping of one that is UP sends its packets. -/
theorem peerProbes : Obligations.PeerProbes := by
  unfold Obligations.PeerProbes
  intro x s e ready known free
  exact ⟨exec_pprbTab_writes e ready known free, exec_pprbPing_notUp e ready known free, exec_pprbPing_up e ready known free⟩

end Sys2Proof.Machine
end

section
/-! ### The last thread of a population that a `wkx.end` ends (O48)

R368: the WAKE of a `wkx.end` ends a dropped thread as R96 does. Where it is the last one of its population, the population completes, and one is
added to the word at its DONE (R86, R430). -/

namespace Sys2Proof.Machine

/-- A dropped thread of core 0, of population 1. -/
def lastThread : Thread := { attachedThread 0 .record false with wait := .dropped ⟨cDBG, 0x100000#64⟩, popIx := 1 }

/-- A population of one thread whose DONE is a word of the scratchpad of core 0. -/
def lastPop : Pop :=
  { ix := 1, handle := 1#64, task := 0#16, pc := 0#64, seeds := [], count := 1, quota := 1, cores := [0], cursor := 1, arena := 0#64
    done := BitVec.ofNat 64 (coreAddr 0 0x2000), tixb := 0, live := 1, shape := 0, complete := false, heldAt := none, lastCore := 0 }

/-- The WAKE of a `wkx.end` for that thread has reached its core. -/
def endsLast : State :=
  { State.reset.withFetchWord 96 0 with
    pool := [lastThread], pops := [lastPop], sysWakes := [⟨0, ⟨0#8, lastThread.ctx.cxa⟩, 9, true⟩] }

theorem endsLast_inv : endsLast.Inv := show Memory.wf endsLast.mem = true by decide +kernel

/-- The first byte at DONE, before a step and after it. -/
def doneByteAfter (i : Instr) (s : State) : Option (Byte × Byte) :=
  match exec i s with
  | .next u => some (Memory.readByte s.mem (coreAddr 0 0x2000), Memory.readByte u.mem (coreAddr 0 0x2000))
  | _ => none

theorem doneByteAfter_endsLast : doneByteAfter (.wakeArrive 0) endsLast = some (0#8, 1#8) := by decide +kernel

/-- Refutes O48: where a `wkx.end` ends the last thread of a population, one is added to the word at its DONE (R430), where the statement has
memory as before. -/
theorem not_flueEvents : ¬ Obligations.FlueEvents := by
  unfold Obligations.FlueEvents
  intro h
  obtain ⟨-, -, -, -, wakes⟩ := h endsLast endsLast_inv
  obtain ⟨u, ended, -, mem, -⟩ := wakes 0 _ rfl
  have bytes := doneByteAfter_endsLast
  simp only [doneByteAfter, ended, mem, Option.some.injEq, Prod.mk.injEq] at bytes
  exact absurd (bytes.1.symm.trans bytes.2) (by decide)

end Sys2Proof.Machine
end

section
/-! ### A report that waits behind a `gset` at the host port (O54)

R263: while the host port performs a `gset`, what is to leave it stands in a queue of its own. R418 raises MSI-X vector 0 for a die that becomes
fatal, and the message of a vector that is not masked stands in that queue then: it has not left, and its vector is not pending either. -/

namespace Sys2Proof.Machine

/-- The host port performs a `gset`, and the host has cleared the mask of vector 0. -/
def portHeld : State := { State.reset with hostHold := some 0, msix := [(0, (0x1000#64, 7#64))] }

/-- The vectors that are pending and what has left the device, after a step. -/
def reportedAfter (i : Instr) (s : State) : Option (List Nat × List HostTx) :=
  match exec i s with
  | .next u => some (u.pba, u.hostTx)
  | _ => none

/-- Only the in-band interrupt has left. -/
theorem reportedAfter_portHeld : reportedAfter (.thermalFatal 1) portHeld = some ([], [.inBand 1#8]) := by decide +kernel

/-- Refutes O54: a die becomes fatal while the host port performs a `gset` (R263): the message of vector 0 waits behind it, where the statement
has the vector pending or its message gone. -/
theorem not_bringUpAndPower : ¬ Obligations.BringUpAndPower := by
  unfold Obligations.BringUpAndPower
  intro h
  obtain ⟨-, -, -, thermal, -⟩ := h portHeld
  obtain ⟨u, fatal, -, -, -, -, vector, -⟩ := thermal 1 rfl (by decide) rfl
  have reported := reportedAfter_portHeld
  simp only [reportedAfter, fatal, Option.some.injEq, Prod.mk.injEq] at reported
  obtain ⟨pending, left⟩ := reported
  have gone := vector (by decide) rfl
  simp [pending, left] at gone

end Sys2Proof.Machine
end

section
/-! ### A link's state through what an answer brings about (R204, R212)

A port that goes DOWN turns away what waits behind it, and each answer goes on into the engines, the walks and the brine rounds that
waited for it. None of them changes the state of a port: `f_link` says so of `f`, from what `f` calls. -/

namespace Sys2Proof.Machine

/-- The port named is in the state named (R204). -/
def State.LinkIs (k : Nat) (v : BitVec 3) (s : State) : Prop := (s.port k).st = v

/-- As `State.LinkIs`, of the state that a found block comes with. -/
inductive BlockFind.LinkIs (k : Nat) (v : BitVec 3) : BlockFind → Prop
  | here {a : Nat} {s : State} (h : s.LinkIs k v) : BlockFind.LinkIs k v (.here a s)
  | lost : BlockFind.LinkIs k v .lost
  | held {g : Nat} : BlockFind.LinkIs k v (.held g)

/-- As `State.LinkIs`, of the state that a block that was sent comes with. -/
inductive SendRes.LinkIs (k : Nat) (v : BitVec 3) : SendRes → Prop
  | sent {n : Nat} {s : State} (h : s.LinkIs k v) : SendRes.LinkIs k v (.sent n s)
  | poisoned {s : State} (h : s.LinkIs k v) : SendRes.LinkIs k v (.poisoned s)
  | blocked : SendRes.LinkIs k v .blocked
  | held {g : Nat} : SendRes.LinkIs k v (.held g)

/-- As `State.LinkIs`, of the state that a gathering of words comes with. -/
inductive Gather.LinkIs (k : Nat) (v : BitVec 3) : Gather → Prop
  | ok {q : BrineCmd} {s : State} (h : s.LinkIs k v) : Gather.LinkIs k v (.ok q s)
  | wait {q : BrineCmd} {s : State} (h : s.LinkIs k v) : Gather.LinkIs k v (.wait q s)
  | hold {q : BrineCmd} {s : State} {f : PageFail} {g : Nat} (h : s.LinkIs k v) : Gather.LinkIs k v (.hold q s f g)
  | dead {s : State} (h : s.LinkIs k v) : Gather.LinkIs k v (.dead s)

/-- As `State.LinkIs`, of the state that a found span comes with. -/
inductive SpanFind.LinkIs (k : Nat) (v : BitVec 3) : SpanFind → Prop
  | ok {ls : List (Loc × Nat)} {s : State} (h : s.LinkIs k v) : SpanFind.LinkIs k v (.ok ls s)
  | dead : SpanFind.LinkIs k v .dead
  | hold {f : PageFail} {g : Nat} : SpanFind.LinkIs k v (.hold f g)

variable {s t : State} {k₀ : Nat} {v₀ : BitVec 3}

theorem BlockFind.LinkIs.of_here {a : Nat} {r : BlockFind} (e : r = .here a t) (h : r.LinkIs k₀ v₀) : t.LinkIs k₀ v₀ := by
  subst e; cases h; assumption

theorem SendRes.LinkIs.of_sent {n : Nat} {r : SendRes} (e : r = .sent n t) (h : r.LinkIs k₀ v₀) : t.LinkIs k₀ v₀ := by
  subst e; cases h; assumption

theorem SendRes.LinkIs.of_poisoned {r : SendRes} (e : r = .poisoned t) (h : r.LinkIs k₀ v₀) : t.LinkIs k₀ v₀ := by
  subst e; cases h; assumption

theorem Gather.LinkIs.of_ok {q : BrineCmd} {r : Gather} (e : r = .ok q t) (h : r.LinkIs k₀ v₀) : t.LinkIs k₀ v₀ := by
  subst e; cases h; assumption

theorem Gather.LinkIs.of_wait {q : BrineCmd} {r : Gather} (e : r = .wait q t) (h : r.LinkIs k₀ v₀) : t.LinkIs k₀ v₀ := by
  subst e; cases h; assumption

theorem Gather.LinkIs.of_hold {q : BrineCmd} {f : PageFail} {g : Nat} {r : Gather} (e : r = .hold q t f g) (h : r.LinkIs k₀ v₀) : t.LinkIs k₀ v₀ := by
  subst e; cases h; assumption

theorem Gather.LinkIs.of_dead {r : Gather} (e : r = .dead t) (h : r.LinkIs k₀ v₀) : t.LinkIs k₀ v₀ := by
  subst e; cases h; assumption

theorem SpanFind.LinkIs.of_ok {l : List (Loc × Nat)} {r : SpanFind} (e : r = .ok l t) (h : r.LinkIs k₀ v₀) : t.LinkIs k₀ v₀ := by
  subst e; cases h; assumption

theorem State.ite_link {c : Prop} {_ : Decidable c} (hs : s.LinkIs k₀ v₀) (ht : t.LinkIs k₀ v₀) : (if c then s else t).LinkIs k₀ v₀ := by
  split
  · exact hs
  · exact ht

theorem State.ite_then_link {c : Prop} {_ : Decidable c} (hs : t.LinkIs k₀ v₀ → s.LinkIs k₀ v₀) (ht : t.LinkIs k₀ v₀) :
    (if c then s else t).LinkIs k₀ v₀ :=
  State.ite_link (hs ht) ht

theorem Gather.ite_link {c : Prop} {_ : Decidable c} {a b : Gather} (ha : a.LinkIs k₀ v₀) (hb : b.LinkIs k₀ v₀) :
    (if c then a else b).LinkIs k₀ v₀ := by
  split
  · exact ha
  · exact hb

theorem State.foldl_link {α : Type} {f : State → α → State} {l : List α} (hf : ∀ s a, s.LinkIs k₀ v₀ → (f s a).LinkIs k₀ v₀) (h : s.LinkIs k₀ v₀) :
    (l.foldl f s).LinkIs k₀ v₀ := by
  induction l generalizing s with
  | nil => exact h
  | cons a l ih => exact ih (hf s a h)

/-! Ports, and what is sent on them (R202) -/

theorem State.port_setPort_other {n m : Nat} (f : Port → Port) (other : m ≠ n) : (s.setPort n f).port m = s.port m := by
  simp [State.port, State.setPort, look_put_other, other]

theorem State.setPort_link {n f} (hf : ∀ p : Port, (f p).st = p.st) (h : s.LinkIs k₀ v₀) : (s.setPort n f).LinkIs k₀ v₀ := by
  unfold State.LinkIs
  by_cases same : k₀ = n
  · rw [same, State.port_setPort, hf, ← same]
    exact h
  · rw [State.port_setPort_other _ same]
    exact h

/-- Sending moves flits alone (R202). -/
theorem Port.pump_only (fuel : Nat) (p : Port) :
    p.pump fuel = { p with
      txq := (p.pump fuel).txq, replay := (p.pump fuel).replay, lseq := (p.pump fuel).lseq, sent := (p.pump fuel).sent } := by
  induction fuel generalizing p with
  | zero => rfl
  | succ fuel ih =>
    unfold Port.pump
    split
    · rfl
    · split
      · rfl
      · split
        · rfl
        · rw [ih]
          rfl

theorem Port.pump_st (fuel : Nat) (p : Port) : (p.pump fuel).st = p.st := by
  rw [Port.pump_only]

theorem State.sendPkt_link {n core p} (h : s.LinkIs k₀ v₀) : (s.sendPkt n core p).LinkIs k₀ v₀ :=
  State.setPort_link (fun _ => Port.pump_st _ _) h

/-! Places (R141, R355) -/

theorem State.locate_miss_eq {who nd g n} (e : s.locate who nd g n = .miss t) : t = s := by
  unfold State.locate at e
  split at e
  · cases e
  · cases e
  · cases e
  · dsimp only at e
    split at e
    · cases e
    · split at e
      · cases e
      · split at e <;> cases e
  · split at e
    · cases e
      rfl
    · cases e
    · split at e
      · cases e
      · split at e <;> cases e

theorem State.locateEng_loc_link {who nd g n l} (e : s.locateEng who nd g n = .loc l t) (h : s.LinkIs k₀ v₀) : t.LinkIs k₀ v₀ := by
  unfold State.locateEng at e
  split at e
  · split at e
    · split at e <;> cases e
    · split at e
      · cases e
      · split at e
        · cases e
        · split at e
          · cases e
          · split at e
            · cases e
            · obtain ⟨masks, peers1, peers2, rfl⟩ := State.locate_only e
              exact h
  · obtain ⟨masks, peers1, peers2, rfl⟩ := State.locate_only e
    exact h

theorem State.locateEng_miss_link {who nd g n} (e : s.locateEng who nd g n = .miss t) (h : s.LinkIs k₀ v₀) : t.LinkIs k₀ v₀ := by
  unfold State.locateEng at e
  split at e
  · rename_i missed
    obtain rfl := State.locate_miss_eq missed
    split at e
    · split at e
      · cases e
      · cases e
        exact h
    · split at e
      · cases e
      · split at e
        · cases e
        · split at e
          · cases e
          · split at e
            · cases e
            · obtain rfl := State.locate_miss_eq e
              exact h
  · obtain rfl := State.locate_miss_eq e
    exact h

/-! Threads, homes and the host port (R80, R152, R179) -/

/-- Work done with another thread in the issue stage keeps a link's state if it does so by itself. -/
theorem State.asThr_link {core : Nat} {cxa : Word} {f : State → State} {s : State} (hf : ∀ t : State, t.LinkIs k₀ v₀ → (f t).LinkIs k₀ v₀)
    (h : s.LinkIs k₀ v₀) : (s.asThr core cxa f).LinkIs k₀ v₀ := by
  unfold State.asThr
  split
  · exact hf s h
  · split
    · rename_i t _
      exact hf { s with thr := t, pool := dropFirst (Thread.isAt core cxa) s.pool } h
    · split
      · exact h
      · rename_i t _
        exact hf { s with thr := t } h

theorem State.tear_link {a n} (h : s.LinkIs k₀ v₀) : (s.tear a n).LinkIs k₀ v₀ :=
  State.ite_link h (State.foldl_link (fun _ _ h1 => h1) h)

theorem State.emit_link {t} (h : s.LinkIs k₀ v₀) : (s.emit t).LinkIs k₀ v₀ := State.ite_link h h

theorem State.askHost_link {owner n t} (h : s.LinkIs k₀ v₀) : (s.askHost owner n t).LinkIs k₀ v₀ := State.emit_link h

theorem State.updThr_link {core cxa f} (h : s.LinkIs k₀ v₀) : (s.updThr core cxa f).LinkIs k₀ v₀ := State.ite_link h (State.ite_link h h)

theorem State.takeTrap_link {code sub detail} (h : s.LinkIs k₀ v₀) : (s.takeTrap code sub detail).LinkIs k₀ v₀ := State.ite_link h h

theorem State.trapWaiting_link {code sub detail} (h : s.LinkIs k₀ v₀) : (s.trapWaiting code sub detail).LinkIs k₀ v₀ :=
  State.ite_link (State.takeTrap_link h) (State.takeTrap_link h)

theorem State.atPort_link {asker} {f : State → State} (hf : ∀ (t : State), t.LinkIs k₀ v₀ → (f t).LinkIs k₀ v₀) (h : s.LinkIs k₀ v₀) :
    (s.atPort asker f).LinkIs k₀ v₀ := by
  have tried := hf (s.asTried asker) h
  rcases e : (f (s.asTried asker)).trying.map (·.2) with _ | _ | ⟨m, l⟩
  · have none : s.atPort asker f = { f (s.asTried asker) with
        trying := s.trying, asks := (f (s.asTried asker)).asks.filter fun a => !(a.1 == asker && a.2.why.isSome) } := by
      simp only [State.atPort, State.tryPort, e]
    rw [none]
    exact tried
  · rw [State.atPort_done e]
    exact tried
  · rw [State.atPort_missed e]
    exact h

theorem State.reachRecord_link {core task cxa write} (h : s.LinkIs k₀ v₀) : (s.reachRecord core task cxa write).LinkIs k₀ v₀ := by
  unfold State.reachRecord
  dsimp only
  split
  · exact State.ite_link h (State.ite_link h h)
  · exact h

theorem State.updImage_link {core cxa f} (h : s.LinkIs k₀ v₀) : (s.updImage core cxa f).LinkIs k₀ v₀ := by
  unfold State.updImage
  split
  · exact h
  dsimp only
  split
  · exact State.updThr_link (State.ite_link (State.reachRecord_link h) h)
  · exact State.updThr_link (State.ite_link (State.reachRecord_link h) h)

theorem State.ackWith_link {src home level} (h : s.LinkIs k₀ v₀) : (s.ackWith src home level).LinkIs k₀ v₀ := by
  unfold State.ackWith
  split <;> exact h

theorem State.ackTo_link {src home} (h : s.LinkIs k₀ v₀) : (s.ackTo src home).LinkIs k₀ v₀ := State.ackWith_link h

theorem State.landTrap_link {core cxa reason} (h : s.LinkIs k₀ v₀) : (s.landTrap core cxa reason).LinkIs k₀ v₀ := by
  unfold State.landTrap
  split
  · exact h
  · exact State.asThr_link (fun _ h1 => State.trapWaiting_link h1) h

theorem State.recordFault_link {core cxa sub ea} (h : s.LinkIs k₀ v₀) : (s.recordFault core cxa sub ea).LinkIs k₀ v₀ :=
  State.updImage_link h

theorem State.storeDone_link {core cxa} (h : s.LinkIs k₀ v₀) : (s.storeDone core cxa).LinkIs k₀ v₀ := State.updImage_link h

theorem Waiter.reply_link {w v} (h : s.LinkIs k₀ v₀) : (Waiter.reply w v s).LinkIs k₀ v₀ := by
  unfold Waiter.reply
  split
  · exact State.sendPkt_link h
  · exact State.ite_link (State.storeDone_link (State.ackTo_link h)) (State.ackTo_link h)

theorem State.nakPeer_link {pkt reason} (h : s.LinkIs k₀ v₀) : (s.nakPeer pkt reason).LinkIs k₀ v₀ := by
  unfold State.nakPeer
  dsimp only
  split
  · exact State.sendPkt_link h
  · exact State.foldl_link (fun _ _ h1 => State.sendPkt_link h1) h

theorem Waiter.nak_link {w reason} (h : s.LinkIs k₀ v₀) : (Waiter.nak w reason s).LinkIs k₀ v₀ := by
  unfold Waiter.nak
  split
  · exact State.nakPeer_link h
  · exact State.ackTo_link h

theorem Waiter.perform_link {w} (h : s.LinkIs k₀ v₀) : (Waiter.perform w s).LinkIs k₀ v₀ := by
  unfold Waiter.perform
  dsimp only
  split
  · exact Waiter.nak_link h
  split
  · exact Waiter.reply_link h
  · exact Waiter.reply_link (State.ite_then_link (fun h1 => h1) h)
  · exact Waiter.reply_link h
  · exact Waiter.reply_link h
  · exact h

theorem State.serveWord_link {word n} (h : s.LinkIs k₀ v₀) : (State.serveWord word n s).LinkIs k₀ v₀ := by
  induction n generalizing word s with
  | zero =>
    rw [State.serveWord]
    exact h
  | succ n ih =>
    rw [State.serveWord]
    split
    · exact h
    · exact ih (Waiter.perform_link h)

theorem State.afterWrite_link {a n} (h : s.LinkIs k₀ v₀) : (s.afterWrite a n).LinkIs k₀ v₀ := by
  unfold State.afterWrite
  dsimp only
  split
  · split
    · exact State.foldl_link (fun _ _ h7 => h7) h
    · exact State.foldl_link (fun _ _ h8 => State.serveWord_link h8) (State.foldl_link (fun _ _ h9 => h9) h)
  · exact State.ite_link h (State.foldl_link (fun _ _ h10 => State.serveWord_link h10) h)

theorem State.msixSend_link {v} (h : s.LinkIs k₀ v₀) : (s.msixSend v).LinkIs k₀ v₀ := State.emit_link h

theorem State.msixDo_link {v} (h : s.LinkIs k₀ v₀) : (s.msixDo v).LinkIs k₀ v₀ := State.ite_link h (State.msixSend_link h)

theorem State.sendEngine_link {owner core idx p w off ops} (h : s.LinkIs k₀ v₀) :
    (s.sendEngine owner core idx p w off ops).LinkIs k₀ v₀ :=
  State.setPort_link (by intro; rfl) (State.sendPkt_link h)

theorem State.cmdDone_link {core cxa} (h : s.LinkIs k₀ v₀) : (s.cmdDone core cxa).LinkIs k₀ v₀ := State.ite_link h (State.updThr_link h)

theorem State.engWrite_link {a bs bad} (h : s.LinkIs k₀ v₀) : (s.engWrite a bs bad).LinkIs k₀ v₀ :=
  State.afterWrite_link (State.ite_then_link (fun h2 => State.foldl_link (fun _ _ h1 => h1) h2)
    (State.tear_link h))

theorem State.putBrine_link {q} (h : s.LinkIs k₀ v₀) : (s.putBrine q).LinkIs k₀ v₀ := h

/-! Blocks, parts and custody of brine (R315-R327) -/

theorem State.brineWord_link {q status val} (h : s.LinkIs k₀ v₀) : (s.brineWord q status val).LinkIs k₀ v₀ :=
  State.cmdDone_link h

theorem State.brineEnd_link {id status val} (h : s.LinkIs k₀ v₀) : (s.brineEnd id status val).LinkIs k₀ v₀ := by
  unfold State.brineEnd
  split
  · exact State.brineWord_link h
  · exact h

theorem State.updRegion_link {rid f} (h : s.LinkIs k₀ v₀) : (s.updRegion rid f).LinkIs k₀ v₀ := h

theorem State.findBlock_link {r b} (h : s.LinkIs k₀ v₀) : (s.findBlock r b).LinkIs k₀ v₀ := by
  unfold State.findBlock
  dsimp only
  split
  · exact .lost
  split
  · rename_i e1
    split
    · exact .lost
    · exact .here (State.locateEng_loc_link e1 h)
  · rename_i e2
    exact .here (State.locateEng_miss_link e2 h)
  · exact .held
  · exact .lost

theorem State.blockAt_link {r b a} (e : s.blockAt r b = some (a, t)) (h : s.LinkIs k₀ v₀) : t.LinkIs k₀ v₀ := by
  unfold State.blockAt at e
  split at e
  · rename_i found
    cases e
    exact BlockFind.LinkIs.of_here found (State.findBlock_link h)
  · cases e

theorem State.awaitRevival_link {rid cl g} (h : s.LinkIs k₀ v₀) : (s.awaitRevival rid cl g).LinkIs k₀ v₀ := by
  unfold State.awaitRevival
  split
  · exact h
  · exact State.ite_link h h

theorem State.spoil_link {rid b} (h : s.LinkIs k₀ v₀) : (s.spoil rid b).LinkIs k₀ v₀ := h

theorem State.putVals_link {r a l} (h : s.LinkIs k₀ v₀) : (s.putVals r a l).LinkIs k₀ v₀ := State.engWrite_link h

theorem State.farWrites_link {core p w n o bs} (h : s.LinkIs k₀ v₀) : (State.farWrites core p w n o bs s).LinkIs k₀ v₀ := by
  induction n generalizing core p w o bs s with
  | zero =>
    rw [State.farWrites]
    exact h
  | succ n ih =>
    rw [State.farWrites]
    exact State.ite_link h (ih (State.sendEngine_link h))

theorem State.writeAtGva_link {who g bs} (h : s.LinkIs k₀ v₀) : (s.writeAtGva who g bs).LinkIs k₀ v₀ := by
  unfold State.writeAtGva
  split
  · rename_i e1
    split
    · exact State.locateEng_loc_link e1 h
    · exact State.engWrite_link (State.locateEng_loc_link e1 h)
  · rename_i e2
    exact State.farWrites_link (State.locateEng_loc_link e2 h)
  · rename_i e3
    exact State.emit_link (State.locateEng_loc_link e3 h)
  · rename_i e4
    exact State.locateEng_miss_link e4 h
  · exact h

theorem State.writeMass_link {r b w} (h : s.LinkIs k₀ v₀) : (s.writeMass r b w).LinkIs k₀ v₀ :=
  State.ite_link (State.updRegion_link (State.awaitRevival_link h)) (State.writeAtGva_link h)

theorem State.setMass_link {r b w} (h : s.LinkIs k₀ v₀) : (s.setMass r b w).LinkIs k₀ v₀ := State.ite_link h (State.writeMass_link h)

theorem State.sendParts_link {opc sub core p owner ls} (h : s.LinkIs k₀ v₀) : (s.sendParts opc sub core p owner ls).LinkIs k₀ v₀ := by
  induction ls generalizing s with
  | nil => exact h
  | cons l ls ih =>
    cases ls with
    | nil =>
      unfold State.sendParts
      split
      · exact State.sendEngine_link h
      · exact State.sendPkt_link h
    | cons l' ls => exact ih (State.sendPkt_link h)

theorem State.endCopy_link {owner applied} (h : s.LinkIs k₀ v₀) : (s.endCopy owner applied).LinkIs k₀ v₀ := by
  unfold State.endCopy
  split
  · exact State.brineEnd_link h
  · exact h

theorem State.launchHalf_link {r hd} (h : s.LinkIs k₀ v₀) : (s.launchHalf r hd).LinkIs k₀ v₀ := by
  unfold State.launchHalf
  dsimp only
  split
  · exact h
  · exact State.ite_link (State.ite_link (State.endCopy_link h) h) (State.sendParts_link h)

theorem State.sendBlock_link {r b t whole sweep owner} (h : s.LinkIs k₀ v₀) : (s.sendBlock r b t whole sweep owner).LinkIs k₀ v₀ := by
  unfold State.sendBlock
  dsimp only
  split
  · exact .poisoned h
  · split
    · exact .sent (State.launchHalf_link h)
    · exact .held
  rename_i e2
  have h1 := BlockFind.LinkIs.of_here e2 (State.findBlock_link h)
  split
  · exact .poisoned (State.spoil_link h1)
  split
  · exact .sent (State.launchHalf_link h1)
  split
  · exact .blocked
  split
  · exact .held
  · exact .sent (State.launchHalf_link (State.writeAtGva_link (State.setMass_link (State.putVals_link h1))))

theorem State.reachCust_link {r cl c} (h : s.LinkIs k₀ v₀) : (s.reachCust r cl c).LinkIs k₀ v₀ := by
  unfold State.reachCust
  split
  · rename_i e1
    exact State.locateEng_miss_link e1 h
  · exact h

theorem State.reclaim_link {cl c} (h : s.LinkIs k₀ v₀) : (s.reclaim cl c).LinkIs k₀ v₀ := by
  unfold State.reclaim
  split
  · exact h
  dsimp only
  split
  · exact State.setMass_link (State.spoil_link (State.reachCust_link h))
  · exact State.awaitRevival_link h
  rename_i e2
  have h1 := BlockFind.LinkIs.of_here e2 (State.findBlock_link (State.reachCust_link h))
  split
  · exact State.setMass_link (State.spoil_link h1)
  · exact State.setMass_link (State.updRegion_link (State.putVals_link h1))

theorem State.brineMsg_link {q} (h : s.LinkIs k₀ v₀) : (s.brineMsg q).LinkIs k₀ v₀ := h

theorem State.endCust_link {cl c status} (h : s.LinkIs k₀ v₀) : (s.endCust cl c status).LinkIs k₀ v₀ := by
  unfold State.endCust
  split
  · exact State.brineEnd_link h
  · exact h

theorem State.custBack_link {cl c} (h : s.LinkIs k₀ v₀) : (s.custBack cl c).LinkIs k₀ v₀ :=
  State.ite_link (State.endCust_link (State.reclaim_link h)) (State.reclaim_link h)

theorem State.reclaimAll_link {rid idx} (h : s.LinkIs k₀ v₀) : (s.reclaimAll rid idx).LinkIs k₀ v₀ :=
  State.foldl_link (fun _ _ h1 => State.custBack_link h1) h

theorem State.putRound_link {d} (h : s.LinkIs k₀ v₀) : (s.putRound d).LinkIs k₀ v₀ := h

/-! Rounds (R331-R345) -/

theorem State.sendMemb_link {r e sub ps} (h : s.LinkIs k₀ v₀) : (s.sendMemb r e sub ps).LinkIs k₀ v₀ :=
  State.ite_link (State.ite_link h h) (State.ite_link h (State.sendParts_link h))

theorem State.propose_link {d r own p} (h : s.LinkIs k₀ v₀) : (s.propose d r own p).LinkIs k₀ v₀ :=
  State.foldl_link (fun _ _ h1 => State.sendMemb_link h1) h

theorem State.commitRound_link {d ps} (h : s.LinkIs k₀ v₀) : (s.commitRound d ps).LinkIs k₀ v₀ := by
  unfold State.commitRound
  split
  · exact h
  dsimp only
  split
  · exact State.ite_link (State.reclaimAll_link h) h
  · exact State.ite_link (State.reclaimAll_link h) h

theorem State.endRound_link {d status} (h : s.LinkIs k₀ v₀) : (s.endRound d status).LinkIs k₀ v₀ := State.brineEnd_link h

theorem State.testRound_link {rid} (h : s.LinkIs k₀ v₀) : (s.testRound rid).LinkIs k₀ v₀ := by
  unfold State.testRound
  split
  · split
    · exact State.ite_link (State.endRound_link (State.commitRound_link h)) (State.endRound_link (State.ite_link h h))
    · exact h
  · exact h

theorem State.leaveBlocks_link {rid n} (h : s.LinkIs k₀ v₀) : (State.leaveBlocks rid n s).LinkIs k₀ v₀ := by
  induction n generalizing rid s with
  | zero =>
    rw [State.leaveBlocks]
    exact h
  | succ n ih =>
    rw [State.leaveBlocks]
    split
    · split
      · exact h
      split
      · exact h
      split
      · exact h
      · exact State.awaitRevival_link h
      · rename_i e2
        exact ih (State.putRound_link (SendRes.LinkIs.of_sent e2 (State.sendBlock_link h)))
      · rename_i e3
        exact ih (State.putRound_link (SendRes.LinkIs.of_poisoned e3 (State.sendBlock_link h)))
    · exact h

theorem State.stepRound_link {rid} (h : s.LinkIs k₀ v₀) : (s.stepRound rid).LinkIs k₀ v₀ := by
  unfold State.stepRound
  split
  · dsimp only
    split
    · split
      · split
        · split
          · exact State.testRound_link (State.propose_link
              (State.putRound_link (State.leaveBlocks_link (State.reclaimAll_link h))))
          · exact State.testRound_link (State.leaveBlocks_link (State.reclaimAll_link h))
        split
        · exact State.testRound_link (State.propose_link (State.putRound_link (State.leaveBlocks_link h)))
        · exact State.testRound_link (State.leaveBlocks_link h)
      split
      · split
        · exact State.testRound_link (State.propose_link (State.putRound_link (State.reclaimAll_link h)))
        · exact State.testRound_link (State.reclaimAll_link h)
      · exact State.ite_link (State.testRound_link (State.propose_link h)) (State.testRound_link h)
    split
    · exact State.leaveBlocks_link (State.ite_link (State.reclaimAll_link h) h)
    · exact State.ite_link (State.reclaimAll_link h) h
  · exact h

theorem State.startRound_link {q op idx cseq entry joiner} (h : s.LinkIs k₀ v₀) :
    (s.startRound q op idx cseq entry joiner).LinkIs k₀ v₀ :=
  State.stepRound_link h

/-! Brine commands (R319-R343) -/

theorem State.noteDiscard_link {q} (h : s.LinkIs k₀ v₀) : (s.noteDiscard q).LinkIs k₀ v₀ := State.ite_link h h

theorem State.gather_link {who nd free l g k q} (h : s.LinkIs k₀ v₀) :
    (State.gather who nd free l g k q s).LinkIs k₀ v₀ := by
  induction l generalizing who nd free g k q s with
  | nil =>
    rw [State.gather]
    exact .ok h
  | cons y l ih =>
    rw [State.gather]
    split
    · exact ih h
    split
    · exact .wait h
    split
    · rename_i e1
      have h1 := State.locateEng_loc_link e1 h
      split
      · exact .wait h1
      split
      · split
        · exact ih h1
        · exact .dead h1
      · exact ih (State.ite_link h1 h1)
    · rename_i e2
      exact ih (State.noteDiscard_link (State.locateEng_loc_link e2 h))
    · rename_i e3
      exact .wait (State.sendEngine_link (State.locateEng_loc_link e3 h))
    · rename_i e4
      exact .wait (State.askHost_link (State.locateEng_loc_link e4 h))
    · split
      · exact ih h
      · exact .hold h
    · split
      · exact ih h
      · exact .dead h
    · rename_i e7
      exact .wait (State.locateEng_miss_link e7 h)

theorem State.holdBrine_link {q f wr g} (h : s.LinkIs k₀ v₀) : (s.holdBrine q f wr g).LinkIs k₀ v₀ := by
  unfold State.holdBrine
  dsimp only
  split <;> exact h

theorem State.bregRun_link {q r join cseq} (h : s.LinkIs k₀ v₀) : (s.bregRun q r join cseq).LinkIs k₀ v₀ := by
  unfold State.bregRun
  dsimp only
  split
  · exact State.brineWord_link h
  split
  · exact State.brineWord_link h
  split
  · exact State.brineWord_link h
  split
  · rename_i e1
    exact State.putBrine_link (Gather.LinkIs.of_wait e1 (Gather.ite_link (.ok h) (State.gather_link h)))
  · rename_i e2
    exact Gather.LinkIs.of_hold e2 (Gather.ite_link (.ok h) (State.gather_link h))
  · rename_i e3
    exact Gather.LinkIs.of_dead e3 (Gather.ite_link (.ok h) (State.gather_link h))
  rename_i _ u e4
  have hu : u.LinkIs k₀ v₀ := Gather.LinkIs.of_ok e4 (Gather.ite_link (.ok h) (State.gather_link h))
  split
  · exact State.brineWord_link hu
  split
  · exact State.holdBrine_link hu
  refine State.startRound_link (State.ite_link (State.foldl_link (fun _ _ h1 => ?_) hu) hu)
  split
  · rename_i e5
    exact State.setMass_link (State.putVals_link (State.blockAt_link e5 h1))
  · exact State.spoil_link h1

theorem State.bdrgRun_link {q} (h : s.LinkIs k₀ v₀) : (s.bdrgRun q).LinkIs k₀ v₀ := by
  unfold State.bdrgRun
  split
  · exact State.brineWord_link h
  split
  · exact State.brineWord_link h
  split
  · exact h
  split
  · exact State.holdBrine_link h
  · exact State.brineWord_link (State.ite_then_link (fun h3 => h3)
      (State.foldl_link (fun _ _ h2 => State.setMass_link h2) h))

theorem State.bqryRun_link {q clr} (h : s.LinkIs k₀ v₀) : (s.bqryRun q clr).LinkIs k₀ v₀ := by
  unfold State.bqryRun
  exact ((State.cmdDone_link ((by
    split
    · split
      · split
        · split
          · exact h
          · exact h
          · rename_i e2
            exact State.ite_link h (BlockFind.LinkIs.of_here e2 (State.findBlock_link h))
        · exact h
      · exact h
    split
    · split
      · split
        · exact h
        · exact h
        · rename_i e4
          exact State.ite_link h (BlockFind.LinkIs.of_here e4 (State.findBlock_link h))
      · exact h
    · exact h))))

theorem State.bholdRun_link {q on} (h : s.LinkIs k₀ v₀) : (s.bholdRun q on).LinkIs k₀ v₀ := by
  unfold State.bholdRun
  split
  · exact State.brineWord_link h
  · exact State.ite_link h (State.brineWord_link h)

theorem State.bstepRun_link {q} (h : s.LinkIs k₀ v₀) : (s.bstepRun q).LinkIs k₀ v₀ := by
  unfold State.bstepRun
  split
  · exact h
  split
  · exact State.brineWord_link h
  dsimp only
  split
  · exact State.brineWord_link h
  split
  · exact State.brineWord_link h
  split
  · exact h
  split
  · exact h
  · exact State.holdBrine_link h
  · rename_i e2
    exact State.brineWord_link (SendRes.LinkIs.of_poisoned e2 (State.sendBlock_link h))
  · rename_i e3
    exact State.putBrine_link (SendRes.LinkIs.of_sent e3 (State.sendBlock_link h))

theorem State.bgrpRun_link {q op} (h : s.LinkIs k₀ v₀) : (s.bgrpRun q op).LinkIs k₀ v₀ := by
  unfold State.bgrpRun
  split
  · exact h
  split
  · exact State.brineWord_link h
  split
  exact State.ite_link (State.brineWord_link h) (State.ite_link h (State.startRound_link h))

theorem State.findSpan_link {who nd l g} (h : s.LinkIs k₀ v₀) : (State.findSpan who nd l g s).LinkIs k₀ v₀ := by
  induction l generalizing who nd g s with
  | nil =>
    rw [State.findSpan]
    exact .ok h
  | cons y l ih =>
    rw [State.findSpan]
    split
    · rename_i e1
      have h1 := State.locateEng_loc_link e1 h
      split
      · split
        · exact .dead
        split
        · rename_i e2
          exact .ok (SpanFind.LinkIs.of_ok e2 (ih h1))
        · exact ih h1
      split
      · rename_i e3
        exact .ok (SpanFind.LinkIs.of_ok e3 (ih h1))
      · exact ih h1
    · exact .hold
    · exact .dead
    · rename_i e6
      exact .ok (State.locateEng_miss_link e6 h)

theorem State.writeSpan_link {id core bad l bs} (h : s.LinkIs k₀ v₀) : (State.writeSpan id core bad l bs s).2.LinkIs k₀ v₀ := by
  induction l generalizing id core bad bs s with
  | nil =>
    rw [State.writeSpan]
    exact h
  | cons y l ih =>
    unfold State.writeSpan
    exact ih (by
      split
      · exact State.engWrite_link (State.ite_link h h)
      · exact State.sendEngine_link h
      · exact State.emit_link h
      · exact h)

theorem State.brineCode_link {q code b} (h : s.LinkIs k₀ v₀) : (s.brineCode q code b).LinkIs k₀ v₀ := State.ite_link h h

theorem State.baddRun_link {q} (h : s.LinkIs k₀ v₀) : (s.baddRun q).LinkIs k₀ v₀ := by
  unfold State.baddRun
  dsimp only
  split
  · exact State.brineCode_link h
  split
  · exact State.brineCode_link h
  split
  · rename_i e1
    exact State.holdBrine_link (Gather.LinkIs.of_hold e1 (State.gather_link h))
  · rename_i e2
    exact State.brineCode_link (Gather.LinkIs.of_dead e2 (State.gather_link h))
  · rename_i e3
    exact State.putBrine_link (Gather.LinkIs.of_wait e3 (State.gather_link h))
  rename_i e4
  have h1 := Gather.LinkIs.of_ok e4 (State.gather_link h)
  split
  · exact State.brineCode_link (State.spoil_link h1)
  · exact State.holdBrine_link h1
  rename_i e6
  have h2 := BlockFind.LinkIs.of_here e6 (State.findBlock_link h1)
  split
  · exact State.brineCode_link h2
  · exact State.brineMsg_link (State.updRegion_link (State.putVals_link h2))

theorem State.brdRun_link {t q} (h : s.LinkIs k₀ v₀) : (s.brdRun t q).LinkIs k₀ v₀ := by
  unfold State.brdRun
  dsimp only
  split
  · exact State.ite_link h h
  split
  · exact State.brineCode_link h
  split
  · exact h
  split
  · exact State.brineCode_link h
  split
  · exact State.holdBrine_link h
  · exact State.brineCode_link h
  rename_i e2
  have h1 := SpanFind.LinkIs.of_ok e2 (State.findSpan_link h)
  split
  · exact h1
  split
  · split
    · split
      · exact State.brineMsg_link (State.writeSpan_link (State.spoil_link h1))
      · exact State.putBrine_link (State.writeSpan_link (State.spoil_link h1))
    split
    · exact State.brineMsg_link (State.writeSpan_link (State.spoil_link h1))
    · exact State.putBrine_link (State.writeSpan_link (State.spoil_link h1))
  · split
    · exact State.brineMsg_link (State.updRegion_link (State.writeSpan_link (State.noteDiscard_link h1)))
    · exact State.putBrine_link (State.updRegion_link (State.writeSpan_link (State.noteDiscard_link h1)))
  rename_i e4
  have h2 := BlockFind.LinkIs.of_here e4 (State.findBlock_link h1)
  split
  · split
    · split
      · exact State.brineMsg_link (State.writeSpan_link h2)
      · exact State.putBrine_link (State.writeSpan_link h2)
    split
    · exact State.brineMsg_link (State.writeSpan_link h2)
    · exact State.putBrine_link (State.writeSpan_link h2)
  split
  · exact State.brineMsg_link (State.updRegion_link (State.writeSpan_link h2))
  · exact State.putBrine_link (State.updRegion_link (State.writeSpan_link h2))

theorem State.brineRun_link {q} (h : s.LinkIs k₀ v₀) : (s.brineRun q).LinkIs k₀ v₀ := by
  unfold State.brineRun
  split
  · split
    · exact h
    split
    · exact State.bregRun_link h
    · exact h
  · split
    · exact h
    split
    · exact State.bregRun_link h
    · exact h
  · exact State.bdrgRun_link h
  · exact State.baddRun_link h
  · exact State.brdRun_link h
  · exact State.bqryRun_link h
  · exact State.bqryRun_link h
  · exact State.bgrpRun_link h
  · exact State.bgrpRun_link h
  · exact State.bgrpRun_link h
  · exact State.bholdRun_link h
  · exact State.bholdRun_link h
  · exact State.bstepRun_link h
  · exact h

theorem State.brinePass_link (h : s.LinkIs k₀ v₀) : s.brinePass.LinkIs k₀ v₀ := by
  unfold State.brinePass
  exact State.foldl_link (fun _ _ h1 => State.atPort_link (fun _ h2 => State.stepRound_link h2) h1)
    (State.foldl_link (fun _ _ h3 => by
    split
    · exact State.ite_link (State.atPort_link (fun _ h4 => State.brineRun_link h4) h3) h3
    · exact h3) h)

theorem State.brineGo_link (h : s.LinkIs k₀ v₀) : s.brineGo.LinkIs k₀ v₀ :=
  State.ite_link h (State.foldl_link (fun _ _ h1 => State.brinePass_link h1) h)

theorem State.brineRead_link {id bs bad} (h : s.LinkIs k₀ v₀) : (s.brineRead id bs bad).LinkIs k₀ v₀ := by
  unfold State.brineRead
  split
  · exact h
  · exact State.brineGo_link h

theorem State.brineLost_link {id n bad} (h : s.LinkIs k₀ v₀) : (s.brineLost id n bad).LinkIs k₀ v₀ := by
  unfold State.brineLost
  dsimp only
  split
  · exact h
  split
  · exact State.brineRead_link h
  split
  · exact State.brineGo_link (State.brineCode_link h)
  · exact State.brineRead_link h

/-! Host queues (R377-R396) -/

theorem State.msixRaise_link {core v} (h : s.LinkIs k₀ v₀) : (s.msixRaise core v).LinkIs k₀ v₀ := State.ite_link h (State.msixDo_link h)

theorem State.failQ_link {die q err addr} (h : s.LinkIs k₀ v₀) : (s.failQ die q err addr).LinkIs k₀ v₀ := State.msixRaise_link h

theorem State.tune_link {die q} (h : s.LinkIs k₀ v₀) : (s.tune die q).LinkIs k₀ v₀ := State.ite_link (State.failQ_link h) h

theorem State.doneQ_link {die q} (h : s.LinkIs k₀ v₀) : (s.doneQ die q).LinkIs k₀ v₀ :=
  State.ite_link (State.msixRaise_link (State.tune_link h)) (State.tune_link h)

theorem State.queueAnswer_link {ser ok} (h : s.LinkIs k₀ v₀) : (s.queueAnswer ser ok).LinkIs k₀ v₀ := by
  unfold State.queueAnswer
  split
  · exact State.ite_link (State.doneQ_link h) (State.failQ_link h)
  split
  · exact State.ite_link (State.msixRaise_link h) h
  · exact h

/-! Answers (R211, R212) -/

theorem State.pingAnswer_link {id hop a} (h : s.LinkIs k₀ v₀) : (s.pingAnswer id hop a).LinkIs k₀ v₀ := by
  unfold State.pingAnswer
  split
  · exact h
  · exact State.ite_link h h

theorem State.brineWritten_link {id a} (h : s.LinkIs k₀ v₀) : (s.brineWritten id a).LinkIs k₀ v₀ := by
  unfold State.brineWritten
  split
  · exact h
  · exact State.brineGo_link h

/-- An answer that turns a copy away fails its record (R300). -/
theorem State.copyAnswer_error_link {core slot idx peer r} (h : s.LinkIs k₀ v₀) :
    (s.copyAnswer core slot idx peer (.error r)).LinkIs k₀ v₀ := by
  unfold State.copyAnswer
  split
  · exact h
  · split
    · exact h
    · split
      · exact h
      · exact h

/-- Who waits for a request that is turned away goes on, and every link stays as it is (R204, R212). -/
theorem State.portAnswer_nak_link {q r} (h : s.LinkIs k₀ v₀) : (s.portAnswer q (.nak r)).LinkIs k₀ v₀ := by
  unfold State.portAnswer
  dsimp only
  split
  · split
    · exact State.storeDone_link (State.recordFault_link h)
    · exact State.storeDone_link (State.recordFault_link h)
    · exact State.landTrap_link h
    · exact State.landTrap_link h
  · exact State.pingAnswer_link h
  · split
    · exact State.ite_link (State.copyAnswer_error_link h) h
    · exact h
  · split
    · exact h
    · exact h
  · exact h
  · exact h
  · exact State.brineGo_link (State.brineEnd_link h)
  · exact State.ite_link (State.ite_link (State.brineRead_link h) (State.brineLost_link h)) (State.brineWritten_link h)
  · exact State.queueAnswer_link h
  · exact h
  · exact h
  · exact h

theorem State.answerReq_nak_link {n p r} (h : s.LinkIs k₀ v₀) : (s.answerReq n p (.nak r)).LinkIs k₀ v₀ := by
  unfold State.answerReq
  split
  · exact h
  · exact State.portAnswer_nak_link (State.setPort_link (fun _ => rfl) h)

theorem State.dropPacket_link {n header} (h : s.LinkIs k₀ v₀) : (s.dropPacket n header).LinkIs k₀ v₀ := by
  unfold State.dropPacket
  dsimp only
  split
  · exact h
  · split
    · exact State.sendPkt_link h
    · exact State.answerReq_nak_link h

/-- A port that goes DOWN is DOWN, whatever its buffers held (R204). -/
theorem State.linkDown_st (n : Nat) (s : State) : ((s.linkDown n).port n).st = 0#3 :=
  State.foldl_link (k₀ := n) (fun _ _ => State.dropPacket_link) (by simp [State.LinkIs, State.linkAcks, State.setLink, State.port, State.setPort])

end Sys2Proof.Machine
end

section
/-! ### What reaches a port from its link (R201-R205) -/

namespace Sys2Proof.Machine
open Config

@[simp] theorem Port.pumpAll_st (p : Port) : p.pumpAll.st = p.st := Port.pump_st _ p

@[simp] theorem Port.pumpAll_partials (p : Port) : p.pumpAll.partials = p.partials := by
  rw [Port.pumpAll, Port.pump_only]

@[simp] theorem Port.pumpAll_want (p : Port) : p.pumpAll.want = p.want := by
  rw [Port.pumpAll, Port.pump_only]

@[simp] theorem Port.pumpAll_heard (p : Port) : p.pumpAll.heard = p.heard := by
  rw [Port.pumpAll, Port.pump_only]

@[simp] theorem Port.pumpAll_retries (p : Port) : p.pumpAll.retries = p.retries := by
  rw [Port.pumpAll, Port.pump_only]

@[simp] theorem Port.pumpAll_retryFor (p : Port) : p.pumpAll.retryFor = p.retryFor := by
  rw [Port.pumpAll, Port.pump_only]

/-- Flits sent one after another change nothing else (R202). -/
theorem Port.foldl_tx_only (l : List (Nat × LinkFlit)) (p : Port) : l.foldl (fun p e => p.tx 0 e.1 p.cwid e.2.bytes) p =
    { p with sent := (l.foldl (fun p e => p.tx 0 e.1 p.cwid e.2.bytes) p).sent } := by
  induction l generalizing p with
  | nil => rfl
  | cons e l ih =>
    rw [List.foldl_cons, ih]
    rfl

theorem Port.resend_only (p : Port) : p.resend = { p with sent := p.resend.sent } := Port.foldl_tx_only p.replay p

@[simp] theorem Port.resend_st (p : Port) : p.resend.st = p.st := by
  rw [Port.resend_only]

@[simp] theorem Port.resend_retries (p : Port) : p.resend.retries = p.retries := by
  rw [Port.resend_only]

@[simp] theorem Port.resend_retryFor (p : Port) : p.resend.retryFor = p.retryFor := by
  rw [Port.resend_only]

@[simp] theorem State.port_linkAcks (n level : Nat) (l : List LinkFlit) (s : State) : (s.linkAcks n level l).port = s.port := rfl

@[simp] theorem State.port_hear (n : Nat) (s : State) : (s.hear n).port n = { s.port n with heard := (s.die (n / 4)).cyc } :=
  State.port_setPort n _ s

@[simp] theorem State.takeLack_partials (n lack : Nat) (s : State) : ((s.takeLack n lack).port n).partials = (s.port n).partials := by
  simp [State.takeLack, State.freeReplay]

@[simp] theorem State.takeLack_want (n lack : Nat) (s : State) : ((s.takeLack n lack).port n).want = (s.port n).want := by
  simp [State.takeLack, State.freeReplay]

@[simp] theorem State.takeLack_heard (n lack : Nat) (s : State) : ((s.takeLack n lack).port n).heard = (s.port n).heard := by
  simp [State.takeLack, State.freeReplay]

/-- A flit that does not end its packet is held (R206). -/
theorem State.takeData_held {n : Nat} {payload : List Byte} {s : State} {l : List (List Byte)} (now : l = (s.port n).partials ++ [payload])
    (more : l.length < at' (l.headD []) 21 1) (few : l.length < 6) :
    s.takeData n payload = s.setPort n fun p => { p with want := (p.want + 1) % 4096, partials := l } := by
  have wait : l.length < max 1 (min 6 (at' (l.headD []) 21 1)) := by omega
  simp only [State.takeData, ← now, if_pos wait]

/-- A port that has been trained: UP, its flits numbered from 0 (R205). -/
def Port.trained (cyc : Word) (p : Port) : Port :=
  ({ p with st := 2#3, lseq := 0, want := 0, replay := [], partials := [], rwid := 0, retries := 0, retryFor := 0, heard := cyc } : Port).pumpAll

@[simp] theorem State.port_setLink (n : Nat) (v : BitVec 3) (s : State) : (s.setLink n v).port n = { s.port n with st := v } :=
  State.port_setPort n (fun p => { p with st := v }) s

/-- A change of a port's state raises LNK, and changes nothing but the port (R204). -/
theorem State.setLink_reports (n : Nat) (v : BitVec 3) (s : State) :
    (s.setLink n v).thr = s.thr ∧ (s.setLink n v).mem = s.mem ∧ ∃ f, (s.setLink n v).flue = s.flue ++ [f] ∧ f.cause = cLNK :=
  ⟨rfl, rfl, _, rfl, rfl⟩

theorem Port.rewidth_lanes (p : Port) : p.rewidth.lanes = p.lanes := by
  unfold Port.rewidth Port.takeWidth
  split
  · rfl
  · split <;> rfl

/-- A port takes the largest good width below its target (R203). -/
theorem Port.rewidth_cwid (p : Port) : p.rewidth.cwid = BitVec.ofNat 2 (max p.twid.toNat p.goodWidth) := by
  unfold Port.rewidth Port.takeWidth
  split
  · next same => exact same.symm
  · rfl

variable {s : State} {port : Nat} (inside : port < 16)

section
include inside

/-- A flit that an UP port discards is answered with RETRY (R202). -/
theorem exec_linkFlitReceive_bad (up : (s.port port).st = 2#3) {bs : List Byte} (bad : (s.port port).badFlit bs = true) :
    exec (.linkFlitReceive port bs) s = .next (s.setPort port fun p => ({ p with rply := sat16 p.rply } : Port).sendRetry) := by
  simp [exec, execLinkFlitReceive, Nat.not_le.2 inside, up, bad]

/-- A DATA flit in order (R202, R206). -/
theorem exec_linkFlitReceive_data (up : (s.port port).st = 2#3) {bs : List Byte} (good : (s.port port).badFlit bs = false)
    (data : bits (at' bs 0 4) 28 4 = 0) : exec (.linkFlitReceive port bs) s =
      .next ((((s.hear port).setPort port fun p => { p with rwid := BitVec.ofNat 2 (bits (at' bs 0 4) 2 2) }).takeLack port
        (bits (at' bs 0 4) 4 12)).takeData port ((bs.drop 4).take 64)) := by
  simp [exec, execLinkFlitReceive, Nat.not_le.2 inside, up, good, data]

/-- A DATA flit that does not end its packet is held, and the next one is expected (R202, R206). -/
theorem exec_linkFlitReceive_held (up : (s.port port).st = 2#3) {bs : List Byte} (good : (s.port port).badFlit bs = false)
    (data : bits (at' bs 0 4) 28 4 = 0) {l : List (List Byte)} (now : l = (s.port port).partials ++ [(bs.drop 4).take 64])
    (more : l.length < at' (l.headD []) 21 1) (few : l.length < 6) :
    ∃ u, exec (.linkFlitReceive port bs) s = .next u ∧ u.thr = s.thr ∧ u.mem = s.mem ∧ (u.port port).partials = l ∧
      (u.port port).want = ((s.port port).want + 1) % 4096 ∧ (u.port port).heard = (s.die (port / 4)).cyc := by
  obtain ⟨r, announced⟩ : ∃ r, r = (s.hear port).setPort port fun p => { p with rwid := BitVec.ofNat 2 (bits (at' bs 0 4) 2 2) } := ⟨_, rfl⟩
  obtain ⟨t, taken⟩ : ∃ t, t = r.takeLack port (bits (at' bs 0 4) 4 12) := ⟨_, rfl⟩
  have thr : t.thr = s.thr := by rw [taken, announced]; rfl
  have mem : t.mem = s.mem := by rw [taken, announced]; rfl
  have partials : (t.port port).partials = (s.port port).partials := by simp [taken, announced]
  have want : (t.port port).want = (s.port port).want := by simp [taken, announced]
  have heard : (t.port port).heard = (s.die (port / 4)).cyc := by simp [taken, announced]
  have data := exec_linkFlitReceive_data inside up good data
  rw [← announced, ← taken, State.takeData_held (partials ▸ now) more few] at data
  exact ⟨_, data, thr, mem, by simp, by simp [want], by simp [heard]⟩

/-- A RETRY that reaches an UP port (R202, R204). -/
theorem exec_linkRetryReceive_up (up : (s.port port).st = 2#3) (lack : Nat) :
    exec (.linkRetryReceive port lack) s = .next ((s.hear port).takeRetry port lack) := by
  simp [exec, execLinkRetryReceive, Nat.not_le.2 inside, up]

omit inside in
/-- A RETRY without progress is counted, and the port sends again (R202). -/
theorem State.takeRetry_counted (up : (s.port port).st = 2#3) (lack : Nat) :
    let n := if (s.port port).retryFor = (lack + 1) % 4096 then (s.port port).retries + 1 else 1
    n < 16 → ∃ u, (s.hear port).takeRetry port lack = u ∧ u.thr = s.thr ∧ u.mem = s.mem ∧ (u.port port).retries = n ∧
      (u.port port).retryFor = (lack + 1) % 4096 ∧ (u.port port).st = 2#3 := by
  intro n few
  have same : (s.hear port).takeRetry port lack = ((s.hear port).freeReplay port lack).setPort port fun p =>
      ({ p with retries := n, retryFor := (lack + 1) % 4096 } : Port).resend.pumpAll := by
    simp [State.takeRetry, State.freeReplay, n, Nat.not_le.2 few]
  refine ⟨_, same, rfl, rfl, ?_⟩
  simp [State.freeReplay, up]

omit inside in
/-- The sixteenth takes the port DOWN (R204). -/
theorem State.takeRetry_down (lack : Nat) (many : 16 ≤ if (s.port port).retryFor = (lack + 1) % 4096 then (s.port port).retries + 1 else 1) :
    (((s.hear port).takeRetry port lack).port port).st = 0#3 := by
  have same : (s.hear port).takeRetry port lack = ((s.hear port).freeReplay port lack).linkDown port := by
    simp [State.takeRetry, State.freeReplay, many]
  rw [same]
  exact State.linkDown_st port _

/-- A flit that reaches a port in TRAINING shows that the link is not silent (R204). -/
theorem exec_linkFlitReceive_training (notDown : (s.port port).st ≠ 0#3) (notUp : (s.port port).st ≠ 2#3) {bs : List Byte}
    (flit : noFlit bs = false) : exec (.linkFlitReceive port bs) s = .next (s.hear port) := by
  simp [exec, execLinkFlitReceive, Nat.not_le.2 inside, notDown, notUp, flit]

/-- A lane that fails leaves the port the largest width whose lanes are good (R203). -/
theorem exec_laneFail (lane : Nat) :
    exec (.laneFail port lane) s = .next (s.setPort port fun p => ({ p with lanes := p.lanes &&& ~~~BitVec.ofNat 8 (2 ^ lane) } : Port).rewidth) := by
  simp [exec, execLaneFail, Nat.not_le.2 inside]

omit inside in
theorem State.laneFailed_lanes (lane : Nat) :
    ((s.setPort port fun p => ({ p with lanes := p.lanes &&& ~~~BitVec.ofNat 8 (2 ^ lane) } : Port).rewidth).port port).lanes =
      (s.port port).lanes &&& ~~~BitVec.ofNat 8 (2 ^ lane) := by
  rw [State.port_setPort, Port.rewidth_lanes]

omit inside in
theorem State.laneFailed_width (lane : Nat) :
    let q := (s.setPort port fun p => ({ p with lanes := p.lanes &&& ~~~BitVec.ofNat 8 (2 ^ lane) } : Port).rewidth).port port
    q.cwid = BitVec.ofNat 2 (max (s.port port).twid.toNat q.goodWidth) := by
  dsimp only
  rw [State.port_setPort, Port.goodWidth, Port.rewidth_lanes, Port.rewidth_cwid]
  rfl

/-- 65,536 cycles of silence take a port DOWN (R204). -/
theorem exec_linkSilenceDown (notDown : (s.port port).st ≠ 0#3)
    (silent : 65536 ≤ ((s.die (port / 4)).cyc - (s.port port).heard).toNat) :
    exec (.linkSilenceDown port) s = .next (s.linkDown port) := by
  have no : ¬(16 ≤ port ∨ (s.port port).st = 0#3 ∨ ((s.die (port / 4)).cyc - (s.port port).heard).toNat < 65536) := by
    rintro (far | down | soon)
    · omega
    · exact notDown down
    · omega
  simp only [exec, execLinkSilenceDown, if_neg no]

omit inside in
/-- A port with empty buffers that goes DOWN reports it, and nothing else (R204). -/
theorem State.linkDown_empty (noReplay : (s.port port).replay = []) (noQueue : (s.port port).txq = []) :
    (s.linkDown port).thr = s.thr ∧ (s.linkDown port).mem = s.mem ∧
      ∃ f, (s.linkDown port).flue = s.flue ++ [f] ∧ f.cause = cLNK ∧ f.d1 = BitVec.ofNat 64 port := by
  simp [State.linkDown, noReplay, noQueue, State.linkAcks, State.setLink, flueFrom, field]

/-- What training makes of a port that goes UP (R205). -/
theorem exec_linkTrain_training (training : (s.port port).st = 1#3) :
    exec (.linkTrain port) s = .next ((s.setPort port (Port.trained (s.die (port / 4)).cyc)).setLink port 2#3) := by
  simp only [exec, execLinkTrain, if_neg (Nat.not_le.2 inside), training]
  rfl

theorem exec_linkTrain_down (down : (s.port port).st = 0#3) : exec (.linkTrain port) s = .next ((s.hear port).setLink port 1#3) := by
  simp [exec, execLinkTrain, Nat.not_le.2 inside, down]

end
end Sys2Proof.Machine
end

section
/-! ### Packets of other devices (R206-R208, R211, R219) -/

namespace Sys2Proof.Machine
open Config

/-- `q` is the port `p` with flits queued or sent on (R202). -/
def Port.Moved (p q : Port) : Prop :=
  q = { p with txq := q.txq, replay := q.replay, lseq := q.lseq, sent := q.sent }

theorem Port.Moved.refl (p : Port) : p.Moved p := rfl

theorem Port.Moved.trans {p q r : Port} (a : p.Moved q) (b : q.Moved r) : p.Moved r := by
  unfold Port.Moved at *
  rw [b, a]

theorem Port.Moved.malf {p q : Port} (a : p.Moved q) : q.malf = p.malf := by rw [a]

theorem Port.Moved.sgen {p q : Port} (a : p.Moved q) : q.sgen = p.sgen := by rw [a]

/-- `u` is `s` with packets queued at ports. -/
def State.Sent (s u : State) : Prop := u = { s with ports := u.ports } ∧ ∀ n, (s.port n).Moved (u.port n)

theorem State.Sent.refl (s : State) : s.Sent s := ⟨rfl, fun _ => .refl _⟩

theorem State.Sent.trans {s t u : State} (a : s.Sent t) (b : t.Sent u) : s.Sent u := by
  obtain ⟨rest, ports⟩ := a
  obtain ⟨rest', ports'⟩ := b
  exact ⟨by rw [rest', rest], fun n => (ports n).trans (ports' n)⟩

theorem State.Sent.port {s u : State} (a : s.Sent u) (n : Nat) : (s.port n).Moved (u.port n) := a.2 n

theorem State.Sent.thr {s u : State} (a : s.Sent u) : u.thr = s.thr := by rw [a.1]

theorem State.Sent.mem {s u : State} (a : s.Sent u) : u.mem = s.mem := by rw [a.1]

theorem State.sendPkt_sent (port : Nat) (core : Option Nat) (k : Pkt) (s : State) : s.Sent (s.sendPkt port core k) := by
  refine ⟨rfl, fun n => ?_⟩
  by_cases same : n = port
  · rw [same, State.sendPkt, State.port_setPort, Port.pump_only]
    rfl
  · rw [State.sendPkt, State.port_setPort_other _ same]
    rfl

/-- Turning a request of another device away sends packets alone (R207). -/
theorem State.nakPeer_sent (pkt : List Byte) (r : BitVec 8) (s : State) : s.Sent (s.nakPeer pkt r) := by
  unfold State.nakPeer
  dsimp only
  split
  · exact State.sendPkt_sent _ _ _ s
  · exact List.foldlRecOn (motive := s.Sent) _ _ (.refl s) fun _ sent _ _ => sent.trans (State.sendPkt_sent _ _ _ _)

/-- The operations that no PROBE of this hop is among leave the data as they are (R207). -/
theorem probeData_none (cyc : Word) {hix : Nat} {ops : List POp} (none : (ops.any fun o => o.opc == 0x0A && o.hop == hix) = false)
    (d : List Byte) : probeData cyc hix ops d = d := by
  induction ops generalizing d with
  | nil => rfl
  | cons o ops ih =>
    rw [List.any_cons, Bool.or_eq_false_iff] at none
    obtain ⟨first, rest⟩ := none
    have other : ¬(o.opc = 0x0A ∧ o.hop = hix) := by simpa using first
    simp [probeData, other, ih rest]

/-- The packet as this device passes it on: it has come in at the port, and its next hop is the device's (R206). -/
def Pkt.arrived (port : Nat) (k : Pkt) : Pkt := { k with hix := (k.hix + 1) % 8, nrb := k.nrb + 1, rb := k.rb ++ [port] }

/-- The data of a packet with the clock of this device added to its PROBEs (R207). -/
def State.probed (port : Nat) (s : State) (k : Pkt) : Pkt :=
  { k.arrived port with data := probeData (s.die (port / 4)).cyc ((k.hix + 1) % 8) k.ops k.data }

section
variable {s : State} {port : Nat} {bs : List Byte}

theorem exec_peerPacketReceive (inside : port < 16) : exec (.peerPacketReceive port bs) s = .next (s.receivePkt port bs) := by
  simp [exec, execPeerPacketReceive, Nat.not_le.2 inside]

/-- A malformed packet is counted (R208). -/
theorem State.receivePkt_malformed (bad : (Pkt.ofBytes bs).malformed bs.length = true) :
    (s.setPort port fun t => { t with malf := sat16 t.malf }).Sent (s.receivePkt port bs) := by
  simp only [State.receivePkt, if_pos bad]
  split
  · exact .refl _
  · exact State.nakPeer_sent _ _ _

theorem Pkt.routeFits (room : (Pkt.ofBytes bs).nrb ≤ 5) : ¬((!(Pkt.ofBytes bs).isAnswer && decide (5 < (Pkt.ofBytes bs).nrb)) = true) := by
  simp [Nat.not_lt.2 room]

variable (good : (Pkt.ofBytes bs).malformed bs.length = false)
include good

/-- A request whose return route is full is dropped (log 40). -/
theorem State.receivePkt_full (ask : (Pkt.ofBytes bs).isAnswer = false) (full : 5 < (Pkt.ofBytes bs).nrb) : s.receivePkt port bs = s := by
  simp [State.receivePkt, good, ask, full]

/-- A packet in transit goes on (R207). -/
theorem State.receivePkt_transit (room : (Pkt.ofBytes bs).isAnswer = true ∨ (Pkt.ofBytes bs).nrb ≤ 5) (more : 0 < (Pkt.ofBytes bs).nrt) :
    s.receivePkt port bs = s.sendPkt ((Pkt.ofBytes bs).rt.headD 0 % 16) none
      { s.probed port (Pkt.ofBytes bs) with nrt := (Pkt.ofBytes bs).nrt - 1, rt := (Pkt.ofBytes bs).rt.drop 1 } := by
  have here : ¬((!(Pkt.ofBytes bs).isAnswer && decide (5 < (Pkt.ofBytes bs).nrb)) = true) := by
    rcases room with answer | room
    · simp [answer]
    · exact Pkt.routeFits room
  simp only [State.receivePkt, good, if_neg here, if_pos more]
  rfl

variable (last : (Pkt.ofBytes bs).nrt = 0)
include last

/-- An answer is for who waits here (R211). -/
theorem State.receivePkt_answer (answer : (Pkt.ofBytes bs).resp = true) : s.receivePkt port bs = s.takeAnswer port (Pkt.ofBytes bs) := by
  simp [State.receivePkt, good, last, answer, Pkt.isAnswer]

variable (room : (Pkt.ofBytes bs).nrb ≤ 5) (ask : (Pkt.ofBytes bs).resp = false)
  (some : ((Pkt.ofBytes bs).ops.all fun o => o.opc == 0x0A) = false)
include room ask some

/-- A request of an earlier boot is counted and turned away (R208). -/
theorem State.receivePkt_stale (old : BitVec.ofNat 8 (Pkt.ofBytes bs).gen ≠ s.bgen) :
    s.receivePkt port bs = (s.setPort port fun t => { t with sgen := sat16 t.sgen }).nakPeer ((Pkt.ofBytes bs).arrived port).toBytes pSTALE := by
  simp only [State.receivePkt, if_neg (ne_true_of_eq_false good), if_neg (Pkt.routeFits room), if_neg (Nat.not_lt.2 last.le),
    if_neg (ne_true_of_eq_false ask), if_neg (ne_true_of_eq_false some), if_pos old]
  rfl

/-- A request of this boot is performed here (R207). -/
theorem State.receivePkt_request (now : BitVec.ofNat 8 (Pkt.ofBytes bs).gen = s.bgen) :
    s.receivePkt port bs = s.performOps port (s.probed port (Pkt.ofBytes bs)) := by
  simp only [State.receivePkt, if_neg (ne_true_of_eq_false good), if_neg (Pkt.routeFits room), if_neg (Nat.not_lt.2 last.le),
    if_neg (ne_true_of_eq_false ask), if_neg (ne_true_of_eq_false some), if_neg (not_not.2 now)]
  rfl

end
end Sys2Proof.Machine
end

section
/-! ### Answers to posted requests, and the timers of requests and waits (R211, R212, R220) -/

namespace Sys2Proof.Machine
open Config

theorem PlaneOnly.port {s t : State} (a : PlaneOnly s t) (n : Nat) : t.port n = s.port n := by
  rw [a.1]
  rfl

theorem dropFirst_congr {α : Type} {p q : α → Bool} {l : List α} (same : ∀ a ∈ l, p a = q a) : dropFirst p l = dropFirst q l := by
  induction l with
  | nil => rfl
  | cons a l ih =>
    rw [dropFirst, dropFirst, same a List.mem_cons_self, ih fun b mem => same b (List.mem_cons_of_mem a mem)]

/-- The first request that an answer is about is taken off its port's list (R212). -/
theorem State.answerReq_found {n : Nat} {p : PortReq → Bool} {q : PortReq} {s : State} (found : (s.port n).reqs.find? p = some q)
    (a : PortAns) : s.answerReq n p a = (s.setPort n fun t => { t with reqs := dropFirst p t.reqs }).portAnswer q a := by
  rw [State.answerReq, found]

section
variable {q : PortReq} {s : State} (asker : q.owner = .thread) (posted : q.posted = true)
include asker posted

theorem State.portAnswer_ack : s.portAnswer q .ack = s.storeDone q.core q.cxa := by
  simp [State.portAnswer, asker, posted]

theorem State.portAnswer_nak (r : BitVec 8) : s.portAnswer q (.nak r) = (s.recordFault q.core q.cxa r q.ea).storeDone q.core q.cxa := by
  simp [State.portAnswer, asker, posted]

variable {t : Thread} (there : s.findThr q.core q.cxa = some t) (near : t.place ≠ .record)
include there near

/-- A posted access that has been performed is outstanding no longer (R153). -/
theorem State.portAnswer_ack_counts : PlaneOnly s (s.portAnswer q .ack) ∧
    (s.portAnswer q .ack).findThr q.core q.cxa = some t.stored := by
  rw [State.portAnswer_ack asker posted, State.storeDone_eq]
  exact State.updImage_findThr there near Thread.stored_name

/-- One that has failed leaves its fault besides (R156). -/
theorem State.portAnswer_nak_counts (r : BitVec 8) : PlaneOnly s (s.portAnswer q (.nak r)) ∧
    (s.portAnswer q (.nak r)).findThr q.core q.cxa = some (t.keepsFault r q.ea).stored := by
  rw [State.portAnswer_nak asker posted, State.storeDone_eq, State.recordFault_eq]
  obtain ⟨-, -, -, place⟩ := Thread.keepsFault_name r q.ea t
  obtain ⟨first, faulted⟩ := State.updImage_findThr there near (Thread.keepsFault_name r q.ea)
  obtain ⟨second, counted⟩ := State.updImage_findThr faulted (place ▸ near) Thread.stored_name
  exact ⟨first.trans second, counted⟩

end

/-- A request that has waited 2^20 cycles is answered with NAK DEAD (R212). -/
theorem exec_portTimeout {s : State} {k port : Nat} {q : PortReq} (stands : s.portReqs[k]? = some (port, q))
    (late : 2 ^ 20 ≤ ((s.die (port / 4)).cyc - q.since).toNat) :
    exec (.portTimeout k) s = .next (s.answerReq port (fun r => decide (r = q)) (.nak pDEAD)) := by
  simp only [exec, execPortTimeout, stands, if_neg (Nat.not_lt.2 late)]

/-- A posted request that times out leaves its fault, and one outstanding access fewer (R156, R212). -/
theorem exec_portTimeout_posted {s : State} {k port : Nat} {q : PortReq} {t : Thread} (stands : s.portReqs[k]? = some (port, q))
    (waits : q ∈ (s.port port).reqs) (late : 2 ^ 20 ≤ ((s.die (port / 4)).cyc - q.since).toNat) (asker : q.owner = .thread)
    (posted : q.posted = true) (there : s.findThr q.core q.cxa = some t) (near : t.place ≠ .record) :
    ∃ u, exec (.portTimeout k) s = .next u ∧ u.mem = s.mem ∧ (u.port port).reqs.length + 1 = (s.port port).reqs.length ∧
      (u.findThr q.core q.cxa).map (fun v => (v.ctx.stc, v.res.fault)) =
        some (t.ctx.stc - 1#16, if t.res.fault.isNone && !t.res.faultShut then some (pDEAD, q.ea) else t.res.fault) := by
  have found : (s.port port).reqs.find? (fun r => decide (r = q)) = some q := by
    obtain ⟨r, found⟩ := Option.isSome_iff_exists.1 (List.find?_isSome (p := fun r => decide (r = q)).2 ⟨q, waits, by simp⟩)
    have same := List.find?_some found
    rw [found, of_decide_eq_true same]
  obtain ⟨plane, image⟩ := State.portAnswer_nak_counts (s := s.setPort port fun t => { t with reqs := dropFirst (fun r => decide (r = q)) t.reqs })
    asker posted there near pDEAD
  obtain ⟨fault, ctx⟩ := Thread.keepsFault_eq pDEAD q.ea t
  refine ⟨_, exec_portTimeout stands late, ?_⟩
  rw [State.answerReq_found found, plane.mem, plane.port, State.port_setPort, image]
  refine ⟨rfl, ?_, ?_⟩
  · exact length_dropFirst found
  · simp [Thread.stored, fault, ctx]

/-- A request of another device that has waited 2^19 cycles is answered with NAK DEAD (R220). -/
theorem exec_remoteWaitTimeout {s : State} {k src : Nat} {w : Waiter} {pk : List Byte} (stands : s.waiters[k]? = some w)
    (remote : w.remote = some (src, pk)) (kind : w.kind ≠ .aside) (late : 2 ^ 19 ≤ (s.now w.home - w.since).toNat) :
    exec (.remoteWaitTimeout k) s = .next (({ s with waiters := dropAt k s.waiters } : State).nakPeer pk pDEAD) := by
  have waited : (w.remote.isNone || w.kind == .aside || decide ((s.now w.home - w.since).toNat < 2 ^ 19)) = false := by
    rw [decide_eq_false (Nat.not_lt.2 late), remote, beq_eq_false_iff_ne.2 kind]
    rfl
  have turned : exec (.remoteWaitTimeout k) s = .next (w.nak pDEAD { s with waiters := dropAt k s.waiters }) := by
    simp only [exec, execRemoteWaitTimeout, stands, waited, Bool.false_eq_true, if_false]
  rw [turned, Waiter.nak, remote]

/-- An answer of one operation to a port without PROBEs is for the first request it is about (R212). -/
theorem State.takeAnswer_ack {s : State} {n : Nat} {k : Pkt} {o : POp} (only : k.ops = [o]) (ack : o.opc = 0x11)
    (noProbe : ∀ r ∈ (s.port n).reqs, r.isProbe = false) {q : PortReq} (found : (s.port n).reqs.find? k.isFor = some q) :
    s.takeAnswer n k = (s.setPort n fun t => { t with reqs := dropFirst k.isFor (s.port n).reqs }).portAnswer q .ack := by
  have same : ∀ r ∈ (s.port n).reqs, (!r.isProbe && { k with ops := [o] }.isFor r) = k.isFor r := fun r mem => by
    rw [noProbe r mem, ← only]
    rfl
  have none : ¬(((s.port n).reqs.any fun q => q.isProbe && k.isFor q) = true) := by
    simp +contextual [noProbe]
  have answer : o.answer k.data = some .ack := by simp [POp.answer, ack]
  simp only [State.takeAnswer, if_neg none, only, State.takeAnswers, answer]
  rw [State.answerReq_found ((List.find?_congr same).trans found), State.setPort, State.setPort, dropFirst_congr same]

end Sys2Proof.Machine
end

section
/-! ### A WRITE of another device that one home serves (R207, R219) -/

namespace Sys2Proof.Machine
open Config

theorem State.Sent.trying {s u : State} (a : s.Sent u) : u.trying = s.trying := by rw [a.1]

theorem State.Sent.empties {s u : State} (a : s.Sent u) : u.empties = s.empties := by rw [a.1]

theorem OutsideKept.mono {s u : State} {a n m : Nat} (le : n ≤ m) (kept : OutsideKept s u a n) : OutsideKept s u a m := by
  obtain ⟨bytes, full⟩ := kept
  exact ⟨fun b out => bytes b (by omega), fun b out => full b (by omega)⟩

theorem State.noteMask_serial (m : Nat) (task : BitVec 16) (l : Word) (s : State) :
    ({ s with serial := m } : State).noteMask task l = { s.noteMask task l with serial := m } := by
  by_cases new : (decide (task ≠ 0#16) && lfHK l && (look (lfHome l % 256) s.masks).isNone) = true
  · have noted : s.noteMask task l = { s with masks := s.masks ++ [(lfHome l % 256, s.homeMask (lfHome l % 256))] } := if_pos new
    rw [noted]
    exact if_pos new
  · have same : s.noteMask task l = s := if_neg new
    rw [same]
    exact if_neg new

/-- What a place is found to be does not depend on the serial number (R141). -/
theorem State.locate_serial {s t : State} {who : Who} {nd : Need} {g n : Nat} {l : Loc} (m : Nat) (h : s.locate who nd g n = .loc l t) :
    ({ s with serial := m } : State).locate who nd g n = .loc l { t with serial := m } := by
  unfold State.locate at h ⊢
  have area : ({ s with serial := m } : State).area who.lvlH nd g n = s.area who.lvlH nd g n := rfl
  rw [area]
  split at h
  · cases h
  · cases h; rfl
  · cases h; rfl
  · dsimp only at h ⊢
    split at h
    · cases h
    · next valid =>
      split at h
      · cases h
      · next inside =>
        split at h
        · cases h
        · next up =>
          cases h
          exact (if_neg valid).trans ((if_neg inside).trans (if_neg up))
  · have lookup : ({ s with serial := m } : State).lookup (({ s with serial := m } : State).coreCluster who.core) who.task g =
        s.lookup (s.coreCluster who.core) who.task g := rfl
    rw [lookup]
    split at h
    · cases h
    · cases h
    · split at h
      · cases h
      · split at h
        · next discarded =>
          cases h
          simp only [if_pos discarded]
        · next present =>
          cases h
          simp only [if_neg present]
          exact congrArg _ (State.noteMask_serial m who.task _ s)

theorem State.locate_of_locateEng {s t : State} {who : Who} {nd : Need} {g n : Nat} {l : Loc} (tried : s.trying.isSome = true)
    (found : s.locateEng who nd g n = .loc l t) : s.locate who nd g n = .loc l t := by
  obtain ⟨asker, trying⟩ := Option.isSome_iff_exists.1 tried
  unfold State.locateEng at found
  split at found
  · rw [trying] at found
    dsimp only at found
    split at found
    · cases found
    · cases found
  · exact found

/-- An access that reaches no place has no parts. -/
theorem State.farParts_nil {s u : State} {who : Who} {nd : Need} {l : List Nat} {g : Nat} (found : s.farParts who nd l g = some ([], u)) :
    l = [] ∧ u = s := by
  cases l with
  | nil =>
    cases found
    exact ⟨rfl, rfl⟩
  | cons m ns =>
    rw [State.farParts] at found
    split at found
    · obtain ⟨_, -, same⟩ := Option.map_eq_some_iff.1 found
      cases same
    · obtain ⟨_, -, same⟩ := Option.map_eq_some_iff.1 found
      cases same
    · obtain ⟨_, -, same⟩ := Option.map_eq_some_iff.1 found
      cases same
    · cases found

/-- The one place that an access from a port reaches is the one that its page, at hand, names. -/
theorem State.farParts_mem {s s1 : State} {who : Who} {nd : Need} {l : List Nat} {g n a h : Nat} {pg : Bool} {lf : Word}
    (tried : s.trying.isSome = true) (found : s.farParts who nd l g = some ([(.mem a h pg lf, n)], s1)) :
    l = [n] ∧ s.locate who nd g n = .loc (.mem a h pg lf) s1 := by
  cases l with
  | nil => cases found
  | cons m ns =>
    rw [State.farParts] at found
    split at found
    · next place =>
      obtain ⟨⟨ls, u⟩, rest, same⟩ := Option.map_eq_some_iff.1 found
      cases same
      obtain ⟨rfl, rfl⟩ := State.farParts_nil rest
      exact ⟨rfl, State.locate_of_locateEng tried place⟩
    · obtain ⟨_, -, same⟩ := Option.map_eq_some_iff.1 found
      cases same
    · obtain ⟨_, -, same⟩ := Option.map_eq_some_iff.1 found
      cases same
    · cases found

/-- Acknowledging each operation of a packet sends packets alone (R219). -/
theorem State.acks_sent (l : List POp) (level : State → Nat) (k : Pkt) (s : State) :
    s.Sent (l.foldl (fun s o => s.answerPeer (k.only o []).toBytes 0x11 (level s) []) s) :=
  List.foldlRecOn (motive := s.Sent) _ _ (.refl s) fun _ sent _ _ => sent.trans (State.sendPkt_sent _ _ _ _)

/-- An access of one part whose place is at hand. -/
theorem State.farParts_single {s s1 : State} {who : Who} {nd : Need} {g n a h : Nat} {pg : Bool} {lf : Word}
    (place : s.locate who nd g n = .loc (.mem a h pg lf) s1) : s.farParts who nd [n] g = some ([(.mem a h pg lf, n)], s1) := by
  have hit : s.locateEng who nd g n = .loc (.mem a h pg lf) s1 :=
    (State.locateEng_hit fun t missed => by rw [place] at missed; cases missed).trans place
  rw [State.farParts, hit]
  rfl

/-- A WRITE that one home serves writes its bytes there and is acknowledged (R207). -/
theorem State.performFar_write {port : Nat} {pkt : List Byte} {o : POp} {data : List Byte} {who : Who} {a h : Nat} {pg : Bool} {lf : Word}
    {s : State} (write : o.opc = 0x02) (plain : o.sub = 0) :
    (State.writeParts [(.mem a h pg lf, o.len)] data s).Sent (s.performFar port pkt o false data who [(.mem a h pg lf, o.len)]) := by
  have acked : s.performFar port pkt o false data who [(.mem a h pg lf, o.len)] =
      (Pkt.ofBytes pkt).ops.foldl (fun s o => s.answerPeer ((Pkt.ofBytes pkt).only o []).toBytes 0x11 (s.level h) [])
        (State.writeParts [(.mem a h pg lf, o.len)] data s) := by
    unfold State.performFar
    rw [write, plain]
    dsimp only
    rfl
  rw [acked]
  exact State.acks_sent _ (fun s => s.level h) _ _

/-- A write torn by what the path does to it leaves poison alone (R400). -/
theorem State.tear_only (a n : Nat) (s : State) : ∃ p, s.tear a n = { s with poison := p } := by
  unfold State.tear
  split
  · exact ⟨s.poison, rfl⟩
  · clear * -
    generalize (wordsOf a n).filter s.path.writes.contains = l
    induction l generalizing s with
    | nil => exact ⟨s.poison, rfl⟩
    | cons w l ih =>
      obtain ⟨p, torn⟩ := ih (s.addPoison (8 * w))
      exact ⟨p, torn⟩

/-- What a write of another device that nothing watches does at its home (R219). -/
theorem State.writeParts_one {a h n : Nat} {pg : Bool} {lf : Word} {data : List Byte} {s : State} (inv : s.Inv) (still : s.quiet = true) :
    let u := State.writeParts [(.mem a h pg lf, n)] data s
    u.thr = s.thr ∧ u.trying = s.trying ∧ u.readMem a (data.take n).length = data.take n ∧ OutsideKept s u a n := by
  obtain ⟨t, touched⟩ : ∃ t, t = if pg then s.touchL2 h a (effPolicy lf 0#2) true else s := ⟨_, rfl⟩
  have only : t = { s with cores := t.cores } := by
    rw [touched]
    split <;> rfl
  have quiet : t.quiet = true := by rw [only]; exact still
  obtain ⟨torn, tear⟩ := State.tear_only a (data.take n).length (t.writeMem a (data.take n))
  have written : State.writeParts [(.mem a h pg lf, n)] data s = { t.writeMem a (data.take n) with poison := torn } := by
    rw [State.writeParts, State.writeParts, ← touched, State.engWrite, if_neg Bool.false_ne_true, tear]
    exact State.afterWrite_unwatched (State.quiet_unwatched quiet _ _)
  have inv' : t.Inv := by rw [only]; exact inv
  obtain ⟨bytes, outside⟩ := State.writeMem_writes a (bs := data.take n) inv' rfl
  dsimp only
  rw [written]
  refine ⟨by rw [only]; rfl, by rw [only]; rfl, bytes, ?_⟩
  have kept : OutsideKept s (t.writeMem a (data.take n)) a (data.take n).length := by
    rw [only] at outside ⊢
    exact outside
  exact (kept.congr rfl rfl).mono (by simp)

/-- An access of another device that writes at one home which serves it (R207). -/
theorem State.accessFar_write {port ser : Nat} {k : Pkt} {o : POp} {a h g : Nat} {pg : Bool} {lf : Word} {task : BitVec 16} {s s1 : State}
    (write : o.opc = 0x02) (plain : o.sub = 0) (only : k.ops = [o]) (base : (inboundWindow k.rb k.win).1 + o.off = g)
    (as : (inboundWindow k.rb k.win).2 = task) (reach : s.area false o.need g o.len ≠ .none)
    (found : s.farParts (farWho port task) o.need (lineParts 40 g o.len) g = some ([(.mem a h pg lf, o.len)], s1))
    (live : s1.homeDead h = false) (ready : s1.chanWaits a = false) (sound : s1.chanFailed a = false) :
    (State.writeParts [(.mem a h pg lf, o.len)] (k.data.take o.reqData) s1).Sent (State.accessFar port ser k o s) := by
  have notFork : ¬(o.opc = 0x06) := by omega
  have writes : decide ((o.opc ≠ 0x02 ∨ 5 ≤ o.sub) ∧ ¬(o.opc = 0x01 ∧ o.sub = 2)) = false := by simp [write, plain]
  have one : decide (1 < k.ops.length) = false := by simp [only]
  have good : s1.partsBad false [(.mem a h pg lf, o.len)] = none := by simp [State.partsBad, live, sound]
  have now : s1.partsWait [(.mem a h pg lf, o.len)] = false := by simp [State.partsWait, ready]
  have performed : State.accessFar port ser k o s =
      s1.performFar port k.toBytes o false (k.data.take o.reqData) (farWho port task) [(.mem a h pg lf, o.len)] := by
    simp only [State.accessFar, base, as, if_neg notFork, if_neg reach, found, writes, one, good, now, Bool.false_eq_true, if_false]
  rw [performed]
  exact State.performFar_write write plain

/-- The first request of its source that asks for a write at hand performs it (R167, R207). -/
theorem State.performUnit_write {port ser : Nat} {k : Pkt} {o : POp} {s u : State} (write : o.opc = 0x02) (right : bit k.rgt 1 = true)
    (first : s.waiters = []) (done : State.accessFar port ser k o (s.asTried (.peer port)) = u) (hit : u.trying = some (.peer port, [])) :
    s.performUnit port ser k o =
      { u with trying := s.trying, asks := u.asks.filter fun e => !(e.1 == .peer port && e.2.why.isSome) } := by
  have rights : ¬((o.right.any fun b => !bit k.rgt b) = true) := by simp [POp.right, write, right]
  have order : ¬(s.asideBefore port ser k = true) := by simp [State.asideBefore, first]
  have notPart : ¬(o.opc = 0x08 ∨ o.opc = 0x09) := by omega
  have notMessage : ¬(o.opc = 0x05 ∨ o.opc = 0x07) := by omega
  simp only [State.performUnit, if_neg notPart, if_neg rights, if_neg order, if_neg notMessage, State.tryPort, done, hit, Option.map_some]

/-- A request of one operation is performed as it stands (R207). -/
theorem State.performOps_one {port : Nat} {k : Pkt} {o : POp} {s : State} (only : k.ops = [o]) (here : o.hop = k.hix) (work : o.opc ≠ 0x0A) :
    s.performOps port k = State.performUnit port s.serial (k.only o (k.data.take o.reqData)) o { s with serial := s.serial + 1 } := by
  have unit : k.units k.ops k.data false = [k.only o (k.data.take o.reqData)] := by
    rw [only]
    simp [Pkt.units, here, work, Pkt.only]
  rw [State.performOps, unit]
  rfl

/-- A WRITE of one line with the right W changes its bytes and no other (R207, R219). -/
theorem State.performOps_write {port a h g : Nat} {k : Pkt} {o : POp} {pg : Bool} {lf : Word} {task : BitVec 16} {s s1 : State}
    (inv : s.Inv) (still : s.quiet = true) (only : k.ops = [o]) (here : o.hop = k.hix) (write : o.opc = 0x02) (plain : o.sub = 0)
    (right : bit k.rgt 1 = true) (base : (inboundWindow k.rb k.win).1 + o.off = g) (as : (inboundWindow k.rb k.win).2 = task)
    (reach : s.area false o.need g o.len ≠ .none)
    (found : (s.asTried (.peer port)).farParts (farWho port task) o.need (lineParts 40 g o.len) g = some ([(.mem a h pg lf, o.len)], s1))
    (live : s.homeDead h = false) (ready : s.chanWaits a = false) (sound : s.chanFailed a = false) :
    let u := s.performOps port k
    u.thr = s.thr ∧ u.readMem a (k.data.take o.len).length = k.data.take o.len ∧ OutsideKept s u a o.len := by
  obtain ⟨whole, place⟩ := State.farParts_mem rfl found
  obtain ⟨masks, peers1, peers2, rfl⟩ := State.locate_only place
  have again := State.farParts_single (State.locate_serial (s.serial + 1) place)
  rw [← whole] at again
  have done := State.accessFar_write (port := port) (ser := s.serial) (k := k.only o (k.data.take o.reqData))
    (s := ({ s with serial := s.serial + 1 } : State).asTried (.peer port)) write plain rfl base as reach again live ready sound
  have none : s.waiters = [] := by
    simp only [State.quiet, Bool.and_eq_true, List.isEmpty_iff] at still
    exact still.1
  obtain ⟨thr, trying, bytes, outside⟩ := State.writeParts_one (h := h) (n := o.len) (pg := pg) (lf := lf)
    (data := (k.only o (k.data.take o.reqData)).data.take o.reqData)
    (s := { s.asTried (.peer port) with serial := s.serial + 1, masks := masks, peers1 := peers1, peers2 := peers2 }) (a := a) inv still
  have length : o.len ≤ o.reqData := by
    have rounded : o.reqData = up8 o.len := by simp [POp.reqData, write, plain]
    rw [rounded, up8]
    omega
  have data : ((k.only o (k.data.take o.reqData)).data.take o.reqData).take o.len = k.data.take o.len := by
    simp [Pkt.only, List.take_take, length]
  dsimp only
  have unit := State.performUnit_write (ser := s.serial) (s := { s with serial := s.serial + 1 }) (k := k.only o (k.data.take o.reqData))
    write right none rfl (done.trying.trans trying)
  rw [State.performOps_one only here (by omega), unit]
  refine ⟨done.thr.trans thr, ?_, ?_⟩
  · rw [data] at bytes
    exact (congrArg (Memory.read · a _) done.mem).trans bytes
  · exact outside.congr done.mem done.empties

end Sys2Proof.Machine
end

section
/-! ### Links and peers, settled -/

namespace Sys2Proof.Machine
open Config

/-- Settles O49: each event of a port, a packet or a timer is the named step of its rule; a port that goes DOWN stays DOWN, since nothing
that its refused requests bring about changes the state of a link. -/
theorem linkAndPeerEvents : Obligations.LinkAndPeerEvents := by
  unfold Obligations.LinkAndPeerEvents
  intro s port inside p cyc
  refine ⟨fun up => ⟨fun bs bad => ?_, fun bs good data => ?_, fun lack => ?_⟩, fun notDown notUp bs flit => ?_, fun lane => ?_,
    fun notDown silent => ?_, fun down => ?_, fun training => ?_, fun bs => ?_,
    fun k q t stands waits late asker posted there near => ?_, fun k w src pk stands remote kind late => ?_⟩
  · exact ⟨_, exec_linkFlitReceive_bad inside up bad, rfl, State.port_setPort _ _ _, fun n other => State.port_setPort_other _ other⟩
  · intro l more few
    exact exec_linkFlitReceive_held inside up good data rfl more few
  · intro n
    refine ⟨_, exec_linkRetryReceive_up inside up lack, fun few => ?_, fun many => State.takeRetry_down lack many⟩
    obtain ⟨u, counted, rest⟩ := State.takeRetry_counted up lack few
    rw [counted]
    exact rest
  · refine ⟨_, exec_linkFlitReceive_training inside notDown notUp flit, rfl, ?_⟩
    rw [State.port_hear]
  · exact ⟨_, exec_laneFail inside lane, rfl, fun n other => State.port_setPort_other _ other, State.laneFailed_lanes lane,
      State.laneFailed_width lane⟩
  · exact ⟨_, exec_linkSilenceDown inside notDown silent, State.linkDown_st port s, fun noReplay noQueue => State.linkDown_empty noReplay noQueue⟩
  · obtain ⟨thr, mem, f, flue, cause⟩ := State.setLink_reports port 1#3 (s.hear port)
    refine ⟨_, f, exec_linkTrain_down inside down, thr, mem, ?_, flue, cause⟩
    rw [State.port_setLink]
  · obtain ⟨thr, mem, f, flue, cause⟩ := State.setLink_reports port 2#3 (s.setPort port (Port.trained cyc))
    refine ⟨_, f, exec_linkTrain_training inside training, thr, mem, ?_, ?_, ?_, ?_, flue, cause⟩
    · rw [State.port_setLink]
    · simp [Port.trained]
    · simp [Port.trained]
    · simp [Port.trained, cyc]
  · intro k
    refine ⟨fun bad => ?_, fun good ask full => ?_, fun good room more => ?_, fun good last room ask some old => ?_,
      fun o a h pg lf s1 good last room ask only write plain now here right inv still => ?_,
      fun o q t good last answer only ack noProbe found asker posted there near => ?_⟩
    · have sent := State.receivePkt_malformed (s := s) (port := port) bad
      refine ⟨_, exec_peerPacketReceive inside, sent.thr, sent.mem, ?_⟩
      rw [(sent.port port).malf, State.port_setPort]
    · rw [exec_peerPacketReceive inside, State.receivePkt_full good ask full]
    · refine ⟨_, (exec_peerPacketReceive inside).trans (congrArg _ (State.receivePkt_transit good room more)), rfl, fun none => ?_⟩
      exact congrArg (List.take _) (probeData_none _ none _)
    · have stale := State.receivePkt_stale good last room ask some old (port := port)
      have sent := State.nakPeer_sent (k.arrived port).toBytes pSTALE (s.setPort port fun t => { t with sgen := sat16 t.sgen })
      refine ⟨_, (exec_peerPacketReceive inside).trans (congrArg _ stale), sent.thr, sent.mem, ?_⟩
      rw [(sent.port port).sgen, State.port_setPort]
    · intro w g reach place live ready sound
      have work : (k.ops.all fun o => o.opc == 0x0A) = false := by simp [only, write]
      have none : (k.ops.any fun o => o.opc == 0x0A && o.hop == (k.hix + 1) % 8) = false := by simp [only, write]
      obtain ⟨thr, bytes, outside⟩ := State.performOps_write (k := s.probed port k) inv still only here write plain right rfl rfl reach place
        live ready sound
      have data : (s.probed port k).data = k.data := probeData_none _ none _
      rw [data] at bytes
      exact ⟨_, (exec_peerPacketReceive inside).trans (congrArg _ (State.receivePkt_request good last room ask work now)), thr, bytes, outside⟩
    · have taken := (State.receivePkt_answer good last answer).trans (State.takeAnswer_ack only ack noProbe found)
      obtain ⟨plane, image⟩ := State.portAnswer_ack_counts asker posted
        (s := s.setPort port fun t => { t with reqs := dropFirst k.isFor p.reqs }) there near
      refine ⟨_, (exec_peerPacketReceive inside).trans (congrArg _ taken), plane.mem, ?_, ?_⟩
      · rw [plane.port, State.port_setPort]
      · rw [image]
        rfl
  · exact exec_portTimeout_posted stands waits late asker posted there near
  · exact exec_remoteWaitTimeout stands remote kind late

end Sys2Proof.Machine
end

section
/-! ### A pan command that a grant admits (O50)

R270: a thread that issues `mz`, `mmac`, `mld` or `mst` while its core has no open term parks, its core requests, and once the term opens the
command is admitted. LEASE_GRANT serves the threads that wait on the lease in the same step, so the term it leaves already counts the commands
that it has admitted (R269, R283). -/

namespace Sys2Proof.Machine

/-- `mz` of accumulator 0. -/
def zeroArgs : Args := ⟨⟨false, 0#3, 0#4, 0#2, false⟩, .imm 1#21, .absent, .absent⟩

/-- A thread of core 2 at level U issues; nobody holds the lease of its cluster. -/
def zeroIssues : State :=
  let s := State.reset.withFetchWord 96 0
  { s with thr := { s.thr with core := 2, ctx := { s.thr.ctx with st := 0#64 } } }

/-- The command that the thread has captured. -/
def zeroCommand : PanCmd :=
  { core := 2, cxa := zeroIssues.thr.ctx.cxa, ins := .mz zeroArgs, ctl := 1#64, b := 0#64, c := 0#64, task := 0#16, lvlH := false, join := none }

/-- The thread is parked on its pan command. -/
def zeroParked : State :=
  { zeroIssues with
    thr := { zeroIssues.thr.unbind with
      parked := true, wait := .on .panQ, waitOn := some .panQ, stamp := zeroIssues.serial
      res := { zeroIssues.thr.unbind.res with cmds := 1, pan := some zeroCommand } }
    serial := zeroIssues.serial + 1 }

/-- The `mz` itself leads there: its core has no open term. -/
theorem exec_mz_zeroIssues : exec (.mz zeroArgs) zeroIssues = .next zeroParked := by rfl

/-- The grant meets every condition of the statement: the lease of cluster 1 is free, and core 2 requests it. -/
theorem zeroParked_requests : Memory.wf zeroParked.mem = true ∧ zeroParked.quiet = true ∧ (zeroParked.cluster 1).lease.holder = none ∧
    (roundRobin (zeroParked.cluster 1).lease.last (zeroParked.clusterCores 1)).find? zeroParked.requesting = some 2 := by
  decide +kernel

/-- The commands that the lease of a cluster counts after a step. -/
def leaseCountAfter (i : Instr) (k : Nat) (s : State) : Option Nat :=
  match exec i s with
  | .next u => some (u.cluster k).lease.cmds
  | _ => none

/-- The grant has admitted the `mz`. -/
theorem leaseCountAfter_zeroParked : leaseCountAfter (.leaseGrant 1) 1 zeroParked = some 1 := by decide +kernel

/-- Refutes O50: a LEASE_GRANT admits the pan command that a thread of the core has parked on (R269, R270), which counts against the term, where
the statement has the new term count no command. -/
theorem not_engineEvents : ¬ Obligations.EngineEvents := by
  unfold Obligations.EngineEvents
  intro h
  obtain ⟨inv, quiet, free, requests⟩ := zeroParked_requests
  obtain ⟨-, -, -, grant, -⟩ := h zeroParked 1 inv quiet
  obtain ⟨u, granted, lease⟩ := grant 2 free requests
  have counted := leaseCountAfter_zeroParked
  simp only [leaseCountAfter, granted, lease, Option.some.injEq] at counted
  exact absurd counted (by decide)

end Sys2Proof.Machine
end

section
/-! ### The pan at issue (O36)

A command of an engine counts for its thread and for the thread's open join record, and is admitted to the pan queue (R104, R185, R273);
`Counted` says what the counting leaves alone. -/

namespace Sys2Proof.Machine

/-! ### Counting a command -/

/-- `t` is `s` with one command more counted for the thread that issues, and maybe for a join record of its core (R104, R185). -/
def Counted (s t : State) : Prop :=
  ∃ cores, t = { s.mapRes (fun r => { r with cmds := r.cmds + 1 }) with cores := cores } ∧
    ∀ n, ∃ joins, t.core n = { s.core n with joins := joins }

theorem State.joinTag_counts (s : State) : Counted s s.joinTag.2 := by
  unfold State.joinTag
  dsimp only
  split
  · refine ⟨_, rfl, fun n => ?_⟩
    by_cases own : n = s.thr.core
    · subst own
      exact ⟨_, State.core_setCore _ _ _⟩
    · exact ⟨_, State.core_setCore_other _ _ _ _ own⟩
  · exact ⟨s.cores, rfl, fun n => ⟨_, rfl⟩⟩

section
variable {s t : State} (counted : Counted s t)
include counted

theorem Counted.thr : t.thr = { s.thr with res := { s.thr.res with cmds := s.thr.res.cmds + 1 } } := by
  obtain ⟨cores, rfl, -⟩ := counted
  rfl

theorem Counted.thr_core : t.thr.core = s.thr.core := by rw [counted.thr]

theorem Counted.kept : MemKept s t := by
  obtain ⟨cores, rfl, -⟩ := counted
  exact .refl s

theorem Counted.task : t.task = s.task := by
  obtain ⟨cores, rfl, -⟩ := counted
  rfl

theorem Counted.coreCluster (n : Nat) : t.coreCluster n = s.coreCluster n := by
  obtain ⟨cores, rfl, -⟩ := counted
  rfl

theorem Counted.cluster (k : Nat) : t.cluster k = s.cluster k := by
  obtain ⟨cores, rfl, -⟩ := counted
  rfl

theorem Counted.aheadOf (r : Resource) : t.aheadOf r = s.aheadOf r := by
  obtain ⟨cores, rfl, -⟩ := counted
  rfl

theorem Counted.termOpen (n : Nat) : t.termOpen n = s.termOpen n := by
  obtain ⟨cores, rfl, -⟩ := counted
  rfl

/-- Of a core, only its join records change. -/
theorem Counted.coreField {β : Type} {p : CoreSt → β} (free : ∀ c joins, p { c with joins := joins } = p c) (n : Nat) :
    p (t.core n) = p (s.core n) := by
  obtain ⟨cores, -, core⟩ := counted
  obtain ⟨joins, is⟩ := core n
  rw [is, free]

theorem Counted.panRoom (n : Nat) : t.panRoom n = s.panRoom n := by
  rw [State.panRoom, State.panRoom, counted.termOpen, counted.coreCluster, counted.cluster,
    counted.coreField (p := CoreSt.panQ) fun _ _ => rfl]

/-- A word that captures its sources and whose command is counted is past them; `f` says what it writes to its thread's context. -/
theorem Counted.advanced {s0 s1 u : State} {f : Ctx → Ctx} (fe : FeOnly s0 s1) (thr0 : s.thr = s1.thr) (kept0 : MemKept s1 s)
    (pc : ∀ c, (f c).pc = c.pc) (thr : u.thr = { t.thr with ctx := f t.thr.ctx }) (kept : MemKept t u) (h : Head) :
    (Eff.finish h s0 (.done u)).thr.res.cmds = s0.thr.res.cmds + 1 ∧ Advanced s0 (Eff.finish h s0 (.done u)) (f s1.thr.ctx) := by
  have counts : u.thr = { s1.thr with ctx := f s1.thr.ctx, res := { s1.thr.res with cmds := s1.thr.res.cmds + 1 } } := by
    rw [thr, counted.thr, thr0]
  refine ⟨?_, finish_done_advanced (fe.ctxOnly.same.trans ?_) (((fe.ctxOnly.kept.trans kept0).trans counted.kept).trans kept) ?_ ?_⟩
  · refine (State.retire_resField (f := Resume.cmds) (fun _ _ _ _ _ => rfl) h _).trans ?_
    show u.thr.res.cmds = _
    rw [counts, ← fe.res]
  · rw [SameThread, counts]
    exact ⟨rfl, rfl, rfl⟩
  · rw [State.pc, counts]
    exact (pc _).trans fe.pc
  · rw [counts, Thread.final, ← fe.res]

end

/-! ### The lease (R269, R283, R284) -/

theorem FeOnly.panRoom {s t : State} (a : FeOnly s t) (n : Nat) : t.panRoom n = s.panRoom n := by
  obtain ⟨fe, rfl⟩ := a
  rfl

theorem FeOnly.cluster {s t : State} (a : FeOnly s t) (k : Nat) : t.cluster k = s.cluster k := by
  obtain ⟨fe, rfl⟩ := a
  rfl

theorem FeOnly.coreCluster {s t : State} (a : FeOnly s t) (n : Nat) : t.coreCluster n = s.coreCluster n := by
  obtain ⟨fe, rfl⟩ := a
  rfl

/-- The end of an instruction leaves every cluster. -/
theorem finish_done_cluster (h : Head) (s0 t : State) (k : Nat) : (Eff.finish h s0 (.done t)).cluster k = t.cluster k := by
  obtain ⟨rest, -⟩ : OnlyThread t (Eff.finish h s0 (.done t)) := finish_done_only
  rw [rest]
  rfl

/-- The holder of a lease whose term is open closes it. -/
theorem State.closeTerm_cluster {n : Nat} {s : State} (term : s.termOpen n = true) :
    (s.closeTerm n).cluster (s.coreCluster n) =
      { s.cluster (s.coreCluster n) with lease := { (s.cluster (s.coreCluster n)).lease with opened := false } } := by
  simp only [State.termOpen, Lease.isOpen, Bool.and_eq_true, decide_eq_true_eq] at term
  rw [State.closeTerm, State.cluster_setCluster, if_pos term.1.1]

section
variable {x : Args} {s : State}

theorem exec_lse_reads (e : s.enabled x.h = true) (free : x.a.free s = true) (stores : s.noStores = true)
    (term : s.termOpen s.thr.core = true) :
    exec (.lse x) s = .next (Eff.finish x.h s (.done ((s.writeX x.a.rix
      ((s.cluster s.myCluster).lease.word (s.now s.thr.core) s.thr.res.newTerm.isSome)).mapRes fun r => { r with newTerm := none }))) := by
  show execLse x s = _
  rw [execLse, issue_enabled e, withDest_free free, withStores_none stores, if_pos term]

theorem exec_lsr_ends (e : s.enabled x.h = true) (stores : s.noStores = true) :
    exec (.lsr x) s = .next (Eff.finish x.h s
      (.done (if s.termOpen s.thr.core then s.closeTerm s.thr.core else s))) := by
  show execLsr x s = _
  rw [execLsr, issue_enabled e, withStores_none stores]

end

/-! ### Admission (R272, R273) -/

/-- An operand of a pan command that passes its checks gives its storage address; an absent one gives 0 (R272). -/
theorem withPanArray_passes {o : Opnd} {nd : Need} {n a : Nat} {v : Word} {s : State} {k : Nat → Eff}
    (passes : (if o.isReg then s.arrayAt nd v 64 n 64 else some 0) = some a) : withPanArray o nd n v s k = k a := by
  unfold withPanArray
  split at passes
  · next reg =>
    rw [if_pos reg]
    exact withArray_arrayAt passes
  · next absent =>
    rw [if_neg absent]
    cases passes
    rfl

/-- The command of a pan instruction with the storage addresses of its operands (R273). -/
def State.panCmd (i : Instr) (ctl : Word) (b c : Nat) (s : State) : PanCmd :=
  { core := s.thr.core, cxa := s.thr.ctx.cxa, ins := i, ctl := ctl, b := BitVec.ofNat 64 b, c := BitVec.ofNat 64 c, task := s.task
    lvlH := s.levelH, join := s.joinTag.1 }

theorem State.admitPan_panQ (q : PanCmd) (s : State) : ((s.admitPan q).core q.core).panQ = (s.core q.core).panQ ++ [q] :=
  congrArg CoreSt.panQ (State.core_setCore q.core (fun c => { c with panQ := c.panQ ++ [q] }) s)

theorem State.admitPan_thr (q : PanCmd) (s : State) : (s.admitPan q).thr = s.thr := rfl

theorem State.admitPan_kept (q : PanCmd) (s : State) : MemKept s (s.admitPan q) := .of_eq rfl rfl rfl

/-- The command counts against the term, and no accumulator changes (R269). -/
theorem State.admitPan_cluster (q : PanCmd) (s : State) :
    let c := (s.admitPan q).cluster (s.coreCluster q.core)
    c.lease.cmds = (s.cluster (s.coreCluster q.core)).lease.cmds + 1 ∧ c.accs = (s.cluster (s.coreCluster q.core)).accs := by
  dsimp only
  rw [State.admitPan, State.cluster_setCluster, State.ungate, State.cluster_setCluster]
  exact ⟨rfl, rfl⟩

/-- A pan instruction whose sources are captured, whose operands pass and whose command has room has it admitted. -/
theorem panOp_admits {op : POpr} {i : Instr} {o : BitVec 8} {t : Ty} {x : Args} {s : State} {b c : Nat} (e : s.enabled x.h = true)
    (readyA : x.a.ready s = true) (readyBC : x.readyBC (x.a.after s) = true) (stores : (x.afterABC s).noStores = true)
    (ctl : ctlOk (op == .mmac) (op == .mmac) (op == .mz) (x.a.val s) = true) (room : s.aheadOf .panQ < s.panRoom s.thr.core)
    (passB : (if x.b.isReg then
      (x.afterABC s).arrayAt (op.extent t (x.a.val s)).1 (x.b.val s) 64 (op.extent t (x.a.val s)).2 64 else some 0) = some b)
    (passC : (if x.c.isReg then
      (x.afterABC s).arrayAt (op.extent t (x.a.val s)).1 (x.c.val s) 64 (op.extent t (x.a.val s)).2 64 else some 0) = some c) :
    panOp op i o t x s = .next (Eff.finish x.h s
      (.done ((x.afterABC s).joinTag.2.admitPan ((x.afterABC s).panCmd i (x.a.val s) b c)))) := by
  have fe : FeOnly s (x.afterABC s) := .afterABC x s
  have counted : Counted (x.afterABC s) (x.afterABC s).joinTag.2 := State.joinTag_counts _
  have core : (x.afterABC s).joinTag.2.thr.core = (x.afterABC s).thr.core := counted.thr_core
  have admits : (x.afterABC s).joinTag.2.aheadOf .panQ < (x.afterABC s).joinTag.2.panRoom (x.afterABC s).joinTag.2.thr.core := by
    rw [counted.aheadOf, core, counted.panRoom, fe.aheadOf, fe.thr_core, fe.panRoom]
    exact room
  rw [panOp, issue_enabled e, withSrc_ready readyA, withBC_ready (k := fun b c s => _) readyBC, ← Args.afterABC, withStores_none stores,
    if_neg (by rw [ctl]; decide), Opnd_val_after, Opnd_val_after]
  dsimp only
  rw [withPanArray_passes passB, withPanArray_passes passC, if_pos admits]
  obtain ⟨tag, cores, is, -⟩ := (x.afterABC s).joinTag_only
  rw [State.panCmd, is]
  rfl

/-- What the admission of the command `q` leaves behind. -/
theorem finish_admitPan {s s3 : State} (fe : FeOnly s s3) (i : Instr) (ctl : Word) (b c : Nat) (h : Head) :
    let u := Eff.finish h s (.done (s3.joinTag.2.admitPan (s3.panCmd i ctl b c)))
    (u.core s.thr.core).panQ = (s.core s.thr.core).panQ ++ [s3.panCmd i ctl b c] ∧
      (u.cluster s.myCluster).lease.cmds = (s.cluster s.myCluster).lease.cmds + 1 ∧ (u.cluster s.myCluster).accs = (s.cluster s.myCluster).accs ∧
      u.thr.res.cmds = s.thr.res.cmds + 1 ∧ Advanced s u s3.thr.ctx := by
  have counted : Counted s3 s3.joinTag.2 := s3.joinTag_counts
  have core : (s3.panCmd i ctl b c).core = s.thr.core := fe.thr_core
  have cluster : s3.joinTag.2.coreCluster (s3.panCmd i ctl b c).core = s.myCluster := by
    rw [core, counted.coreCluster, fe.coreCluster, State.myCluster]
  obtain ⟨cmds, accs⟩ := State.admitPan_cluster (s3.panCmd i ctl b c) s3.joinTag.2
  rw [cluster, counted.cluster, fe.cluster] at cmds accs
  refine ⟨?_, ?_, ?_, counted.advanced (f := id) fe rfl (.refl _) (fun _ => rfl) (State.admitPan_thr _ _) (State.admitPan_kept _ _) h⟩
  · rw [finish_done_coreField (f := CoreSt.panQ) (fun _ _ => rfl), ← core, State.admitPan_panQ,
      counted.coreField (p := CoreSt.panQ) (fun _ _ => rfl), fe.core_eq]
  · rw [finish_done_cluster]
    exact cmds
  · rw [finish_done_cluster]
    exact accs

/-- Settles O36: a pan command joins the queue of its core and counts against the open term, which `lse` reads and `lsr` closes. -/
theorem panInstructions : Obligations.PanInstructions := by
  unfold Obligations.PanInstructions
  intro x s e n k
  refine ⟨fun free stores term => ?_, fun stores term => ?_, fun stores closed => ?_, ?_⟩
  · refine ⟨_, exec_lse_reads e free stores term, finish_done_advanced (SameThread.refl s) (.refl s) rfl rfl, ?_⟩
    rw [finish_done_cluster]
    rfl
  · refine ⟨_, exec_lsr_ends e stores, ?_⟩
    rw [if_pos term]
    refine ⟨finish_done_advanced (SameThread.refl s) (.refl s) rfl rfl, ?_⟩
    rw [finish_done_cluster, show k = s.coreCluster n from rfl, State.closeTerm_cluster term]
    exact ⟨rfl, rfl⟩
  · refine ⟨_, exec_lsr_ends e stores, ?_⟩
    rw [if_neg (by rw [closed]; decide)]
    exact ⟨finish_done_leaves rfl rfl, finish_done_same, finish_done_only⟩
  · intro t p mem ctl s3 ext readyA readyBC stores ok room b c passB passC
    have fe : FeOnly s s3 := .afterABC x s
    obtain ⟨o, is⟩ : ∃ o, exec p.1 s = panOp p.2.1 p.1 o p.2.2 x s := by
      fin_cases mem <;> exact ⟨_, rfl⟩
    obtain ⟨tail, cmds, accs, counted, advanced⟩ := finish_admitPan fe p.1 ctl b c x.h
    exact ⟨_, _, is.trans (panOp_admits e readyA readyBC stores ok room passB passC), tail, rfl, rfl, rfl, rfl, rfl, fe.cxa, cmds, accs,
      counted, advanced⟩

end Sys2Proof.Machine
end

section
/-! ### Copies at issue (O37)

A copy takes the lowest free slot of its core with what its instruction captured (R289, R293); a `cpy` whose record is cached makes its entry
the most recently used one first, which no check of its spans sees (R294, R296). -/

namespace Sys2Proof.Machine

/-! ### The checks at issue (R296) -/

/-- A span of a copy that passes its checks gives the GVA of its base. -/
theorem withSpan_spanAt {nd : Need} {base : Word} {lo hi : Int} {z n a : Nat} {s : State} {k : Nat → Eff}
    (passes : s.spanAt nd base lo hi z n = some a) : withSpan nd base lo hi z n s k = k a := by
  unfold State.spanAt at passes
  unfold withSpan
  by_cases empty : n = 0
  · rw [if_pos empty] at passes ⊢
    cases passes
    rfl
  rw [if_neg empty] at passes ⊢
  rcases set : s.cachedSet s.thr.core s.task with _ | ts
  · rw [set] at passes
    cases passes
  rw [set] at passes
  dsimp only at passes ⊢
  rcases checked : s.span ts nd base lo hi z with g | ⟨code, sub, detail⟩
  · rw [checked] at passes
    cases passes
    rfl
  · rw [checked] at passes
    cases passes

/-- The record cache of the thread's core, with the entry `e` as its most recently used one (R294). -/
def State.useRec (e : RecEntry) (s : State) : State := s.setCore s.thr.core (CoreSt.install e)

theorem State.useRec_core (e : RecEntry) (s : State) (n : Nat) : ∃ recs, (s.useRec e).core n = { s.core n with recs := recs } := by
  by_cases own : n = s.thr.core
  · subst own
    exact ⟨_, State.core_setCore _ _ _⟩
  · exact ⟨_, State.core_setCore_other _ _ _ _ own⟩

/-- Of a core, the use of a record changes the record cache only. -/
theorem State.useRec_coreField {β : Type} {p : CoreSt → β} (free : ∀ c recs, p { c with recs := recs } = p c) (e : RecEntry) (s : State)
    (n : Nat) : p ((s.useRec e).core n) = p (s.core n) := by
  obtain ⟨recs, is⟩ := s.useRec_core e n
  rw [is, free]

theorem State.useRec_winLimit (e : RecEntry) (s : State) (n : Nat) (lvlH : Bool) : (s.useRec e).winLimit n lvlH = s.winLimit n lvlH :=
  State.useRec_coreField (p := fun c : CoreSt => if lvlH then c.spBytes else if isSpare n then 0 else c.spBytes - 256 * c.ibEntries)
    (fun _ _ => rfl) e s n

theorem State.useRec_homeDead (e : RecEntry) (s : State) (n : Nat) : (s.useRec e).homeDead n = s.homeDead n :=
  congrArg (fun dead => n != hostHome && (decide (Config.nCores ≤ n) || !s.live n || dead))
    (State.useRec_coreField (p := CoreSt.dead) (fun _ _ => rfl) e s n)

theorem State.useRec_area (e : RecEntry) (s : State) : (s.useRec e).area = s.area := by
  funext lvlH nd g n
  simp only [State.area, State.useRec_winLimit]

/-- The use of a record leaves the checks of every span. -/
theorem State.useRec_spanAt (e : RecEntry) (s : State) : (s.useRec e).spanAt = s.spanAt := by
  funext nd base lo hi z n
  have place : (s.useRec e).spanPlace = s.spanPlace := by
    funext a z hi base lowAt highAt
    simp only [State.spanPlace, State.useRec_homeDead]
    rfl
  have sets : (s.useRec e).cachedSet (s.useRec e).thr.core (s.useRec e).task = s.cachedSet s.thr.core s.task :=
    congrArg (List.find? fun f : TaskSet => f.task == s.task) (State.useRec_coreField (p := CoreSt.sets) (fun _ _ => rfl) e s s.thr.core)
  have level : (s.useRec e).levelH = s.levelH := rfl
  simp only [State.spanAt, State.span, sets, level, State.useRec_area, place]

/-! ### Taking a slot (R289, R293) -/

/-- The copy `q` takes slot `i` of the thread's core under generation `g`. -/
def State.takeCopy (i g : Nat) (q : CopySlot) (s : State) : State :=
  s.setCore s.thr.core fun c => { c with copies := c.copies ++ [q], copyGens := put i g c.copyGens }

/-- A copy as the thread that issues takes its slot with it. -/
def State.ownCopy (q : CopySlot) (s : State) : CopySlot :=
  { q with task := s.task, lvlH := s.levelH, join := s.joinTag.1, cxa := s.thr.ctx.cxa }

/-- With a free slot and nobody who waits for one before it, a copy takes the lowest one under its next generation. -/
theorem withCopySlot_takes {keep : Option (List Byte)} {mk : Nat → Nat → CopySlot} {s : State} {k : CopySlot → State → Eff} {i g : Nat}
    (fresh : freshFrom ((s.core s.thr.core).copies.map (·.slot)) 0 1024 = some i)
    (room : s.aheadOf .copySlot < 1024 - (s.core s.thr.core).copies.length)
    (gen : nextCopyGen ((look i (s.core s.thr.core).copyGens).getD 0) = g) :
    withCopySlot keep mk s k = k (s.ownCopy (mk i g)) (s.joinTag.2.takeCopy i g (s.ownCopy (mk i g))) := by
  obtain ⟨tag, cores, is, -⟩ := s.joinTag_only
  unfold withCopySlot
  dsimp only
  rw [fresh]
  dsimp only
  rw [if_pos room, gen, State.takeCopy, State.ownCopy, is]
  rfl

theorem State.takeCopy_thr (i g : Nat) (q : CopySlot) (s : State) : (s.takeCopy i g q).thr = s.thr := rfl

theorem State.takeCopy_kept (i g : Nat) (q : CopySlot) (s : State) : MemKept s (s.takeCopy i g q) := .of_eq rfl rfl rfl

theorem State.takeCopy_copies (i g : Nat) (q : CopySlot) (s : State) :
    ((s.takeCopy i g q).core s.thr.core).copies = (s.core s.thr.core).copies ++ [q] :=
  congrArg CoreSt.copies (State.core_setCore _ _ _)

/-- What a copy that has taken its slot leaves behind; `f` says what the word writes to its thread's context. -/
theorem finish_takeCopy {s s1 s3 : State} {f : Ctx → Ctx} (fe : FeOnly s s1) (thr : s3.thr = s1.thr) (kept : MemKept s1 s3)
    (copies : (s3.core s.thr.core).copies = (s.core s.thr.core).copies) (pc : ∀ c, (f c).pc = c.pc) (i g : Nat) (q : CopySlot) (h : Head) :
    let u := Eff.finish h s (.done ((s3.joinTag.2.takeCopy i g q).mapCtx f))
    (u.core s.thr.core).copies = (s.core s.thr.core).copies ++ [q] ∧ u.thr.res.cmds = s.thr.res.cmds + 1 ∧ Advanced s u (f s1.thr.ctx) := by
  have counted : Counted s3 s3.joinTag.2 := s3.joinTag_counts
  have core : s3.joinTag.2.thr.core = s.thr.core := by rw [counted.thr_core, thr, fe.thr_core]
  have keeps : MemKept s3.joinTag.2 ((s3.joinTag.2.takeCopy i g q).mapCtx f) :=
    (State.takeCopy_kept i g q _).trans (CtxOnly.mapCtx f _).kept
  refine ⟨?_, counted.advanced fe thr kept pc (by rw [State.mapCtx_thr, State.takeCopy_thr]) keeps h⟩
  rw [finish_done_coreField (f := CoreSt.copies) (fun _ _ => rfl), ← copies,
    ← counted.coreField (p := CoreSt.copies) (fun _ _ => rfl) s.thr.core, ← core]
  exact State.takeCopy_copies i g q _

/-! ### `cpl` and `cpf` (R306, R307) -/

/-- The copy that `cpl` takes a slot for (R306). -/
def State.linearCopy (x : Args) (s : State) (src dst n : Nat) (i g : Nat) : CopySlot :=
  { (newCopy i g x.h.cp) with
    src := BitVec.ofNat 64 src, dst := BitVec.ofNat 64 dst, count := n, chan := BitVec.ofNat 3 (slenCh s.thr.ctx.slen)
    tag := slenTag s.thr.ctx.slen }

/-- The copy that `cpf` takes a slot for (R307). -/
def State.fillCopy (kind : CopyKind) (x : Args) (s : State) (dst n : Nat) (v : Word) (i g : Nat) : CopySlot :=
  { (newCopy i g x.h.cp) with
    kind := kind, dst := BitVec.ofNat 64 dst, count := n, pattern := v, chan := BitVec.ofNat 3 (slenCh s.thr.ctx.slen)
    tag := slenTag s.thr.ctx.slen }

section
variable {x : Args} {s : State} {i g : Nat}
  (fresh : freshFrom ((s.core s.thr.core).copies.map (·.slot)) 0 1024 = some i)
  (room : s.aheadOf .copySlot < 1024 - (s.core s.thr.core).copies.length)
  (gen : nextCopyGen ((look i (s.core s.thr.core).copyGens).getD 0) = g)
include fresh room gen

/-- A word of three sources takes its slot in the state in which they have been read. -/
theorem withCopySlot_afterABC (mk : Nat → Nat → CopySlot) :
    withCopySlot none mk (x.afterABC s) (fun _ s => .done s) = .done ((x.afterABC s).joinTag.2.takeCopy i g ((x.afterABC s).ownCopy (mk i g))) := by
  have fe : FeOnly s (x.afterABC s) := .afterABC x s
  refine withCopySlot_takes ?_ ?_ ?_
  · rw [fe.thr_core, fe.core_eq]
    exact fresh
  · rw [fe.aheadOf, fe.thr_core, fe.core_eq]
    exact room
  · rw [fe.thr_core, fe.core_eq]
    exact gen

variable (e : s.enabled x.h = true) (readyA : x.a.ready s = true) (readyBC : x.readyBC (x.a.after s) = true) (stores : (x.afterABC s).noStores = true)
include e readyA readyBC stores

theorem exec_cpl_takes {src dst : Nat} (small : (x.c.val s).toNat < 2 ^ 40)
    (source : (x.afterABC s).spanAt nCopySrc (x.b.val s) 0 (((x.c.val s).toNat : Int) - 1) 1 (x.c.val s).toNat = some src)
    (target : (x.afterABC s).spanAt (nCopyDst true) (x.a.val s) 0 (((x.c.val s).toNat : Int) - 1) 1 (x.c.val s).toNat = some dst) :
    exec (.cpl x) s = .next (Eff.finish x.h s (.done ((x.afterABC s).joinTag.2.takeCopy i g
      ((x.afterABC s).ownCopy ((x.afterABC s).linearCopy x src dst (x.c.val s).toNat i g))))) := by
  show execCpl x s = _
  rw [execCpl, issue_enabled e, withSrc_ready readyA, withBC_ready (k := fun b c s => _) readyBC, ← Args.afterABC, withStores_none stores,
    Opnd_val_after, Opnd_val_after]
  dsimp only
  rw [if_neg (Nat.not_le.2 small), withSpan_spanAt source, withSpan_spanAt target]
  exact congrArg (fun f => Host.Outcome.next (Eff.finish x.h s f)) (withCopySlot_afterABC fresh room gen _)

theorem fillOp_takes {kind : CopyKind} {dst : Nat} (small : (x.b.val s).toNat < 2 ^ 40) (words : (x.b.val s).toNat % 8 = 0)
    (aligned : (x.b.val s).toNat = 0 ∨ (x.a.val s).toNat % 8 = 0)
    (target : (x.afterABC s).spanAt (nCopyDst (kind == .fillFull)) (x.a.val s) 0 (((x.b.val s).toNat : Int) - 8) 8 (x.b.val s).toNat = some dst) :
    fillOp kind x s = .next (Eff.finish x.h s (.done ((x.afterABC s).joinTag.2.takeCopy i g
      ((x.afterABC s).ownCopy ((x.afterABC s).fillCopy kind x dst (x.b.val s).toNat (x.c.val s) i g))))) := by
  rw [fillOp, issue_enabled e, withSrc_ready readyA, withBC_ready (k := fun b c s => _) readyBC, ← Args.afterABC, withStores_none stores,
    Opnd_val_after, Opnd_val_after]
  dsimp only
  rw [if_neg (by omega), if_neg (by omega), withSpan_spanAt target]
  exact congrArg (fun f => Host.Outcome.next (Eff.finish x.h s f)) (withCopySlot_afterABC fresh room gen _)

end

/-! ### `cpy` (R305) -/

/-- The copy that `cpy` takes a slot for, with the record `bs` (R305). -/
def shapeCopy (x : Args) (bs : List Byte) (src dst : Nat) (i g : Nat) : CopySlot :=
  { (newCopy i g x.h.cp) with
    kind := .shape, src := BitVec.ofNat 64 src, dst := BitVec.ofNat 64 dst, esz := bits (at' bs 0x10 8) 0 3, dims := recDims bs
    count := dimsCount (recDims bs), chan := BitVec.ofNat 3 (bits (at' bs 0x10 8) 10 3), tag := BitVec.ofNat 32 (bits (at' bs 0x10 8) 32 32)
    flag := 0#64, flgv := wordAt bs 0x20, flgop := bit (at' bs 0x10 8) 13 }

/-- A record that is cached is captured from the cache (R294). -/
theorem withRecord_cached {reg : BitVec 4} {ea : Word} {s : State} {k : List Byte → State → Eff} {ts : TaskSet} {g : Nat} {r : RecEntry}
    (fresh : s.thr.res.record = none) (set : s.cachedSet s.thr.core s.task = some ts) (aligned : ea.toNat % 256 = 0)
    (gva : ts.gva nLoad ea 256 = some g) (area : s.area s.levelH nLoad g 256 ≠ .none)
    (cached : (s.core s.thr.core).recs.find? (fun e => e.task == s.task && e.gva == g) = some r) :
    withRecord reg ea s k = k r.image (s.useRec r) := by
  unfold withRecord
  dsimp only
  rw [fresh]
  dsimp only
  rw [withGva, set]
  dsimp only
  rw [if_neg (not_not.2 aligned), gva]
  dsimp only
  rw [if_neg area, cached]
  rfl

theorem exec_cpy_takes {x : Args} {s : State} {i g' g src dst : Nat} {ts : TaskSet} {r : RecEntry} (e : s.enabled x.h = true)
    (ready : x.readyBC s = true) (free : x.a.free (x.afterBC s) = true) (stores : (x.afterBC s).noStores = true)
    (fresh : freshFrom ((s.core s.thr.core).copies.map (·.slot)) 0 1024 = some i)
    (room : s.aheadOf .copySlot < 1024 - (s.core s.thr.core).copies.length)
    (gen : nextCopyGen ((look i (s.core s.thr.core).copyGens).getD 0) = g')
    (record : s.thr.res.record = none) (set : s.cachedSet s.thr.core s.task = some ts) (aligned : (x.ea s).toNat % 256 = 0)
    (gva : ts.gva nLoad (x.ea s) 256 = some g) (area : s.area s.levelH nLoad g 256 ≠ .none)
    (cached : (s.core s.thr.core).recs.find? (fun e => e.task == s.task && e.gva == g) = some r)
    (good : recBad r.image = false) (noFlag : wordAt r.image 0x18 = 0#64)
    (source : let z : Nat := 2 ^ bits (at' r.image 0x10 8) 0 3
      let reach := dimsReach (fun d => d.2.1) (recDims r.image)
      (x.afterBC s).spanAt nCopySrc (wordAt r.image 0) (reach.1 * z) (reach.2 * z) z (dimsCount (recDims r.image)) = some src)
    (target : let z : Nat := 2 ^ bits (at' r.image 0x10 8) 0 3
      let reach := dimsReach (fun d => d.2.2) (recDims r.image)
      (x.afterBC s).spanAt (nCopyDst true) (wordAt r.image 8) (reach.1 * z) (reach.2 * z) z (dimsCount (recDims r.image)) = some dst) :
    let s2 := (x.afterBC s).useRec r
    exec (.cpy x) s = .next (Eff.finish x.h s (.done ((s2.joinTag.2.takeCopy i g' (s2.ownCopy (shapeCopy x r.image src dst i g'))).mapCtx
      (Ctx.writeX x.a.rix (copyHandle i g'))))) := by
  have fe : FeOnly s (x.afterBC s) := .afterBC x s
  have core (n : Nat) : ∃ recs, ((x.afterBC s).useRec r).core n = { s.core n with recs := recs } := by
    rw [← fe.core_eq]
    exact State.useRec_core r _ n
  obtain ⟨recs, own⟩ := core ((x.afterBC s).useRec r).thr.core
  have thr : ((x.afterBC s).useRec r).thr.core = s.thr.core := fe.thr_core
  rw [thr] at own
  intro s2
  show execCpy x s = _
  rw [execCpy, issue_enabled e, withEa_ready ready, withDest_free free, withStores_none stores,
    withRecord_cached (g := g) (ts := ts) (r := r) (fe.res ▸ record) (fe.cachedSet.trans set) aligned gva ?_ ?_, if_neg (by rw [good]; decide)]
  · dsimp only
    rw [withSpan_spanAt (a := src) (by rw [State.useRec_spanAt]; exact source), withSpan_spanAt (a := dst) (by rw [State.useRec_spanAt]; exact target),
      withFlag, if_pos noFlag, withCopySlot_takes (i := i) (g := g') (by rw [thr, own]; exact fresh) ?_ (by rw [thr, own]; exact gen)]
    · rfl
    · rw [thr, own]
      exact (show _ = s.aheadOf .copySlot from fe.aheadOf .copySlot) ▸ room
  · obtain ⟨fe, is⟩ := fe
    rw [is]
    exact area
  · rw [fe.thr_core, fe.core_eq, fe.task]
    exact cached

/-- Settles O37: each copy takes the lowest free slot of its core with what was captured. -/
theorem copiesTakeASlot : Obligations.CopiesTakeASlot := by
  unfold Obligations.CopiesTakeASlot
  intro x s i e cs gen fresh room taken
  refine ⟨fun readyA readyBC stores => ?_, ?_⟩
  · intro s3 d
    have fe : FeOnly s s3 := .afterABC x s
    have leaves (q : CopySlot) := finish_takeCopy (f := id) fe rfl (.refl s3) (by rw [fe.core_eq]) (fun _ => rfl) i gen q x.h
    refine ⟨fun small src dst source target => ?_, fun small words aligned p mem dst target => ?_⟩
    · obtain ⟨slots, cmds, advanced⟩ := leaves (s3.ownCopy (s3.linearCopy x src dst (x.c.val s).toNat i gen))
      exact ⟨_, _, exec_cpl_takes fresh room rfl e readyA readyBC stores small source target,
        ⟨slots, rfl, rfl, rfl, rfl, fe.task, fe.cxa, cmds, advanced⟩, rfl, rfl, rfl, rfl⟩
    · have is : exec p.1 s = fillOp p.2 x s := by
        fin_cases mem <;> rfl
      obtain ⟨slots, cmds, advanced⟩ := leaves (s3.ownCopy (s3.fillCopy p.2 x dst (x.b.val s).toNat (x.c.val s) i gen))
      exact ⟨_, _, is.trans (fillOp_takes fresh room rfl e readyA readyBC stores small words aligned target),
        ⟨slots, rfl, rfl, rfl, rfl, fe.task, fe.cxa, cmds, advanced⟩, rfl, rfl, rfl, rfl⟩
  · intro ts g r ready free stores record set aligned gva area cached good s1 dims n z sr dr noFlag src dst source target
    have fe : FeOnly s s1 := .afterBC x s
    have copies : ((s1.useRec r).core s.thr.core).copies = cs := by
      rw [State.useRec_coreField (p := CoreSt.copies) (fun _ _ => rfl), fe.core_eq]
    obtain ⟨slots, cmds, advanced⟩ := finish_takeCopy (s3 := s1.useRec r) (f := Ctx.writeX x.a.rix (copyHandle i gen)) fe rfl
      (.of_eq rfl rfl rfl) copies (fun _ => rfl) i gen ((s1.useRec r).ownCopy (shapeCopy x r.image src dst i gen)) x.h
    exact ⟨_, _, exec_cpy_takes e ready free stores fresh room rfl record set aligned gva area cached good noFlag source target,
      ⟨slots, rfl, rfl, rfl, rfl, fe.task, fe.cxa, cmds, advanced⟩, rfl, rfl, rfl, rfl, rfl⟩

end Sys2Proof.Machine
end

section
/-! ### The stoker's commands (O44)

A command at the head of a queue is carried out through the hearth's port; what the stoker says of it lies in its slot, in messages and
in vectors. `StokerOnly` says that nothing else changes (R378, R381, R389). -/

namespace Sys2Proof.Machine

open Config

/-! ### What the stoker says -/

/-- The slots of dies and what leaves for the hearth and the host are all that changes, and nothing that has left is lost. -/
def StokerOnly (s t : State) : Prop :=
  t = { s with
    dies := t.dies, msgs := t.msgs, flight := t.flight, serial := t.serial, pba := t.pba, hostTx := t.hostTx, hostQ := t.hostQ
    hostHold := t.hostHold } ∧ s.hostTx ⊆ t.hostTx ∧ s.msgs ⊆ t.msgs

theorem StokerOnly.trans {s t u : State} (a : StokerOnly s t) (b : StokerOnly t u) : StokerOnly s u := by
  obtain ⟨rest, tx, msgs⟩ := a
  obtain ⟨rest', tx', msgs'⟩ := b
  exact ⟨by rw [rest', rest], List.Subset.trans tx tx', List.Subset.trans msgs msgs'⟩

theorem StokerOnly.thr {s t : State} (a : StokerOnly s t) : t.thr = s.thr := by rw [a.1]

theorem StokerOnly.mem {s t : State} (a : StokerOnly s t) : t.mem = s.mem := by rw [a.1]

theorem StokerOnly.empties {s t : State} (a : StokerOnly s t) : t.empties = s.empties := by rw [a.1]

theorem StokerOnly.trying {s t : State} (a : StokerOnly s t) : t.trying = s.trying := by rw [a.1]

theorem StokerOnly.pops {s t : State} (a : StokerOnly s t) : t.pops = s.pops := by rw [a.1]

theorem State.emit_stoker (x : HostTx) (s : State) : StokerOnly s (s.emit x) ∧ (s.emit x).dies = s.dies := by
  obtain ⟨-, e⟩ | ⟨-, e⟩ := s.emit_cases x <;> rw [e]
  · exact ⟨⟨rfl, List.subset_append_left _ _, List.Subset.refl _⟩, rfl⟩
  · exact ⟨⟨rfl, List.Subset.refl _, List.Subset.refl _⟩, rfl⟩

theorem State.msixSend_stoker (v : Nat) (s : State) : StokerOnly s (s.msixSend v) ∧ (s.msixSend v).dies = s.dies := by
  obtain ⟨only, dies⟩ := State.emit_stoker (.msix v (s.msixEntry v).1 ((s.msixEntry v).2 &&& 0xFFFFFFFF#64))
    { s with pba := s.pba.filter (· ≠ v) }
  exact ⟨.trans ⟨rfl, List.Subset.refl _, List.Subset.refl _⟩ only, dies⟩

/-- A vector that is raised changes no slot (R381). -/
theorem State.msixRaise_stoker (core v : Nat) (s : State) : StokerOnly s (s.msixRaise core v) ∧ (s.msixRaise core v).dies = s.dies := by
  unfold State.msixRaise
  split
  · exact ⟨⟨rfl, List.Subset.refl _, List.Subset.refl _⟩, rfl⟩
  · unfold State.msixDo
    split
    · exact ⟨⟨rfl, List.Subset.refl _, List.Subset.refl _⟩, rfl⟩
    · exact s.msixSend_stoker v

theorem State.putQ_stoker (die : Nat) (q : QSlot) (s : State) : StokerOnly s (s.putQ die q) :=
  ⟨rfl, List.Subset.refl _, List.Subset.refl _⟩

theorem State.stokerSays_stoker (die : Nat) (q : QSlot) (code : Nat) (d2 : Word) (s : State) :
    StokerOnly s (s.stokerSays die q code d2) :=
  ⟨rfl, List.Subset.refl _, List.subset_append_left _ _⟩

theorem State.failQ_stoker (die : Nat) (q : QSlot) (err : Nat) (addr : Word) (s : State) : StokerOnly s (s.failQ die q err addr) :=
  ((s.putQ_stoker die _).trans (State.stokerSays_stoker die _ 1 _ _)).trans (State.msixRaise_stoker _ _ _).1

theorem State.tune_stoker (die : Nat) (q : QSlot) (s : State) : StokerOnly s (s.tune die q) := by
  unfold State.tune
  split
  · exact s.failQ_stoker die q 2 0#64
  · exact s.putQ_stoker die _

/-- A head command that completes, and its vector (R378, R382). -/
theorem State.doneQ_stoker (die : Nat) (q : QSlot) (s : State) : StokerOnly s (s.doneQ die q) := by
  have tuned (r : QSlot) : StokerOnly s (({ s with serial := s.serial + 1 } : State).tune die r) :=
    .trans ⟨rfl, List.Subset.refl _, List.Subset.refl _⟩ (State.tune_stoker die r { s with serial := s.serial + 1 })
  unfold State.doneQ
  dsimp only
  split
  · exact (tuned _).trans (State.msixRaise_stoker _ _ _).1
  · exact tuned _

theorem State.missQ_stoker (die : Nat) (q : QSlot) (addr : Word) (s : State) : StokerOnly s (s.missQ die q addr) :=
  ((s.putQ_stoker die _).trans (State.stokerSays_stoker die _ 2 addr _)).trans (State.msixRaise_stoker _ _ _).1

/-! ### Slots -/

theorem State.qslot_congr {s t : State} (dies : t.dies = s.dies) (die slot : Nat) : t.qslot die slot = s.qslot die slot := by
  rw [State.qslot, State.qslot, State.die, State.die, dies]

theorem State.slot_of_qslot {s : State} {die slot : Nat} {q : QSlot} (found : s.qslot die slot = some q) : q.slot = slot := by
  simpa using List.find?_some found

/-- A slot that is mapped is found as it was put. -/
theorem State.qslot_put {s : State} {die slot : Nat} {q r : QSlot} (found : s.qslot die slot = some q) (same : r.slot = slot) :
    (s.putQ die r).qslot die slot = some r := by
  subst same
  exact State.qslot_putQ (List.mem_of_find?_eq_some found) (State.slot_of_qslot found)

section
variable {s : State} {die slot : Nat} {q r : QSlot} (found : s.qslot die slot = some q) (same : r.slot = slot)
include found same

/-- A queue that fails keeps its place in the ring, its words and its deadline (R389). -/
theorem State.failQ_slot (err : Nat) (addr : Word) : (s.failQ die r err addr).qslot die slot =
    some { r with st := .error, err := err, started := false, sent := false } := by
  let r1 : QSlot := { r with st := .error, err := err, started := false, sent := false }
  have put : (s.putQ die r1).qslot die slot = some r1 := State.qslot_put found same
  exact (State.qslot_congr (State.msixRaise_stoker _ _ _).2 die slot).trans put

/-- A queue that takes the state its TAIL gives it keeps all else (R378, R379). -/
theorem State.tune_slot : ∃ r', (s.tune die r).qslot die slot = some r' ∧ r'.head = r.head ∧ r'.words = r.words ∧
    (r.started = false → r'.started = false) ∧ r'.wave = r.wave ∧ r'.dl = r.dl := by
  unfold State.tune
  split
  · exact ⟨_, State.failQ_slot found same 2 0#64, rfl, rfl, fun _ => rfl, rfl, rfl⟩
  · exact ⟨_, State.qslot_put found same, rfl, rfl, id, rfl, rfl⟩

/-- A head command that completes: HEAD moves past it (R378). -/
theorem State.doneQ_slot : ∃ r', (s.doneQ die r).qslot die slot = some r' ∧ r'.head = r.head + r.span ∧ r'.words = [] ∧
    r'.started = false ∧ r'.wave = none ∧ r'.dl = r.dl := by
  let r1 : QSlot := { (r.reread s.serial) with head := r.head + r.span, wave := none }
  have found1 : ({ s with serial := s.serial + 1 } : State).qslot die slot = some q := found
  obtain ⟨r', slot', head, words, started, wave, dl⟩ := State.tune_slot (r := r1) found1 same
  unfold State.doneQ
  dsimp only
  split
  · exact ⟨r', (State.qslot_congr (State.msixRaise_stoker _ _ _).2 die slot).trans slot', head, words, started rfl, wave, dl⟩
  · exact ⟨r', slot', head, words, started rfl, wave, dl⟩

/-- A deadline that is missed (R387): the unit disarms, and the hearth is told. -/
theorem State.missQ_slot (addr : Word) : (s.missQ die r addr).qslot die slot = some { r with miss := true, dl := none } ∧
    ∃ m ∈ (s.missQ die r addr).msgs, m.core = hearthOf die ∧ m.chan = 7 ∧ m.msg.kstat = kstat 7 2 ∧ m.msg.d2 = addr := by
  let r1 : QSlot := { r with miss := true, dl := none }
  obtain ⟨⟨-, -, msgs⟩, dies⟩ := State.msixRaise_stoker (hearthOf die) r1.missv ((s.putQ die r1).stokerSays die r1 2 addr)
  have put : (s.putQ die r1).qslot die slot = some r1 := State.qslot_put found same
  exact ⟨(State.qslot_congr dies die slot).trans put, _, msgs (List.mem_append_right _ (List.mem_singleton.2 rfl)), rfl, rfl, rfl, rfl⟩

end

/-! ### Steps of a head command (R355, R378) -/

/-- The head command of a slot is under way. -/
def HeadRuns (die slot : Nat) (q : QSlot) (s : State) : Prop :=
  s.qslot die slot = some q ∧ s.stokes die = true ∧ q.st = .run ∧ q.started = true

/-- HEAD has moved past the command, by `n` entries. -/
def PastBy (die slot : Nat) (s : State) (q : QSlot) (n : Nat) (u : State) : Prop :=
  u.thr = s.thr ∧ ∃ r, u.qslot die slot = some r ∧ r.head = q.head + n ∧ r.words = [] ∧ r.started = false ∧ r.wave = none

/-- The queue waits with its command at the head. -/
def Blocked (die slot : Nat) (s u : State) : Prop :=
  u.thr = s.thr ∧ (u.qslot die slot).map (·.st) = some .block ∧ u.mem = s.mem

theorem onHead_runs {op die slot : Nat} {f : QSlot → State → State} {s : State} {q : QSlot} (runs : HeadRuns die slot q s) (code : q.op = op) :
    onHead op die slot f s = .next (s.atPort (.queue die slot) (f q)) := by
  obtain ⟨found, stokes, run, started⟩ := runs
  rw [onHead, found]
  dsimp only
  rw [if_pos ⟨stokes, run, started, code⟩, State.headStep, State.slot_of_qslot found]

/-- A step that misses no page happens as it was tried, but for what the port notes. -/
theorem State.atPort_step {a : Asker} {f : State → State} {s v : State} (tried : f (s.asTried a) = v) (kept : v.trying = some (a, [])) :
    ∃ trying asks, s.atPort a f = { v with trying := trying, asks := asks } := by
  subst tried
  exact ⟨_, _, State.atPort_done (by rw [kept]; rfl)⟩

/-- A step through a port leaves the thread that issues and memory as they are where what is tried does. -/
theorem State.atPort_keeps {a : Asker} {f : State → State} {s : State} (thr : (f (s.asTried a)).thr = s.thr)
    (mem : (f (s.asTried a)).mem = s.mem) : (s.atPort a f).thr = s.thr ∧ (s.atPort a f).mem = s.mem := by
  rcases h : (f (s.asTried a)).trying.map (·.2) with _ | _ | ⟨m, l⟩
  · simp [State.atPort, State.tryPort, h, thr, mem]
  · rw [State.atPort_done h]
    exact ⟨thr, mem⟩
  · rw [State.atPort_missed h]
    exact ⟨rfl, rfl⟩

theorem head_step {op die slot : Nat} {f : QSlot → State → State} {s v : State} {q : QSlot} (runs : HeadRuns die slot q s)
    (code : q.op = op) (tried : f q (s.asTried (.queue die slot)) = v) (kept : v.trying = some (.queue die slot, [])) :
    ∃ trying asks, onHead op die slot f s = .next { v with trying := trying, asks := asks } := by
  obtain ⟨trying, asks, done⟩ := State.atPort_step tried kept
  exact ⟨trying, asks, by rw [onHead_runs runs code, done]⟩

theorem QSlot.span_one {q : QSlot} (other : q.op ≠ 1) : q.span = 1 := if_neg other

/-! ### Places of commands (R382, R389) -/

/-- `t` differs from `s` in what translation has cached and in the misses noted. -/
def PlaceNoted (s t : State) : Prop :=
  t = { s with masks := t.masks, peers1 := t.peers1, peers2 := t.peers2, trying := t.trying }

theorem State.locateEng_missed {s t : State} {who : Who} {nd : Need} {g n : Nat} (tried : s.trying.isSome = true)
    (missed : s.locateEng who nd g n = .miss t) : ∃ trying, t = { s with trying := trying } := by
  obtain ⟨asker, trying⟩ := Option.isSome_iff_exists.1 tried
  unfold State.locateEng at missed
  split at missed
  · next s1 first =>
    obtain rfl := State.locate_miss_eq first
    rw [trying] at missed
    dsimp only at missed
    split at missed
    · cases missed
    · cases missed
      exact ⟨_, rfl⟩
  · next hit => exact absurd missed (hit t)

/-- Finding a command's place caches translations, or notes a miss, whose place is that of no home. -/
theorem State.qplace_noted {s t : State} {die : Nat} {q : QSlot} {nd : Need} {addr : Word} {l : Loc} (tried : s.trying.isSome = true)
    (placed : s.qplace die q nd addr = some (l, t)) :
    PlaceNoted s t ∧ (t.trying = s.trying ∨ l = .mem 0 noHome false 0#64) := by
  unfold State.qplace at placed
  dsimp only at placed
  generalize (if q.task = 0#16 then some addr.toNat else _) = g at placed
  cases g with
  | none => cases placed
  | some g =>
    dsimp only at placed
    split at placed
    · cases placed
    · split at placed
      · next l' t' engine =>
        cases placed
        obtain ⟨masks, peers1, peers2, rfl⟩ := State.locate_only (State.locate_of_locateEng tried engine)
        exact ⟨rfl, .inl rfl⟩
      · next t' engine =>
        cases placed
        obtain ⟨trying, rfl⟩ := State.locateEng_missed tried engine
        exact ⟨rfl, .inr rfl⟩
      · cases placed

/-- A place whose home is live, or on the host, is found with no page missed. -/
theorem State.qplace_live {s t : State} {die : Nat} {q : QSlot} {nd : Need} {addr : Word} {a home : Nat} {pg : Bool} {lf : Word}
    (tried : s.trying.isSome = true) (placed : s.qplace die q nd addr = some (.mem a home pg lf, t)) (live : t.homeDead home = false) :
    PlaceNoted s t ∧ t.trying = s.trying := by
  obtain ⟨noted, kept | none⟩ := State.qplace_noted tried placed
  · exact ⟨noted, kept⟩
  · cases none
    cases live

theorem PlaceNoted.thr {s t : State} (a : PlaceNoted s t) : t.thr = s.thr := by rw [a]

theorem PlaceNoted.mem {s t : State} (a : PlaceNoted s t) : t.mem = s.mem := by rw [a]

theorem PlaceNoted.dies {s t : State} (a : PlaceNoted s t) : t.dies = s.dies := by rw [a]

theorem PlaceNoted.readWord {s t : State} (p : PlaceNoted s t) (a : Nat) : t.readWord a = s.readWord a := by rw [p]; rfl

theorem PlaceNoted.quiet {s t : State} (a : PlaceNoted s t) : t.quiet = s.quiet := by rw [a]; rfl

/-! ### Words that a command writes (R383) -/

/-- A word written where nothing waits reads as written (R3). -/
theorem State.readWord_writeMem {a : Nat} {s : State} (inv : s.Inv) (v : Nat) :
    (s.writeMem a (leBytes 8 v)).readWord a = BitVec.ofNat 64 v := by
  obtain ⟨bytes, -⟩ := State.writeMem_writes (n := 8) a inv (leBytes_length 8 v)
  rw [State.readWord, State.readNat, bytes, leNat_leBytes]
  exact BitVec.eq_of_toNat_eq (by simp)

/-- An addition at a home where nothing waits (R182). -/
theorem State.homeAmo_adds {a : Nat} {s : State} (inv : s.Inv) (still : s.quiet = true) (v : Word) : ∃ w : Nat,
    (s.homeAmo 0 a v).2.2 = s.writeMem a (leBytes 8 w) ∧ (s.writeMem a (leBytes 8 w)).readWord a = s.readWord a + v := by
  refine ⟨(s.readNat a 8 + v.toNat % 2 ^ 64) % 2 ^ 64, State.homeWrite_unwatched (State.quiet_unwatched still a _), ?_⟩
  rw [State.readWord_writeMem inv]
  exact BitVec.eq_of_toNat_eq (by simp [State.readWord])

/-! ### SIGNAL, MARK, WAIT, FENCE and DEADLINE (R383) -/

theorem PlaceNoted.kept {s t : State} {asker : Asker} (a : PlaceNoted (s.asTried asker) t) : MemKept s t := by
  rw [a]
  exact .of_eq rfl rfl rfl

/-- A command of one entry that completes moves HEAD past it. -/
theorem past_of_done {s t : State} {die slot : Nat} {q r : QSlot} {trying : Option (Asker × List PortWalk)} {asks : List (Asker × PortWalk)}
    (thr : t.thr = s.thr) (found : t.qslot die slot = some q) (same : r.slot = slot) (one : r.op ≠ 1) :
    PastBy die slot s r 1 { t.doneQ die r with trying := trying, asks := asks } := by
  obtain ⟨r', slot', head, words, started, wave, -⟩ := State.doneQ_slot found same
  exact ⟨(t.doneQ_stoker die r).thr.trans thr, r', slot', by rw [head, QSlot.span_one one], words, started, wave⟩

theorem blocked_of_block {s t : State} {die slot : Nat} {q r : QSlot} {trying : Option (Asker × List PortWalk)}
    {asks : List (Asker × PortWalk)} (thr : t.thr = s.thr) (mem : t.mem = s.mem) (found : t.qslot die slot = some q) (same : r.slot = slot) :
    Blocked die slot s { t.blockQ die r with trying := trying, asks := asks } := by
  exact ⟨thr, congrArg (Option.map QSlot.st) (State.qslot_put (r := { r with st := .block }) found same), mem⟩

section
variable {die slot : Nat} {s t : State} {q : QSlot} (runs : HeadRuns die slot q s)
include runs

theorem HeadRuns.found : s.qslot die slot = some q := runs.1

theorem HeadRuns.same : q.slot = slot := State.slot_of_qslot runs.found

theorem HeadRuns.noted {asker : Asker} (noted : PlaceNoted (s.asTried asker) t) : t.qslot die slot = some q :=
  (State.qslot_congr noted.dies die slot).trans runs.found

/-- A command that completes, in a state whose slots and thread are those before it. -/
theorem HeadRuns.done {op : Nat} {f : QSlot → State → State} {r : QSlot} (code : q.op = op) (one : r.op ≠ 1) (same : r.slot = slot)
    (thr : t.thr = s.thr) (dies : t.dies = s.dies) (kept : t.trying = some (.queue die slot, []))
    (tried : f q (s.asTried (.queue die slot)) = t.doneQ die r) : ∃ u, onHead op die slot f s = .next u ∧ PastBy die slot s r 1 u ∧
      u.mem = t.mem ∧ u.empties = t.empties ∧ t.hostTx ⊆ u.hostTx ∧ (u.qslot die slot).bind (·.dl) = r.dl := by
  have found : t.qslot die slot = some q := (State.qslot_congr dies die slot).trans runs.found
  have only := t.doneQ_stoker die r
  obtain ⟨r', slot', -, -, -, -, dl⟩ := State.doneQ_slot found same
  obtain ⟨trying, asks, ran⟩ := head_step runs code tried (only.trying.trans kept)
  obtain ⟨-, left, -⟩ := id only
  exact ⟨_, ran, past_of_done thr found same one, only.mem, only.empties, left, (congrArg (Option.bind · QSlot.dl) slot').trans dl⟩

/-- A command that waits, in a state whose slots, thread and memory are those before it. -/
theorem HeadRuns.blocks {op : Nat} {f : QSlot → State → State} {r : QSlot} (code : q.op = op) (same : r.slot = slot)
    (thr : t.thr = s.thr) (mem : t.mem = s.mem) (dies : t.dies = s.dies) (kept : t.trying = some (.queue die slot, []))
    (tried : f q (s.asTried (.queue die slot)) = t.blockQ die r) : ∃ u, onHead op die slot f s = .next u ∧ Blocked die slot s u := by
  have found : t.qslot die slot = some q := (State.qslot_congr dies die slot).trans runs.found
  obtain ⟨trying, asks, ran⟩ := head_step runs code tried kept
  exact ⟨_, ran, blocked_of_block thr mem found same⟩

/-- A command that writes a word at its home and completes. -/
theorem HeadRuns.writes {op a w : Nat} {f : QSlot → State → State} (inv : s.Inv) (code : q.op = op) (one : q.op ≠ 1)
    (noted : PlaceNoted (s.asTried (.queue die slot)) t) (kept : t.trying = some (.queue die slot, []))
    (tried : f q (s.asTried (.queue die slot)) = (t.writeMem a (leBytes 8 w)).doneQ die q) : ∃ u, onHead op die slot f s = .next u ∧
      PastBy die slot s q 1 u ∧ u.readWord a = (t.writeMem a (leBytes 8 w)).readWord a ∧ u.isFull a = true ∧ OutsideKept s u a 8 := by
  have inv' : t.Inv := by
    rw [State.Inv, noted.mem]
    exact inv
  obtain ⟨u, ran, past, mem, empties, -, -⟩ := runs.done (t := t.writeMem a (leBytes 8 w)) code one runs.same noted.thr noted.dies kept tried
  obtain ⟨-, outside⟩ := State.writeMem_writes (n := 8) a inv' (leBytes_length 8 w)
  refine ⟨u, ran, past, ?_, ?_, noted.kept.outside (outside.congr mem empties)⟩
  · rw [State.readWord, State.readNat, State.readMem, mem]
    rfl
  · rw [State.isFull, empties]
    exact State.isFull_writeMem (by simp) t

section
variable {a home : Nat} {pg : Bool} {lf : Word} (ready : t.chanWaits a = false) (live : t.homeDead home = false)
include ready live

theorem exec_signal_adds (inv : s.Inv) (code : q.op = 2)
    (placed : (s.asTried (.queue die slot)).qplace die q (nAmo false) q.addr = some (.mem a home pg lf, t))
    (sound : t.poisoned a 8 = false) (still : s.quiet = true) : ∃ u, exec (.signal die slot) s = .next u ∧ PastBy die slot s q 1 u ∧
      u.readWord a = s.readWord a + q.value ∧ OutsideKept s u a 8 := by
  obtain ⟨noted, kept⟩ := State.qplace_live rfl placed live
  have found : t.qslot die slot = some q := runs.noted noted
  have inv' : t.Inv := by
    rw [State.Inv, noted.mem]
    exact inv
  obtain ⟨w, written, added⟩ := State.homeAmo_adds (a := a) inv' (noted.quiet.trans still) q.value
  have slot_found : (t.writeMem a (leBytes 8 w)).qslot die q.slot = some q := by
    rw [runs.same]
    exact found
  have tried : State.signalQ die q (s.asTried (.queue die slot)) = (t.writeMem a (leBytes 8 w)).doneQ die q := by
    rw [State.signalQ, placed]
    simp [ready, live, sound, written, slot_found]
  obtain ⟨u, ran, past, word, -, outside⟩ := runs.writes inv code (by omega) noted kept tried
  exact ⟨u, ran, past, word.trans (added.trans (congrArg (· + q.value) (noted.readWord a))), outside⟩

theorem exec_mark_stores (inv : s.Inv) (code : q.op = 5)
    (placed : (s.asTried (.queue die slot)).qplace die q nStore q.addr = some (.mem a home pg lf, t))
    (sound : t.chanFailed a = false) (still : s.quiet = true) : ∃ u, exec (.mark die slot) s = .next u ∧ PastBy die slot s q 1 u ∧
      u.readWord a = q.value ∧ u.isFull a = true ∧ OutsideKept s u a 8 := by
  obtain ⟨noted, kept⟩ := State.qplace_live rfl placed live
  have found : t.qslot die slot = some q := runs.noted noted
  have inv' : t.Inv := by
    rw [State.Inv, noted.mem]
    exact inv
  have written : t.homeWrite a (leBytes 8 q.value.toNat) = t.writeMem a (leBytes 8 q.value.toNat) :=
    State.homeWrite_unwatched (State.quiet_unwatched (noted.quiet.trans still) a _)
  have slot_found : (t.writeMem a (leBytes 8 q.value.toNat)).qslot die q.slot = some q := by
    rw [runs.same]
    exact found
  have tried : State.markQ die q (s.asTried (.queue die slot)) = (t.writeMem a (leBytes 8 q.value.toNat)).doneQ die q := by
    rw [State.markQ, placed]
    simp [ready, live, sound, written, slot_found]
  obtain ⟨u, ran, past, word, full, outside⟩ := runs.writes inv code (by omega) noted kept tried
  exact ⟨u, ran, past, word.trans ((State.readWord_writeWord a q.value inv')), full, outside⟩

theorem exec_wait_examines (code : q.op = 3)
    (placed : (s.asTried (.queue die slot)).qplace die q nWtw q.addr = some (.mem a home pg lf, t))
    (sound : t.poisoned a 8 = false) (unmet : q.met = false) : ∃ u, exec (.wait die slot) s = .next u ∧
      (q.value.toNat ≤ (s.readWord a).toNat → PastBy die slot s q 1 u ∧ u.mem = s.mem) ∧
      ((s.readWord a).toNat < q.value.toNat → Blocked die slot s u) := by
  obtain ⟨noted, kept⟩ := State.qplace_live rfl placed live
  have tried : State.waitQ die q (s.asTried (.queue die slot)) = if q.value.toNat ≤ (s.readWord a).toNat then t.doneQ die q
      else t.blockQ die { q with wt := some (a, home, q.value) } := by
    have word : t.readWord a = s.readWord a := noted.readWord a
    rw [State.waitQ, placed]
    simp [ready, live, sound, unmet, word]
  by_cases met : q.value.toNat ≤ (s.readWord a).toNat
  · rw [if_pos met] at tried
    obtain ⟨u, ran, past, mem, -⟩ := runs.done code (by omega) runs.same noted.thr noted.dies kept tried
    exact ⟨u, ran, fun _ => ⟨past, mem.trans noted.mem⟩, fun less => absurd met (by omega)⟩
  · rw [if_neg met] at tried
    obtain ⟨u, ran, blocked⟩ := runs.blocks (r := { q with wt := some (a, home, q.value) }) code runs.same noted.thr noted.mem
      noted.dies kept tried
    exact ⟨u, ran, fun le => absurd le met, fun _ => blocked⟩

end

theorem exec_mark_host {o : Nat} (code : q.op = 5)
    (placed : (s.asTried (.queue die slot)).qplace die q nStore q.addr = some (.host o, t)) (free : s.hostHold = none) :
    ∃ u, exec (.mark die slot) s = .next u ∧ PastBy die slot s q 1 u ∧ .memWrite o (leBytes 8 q.value.toNat) ∈ u.hostTx ∧ u.mem = s.mem := by
  obtain ⟨noted, kept | none⟩ := State.qplace_noted rfl placed
  · have open_port : t.hostHold = none := by
      rw [noted]
      exact free
    have tried : State.markQ die q (s.asTried (.queue die slot)) =
        ({ t with hostTx := t.hostTx ++ [.memWrite o (leBytes 8 q.value.toNat)] } : State).doneQ die q := by
      rw [State.markQ, placed, ← State.emit_memWrite open_port]
    obtain ⟨u, ran, past, mem, -, left, -⟩ := runs.done
      (t := { t with hostTx := t.hostTx ++ [.memWrite o (leBytes 8 q.value.toNat)] }) code (by omega) runs.same noted.thr noted.dies kept tried
    exact ⟨u, ran, past, left (List.mem_append_right _ (List.mem_singleton.2 rfl)), mem.trans noted.mem⟩
  · cases none

theorem exec_fence_examines (code : q.op = 6) : ∃ u, exec (.queueFence die slot) s = .next u ∧
    (s.fenceClear q = true → PastBy die slot s q 1 u ∧ u.mem = s.mem) ∧ (s.fenceClear q = false → Blocked die slot s u) := by
  cases clear : s.fenceClear q with
  | true =>
    have tried : State.fenceQ die q (s.asTried (.queue die slot)) = (s.asTried (.queue die slot)).doneQ die q := if_pos clear
    obtain ⟨u, ran, past, mem, -⟩ := runs.done code (by omega) runs.same (t := s.asTried (.queue die slot)) rfl rfl rfl tried
    exact ⟨u, ran, fun _ => ⟨past, mem⟩, nofun⟩
  | false =>
    have tried : State.fenceQ die q (s.asTried (.queue die slot)) = (s.asTried (.queue die slot)).blockQ die q :=
      if_neg (by rw [show (s.asTried (.queue die slot)).fenceClear q = false from clear]; exact Bool.false_ne_true)
    obtain ⟨u, ran, blocked⟩ := runs.blocks code runs.same (t := s.asTried (.queue die slot)) rfl rfl rfl rfl tried
    exact ⟨u, ran, nofun, fun _ => blocked⟩

theorem exec_deadline_waits (code : q.op = 4) (armed : q.dl.isSome = true) :
    ∃ u, exec (.deadline die slot) s = .next u ∧ Blocked die slot s u :=
  runs.blocks code runs.same (t := s.asTried (.queue die slot)) rfl rfl rfl rfl (if_pos armed)

end

/-! ### The deadline unit (R387) -/

/-- What arming a unit changes: what translation has cached, misses noted, the serial number, and packets queued at ports. -/
def ArmNoted (s t : State) : Prop :=
  t = { s with
    masks := t.masks, peers1 := t.peers1, peers2 := t.peers2, trying := t.trying, serial := t.serial, ports := t.ports }

theorem State.armQ_noted {s t : State} {die count : Nat} {q : QSlot} {addr val : Word} {u : Deadline} (tried : s.trying.isSome = true)
    (armed : s.armQ die q addr val count = some (u, t)) : ArmNoted s t := by
  unfold State.armQ at armed
  dsimp only at armed
  split at armed
  · next placed =>
    obtain ⟨noted, -⟩ := State.qplace_noted tried placed
    cases armed
    rw [ArmNoted, noted]
  · next placed =>
    obtain ⟨noted, -⟩ := State.qplace_noted tried placed
    cases armed
    rw [ArmNoted, noted]
  · next placed =>
    obtain ⟨noted, -⟩ := State.qplace_noted tried placed
    cases armed
    rw [ArmNoted, noted]
    rfl
  · cases armed

theorem ArmNoted.keeps {s t : State} (a : ArmNoted s t) : t.thr = s.thr ∧ t.mem = s.mem ∧ t.dies = s.dies := by
  rw [a]
  exact ⟨rfl, rfl, rfl⟩

theorem exec_deadline_arms {die slot : Nat} {s t : State} {q : QSlot} {n : Deadline} (runs : HeadRuns die slot q s) (code : q.op = 4)
    (free : q.dl = none)
    (armed : (s.asTried (.queue die slot)).armQ die q q.addr q.value (q.words.getD 3 0#64).toNat = some (n, t))
    (kept : t.trying = (s.asTried (.queue die slot)).trying) : ∃ u, exec (.deadline die slot) s = .next u ∧ PastBy die slot s q 1 u ∧
      u.mem = s.mem ∧ (u.qslot die slot).bind (·.dl) = if t.deadlineMet n then none else some n := by
  obtain ⟨thr, mem, dies⟩ := (State.armQ_noted rfl armed).keeps
  have tried : State.deadlineQ die q (s.asTried (.queue die slot)) = t.doneQ die { q with dl := t.holdDeadline n } := by
    rw [State.deadlineQ, if_neg (by simp [free]), armed]
  obtain ⟨u, ran, past, mem', -, -, dl⟩ := runs.done (r := { q with dl := t.holdDeadline n }) code
    (by show q.op ≠ 1; omega) runs.same thr dies kept tried
  exact ⟨u, ran, past, mem'.trans mem, dl⟩

/-- A watch that is sent again leaves the thread that issues and memory as they are (R358, R388). -/
theorem State.rearmQ_keeps (die : Nat) (q : QSlot) (u : Deadline) (s : State) :
    (s.rearmQ die q u).thr = s.thr ∧ (s.rearmQ die q u).mem = s.mem := by
  refine State.atPort_keeps ?_ ?_
  · split
    · next armed =>
      obtain ⟨thr, -, -⟩ := (State.armQ_noted rfl armed).keeps
      exact thr
    · rfl
  · split
    · next armed =>
      obtain ⟨-, mem, -⟩ := (State.armQ_noted rfl armed).keeps
      exact mem
    · rfl

theorem exec_deadlineExpire {die slot : Nat} {s : State} {q : QSlot} {u : Deadline} (found : s.qslot die slot = some q) (armed : q.dl = some u) :
    exec (.deadlineExpire die slot) s = .next (if u.left (s.die die).cyc = 0 then s.missQ die q u.addr
      else if s.deadlineMet u then s.putQ die { q with dl := none } else if u.anew then s.rearmQ die q u else s) := by
  show execDeadlineExpire die slot s = _
  rw [execDeadlineExpire, found]
  dsimp only
  rw [armed]

theorem exec_deadlineExpire_ends {die slot : Nat} {s : State} {q : QSlot} {u : Deadline} (found : s.qslot die slot = some q)
    (armed : q.dl = some u) : ∃ t, exec (.deadlineExpire die slot) s = .next t ∧ t.thr = s.thr ∧ t.mem = s.mem ∧
      (s.deadlineMet u = true → 0 < u.left (s.die die).cyc → t.qslot die slot = some { q with dl := none }) ∧
      (u.left (s.die die).cyc = 0 → t.qslot die slot = some { q with miss := true, dl := none } ∧
        ∃ m ∈ t.msgs, m.core = hearthOf die ∧ m.chan = 7 ∧ m.msg.kstat = kstat 7 2 ∧ m.msg.d2 = u.addr) ∧
      (s.deadlineMet u = false → 0 < u.left (s.die die).cyc → u.anew = false → t = s) := by
  have same := State.slot_of_qslot found
  refine ⟨_, exec_deadlineExpire found armed, ?_⟩
  by_cases spent : u.left (s.die die).cyc = 0
  · rw [if_pos spent]
    have only := s.missQ_stoker die q u.addr
    obtain ⟨slot', told⟩ := State.missQ_slot found same u.addr
    exact ⟨only.thr, only.mem, fun _ some => absurd spent some.ne', fun _ => ⟨slot', told⟩, fun _ some => absurd spent some.ne'⟩
  · rw [if_neg spent]
    cases met : s.deadlineMet u with
    | true => exact ⟨rfl, rfl, fun _ _ => State.qslot_put found same, fun none => absurd none spent, nofun⟩
    | false =>
      cases anew : u.anew with
      | true =>
        obtain ⟨thr, mem⟩ := State.rearmQ_keeps die q u s
        exact ⟨thr, mem, nofun, fun none => absurd none spent, nofun⟩
      | false => exact ⟨rfl, rfl, nofun, fun none => absurd none spent, fun _ _ _ => rfl⟩

/-! ### Dispatch and unblocking (R378, R380) -/

theorem exec_queueDispatch_rests {die : Nat} {s : State} (rests : s.stokes die = false) : exec (.queueDispatch die) s = .next s := by
  show execQueueDispatch die s = _
  rw [execQueueDispatch, rests]
  rfl

section
variable {die slot : Nat} {s : State} {q : QSlot} (stokes : s.stokes die = true) (found : s.qslot die slot = some q)
include stokes found

theorem exec_queueDispatch_reads (next : (s.die die).roundRobin.find? s.canRead = some q)
    (inside : q.entryAt (q.head + q.words.length / 8) + 64 ≤ Config.physEnd)
    (live : s.homeDead (home0 (q.entryAt (q.head + q.words.length / 8))) = false)
    (sound : s.poisoned (q.entryAt (q.head + q.words.length / 8)) 64 = false) : ∃ u, exec (.queueDispatch die) s = .next u ∧ u.thr = s.thr ∧
      u.mem = s.mem ∧ u.qslot die slot =
        some { q with words := q.words ++ wordsOfBytes 8 (s.readMem (q.entryAt (q.head + q.words.length / 8)) 64) } := by
  let g := q.entryAt (q.head + q.words.length / 8)
  have device : ¬ hostBase ≤ g := by
    have below : physEnd ≤ hostBase := by decide
    have inside' : g + 64 ≤ physEnd := inside
    omega
  have bytes : s.task0Bytes g 64 = some (s.readMem g 64) := by
    refine if_neg ?_
    rintro (out | dead | poisoned)
    · exact absurd (show g + 64 ≤ physEnd from inside) (Nat.not_le.2 out)
    · exact Bool.false_ne_true (live.symm.trans dead)
    · exact Bool.false_ne_true (sound.symm.trans poisoned)
  have read : s.readEntry die q = s.putQ die { q with words := q.words ++ wordsOfBytes 8 (s.readMem g 64) } := by
    rw [State.readEntry, if_neg device, bytes]
  have same := State.slot_of_qslot found
  refine ⟨s.putQ die { q with words := q.words ++ wordsOfBytes 8 (s.readMem g 64) }, ?_, rfl, rfl, State.qslot_put found same⟩
  show execQueueDispatch die s = _
  rw [execQueueDispatch, stokes]
  dsimp only
  rw [if_pos rfl, next]
  exact congrArg _ read

theorem exec_queueDispatch_starts (idle : (s.die die).roundRobin.find? s.canRead = none) (best : bestSlot (s.die die).roundRobin = some q)
    (fits : q.cmdOk = true) : ∃ u, exec (.queueDispatch die) s = .next u ∧ u.thr = s.thr ∧ u.mem = s.mem ∧
      u.qslot die slot = some { q with started := true } ∧ (u.die die).rr = q.slot := by
  have put : (s.putQ die { q with started := true }).qslot die slot = some { q with started := true } :=
    State.qslot_put found (show q.slot = slot from State.slot_of_qslot found)
  refine ⟨(s.putQ die { q with started := true }).setDie die fun d => { d with rr := q.slot }, ?_, rfl, rfl, ?_, ?_⟩
  · show execQueueDispatch die s = _
    rw [execQueueDispatch, stokes]
    dsimp only
    rw [if_pos rfl, idle]
    dsimp only
    rw [best]
    dsimp only
    rw [fits]
    rfl
  · rw [State.qslot, State.die_setDie]
    exact put
  · rw [State.die_setDie]

/-- A FENCE whose populations have all completed is let through (R378, R383). -/
theorem exec_queueUnblock_fence (waits : q.st = .block) (code : q.op = 6) (clear : s.fenceClear q = true) :
    ∃ u, exec (.queueUnblock die slot) s = .next u ∧ PastBy die slot s q 1 u ∧ u.mem = s.mem := by
  have same := State.slot_of_qslot found
  have found' : (s.asTried (.queue die slot)).qslot die slot = some q := found
  have only := (s.asTried (.queue die slot)).doneQ_stoker die q
  have tried : (s.asTried (.queue die slot)).fenceQ die q = (s.asTried (.queue die slot)).doneQ die q := if_pos clear
  obtain ⟨trying, asks, ran⟩ := State.atPort_step (f := State.fenceQ die q) tried only.trying
  refine ⟨_, ?_, past_of_done (trying := trying) (asks := asks) (t := s.asTried (.queue die slot)) rfl found' same (by omega), only.mem⟩
  show execQueueUnblock die slot s = _
  rw [execQueueUnblock, found]
  dsimp only
  rw [if_neg (by simp [waits, stokes]), State.headStep, same, ← ran]
  simp only [code]

end

end Sys2Proof.Machine
end

section
/-! ### LAUNCH at the head of a queue (O44)

The first wave of a LAUNCH places threads on several cores. `WaveOnly` says what the threads of one core bring about; `ImagesKept` adds
that no thread loses its name and no population what it was launched with, whatever core an image moves on (R71, R384, R385). -/

namespace Sys2Proof.Machine

open Config

/-! ### Threads and populations during a wave -/

/-- What a population has of the LAUNCH that made it. -/
def Pop.launched (p : Pop) : Option Nat × BitVec 16 × Word × Nat × Nat × List Nat × Nat :=
  (p.queue, p.task, p.pc, p.count, p.quota, p.cores, p.tixb)

/-- Each thread was there, under its name and waiting for what it waits for, and each population stands as it was launched. -/
def ImagesKept (s u : State) : Prop :=
  (∀ b ∈ u.thr :: u.pool, ∃ a ∈ s.thr :: s.pool, b.ctx.st = a.ctx.st ∧ b.ctx.cxa = a.ctx.cxa ∧ b.core = a.core ∧ b.wait = a.wait) ∧
    ∀ p ∈ s.pops, ∃ q ∈ u.pops, q.launched = p.launched

theorem ImagesKept.of_eq {s u : State} (thr : u.thr = s.thr) (pool : u.pool = s.pool) (pops : u.pops = s.pops) : ImagesKept s u := by
  refine ⟨fun b hb => ⟨b, ?_, rfl, rfl, rfl, rfl⟩, fun p hp => ⟨p, ?_, rfl⟩⟩
  · rwa [← thr, ← pool]
  · rwa [pops]

theorem ImagesKept.refl (s : State) : ImagesKept s s := .of_eq rfl rfl rfl

theorem ImagesKept.trans {s t u : State} (a : ImagesKept s t) (b : ImagesKept t u) : ImagesKept s u := by
  obtain ⟨images, pops⟩ := a
  obtain ⟨images', pops'⟩ := b
  refine ⟨fun c hc => ?_, fun p hp => ?_⟩
  · obtain ⟨b, hb, st, cxa, core, wait⟩ := images' c hc
    obtain ⟨a, ha, st', cxa', core', wait'⟩ := images b hb
    exact ⟨a, ha, st.trans st', cxa.trans cxa', core.trans core', wait.trans wait'⟩
  · obtain ⟨q, hq, same⟩ := pops p hp
    obtain ⟨r, hr, same'⟩ := pops' q hq
    exact ⟨r, hr, same'.trans same⟩

theorem State.updThr_images {core : Nat} {cxa : Word} {f : Thread → Thread} (image : PlaceOnly f) (s : State) :
    ImagesKept s (s.updThr core cxa f) := by
  have same : ∀ a b : Thread, b = a ∨ b = f a → b.ctx.st = a.ctx.st ∧ b.ctx.cxa = a.ctx.cxa ∧ b.core = a.core ∧ b.wait = a.wait := by
    rintro a b (rfl | rfl)
    · exact ⟨rfl, rfl, rfl, rfl⟩
    · obtain ⟨ctx, -, core, wait⟩ := image a
      exact ⟨congrArg Ctx.st ctx, congrArg Ctx.cxa ctx, core, wait⟩
  unfold State.updThr
  split
  · refine ⟨fun b hb => ?_, fun p hp => ⟨p, hp, rfl⟩⟩
    rcases List.mem_cons.1 hb with rfl | pooled
    · exact ⟨s.thr, List.mem_cons_self, same _ _ (.inr rfl)⟩
    · exact ⟨b, List.mem_cons_of_mem _ pooled, same _ _ (.inl rfl)⟩
  · split
    · refine ⟨fun b hb => ?_, fun p hp => ⟨p, hp, rfl⟩⟩
      rcases List.mem_cons.1 hb with rfl | pooled
      · exact ⟨s.thr, List.mem_cons_self, same _ _ (.inl rfl)⟩
      · obtain ⟨a, ha, changed⟩ := mem_mapFirst pooled
        exact ⟨a, List.mem_cons_of_mem _ ha, same a b changed⟩
    · exact .of_eq rfl rfl rfl

theorem State.updPop_images {ix : Nat} {f : Pop → Pop} (launched : ∀ p, (f p).launched = p.launched) (s : State) :
    ImagesKept s (s.updPop ix f) := by
  refine ⟨fun b hb => ⟨b, hb, rfl, rfl, rfl, rfl⟩, fun p hp => ?_⟩
  obtain ⟨q, hq, rfl | rfl⟩ := exists_mem_mapFirst (p := fun p => p.ix == ix) (f := f) hp
  · exact ⟨q, hq, rfl⟩
  · exact ⟨_, hq, launched p⟩

theorem State.reachRecord_images (core : Nat) (task : BitVec 16) (cxa : Word) (write : Bool) (s : State) :
    ImagesKept s (s.reachRecord core task cxa write) := by
  unfold State.reachRecord
  dsimp only
  split
  · split
    · exact .refl s
    · split
      · exact .of_eq rfl rfl rfl
      · exact .refl s
  · exact .refl s

theorem State.toRecord_images (t : Thread) (s : State) : ImagesKept s (s.toRecord t).2 := by
  have moved (f : Thread → Thread) (image : PlaceOnly f) (s : State) : ImagesKept s (s.updThr t.core t.ctx.cxa f) :=
    State.updThr_images image s
  have reached := State.reachRecord_images t.core (t.ctx.st.extractLsb' 16 16) t.ctx.cxa true s
  unfold State.toRecord
  split
  · exact moved (fun t => { t with place := .record, wbHeld := false }) (fun _ => ⟨rfl, rfl, rfl, rfl⟩) s
  · dsimp only
    split
    · exact (reached.trans (moved (fun t => { t with place := .record, wbHeld := false }) (fun _ => ⟨rfl, rfl, rfl, rfl⟩) _)).trans
        (.of_eq rfl rfl rfl)
    · exact (reached.trans (moved (fun t => { t with wbHeld := true }) (fun _ => ⟨rfl, rfl, rfl, rfl⟩) _)).trans (.of_eq rfl rfl rfl)

theorem State.emberSpace_images (core fuel : Nat) (s : State) : ImagesKept s (s.emberSpace core fuel).2 := by
  induction fuel generalizing s with
  | zero => exact .refl s
  | succ fuel ih =>
    unfold State.emberSpace
    split
    · exact .refl s
    · split
      · exact .refl s
      · next t _ => exact (State.toRecord_images t s).trans (ih _)

theorem State.seat_images (core : Nat) (cxa : Word) (s : State) : ImagesKept s (s.seat core cxa) := by
  have seated (p : Place) (s : State) : ImagesKept s (s.updThr core cxa fun t => { t with place := p }) :=
    State.updThr_images (f := fun t => { t with place := p }) (fun _ => ⟨rfl, rfl, rfl, rfl⟩) s
  have banked (t : Thread) : ImagesKept s (s.touchBank core t) := by
    unfold State.touchBank
    split
    · split <;> exact .of_eq rfl rfl rfl
    · exact .refl s
  unfold State.seat
  split
  · exact (banked _).trans (seated _ _)
  · exact seated .ember s

theorem State.placeImage_images (core : Nat) (cxa : Word) (s : State) : ImagesKept s (s.placeImage core cxa) := by
  have room : ImagesKept s (s.seatRoom core).2 := by
    unfold State.seatRoom
    split
    · exact .refl s
    · exact State.emberSpace_images core _ s
  unfold State.placeImage
  dsimp only
  split
  · exact room.trans (State.seat_images core cxa _)
  · split
    · exact room.trans (State.toRecord_images _ _)
    · exact room

/-- The thread that a population has at an index, as it is made (R71). -/
def Pop.thread (p : Pop) (core i : Nat) (cxa : Word) (bound : Nat) : Thread :=
  { ctx := newCtx p (p.tixb + i) cxa 0#16, core := core, place := .record, pinG := (0#16 : BitVec 16) != 0#16, wait := .ready
    popIx := p.ix, bound := bound }

/-- One thread is made (R71). -/
theorem State.materialise_images (p : Pop) (core i : Nat) (cxa : Word) (s : State) :
    ImagesKept { s with pool := s.pool ++ [p.thread core i cxa s.serial], serial := s.serial + 1 } (s.materialise p core i cxa 0#16) := by
  let s0 : State := { s with pool := s.pool ++ [p.thread core i cxa s.serial], serial := s.serial + 1 }
  let s1 : State := s0.updPop p.ix fun p => { p with live := p.live + 1 }
  let s2 : State := (s1.enqueue core cxa 0#2).reachRecord core p.task cxa true
  have reached : ImagesKept s0 s2 := ((State.updPop_images (f := fun p => { p with live := p.live + 1 }) (fun _ => rfl) s0).trans
    (.of_eq rfl rfl rfl)).trans (State.reachRecord_images core p.task cxa true (s1.enqueue core cxa 0#2))
  have made : s.materialise p core i cxa 0#16 = if (s.recordAt core p.task cxa).isSome then s2.placeImage core cxa
      else ((s2.updThr core cxa fun t => { t with raw := true }).markCf core cxa).cxfEvent core cxa 0 := rfl
  rw [made]
  split
  · exact reached.trans (State.placeImage_images core cxa s2)
  · exact (reached.trans (State.updThr_images (f := fun t => { t with raw := true }) (fun _ => ⟨rfl, rfl, rfl, rfl⟩) s2)).trans
      (.of_eq rfl rfl rfl)

/-! ### The first wave on several cores (R384, R386) -/

/-- The pages that ports have and the misses noted are the same; each core has the pages of the records of its threads if it had them, and
each population stands as it was launched. -/
def LaunchOnly (s u : State) : Prop :=
  u.clusters = s.clusters ∧ u.coreMap = s.coreMap ∧ u.trying = s.trying ∧ (∀ n, s.recordsNear n = true → u.recordsNear n = true) ∧
    ∀ p ∈ s.pops, ∃ q ∈ u.pops, q.launched = p.launched

theorem LaunchOnly.refl (s : State) : LaunchOnly s s := ⟨rfl, rfl, rfl, fun _ => id, fun p hp => ⟨p, hp, rfl⟩⟩

theorem LaunchOnly.trans {s t u : State} (a : LaunchOnly s t) (b : LaunchOnly t u) : LaunchOnly s u := by
  obtain ⟨clusters, coreMap, trying, near, pops⟩ := a
  obtain ⟨clusters', coreMap', trying', near', pops'⟩ := b
  refine ⟨clusters'.trans clusters, coreMap'.trans coreMap, trying'.trans trying, fun n => near' n ∘ near n, fun p hp => ?_⟩
  obtain ⟨q, hq, same⟩ := pops p hp
  obtain ⟨r, hr, same'⟩ := pops' q hq
  exact ⟨r, hr, same'.trans same⟩

/-- The wave of one core keeps what the records of every core's threads need, as no thread changes its name. -/
theorem WaveOnly.launch {n : Nat} {s u : State} (wave : WaveOnly n s u) (images : ImagesKept s u) : LaunchOnly s u := by
  obtain ⟨clusters, coreMap, trying, -⟩ := wave
  obtain ⟨named, pops⟩ := images
  exact ⟨clusters, coreMap, trying, fun m => State.recordsNear_of_images clusters coreMap named, pops⟩

section
variable {p : Pop} {i : Nat} {s : State} (near : s.recordNear (p.waveCore i) p.task (p.record i) = true)
  (all : s.recordsNear (p.waveCore i) = true)
include near all

theorem State.materialise_launch : LaunchOnly s (s.materialise p (p.waveCore i) i (p.record i) 0#16) := by
  let n := p.waveCore i
  let t := p.thread n i (p.record i) s.serial
  obtain ⟨clusters, coreMap, trying, -⟩ := State.materialise_wave (i := i) near all
  obtain ⟨named, pops⟩ := State.materialise_images p n i (p.record i) s
  refine ⟨clusters, coreMap, trying, fun m have_m => State.recordsNear_iff.2 fun b hb there core => ?_, pops⟩
  obtain ⟨a, ha, st, cxa, core', wait⟩ := named b hb
  rw [State.recordNear_congr clusters coreMap, st, cxa]
  rcases List.mem_cons.1 ha with rfl | pooled
  · exact State.recordsNear_iff.1 have_m _ List.mem_cons_self (wait ▸ there) (core' ▸ core)
  · rcases List.mem_append.1 pooled with old | new
    · exact State.recordsNear_iff.1 have_m a (List.mem_cons_of_mem _ old) (wait ▸ there) (core' ▸ core)
    · obtain rfl := List.mem_singleton.1 new
      rw [show m = n from (core'.symm.trans core).symm]
      show s.recordNear n ((newCtx p (p.tixb + i) (p.record i) 0#16).st.extractLsb' 16 16) (p.record i) = true
      rw [newCtx_task]
      exact near

theorem State.materialiseNext_launch : LaunchOnly s (s.materialiseNext p i) :=
  (State.materialise_launch near all).trans
    (WaveOnly.launch (n := 0) (State.updPop_wave (f := fun p => { p with toCome := p.toCome - 1 }) (fun _ => rfl) _)
      (State.updPop_images (f := fun p => { p with toCome := p.toCome - 1 }) (fun _ => rfl) _))

end

/-- The ports have the pages of the records of a population's first wave, and of the threads of its cores. -/
def Pop.waveNear (p : Pop) (s : State) : Prop :=
  ∀ i, i < p.waveSize → s.recordNear (p.waveCore i) p.task (p.record i) = true ∧ s.recordsNear (p.waveCore i) = true

theorem LaunchOnly.waveNear {p : Pop} {s u : State} (a : LaunchOnly s u) (near : p.waveNear s) : p.waveNear u := by
  obtain ⟨clusters, coreMap, -, keeps, -⟩ := a
  intro i small
  obtain ⟨record, records⟩ := near i small
  exact ⟨(State.recordNear_congr clusters coreMap _ _ _).trans record, keeps _ records⟩

/-- However far the first wave comes, no page is missed (R384). -/
theorem State.waveOn_launch {p : Pop} (k i : Nat) {s : State} (near : p.waveNear s) : LaunchOnly s (State.waveOn p k i s).2.2 := by
  induction k generalizing i s with
  | zero => exact .refl s
  | succ k ih =>
    unfold State.waveOn
    split
    · exact .refl s
    · next more =>
      split
      · exact .refl s
      · obtain ⟨record, records⟩ := near i (Nat.not_le.1 more)
        have made := State.materialiseNext_launch record records
        exact made.trans (ih (i + 1) (made.waveNear near))

/-! ### The population of a LAUNCH (R384, R385) -/

theorem State.dropNears_only (l : List Nat) (s : State) : l.foldl (fun s n => s.dropNear n) s =
    { s with cores := (l.foldl (fun s n => s.dropNear n) s).cores } := by
  induction l generalizing s with
  | nil => rfl
  | cons n l ih => rw [List.foldl_cons, ih (s.dropNear n)]; rfl

/-- The population that a LAUNCH creates. -/
def Launch.pop (l : Launch) (queue : Option Nat) (s : State) : Pop := { (s.newPop l.task l.desc l.cores l.tixb).1 with queue := queue }

/-- The populations once a LAUNCH has created its own; but for near caches, the serial number and a cluster's admissions nothing else
changes, and the admissions change for a crew or a gang alone. -/
theorem State.launchPop_only (l : Launch) (queue : Option Nat) (s : State) : (s.launchPop l queue).2 =
      { s with
        pops := mapFirst (fun p => p.ix == s.serial + 1) (fun p => { p with queue := queue })
          (s.pops ++ [(s.newPop l.task l.desc l.cores l.tixb).1])
        serial := s.serial + 1, cores := (s.launchPop l queue).2.cores, clusters := (s.launchPop l queue).2.clusters } ∧
    (l.shape = 0 → (s.launchPop l queue).2.clusters = s.clusters) := by
  unfold State.launchPop
  dsimp only
  rw [State.dropNears_only]
  split
  · exact ⟨rfl, fun _ => rfl⟩
  · next shaped => exact ⟨rfl, fun none => absurd none shaped⟩

/-- The number of a new population finds it, where no other has it. -/
theorem State.findPop_launchPop {l : Launch} {queue : Option Nat} {s : State} (fresh : ∀ p ∈ s.pops, p.ix ≠ s.serial + 1) :
    (s.launchPop l queue).2.findPop (s.launchPop l queue).1.ix = some (l.pop queue s) := by
  have none : s.pops.find? (fun p => p.ix == s.serial + 1) = none :=
    List.find?_eq_none.2 fun p mem => by simpa using fresh p mem
  have named : ((s.newPop l.task l.desc l.cores l.tixb).1.ix == s.serial + 1) = true := beq_self_eq_true (s.serial + 1)
  rw [State.findPop, (State.launchPop_only l queue s).1]
  show (mapFirst (fun p : Pop => p.ix == s.serial + 1) (fun p => { p with queue := queue }) _).find? (fun p => p.ix == s.serial + 1) = _
  rw [find?_mapFirst_self (p := fun p : Pop => p.ix == s.serial + 1) (f := fun p => { p with queue := queue }) (fun _ => id),
    List.find?_append, none, Option.none_or, List.find?_singleton, if_pos named]
  rfl

theorem State.launchPop_near {l : Launch} {queue : Option Nat} {s : State} (plain : l.shape = 0) (near : s.waveNear l = true) :
    (l.pop queue s).waveNear (s.launchPop l queue).2 := by
  obtain ⟨only, clusters⟩ := State.launchPop_only l queue s
  have clusters := clusters plain
  have coreMap : (s.launchPop l queue).2.coreMap = s.coreMap := by rw [only]
  have images : ∀ b ∈ (s.launchPop l queue).2.thr :: (s.launchPop l queue).2.pool, b ∈ s.thr :: s.pool := by
    rw [only]
    exact fun _ => id
  simp only [State.waveNear, Bool.and_eq_true, List.all_eq_true, List.mem_range] at near
  obtain ⟨records, record⟩ := near
  intro i small
  have placed : (l.pop queue s).waveCore i ∈ l.cores := by
    have inside : i / l.desc.quota < l.cores.length :=
      Nat.div_lt_of_lt_mul (by rw [Nat.mul_comm]; exact lt_of_lt_of_le small (Nat.min_le_right _ _))
    show l.cores.getD (i / l.desc.quota) 0 ∈ l.cores
    rw [List.getD_eq_getElem _ _ inside]
    exact List.getElem_mem inside
  exact ⟨(State.recordNear_congr clusters coreMap _ _ _).trans (record i small),
    State.recordsNear_of_images clusters coreMap (fun b hb => ⟨b, images b hb, rfl, rfl, rfl, rfl⟩) (records _ placed)⟩

/-- A LAUNCH that goes on keeps its population, however far its first wave comes, and misses no page. -/
theorem State.launchMore_launches {die ix : Nat} {r : QSlot} {p : Pop} {s : State} (found : s.findPop ix = some p)
    (near : p.shape = 0 → p.waveNear s) :
    (s.launchMore die r ix 0).trying = s.trying ∧ ∃ q ∈ (s.launchMore die r ix 0).pops, q.launched = p.launched := by
  have mem : p ∈ s.pops := List.mem_of_find?_eq_some found
  have stoker {u : State} (only : StokerOnly s u) : u.trying = s.trying ∧ ∃ q ∈ u.pops, q.launched = p.launched :=
    ⟨only.trying, p, by rw [only.pops]; exact mem, rfl⟩
  unfold State.launchMore
  rw [found]
  dsimp only
  split
  · split
    · split
      · exact stoker (s.putQ_stoker die _)
      · exact stoker (s.putQ_stoker die _)
    · exact stoker (s.doneQ_stoker die r)
  · next plain =>
    obtain ⟨-, -, trying, -, pops⟩ := State.waveOn_launch (p.waveSize + 1 - 0) 0 (near (not_not.1 plain))
    have waved {u : State} (only : StokerOnly (State.waveOn p (p.waveSize + 1 - 0) 0 s).2.2 u) :
        u.trying = s.trying ∧ ∃ q ∈ u.pops, q.launched = p.launched :=
      ⟨only.trying.trans trying, by rw [only.pops]; exact pops p mem⟩
    split
    · exact waved (State.doneQ_stoker die r _)
    · exact waved (State.putQ_stoker die _ _)

theorem exec_launch_creates {die slot : Nat} {s : State} {q : QSlot} (runs : HeadRuns die slot q s) (code : q.op = 1) (begins : q.wave = none)
    (task : q.task = 0#16 ∨ (s.launchOf q.words).task = q.task) (good : (s.launchOf q.words).bad = false)
    (usable : ∀ n ∈ (s.launchOf q.words).named, bootDie n = die ∧ s.homeDead n = false ∧ s.rdyc.contains (s.coreCluster n) = true)
    (near : (s.launchOf q.words).shape = 0 → s.waveNear (s.launchOf q.words) = true)
    (done : s.doneTrap (s.launchOf q.words).task (hearthOf die) (s.launchOf q.words).desc.done = none)
    (fresh : ∀ p ∈ s.pops, p.ix ≠ s.serial + 1) :
    ∃ u p, exec (.launch die slot) s = .next u ∧ p ∈ u.pops ∧ p.launched = ((s.launchOf q.words).pop (some q.qid) s).launched := by
  let z := s.asTried (.queue die slot)
  let l := s.launchOf q.words
  have ours : ¬ (q.task ≠ 0#16 ∧ l.task ≠ q.task) := by
    rintro ⟨some, other⟩
    exact task.elim some other
  have here : (l.named.any fun n => bootDie n != die) = false := by
    simp only [List.any_eq_false, bne_iff_ne, ne_eq, not_not]
    exact fun n mem => (usable n mem).1
  have alive : l.named.any z.homeDead = false := by
    simp only [List.any_eq_false, Bool.not_eq_true]
    exact fun n mem => (usable n mem).2.1
  have ready : (l.named.any fun n => !z.rdyc.contains (z.coreCluster n)) = false := by
    simp only [List.any_eq_false, Bool.not_eq_true', Bool.not_eq_false]
    exact fun n mem => (usable n mem).2.2
  have tried : State.launchQ die q z = (z.launchPop l (some q.qid)).2.launchMore die
      { q with wave := some ((z.launchPop l (some q.qid)).1.ix, 0) } (z.launchPop l (some q.qid)).1.ix 0 := by
    rw [State.launchQ, begins]
    dsimp only
    rw [show z.launchOf q.words = l from rfl, if_neg ours, good, if_neg Bool.false_ne_true, here, if_neg Bool.false_ne_true, alive,
      if_neg Bool.false_ne_true, show z.doneTrap l.task (hearthOf die) l.desc.done = none from done]
    dsimp only
    rw [ready, if_neg Bool.false_ne_true]
  obtain ⟨trying, p, mem, launched⟩ := State.launchMore_launches (die := die)
    (r := { q with wave := some ((z.launchPop l (some q.qid)).1.ix, 0) }) (State.findPop_launchPop (l := l) (queue := some q.qid) (s := z) fresh)
    (fun plain => State.launchPop_near (s := z) plain (near plain))
  have kept : (z.launchPop l (some q.qid)).2.trying = z.trying := by rw [(State.launchPop_only l (some q.qid) z).1]
  obtain ⟨tr, asks, ran⟩ := head_step runs code tried (trying.trans kept)
  exact ⟨_, p, ran, mem, launched⟩

/-- Settles O44: each command is the case of its OP in its own lemma above, the port misses no page in any of them, and what the stoker
says lies in its slot, in messages and in vectors. -/
theorem queueCommands : Obligations.QueueCommands := by
  unfold Obligations.QueueCommands
  intro die slot s q inv found past held v z
  refine ⟨exec_queueDispatch_rests, fun stokes run started => ?_, fun stokes waits code clear =>
    exec_queueUnblock_fence stokes found waits code clear, fun u armed => exec_deadlineExpire_ends found armed,
    fun stokes next _ inside live sound => exec_queueDispatch_reads stokes found next inside live sound,
    fun stokes idle best fits => exec_queueDispatch_starts stokes found idle best fits⟩
  have runs : HeadRuns die slot q s := ⟨found, stokes, run, started⟩
  refine ⟨fun a home pg lf t code placed ready live sound still => exec_signal_adds runs ready live inv code placed sound still,
    fun a home pg lf t code placed ready live sound still => exec_mark_stores runs ready live inv code placed sound still,
    fun o t code placed free => exec_mark_host runs code placed free,
    fun a home pg lf t code placed ready live sound unmet => exec_wait_examines runs ready live code placed sound unmet,
    exec_fence_examines runs, exec_deadline_waits runs,
    fun n t code free armed kept => exec_deadline_arms runs code free armed kept, ?_⟩
  intro l code begins task good usable near done fresh
  obtain ⟨u, p, ran, mem, launched⟩ := exec_launch_creates runs code begins task good usable near done fresh
  simp only [Pop.launched, Prod.mk.injEq] at launched
  obtain ⟨queue, task, pc, count, quota, cores, tixb⟩ := launched
  exact ⟨u, p, ran, mem, queue, task, pc, count, quota, cores, tixb⟩

end Sys2Proof.Machine
end

section
/-! ### The progress that `cpst.h` reads (O38)

R309 gives the next index of a copy 40 bits, and the model cuts it there; a shape holds counts of 32 bits in up to five dimensions (R306), so the
index of a copy does not end at 2^40. -/

namespace Sys2Proof.Machine

/-- A copy of 2^41 elements, half of them written. -/
def longCopy : CopySlot := { newCopy 0 1 0#2 with kind := .shape, st := .run, count := 2 ^ 41, next := 2 ^ 40 }

/-- The thread that issues holds the handle of that copy in x4. -/
def longCopyState : State :=
  let s := (State.reset.withFetchWord 96 0).setCore 0 fun c => { c with copies := [longCopy] }
  { s with thr := { s.thr with ctx := s.thr.ctx.writeX 4#4 longCopy.handle } }

/-- x5 that the instruction leaves. -/
def x5After (i : Instr) (s : State) : Option Word :=
  match exec i s with
  | .next u => some (Regs.get u.thr.final.x 5#4)
  | _ => none

/-- The handle names that copy, and `cpst.h` meets every condition of the statement; the index is 0 in the 40 bits of its result, and the
state is RUN. -/
theorem longCopyState_reads : longCopyState.enabled loadArgs.h = true ∧ loadArgs.b.ready longCopyState = true ∧
    loadArgs.a.free (loadArgs.b.after longCopyState) = true ∧ (loadArgs.b.after longCopyState).noStores = true ∧
    (loadArgs.b.val longCopyState).toNat < 2 ^ 32 ∧ bits (loadArgs.b.val longCopyState).toNat 10 22 ≠ 0 ∧
    (longCopyState.core longCopyState.thr.core).copies.find?
      (fun c => c.handle == loadArgs.b.val longCopyState && c.task == longCopyState.task) = some longCopy ∧
    x5After (.cpstH loadArgs) longCopyState = some (field longCopy.st.code 0) := by
  decide +kernel

/-- Refutes O38: at index 2^40 the result of `cpst.h` holds 0 in its 40 bits of progress (R309), where the statement has the bit of the index
stand above them. -/
theorem not_copyControlInstructions : ¬ Obligations.CopyControlInstructions := by
  unfold Obligations.CopyControlInstructions
  intro h
  obtain ⟨enabled, ready, free, noStores, small, generation, named, result⟩ := longCopyState_reads
  obtain ⟨-, -, -, byHandle⟩ := h loadArgs longCopyState enabled
  obtain ⟨⟨u, issued, leaves, -⟩, -⟩ := byHandle ready free noStores small generation
  rw [named] at leaves
  simp only [x5After, issued, Option.some.injEq, show u.thr.final = _ from leaves] at result
  simp only [Regs.get, Ctx.orFlags, Ctx.writeX, Regs.set, loadArgs, Opnd.rix, BitVec.toNat_ofNat, Nat.reducePow, Nat.reduceMod,
    Vector.getElem_set_self] at result
  exact absurd result (by decide)

end Sys2Proof.Machine
end

section
/-! ### A copy onto a failed DRAM channel (O51)

A channel that failed its training answers at once (R417): a write is dropped, and the copy notes the word as poisoned (R302). -/

namespace Sys2Proof.Machine

/-- A fill of one word of DRAM at level H. -/
def fillSlot : CopySlot := { newCopy 0 1 0#2 with kind := .fillFull, st := .run, lvlH := true, count := 8, pattern := 7#64 }

/-- That fill is in the engine of core 0, and channel 0, where its word lies, has failed. -/
def fillFailedChannel : State := { State.reset.setCore 0 (fun c => { c with copies := [fillSlot] }) with flm := [0] }

/-- The code of the copy in slot 0 of core 0 after the step. -/
def copyCodeAfter (i : Instr) (s : State) : Option Nat :=
  match exec i s with
  | .next u => (u.copySlot 0 0).map (·.code)
  | _ => none

/-- The engine finds the word, and neither its channel nor its home keeps the access waiting; the copy then has code 1, poison. -/
theorem fillFailedChannel_located : fillFailedChannel.quiet = true ∧ (fillFailedChannel.core 0).dead = false ∧
    Memory.wf fillFailedChannel.mem = true ∧ fillFailedChannel.copySlot 0 0 = some fillSlot ∧
    (match (fillFailedChannel.asTried (.copy 0 0)).locateEng (fillSlot.who 0) (nCopyDst (fillSlot.kind == .fillFull))
        (fillSlot.dst.toNat + fillSlot.next) 8 with
     | .loc (.mem a h _ _) t => !t.chanWaits a && !t.homeDead h
     | _ => false) = true ∧
    copyCodeAfter (.copyElement 0 0) fillFailedChannel = some 1 := by
  decide +kernel

/-- Refutes O51: the element of a copy onto a failed channel is dropped and its copy takes code 1 (R302, R417), where the statement keeps the
code 0 and has the element in memory. -/
theorem not_copyEvents : ¬ Obligations.CopyEvents := by
  unfold Obligations.CopyEvents
  intro h
  obtain ⟨quiet, live, wf, slot, located, code⟩ := fillFailedChannel_located
  obtain ⟨-, -, ofSlot⟩ := h fillFailedChannel 0 0 wf quiet live
  obtain ⟨fill, -⟩ := ofSlot fillSlot slot
  split at located
  next a home pg lf t at_ =>
    simp only [Bool.and_eq_true, Bool.not_eq_true'] at located
    obtain ⟨u, issued, -, stands, -⟩ := fill (.copyElement 0 0) a home pg lf t (.inl ⟨rfl, rfl, by decide⟩) (.inl rfl) at_ located.1 located.2
    simp only [copyCodeAfter, issued] at code
    obtain ⟨d, at0, same⟩ := Option.map_eq_some_iff.1 stands
    rw [at0, Option.map_some, Option.some.injEq] at code
    have kept : d.code = 0 := congrArg (fun p => p.2.2.1) same
    rw [kept] at code
    exact absurd code (by decide)
  next => exact absurd located (by decide)

end Sys2Proof.Machine
end

section
/-! ### A mass table on a discarded page (O39, O40, O52)

An engine that is to write a word of its mass table on a discarded page waits until the page is revived (R150): `bdrg`, `bstep` and a sweep step
then hold before they write anything. -/

namespace Sys2Proof.Machine

/-- The entry of a member on this device, whose region has this RID (R316). -/
def memberEntry (rid : Nat) : Word := field 1 63 ||| field 1 10 ||| field rid 11

/-- A region of RID 3 and one block, whose masses and custody slots lie on one page of task 7. -/
def heldRegion (others : List Word) : Region := {
  rid := 3, id := 5, gen := 1, ver := 1, task := 7#16, lvlH := true, core := 0, nblk := 1, f32 := false, maxMode := false, sparse := false
  fpt := 0, upt := 0, self := 0, sper := 1, dens := 0, retry := 1, tout := 1, minw := 0, vbase := 0x10000, mbase := 0x20000, cbase := 0x21000
  custn := 1, rota := [], table := memberEntry 3 :: others, bnom := 0, k := 0, bdis := 0#32, bdisc := 0#32, ovf := false, uw := false
  nan := false, pblk := false, stale := 0, hold := false, roundHold := false, committed := true, stepped := 0#64
  blocks := [⟨State.reset.coreCluster 0, 1000, false⟩] }

/-- The leaves of task 7: the page of the block is there, that of the masses is discarded. -/
def discardedMassTlb : List TlbEntry :=
  [⟨7#16, 0x10000, false, leaf0 0x10000⟩, ⟨7#16, 0x20000, false, leaf0 0x20000 ||| field 1 55⟩]

/-- A thread of core 0 that holds the RID in x4, at cycle 2048, beside that region. -/
def discardedMassState (r : Region) : State :=
  let s := (State.reset.withFetchWord 96 0).setCluster (State.reset.coreCluster 0) fun c => { c with tlb := discardedMassTlb }
  let s := s.setDie 0 fun d => { d with cyc := 2048#64 }
  { s with thr := { s.thr with ctx := s.thr.ctx.writeX 4#4 3#64 }, regions := [r] }

/-- The only member of the region is itself. -/
def aloneState : State := discardedMassState (heldRegion [])
/-- A region whose other member is the region of RID 4 of the device. -/
def pairRegion : Region := heldRegion [memberEntry 4]
/-- The thread beside that region. -/
def pairState : State := discardedMassState pairRegion

/-- A region is registered under RID 3 after the instruction. -/
def regionStays (i : Instr) (s : State) : Option Bool :=
  match exec i s with
  | .next u => some (u.roundRegion 3).isSome
  | _ => none

/-- `bdrg` meets every condition of the statement, and the region stays. -/
theorem aloneState_ends : aloneState.enabled loadArgs.h = true ∧ aloneState.brineIdle = true ∧ loadArgs.b.ready aloneState = true ∧
    loadArgs.a.free (loadArgs.b.after aloneState) = true ∧ (loadArgs.b.after aloneState).noStores = true ∧
    loadArgs.b.val aloneState = 3#64 ∧ aloneState.roundRegion 3 = some (heldRegion []) ∧
    (heldRegion []).members.all (fun i => i == (heldRegion []).self) = true ∧ aloneState.bcust 3 = 0 ∧ aloneState.quiet = true ∧
    aloneState.regionNear (heldRegion []) = true ∧ regionStays (.bdrg loadArgs) aloneState = some true := by
  decide +kernel

/-- Refutes O39: `bdrg` of the last member waits for a discarded page of its mass table (R150), where the statement has the region end. -/
theorem not_brineRegionCommands : ¬ Obligations.BrineRegionCommands := by
  unfold Obligations.BrineRegionCommands
  intro h
  obtain ⟨enabled, idle, ready, free, noStores, rid, region, alone, noCustody, quiet, near, stays⟩ := aloneState_ends
  obtain ⟨ofRid, -⟩ := h loadArgs aloneState enabled idle
  rw [rid] at ofRid
  obtain ⟨-, -, ends⟩ := ofRid (heldRegion []) ready free noStores (by decide) region rfl
  obtain ⟨u, issued, -, -, -, gone, -⟩ := ends (fun i mem => eq_of_beq (List.all_eq_true.1 alone i mem)) noCustody quiet near
  simp only [regionStays, issued] at stays
  rw [show u.roundRegion 3 = none from gone] at stays
  exact absurd stays (by decide)

/-- `bstep` of block 0 to member 1. -/
def stepArgs : Args := { loadArgs with c := .imm 1#21 }

/-- How many halves are on their way after the instruction. -/
def halvesAfter (i : Instr) (s : State) : Option Nat :=
  match exec i s with
  | .next u => some u.halves.length
  | _ => none

/-- The state in which the engine takes up the command. -/
def stepTaken : State :=
  ((stepArgs.afterBC pairState).oweX stepArgs.a.rix).queued ((stepArgs.afterBC pairState).brineCmd (.bstep stepArgs) 3 0#64 3#64 1#64)

/-- `bstep` meets every condition of the statement on the thread and the region; its block is found, holds no poison, and has a custody slot
for member 1; and it sends nothing. -/
theorem pairState_steps : Memory.wf pairState.mem = true ∧ pairState.enabled stepArgs.h = true ∧ pairState.brineIdle = true ∧
    pairState.quiet = true ∧ stepArgs.readyBC pairState = true ∧ stepArgs.a.free (stepArgs.afterBC pairState) = true ∧
    (stepArgs.afterBC pairState).noStores = true ∧ stepArgs.b.val pairState = 3#64 ∧
    stepArgs.c.val (stepArgs.b.after pairState) = 1#64 ∧ pairState.region 3 = some pairRegion ∧ pairRegion.valid 1 = true ∧
    pairState.regionNear pairRegion = true ∧ (pairRegion.block 0).bad = false ∧ entLocal (pairRegion.table.getD 1 0#64) = true ∧
    (match stepTaken.blockAt pairRegion 0 with
     | some (a, t) => !t.poisoned a 4096 && (t.freeCust pairRegion (pairRegion.block 0).cl 1).isSome
     | none => false) = true ∧
    halvesAfter (.bstep stepArgs) pairState = some 0 := by
  decide +kernel

/-- Refutes O40: `bstep` waits for the discarded page of the mass that it is to halve (R150), where the statement has it send a half. -/
theorem not_brineDataCommands : ¬ Obligations.BrineDataCommands := by
  unfold Obligations.BrineDataCommands
  intro h
  obtain ⟨wf, enabled, idle, quiet, ready, free, noStores, rid, target, region, valid, near, good, onDevice, finds, none_sent⟩ :=
    pairState_steps
  obtain ⟨-, -, -, steps⟩ := h stepArgs pairState wf enabled idle quiet
  rw [rid, target] at steps
  split at finds
  next a t found =>
    simp only [Bool.and_eq_true, Bool.not_eq_true'] at finds
    obtain ⟨u, half, issued, -, -, halves, -⟩ := steps ready free noStores (by decide) (by decide) pairRegion a t region (by decide) (by decide)
      valid rfl near good found finds.1 onDevice (.inr finds.2)
    simp only [halvesAfter, issued, halves, List.length_append, Option.some.injEq] at none_sent
    exact absurd none_sent (by simp)
  next => exact absurd finds (by decide)

/-- The sweep meets every condition of the statement on the region, and sends nothing. -/
theorem pairState_sweeps : pairState.roundRegion 3 = some pairRegion ∧
    pairRegion.sper * 1024 ≤ (pairState.now pairRegion.core - pairRegion.stepped).toNat ∧ (pairState.custOf 3).isEmpty = true ∧
    pairRegion.rotaAt 0 = 1 ∧
    (match pairState.blockAt pairRegion 0 with
     | some (a, _) => !pairState.poisoned a 4096 && (pairState.freeCust pairRegion (pairRegion.block 0).cl 1).isSome
     | none => false) = true ∧
    halvesAfter (.brineSweepStep 3) pairState = some 0 := by
  decide +kernel

/-- Refutes O52: a sweep step sends nothing from a block whose mass lies on a discarded page (R150), where the statement has it send a half. -/
theorem not_brineEvents : ¬ Obligations.BrineEvents := by
  unfold Obligations.BrineEvents
  intro h
  obtain ⟨wf, -, idle, quiet, -, -, -, -, -, -, valid, near, good, onDevice, -, -⟩ := pairState_steps
  obtain ⟨region, due, noCustody, target, finds, none_sent⟩ := pairState_sweeps
  obtain ⟨sweep, -⟩ := h pairState 0 3 wf quiet
  have emptyCustody : pairState.custOf 3 = [] := List.isEmpty_iff.1 noCustody
  obtain ⟨-, sends⟩ := sweep pairRegion idle region near rfl (by decide) due (by simp [emptyCustody])
  rw [target] at sends
  split at finds
  next a t found =>
    simp only [Bool.and_eq_true, Bool.not_eq_true'] at finds
    obtain ⟨i, slot⟩ := Option.isSome_iff_exists.1 finds.2
    obtain ⟨u, issued, -, halves⟩ := sends a i t rfl rfl rfl (by decide) valid good onDevice found finds.1 slot
    simp only [halvesAfter, issued, halves, List.length_append, Option.some.injEq] at none_sent
    exact absurd none_sent (by simp)
  next => exact absurd finds (by decide)

end Sys2Proof.Machine
end

section
/-! ### The pan queue of a core that is declared dead (O41)

The pan commands that a core has admitted run to completion (R269), also when `cmap.dead` takes the core away (R367). -/

namespace Sys2Proof.Machine

/-- A command that the pan has admitted from core 1. -/
def admittedCmd : PanCmd := { core := 1, cxa := 0x10000#64, ins := .mz loadArgs, ctl := 0#64, b := 0#64, c := 0#64, task := 0#16, lvlH := true, join := none }

/-- A thread of core 0 that holds the number of core 1 in x4, with that command admitted. -/
def deadCoreState : State :=
  let s := (State.reset.withFetchWord 96 0).setCore 1 fun c => { c with panQ := [admittedCmd] }
  { s with thr := { s.thr with ctx := s.thr.ctx.writeX 4#4 1#64 } }

/-- How many commands stand in the pan queue of core 1 after the instruction. -/
def panQueueAfter (i : Instr) (s : State) : Option Nat :=
  match exec i s with
  | .next u => some (u.core 1).panQ.length
  | _ => none

/-- `cmap.dead` meets every condition of the statement, core 1 is no hearth core, and the admitted command stays. -/
theorem deadCoreState_declares : deadCoreState.isThere = true ∧ deadCoreState.enabled loadArgs.h = true ∧
    loadArgs.readyBC deadCoreState = true ∧ (loadArgs.afterBC deadCoreState).noStores = true ∧
    (loadArgs.b.after deadCoreState).noStores = true ∧ loadArgs.a.free (loadArgs.b.after deadCoreState) = true ∧
    loadArgs.b.val deadCoreState = 1#64 ∧ isHearth 1 = false ∧ panQueueAfter (.cmapDead loadArgs) deadCoreState = some 1 := by
  decide +kernel

/-- Refutes O41: a pan command that core 1 has admitted stays with the pan when `cmap.dead` declares the core dead (R269), where the statement
has the queue empty. -/
theorem not_systemTablesAndMap : ¬ Obligations.SystemTablesAndMap := by
  unfold Obligations.SystemTablesAndMap
  intro h
  obtain ⟨there, enabled, ready, noStores, noStoresB, free, core, ordinary, stays⟩ := deadCoreState_declares
  obtain ⟨-, -, -, map, -⟩ := h loadArgs deadCoreState there enabled ready noStores
  rw [core] at map
  obtain ⟨-, -, dead⟩ := map noStoresB free (by decide)
  obtain ⟨u, issued, -, -, -, -, -, -, emptied, -⟩ := dead ordinary
  simp only [panQueueAfter, issued, Option.some.injEq] at stays
  rw [show (u.core 1).panQ = [] from emptied] at stays
  exact absurd stays (by decide)

end Sys2Proof.Machine
end

section
/-! ### A population under the number of a new one (O43)

A launch finds its population again by its number (R393); nothing in the conditions of the statement says that no earlier population has it. -/

namespace Sys2Proof.Machine

/-- The image of a LAUNCH of one thread at 0x1000 on core 3, quota 1 (R384). -/
def launchImage : List Word := [1#64, 0x1000#64, field 1 40 ||| 1#64, 0x10003#64] ++ List.replicate 12 0#64

/-- An empty population under this number, whose handle is 0. -/
def emptyPop (ix : Nat) : Pop :=
  { ix := ix, handle := 0#64, task := 0#16, pc := 0#64, seeds := [], count := 0, quota := 1, cores := [], cursor := 0, arena := 0#64, done := 0#64
    tixb := 0, live := 0, shape := 0, complete := false, heldAt := none, lastCore := 0 }

/-- A thread of core 0 that holds the address of the image in x4, with a population under the number that the next one takes. -/
def takenNumberState : State :=
  let s := (State.reset.withFetchWord 96 0).writeMem 0x4000 (launchImage.map fun w => leBytes 8 w.toNat).flatten
  { s with
    thr := { s.thr with ctx := s.thr.ctx.writeX 4#4 0x4000#64 }
    rdyc := [s.coreCluster 3]
    pops := [emptyPop (s.serial + 1)] }

/-- `qlch` meets every condition of the statement on its operands and on memory. -/
theorem takenNumberState_reads : Memory.wf takenNumberState.mem = true ∧ takenNumberState.isThere = true ∧
    takenNumberState.enabled loadArgs.h = true ∧ loadArgs.b.ready takenNumberState = true ∧
    (loadArgs.b.after takenNumberState).noStores = true ∧ loadArgs.readyBC takenNumberState = true ∧
    (loadArgs.afterBC takenNumberState).noStores = true ∧ loadArgs.a.free (loadArgs.afterBC takenNumberState) = true ∧
    (loadArgs.afterBC takenNumberState).destFree 6#4 false = true ∧ takenNumberState.thr.res.launch = none ∧
    loadArgs.ea takenNumberState = 0x4000#64 ∧ takenNumberState.chanWaits 0x4000 = false ∧
    takenNumberState.homeDead (home0 0x4000) = false ∧ takenNumberState.poisoned 0x4000 128 = false ∧
    wordsOfBytes 16 (takenNumberState.readMem 0x4000 128) = launchImage := by
  decide +kernel

/-- What the image asks for. -/
def takenNumberLaunch : Launch := takenNumberState.launchOf launchImage

/-- x6 that the instruction leaves. -/
def x6After (i : Instr) (s : State) : Option Word :=
  match exec i s with
  | .next u => some (Regs.get u.thr.final.x 6#4)
  | _ => none

/-- The image is good, its core can run the population, and the pages of its records are near; x6 then holds the handle of the empty
population. -/
theorem takenNumberLaunch_good : (launchImage.getD 0 0#64).toNat % 256 = 1 ∧ (commandOf launchImage).cmdOk = true ∧
    takenNumberLaunch.bad = false ∧ takenNumberLaunch.named = [3] ∧ takenNumberLaunch.cores = [3] ∧ bootDie 3 = takenNumberState.myDie ∧
    takenNumberState.homeDead 3 = false ∧ takenNumberState.rdyc.contains (takenNumberState.coreCluster 3) = true ∧
    takenNumberState.doneTrap takenNumberLaunch.task takenNumberState.thr.core takenNumberLaunch.desc.done = none ∧
    takenNumberState.waveNear takenNumberLaunch = true ∧
    (takenNumberState.attached 3).length + takenNumberLaunch.desc.quota ≤ 4096 ∧
    x6After (.qlch loadArgs) takenNumberState = some 0#64 := by
  decide +kernel

/-- Refutes O43: `qlch` gives the handle of the population that has the number already, 0, where the statement has a handle that is not 0. -/
theorem not_queueInstructions : ¬ Obligations.QueueInstructions := by
  unfold Obligations.QueueInstructions
  intro h
  obtain ⟨wf, there, enabled, readyB, noStoresB, ready, noStores, freeA, freeNext, fresh, ea, channel, home, clean, image⟩ :=
    takenNumberState_reads
  obtain ⟨op, ok, good, named, cores, die, live, up, done, near, room, zero⟩ := takenNumberLaunch_good
  obtain ⟨-, -, launch⟩ := h loadArgs takenNumberState wf there enabled readyB noStoresB
  rw [ea] at launch
  have nextFree : (loadArgs.afterBC takenNumberState).destsFree (loadArgs.a.rix + 1#4) 1 := fun i lt => by
    obtain rfl : i = 0 := Nat.lt_one_iff.1 lt
    exact freeNext
  have launches := launch ready noStores freeA nextFree fresh (by decide) (by decide) channel home clean
  simp only [show (0x4000#64).toNat = 0x4000 from rfl, image] at launches
  obtain ⟨u, handle, issued, nonzero, leaves, -⟩ := launches op ok good
    (fun n mem => by
      rw [show (takenNumberState.launchOf launchImage).named = [3] from named, List.mem_singleton] at mem
      exact mem ▸ ⟨die, live, up⟩)
    done (fun _ => ⟨near, fun n mem => by
      rw [show (takenNumberState.launchOf launchImage).cores = [3] from cores, List.mem_singleton] at mem
      exact mem ▸ room⟩)
  simp only [x6After, issued, Option.some.injEq, show u.thr.final = _ from leaves] at zero
  refine nonzero (Eq.trans ?_ zero)
  simp [Ctx.orFlags, Ctx.writeX, Regs.get, Regs.set, loadArgs, Opnd.rix]

end Sys2Proof.Machine
end
